-- ==== Sys2Proof/Word.lean ====
section
/-!
DEFINITION. Sys2Proof/Word.lean: the words of the G7 (R9, R98): bytes, the 32-bit lane word, the 64-bit word, the 256-bit
record. Bit 0 is the least significant bit everywhere.
-/
namespace Sys2Proof

/-- One byte of memory (R9). -/
abbrev Byte := BitVec 8
/-- One lane's register word (R98). -/
abbrev Word := BitVec 32
/-- A 64-bit word: S registers, instruction words, entries (R58, R256). -/
abbrev DWord := BitVec 64
/-- A D register or shape record (R124). -/
abbrev Rec256 := BitVec 256

end Sys2Proof
end

