-- ==== Sys2Proof/Config.lean ====
section
/-!
DEFINITION. Sys2Proof/Config.lean: what the G7 fixes as numbers, and the values its specification leaves open. A free value is an
opaque constant: nothing in Lean can evaluate it, so what is proved holds whatever it is (log 3).
-/
namespace Sys2Proof.Config

/-! ## The part (R1–R8) -/

/-- Compute dies of the device. -/
def dies : Nat := 4
/-- Cores of the device. -/
def cores : Nat := 192
/-- Cores of a die. -/
def coresPerDie : Nat := 48
/-- Clusters of the device. -/
def clusters : Nat := 24
/-- Cores of a cluster. -/
def coresPerCluster : Nat := 8
/-- $feat on every G7 core (R277). -/
def feat : DWord := 0xFF

/-! ## Free values -/

/-- The n-th free 64-bit value a run takes. -/
opaque freeWord : Nat → DWord
/-- The n-th free 32-bit value. -/
opaque free32 : Nat → Word
/-- The n-th free byte. -/
opaque freeByte : Nat → Byte
/-- The byte of a newly allocated local range, until it is written (R63): the n-th allocation's, by address. -/
opaque freshByte : Nat → Nat → Byte
/-- Cycles that pass in a core while it takes a step (R13, R276): no rule fixes them. -/
opaque cyclesOf : Nat → BitVec 16

/-- What an SFU function returns before it is held within the bound of R337: the function's number and its input decide, so the
same input gives the same bits in every run. -/
opaque sfuValue : Nat → Word → Word

/-- The clusters that a partition holds on another device, as the security block keeps them (R20 gives no frame that tells them). -/
opaque farClusters : Nat → Nat → BitVec 24

/-- Bytes of shadow store that one open call group takes (R96 gives none). -/
opaque groupBytes : Nat

/-- Bytes of a die's shadow store that a swapped-out partition takes beside its crews and gangs (R96 gives the largest sizes only). -/
opaque swapBytes : Nat → Nat

/-- The 8 bytes at an offset of a die's shadow store, by what the contexts saved there hold: no rule lays the store out (R96, R481). -/
opaque shadowWord : Nat → Nat → List Nat → DWord

/-- The routed image that the foreman's mapper makes of a canonical image's bytes (R246), or none where it cannot fit. -/
opaque mapImage : List Byte → Option (List Byte)

/-- The bytes of a region's kind, die, core and handle in its seal (R93 gives no layout). -/
opaque sealName : Nat → Nat → Nat → Nat → List Byte

/-- PART as the key derivation takes it (R472 gives no width), and a stage number as the measurement does (R470). -/
opaque partBytes : Nat → List Byte
opaque stageBytes : Nat → List Byte

/-- The encapsulation key of the n-th start, and the secret that the security block decapsulates with its key pair (R472). -/
opaque kemKey : Nat → List Byte
opaque kemSecret : Nat → List Byte → BitVec 256

/-- The 256-bit secret KC that the security block makes at the n-th start (R93). -/
opaque sealKey : Nat → BitVec 256

/-- The identity public key and its certificate; a signature by the identity key, the n-th of a run (R469, R471). -/
opaque idKey : List Byte
opaque idCert : List Byte
opaque idSign : Nat → BitVec 256 → List Byte

/-- A report's bytes from its fields (R471 gives no layout). -/
opaque reportBytes : List (List Byte) → List Byte

/-- What the ROM finds of an image's bytes (R477): none while bytes are missing, then none where it rejects the image, or the image's security
version. -/
opaque imageCheck : List Byte → Option (Option Nat)

/-- The digest of a stage's image: of the image with these bytes, or of the one the flash came with (R470, R477); that one's version. -/
opaque stageDigest : Nat → Option (List Byte) → BitVec 256
opaque flashVersion : Nat

/-- What the start that ends in the reset state has measured (R470): M, and the log of its stages. -/
opaque bootMeasure : BitVec 256
opaque bootLog : List (Nat × BitVec 256)

/-- The critical temperature in units of TEMP (R483). -/
opaque criticalTemp : Nat

end Sys2Proof.Config
end

