-- ==== Sys2Proof/Syntax.lean ====
section
/-!
DEFINITION. Sys2Proof/Syntax.lean: the instructions and events of the G7. One constructor per row of spec/opcode_table.json.
The first part of the table is what a sett's slot or a bench rule's action word holds (R279); the second part is the
device's other indivisible steps (95_what_each_step_holds.md), whose arguments say which unit takes the step and, for an
input from outside the device, what arrives.
-/
namespace Sys2Proof

/-- Special registers (R276). -/
inductive Special where
  | lane | crew | gang | core | cluster | die | device
  | lev (n : BitVec 3)
  | mask | budget | feat | press | cyc | seed | fpsr
  deriving DecidableEq, Repr

/-- Source operand (R268). -/
inductive Src where
  | v (n : BitVec 8)
  | s (n : BitVec 6)
  | trans (n : BitVec 5)
  | pop (n : BitVec 4)
  | const (n : BitVec 6)
  | spec (r : Special)
  | tok (n : BitVec 3)
  | pred (n : BitVec 3)
  | dword (d : BitVec 4) (w : BitVec 2)
  deriving DecidableEq, Repr

/-- Destination operand (R271). `trans` is DK 0b01. -/
inductive Dst where
  | v (n : BitVec 8)
  | trans
  | s (n : BitVec 6)
  | p (n : BitVec 3)
  deriving DecidableEq, Repr

/-- Guard predicate and its negation (R272). -/
structure Guard where
  pg : BitVec 3
  pn : Bool
  deriving DecidableEq, Repr

/-- Operands of a one-source instruction. -/
structure Ops1 where
  d : Dst
  a : Src
  g : Guard
  deriving DecidableEq, Repr

/-- Operands of a two-source instruction. -/
structure Ops2 where
  d : Dst
  a : Src
  b : Src
  g : Guard
  deriving DecidableEq, Repr

/-- Operands of a three-source instruction. -/
structure Ops3 where
  d : Dst
  a : Src
  b : Src
  c : Src
  g : Guard
  deriving DecidableEq, Repr

/-- Integer type field IT (R304). -/
inductive IntTy where
  | n32 | i32 | n64 | i64 | n16x2 | i16x2 | n8x4 | i8x4
  deriving DecidableEq, Repr

/-- Rounding modes (R105). -/
inductive Rnd where
  | rne | rz | ru | rd | sr
  deriving DecidableEq, Repr

/-- Integer conditions (R312). -/
inductive Cond where
  | eq | ne | lt | le | gt | ge
  deriving DecidableEq, Repr

/-- Floating-point conditions (R326). -/
inductive FCond where
  | eq | ne | lt | le | gt | ge | un | ord
  deriving DecidableEq, Repr

/-- How a comparison is combined with bit 0 of c (R312). -/
inductive Comb where
  | none | and | or | xor
  deriving DecidableEq, Repr

/-- LOP operations (R311). -/
inductive LopOp where
  | and | or | xor | andn | orn | xnor | not
  deriving DecidableEq, Repr

/-- Shift and rotate operations (R309, R313). -/
inductive ShiftOp where
  | shl | shr | sar | rol | ror
  deriving DecidableEq, Repr

/-- How LEA reads b (R307). -/
inductive LeaMode where
  | plain | zx | sx
  deriving DecidableEq, Repr

/-- SHFL modes (R319). -/
inductive ShflMode where
  | idx | up | down | xor
  deriving DecidableEq, Repr

/-- Packed 16-bit element types (R329). -/
inductive PackTy where
  | f16x2 | b16x2
  deriving DecidableEq, Repr

/-- Element types (R115). -/
inductive ElemTy where
  | n8 | n16 | n32 | n64 | i8 | i16 | i32 | i64 | n4 | i4
  | f32 | f16 | b16 | e4m3 | e5m2
  | mx8a | mx8b | mx6a | mx6b | mx4
  deriving DecidableEq, Repr

/-- Packed conversions by FN (R332). -/
inductive CvtP where
  | toF16x2 | toB16x2 | fromF16x2 | fromB16x2
  | toE4m3Lo | toE4m3Hi | toE5m2Lo | toE5m2Hi
  | fromE4m3Lo | fromE4m3Hi | fromE5m2Lo | fromE5m2Hi
  deriving DecidableEq, Repr

/-- MX formats (R333). -/
inductive MxFmt where
  | mx8a | mx8b | mx6a | mx6b | mx4
  deriving DecidableEq, Repr

/-- MX lane layouts (R333). -/
inductive MxLayout where
  | elem | words
  deriving DecidableEq, Repr

/-- DOT4 types (R336). -/
inductive DotTy where
  | e4m3x4 | e5m2x4 | f16x2 | b16x2 | i8x4 | n8x4
  deriving DecidableEq, Repr

/-- RED and SCAN operations (R339). -/
inductive RedOp where
  | add | min | max | and | or | xor
  deriving DecidableEq, Repr

/-- RED and SCAN types (R339). -/
inductive RedTy where
  | n32 | i32 | n64 | i64 | f32
  deriving DecidableEq, Repr

/-- Scopes (R133). -/
inductive Scope where
  | crew | gang | core | cluster | die | device | domain | system
  deriving DecidableEq, Repr

/-- Load and store widths (R347). -/
inductive MemW where
  | n8 | i8 | n16 | i16 | n32 | n64 | n128
  deriving DecidableEq, Repr

/-- Operands of a load, store or PREF (R263). -/
structure MemA where
  w : MemW
  r : BitVec 8
  base : Src
  index : Src
  off : BitVec 14
  g : Guard
  scope : Scope
  ord : Bool
  scale : BitVec 2
  deriving DecidableEq, Repr

/-- Atomic operations (R352). -/
inductive AtomOp where
  | add | addF32 | min | max | and | or | xor | xchg | cas
  deriving DecidableEq, Repr

/-- Atomic types by SCALE (R352). -/
inductive AtomTy where
  | n32 | i32 | n64 | i64
  deriving DecidableEq, Repr

/-- Operands of an atomic (R352): `r` is the V register that DST names. -/
structure AtomA where
  op : AtomOp
  ty : AtomTy
  r : BitVec 8
  base : Src
  x : Src
  off : BitVec 14
  g : Guard
  scope : Scope
  ord : Bool
  deriving DecidableEq, Repr

/-- Operands of CWB, CINV and IINV (R356): a base, an offset and a line count. -/
structure RangeA where
  base : Src
  n : Src
  off : BitVec 14
  g : Guard
  deriving DecidableEq, Repr

/-- In-flight counter paths (R174, R368). -/
inductive Path6 where
  | ld | st | cp | mx | cl | tk
  deriving DecidableEq, Repr

/-- Spaces a monitor or target word may name (R369, R372). -/
inductive Space3 where
  | global | localMem | yard
  deriving DecidableEq, Repr

/-- WAIT.STAMP comparisons (R171). -/
inductive StampCmp where
  | eq | ne | ge
  deriving DecidableEq, Repr

/-- COLL kinds (R388). -/
inductive CollKind where
  | allred | redscat | allgath | bcast
  deriving DecidableEq, Repr

/-- COLL operations (R388). -/
inductive CollOp where
  | sum | max | min
  deriving DecidableEq, Repr

/-- TOK.LOAD fields (R391). -/
inductive TokField where
  | kind | pos | sslot | chunk | mflags | parent | kvh | nextop | epoch | topk | temp | topp | sseed | lentHeld | uflags
  | seqid | hidden | feat | summary | user
  deriving DecidableEq, Repr

/-- System registers (R403). -/
inductive SysReg where
  | xlatInv | xlatStat | kvdescBase | fqResume | ptRoot | privRoot | privHwm | privLimit | memerr
  | carPeriod | submit | submitSt
  | trPc | trCause | trAddr | trS0 | trS1 | trVec | wdog | frRing | frStamp | frRead
  deriving DecidableEq, Repr

/-- A request waiting to perform at a home (R85): the k-th request in flight, or one element of an engine operation. -/
inductive HomeSel where
  | inflight (k : Nat)
  | engine (op : Nat)
  deriving DecidableEq, Repr

/-- A configuration region (R92): bench image on a core, operator table or carousel program of a die. -/
inductive RegionSel where
  | opTable (die : Nat)
  | carousel (die : Nat)
  | bench (b : Nat)
  deriving DecidableEq, Repr

/-- Where an uncorrectable error strikes (R90). A word of memory stands by its device-local address divided by 4; an error in the shadow store by
the crew whose saved context it lies in; an error in what the store keeps beside a region (R93) by 0 for the reference digest, 1 for the backing
address, 2 for the seal. -/
inductive ErrSite where
  | l1 (core line : Nat)
  | icache (core line : Nat)
  | fetchBuf (crew : Nat)
  | buffer (core word : Nat)
  | memory (word : Nat)
  | vreg (crew reg lane : Nat)
  | sreg (crew reg : Nat)
  | preg (crew reg : Nat)
  | dreg (crew word : Nat)
  | acc (core tile word : Nat)
  | token (slot word : Nat)
  | shadow (die crew : Nat)
  | kept (r : RegionSel) (item : Nat)
  deriving DecidableEq, Repr

/-- A moded yard region or a local operand buffer that a filler or a consumer waits on (R67, R72). -/
inductive RingSel where
  | yard (y ag : Nat)
  | localOb (gang ob : Nat)
  deriving DecidableEq, Repr

/-- Boot failure reasons (R480). -/
inductive BootReason where
  | signature | flash | hbm | die | link | watchdog | rollback | thermal
  deriving DecidableEq, Repr

/-- What arrives on the Tolsal link (R464): a request from a peer, the response to one of this device's requests, or the
acknowledgement of a response of this device. `bad`: the poisoned 4-byte words of the bytes or of the record, counted from the first (R91). -/
inductive TolsalMsg where
  | read (src seq pa n : Nat) (level : Bool) (part : Nat)
  | write (src seq pa : Nat) (bytes : List Byte) (level : Bool) (part : Nat)
  | atomic (src seq pa : Nat) (op : AtomOp) (ty : ElemTy) (x y : DWord) (level : Bool) (part : Nat)
  | response (seq : Nat) (bytes : List Byte) (bad : List Nat)
  | failed (seq : Nat) (cause : BitVec 8)
  | token (src seq srcHandle epoch : Nat) (dieOp : Nat) (pri : Bool) (summary : DWord) (image : BitVec 1024) (bad : List Nat) (level : Bool)
      (part : Nat)
  | tokenAccepted (seq : Nat)
  | reserve (src seq pa : Nat) (part : Nat)
  | unreserve (src seq pa : Nat) (of : Nat) (part : Nat)
  | coll (src : Nat) (part group inst : Nat) (words : List DWord)
  | acked (src seq : Nat)
  deriving DecidableEq, Repr

/-- An authenticated management frame's envelope (R457, R459): PART, CTR, and whether the tag verifies under MK of PART. -/
structure Auth where
  part : Nat
  ctr : DWord
  tagOk : Bool
  deriving DecidableEq, Repr

/-- Instructions and events of the G7: one constructor per row of the table. -/
inductive Instr where
  -- control (R292)
  | br (g : Guard) (target : BitVec 38)
  | brcAny (g : Guard) (target : BitVec 38)
  | brcAll (g : Guard) (target : BitVec 38)
  | brx (g : Guard) (a : Src)
  | call (g : Guard) (target : BitVec 38)
  | callx (g : Guard) (a : Src)
  | ret (g : Guard)
  | loop (g : Guard) (k : BitVec 6) (target : BitVec 38)
  | join (g : Guard) (k : BitVec 6) (target : BitVec 38)
  | yield (g : Guard)
  | exit (g : Guard)
  | nop (g : Guard)
  -- integer arithmetic (R306-R308)
  | iadd (o : Ops2) (t : IntTy) (sat : Bool)
  | iadd3 (o : Ops3) (t : IntTy) (sat : Bool)
  | isub (o : Ops2) (t : IntTy) (sat : Bool)
  | imul (o : Ops2) (t : IntTy) (sat : Bool)
  | imulh (o : Ops2) (t : IntTy)
  | imad (o : Ops3) (t : IntTy) (sat : Bool)
  | imadWide (o : Ops3) (t : IntTy) (sat : Bool)
  | imin (o : Ops2) (t : IntTy)
  | imax (o : Ops2) (t : IntTy)
  | iabs (o : Ops1) (t : IntTy) (sat : Bool)
  | lea (o : Ops2) (t : IntTy) (sh : BitVec 3) (m : LeaMode)
  | shl (o : Ops2) (t : IntTy)
  | shr (o : Ops2) (t : IntTy)
  | sar (o : Ops2) (t : IntTy)
  | rol (o : Ops2) (t : IntTy)
  | ror (o : Ops2) (t : IntTy)
  | mov (o : Ops1)
  | movN64 (o : Ops1)
  | movSpecial (g : Guard) (a : Src) (fpsr : Bool)
  | movDWord (g : Guard) (a : Src) (w : BitVec 6)
  | movi (d : Dst) (g : Guard) (t : IntTy) (imm : BitVec 20)
  | sel (o : Ops3) (t : IntTy)
  | icmp (o : Ops3) (t : IntTy) (c : Cond) (k : Comb)
  | bfx (o : Ops2) (t : IntTy)
  | bfi (o : Ops3) (t : IntTy)
  | popc (o : Ops1) (t : IntTy)
  | clz (o : Ops1) (t : IntTy)
  | ctz (o : Ops1) (t : IntTy)
  | brev (o : Ops1) (t : IntTy)
  | lop (o : Ops2) (t : IntTy) (op : LopOp)
  | iaddImm (o : Ops1) (t : IntTy) (sat : Bool) (imm : BitVec 20)
  | imulImm (o : Ops1) (t : IntTy) (sat : Bool) (imm : BitVec 20)
  | lopImm (o : Ops1) (t : IntTy) (op : LopOp) (imm : BitVec 20)
  | shiftImm (o : Ops1) (t : IntTy) (op : ShiftOp) (imm : BitVec 20)
  | icmpImm (o : Ops1) (t : IntTy) (c : Cond) (imm : BitVec 20)
  | iminmaxImm (o : Ops1) (t : IntTy) (isMax : Bool) (imm : BitVec 20)
  -- predicates and permutes (R314-R321)
  | plop (o : Ops3) (lut : BitVec 8)
  | pmovPack (d : Dst) (g : Guard)
  | pmovSet (a : Src) (m : Src) (g : Guard)
  | voteAll (o : Ops1)
  | voteAny (o : Ops1)
  | voteEq (o : Ops1)
  | voteBallot (o : Ops1)
  | voteCount (o : Ops1)
  | perm (o : Ops3)
  | shfl (o : Ops2) (t : IntTy) (m : ShflMode) (seg : BitVec 3)
  | bcastIdx (o : Ops2) (t : IntTy)
  | bcastFirst (o : Ops1) (t : IntTy)
  | cmpct (o : Ops3) (t : IntTy)
  -- floating point (R324-R341)
  | fadd (o : Ops2) (rm : Rnd) (sat na nb : Bool)
  | fmul (o : Ops2) (rm : Rnd) (sat na : Bool)
  | ffma (o : Ops3) (rm : Rnd) (sat np nc : Bool)
  | fmin (o : Ops2) (nan : Bool)
  | fmax (o : Ops2) (nan : Bool)
  | fcmp (o : Ops3) (c : FCond) (k : Comb)
  | fclass (o : Ops1)
  | fclassTest (o : Ops2)
  | frnd (o : Ops1) (rm : Rnd)
  | faddPacked (o : Ops2) (t : PackTy) (rm : Rnd) (sat na nb : Bool)
  | fmulPacked (o : Ops2) (t : PackTy) (rm : Rnd) (sat na : Bool)
  | ffmaPacked (o : Ops3) (t : PackTy) (rm : Rnd) (sat np nc : Bool)
  | fminPacked (o : Ops2) (t : PackTy) (nan : Bool)
  | fmaxPacked (o : Ops2) (t : PackTy) (nan : Bool)
  | fcmpPacked (o : Ops2) (t : PackTy) (c : FCond)
  | cvt (o : Ops1) (dt st : ElemTy) (rm : Rnd) (sat : Bool)
  | cvtPacked (o : Ops3) (f : CvtP) (rm : Rnd) (sat : Bool)
  | mxpack (o : Ops1) (f : MxFmt) (l : MxLayout) (strict : Bool) (rm : Rnd)
  | mxunpack (o : Ops1) (f : MxFmt) (l : MxLayout)
  | dot4 (o : Ops3) (t : DotTy) (rm : Rnd) (sat : Bool)
  | rcp (o : Ops1)
  | rsq (o : Ops1)
  | sqrt (o : Ops1)
  | exp2 (o : Ops1)
  | log2 (o : Ops1)
  | sin (o : Ops1)
  | cos (o : Ops1)
  | tanh (o : Ops1)
  | sigm (o : Ops1)
  | sfuResultReturn (core quarter : Nat)
  | red (o : Ops1) (op : RedOp) (t : RedTy) (seg : BitVec 3)
  | scan (o : Ops2) (op : RedOp) (t : RedTy) (seg : BitVec 3) (excl cin : Bool)
  -- memory (R349-R358)
  | ldl (m : MemA)
  | ldg (m : MemA)
  | ldy (m : MemA)
  | ldkv (m : MemA)
  | ldt (m : MemA)
  | stl (m : MemA)
  | stg (m : MemA)
  | sty (m : MemA)
  | atomGlobal (a : AtomA)
  | atomLocal (a : AtomA)
  | atomYard (a : AtomA)
  | atomGlobalNoret (a : AtomA)
  | atomLocalNoret (a : AtomA)
  | atomYardNoret (a : AtomA)
  | fence (g : Guard) (scope : Scope)
  | fenceEng (g : Guard) (scope : Scope)
  | prefL1 (base index : Src) (off : BitVec 14) (g : Guard) (scale : BitVec 2)
  | prefDc (base index : Src) (off : BitVec 14) (g : Guard) (scale : BitVec 2)
  | cwb (a : RangeA)
  | cinv (a : RangeA)
  | iinv (a : RangeA) (scope : Scope)
  | fetchb (g : Guard)
  -- synchronisation (R360)
  | barArrive (g : Guard) (k : BitVec 4)
  | barWait (g : Guard) (k : BitVec 4)
  | barSync (g : Guard) (k : BitVec 4)
  | crewJoin (g : Guard)
  | crewLeave (d : Dst) (g : Guard)
  | crewQuery (d : Dst) (g : Guard)
  | crewQueryGang (d : Dst) (g : Guard)
  | qpush (g : Guard) (a : Src) (n : BitVec 4)
  | qpop (d : Dst) (g : Guard) (n : BitVec 4)
  | waitc (g : Guard) (a : Src) (p : Path6)
  | monArm (g : Guard) (a : Src) (sp : Space3) (scope : Scope) (k : BitVec 2)
  | waitStamp (d : Dst) (g : Guard) (v : Src) (cmp : StampCmp) (k : BitVec 2)
  | stampMonitorWake (crew : Nat)
  | stampPollTimer (crew : Nat)
  -- matrix (R371-R384)
  | mma (g : Guard) (ta tb : ElemTy) (ka kb : Bool) (acc : BitVec 3) (oba obb : BitVec 4) (c : Src)
  | accNew (g : Guard) (acc : BitVec 3)
  | accZero (g : Guard) (acc : BitVec 3)
  | accLd (g : Guard) (acc : BitVec 3) (da : BitVec 4) (a : Src)
  | accSt (g : Guard) (acc : BitVec 3) (da : BitVec 4) (a : Src) (rm : Rnd) (sat : Bool)
  | accRd (g : Guard) (acc : BitVec 3) (p : Src) (d : Dst)
  | tld (g : Guard) (ob : BitVec 4) (da : BitVec 4) (a : Src)
  | matrixOperationExecute (core op : Nat)
  | accTileDrainFree (core tile : Nat)
  | shapeMake (g : Guard) (da : BitVec 4) (sn : BitVec 6) (e : Dst) (strict : Bool)
  -- copies, collectives (R385-R389)
  | copy (g : Guard) (ds dd : BitVec 4) (sn : BitVec 6)
  | copyCond (g : Guard) (ds dd : BitVec 4) (sn : BitVec 6)
  | copyMc (g : Guard) (ds : BitVec 4) (a : Src)
  | copyArm (g : Guard) (ds dd : BitVec 4) (sn : BitVec 6) (e : Dst) (slot : BitVec 4)
  | copyDisarm (g : Guard) (e : Dst) (slot : BitVec 4)
  | coll (g : Guard) (k : CollKind) (op : CollOp) (t : ElemTy) (ds dd : BitVec 4) (sn : BitVec 6)
  -- tokens (R390)
  | tokLoad (d : Dst) (g : Guard) (f : TokField) (h : Src) (sel : Src)
  | tokHdr (o : Ops1)
  | tokSend (o : Ops3)
  | tokRetire (o : Ops1)
  | tokSpawn (o : Ops3)
  -- bench (R398-R400)
  | benchEnter (g : Guard) (sn : BitVec 6)
  | benchExit (o : Ops1)
  | benchState (o : Ops1)
  | steer (o : Ops2)  -- o.b is c, in SRC3
  | merge (o : Ops3)
  | gate (o : Ops2)  -- o.b is c, in SRC3
  | fwd (o : Ops1)
  -- system (R401)
  | trap (g : Guard) (code : BitVec 16)
  | tret (g : Guard)
  | svc (g : Guard) (code : BitVec 16)
  | sysr (d : Dst) (g : Guard) (r : SysReg)
  | sysw (g : Guard) (r : SysReg) (a : Src)
  | survey (o : Ops1)
  | featTest (o : Ops1)
  | featCtx (d : Dst) (g : Guard)
  | halt (g : Guard)
  -- setts, issue, traps
  | settStart
  | settCommit
  | quarterIssueSwitch (crew : Nat)
  | trapEntry
  -- translation and fault queues
  | walkComplete (k : Nat)
  | faultRecordDeliver (die : Nat)
  | fqResumeReplay (die entry : Nat)
  | fqResumeCancel (die entry : Nat)
  | xlatInvComplete
  -- memory system
  | homeAccessPerform (sel : HomeSel)
  | combiningBufferTimeout (core line : Nat)
  | configReloadDone (r : RegionSel)
  | yardRegionFill (r : RingSel)
  | yardRegionConsume (r : RingSel)
  -- engines
  | engineAccept (op : Nat)
  | engineOperationComplete (op : Nat)
  | condCopyReserve (op : Nat)
  | templateFire (core slot : Nat)
  | multicastTileRead (op : Nat)
  | multicastTileDeliver (op branch : Nat)
  | collectiveInstanceComplete (op : Nat) (lost : List Nat)
  -- tokens, carders, carousel
  | tokenAccept (die op : Nat)
  | tokenAcceptReturn (slot : Nat)
  | dieLinkResend (k : Nat)
  | carderSpillAccept (die op : Nat)
  | battForm (die op : Nat)
  | carderTimeout (die op : Nat)
  | battDispatch (die op : Nat)
  | carouselPassBegin (die : Nat)
  | carouselTileFill (die : Nat)
  | configTakeEffect (die : Nat)
  | gangPlace (die : Nat)
  | reserveCrewAttach (core : Nat)
  | stealReceive (lend : Nat)
  | stealAckDelivered (lend : Nat)
  -- bench
  | benchStart (b : Nat)
  | benchMap (b : Nat)
  | startTokenTake (b elem : Nat)
  | elementRuleFire (b elem : Nat)
  | isectStep (b elem : Nat)
  | reordStep (b elem : Nat)
  | bufStep (b elem : Nat)
  | rtreeStep (b elem : Nat)
  | memStreamRead (b elem : Nat)
  | memRandomAccess (b elem : Nat)
  | memOrderedUpdate (b elem : Nat)
  | orderedRetire (b : Nat)
  | spallFaultSend (b elem : Nat)
  | spallDeliver (b : Nat)
  | spallReply (b : Nat)
  | benchRetire (b : Nat)
  | benchAbort (b : Nat)
  | benchDrainComplete (b : Nat)
  | benchStoppingComplete (b : Nat)
  | benchResume (b : Nat)
  -- front end
  | intakeSpillMove (prod : Nat)
  | commandTake
  | launch (cmd : Nat)
  | delta (cmd : Nat)
  | stampwait (cmd : Nat)
  | stampwaitEnd (cmd : Nat)
  | config (cmd : Nat)
  | partitionCreate (cmd : Nat)
  | partitionSwapout (cmd : Nat)
  | swapoutSaveComplete (part : Nat)
  | partitionSwapin (cmd : Nat)
  | partitionPreempt (cmd : Nat)
  | crewPreemptSave (crew : Nat)
  | partitionDestroy (cmd : Nat)
  | partitionScrub (cmd : Nat)
  | resume (cmd : Nat)
  | producer (cmd : Nat)
  | commandNop (cmd : Nat)
  | commandComplete (cmd : Nat)
  | launchComplete (launch : Nat)
  -- inputs, timers, errors, and the writes of single system registers
  | doorbell (part : Nat) (words : List DWord)
  | firmwareRestart
  | firmwareRestartEnd
  | surveyreq (a : Auth) (addrs : List DWord)
  | attestreq (nonce : BitVec 256)
  | idreq
  | key (part : Nat) (ciphertext : List Byte)
  | window (a : Auth) (n : Nat) (entry : BitVec 128)
  | qpset (a : Auth) (localQp remoteQp : BitVec 24) (mac : BitVec 48) (ip : BitVec 128) (ring : Option (BitVec 64 × BitVec 32 × Nat))
  | group (a : Auth) (h : Nat) (devs : List Nat)
  | grant (a : Auth) (dev first count : Nat) (dest : Option Nat)
  | domain (a : Auth) (dev : BitVec 4) (peers : List (Option (BitVec 4 × BitVec 256)))
  | image (off : Nat) (bytes : List Byte)
  | restart (a : Auth)
  | rdmaWrite (part : Nat) (key : BitVec 32) (va : BitVec 64) (bytes : List Byte) (macsec : Bool)
  | rdmaRead (part : Nat) (key : BitVec 32) (va : BitVec 64) (n : Nat) (macsec : Bool)
  | roceInvalidRequest (part : Nat)
  | cnpReceive (part : Nat)
  | tolsalFrameReceive (m : TolsalMsg)
  | tolsalResend (seq : Nat)
  | destinationUnreachable (dev : BitVec 4)
  | portOpen (port : Nat) (digest : BitVec 256)
  | portClose (port : Nat)
  | sakRekey (port : Nat)
  | powerOnStart
  | bootStageComplete (ok : Option BootReason)
  | bootStageWatchdog
  | imageFetchTimeout
  | thermalThrottle (die : Nat) (temp : BitVec 16) (level : BitVec 8)
  | throttleEpisodeEnd (die : Nat)
  | thermalCritical
  | clusterPowerGate (die cluster : Nat) (gate : Bool)
  | powerLoss
  | dieReset (die : Nat)
  | patrolScrub (die : Nat)
  | uncorrectableError (site : ErrSite)
  | configFreeze (r : RegionSel)
  | battStealGrant (victim op thiefCore : Nat)
  | lendDisturbance (lend : Nat) (victimReset : Bool)
  | localWatchdog (crew : Nat)
  | benchDrainTimeout (b : Nat)
  | xlatInvPartition (crew : Nat)
  | xlatInvPage (crew : Nat) (arg : BitVec 56)
  | xlatInvKv (crew : Nat) (handle : BitVec 32)
  | xlatInvPrivate (crew : Nat) (ctx : BitVec 14)
  | ptRootWrite (crew : Nat) (v : DWord)
  | privHwmWrite (crew : Nat) (v : DWord)
  | memerrWrite (crew : Nat) (v : DWord)
  | frReadWrite (crew : Nat) (v : DWord)
  | frRingWrite (crew : Nat) (v : DWord)
  | frStampWrite (crew : Nat) (v : DWord)
  | submitWrite (crew : Nat) (v : DWord)
  | systemRegisterWrite (crew : Nat) (r : SysReg) (v : DWord)
  deriving DecidableEq, Repr

end Sys2Proof
end

