-- ==== Sys2Proof/WellFormed.lean ====
section
/-!
DEFINITION. Sys2Proof/WellFormed.lean: which terms of `Instr` are instructions of the G7. Every check an instruction's entry
makes on its own word beyond the ranges of its fields stands here: accepted types (R304), even register pairs (R269, R271,
R347), destination kinds (R201, R271), register groups, operand blocks (R371), and fields that an entry leaves unused.
-/
namespace Sys2Proof

namespace Src

/-- A 64-bit operand may name only an even V register (R269). -/
def even64 : Src → Bool
  | .v n => n.toNat % 2 == 0
  | _ => true

/-- A source field whose ten bits are zero, which is how an unused source field reads (R261). -/
def isZero : Src → Bool
  | .v n => n == 0
  | _ => false

/-- Source encodings of R268: word and register numbers are bounded by their fields; nothing further. -/
def even (wide : Bool) (a : Src) : Bool := !wide || a.even64

end Src

namespace Dst

/-- A 64-bit result goes to an even V register (R271). -/
def even64 : Dst → Bool
  | .v n => n.toNat % 2 == 0
  | _ => true

def even (wide : Bool) (d : Dst) : Bool := !wide || d.even64

/-- Not DK 0b01, which an effectful instruction may not carry (R201). -/
def notTrans : Dst → Bool
  | .trans => false
  | _ => true

/-- DK 0b00 or DK 0b10. -/
def isVS : Dst → Bool
  | .v _ => true
  | .s _ => true
  | _ => false

/-- DK 0b00 with an even register, or DK 0b10: where a 64-bit result of a crew goes (R360, R390, R401). -/
def isEvenVS (d : Dst) : Bool := d.isVS && d.even64

/-- Not DK 0b11. -/
def notP : Dst → Bool
  | .p _ => false
  | _ => true

end Dst

namespace IntTy

/-- 64-bit types (R304). -/
def wide : IntTy → Bool
  | .n64 | .i64 => true
  | _ => false

/-- IT 0b000–0b011. -/
def scalar : IntTy → Bool
  | .n32 | .i32 | .n64 | .i64 => true
  | _ => false

/-- IT 0b000 or 0b010. -/
def unsignedScalar : IntTy → Bool
  | .n32 | .n64 => true
  | _ => false

/-- IT 0b000, 0b010, 0b100 or 0b110. -/
def unsigned : IntTy → Bool
  | .n32 | .n64 | .n16x2 | .n8x4 => true
  | _ => false

/-- IT 0b001, 0b011, 0b101 or 0b111. -/
def signed (t : IntTy) : Bool := !t.unsigned

/-- IT 0b000 or 0b001. -/
def is32 : IntTy → Bool
  | .n32 | .i32 => true
  | _ => false

end IntTy

namespace RedTy
/-- 64-bit types (R339). -/
def wide : RedTy → Bool
  | .n64 | .i64 => true
  | _ => false
end RedTy

namespace RedOp
/-- Bitwise operations, which .F32 does not take (R339). -/
def bitwise : RedOp → Bool
  | .and | .or | .xor => true
  | _ => false
end RedOp

namespace ElemTy

/-- The numeric types of CVT, codes 0x00–0x07 and 0x10–0x14 (R330). -/
def scalar : ElemTy → Bool
  | .n4 | .i4 | .mx8a | .mx8b | .mx6a | .mx6b | .mx4 => false
  | _ => true

/-- 64-bit elements (R115). -/
def wide : ElemTy → Bool
  | .n64 | .i64 => true
  | _ => false

/-- Integer types (R115). -/
def isInt : ElemTy → Bool
  | .n8 | .n16 | .n32 | .n64 | .i8 | .i16 | .i32 | .i64 | .n4 | .i4 => true
  | _ => false

/-- MX types, codes 0x18–0x1C (R115). -/
def isMx : ElemTy → Bool
  | .mx8a | .mx8b | .mx6a | .mx6b | .mx4 => true
  | _ => false

/-- MMA's float group (R380). -/
def mmaFloat : ElemTy → Bool
  | .f16 | .b16 | .e4m3 | .e5m2 | .mx8a | .mx8b | .mx6a | .mx6b | .mx4 => true
  | _ => false

/-- MMA's integer group (R380). -/
def mmaInt : ElemTy → Bool
  | .n8 | .i8 | .n4 | .i4 => true
  | _ => false

/-- COLL's types (R388). -/
def coll : ElemTy → Bool
  | .f32 | .f16 | .b16 | .i32 | .n32 | .i64 | .n64 => true
  | _ => false

end ElemTy

namespace DotTy
/-- Integer DOT4 types (R336). -/
def isInt : DotTy → Bool
  | .i8x4 | .n8x4 => true
  | _ => false
end DotTy

namespace CvtP
/-- Forms that round two FP32 values into a word (R332). -/
def isPack : CvtP → Bool
  | .toF16x2 | .toB16x2 | .toE4m3Lo | .toE4m3Hi | .toE5m2Lo | .toE5m2Hi => true
  | _ => false
/-- Pack forms that keep half of c (R332). -/
def usesC : CvtP → Bool
  | .toE4m3Lo | .toE4m3Hi | .toE5m2Lo | .toE5m2Hi => true
  | _ => false
end CvtP

namespace AtomTy
/-- 64-bit atomic types (R352). -/
def wide : AtomTy → Bool
  | .n64 | .i64 => true
  | _ => false
end AtomTy

namespace TokField
/-- 64-bit fields of TOK.LOAD (R391). -/
def wide : TokField → Bool
  | .seqid | .hidden | .feat | .summary | .user => true
  | _ => false
end TokField

namespace SysReg
/-- Registers SYSR may name (R403 and each register's table). -/
def readable : SysReg → Bool
  | .xlatInv | .fqResume | .submit => false
  | _ => true
/-- Registers SYSW may name. -/
def writable : SysReg → Bool
  | .xlatStat | .privLimit | .carPeriod | .submitSt => false
  | _ => true
/-- Privilege level an access needs (R403). -/
def privileged : SysReg → Bool
  | .carPeriod | .submit | .submitSt => false
  | _ => true
end SysReg

namespace MemW
/-- Bytes a load or store moves per lane (R347). -/
def bytes : MemW → Nat
  | .n8 | .i8 => 1
  | .n16 | .i16 => 2
  | .n32 => 4
  | .n64 => 8
  | .n128 => 16
/-- Registers of the group DST names (R347). -/
def group : MemW → Nat
  | .n64 => 2
  | .n128 => 4
  | _ => 1
/-- Widths a store has (R347). -/
def store : MemW → Bool
  | .i8 | .i16 => false
  | _ => true
end MemW

namespace Ops1
/-- Evenness of a one-source instruction's destination and source. -/
def even (o : Ops1) (d a : Bool) : Bool := o.d.even d && o.a.even a
end Ops1

namespace Ops2
def even (o : Ops2) (d a b : Bool) : Bool := o.d.even d && o.a.even a && o.b.even b
end Ops2

namespace Ops3
def even (o : Ops3) (d a b c : Bool) : Bool := o.d.even d && o.a.even a && o.b.even b && o.c.even c
end Ops3

namespace MemA
/-- Register group, ordering and width checks of R263 and R347; `g64`: a global base, read at 64 bits (R346). -/
def wf (m : MemA) (g64 mayOrder : Bool) : Bool :=
  m.r.toNat % m.w.group == 0 && m.base.even g64 &&
  (m.ord || m.scope == .crew) && (!m.ord || mayOrder) && !(m.ord && m.w == .n128)
end MemA

namespace AtomA
/-- R352: pairs for 8-byte types, FN 0x1 only with SCALE 0b00, SCOPE zero without ORD. -/
def wf (a : AtomA) (g64 ret : Bool) : Bool :=
  a.base.even g64 && a.x.even a.ty.wide && (a.op != .addF32 || a.ty == .n32) && (a.ord || a.scope == .crew) &&
  (if ret || a.op == .cas then !a.ty.wide || a.r.toNat % 2 == 0 else a.r == 0)
end AtomA

/-- An operand block of k words starting at Sn lies within the S registers (R371). -/
def blockFits (n : BitVec 6) (k : Nat) : Bool := n.toNat + k ≤ 64

namespace Instr

/-- The word-level checks an instruction's entry makes. Events are no words: none is ill formed. -/
def wf : Instr → Bool
  | br _ _ | brcAny _ _ | brcAll _ _ | call _ _ | ret _ | loop _ _ _ | join _ _ _ | yield _ | exit _ | nop _ => true
  | brx _ a | callx _ a => a.even64
  | iadd o t _ | isub o t _ | imul o t _ => o.even t.wide t.wide t.wide
  | iadd3 o t _ | imad o t _ => o.even t.wide t.wide t.wide t.wide
  | imulh o t => t.scalar && o.even t.wide t.wide t.wide
  | imadWide o t _ => t.is32 && o.even true false false true
  | imin o t | imax o t => o.even t.wide t.wide t.wide
  | iabs o t _ => t.signed && o.even t.wide t.wide
  | lea o t _ m => t.unsignedScalar && (m == .plain || t.wide) && o.even t.wide t.wide (t.wide && m == .plain)
  | shl o t | shr o t | sar o t | rol o t | ror o t => t.unsigned && o.even t.wide t.wide false
  | mov o => o.even false false
  | movN64 o => o.even true true
  | movSpecial _ a _ => a.even64
  | movDWord _ a _ => a.even64
  | movi d _ t _ => t.scalar && d.even t.wide
  | sel o t => t.unsignedScalar && o.even t.wide t.wide t.wide false
  | icmp o t _ k => t.scalar && o.even false t.wide t.wide false && (k != .none || o.c.isZero)
  | bfx o t => t.scalar && o.even t.wide t.wide false
  | bfi o t => t.unsignedScalar && o.even t.wide t.wide false t.wide
  | popc o t | clz o t | ctz o t => t.unsignedScalar && o.even false t.wide
  | brev o t => t.unsignedScalar && o.even t.wide t.wide
  | lop o t op => t.unsignedScalar && o.even t.wide t.wide t.wide && (op != .not || o.b.isZero)
  | iaddImm o t _ _ | imulImm o t _ _ => t.scalar && o.even t.wide t.wide
  | lopImm o t op _ => t.unsignedScalar && o.even t.wide t.wide && op != .not
  | shiftImm o t _ imm =>
    t.unsignedScalar && o.even t.wide t.wide && decide (imm.toNat < (if t.wide then 64 else 32))
  | icmpImm o t _ _ => t.scalar && o.even false t.wide
  | iminmaxImm o t _ _ => t.scalar && o.even t.wide t.wide
  | plop _ _ | pmovPack _ _ | pmovSet _ _ _ => true
  | voteAll _ | voteAny _ | voteEq _ | voteBallot _ | voteCount _ | perm _ => true
  | shfl o t _ seg => t.unsignedScalar && o.even t.wide t.wide false && decide (seg.toNat ≤ 5)
  | bcastIdx o t => t.unsignedScalar && o.even t.wide t.wide false
  | bcastFirst o t => t.unsignedScalar && o.even t.wide t.wide
  | cmpct o t => t.unsignedScalar && o.even t.wide t.wide false t.wide
  | fadd _ _ _ _ _ | fmul _ _ _ _ | ffma _ _ _ _ _ | fmin _ _ | fmax _ _ => true
  | fcmp o _ k => k != .none || o.c.isZero
  | fclass _ | fclassTest _ | frnd _ _ => true
  | faddPacked _ _ _ _ _ _ | fmulPacked _ _ _ _ _ | ffmaPacked _ _ _ _ _ _ => true
  | fminPacked _ _ _ | fmaxPacked _ _ _ | fcmpPacked _ _ _ => true
  | cvt o dt st rm _ => dt.scalar && st.scalar && o.even dt.wide st.wide && (!(dt.isInt && st.isInt) || rm == .rne)
  | cvtPacked o f rm sat =>
    if f.isPack then f.usesC || o.c.isZero
    else o.d.even64 && o.b.isZero && o.c.isZero && rm == .rne && !sat
  | mxpack _ _ _ _ _ | mxunpack _ _ _ => true
  | dot4 _ t rm sat => if t.isInt then rm == .rne else !sat
  | rcp _ | rsq _ | sqrt _ | exp2 _ | log2 _ | sin _ | cos _ | tanh _ | sigm _ => true
  | red o op t seg => o.even t.wide t.wide && !(op.bitwise && t == .f32) && decide (seg.toNat ≤ 5)
  | scan o op t seg _ cin =>
    o.even t.wide t.wide t.wide && !(op.bitwise && t == .f32) && decide (seg.toNat ≤ 5) && (cin || o.b.isZero)
  | ldl m | ldy m => m.wf false true
  | ldg m => m.wf true true
  | ldkv m | ldt m => m.wf false false
  | stl m | sty m => m.w.store && m.wf false true
  | stg m => m.w.store && m.wf true true
  | atomGlobal a => a.wf true true
  | atomLocal a | atomYard a => a.wf false true
  | atomGlobalNoret a => a.wf true false
  | atomLocalNoret a | atomYardNoret a => a.wf false false
  | fence _ _ | fenceEng _ _ | fetchb _ => true
  | prefL1 b _ _ _ _ | prefDc b _ _ _ _ => b.even64
  | cwb a | cinv a => a.base.even64
  | iinv a sc => a.base.even64 && sc != .domain && sc != .system
  | barArrive _ _ | barWait _ _ | barSync _ _ | crewJoin _ => true
  | crewLeave d _ => d.isVS
  | crewQuery _ _ | crewQueryGang _ _ => true
  | qpush _ a _ => a.even64
  | qpop d _ _ => d.isEvenVS
  | waitc _ _ _ => true
  | monArm _ a sp _ _ => a.even (sp == .global)
  | waitStamp d _ v _ _ => d.isEvenVS && v.even64
  | mma _ ta tb _ _ _ _ _ c => ((ta.mmaFloat && tb.mmaFloat) || (ta.mmaInt && tb.mmaInt)) && c.even64
  | accNew _ _ | accZero _ _ => true
  | accLd _ _ _ a => a.even64
  | accSt _ _ _ a rm _ => a.even64 && rm != .sr
  | accRd _ _ _ d => d.isVS
  | tld _ _ _ a => a.even64
  | shapeMake _ _ sn e _ => blockFits sn 4 && e.isVS
  | copy _ _ _ sn => blockFits sn 4
  | copyCond _ _ _ sn => blockFits sn 7
  | copyMc _ _ a => a.even64
  | copyArm _ _ _ sn e _ => blockFits sn 4 && e.isVS
  | copyDisarm _ e _ => e.isVS
  | coll _ k op t _ _ sn =>
    t.coll && blockFits sn 3 && (op == .sum || (k == .allred || k == .redscat))
  | tokLoad d _ f _ k => (!f.wide || (d.even64 && d.notP)) && (f == .user || k.isZero)
  | tokHdr o => o.d.isEvenVS
  | tokSend o => o.d.isVS && o.b.even64
  | tokRetire o => o.d.isVS
  | tokSpawn o => o.d.isEvenVS && o.a.even64 && o.b.even64
  | benchEnter _ sn => blockFits sn 5
  | benchExit o => o.d.notTrans
  | benchState _ => true
  | steer _ | merge _ | gate _ | fwd _ => true
  | trap _ _ | tret _ | svc _ _ | halt _ => true
  | sysr d _ r => r.readable && d.even64
  | sysw _ r a => r.writable && a.even64
  | survey o => o.d.isEvenVS && o.a.even64
  | featTest o => o.a.even64
  | featCtx _ _ => true
  | _ => true

end Instr

end Sys2Proof
end

