-- ==== Sys2Proof/Machine/Float.lean ====
section
/-!
DEFINITION. Sys2Proof/Machine/Float.lean: number formats and their arithmetic (R98–R123). A finite value is an exact dyadic
magnitude with a sign; every operation forms the exact result and rounds it once.
-/
namespace Sys2Proof.Machine

/-! ## Formats (R101) -/

/-- A binary format: exponent bits, mantissa bits, bias, the largest finite magnitude's code, whether it has infinities, whether
all-ones exponents hold NaNs as IEEE has them, and its one other NaN code. -/
structure Fmt where
  eb : Nat
  mb : Nat
  bias : Nat
  maxCode : Nat
  ieee : Bool
  nanCode : Option Nat
  deriving DecidableEq, Repr

namespace Fmt

def f32 : Fmt := ⟨8, 23, 127, 0x7F7FFFFF, true, none⟩
def f16 : Fmt := ⟨5, 10, 15, 0x7BFF, true, none⟩
def b16 : Fmt := ⟨8, 7, 127, 0x7F7F, true, none⟩
def e4m3 : Fmt := ⟨4, 3, 7, 0x7E, false, some 0x7F⟩
def e5m2 : Fmt := ⟨5, 2, 15, 0x7B, true, none⟩
def e3m2 : Fmt := ⟨3, 2, 3, 0x1F, false, none⟩
def e2m3 : Fmt := ⟨2, 3, 1, 0x1F, false, none⟩
def e2m1 : Fmt := ⟨2, 1, 1, 0x7, false, none⟩

/-- Bits below the sign. -/
def mag (f : Fmt) : Nat := f.eb + f.mb

/-- Width in bits. -/
def width (f : Fmt) : Nat := f.eb + f.mb + 1

/-- The sign bit as a number. -/
def signBit (f : Fmt) (neg : Bool) : Nat := if neg then 2 ^ f.mag else 0

/-- The canonical NaN (R102). The MX element formats have none and are never asked for one (R109). -/
def canon (f : Fmt) : Nat :=
  match f.nanCode with
  | some c => c
  | none => if f.ieee then (2 ^ f.eb - 1) * 2 ^ f.mb + 2 ^ (f.mb - 1) else 0

/-- Does the format keep signalling NaNs apart (R102)? -/
def hasSignalling (f : Fmt) : Bool := f.ieee && f.mb != 2

/-- Exponent of the last place of the subnormals: the least exponent a magnitude's unit takes. -/
def qmin (f : Fmt) : Int := 1 - (f.bias : Int) - (f.mb : Int)

end Fmt

/-! ## Values -/

/-- The value an encoding has. -/
inductive FV where
  | nan (signalling : Bool)
  | inf (neg : Bool)
  | fin (neg : Bool) (m : Nat) (e : Int)
  deriving DecidableEq, Repr

/-- The value of a code (R101, R102): `fin neg m e` is ±m × 2^e. -/
def decodeF (f : Fmt) (x : Nat) : FV :=
  let neg := (x / 2 ^ f.mag) % 2 == 1
  let c := x % 2 ^ f.mag
  let ex := c / 2 ^ f.mb
  let m := c % 2 ^ f.mb
  if f.ieee && ex == 2 ^ f.eb - 1 then
    if m = 0 then .inf neg else .nan (f.hasSignalling && m < 2 ^ (f.mb - 1))
  else if f.nanCode == some c then .nan false
  else if ex = 0 then .fin neg m f.qmin
  else .fin neg (m + 2 ^ f.mb) (f.qmin + (ex : Int) - 1)

/-- Bits needed to write a number. -/
def bitLen (n : Nat) : Nat := if n = 0 then 0 else Nat.log2 n + 1

/-- Flags of $fpsr (R111): bit 0 NV, 1 DZ, 2 OF, 3 UF, 4 NX. -/
abbrev Flags5 := BitVec 5
def flNV : Flags5 := 1
def flDZ : Flags5 := 2
def flOF : Flags5 := 4
def flUF : Flags5 := 8
def flNX : Flags5 := 16

/-- A magnitude with `k` low bits dropped under a rounding mode (R105, R106), and whether a bit was lost. -/
def dropBits (rm : Rnd) (neg : Bool) (m : Nat) (k : Int) (x : Word) : Nat × Bool :=
  if k ≤ 0 then (m * 2 ^ (-k).toNat, false)
  else
    let p := 2 ^ k.toNat
    let r := m / p
    let rem := m % p
    if rem = 0 then (r, false)
    else
      let up :=
        match rm with
        | .rne => decide (2 * rem > p) || (decide (2 * rem = p) && r % 2 == 1)
        | .rz => false
        | .ru => !neg
        | .rd => neg
        | .sr => decide (rem * 2 ^ 32 / p + x.toNat ≥ 2 ^ 32)
      (if up then r + 1 else r, true)

/-- Do ±m × 2^e and ±c, c a magnitude code of `f`, compare as m × 2^e > c? -/
def aboveCode (f : Fmt) (m : Nat) (e : Int) (c : Nat) : Bool :=
  match decodeF f c with
  | .fin _ cm ce =>
    let b := min e ce
    decide (m * 2 ^ (e - b).toNat > cm * 2 ^ (ce - b).toNat)
  | _ => false

/-- A result beyond the largest finite value (R109). -/
def overflowF (f : Fmt) (rm : Rnd) (sat neg : Bool) : Nat × Flags5 :=
  let toward0 := rm == .rz || (rm == .ru && neg) || (rm == .rd && !neg)
  let s := f.signBit neg
  if toward0 then (s + f.maxCode, flOF ||| flNX)
  else if f.ieee then
    if sat && f != .f32 then (s + f.maxCode, flOF ||| flNX)
    else (s + (2 ^ f.eb - 1) * 2 ^ f.mb, flOF ||| flNX)
  else
    match f.nanCode with
    | some c => if sat then (s + f.maxCode, flOF ||| flNX) else (c, flOF ||| flNX)
    | none => (s + f.maxCode, flOF ||| flNX)

/-- ±m × 2^e rounded once into a format (R103–R106, R109). -/
def roundF (f : Fmt) (rm0 : Rnd) (sat neg : Bool) (m : Nat) (e : Int) (x : Word) : Nat × Flags5 :=
  if m = 0 then (f.signBit neg, 0)
  else
    let rm := if rm0 == .sr && aboveCode f m e f.maxCode then .rne else rm0
    let big : Int := e + (bitLen m : Int) - 1
    let q : Int := max (big - (f.mb : Int)) f.qmin
    let (r, inexact) := dropBits rm neg m (q - e) x
    let code := (q - f.qmin).toNat * 2 ^ f.mb + r
    if code > f.maxCode then overflowF f rm sat neg
    else
      let qt : Int := big - (f.mb : Int)
      let (rt, _) := dropBits rm neg m (qt - e) x
      let tiny := decide (qt < f.qmin) && decide (rt < 2 ^ (f.mb + (f.qmin - qt).toNat))
      let fl := if inexact then (if tiny then flUF ||| flNX else flNX) else 0
      (f.signBit neg + code, fl)

/-- An infinite result given by an infinite operand (R109, R331). -/
def infF (f : Fmt) (sat neg : Bool) : Nat × Flags5 :=
  if f.ieee then
    if sat && f != .f32 then (f.signBit neg + f.maxCode, 0) else (f.signBit neg + (2 ^ f.eb - 1) * 2 ^ f.mb, 0)
  else
    match f.nanCode with
    | some c => if sat then (f.signBit neg + f.maxCode, 0) else (c, flNV)
    | none => (f.signBit neg + f.maxCode, 0)

/-! ## The generator (R107) -/

/-- One step of a lane's generator. -/
def genNext (s : Word) : Word :=
  let a := s ^^^ (s <<< 13)
  let b := a ^^^ (a >>> 17)
  b ^^^ (b <<< 5)

/-- The state a write to $seed gives lane i. -/
def genInit (seed : DWord) (i : Nat) : Word :=
  let s := seed.setWidth 32 ^^^ (0x9E3779B9#32 * BitVec.ofNat 32 (i + 1))
  if s = 0 then 1 else s

/-! ## Exact results -/

/-- An exact result with the flags its special cases raise. -/
structure XR where
  v : FV
  fl : Flags5
  deriving DecidableEq, Repr

/-- The result word of an exact result, the flags, and the generator afterwards: it steps under SR exactly when the exact
result is finite (R108). -/
def finishF (f : Fmt) (rm : Rnd) (sat : Bool) (r : XR) (gen : Word) : Nat × Flags5 × Word :=
  match r.v with
  | .nan _ => (f.canon, r.fl, gen)
  | .inf neg => let (c, fl) := infF f sat neg; (c, r.fl ||| fl, gen)
  | .fin neg m e =>
    let g := if rm == .sr then genNext gen else gen
    let (c, fl) := roundF f rm sat neg m e g
    (c, r.fl ||| fl, g)

/-- Is it a signalling NaN? -/
def FV.isSnan : FV → Bool
  | .nan true => true
  | _ => false

/-- Is it a NaN? -/
def FV.isNan : FV → Bool
  | .nan _ => true
  | _ => false

/-- The value with its sign flipped, exactly (R324). -/
def FV.negIf (v : FV) (b : Bool) : FV :=
  match v with
  | .nan s => .nan s
  | .inf n => .inf (n ^^ b)
  | .fin n m e => .fin (n ^^ b) m e

/-- NV for a signalling NaN among the operands (R102). -/
def snanFlag (vs : List FV) : Flags5 := if vs.any FV.isSnan then flNV else 0

/-- A signed multiple of 2^b. -/
def scaled (neg : Bool) (m : Nat) (e b : Int) : Int :=
  let v : Int := (m * 2 ^ (e - b).toNat : Nat)
  if neg then -v else v

/-- The exact sum of finite terms (R120): its sign when it is zero follows IEEE 754 and the mode. -/
def sumFin (rm : Rnd) (ts : List (Bool × Nat × Int)) : FV :=
  let b := ts.foldl (fun a t => min a t.2.2) 0
  let tot := ts.foldl (fun a t => a + scaled t.1 t.2.1 t.2.2 b) 0
  if tot = 0 then
    if ts.all (fun t => t.2.1 == 0 && t.1) && !ts.isEmpty then .fin true 0 0
    else if ts.all (fun t => t.2.1 == 0 && !t.1) then .fin false 0 0
    else .fin (rm == .rd) 0 0
  else .fin (decide (tot < 0)) tot.natAbs b

/-- a + b, exact (R104, R324). -/
def addX (rm : Rnd) (a b : FV) : XR :=
  let fl := snanFlag [a, b]
  match a, b with
  | .nan _, _ => ⟨.nan false, fl⟩
  | _, .nan _ => ⟨.nan false, fl⟩
  | .inf n, .inf k => if n = k then ⟨.inf n, fl⟩ else ⟨.nan false, fl ||| flNV⟩
  | .inf n, .fin _ _ _ => ⟨.inf n, fl⟩
  | .fin _ _ _, .inf k => ⟨.inf k, fl⟩
  | .fin n m e, .fin k p h => ⟨sumFin rm [(n, m, e), (k, p, h)], fl⟩

/-- a × b, exact. -/
def mulX (a b : FV) : XR :=
  let fl := snanFlag [a, b]
  match a, b with
  | .nan _, _ => ⟨.nan false, fl⟩
  | _, .nan _ => ⟨.nan false, fl⟩
  | .inf n, .inf k => ⟨.inf (n ^^ k), fl⟩
  | .inf n, .fin k m _ => if m = 0 then ⟨.nan false, fl ||| flNV⟩ else ⟨.inf (n ^^ k), fl⟩
  | .fin n m _, .inf k => if m = 0 then ⟨.nan false, fl ||| flNV⟩ else ⟨.inf (n ^^ k), fl⟩
  | .fin n m e, .fin k p h => ⟨.fin (n ^^ k) (m * p) (e + h), fl⟩

/-- a × b + c, exact, with the product's sign flipped by `np` (R324): invalid for ∞ × 0 whatever c holds. -/
def fmaX (rm : Rnd) (a b c : FV) (np : Bool) : XR :=
  let p := mulX a b
  let s := addX rm (p.v.negIf np) c
  ⟨s.v, p.fl ||| s.fl⟩

/-- Comparison of two values that are no NaN: −1, 0 or 1; −0 equals +0. -/
def cmpF (a b : FV) : Int :=
  match a, b with
  | .inf n, .inf k => (if n then -1 else 1) - (if k then -1 else 1)
  | .inf n, _ => if n then -1 else 1
  | _, .inf k => if k then 1 else -1
  | .fin n m e, .fin k p h =>
    let c := min e h
    let x := scaled n m e c
    let y := scaled k p h c
    if x < y then -1 else if x = y then 0 else 1
  | _, _ => 0

/-- Is `a` below `b`, with −0 below +0 (R325)? -/
def belowF (a b : FV) : Bool :=
  let c := cmpF a b
  if c = 0 then
    match a, b with
    | .fin true 0 _, .fin false 0 _ => true
    | _, _ => false
  else decide (c < 0)

/-- FMIN and FMAX on codes (R325). -/
def minmaxF (f : Fmt) (isMax nanMode : Bool) (x y : Nat) : Nat × Flags5 :=
  let a := decodeF f x
  let b := decodeF f y
  let fl := snanFlag [a, b]
  if a.isNan && b.isNan then (f.canon, fl)
  else if a.isNan then (if nanMode then f.canon else y % 2 ^ f.width, fl)
  else if b.isNan then (if nanMode then f.canon else x % 2 ^ f.width, fl)
  else if (if isMax then belowF a b else belowF b a) then (y % 2 ^ f.width, fl)
  else (x % 2 ^ f.width, fl)

/-- FCMP on codes (R326): the condition and its flags. -/
def compareF (f : Fmt) (c : FCond) (x y : Nat) : Bool × Flags5 :=
  let a := decodeF f x
  let b := decodeF f y
  let ordered := match c with
    | .lt | .le | .gt | .ge => true
    | _ => false
  if a.isNan || b.isNan then
    ((c == .ne || c == .un), if ordered then flNV else snanFlag [a, b])
  else
    let k := cmpF a b
    (match c with
      | .eq => decide (k = 0)
      | .ne => decide (k ≠ 0)
      | .lt => decide (k < 0)
      | .le => decide (k ≤ 0)
      | .gt => decide (k > 0)
      | .ge => decide (k ≥ 0)
      | .un => false
      | .ord => true, 0)

/-- The class mask of an FP32 value (R327). -/
def classF (x : Word) : BitVec 10 :=
  match decodeF .f32 x.toNat with
  | .nan true => 0x001
  | .nan false => 0x002
  | .inf true => 0x004
  | .inf false => 0x200
  | .fin n m _ =>
    if m = 0 then (if n then 0x020 else 0x040)
    else if x.extractLsb' 23 8 = 0 then (if n then 0x010 else 0x080)
    else (if n then 0x008 else 0x100)

/-- FRND (R328): result, flags, generator. -/
def frndF (rm : Rnd) (x : Word) (gen : Word) : Word × Flags5 × Word :=
  match decodeF .f32 x.toNat with
  | .nan s => (BitVec.ofNat 32 Fmt.f32.canon, if s then flNV else 0, gen)
  | .inf _ => (x, 0, gen)
  | .fin n m e =>
    let g := if rm == .sr then genNext gen else gen
    if m = 0 || decide (e ≥ 0) then (x, 0, g)
    else
      let (r, inexact) := dropBits rm n m (-e) g
      (BitVec.ofNat 32 (roundF .f32 .rne false n r 0 0).1, if inexact then flNX else 0, g)

/-- A finite value rounded to an integer (R110, R106). -/
def toIntF (rm : Rnd) (neg : Bool) (m : Nat) (e : Int) (x : Word) : Int × Bool :=
  let (r, inexact) := dropBits rm neg m (-e) x
  (if neg then -(r : Int) else (r : Int), inexact)

/-- Bounds of an integer type. -/
def intMin (w : Nat) (signed : Bool) : Int := if signed then -(2 ^ (w - 1) : Int) else 0
def intMax (w : Nat) (signed : Bool) : Int := if signed then 2 ^ (w - 1) - 1 else 2 ^ w - 1

/-- The nearest value in a type's range (R100). -/
def clampInt (w : Nat) (signed : Bool) (v : Int) : Int := max (intMin w signed) (min (intMax w signed) v)

/-- Bits w − 1:0 of an integer. -/
def wrapNat (w : Nat) (v : Int) : Nat := (v % (2 ^ w : Int)).toNat

/-- Bits w − 1:0 read as the type. -/
def readInt (w : Nat) (signed : Bool) (x : Nat) : Int :=
  let c := x % 2 ^ w
  if signed && decide (c ≥ 2 ^ (w - 1)) then (c : Int) - 2 ^ w else c

/-! ## Element types (R115) -/

/-- Width of an element in bits. -/
def elemBits : ElemTy → Nat
  | .n8 | .i8 | .e4m3 | .e5m2 | .mx8a | .mx8b => 8
  | .n16 | .i16 | .f16 | .b16 => 16
  | .n32 | .i32 | .f32 => 32
  | .n64 | .i64 => 64
  | .n4 | .i4 | .mx4 => 4
  | .mx6a | .mx6b => 6

/-- Signed integer types. -/
def elemSigned : ElemTy → Bool
  | .i8 | .i16 | .i32 | .i64 | .i4 => true
  | _ => false

/-- The format of a float type, or of an MX type's elements. -/
def elemFmt : ElemTy → Fmt
  | .f16 => .f16
  | .b16 => .b16
  | .e4m3 | .mx8a => .e4m3
  | .e5m2 | .mx8b => .e5m2
  | .mx6a => .e3m2
  | .mx6b => .e2m3
  | .mx4 => .e2m1
  | _ => .f32

/-- CVT on bits (R331): result bits of the destination's width, flags, generator. -/
def cvtF (dt st : ElemTy) (rm : Rnd) (sat : Bool) (x : Nat) (gen : Word) : Nat × Flags5 × Word :=
  let dw := elemBits dt
  let ds := elemSigned dt
  if st.isInt then
    let v := readInt (elemBits st) (elemSigned st) x
    if dt.isInt then (wrapNat dw (if sat then clampInt dw ds v else v), 0, gen)
    else finishF (elemFmt dt) rm sat ⟨.fin (decide (v < 0)) v.natAbs 0, 0⟩ gen
  else
    let a := decodeF (elemFmt st) x
    if dt.isInt then
      match a with
      | .nan _ => (0, flNV, gen)
      | .inf n => (wrapNat dw (if n then intMin dw ds else intMax dw ds), flNV, gen)
      | .fin n m e =>
        let g := if rm == .sr then genNext gen else gen
        let (v, inexact) := toIntF rm n m e g
        if v < intMin dw ds || v > intMax dw ds then (wrapNat dw (clampInt dw ds v), flNV, g)
        else (wrapNat dw v, if inexact then flNX else 0, g)
    else finishF (elemFmt dt) rm sat ⟨a, snanFlag [a]⟩ gen

/-! ## Sums of products (R120–R122, R336) -/

/-- The exact sum of products of one step, with special values as R122 states; NV marks ∞ × 0 and infinities of both signs. -/
def dotX (rm : Rnd) (ps : List (FV × FV)) : XR :=
  let prods := ps.map (fun p => mulX p.1 p.2)
  let inv := ps.any (fun p =>
    match p.1, p.2 with
    | .inf _, .fin _ 0 _ => true
    | .fin _ 0 _, .inf _ => true
    | _, _ => false)
  let isInf (n : Bool) (r : XR) : Bool := r.v == .inf n
  if prods.any (fun r => r.v.isNan) then ⟨.nan false, if inv then flNV else 0⟩
  else if prods.any (isInf true) && prods.any (isInf false) then ⟨.nan false, flNV⟩
  else if prods.any (isInf true) then ⟨.inf true, 0⟩
  else if prods.any (isInf false) then ⟨.inf false, 0⟩
  else
    ⟨sumFin rm (prods.filterMap fun r =>
      match r.v with
      | .fin n m e => some (n, m, e)
      | _ => none), 0⟩

/-- RoundRNE(c + s) on an FP32 code, no flags (R120, R122). -/
def accAdd (c : Word) (s : FV) : Word :=
  BitVec.ofNat 32 (finishF .f32 .rne false (addX .rne (decodeF .f32 c.toNat) s) 0).1

/-- A value times 2^k, exactly. -/
def FV.scale (v : FV) (k : Int) : FV :=
  match v with
  | .fin n m e => .fin n m (e + k)
  | w => w

/-! ## MX blocks (R113–R118) -/

/-- The element type of an MX format. -/
def mxElem : MxFmt → Fmt
  | .mx8a => .e4m3
  | .mx8b => .e5m2
  | .mx6a => .e3m2
  | .mx6b => .e2m3
  | .mx4 => .e2m1

/-- E of R117. -/
def mxE : MxFmt → Int
  | .mx8a => 8
  | .mx8b => 15
  | .mx6a => 4
  | .mx6b => 2
  | .mx4 => 2

/-- One element packed with exponent X (R117): code, flags, generator. Saturation raises no overflow. -/
def mxElemPack (f : MxFmt) (rm : Rnd) (x : Int) (v : FV) (gen : Word) : Nat × Flags5 × Word :=
  let ef := mxElem f
  match v with
  | .nan _ => (0, 0, gen)
  | .inf n => (ef.signBit n + ef.maxCode, 0, gen)
  | .fin n m e =>
    let g := if rm == .sr then genNext gen else gen
    let (c, fl) := roundF ef rm true n m (e - x) g
    (c, fl &&& (flNV ||| flDZ ||| flUF ||| flNX), g)

/-- MXPACK of one block (R117, R118): scale, sixteen codes, flags, and the generators of the lanes, in element order. -/
def mxPackBlock (f : MxFmt) (rm : Rnd) (strict : Bool) (vs : List FV) (gens : List Word) :
    Nat × List Nat × Flags5 × List Word :=
  let ef := mxElem f
  let zeros := vs.map (fun _ => 0)
  let hasInf := vs.any (fun v => match v with | .inf _ => true | _ => false)
  let tops := vs.filterMap (fun v => match v with
    | .fin _ m e => if m = 0 then none else some (e + (bitLen m : Int) - 1)
    | _ => none)
  if vs.any FV.isNan then (0xFF, zeros, snanFlag vs, gens)
  else if hasInf && strict then (0xFF, zeros, flOF, gens)
  else
    match tops with
    | [] =>
      let codes := vs.map (fun v => match v with
        | .inf n => ef.signBit n + ef.maxCode
        | .fin n _ _ => ef.signBit n
        | .nan _ => 0)
      if hasInf then (0x7F, codes, flOF, gens) else (0x00, codes, 0, gens)
    | t :: ts =>
      let x := max (-127) (min 127 (ts.foldl max t - mxE f))
      let rs := (vs.zip gens).map (fun p => mxElemPack f rm x p.1 p.2)
      let fl := rs.foldl (fun a r => a ||| r.2.1) (if hasInf then flOF else 0)
      ((x + 127).toNat, rs.map (·.1), fl, rs.map (·.2.2))

/-- One element unpacked to FP32 (R116, R335): an overflow raises OF and NX (R109), and nothing else raises a flag. -/
def mxUnpack (f : MxFmt) (code scale : Nat) : Word × Flags5 :=
  if scale = 0xFF then (BitVec.ofNat 32 Fmt.f32.canon, 0)
  else
    match decodeF (mxElem f) code with
    | .nan _ => (BitVec.ofNat 32 Fmt.f32.canon, 0)
    | .inf n => (BitVec.ofNat 32 (infF .f32 false n).1, 0)
    | .fin n m e =>
      let (c, fl) := roundF .f32 .rne false n m (e + (scale : Int) - 127) 0
      (BitVec.ofNat 32 c, if fl &&& flOF = 0 then 0 else flOF ||| flNX)

end Sys2Proof.Machine
end

