-- ==== Sys2Proof/Decode.lean ====
section
/-!
DEFINITION. Sys2Proof/Decode.lean: from a 64-bit word to an instruction or a refusal by name, total on every word (R261–R280),
and after it the encoder, written from the same tables of fields (R262–R266). The checks that need a whole sett (R201, R202,
R259, R362, R364) stand in Machine/Sett.lean.
-/
namespace Sys2Proof

/-- Why a word is no instruction. In a sett each traps ILLEGAL_OP (R261, R280). -/
inductive DecodeError where
  | reservedOp
  | headerOp
  | reservedFn
  | reservedField
  | reservedSource
  | badDestination
  | illFormed
  deriving DecidableEq, Repr

/-- A decoding result. -/
abbrev Dec := Except DecodeError

/-- Refuse with `e` unless `b`. -/
def need (b : Bool) (e : DecodeError) : Dec Unit := if b then .ok () else .error e

/-- A code's meaning, or a refusal with `e`. -/
def orElse {α : Type} (o : Option α) (e : DecodeError) : Dec α :=
  match o with
  | some a => .ok a
  | none => .error e

/-! ## Codes of fields -/

/-- The IT (R304), as fields hold them. -/
def IntTy.ofCode (c : BitVec 3) : Option IntTy :=
  match c.toNat with
  | 0 => some .n32
  | 1 => some .i32
  | 2 => some .n64
  | 3 => some .i64
  | 4 => some .n16x2
  | 5 => some .i16x2
  | 6 => some .n8x4
  | _ => some .i8x4

/-- The rounding codes (R105), as fields hold them. -/
def Rnd.ofCode (c : BitVec 3) : Option Rnd :=
  match c.toNat with
  | 0 => some .rne
  | 1 => some .rz
  | 2 => some .ru
  | 3 => some .rd
  | 4 => some .sr
  | _ => none

/-- The integer condition codes (R312), as fields hold them. -/
def Cond.ofCode (c : BitVec 3) : Option Cond :=
  match c.toNat with
  | 0 => some .eq
  | 1 => some .ne
  | 2 => some .lt
  | 3 => some .le
  | 4 => some .gt
  | 5 => some .ge
  | _ => none

/-- The floating condition codes (R326), as fields hold them. -/
def FCond.ofCode (c : BitVec 3) : Option FCond :=
  match c.toNat with
  | 0 => some .eq
  | 1 => some .ne
  | 2 => some .lt
  | 3 => some .le
  | 4 => some .gt
  | 5 => some .ge
  | 6 => some .un
  | _ => some .ord

/-- The combination codes (R312), as fields hold them. -/
def Comb.ofCode (c : BitVec 2) : Option Comb :=
  match c.toNat with
  | 0 => some .none
  | 1 => some .and
  | 2 => some .or
  | _ => some .xor

/-- The LOP codes (R311), as fields hold them. -/
def LopOp.ofCode (c : BitVec 3) : Option LopOp :=
  match c.toNat with
  | 0 => some .and
  | 1 => some .or
  | 2 => some .xor
  | 3 => some .andn
  | 4 => some .orn
  | 5 => some .xnor
  | 6 => some .not
  | _ => none

/-- The immediate shift codes (R313), as fields hold them. -/
def ShiftOp.ofCode (c : BitVec 3) : Option ShiftOp :=
  match c.toNat with
  | 0 => some .shl
  | 1 => some .shr
  | 2 => some .sar
  | 3 => some .rol
  | 4 => some .ror
  | _ => none

/-- The how LEA reads b (R307), as fields hold them. -/
def LeaMode.ofCode (c : BitVec 2) : Option LeaMode :=
  match c.toNat with
  | 0 => some .plain
  | 1 => some .zx
  | 2 => some .sx
  | _ => none

/-- The SHFL modes (R319), as fields hold them. -/
def ShflMode.ofCode (c : BitVec 3) : Option ShflMode :=
  match c.toNat with
  | 0 => some .idx
  | 1 => some .up
  | 2 => some .down
  | 3 => some .xor
  | _ => none

/-- The packed element types (R329), as fields hold them. -/
def PackTy.ofCode (c : BitVec 3) : Option PackTy :=
  match c.toNat with
  | 0 => some .f16x2
  | 1 => some .b16x2
  | _ => none

/-- The packed CVT functions (R332), as fields hold them. -/
def CvtP.ofCode (c : BitVec 6) : Option CvtP :=
  match c.toNat with
  | 0 => some .toF16x2
  | 1 => some .toB16x2
  | 2 => some .fromF16x2
  | 3 => some .fromB16x2
  | 4 => some .toE4m3Lo
  | 5 => some .toE4m3Hi
  | 6 => some .toE5m2Lo
  | 7 => some .toE5m2Hi
  | 8 => some .fromE4m3Lo
  | 9 => some .fromE4m3Hi
  | 10 => some .fromE5m2Lo
  | 11 => some .fromE5m2Hi
  | _ => none

/-- The MX formats (R333), as fields hold them. -/
def MxFmt.ofCode (c : BitVec 3) : Option MxFmt :=
  match c.toNat with
  | 0 => some .mx8a
  | 1 => some .mx8b
  | 2 => some .mx6a
  | 3 => some .mx6b
  | 4 => some .mx4
  | _ => none

/-- The MX lane layouts (R333), as fields hold them. -/
def MxLayout.ofCode (c : BitVec 3) : Option MxLayout :=
  match c.toNat with
  | 0 => some .elem
  | 1 => some .words
  | _ => none

/-- The DOT4 types (R336), as fields hold them. -/
def DotTy.ofCode (c : BitVec 3) : Option DotTy :=
  match c.toNat with
  | 0 => some .e4m3x4
  | 1 => some .e5m2x4
  | 2 => some .f16x2
  | 3 => some .b16x2
  | 4 => some .i8x4
  | 5 => some .n8x4
  | _ => none

/-- The RED operations (R339), as fields hold them. -/
def RedOp.ofCode (c : BitVec 3) : Option RedOp :=
  match c.toNat with
  | 0 => some .add
  | 1 => some .min
  | 2 => some .max
  | 3 => some .and
  | 4 => some .or
  | 5 => some .xor
  | _ => none

/-- The RED types (R339), as fields hold them. -/
def RedTy.ofCode (c : BitVec 3) : Option RedTy :=
  match c.toNat with
  | 0 => some .n32
  | 1 => some .i32
  | 2 => some .n64
  | 3 => some .i64
  | 4 => some .f32
  | _ => none

/-- The scope codes (R133), as fields hold them. -/
def Scope.ofCode (c : BitVec 3) : Option Scope :=
  match c.toNat with
  | 0 => some .crew
  | 1 => some .gang
  | 2 => some .core
  | 3 => some .cluster
  | 4 => some .die
  | 5 => some .device
  | 6 => some .domain
  | _ => some .system

/-- The load and store widths (R347), as fields hold them. -/
def MemW.ofCode (c : BitVec 4) : Option MemW :=
  match c.toNat with
  | 0 => some .n8
  | 1 => some .i8
  | 2 => some .n16
  | 3 => some .i16
  | 4 => some .n32
  | 5 => some .n64
  | 6 => some .n128
  | _ => none

/-- The atomic operations (R352), as fields hold them. -/
def AtomOp.ofCode (c : BitVec 4) : Option AtomOp :=
  match c.toNat with
  | 0 => some .add
  | 1 => some .addF32
  | 2 => some .min
  | 3 => some .max
  | 4 => some .and
  | 5 => some .or
  | 6 => some .xor
  | 7 => some .xchg
  | 8 => some .cas
  | _ => none

/-- The atomic types (R352), as fields hold them. -/
def AtomTy.ofCode (c : BitVec 2) : Option AtomTy :=
  match c.toNat with
  | 0 => some .n32
  | 1 => some .i32
  | 2 => some .n64
  | _ => some .i64

/-- The counter paths (R368), as fields hold them. -/
def Path6.ofCode (c : BitVec 3) : Option Path6 :=
  match c.toNat with
  | 0 => some .ld
  | 1 => some .st
  | 2 => some .cp
  | 3 => some .mx
  | 4 => some .cl
  | 5 => some .tk
  | _ => none

/-- The monitor spaces (R360), as fields hold them. -/
def Space3.ofCode (c : BitVec 6) : Option Space3 :=
  match c.toNat with
  | 0 => some .global
  | 1 => some .localMem
  | 2 => some .yard
  | _ => none

/-- The WAIT.STAMP comparisons (R360), as fields hold them. -/
def StampCmp.ofCode (c : BitVec 6) : Option StampCmp :=
  match c.toNat with
  | 0 => some .eq
  | 1 => some .ne
  | 2 => some .ge
  | _ => none

/-- The COLL kinds (R388), as fields hold them. -/
def CollKind.ofCode (c : BitVec 2) : Option CollKind :=
  match c.toNat with
  | 0 => some .allred
  | 1 => some .redscat
  | 2 => some .allgath
  | _ => some .bcast

/-- The COLL operations (R388), as fields hold them. -/
def CollOp.ofCode (c : BitVec 2) : Option CollOp :=
  match c.toNat with
  | 0 => some .sum
  | 1 => some .max
  | 2 => some .min
  | _ => none

/-- The element-type codes (R115), as fields hold them. -/
def ElemTy.ofCode (c : BitVec 5) : Option ElemTy :=
  match c.toNat with
  | 0 => some .n8
  | 1 => some .n16
  | 2 => some .n32
  | 3 => some .n64
  | 4 => some .i8
  | 5 => some .i16
  | 6 => some .i32
  | 7 => some .i64
  | 8 => some .n4
  | 9 => some .i4
  | 16 => some .f32
  | 17 => some .f16
  | 18 => some .b16
  | 19 => some .e4m3
  | 20 => some .e5m2
  | 24 => some .mx8a
  | 25 => some .mx8b
  | 26 => some .mx6a
  | 27 => some .mx6b
  | 28 => some .mx4
  | _ => none

/-- The TOK.LOAD field codes (R391), as fields hold them. -/
def TokField.ofCode (c : BitVec 6) : Option TokField :=
  match c.toNat with
  | 0 => some .kind
  | 1 => some .pos
  | 2 => some .sslot
  | 3 => some .chunk
  | 4 => some .mflags
  | 5 => some .parent
  | 6 => some .kvh
  | 7 => some .nextop
  | 8 => some .epoch
  | 9 => some .topk
  | 10 => some .temp
  | 11 => some .topp
  | 12 => some .sseed
  | 13 => some .lentHeld
  | 14 => some .uflags
  | 16 => some .seqid
  | 17 => some .hidden
  | 18 => some .feat
  | 19 => some .summary
  | 20 => some .user
  | _ => none

/-- The system register numbers (R403), as fields hold them. -/
def SysReg.ofCode (c : BitVec 16) : Option SysReg :=
  match c.toNat with
  | 64 => some .xlatInv
  | 65 => some .xlatStat
  | 66 => some .kvdescBase
  | 67 => some .fqResume
  | 68 => some .ptRoot
  | 69 => some .privRoot
  | 70 => some .privHwm
  | 71 => some .privLimit
  | 72 => some .memerr
  | 80 => some .carPeriod
  | 81 => some .submit
  | 82 => some .submitSt
  | 96 => some .trPc
  | 97 => some .trCause
  | 98 => some .trAddr
  | 99 => some .trS0
  | 100 => some .trS1
  | 101 => some .trVec
  | 102 => some .wdog
  | 103 => some .frRing
  | 104 => some .frStamp
  | 105 => some .frRead
  | _ => none

/-- Special registers by number (R276). -/
def Special.ofCode (c : BitVec 6) : Option Special :=
  match c.toNat with
  | 0x00 => some .lane
  | 0x01 => some .crew
  | 0x02 => some .gang
  | 0x03 => some .core
  | 0x04 => some .cluster
  | 0x05 => some .die
  | 0x06 => some .device
  | 0x08 => some (.lev 0)
  | 0x09 => some (.lev 1)
  | 0x0A => some (.lev 2)
  | 0x0B => some (.lev 3)
  | 0x0C => some (.lev 4)
  | 0x0D => some (.lev 5)
  | 0x0E => some (.lev 6)
  | 0x0F => some (.lev 7)
  | 0x10 => some .mask
  | 0x11 => some .budget
  | 0x12 => some .feat
  | 0x13 => some .press
  | 0x14 => some .cyc
  | 0x15 => some .seed
  | 0x16 => some .fpsr
  | _ => none

/-! ## Operand fields -/

/-- A 10-bit source field (R268). -/
def decSrc (f : BitVec 10) : Dec Src :=
  let lo := f.extractLsb' 0 8
  match (f.extractLsb' 8 2).toNat with
  | 0 => .ok (.v lo)
  | 1 =>
    match (lo.extractLsb' 6 2).toNat with
    | 0 => .ok (.s (lo.extractLsb' 0 6))
    | 1 => if lo.extractLsb' 5 1 = 0 then .ok (.trans (lo.extractLsb' 0 5)) else .error .reservedSource
    | 2 => if lo.extractLsb' 4 2 = 0 then .ok (.pop (lo.extractLsb' 0 4)) else .error .reservedSource
    | _ => .ok (.const (lo.extractLsb' 0 6))
  | 2 =>
    match (lo.extractLsb' 6 2).toNat with
    | 0 =>
      match Special.ofCode (lo.extractLsb' 0 6) with
      | some r => .ok (.spec r)
      | none => .error .reservedSource
    | 1 =>
      match (lo.extractLsb' 3 3).toNat with
      | 0 => .ok (.tok (lo.extractLsb' 0 3))
      | 1 => .ok (.pred (lo.extractLsb' 0 3))
      | _ => .error .reservedSource
    | 2 => .ok (.dword (lo.extractLsb' 2 4) (lo.extractLsb' 0 2))
    | _ => .error .reservedSource
  | _ => .error .reservedSource

/-- DK and DST (R271). -/
def decDst (dk : BitVec 2) (dst : BitVec 8) : Dec Dst :=
  match dk.toNat with
  | 0 => .ok (.v dst)
  | 1 => if dst = 0 then .ok .trans else .error .badDestination
  | 2 => if dst.extractLsb' 6 2 = 0 then .ok (.s (dst.extractLsb' 0 6)) else .error .badDestination
  | _ => if dst.extractLsb' 3 5 = 0 then .ok (.p (dst.extractLsb' 0 3)) else .error .badDestination

/-- A destination named by a source field: kind 00 or an S register (R264). -/
def decVS (f : BitVec 10) : Dec Dst :=
  let lo := f.extractLsb' 0 8
  match (f.extractLsb' 8 2).toNat with
  | 0 => .ok (.v lo)
  | 1 => if lo.extractLsb' 6 2 = 0 then .ok (.s (lo.extractLsb' 0 6)) else .error .badDestination
  | _ => .error .badDestination

/-- An operand block's first register in SRCA (R371). -/
def decBlock (f : BitVec 10) : Dec (BitVec 6) :=
  if f.extractLsb' 6 4 = 4 then .ok (f.extractLsb' 0 6) else .error .reservedSource

/-! ## Word formats (R262–R266) -/

/-- Format A; format B reads SRC2 and SRC3 as one immediate. -/
structure FmtA where
  op : BitVec 8
  fn : BitVec 6
  dk : BitVec 2
  dst : BitVec 8
  s1 : BitVec 10
  s2 : BitVec 10
  s3 : BitVec 10
  pg : BitVec 3
  pn : BitVec 1
  m : BitVec 6
  deriving DecidableEq, Repr

/-- Format M. -/
structure FmtM where
  op : BitVec 8
  fn : BitVec 4
  dst : BitVec 8
  base : BitVec 10
  index : BitVec 10
  off : BitVec 14
  pg : BitVec 3
  pn : BitVec 1
  scope : BitVec 3
  ord : BitVec 1
  scale : BitVec 2
  deriving DecidableEq, Repr

/-- Format X; `z` is reserved bit 10. -/
structure FmtX where
  op : BitVec 8
  fn : BitVec 6
  da : BitVec 4
  db : BitVec 4
  acc : BitVec 3
  oba : BitVec 4
  obb : BitVec 4
  sa : BitVec 10
  sb : BitVec 10
  z : BitVec 1
  pg : BitVec 3
  pn : BitVec 1
  m : BitVec 6
  deriving DecidableEq, Repr

/-- Format J; `z` is reserved bits 11:10. -/
structure FmtJ where
  op : BitVec 8
  fn : BitVec 6
  target : BitVec 38
  z : BitVec 2
  pg : BitVec 3
  pn : BitVec 1
  m : BitVec 6
  deriving DecidableEq, Repr

/-- Format Y; `z` is reserved bits 13:10. -/
structure FmtY where
  op : BitVec 8
  fn : BitVec 6
  dk : BitVec 2
  dst : BitVec 8
  s1 : BitVec 10
  reg : BitVec 16
  z : BitVec 4
  pg : BitVec 3
  pn : BitVec 1
  m : BitVec 6
  deriving DecidableEq, Repr

/-- Fields of a word read as format A (R262). -/
def FmtA.ofWord (w : DWord) : FmtA :=
  { op := w.extractLsb' 56 8, fn := w.extractLsb' 50 6, dk := w.extractLsb' 48 2, dst := w.extractLsb' 40 8,
    s1 := w.extractLsb' 30 10, s2 := w.extractLsb' 20 10, s3 := w.extractLsb' 10 10,
    pg := w.extractLsb' 7 3, pn := w.extractLsb' 6 1, m := w.extractLsb' 0 6 }

/-- Fields of a word read as format M (R263). -/
def FmtM.ofWord (w : DWord) : FmtM :=
  { op := w.extractLsb' 56 8, fn := w.extractLsb' 52 4, dst := w.extractLsb' 44 8, base := w.extractLsb' 34 10,
    index := w.extractLsb' 24 10, off := w.extractLsb' 10 14, pg := w.extractLsb' 7 3, pn := w.extractLsb' 6 1,
    scope := w.extractLsb' 3 3, ord := w.extractLsb' 2 1, scale := w.extractLsb' 0 2 }

/-- Fields of a word read as format X (R264). -/
def FmtX.ofWord (w : DWord) : FmtX :=
  { op := w.extractLsb' 56 8, fn := w.extractLsb' 50 6, da := w.extractLsb' 46 4, db := w.extractLsb' 42 4,
    acc := w.extractLsb' 39 3, oba := w.extractLsb' 35 4, obb := w.extractLsb' 31 4, sa := w.extractLsb' 21 10,
    sb := w.extractLsb' 11 10, z := w.extractLsb' 10 1, pg := w.extractLsb' 7 3, pn := w.extractLsb' 6 1,
    m := w.extractLsb' 0 6 }

/-- Fields of a word read as format J (R265). -/
def FmtJ.ofWord (w : DWord) : FmtJ :=
  { op := w.extractLsb' 56 8, fn := w.extractLsb' 50 6, target := w.extractLsb' 12 38, z := w.extractLsb' 10 2,
    pg := w.extractLsb' 7 3, pn := w.extractLsb' 6 1, m := w.extractLsb' 0 6 }

/-- Fields of a word read as format Y (R266). -/
def FmtY.ofWord (w : DWord) : FmtY :=
  { op := w.extractLsb' 56 8, fn := w.extractLsb' 50 6, dk := w.extractLsb' 48 2, dst := w.extractLsb' 40 8,
    s1 := w.extractLsb' 30 10, reg := w.extractLsb' 14 16, z := w.extractLsb' 10 4, pg := w.extractLsb' 7 3,
    pn := w.extractLsb' 6 1, m := w.extractLsb' 0 6 }

/-- PG and PN (R272). -/
def FmtA.guard (f : FmtA) : Guard := ⟨f.pg, f.pn == 1⟩
def FmtM.guard (f : FmtM) : Guard := ⟨f.pg, f.pn == 1⟩
def FmtX.guard (f : FmtX) : Guard := ⟨f.pg, f.pn == 1⟩
def FmtJ.guard (f : FmtJ) : Guard := ⟨f.pg, f.pn == 1⟩
def FmtY.guard (f : FmtY) : Guard := ⟨f.pg, f.pn == 1⟩

/-! ## Fields that an entry leaves unused -/

def FmtA.noDst (f : FmtA) : Bool := f.dk == 0 && f.dst == 0
def FmtA.noS1 (f : FmtA) : Bool := f.s1 == 0
def FmtA.noS23 (f : FmtA) : Bool := f.s2 == 0 && f.s3 == 0
/-- Nothing but OP, PG and PN. -/
def FmtA.bare (f : FmtA) : Bool := f.fn == 0 && f.noDst && f.noS1 && f.noS23 && f.m == 0

/-- FN[5:3] and FN[2:0]. -/
def FmtA.fnHi (f : FmtA) : BitVec 3 := f.fn.extractLsb' 3 3
def FmtA.fnLo (f : FmtA) : BitVec 3 := f.fn.extractLsb' 0 3
/-- MOD[5:3], MOD[2] and MOD[1:0] (R273). -/
def FmtA.mHi (f : FmtA) : BitVec 3 := f.m.extractLsb' 3 3
def FmtA.mSat (f : FmtA) : BitVec 1 := f.m.extractLsb' 2 1
def FmtA.mLo (f : FmtA) : BitVec 2 := f.m.extractLsb' 0 2
def FmtA.mB0 (f : FmtA) : BitVec 1 := f.m.extractLsb' 0 1
def FmtA.mB1 (f : FmtA) : BitVec 1 := f.m.extractLsb' 1 1
/-- The immediate of format B: bits 29:10. -/
def FmtA.imm (f : FmtA) : BitVec 20 := f.s2 ++ f.s3

/-- DST, SRC1 and the guard; SRC2 and SRC3 unused. -/
def FmtA.ops1 (f : FmtA) : Dec Ops1 := do
  need f.noS23 .reservedField
  let d ← decDst f.dk f.dst
  let a ← decSrc f.s1
  pure ⟨d, a, f.guard⟩

/-- DST and SRC1 of format B. -/
def FmtA.opsB (f : FmtA) : Dec Ops1 := do
  let d ← decDst f.dk f.dst
  let a ← decSrc f.s1
  pure ⟨d, a, f.guard⟩

/-- DST, SRC1 and SRC2; SRC3 unused. -/
def FmtA.ops2 (f : FmtA) : Dec Ops2 := do
  need (f.s3 == 0) .reservedField
  let d ← decDst f.dk f.dst
  let a ← decSrc f.s1
  let b ← decSrc f.s2
  pure ⟨d, a, b, f.guard⟩

/-- DST, SRC1 and SRC3; SRC2 unused: STEER and GATE (R400), whose c is SRC3. -/
def FmtA.ops13 (f : FmtA) : Dec Ops2 := do
  need (f.s2 == 0) .reservedField
  let d ← decDst f.dk f.dst
  let a ← decSrc f.s1
  let c ← decSrc f.s3
  pure ⟨d, a, c, f.guard⟩

/-- DST and all three sources. -/
def FmtA.ops3 (f : FmtA) : Dec Ops3 := do
  let d ← decDst f.dk f.dst
  let a ← decSrc f.s1
  let b ← decSrc f.s2
  let c ← decSrc f.s3
  pure ⟨d, a, b, c, f.guard⟩

/-- FN[5:3] fixed, the integer type in FN[2:0] (R304). -/
def FmtA.intTy (f : FmtA) (hi : BitVec 3) : Dec IntTy := do
  need (f.fnHi == hi) .reservedFn
  orElse (IntTy.ofCode f.fnLo) .reservedFn

/-- MOD all zero. -/
def FmtA.mZero (f : FmtA) : Dec Unit := need (f.m == 0) .reservedField

/-- MOD holds SAT only (R305). -/
def FmtA.satOnly (f : FmtA) : Dec Bool := do
  need (f.mHi == 0 && f.mLo == 0) .reservedField
  pure (f.mSat == 1)

/-- The rounding mode in MOD[5:3] (R105, R273). -/
def FmtA.rm (f : FmtA) : Dec Rnd := orElse (Rnd.ofCode f.mHi) .reservedField

/-! ## Decoding by opcode group (R279) -/

/-- Format J transfers: FN, TARGET, MOD (R292). -/
def decJ (w : DWord) (fnMax : Nat) (useK : Bool) (mk : FmtJ → Instr) : Dec Instr := do
  let f := FmtJ.ofWord w
  need (decide (f.fn.toNat ≤ fnMax)) .reservedFn
  need (f.z == 0 && (useK || f.m == 0)) .reservedField
  pure (mk f)

/-- Control transfers with no operand (R292). -/
def decBare (w : DWord) (mk : Guard → Instr) : Dec Instr := do
  let f := FmtA.ofWord w
  need (f.fn == 0) .reservedFn
  need f.bare .reservedField
  pure (mk f.guard)

/-- BRX and CALLX (R292). -/
def decIndirect (w : DWord) (mk : Guard → Src → Instr) : Dec Instr := do
  let f := FmtA.ofWord w
  need (f.fn == 0) .reservedFn
  need (f.noDst && f.noS23 && f.m == 0) .reservedField
  let a ← decSrc f.s1
  pure (mk f.guard a)

/-- OP 0x00–0x0A. -/
def decControl (lo : Nat) (w : DWord) : Dec Instr :=
  match lo with
  | 0x0 => decJ w 0 false fun f => .br f.guard f.target
  | 0x1 => decJ w 1 false fun f => if f.fn = 0 then .brcAny f.guard f.target else .brcAll f.guard f.target
  | 0x2 => decIndirect w .brx
  | 0x3 => decJ w 0 false fun f => .call f.guard f.target
  | 0x4 => decIndirect w .callx
  | 0x5 => decBare w .ret
  | 0x6 => decJ w 0 true fun f => .loop f.guard f.m f.target
  | 0x7 => decJ w 0 true fun f => .join f.guard f.m f.target
  | 0x8 => decBare w .yield
  | 0x9 => decBare w .exit
  | 0xA => decBare w .nop
  | _ => .error .reservedOp

/-- Two sources, a type and SAT (R306). -/
def decInt2S (f : FmtA) (mk : Ops2 → IntTy → Bool → Instr) : Dec Instr := do
  let t ← f.intTy 0
  let sat ← f.satOnly
  let o ← f.ops2
  pure (mk o t sat)

/-- Two sources and a type, FN[5:3] fixed, MOD zero. -/
def decInt2 (f : FmtA) (hi : BitVec 3) (mk : Ops2 → IntTy → Instr) : Dec Instr := do
  let t ← f.intTy hi
  f.mZero
  let o ← f.ops2
  pure (mk o t)

/-- One source and a type, MOD zero. -/
def decInt1 (f : FmtA) (hi : BitVec 3) (mk : Ops1 → IntTy → Instr) : Dec Instr := do
  let t ← f.intTy hi
  f.mZero
  let o ← f.ops1
  pure (mk o t)

/-- Three sources and a type, MOD zero. -/
def decInt3 (f : FmtA) (mk : Ops3 → IntTy → Instr) : Dec Instr := do
  let t ← f.intTy 0
  f.mZero
  let o ← f.ops3
  pure (mk o t)

/-- MOV and its forms (R278, R308). -/
def decMov (f : FmtA) : Dec Instr :=
  match f.fn.toNat with
  | 0 => do f.mZero; let o ← f.ops1; pure (.mov o)
  | 1 => do
    f.mZero
    need (f.dk == 0 && f.noS23) .reservedField
    need (f.dst == 0x15 || f.dst == 0x16) .badDestination
    let a ← decSrc f.s1
    pure (.movSpecial f.guard a (f.dst == 0x16))
  | 2 => do
    f.mZero
    need (f.dk == 0 && f.noS23) .reservedField
    need (f.dst.extractLsb' 6 2 == 0) .badDestination
    let a ← decSrc f.s1
    pure (.movDWord f.guard a (f.dst.extractLsb' 0 6))
  | 3 => do f.mZero; let o ← f.ops1; pure (.movN64 o)
  | _ => .error .reservedFn

/-- OP 0x10–0x1F. -/
def decInt (lo : Nat) (w : DWord) : Dec Instr :=
  let f := FmtA.ofWord w
  match lo with
  | 0x0 => decInt2S f .iadd
  | 0x1 => do let t ← f.intTy 0; let sat ← f.satOnly; let o ← f.ops3; pure (.iadd3 o t sat)
  | 0x2 => decInt2S f .isub
  | 0x3 => decInt2S f .imul
  | 0x4 => decInt2 f 0 .imulh
  | 0x5 => do
    let t ← orElse (IntTy.ofCode f.fnLo) .reservedFn
    need (f.fnHi == 0 || f.fnHi == 1) .reservedFn
    let sat ← f.satOnly
    let o ← f.ops3
    pure (if f.fnHi = 0 then .imad o t sat else .imadWide o t sat)
  | 0x6 => decInt2 f 0 .imin
  | 0x7 => decInt2 f 0 .imax
  | 0x8 => do let t ← f.intTy 0; let sat ← f.satOnly; let o ← f.ops1; pure (.iabs o t sat)
  | 0x9 => do
    let t ← orElse (IntTy.ofCode f.fnLo) .reservedFn
    need (f.mHi == 0 && f.mSat == 0) .reservedField
    let m ← orElse (LeaMode.ofCode f.mLo) .reservedField
    let o ← f.ops2
    pure (.lea o t f.fnHi m)
  | 0xA =>
    match f.fnHi.toNat with
    | 0 => decInt2 f 0 .shl
    | 1 => decInt2 f 1 .shr
    | 2 => decInt2 f 2 .sar
    | _ => .error .reservedFn
  | 0xB =>
    match f.fnHi.toNat with
    | 0 => decInt2 f 0 .rol
    | 1 => decInt2 f 1 .ror
    | _ => .error .reservedFn
  | 0xC => decMov f
  | 0xD => do
    let t ← f.intTy 0
    need (f.noS1 && f.m == 0) .reservedField
    let d ← decDst f.dk f.dst
    pure (.movi d f.guard t f.imm)
  | 0xE => decInt3 f .sel
  | _ => do
    let t ← orElse (IntTy.ofCode f.fnLo) .reservedFn
    let c ← orElse (Cond.ofCode f.fnHi) .reservedFn
    need (f.mHi == 0 && f.mSat == 0) .reservedField
    let k ← orElse (Comb.ofCode f.mLo) .reservedField
    let o ← f.ops3
    pure (.icmp o t c k)

/-- Immediate forms with SAT (R313). -/
def decImmS (f : FmtA) (mk : Ops1 → IntTy → Bool → BitVec 20 → Instr) : Dec Instr := do
  let t ← f.intTy 0
  let sat ← f.satOnly
  let o ← f.opsB
  pure (mk o t sat f.imm)

/-- OP 0x20–0x2C. -/
def decBits (lo : Nat) (w : DWord) : Dec Instr :=
  let f := FmtA.ofWord w
  match lo with
  | 0x0 => decInt2 f 0 .bfx
  | 0x1 => decInt3 f .bfi
  | 0x2 => decInt1 f 0 .popc
  | 0x3 => decInt1 f 0 .clz
  | 0x4 => decInt1 f 0 .ctz
  | 0x5 => decInt1 f 0 .brev
  | 0x6 => do
    let t ← orElse (IntTy.ofCode f.fnLo) .reservedFn
    let op ← orElse (LopOp.ofCode f.fnHi) .reservedFn
    f.mZero
    let o ← f.ops2
    pure (.lop o t op)
  | 0x7 => decImmS f .iaddImm
  | 0x8 => decImmS f .imulImm
  | 0x9 => do
    let t ← orElse (IntTy.ofCode f.fnLo) .reservedFn
    let op ← orElse (LopOp.ofCode f.fnHi) .reservedFn
    f.mZero
    let o ← f.opsB
    pure (.lopImm o t op f.imm)
  | 0xA => do
    let t ← orElse (IntTy.ofCode f.fnLo) .reservedFn
    let op ← orElse (ShiftOp.ofCode f.fnHi) .reservedFn
    f.mZero
    let o ← f.opsB
    pure (.shiftImm o t op f.imm)
  | 0xB => do
    let t ← orElse (IntTy.ofCode f.fnLo) .reservedFn
    let c ← orElse (Cond.ofCode f.fnHi) .reservedFn
    f.mZero
    let o ← f.opsB
    pure (.icmpImm o t c f.imm)
  | 0xC => do
    let t ← orElse (IntTy.ofCode f.fnLo) .reservedFn
    need (f.fnHi == 0 || f.fnHi == 1) .reservedFn
    f.mZero
    let o ← f.opsB
    pure (.iminmaxImm o t (f.fnHi == 1) f.imm)
  | _ => .error .reservedOp

/-- One source, nothing else (FN fixed, MOD zero). -/
def dec1 (f : FmtA) (mk : Ops1 → Instr) : Dec Instr := do
  f.mZero
  let o ← f.ops1
  pure (mk o)

/-- OP 0x30–0x36. -/
def decLanes (lo : Nat) (w : DWord) : Dec Instr :=
  let f := FmtA.ofWord w
  match lo with
  | 0x0 => do
    need (f.mHi == 0 && f.mSat == 0) .reservedField
    let o ← f.ops3
    pure (.plop o (f.fn ++ f.mLo))
  | 0x1 =>
    match f.fn.toNat with
    | 0 => do
      f.mZero
      need (f.noS1 && f.noS23) .reservedField
      let d ← decDst f.dk f.dst
      pure (.pmovPack d f.guard)
    | 1 => do
      f.mZero
      need (f.dk == 3 && f.dst == 0) .badDestination
      need (f.s3 == 0) .reservedField
      let a ← decSrc f.s1
      let m ← decSrc f.s2
      pure (.pmovSet a m f.guard)
    | _ => .error .reservedFn
  | 0x2 =>
    match f.fn.toNat with
    | 0 => dec1 f .voteAll
    | 1 => dec1 f .voteAny
    | 2 => dec1 f .voteEq
    | 3 => dec1 f .voteBallot
    | 4 => dec1 f .voteCount
    | _ => .error .reservedFn
  | 0x3 => do
    need (f.fn == 0) .reservedFn
    f.mZero
    let o ← f.ops3
    pure (.perm o)
  | 0x4 => do
    let t ← orElse (IntTy.ofCode f.fnLo) .reservedFn
    let md ← orElse (ShflMode.ofCode f.fnHi) .reservedFn
    need (f.mHi == 0) .reservedField
    let o ← f.ops2
    pure (.shfl o t md (f.m.extractLsb' 0 3))
  | 0x5 =>
    match f.fnHi.toNat with
    | 0 => decInt2 f 0 .bcastIdx
    | 1 => decInt1 f 1 .bcastFirst
    | _ => .error .reservedFn
  | 0x6 => decInt3 f .cmpct
  | _ => .error .reservedOp

/-- OP 0x40–0x47 (R324). -/
def decFp (lo : Nat) (w : DWord) : Dec Instr :=
  let f := FmtA.ofWord w
  match lo with
  | 0x0 => do
    need (f.fn == 0) .reservedFn
    let rm ← f.rm
    let o ← f.ops2
    pure (.fadd o rm (f.mSat == 1) (f.mB0 == 1) (f.mB1 == 1))
  | 0x1 => do
    need (f.fn == 0) .reservedFn
    need (f.mB1 == 0) .reservedField
    let rm ← f.rm
    let o ← f.ops2
    pure (.fmul o rm (f.mSat == 1) (f.mB0 == 1))
  | 0x2 => do
    need (f.fn == 0) .reservedFn
    let rm ← f.rm
    let o ← f.ops3
    pure (.ffma o rm (f.mSat == 1) (f.mB0 == 1) (f.mB1 == 1))
  | 0x3 => do
    need (f.fn == 0) .reservedFn
    need (f.m.extractLsb' 1 5 == 0) .reservedField
    let o ← f.ops2
    pure (.fmin o (f.mB0 == 1))
  | 0x4 => do
    need (f.fn == 0) .reservedFn
    need (f.m.extractLsb' 1 5 == 0) .reservedField
    let o ← f.ops2
    pure (.fmax o (f.mB0 == 1))
  | 0x5 => do
    need (f.fnLo == 0) .reservedFn
    let c ← orElse (FCond.ofCode f.fnHi) .reservedFn
    need (f.mHi == 0 && f.mSat == 0) .reservedField
    let k ← orElse (Comb.ofCode f.mLo) .reservedField
    let o ← f.ops3
    pure (.fcmp o c k)
  | 0x6 =>
    match f.fn.toNat with
    | 0 => dec1 f .fclass
    | 1 => do f.mZero; let o ← f.ops2; pure (.fclassTest o)
    | _ => .error .reservedFn
  | 0x7 => do
    need (f.fn == 0) .reservedFn
    need (f.mSat == 0 && f.mLo == 0) .reservedField
    let rm ← f.rm
    let o ← f.ops1
    pure (.frnd o rm)
  | _ => .error .reservedOp

/-- FN of packed 16-bit arithmetic: the type, with FN[5:3] zero (R329). -/
def FmtA.packTy (f : FmtA) : Dec PackTy := do
  need (f.fnHi == 0) .reservedFn
  orElse (PackTy.ofCode f.fnLo) .reservedFn

/-- OP 0x50–0x55 (R329). -/
def decPacked (lo : Nat) (w : DWord) : Dec Instr :=
  let f := FmtA.ofWord w
  match lo with
  | 0x0 => do
    let t ← f.packTy
    let rm ← f.rm
    let o ← f.ops2
    pure (.faddPacked o t rm (f.mSat == 1) (f.mB0 == 1) (f.mB1 == 1))
  | 0x1 => do
    let t ← f.packTy
    need (f.mB1 == 0) .reservedField
    let rm ← f.rm
    let o ← f.ops2
    pure (.fmulPacked o t rm (f.mSat == 1) (f.mB0 == 1))
  | 0x2 => do
    let t ← f.packTy
    let rm ← f.rm
    let o ← f.ops3
    pure (.ffmaPacked o t rm (f.mSat == 1) (f.mB0 == 1) (f.mB1 == 1))
  | 0x3 => do
    let t ← f.packTy
    need (f.m.extractLsb' 1 5 == 0) .reservedField
    let o ← f.ops2
    pure (.fminPacked o t (f.mB0 == 1))
  | 0x4 => do
    let t ← f.packTy
    need (f.m.extractLsb' 1 5 == 0) .reservedField
    let o ← f.ops2
    pure (.fmaxPacked o t (f.mB0 == 1))
  | 0x5 => do
    let t ← orElse (PackTy.ofCode f.fnLo) .reservedFn
    let c ← orElse (FCond.ofCode f.fnHi) .reservedFn
    f.mZero
    let o ← f.ops2
    pure (.fcmpPacked o t c)
  | _ => .error .reservedOp

/-- OP 0x60–0x64 (R330–R336). -/
def decConv (lo : Nat) (w : DWord) : Dec Instr :=
  let f := FmtA.ofWord w
  match lo with
  | 0x0 => do
    need (f.fn == 0) .reservedFn
    need (f.s2 == 0 && f.mLo == 0) .reservedField
    let rm ← f.rm
    let dt ← orElse (ElemTy.ofCode (f.s3.extractLsb' 5 5)) .reservedField
    let st ← orElse (ElemTy.ofCode (f.s3.extractLsb' 0 5)) .reservedField
    let o ← f.opsB
    pure (.cvt o dt st rm (f.mSat == 1))
  | 0x1 => do
    let g ← orElse (CvtP.ofCode f.fn) .reservedFn
    need (f.mLo == 0) .reservedField
    let rm ← f.rm
    let o ← f.ops3
    pure (.cvtPacked o g rm (f.mSat == 1))
  | 0x2 => do
    let x ← orElse (MxFmt.ofCode f.fnLo) .reservedFn
    let l ← orElse (MxLayout.ofCode f.fnHi) .reservedFn
    need (f.mSat == 0 && f.mB1 == 0) .reservedField
    let rm ← f.rm
    let o ← f.ops1
    pure (.mxpack o x l (f.mB0 == 1) rm)
  | 0x3 => do
    let x ← orElse (MxFmt.ofCode f.fnLo) .reservedFn
    let l ← orElse (MxLayout.ofCode f.fnHi) .reservedFn
    f.mZero
    let o ← f.ops1
    pure (.mxunpack o x l)
  | 0x4 => do
    need (f.fnHi == 0) .reservedFn
    let t ← orElse (DotTy.ofCode f.fnLo) .reservedFn
    need (f.mLo == 0) .reservedField
    let rm ← f.rm
    let o ← f.ops3
    pure (.dot4 o t rm (f.mSat == 1))
  | _ => .error .reservedOp

/-- A special function: FN and MOD zero (R337). -/
def decSfu (f : FmtA) (mk : Ops1 → Instr) : Dec Instr := do
  need (f.fn == 0) .reservedFn
  dec1 f mk

/-- OP 0x70–0x7A (R337–R341). -/
def decSfuRed (lo : Nat) (w : DWord) : Dec Instr :=
  let f := FmtA.ofWord w
  match lo with
  | 0x0 => decSfu f .rcp
  | 0x1 => decSfu f .rsq
  | 0x2 => decSfu f .sqrt
  | 0x3 => decSfu f .exp2
  | 0x4 => decSfu f .log2
  | 0x5 => decSfu f .sin
  | 0x6 => decSfu f .cos
  | 0x7 => decSfu f .tanh
  | 0x8 => decSfu f .sigm
  | 0x9 => do
    let op ← orElse (RedOp.ofCode f.fnHi) .reservedFn
    let t ← orElse (RedTy.ofCode f.fnLo) .reservedFn
    need (f.mHi == 0) .reservedField
    let o ← f.ops1
    pure (.red o op t (f.m.extractLsb' 0 3))
  | 0xA => do
    let op ← orElse (RedOp.ofCode f.fnHi) .reservedFn
    let t ← orElse (RedTy.ofCode f.fnLo) .reservedFn
    need (f.m.extractLsb' 5 1 == 0) .reservedField
    let o ← f.ops2
    pure (.scan o op t (f.m.extractLsb' 0 3) (f.m.extractLsb' 3 1 == 1) (f.m.extractLsb' 4 1 == 1))
  | _ => .error .reservedOp

/-- The fields of a load, a store or PREF (R263). -/
def FmtM.memA (f : FmtM) : Dec MemA := do
  let w ← orElse (MemW.ofCode f.fn) .reservedFn
  let base ← decSrc f.base
  let index ← decSrc f.index
  let sc ← orElse (Scope.ofCode f.scope) .reservedField
  pure ⟨w, f.dst, base, index, f.off, f.guard, sc, f.ord == 1, f.scale⟩

/-- OP 0x80–0x84 (R349). -/
def decLoad (lo : Nat) (w : DWord) : Dec Instr :=
  let f := FmtM.ofWord w
  match lo with
  | 0x0 => do let m ← f.memA; pure (.ldl m)
  | 0x1 => do let m ← f.memA; pure (.ldg m)
  | 0x2 => do let m ← f.memA; pure (.ldy m)
  | 0x3 => do let m ← f.memA; pure (.ldkv m)
  | 0x4 => do let m ← f.memA; pure (.ldt m)
  | _ => .error .reservedOp

/-- OP 0x90–0x92 (R349). -/
def decStore (lo : Nat) (w : DWord) : Dec Instr :=
  let f := FmtM.ofWord w
  match lo with
  | 0x0 => do let m ← f.memA; pure (.stl m)
  | 0x1 => do let m ← f.memA; pure (.stg m)
  | 0x2 => do let m ← f.memA; pure (.sty m)
  | _ => .error .reservedOp

/-- The fields of an atomic (R352). -/
def FmtM.atomA (f : FmtM) : Dec AtomA := do
  let op ← orElse (AtomOp.ofCode f.fn) .reservedFn
  let ty ← orElse (AtomTy.ofCode f.scale) .reservedField
  let base ← decSrc f.base
  let x ← decSrc f.index
  let sc ← orElse (Scope.ofCode f.scope) .reservedField
  pure ⟨op, ty, f.dst, base, x, f.off, f.guard, sc, f.ord == 1⟩

/-- FENCE's fields: only SCOPE, with ORD = 1 (R354). -/
def FmtM.fenceScope (f : FmtM) : Dec Scope := do
  need (f.dst == 0 && f.base == 0 && f.index == 0 && f.off == 0 && f.scale == 0 && f.ord == 1) .reservedField
  orElse (Scope.ofCode f.scope) .reservedField

/-- A line range's fields (R356). -/
def FmtM.rangeA (f : FmtM) : Dec RangeA := do
  need (f.fn == 0) .reservedFn
  need (f.dst == 0 && f.scale == 0) .reservedField
  let base ← decSrc f.base
  let n ← decSrc f.index
  pure ⟨base, n, f.off, f.guard⟩

/-- OP 0xA0–0xAB (R352–R358). -/
def decAtomFence (lo : Nat) (w : DWord) : Dec Instr :=
  let f := FmtM.ofWord w
  match lo with
  | 0x0 => do let a ← f.atomA; pure (.atomGlobal a)
  | 0x1 => do let a ← f.atomA; pure (.atomLocal a)
  | 0x2 => do let a ← f.atomA; pure (.atomYard a)
  | 0x3 => do let a ← f.atomA; pure (.atomGlobalNoret a)
  | 0x4 => do let a ← f.atomA; pure (.atomLocalNoret a)
  | 0x5 => do let a ← f.atomA; pure (.atomYardNoret a)
  | 0x6 => do
    need (f.fn == 0 || f.fn == 1) .reservedFn
    let sc ← f.fenceScope
    pure (if f.fn = 0 then .fence f.guard sc else .fenceEng f.guard sc)
  | 0x7 => do
    need (f.fn == 0 || f.fn == 1) .reservedFn
    need (f.dst == 0 && f.scope == 0 && f.ord == 0) .reservedField
    let base ← decSrc f.base
    let index ← decSrc f.index
    pure (if f.fn = 0 then .prefL1 base index f.off f.guard f.scale else .prefDc base index f.off f.guard f.scale)
  | 0x8 => do need (f.ord == 0 && f.scope == 0) .reservedField; let a ← f.rangeA; pure (.cwb a)
  | 0x9 => do need (f.ord == 0 && f.scope == 0) .reservedField; let a ← f.rangeA; pure (.cinv a)
  | 0xA => do
    need (f.ord == 1) .reservedField
    let sc ← orElse (Scope.ofCode f.scope) .reservedField
    let a ← f.rangeA
    pure (.iinv a sc)
  | 0xB => do
    need (f.fn == 0) .reservedFn
    need (f.dst == 0 && f.base == 0 && f.index == 0 && f.off == 0 && f.scope == 0 && f.ord == 0 && f.scale == 0)
      .reservedField
    pure (.fetchb f.guard)
  | _ => .error .reservedOp

/-- A barrier instruction (R360). -/
def decBar (f : FmtA) (mk : Guard → BitVec 4 → Instr) : Dec Instr := do
  need (f.fn == 0) .reservedFn
  need (f.noDst && f.noS1 && f.noS23 && f.m.extractLsb' 4 2 == 0) .reservedField
  pure (mk f.guard (f.m.extractLsb' 0 4))

/-- OP 0xB0–0xBA (R360). -/
def decSync (lo : Nat) (w : DWord) : Dec Instr :=
  let f := FmtA.ofWord w
  match lo with
  | 0x0 => decBar f .barArrive
  | 0x1 => decBar f .barWait
  | 0x2 => decBar f .barSync
  | 0x3 => decBare w .crewJoin
  | 0x4 => do
    need (f.fn == 0) .reservedFn
    need (f.noS1 && f.noS23 && f.m == 0) .reservedField
    let d ← decDst f.dk f.dst
    pure (.crewLeave d f.guard)
  | 0x5 => do
    need (f.fn == 0 || f.fn == 1) .reservedFn
    need (f.noS1 && f.noS23 && f.m == 0) .reservedField
    let d ← decDst f.dk f.dst
    pure (if f.fn = 0 then .crewQuery d f.guard else .crewQueryGang d f.guard)
  | 0x6 => do
    need (f.fn == 0) .reservedFn
    need (f.noDst && f.noS23 && f.m.extractLsb' 4 2 == 0) .reservedField
    let a ← decSrc f.s1
    pure (.qpush f.guard a (f.m.extractLsb' 0 4))
  | 0x7 => do
    need (f.fn == 0) .reservedFn
    need (f.noS1 && f.noS23 && f.m.extractLsb' 4 2 == 0) .reservedField
    let d ← decDst f.dk f.dst
    pure (.qpop d f.guard (f.m.extractLsb' 0 4))
  | 0x8 => do
    need (f.fn == 0) .reservedFn
    need (f.noDst && f.noS23 && f.mHi == 0) .reservedField
    let p ← orElse (Path6.ofCode (f.m.extractLsb' 0 3)) .reservedField
    let a ← decSrc f.s1
    pure (.waitc f.guard a p)
  | 0x9 => do
    let sp ← orElse (Space3.ofCode f.fn) .reservedFn
    need (f.noDst && f.noS23 && f.mSat == 0) .reservedField
    let sc ← orElse (Scope.ofCode f.mHi) .reservedField
    let a ← decSrc f.s1
    pure (.monArm f.guard a sp sc f.mLo)
  | 0xA => do
    let c ← orElse (StampCmp.ofCode f.fn) .reservedFn
    need (f.noS23 && f.mHi == 0 && f.mSat == 0) .reservedField
    let d ← decDst f.dk f.dst
    let v ← decSrc f.s1
    pure (.waitStamp d f.guard v c f.mLo)
  | _ => .error .reservedOp

/-- Unused fields of format X. -/
def FmtX.noDa (f : FmtX) : Bool := f.da == 0
def FmtX.noDb (f : FmtX) : Bool := f.db == 0
def FmtX.noAcc (f : FmtX) : Bool := f.acc == 0
def FmtX.noOb (f : FmtX) : Bool := f.oba == 0 && f.obb == 0
def FmtX.noSb (f : FmtX) : Bool := f.sb == 0

/-- ACC.NEW and ACC.ZERO (R377). -/
def decAcc (f : FmtX) (mk : Guard → BitVec 3 → Instr) : Dec Instr := do
  need (f.fn == 0) .reservedFn
  need (f.noDa && f.noDb && f.noOb && f.sa == 0 && f.noSb && f.m == 0) .reservedField
  pure (mk f.guard f.acc)

/-- OP 0xC0–0xC6 (R377–R383). -/
def decMatrix (lo : Nat) (w : DWord) : Dec Instr :=
  let f := FmtX.ofWord w
  do
  need (f.z == 0) .reservedField
  match lo with
  | 0x0 => do
    need (f.noDa && f.noDb && f.noSb) .reservedField
    let ta ← orElse (ElemTy.ofCode (f.fn.extractLsb' 0 5)) .reservedFn
    let tb ← orElse (ElemTy.ofCode (f.m.extractLsb' 0 5)) .reservedField
    let c ← decSrc f.sa
    pure (.mma f.guard ta tb (f.fn.extractLsb' 5 1 == 1) (f.m.extractLsb' 5 1 == 1) f.acc f.oba f.obb c)
  | 0x1 => decAcc f .accNew
  | 0x2 => decAcc f .accZero
  | 0x3 => do
    need (f.fn == 0) .reservedFn
    need (f.noDb && f.noOb && f.noSb && f.m == 0) .reservedField
    let a ← decSrc f.sa
    pure (.accLd f.guard f.acc f.da a)
  | 0x4 => do
    need (f.fn == 0) .reservedFn
    need (f.noDb && f.noOb && f.noSb && f.m.extractLsb' 0 2 == 0) .reservedField
    let rm ← orElse (Rnd.ofCode (f.m.extractLsb' 3 3)) .reservedField
    let a ← decSrc f.sa
    pure (.accSt f.guard f.acc f.da a rm (f.m.extractLsb' 2 1 == 1))
  | 0x5 => do
    need (f.fn == 0) .reservedFn
    need (f.noDa && f.noDb && f.noOb && f.m == 0) .reservedField
    let p ← decSrc f.sa
    let d ← decVS f.sb
    pure (.accRd f.guard f.acc p d)
  | 0x6 => do
    need (f.fn == 0) .reservedFn
    need (f.noDb && f.noAcc && f.obb == 0 && f.noSb && f.m == 0) .reservedField
    let a ← decSrc f.sa
    pure (.tld f.guard f.oba f.da a)
  | _ => .error .reservedOp

/-- COPY and COPY.COND (R385). -/
def decCopy (f : FmtX) (mk : Guard → BitVec 4 → BitVec 4 → BitVec 6 → Instr) : Dec Instr := do
  need (f.z == 0) .reservedField
  need (f.fn == 0) .reservedFn
  need (f.noAcc && f.noOb && f.noSb && f.m == 0) .reservedField
  let sn ← decBlock f.sa
  pure (mk f.guard f.da f.db sn)

/-- A token instruction of two or three sources, FN and MOD zero (R390). -/
def decTok3 (f : FmtA) (mk : Ops3 → Instr) : Dec Instr := do
  need (f.fn == 0) .reservedFn
  f.mZero
  let o ← f.ops3
  pure (mk o)

/-- OP 0xD0–0xDA (R384–R390). -/
def decEngine (lo : Nat) (w : DWord) : Dec Instr :=
  let f := FmtX.ofWord w
  let a := FmtA.ofWord w
  match lo with
  | 0x0 => do
    need (f.z == 0) .reservedField
    need (f.fn == 0) .reservedFn
    need (f.noDb && f.noAcc && f.noOb && f.m.extractLsb' 1 5 == 0) .reservedField
    let sn ← decBlock f.sa
    let e ← decVS f.sb
    pure (.shapeMake f.guard f.da sn e (f.m.extractLsb' 0 1 == 1))
  | 0x1 => decCopy f .copy
  | 0x2 => do
    need (f.z == 0) .reservedField
    need (f.noAcc && f.noOb && f.m.extractLsb' 4 2 == 0) .reservedField
    match f.fn.toNat with
    | 0 => do
      let sn ← decBlock f.sa
      let e ← decVS f.sb
      pure (.copyArm f.guard f.da f.db sn e (f.m.extractLsb' 0 4))
    | 1 => do
      need (f.noDa && f.noDb && f.sa == 0) .reservedField
      let e ← decVS f.sb
      pure (.copyDisarm f.guard e (f.m.extractLsb' 0 4))
    | _ => .error .reservedFn
  | 0x3 => decCopy f .copyCond
  | 0x4 => do
    need (f.z == 0) .reservedField
    need (f.fn == 0) .reservedFn
    need (f.noDb && f.noAcc && f.noOb && f.noSb && f.m == 0) .reservedField
    let x ← decSrc f.sa
    pure (.copyMc f.guard f.da x)
  | 0x5 => do
    need (f.z == 0) .reservedField
    need (f.fn.extractLsb' 4 2 == 0) .reservedFn
    need (f.noAcc && f.noOb && f.noSb && f.m.extractLsb' 5 1 == 0) .reservedField
    let k ← orElse (CollKind.ofCode (f.fn.extractLsb' 0 2)) .reservedFn
    let op ← orElse (CollOp.ofCode (f.fn.extractLsb' 2 2)) .reservedFn
    let t ← orElse (ElemTy.ofCode (f.m.extractLsb' 0 5)) .reservedField
    let sn ← decBlock f.sa
    pure (.coll f.guard k op t f.da f.db sn)
  | 0x6 => do
    let fld ← orElse (TokField.ofCode a.fn) .reservedFn
    a.mZero
    let o ← a.ops2
    pure (.tokLoad o.d o.g fld o.a o.b)
  | 0x7 => do need (a.fn == 0) .reservedFn; dec1 a .tokHdr
  | 0x8 => decTok3 a .tokSend
  | 0x9 => do need (a.fn == 0) .reservedFn; dec1 a .tokRetire
  | 0xA => decTok3 a .tokSpawn
  | _ => .error .reservedOp

/-- Destination, SRC1, SYSREG and MOD of format Y unused where the flag is false (R401). -/
def FmtY.only (f : FmtY) (d a r : Bool) : Dec Unit :=
  need (f.z == 0 && f.m == 0 && (d || (f.dk == 0 && f.dst == 0)) && (a || f.s1 == 0) && (r || f.reg == 0)) .reservedField

/-- OP 0xE0–0xEE (R398–R403). -/
def decSystem (lo : Nat) (w : DWord) : Dec Instr :=
  let a := FmtA.ofWord w
  let y := FmtY.ofWord w
  match lo with
  | 0x0 => do
    let f := FmtX.ofWord w
    need (f.fn == 0) .reservedFn
    need (f.z == 0 && f.noDa && f.noDb && f.noAcc && f.noOb && f.noSb && f.m == 0) .reservedField
    let sn ← decBlock f.sa
    pure (.benchEnter f.guard sn)
  | 0x1 => do need (a.fn == 0) .reservedFn; dec1 a .benchExit
  | 0x2 => do need (a.fn == 0) .reservedFn; dec1 a .benchState
  | 0x3 => do need (a.fn == 0) .reservedFn; a.mZero; let o ← a.ops13; pure (.steer o)
  | 0x4 => decTok3 a .merge
  | 0x5 => do need (a.fn == 0) .reservedFn; a.mZero; let o ← a.ops13; pure (.gate o)
  | 0x6 => do need (a.fn == 0) .reservedFn; dec1 a .fwd
  | 0x7 => do need (y.fn == 0) .reservedFn; y.only false false true; pure (.trap y.guard y.reg)
  | 0x8 => do need (y.fn == 0) .reservedFn; y.only false false false; pure (.tret y.guard)
  | 0x9 => do need (y.fn == 0) .reservedFn; y.only false false true; pure (.svc y.guard y.reg)
  | 0xA => do
    need (y.fn == 0) .reservedFn
    y.only true false true
    let r ← orElse (SysReg.ofCode y.reg) .reservedField
    let d ← decDst y.dk y.dst
    pure (.sysr d y.guard r)
  | 0xB => do
    need (y.fn == 0) .reservedFn
    y.only false true true
    let r ← orElse (SysReg.ofCode y.reg) .reservedField
    let s ← decSrc y.s1
    pure (.sysw y.guard r s)
  | 0xC => do
    need (y.fn == 0) .reservedFn
    y.only true true false
    let d ← decDst y.dk y.dst
    let s ← decSrc y.s1
    pure (.survey ⟨d, s, y.guard⟩)
  | 0xD =>
    match y.fn.toNat with
    | 0 => do
      y.only true true false
      let d ← decDst y.dk y.dst
      let s ← decSrc y.s1
      pure (.featTest ⟨d, s, y.guard⟩)
    | 1 => do
      y.only true false false
      let d ← decDst y.dk y.dst
      pure (.featCtx d y.guard)
    | _ => .error .reservedFn
  | 0xE => do need (y.fn == 0) .reservedFn; y.only false false false; pure (.halt y.guard)
  | _ => .error .reservedOp

/-- The fields of a word, by OP (R261, R279), before the checks of `Instr.wf`. -/
def decFields (w : DWord) : Dec Instr :=
  let lo := (w.extractLsb' 56 4).toNat
  match (w.extractLsb' 60 4).toNat with
  | 0x0 => decControl lo w
  | 0x1 => decInt lo w
  | 0x2 => decBits lo w
  | 0x3 => decLanes lo w
  | 0x4 => decFp lo w
  | 0x5 => decPacked lo w
  | 0x6 => decConv lo w
  | 0x7 => decSfuRed lo w
  | 0x8 => decLoad lo w
  | 0x9 => decStore lo w
  | 0xA => decAtomFence lo w
  | 0xB => decSync lo w
  | 0xC => decMatrix lo w
  | 0xD => decEngine lo w
  | 0xE => decSystem lo w
  | _ => if lo = 0 then .error .headerOp else .error .reservedOp

/-- What a word decodes to. -/
inductive Decoded where
  | instr (i : Instr)
  | refused (e : DecodeError)
  deriving DecidableEq, Repr

/-- An instruction word (R261, R280): its fields, then its entry's checks. -/
def decode (w : DWord) : Decoded :=
  match decFields w with
  | .ok i => if i.wf then .instr i else .refused .illFormed
  | .error e => .refused e

/-- The decoder on words numbered as the opcode table numbers them: every instruction is one 64-bit word (R256, R261). -/
def decodeTableWord (nbits w : Nat) : Option Instr :=
  if nbits ≤ 64 then
    match decode (BitVec.ofNat 64 w) with
    | .instr i => some i
    | .refused _ => none
  else none

/-! ## Sett headers (R257) -/

/-- The fields of a sett header. -/
structure Header where
  nm1 : BitVec 5
  budm1 : BitVec 5
  func : Bool
  nopf : Bool
  resv : BitVec 12
  lit : BitVec 32
  deriving DecidableEq, Repr

/-- Format H. -/
def Header.ofWord (w : DWord) : Header :=
  { nm1 := w.extractLsb' 51 5, budm1 := w.extractLsb' 46 5, func := w.extractLsb' 45 1 == 1,
    nopf := w.extractLsb' 44 1 == 1, resv := w.extractLsb' 32 12, lit := w.extractLsb' 0 32 }

/-- The device recognises a header by its OP byte alone (R260). -/
def isHeader (w : DWord) : Bool := w.extractLsb' 56 8 == 0xF0

/-! ## The encoder -/

/-- The IT (R304). -/
def IntTy.code : IntTy → BitVec 3
  | .n32 => 0
  | .i32 => 1
  | .n64 => 2
  | .i64 => 3
  | .n16x2 => 4
  | .i16x2 => 5
  | .n8x4 => 6
  | .i8x4 => 7

/-- The rounding codes (R105). -/
def Rnd.code : Rnd → BitVec 3
  | .rne => 0
  | .rz => 1
  | .ru => 2
  | .rd => 3
  | .sr => 4

/-- The integer condition codes (R312). -/
def Cond.code : Cond → BitVec 3
  | .eq => 0
  | .ne => 1
  | .lt => 2
  | .le => 3
  | .gt => 4
  | .ge => 5

/-- The floating condition codes (R326). -/
def FCond.code : FCond → BitVec 3
  | .eq => 0
  | .ne => 1
  | .lt => 2
  | .le => 3
  | .gt => 4
  | .ge => 5
  | .un => 6
  | .ord => 7

/-- The combination codes (R312). -/
def Comb.code : Comb → BitVec 2
  | .none => 0
  | .and => 1
  | .or => 2
  | .xor => 3

/-- The LOP codes (R311). -/
def LopOp.code : LopOp → BitVec 3
  | .and => 0
  | .or => 1
  | .xor => 2
  | .andn => 3
  | .orn => 4
  | .xnor => 5
  | .not => 6

/-- The immediate shift codes (R313). -/
def ShiftOp.code : ShiftOp → BitVec 3
  | .shl => 0
  | .shr => 1
  | .sar => 2
  | .rol => 3
  | .ror => 4

/-- The how LEA reads b (R307). -/
def LeaMode.code : LeaMode → BitVec 2
  | .plain => 0
  | .zx => 1
  | .sx => 2

/-- The SHFL modes (R319). -/
def ShflMode.code : ShflMode → BitVec 3
  | .idx => 0
  | .up => 1
  | .down => 2
  | .xor => 3

/-- The packed element types (R329). -/
def PackTy.code : PackTy → BitVec 3
  | .f16x2 => 0
  | .b16x2 => 1

/-- The packed CVT functions (R332). -/
def CvtP.code : CvtP → BitVec 6
  | .toF16x2 => 0
  | .toB16x2 => 1
  | .fromF16x2 => 2
  | .fromB16x2 => 3
  | .toE4m3Lo => 4
  | .toE4m3Hi => 5
  | .toE5m2Lo => 6
  | .toE5m2Hi => 7
  | .fromE4m3Lo => 8
  | .fromE4m3Hi => 9
  | .fromE5m2Lo => 10
  | .fromE5m2Hi => 11

/-- The MX formats (R333). -/
def MxFmt.code : MxFmt → BitVec 3
  | .mx8a => 0
  | .mx8b => 1
  | .mx6a => 2
  | .mx6b => 3
  | .mx4 => 4

/-- The MX lane layouts (R333). -/
def MxLayout.code : MxLayout → BitVec 3
  | .elem => 0
  | .words => 1

/-- The DOT4 types (R336). -/
def DotTy.code : DotTy → BitVec 3
  | .e4m3x4 => 0
  | .e5m2x4 => 1
  | .f16x2 => 2
  | .b16x2 => 3
  | .i8x4 => 4
  | .n8x4 => 5

/-- The RED operations (R339). -/
def RedOp.code : RedOp → BitVec 3
  | .add => 0
  | .min => 1
  | .max => 2
  | .and => 3
  | .or => 4
  | .xor => 5

/-- The RED types (R339). -/
def RedTy.code : RedTy → BitVec 3
  | .n32 => 0
  | .i32 => 1
  | .n64 => 2
  | .i64 => 3
  | .f32 => 4

/-- The scope codes (R133). -/
def Scope.code : Scope → BitVec 3
  | .crew => 0
  | .gang => 1
  | .core => 2
  | .cluster => 3
  | .die => 4
  | .device => 5
  | .domain => 6
  | .system => 7

/-- The load and store widths (R347). -/
def MemW.code : MemW → BitVec 4
  | .n8 => 0
  | .i8 => 1
  | .n16 => 2
  | .i16 => 3
  | .n32 => 4
  | .n64 => 5
  | .n128 => 6

/-- The atomic operations (R352). -/
def AtomOp.code : AtomOp → BitVec 4
  | .add => 0
  | .addF32 => 1
  | .min => 2
  | .max => 3
  | .and => 4
  | .or => 5
  | .xor => 6
  | .xchg => 7
  | .cas => 8

/-- The atomic types (R352). -/
def AtomTy.code : AtomTy → BitVec 2
  | .n32 => 0
  | .i32 => 1
  | .n64 => 2
  | .i64 => 3

/-- The counter paths (R368). -/
def Path6.code : Path6 → BitVec 3
  | .ld => 0
  | .st => 1
  | .cp => 2
  | .mx => 3
  | .cl => 4
  | .tk => 5

/-- The monitor spaces (R360). -/
def Space3.code : Space3 → BitVec 6
  | .global => 0
  | .localMem => 1
  | .yard => 2

/-- The WAIT.STAMP comparisons (R360). -/
def StampCmp.code : StampCmp → BitVec 6
  | .eq => 0
  | .ne => 1
  | .ge => 2

/-- The COLL kinds (R388). -/
def CollKind.code : CollKind → BitVec 2
  | .allred => 0
  | .redscat => 1
  | .allgath => 2
  | .bcast => 3

/-- The COLL operations (R388). -/
def CollOp.code : CollOp → BitVec 2
  | .sum => 0
  | .max => 1
  | .min => 2

/-- The element-type codes (R115). -/
def ElemTy.code : ElemTy → BitVec 5
  | .n8 => 0
  | .n16 => 1
  | .n32 => 2
  | .n64 => 3
  | .i8 => 4
  | .i16 => 5
  | .i32 => 6
  | .i64 => 7
  | .n4 => 8
  | .i4 => 9
  | .f32 => 16
  | .f16 => 17
  | .b16 => 18
  | .e4m3 => 19
  | .e5m2 => 20
  | .mx8a => 24
  | .mx8b => 25
  | .mx6a => 26
  | .mx6b => 27
  | .mx4 => 28

/-- The TOK.LOAD field codes (R391). -/
def TokField.code : TokField → BitVec 6
  | .kind => 0
  | .pos => 1
  | .sslot => 2
  | .chunk => 3
  | .mflags => 4
  | .parent => 5
  | .kvh => 6
  | .nextop => 7
  | .epoch => 8
  | .topk => 9
  | .temp => 10
  | .topp => 11
  | .sseed => 12
  | .lentHeld => 13
  | .uflags => 14
  | .seqid => 16
  | .hidden => 17
  | .feat => 18
  | .summary => 19
  | .user => 20

/-- The system register numbers (R403). -/
def SysReg.code : SysReg → BitVec 16
  | .xlatInv => 64
  | .xlatStat => 65
  | .kvdescBase => 66
  | .fqResume => 67
  | .ptRoot => 68
  | .privRoot => 69
  | .privHwm => 70
  | .privLimit => 71
  | .memerr => 72
  | .carPeriod => 80
  | .submit => 81
  | .submitSt => 82
  | .trPc => 96
  | .trCause => 97
  | .trAddr => 98
  | .trS0 => 99
  | .trS1 => 100
  | .trVec => 101
  | .wdog => 102
  | .frRing => 103
  | .frStamp => 104
  | .frRead => 105

/-- The number of a special register (R276). -/
def Special.code : Special → BitVec 6
  | .lane => 0x00
  | .crew => 0x01
  | .gang => 0x02
  | .core => 0x03
  | .cluster => 0x04
  | .die => 0x05
  | .device => 0x06
  | .lev n => 1#3 ++ n
  | .mask => 0x10
  | .budget => 0x11
  | .feat => 0x12
  | .press => 0x13
  | .cyc => 0x14
  | .seed => 0x15
  | .fpsr => 0x16

/-- The source field of an operand (R268). -/
def encSrc : Src → BitVec 10
  | .v n => 0#2 ++ n
  | .s n => 1#2 ++ 0#2 ++ n
  | .trans n => 1#2 ++ 2#3 ++ n
  | .pop n => 1#2 ++ 8#4 ++ n
  | .const n => 1#2 ++ 3#2 ++ n
  | .spec r => 2#2 ++ 0#2 ++ r.code
  | .tok n => 2#2 ++ 8#5 ++ n
  | .pred n => 2#2 ++ 9#5 ++ n
  | .dword d w => 2#2 ++ 2#2 ++ d ++ w

/-- DK of a destination (R271). -/
def encDk : Dst → BitVec 2
  | .v _ => 0
  | .trans => 1
  | .s _ => 2
  | .p _ => 3

/-- DST of a destination (R271). -/
def encDst : Dst → BitVec 8
  | .v n => n
  | .trans => 0
  | .s n => 0#2 ++ n
  | .p n => 0#5 ++ n

/-- A destination in a source field (R264). -/
def encVS : Dst → BitVec 10
  | .v n => 0#2 ++ n
  | .s n => 1#2 ++ 0#2 ++ n
  | .trans => 0
  | .p _ => 0

/-- An operand block's SRCA (R371). -/
def encBlock (n : BitVec 6) : BitVec 10 := 4#4 ++ n

/-- One bit. -/
def bit (b : Bool) : BitVec 1 := if b then 1 else 0

/-- A field placed at a bit of the word. -/
def putAt {n : Nat} (x : BitVec n) (k : Nat) : Nat := x.toNat * 2 ^ k

/-! The words of the formats (R262–R266). -/

/-- The word of format A. -/
def FmtA.toWord (f : FmtA) : DWord :=
  BitVec.ofNat 64 (
    putAt f.op 56 + putAt f.fn 50 + putAt f.dk 48 + putAt f.dst 40 + putAt f.s1 30 + putAt f.s2 20 +
    putAt f.s3 10 + putAt f.pg 7 + putAt f.pn 6 + putAt f.m 0)

/-- The word of format M. -/
def FmtM.toWord (f : FmtM) : DWord :=
  BitVec.ofNat 64 (
    putAt f.op 56 + putAt f.fn 52 + putAt f.dst 44 + putAt f.base 34 + putAt f.index 24 + putAt f.off 10 +
    putAt f.pg 7 + putAt f.pn 6 + putAt f.scope 3 + putAt f.ord 2 + putAt f.scale 0)

/-- The word of format X. -/
def FmtX.toWord (f : FmtX) : DWord :=
  BitVec.ofNat 64 (
    putAt f.op 56 + putAt f.fn 50 + putAt f.da 46 + putAt f.db 42 + putAt f.acc 39 + putAt f.oba 35 +
    putAt f.obb 31 + putAt f.sa 21 + putAt f.sb 11 + putAt f.z 10 + putAt f.pg 7 + putAt f.pn 6 + putAt f.m 0)

/-- The word of format J. -/
def FmtJ.toWord (f : FmtJ) : DWord :=
  BitVec.ofNat 64 (
    putAt f.op 56 + putAt f.fn 50 + putAt f.target 12 + putAt f.z 10 + putAt f.pg 7 + putAt f.pn 6 + putAt f.m 0)

/-- The word of format Y. -/
def FmtY.toWord (f : FmtY) : DWord :=
  BitVec.ofNat 64 (
    putAt f.op 56 + putAt f.fn 50 + putAt f.dk 48 + putAt f.dst 40 + putAt f.s1 30 + putAt f.reg 14 +
    putAt f.z 10 + putAt f.pg 7 + putAt f.pn 6 + putAt f.m 0)

/-- Format A from its parts. -/
def mkA (op : BitVec 8) (fn : BitVec 6) (dk : BitVec 2) (dst : BitVec 8) (s1 s2 s3 : BitVec 10) (g : Guard)
    (m : BitVec 6) : DWord :=
  FmtA.toWord ⟨op, fn, dk, dst, s1, s2, s3, g.pg, bit g.pn, m⟩

/-- Format A with nothing but OP and the guard. -/
def encBare (op : BitVec 8) (g : Guard) : DWord := mkA op 0 0 0 0 0 0 g 0

def enc1 (op : BitVec 8) (fn : BitVec 6) (o : Ops1) (m : BitVec 6) : DWord :=
  mkA op fn (encDk o.d) (encDst o.d) (encSrc o.a) 0 0 o.g m
def enc2 (op : BitVec 8) (fn : BitVec 6) (o : Ops2) (m : BitVec 6) : DWord :=
  mkA op fn (encDk o.d) (encDst o.d) (encSrc o.a) (encSrc o.b) 0 o.g m
def enc13 (op : BitVec 8) (o : Ops2) : DWord :=
  mkA op 0 (encDk o.d) (encDst o.d) (encSrc o.a) 0 (encSrc o.b) o.g 0
def enc3 (op : BitVec 8) (fn : BitVec 6) (o : Ops3) (m : BitVec 6) : DWord :=
  mkA op fn (encDk o.d) (encDst o.d) (encSrc o.a) (encSrc o.b) (encSrc o.c) o.g m
/-- Format B (R262). -/
def encB (op : BitVec 8) (fn : BitVec 6) (o : Ops1) (imm : BitVec 20) (m : BitVec 6) : DWord :=
  mkA op fn (encDk o.d) (encDst o.d) (encSrc o.a) (imm.extractLsb' 10 10) (imm.extractLsb' 0 10) o.g m

/-- MOD holding SAT only. -/
def satMod (sat : Bool) : BitVec 6 := 0#3 ++ bit sat ++ 0#2
/-- MOD holding a rounding mode, SAT and MOD[1:0] (R273). -/
def rmMod (rm : Rnd) (sat b1 b0 : Bool) : BitVec 6 := rm.code ++ bit sat ++ bit b1 ++ bit b0

def encJ (op : BitVec 8) (fn : BitVec 6) (t : BitVec 38) (g : Guard) (m : BitVec 6) : DWord :=
  FmtJ.toWord ⟨op, fn, t, 0, g.pg, bit g.pn, m⟩
def encMem (op : BitVec 8) (m : MemA) : DWord :=
  FmtM.toWord ⟨op, m.w.code, m.r, encSrc m.base, encSrc m.index, m.off, m.g.pg, bit m.g.pn, m.scope.code, bit m.ord,
    m.scale⟩
def encAtom (op : BitVec 8) (a : AtomA) : DWord :=
  FmtM.toWord ⟨op, a.op.code, a.r, encSrc a.base, encSrc a.x, a.off, a.g.pg, bit a.g.pn, a.scope.code, bit a.ord,
    a.ty.code⟩
def encFence (fn : BitVec 4) (g : Guard) (sc : Scope) : DWord :=
  FmtM.toWord ⟨0xA6, fn, 0, 0, 0, 0, g.pg, bit g.pn, sc.code, 1, 0⟩
def encPref (fn : BitVec 4) (b i : Src) (off : BitVec 14) (g : Guard) (scale : BitVec 2) : DWord :=
  FmtM.toWord ⟨0xA7, fn, 0, encSrc b, encSrc i, off, g.pg, bit g.pn, 0, 0, scale⟩
def encRange (op : BitVec 8) (a : RangeA) (sc : BitVec 3) (ord : BitVec 1) : DWord :=
  FmtM.toWord ⟨op, 0, 0, encSrc a.base, encSrc a.n, a.off, a.g.pg, bit a.g.pn, sc, ord, 0⟩
def encX (op : BitVec 8) (fn : BitVec 6) (da db : BitVec 4) (acc : BitVec 3) (oba obb : BitVec 4) (sa sb : BitVec 10)
    (g : Guard) (m : BitVec 6) : DWord :=
  FmtX.toWord ⟨op, fn, da, db, acc, oba, obb, sa, sb, 0, g.pg, bit g.pn, m⟩
def encY (op : BitVec 8) (fn : BitVec 6) (d : Option Dst) (a : Option Src) (r : BitVec 16) (g : Guard) : DWord :=
  FmtY.toWord ⟨op, fn, (d.map encDk).getD 0, (d.map encDst).getD 0, (a.map encSrc).getD 0, r, 0, g.pg, bit g.pn, 0⟩

/-- Is the term an instruction word, and not an event of the device? -/
def Instr.isWord : Instr → Bool
  | .sfuResultReturn _ _ | .stampMonitorWake _ | .stampPollTimer _ | .matrixOperationExecute _ _
  | .accTileDrainFree _ _ | .settStart | .settCommit | .quarterIssueSwitch _ | .trapEntry | .localWatchdog _
  | .walkComplete _ | .faultRecordDeliver _ | .fqResumeReplay _ _ | .fqResumeCancel _ _ | .xlatInvPartition _
  | .xlatInvPage _ _ | .xlatInvKv _ _ | .xlatInvPrivate _ _ | .xlatInvComplete | .ptRootWrite _ _ | .privHwmWrite _ _
  | .memerrWrite _ _ | .frReadWrite _ _ | .submitWrite _ _ | .systemRegisterWrite _ _ _ | .homeAccessPerform _
  | .combiningBufferTimeout _ _ | .patrolScrub _ | .uncorrectableError _ | .configFreeze _ | .configReloadDone _
  | .yardRegionFill _ | .yardRegionConsume _ | .engineAccept _ | .engineOperationComplete _ | .condCopyReserve _
  | .templateFire _ _ | .multicastTileRead _ | .multicastTileDeliver _ _ | .collectiveInstanceComplete _ _
  | .tokenAccept _ _ | .tokenAcceptReturn _ | .carderSpillAccept _ _ | .battForm _ _ | .carderTimeout _ _
  | .battDispatch _ _ | .carouselPassBegin _ | .carouselTileFill _ | .configTakeEffect _ | .gangPlace _
  | .reserveCrewAttach _ | .battStealGrant _ _ _ | .stealReceive _ | .stealAckDelivered _ | .lendDisturbance _ _
  | .benchStart _ | .benchMap _ | .startTokenTake _ _ | .elementRuleFire _ _ | .isectStep _ _ | .reordStep _ _
  | .bufStep _ _ | .rtreeStep _ _ | .memStreamRead _ _ | .memRandomAccess _ _ | .memOrderedUpdate _ _
  | .orderedRetire _ | .spallFaultSend _ _ | .spallDeliver _ | .spallReply _ | .benchRetire _ | .benchAbort _
  | .benchDrainComplete _ | .benchDrainTimeout _ | .benchStoppingComplete _ | .benchResume _ | .doorbell _ _
  | .intakeSpillMove _ | .commandTake | .launch _ | .delta _ | .stampwait _ | .stampwaitEnd _ | .config _
  | .partitionCreate _ | .partitionSwapout _ | .swapoutSaveComplete _ | .partitionSwapin _ | .partitionPreempt _
  | .crewPreemptSave _ | .partitionDestroy _ | .partitionScrub _ | .resume _ | .producer _ | .commandNop _
  | .commandComplete _ | .launchComplete _ | .firmwareRestart | .surveyreq _ _ | .attestreq _ | .idreq | .key _ _
  | .window _ _ _ | .qpset _ _ _ _ _ _ | .group _ _ _ | .grant _ _ _ _ _ | .domain _ _ _ | .image _ _ | .restart _
  | .rdmaWrite _ _ _ _ _ | .rdmaRead _ _ _ _ _ | .roceInvalidRequest _ | .cnpReceive _ | .tolsalFrameReceive _
  | .tolsalResend _ | .destinationUnreachable _ | .portOpen _ _ | .sakRekey _ | .powerOnStart | .bootStageComplete _
  | .bootStageWatchdog | .imageFetchTimeout | .thermalThrottle _ _ _ | .thermalCritical | .clusterPowerGate _ _ _
  | .dieReset _ | .portClose _ | .dieLinkResend _ | .frRingWrite _ _ | .frStampWrite _ _ | .powerLoss
  | .firmwareRestartEnd | .throttleEpisodeEnd _ => false
  | _ => true

/-- The word of an instruction (R262–R266 and each entry's table); an event has none. -/
def encode : Instr → DWord
  | .br g t => encJ 0x00 0 t g 0
  | .brcAny g t => encJ 0x01 0 t g 0
  | .brcAll g t => encJ 0x01 1 t g 0
  | .brx g a => mkA 0x02 0 0 0 (encSrc a) 0 0 g 0
  | .call g t => encJ 0x03 0 t g 0
  | .callx g a => mkA 0x04 0 0 0 (encSrc a) 0 0 g 0
  | .ret g => encBare 0x05 g
  | .loop g k t => encJ 0x06 0 t g k
  | .join g k t => encJ 0x07 0 t g k
  | .yield g => encBare 0x08 g
  | .exit g => encBare 0x09 g
  | .nop g => encBare 0x0A g
  | .iadd o t sat => enc2 0x10 (0#3 ++ t.code) o (satMod sat)
  | .iadd3 o t sat => enc3 0x11 (0#3 ++ t.code) o (satMod sat)
  | .isub o t sat => enc2 0x12 (0#3 ++ t.code) o (satMod sat)
  | .imul o t sat => enc2 0x13 (0#3 ++ t.code) o (satMod sat)
  | .imulh o t => enc2 0x14 (0#3 ++ t.code) o 0
  | .imad o t sat => enc3 0x15 (0#3 ++ t.code) o (satMod sat)
  | .imadWide o t sat => enc3 0x15 (1#3 ++ t.code) o (satMod sat)
  | .imin o t => enc2 0x16 (0#3 ++ t.code) o 0
  | .imax o t => enc2 0x17 (0#3 ++ t.code) o 0
  | .iabs o t sat => enc1 0x18 (0#3 ++ t.code) o (satMod sat)
  | .lea o t sh m => enc2 0x19 (sh ++ t.code) o (0#4 ++ m.code)
  | .shl o t => enc2 0x1A (0#3 ++ t.code) o 0
  | .shr o t => enc2 0x1A (1#3 ++ t.code) o 0
  | .sar o t => enc2 0x1A (2#3 ++ t.code) o 0
  | .rol o t => enc2 0x1B (0#3 ++ t.code) o 0
  | .ror o t => enc2 0x1B (1#3 ++ t.code) o 0
  | .mov o => enc1 0x1C 0 o 0
  | .movN64 o => enc1 0x1C 3 o 0
  | .movSpecial g a fpsr => mkA 0x1C 1 0 (if fpsr then 0x16 else 0x15) (encSrc a) 0 0 g 0
  | .movDWord g a w => mkA 0x1C 2 0 (0#2 ++ w) (encSrc a) 0 0 g 0
  | .movi d g t imm => mkA 0x1D (0#3 ++ t.code) (encDk d) (encDst d) 0 (imm.extractLsb' 10 10) (imm.extractLsb' 0 10) g 0
  | .sel o t => enc3 0x1E (0#3 ++ t.code) o 0
  | .icmp o t c k => enc3 0x1F (c.code ++ t.code) o (0#4 ++ k.code)
  | .bfx o t => enc2 0x20 (0#3 ++ t.code) o 0
  | .bfi o t => enc3 0x21 (0#3 ++ t.code) o 0
  | .popc o t => enc1 0x22 (0#3 ++ t.code) o 0
  | .clz o t => enc1 0x23 (0#3 ++ t.code) o 0
  | .ctz o t => enc1 0x24 (0#3 ++ t.code) o 0
  | .brev o t => enc1 0x25 (0#3 ++ t.code) o 0
  | .lop o t op => enc2 0x26 (op.code ++ t.code) o 0
  | .iaddImm o t sat imm => encB 0x27 (0#3 ++ t.code) o imm (satMod sat)
  | .imulImm o t sat imm => encB 0x28 (0#3 ++ t.code) o imm (satMod sat)
  | .lopImm o t op imm => encB 0x29 (op.code ++ t.code) o imm 0
  | .shiftImm o t op imm => encB 0x2A (op.code ++ t.code) o imm 0
  | .icmpImm o t c imm => encB 0x2B (c.code ++ t.code) o imm 0
  | .iminmaxImm o t isMax imm => encB 0x2C ((if isMax then 1#3 else 0#3) ++ t.code) o imm 0
  | .plop o lut => enc3 0x30 (lut.extractLsb' 2 6) o (0#4 ++ lut.extractLsb' 0 2)
  | .pmovPack d g => mkA 0x31 0 (encDk d) (encDst d) 0 0 0 g 0
  | .pmovSet a m g => mkA 0x31 1 3 0 (encSrc a) (encSrc m) 0 g 0
  | .voteAll o => enc1 0x32 0 o 0
  | .voteAny o => enc1 0x32 1 o 0
  | .voteEq o => enc1 0x32 2 o 0
  | .voteBallot o => enc1 0x32 3 o 0
  | .voteCount o => enc1 0x32 4 o 0
  | .perm o => enc3 0x33 0 o 0
  | .shfl o t m seg => enc2 0x34 (m.code ++ t.code) o (0#3 ++ seg)
  | .bcastIdx o t => enc2 0x35 (0#3 ++ t.code) o 0
  | .bcastFirst o t => enc1 0x35 (1#3 ++ t.code) o 0
  | .cmpct o t => enc3 0x36 (0#3 ++ t.code) o 0
  | .fadd o rm sat na nb => enc2 0x40 0 o (rmMod rm sat nb na)
  | .fmul o rm sat na => enc2 0x41 0 o (rmMod rm sat false na)
  | .ffma o rm sat np nc => enc3 0x42 0 o (rmMod rm sat nc np)
  | .fmin o nan => enc2 0x43 0 o (0#5 ++ bit nan)
  | .fmax o nan => enc2 0x44 0 o (0#5 ++ bit nan)
  | .fcmp o c k => enc3 0x45 (c.code ++ 0#3) o (0#4 ++ k.code)
  | .fclass o => enc1 0x46 0 o 0
  | .fclassTest o => enc2 0x46 1 o 0
  | .frnd o rm => enc1 0x47 0 o (rm.code ++ 0#3)
  | .faddPacked o t rm sat na nb => enc2 0x50 (0#3 ++ t.code) o (rmMod rm sat nb na)
  | .fmulPacked o t rm sat na => enc2 0x51 (0#3 ++ t.code) o (rmMod rm sat false na)
  | .ffmaPacked o t rm sat np nc => enc3 0x52 (0#3 ++ t.code) o (rmMod rm sat nc np)
  | .fminPacked o t nan => enc2 0x53 (0#3 ++ t.code) o (0#5 ++ bit nan)
  | .fmaxPacked o t nan => enc2 0x54 (0#3 ++ t.code) o (0#5 ++ bit nan)
  | .fcmpPacked o t c => enc2 0x55 (c.code ++ t.code) o 0
  | .cvt o dt st rm sat => mkA 0x60 0 (encDk o.d) (encDst o.d) (encSrc o.a) 0 (dt.code ++ st.code) o.g (rmMod rm sat false false)
  | .cvtPacked o f rm sat => enc3 0x61 f.code o (rmMod rm sat false false)
  | .mxpack o f l strict rm => enc1 0x62 (l.code ++ f.code) o (rmMod rm false false strict)
  | .mxunpack o f l => enc1 0x63 (l.code ++ f.code) o 0
  | .dot4 o t rm sat => enc3 0x64 (0#3 ++ t.code) o (rmMod rm sat false false)
  | .rcp o => enc1 0x70 0 o 0
  | .rsq o => enc1 0x71 0 o 0
  | .sqrt o => enc1 0x72 0 o 0
  | .exp2 o => enc1 0x73 0 o 0
  | .log2 o => enc1 0x74 0 o 0
  | .sin o => enc1 0x75 0 o 0
  | .cos o => enc1 0x76 0 o 0
  | .tanh o => enc1 0x77 0 o 0
  | .sigm o => enc1 0x78 0 o 0
  | .red o op t seg => enc1 0x79 (op.code ++ t.code) o (0#3 ++ seg)
  | .scan o op t seg excl cin => enc2 0x7A (op.code ++ t.code) o (0#1 ++ bit cin ++ bit excl ++ seg)
  | .ldl m => encMem 0x80 m
  | .ldg m => encMem 0x81 m
  | .ldy m => encMem 0x82 m
  | .ldkv m => encMem 0x83 m
  | .ldt m => encMem 0x84 m
  | .stl m => encMem 0x90 m
  | .stg m => encMem 0x91 m
  | .sty m => encMem 0x92 m
  | .atomGlobal a => encAtom 0xA0 a
  | .atomLocal a => encAtom 0xA1 a
  | .atomYard a => encAtom 0xA2 a
  | .atomGlobalNoret a => encAtom 0xA3 a
  | .atomLocalNoret a => encAtom 0xA4 a
  | .atomYardNoret a => encAtom 0xA5 a
  | .fence g sc => encFence 0 g sc
  | .fenceEng g sc => encFence 1 g sc
  | .prefL1 b i off g scale => encPref 0 b i off g scale
  | .prefDc b i off g scale => encPref 1 b i off g scale
  | .cwb a => encRange 0xA8 a 0 0
  | .cinv a => encRange 0xA9 a 0 0
  | .iinv a sc => encRange 0xAA a sc.code 1
  | .fetchb g => FmtM.toWord ⟨0xAB, 0, 0, 0, 0, 0, g.pg, bit g.pn, 0, 0, 0⟩
  | .barArrive g k => mkA 0xB0 0 0 0 0 0 0 g (0#2 ++ k)
  | .barWait g k => mkA 0xB1 0 0 0 0 0 0 g (0#2 ++ k)
  | .barSync g k => mkA 0xB2 0 0 0 0 0 0 g (0#2 ++ k)
  | .crewJoin g => encBare 0xB3 g
  | .crewLeave d g => mkA 0xB4 0 (encDk d) (encDst d) 0 0 0 g 0
  | .crewQuery d g => mkA 0xB5 0 (encDk d) (encDst d) 0 0 0 g 0
  | .crewQueryGang d g => mkA 0xB5 1 (encDk d) (encDst d) 0 0 0 g 0
  | .qpush g a n => mkA 0xB6 0 0 0 (encSrc a) 0 0 g (0#2 ++ n)
  | .qpop d g n => mkA 0xB7 0 (encDk d) (encDst d) 0 0 0 g (0#2 ++ n)
  | .waitc g a p => mkA 0xB8 0 0 0 (encSrc a) 0 0 g (0#3 ++ p.code)
  | .monArm g a sp sc k => mkA 0xB9 sp.code 0 0 (encSrc a) 0 0 g (sc.code ++ 0#1 ++ k)
  | .waitStamp d g v c k => mkA 0xBA c.code (encDk d) (encDst d) (encSrc v) 0 0 g (0#4 ++ k)
  | .mma g ta tb ka kb acc oba obb c => encX 0xC0 (bit ka ++ ta.code) 0 0 acc oba obb (encSrc c) 0 g (bit kb ++ tb.code)
  | .accNew g acc => encX 0xC1 0 0 0 acc 0 0 0 0 g 0
  | .accZero g acc => encX 0xC2 0 0 0 acc 0 0 0 0 g 0
  | .accLd g acc da a => encX 0xC3 0 da 0 acc 0 0 (encSrc a) 0 g 0
  | .accSt g acc da a rm sat => encX 0xC4 0 da 0 acc 0 0 (encSrc a) 0 g (rmMod rm sat false false)
  | .accRd g acc p d => encX 0xC5 0 0 0 acc 0 0 (encSrc p) (encVS d) g 0
  | .tld g ob da a => encX 0xC6 0 da 0 0 ob 0 (encSrc a) 0 g 0
  | .shapeMake g da sn e strict => encX 0xD0 0 da 0 0 0 0 (encBlock sn) (encVS e) g (0#5 ++ bit strict)
  | .copy g ds dd sn => encX 0xD1 0 ds dd 0 0 0 (encBlock sn) 0 g 0
  | .copyCond g ds dd sn => encX 0xD3 0 ds dd 0 0 0 (encBlock sn) 0 g 0
  | .copyMc g ds a => encX 0xD4 0 ds 0 0 0 0 (encSrc a) 0 g 0
  | .copyArm g ds dd sn e slot => encX 0xD2 0 ds dd 0 0 0 (encBlock sn) (encVS e) g (0#2 ++ slot)
  | .copyDisarm g e slot => encX 0xD2 1 0 0 0 0 0 0 (encVS e) g (0#2 ++ slot)
  | .coll g k op t ds dd sn => encX 0xD5 (0#2 ++ op.code ++ k.code) ds dd 0 0 0 (encBlock sn) 0 g (0#1 ++ t.code)
  | .tokLoad d g f h k => mkA 0xD6 f.code (encDk d) (encDst d) (encSrc h) (encSrc k) 0 g 0
  | .tokHdr o => enc1 0xD7 0 o 0
  | .tokSend o => enc3 0xD8 0 o 0
  | .tokRetire o => enc1 0xD9 0 o 0
  | .tokSpawn o => enc3 0xDA 0 o 0
  | .benchEnter g sn => encX 0xE0 0 0 0 0 0 0 (encBlock sn) 0 g 0
  | .benchExit o => enc1 0xE1 0 o 0
  | .benchState o => enc1 0xE2 0 o 0
  | .steer o => enc13 0xE3 o
  | .merge o => enc3 0xE4 0 o 0
  | .gate o => enc13 0xE5 o
  | .fwd o => enc1 0xE6 0 o 0
  | .trap g code => encY 0xE7 0 none none code g
  | .tret g => encY 0xE8 0 none none 0 g
  | .svc g code => encY 0xE9 0 none none code g
  | .sysr d g r => encY 0xEA 0 (some d) none r.code g
  | .sysw g r a => encY 0xEB 0 none (some a) r.code g
  | .survey o => encY 0xEC 0 (some o.d) (some o.a) 0 o.g
  | .featTest o => encY 0xED 0 (some o.d) (some o.a) 0 o.g
  | .featCtx d g => encY 0xED 1 (some d) none 0 g
  | .halt g => encY 0xEE 0 none none 0 g
  | _ => 0

end Sys2Proof
end

