-- ==== Sys2Proof/Machine/Slots.lean ====
section
/-!
DEFINITION. Sys2Proof/Machine/Slots.lean: what an instruction names and which class it belongs to: its source fields in the order
in which pops are taken (R274), the registers it names (R57), control and effectful instructions (R201, R202), the features and
the privilege it needs (R277, R401).
-/
namespace Sys2Proof

namespace Instr

/-- The source fields an instruction reads, in field order, each with whether it is read at 64 bits (R269, R274). -/
def srcs : Instr → List (Src × Bool)
  | brx _ a | callx _ a => [(a, true)]
  | loop _ k _ | join _ k _ => [(.s k, true)]
  | iadd o t _ | isub o t _ | imul o t _ => [(o.a, t.wide), (o.b, t.wide)]
  | iadd3 o t _ | imad o t _ => [(o.a, t.wide), (o.b, t.wide), (o.c, t.wide)]
  | imadWide o _ _ => [(o.a, false), (o.b, false), (o.c, true)]
  | imulh o t | imin o t | imax o t => [(o.a, t.wide), (o.b, t.wide)]
  | iabs o t _ => [(o.a, t.wide)]
  | lea o t _ m => [(o.a, t.wide), (o.b, t.wide && m == .plain)]
  | shl o t | shr o t | sar o t | rol o t | ror o t => [(o.a, t.wide), (o.b, false)]
  | mov o => [(o.a, false)]
  | movN64 o => [(o.a, true)]
  | movSpecial _ a _ => [(a, true)]
  | movDWord _ a _ => [(a, true)]
  | sel o t => [(o.a, t.wide), (o.b, t.wide), (o.c, false)]
  | icmp o t _ k => [(o.a, t.wide), (o.b, t.wide)] ++ (if k == .none then [] else [(o.c, false)])
  | bfx o t => [(o.a, t.wide), (o.b, false)]
  | bfi o t => [(o.a, t.wide), (o.b, false), (o.c, t.wide)]
  | popc o t | clz o t | ctz o t | brev o t => [(o.a, t.wide)]
  | lop o t op => (o.a, t.wide) :: (if op == .not then [] else [(o.b, t.wide)])
  | iaddImm o t _ _ | imulImm o t _ _ | lopImm o t _ _ | shiftImm o t _ _ | icmpImm o t _ _ | iminmaxImm o t _ _ =>
    [(o.a, t.wide)]
  | plop o _ | perm o => [(o.a, false), (o.b, false), (o.c, false)]
  | pmovSet a m _ => [(a, false), (m, false)]
  | voteAll o | voteAny o | voteEq o | voteBallot o | voteCount o => [(o.a, false)]
  | shfl o t _ _ => [(o.a, t.wide), (o.b, false)]
  | bcastIdx o t => [(o.a, t.wide), (o.b, false)]
  | bcastFirst o t => [(o.a, t.wide)]
  | cmpct o t => [(o.a, t.wide), (o.b, false), (o.c, t.wide)]
  | fadd o _ _ _ _ | fmul o _ _ _ | fmin o _ | fmax o _ | fclassTest o => [(o.a, false), (o.b, false)]
  | ffma o _ _ _ _ => [(o.a, false), (o.b, false), (o.c, false)]
  | fcmp o _ k => [(o.a, false), (o.b, false)] ++ (if k == .none then [] else [(o.c, false)])
  | fclass o | frnd o _ => [(o.a, false)]
  | faddPacked o _ _ _ _ _ | fmulPacked o _ _ _ _ | fminPacked o _ _ | fmaxPacked o _ _ | fcmpPacked o _ _ =>
    [(o.a, false), (o.b, false)]
  | ffmaPacked o _ _ _ _ _ => [(o.a, false), (o.b, false), (o.c, false)]
  | cvt o _ st _ _ => [(o.a, st.wide)]
  | cvtPacked o f _ _ =>
    (o.a, false) :: ((if f.isPack then [(o.b, false)] else []) ++ (if f.usesC then [(o.c, false)] else []))
  | mxpack o _ _ _ _ | mxunpack o _ _ => [(o.a, false)]
  | dot4 o _ _ _ => [(o.a, false), (o.b, false), (o.c, false)]
  | rcp o | rsq o | sqrt o | exp2 o | log2 o | sin o | cos o | tanh o | sigm o => [(o.a, false)]
  | red o _ t _ => [(o.a, t.wide)]
  | scan o _ t _ _ cin => (o.a, t.wide) :: (if cin then [(o.b, t.wide)] else [])
  | ldl m | ldy m | ldkv m | ldt m | stl m | sty m => [(m.base, false), (m.index, false)]
  | ldg m | stg m => [(m.base, true), (m.index, false)]
  | atomGlobal a | atomGlobalNoret a => [(a.base, true), (a.x, a.ty.wide)]
  | atomLocal a | atomYard a | atomLocalNoret a | atomYardNoret a => [(a.base, false), (a.x, a.ty.wide)]
  | prefL1 b i _ _ _ | prefDc b i _ _ _ => [(b, true), (i, false)]
  | cwb a | cinv a | iinv a _ => [(a.base, true), (a.n, false)]
  | qpush _ a _ => [(a, true)]
  | waitc _ a _ => [(a, false)]
  | monArm _ a sp _ _ => [(a, sp == .global)]
  | waitStamp _ _ v _ _ => [(v, true)]
  | mma _ _ _ _ _ _ _ _ c => [(c, true)]
  | accLd _ _ _ a | accSt _ _ _ a _ _ | tld _ _ _ a => [(a, true)]
  | accRd _ _ p _ => [(p, false)]
  | copyMc _ _ a => [(a, true)]
  | tokLoad _ _ f h k => (h, false) :: (if f == .user then [(k, false)] else [])
  | tokHdr o | tokRetire o => [(o.a, false)]
  | tokSend o => [(o.a, false), (o.b, true), (o.c, false)]
  | tokSpawn o => [(o.a, true), (o.b, true), (o.c, false)]
  | benchExit o | benchState o => [(o.a, false)]
  | steer o | gate o => [(o.a, false), (o.b, false)]
  | merge o => [(o.a, false), (o.b, false), (o.c, false)]
  | fwd o => [(o.a, false)]
  | sysw _ _ a => [(a, true)]
  | survey o => [(o.a, true)]
  | featTest o => [(o.a, true)]
  | _ => []

/-- The destination of an instruction that writes a register, and how many V registers a V destination takes. Loads, stores and
atomics name their register group in DST (R347, R352). -/
def dst : Instr → Option (Dst × Nat)
  | iadd o t _ | isub o t _ | imul o t _ => some (o.d, if t.wide then 2 else 1)
  | iadd3 o t _ | imad o t _ => some (o.d, if t.wide then 2 else 1)
  | imadWide o _ _ => some (o.d, 2)
  | imulh o t | imin o t | imax o t | lea o t _ _ | shl o t | shr o t | sar o t | rol o t | ror o t | bfx o t
  | lop o t _ | shfl o t _ _ | bcastIdx o t => some (o.d, if t.wide then 2 else 1)
  | iabs o t _ | brev o t | iaddImm o t _ _ | imulImm o t _ _ | lopImm o t _ _ | shiftImm o t _ _ | iminmaxImm o t _ _
  | bcastFirst o t => some (o.d, if t.wide then 2 else 1)
  | mov o | popc o _ | clz o _ | ctz o _ | icmpImm o _ _ _ => some (o.d, 1)
  | movN64 o => some (o.d, 2)
  | movi d _ t _ => some (d, if t.wide then 2 else 1)
  | sel o t | bfi o t | cmpct o t => some (o.d, if t.wide then 2 else 1)
  | icmp o _ _ _ | plop o _ | perm o => some (o.d, 1)
  | pmovPack d _ => some (d, 1)
  | voteAll o | voteAny o | voteEq o | voteBallot o | voteCount o => some (o.d, 1)
  | fadd o _ _ _ _ | fmul o _ _ _ | fmin o _ | fmax o _ | fclassTest o => some (o.d, 1)
  | ffma o _ _ _ _ | fcmp o _ _ => some (o.d, 1)
  | fclass o | frnd o _ => some (o.d, 1)
  | faddPacked o _ _ _ _ _ | fmulPacked o _ _ _ _ | fminPacked o _ _ | fmaxPacked o _ _ | fcmpPacked o _ _ => some (o.d, 1)
  | ffmaPacked o _ _ _ _ _ => some (o.d, 1)
  | cvt o dt _ _ _ => some (o.d, if dt.wide then 2 else 1)
  | cvtPacked o f _ _ => some (o.d, if f.isPack then 1 else 2)
  | mxpack o _ _ _ _ | mxunpack o _ _ => some (o.d, 1)
  | dot4 o _ _ _ => some (o.d, 1)
  | rcp o | rsq o | sqrt o | exp2 o | log2 o | sin o | cos o | tanh o | sigm o => some (o.d, 1)
  | red o _ t _ => some (o.d, if t.wide then 2 else 1)
  | scan o _ t _ _ _ => some (o.d, if t.wide then 2 else 1)
  | ldl m | ldg m | ldy m | ldkv m | ldt m | stl m | stg m | sty m => some (.v m.r, m.w.group)
  | atomGlobal a | atomLocal a | atomYard a => some (.v a.r, if a.ty.wide then 2 else 1)
  | atomGlobalNoret a | atomLocalNoret a | atomYardNoret a =>
    if a.op == .cas then some (.v a.r, if a.ty.wide then 2 else 1) else none
  | crewLeave d _ => some (d, 1)
  | crewQuery d _ | crewQueryGang d _ => some (d, 1)
  | qpop d _ _ => some (d, 2)
  | waitStamp d _ _ _ _ => some (d, 2)
  | accRd _ _ _ d => some (d, 1)
  | shapeMake _ _ _ e _ => some (e, 1)
  | copyArm _ _ _ _ e _ | copyDisarm _ e _ => some (e, 1)
  | tokLoad d _ f _ _ => some (d, if f.wide then 2 else 1)
  | tokHdr o => some (o.d, 2)
  | tokSend o => some (o.d, 1)
  | tokRetire o => some (o.d, 1)
  | tokSpawn o => some (o.d, 2)
  | benchExit o | benchState o => some (o.d, 1)
  | sysr d _ _ => some (d, 2)
  | survey o => some (o.d, 2)
  | featTest o => some (o.d, 1)
  | featCtx d _ => some (d, 1)
  | steer o | gate o => some (o.d, 1)
  | merge o => some (o.d, 1)
  | fwd o => some (o.d, 1)
  | _ => none

/-- One past the highest V register an instruction names (R57). -/
def topV (i : Instr) : Nat :=
  let s := i.srcs.foldl (fun m p =>
    match p.1 with
    | .v n => max m (n.toNat + (if p.2 then 2 else 1))
    | _ => m) 0
  match i.dst with
  | some (.v n, k) => max s (n.toNat + k)
  | _ => s

/-- Control instructions (R202, R279). -/
def control : Instr → Bool
  | br _ _ | brcAny _ _ | brcAll _ _ | brx _ _ | call _ _ | callx _ _ | ret _ | loop _ _ _ | join _ _ _ | yield _ | exit _
  | trap _ _ | tret _ | svc _ _ | halt _ => true
  | _ => false

/-- The target field of a control instruction that names its address itself (R292): signed, in words from its sett. -/
def target : Instr → Option (BitVec 38)
  | br _ t | brcAny _ t | brcAll _ t | call _ t | loop _ _ t | join _ _ t => some t
  | _ => none

/-- Effectful instructions (R201, R279). -/
def effectful : Instr → Bool
  | exit _ | trap _ _ | svc _ _ | halt _ => true
  | ldl m | ldg m | ldy m | ldkv m | ldt m | stl m | stg m | sty m => m.ord
  | atomGlobal _ | atomLocal _ | atomYard _ | atomGlobalNoret _ | atomLocalNoret _ | atomYardNoret _ => true
  | fence _ _ | fenceEng _ _ | cwb _ | cinv _ | iinv _ _ | fetchb _ => true
  | barArrive _ _ | barWait _ _ | barSync _ _ | crewJoin _ | crewLeave _ _ | qpush _ _ _ | qpop _ _ _ | waitc _ _ _
  | monArm _ _ _ _ _ | waitStamp _ _ _ _ _ => true
  | mma _ _ _ _ _ _ _ _ _ | accNew _ _ | accZero _ _ | accLd _ _ _ _ | accSt _ _ _ _ _ _ | tld _ _ _ _ => true
  | copy _ _ _ _ | copyCond _ _ _ _ | copyMc _ _ _ | copyArm _ _ _ _ _ _ | copyDisarm _ _ _ | coll _ _ _ _ _ _ _ => true
  | tokSend _ | tokRetire _ | tokSpawn _ => true
  | benchEnter _ _ | benchExit _ => true
  | sysw _ _ _ | survey _ => true
  | _ => false

/-- Bench actions, which trap ILLEGAL_OP in a sett (R280, R400). -/
def benchAction : Instr → Bool
  | steer _ | merge _ | gate _ | fwd _ => true
  | _ => false

/-- The rounding mode an instruction carries (R273). -/
def rounding : Instr → Option Rnd
  | fadd _ rm _ _ _ | fmul _ rm _ _ | ffma _ rm _ _ _ | frnd _ rm => some rm
  | faddPacked _ _ rm _ _ _ | fmulPacked _ _ rm _ _ | ffmaPacked _ _ rm _ _ _ => some rm
  | cvt _ _ _ rm _ | cvtPacked _ _ rm _ | mxpack _ _ _ _ rm | dot4 _ _ rm _ | accSt _ _ _ _ rm _ => some rm
  | _ => none

/-- The feature bits an instruction needs (R277). -/
def features (i : Instr) : DWord :=
  let base : DWord :=
    match i with
    | crewJoin _ | crewLeave _ _ | crewQuery _ _ | crewQueryGang _ _ => 0x20
    | tokLoad _ _ _ _ _ | tokHdr _ | tokSend _ | tokRetire _ | tokSpawn _ => 0x10
    | benchEnter _ _ | benchExit _ | benchState _ => 0x08
    | mxpack _ _ _ _ _ | mxunpack _ _ _ => 0x04
    | mma _ ta tb _ _ _ _ _ _ => if ta.isMx || tb.isMx then 0x06 else 0x02
    | accNew _ _ | accZero _ _ | accLd _ _ _ _ | accSt _ _ _ _ _ _ | accRd _ _ _ _ | tld _ _ _ _ => 0x02
    | _ => 0x01
  if i.rounding == some .sr then base ||| 0x80 else base

/-- Does the instruction need privilege level 1 (R401, R403)? -/
def privileged : Instr → Bool
  | tret _ | halt _ => true
  | sysr _ _ r | sysw _ r _ => r.privileged
  | _ => false

/-- The barrier a barrier instruction names (R362). -/
def barrier : Instr → Option (BitVec 4)
  | barArrive _ k | barWait _ k | barSync _ k => some k
  | _ => none

/-- What a sett with CREW.LEAVE may not hold in any slot (R364): stores, atomics without return, PREF, CWB, CINV, engine issues,
TOK.SEND and TOK.SPAWN. -/
def notWithLeave : Instr → Bool
  | stl _ | stg _ | sty _ | atomGlobalNoret _ | atomLocalNoret _ | atomYardNoret _ | prefL1 _ _ _ _ _ | prefDc _ _ _ _ _
  | cwb _ | cinv _ => true
  | mma _ _ _ _ _ _ _ _ _ | accNew _ _ | accZero _ _ | accLd _ _ _ _ | accSt _ _ _ _ _ _ | tld _ _ _ _ => true
  | copy _ _ _ _ | copyCond _ _ _ _ | copyMc _ _ _ | coll _ _ _ _ _ _ _ => true
  | tokSend _ | tokSpawn _ => true
  | _ => false

/-- CREW.LEAVE? -/
def isLeave : Instr → Bool
  | crewLeave _ _ => true
  | _ => false

/-- The guard of a slot instruction; an event has none and reads as unguarded. -/
def guard : Instr → Guard
  | br g _ => g
  | brcAny g _ => g
  | brcAll g _ => g
  | brx g _ => g
  | call g _ => g
  | callx g _ => g
  | ret g => g
  | loop g _ _ => g
  | join g _ _ => g
  | yield g => g
  | exit g => g
  | nop g => g
  | iadd o _ _ => o.g
  | iadd3 o _ _ => o.g
  | isub o _ _ => o.g
  | imul o _ _ => o.g
  | imulh o _ => o.g
  | imad o _ _ => o.g
  | imadWide o _ _ => o.g
  | imin o _ => o.g
  | imax o _ => o.g
  | iabs o _ _ => o.g
  | lea o _ _ _ => o.g
  | shl o _ => o.g
  | shr o _ => o.g
  | sar o _ => o.g
  | rol o _ => o.g
  | ror o _ => o.g
  | mov o => o.g
  | movN64 o => o.g
  | movSpecial g _ _ => g
  | movDWord g _ _ => g
  | movi _ g _ _ => g
  | sel o _ => o.g
  | icmp o _ _ _ => o.g
  | bfx o _ => o.g
  | bfi o _ => o.g
  | popc o _ => o.g
  | clz o _ => o.g
  | ctz o _ => o.g
  | brev o _ => o.g
  | lop o _ _ => o.g
  | iaddImm o _ _ _ => o.g
  | imulImm o _ _ _ => o.g
  | lopImm o _ _ _ => o.g
  | shiftImm o _ _ _ => o.g
  | icmpImm o _ _ _ => o.g
  | iminmaxImm o _ _ _ => o.g
  | plop o _ => o.g
  | pmovPack _ g => g
  | pmovSet _ _ g => g
  | voteAll o => o.g
  | voteAny o => o.g
  | voteEq o => o.g
  | voteBallot o => o.g
  | voteCount o => o.g
  | perm o => o.g
  | shfl o _ _ _ => o.g
  | bcastIdx o _ => o.g
  | bcastFirst o _ => o.g
  | cmpct o _ => o.g
  | fadd o _ _ _ _ => o.g
  | fmul o _ _ _ => o.g
  | ffma o _ _ _ _ => o.g
  | fmin o _ => o.g
  | fmax o _ => o.g
  | fcmp o _ _ => o.g
  | fclass o => o.g
  | fclassTest o => o.g
  | frnd o _ => o.g
  | faddPacked o _ _ _ _ _ => o.g
  | fmulPacked o _ _ _ _ => o.g
  | ffmaPacked o _ _ _ _ _ => o.g
  | fminPacked o _ _ => o.g
  | fmaxPacked o _ _ => o.g
  | fcmpPacked o _ _ => o.g
  | cvt o _ _ _ _ => o.g
  | cvtPacked o _ _ _ => o.g
  | mxpack o _ _ _ _ => o.g
  | mxunpack o _ _ => o.g
  | dot4 o _ _ _ => o.g
  | rcp o => o.g
  | rsq o => o.g
  | sqrt o => o.g
  | exp2 o => o.g
  | log2 o => o.g
  | sin o => o.g
  | cos o => o.g
  | tanh o => o.g
  | sigm o => o.g
  | red o _ _ _ => o.g
  | scan o _ _ _ _ _ => o.g
  | ldl o => o.g
  | ldg o => o.g
  | ldy o => o.g
  | ldkv o => o.g
  | ldt o => o.g
  | stl o => o.g
  | stg o => o.g
  | sty o => o.g
  | atomGlobal o => o.g
  | atomLocal o => o.g
  | atomYard o => o.g
  | atomGlobalNoret o => o.g
  | atomLocalNoret o => o.g
  | atomYardNoret o => o.g
  | fence g _ => g
  | fenceEng g _ => g
  | prefL1 _ _ _ g _ => g
  | prefDc _ _ _ g _ => g
  | cwb o => o.g
  | cinv o => o.g
  | iinv o _ => o.g
  | fetchb g => g
  | barArrive g _ => g
  | barWait g _ => g
  | barSync g _ => g
  | crewJoin g => g
  | crewLeave _ g => g
  | crewQuery _ g => g
  | crewQueryGang _ g => g
  | qpush g _ _ => g
  | qpop _ g _ => g
  | waitc g _ _ => g
  | monArm g _ _ _ _ => g
  | waitStamp _ g _ _ _ => g
  | mma g _ _ _ _ _ _ _ _ => g
  | accNew g _ => g
  | accZero g _ => g
  | accLd g _ _ _ => g
  | accSt g _ _ _ _ _ => g
  | accRd g _ _ _ => g
  | tld g _ _ _ => g
  | shapeMake g _ _ _ _ => g
  | copy g _ _ _ => g
  | copyCond g _ _ _ => g
  | copyMc g _ _ => g
  | copyArm g _ _ _ _ _ => g
  | copyDisarm g _ _ => g
  | coll g _ _ _ _ _ _ => g
  | tokLoad _ g _ _ _ => g
  | tokHdr o => o.g
  | tokSend o => o.g
  | tokRetire o => o.g
  | tokSpawn o => o.g
  | benchEnter g _ => g
  | benchExit o => o.g
  | benchState o => o.g
  | steer o => o.g
  | merge o => o.g
  | gate o => o.g
  | fwd o => o.g
  | trap g _ => g
  | tret g => g
  | svc g _ => g
  | sysr _ g _ => g
  | sysw g _ _ => g
  | survey o => o.g
  | featTest o => o.g
  | featCtx _ g => g
  | halt g => g
  | _ => ⟨7, false⟩

end Instr

end Sys2Proof
end

