-- ==== Sys2Proof/Machine/Store.lean ====
section
/-!
DEFINITION. Sys2Proof/Machine/Store.lean: the containers State is made of. `Tbl` is a total map from Nat kept as a list in
rising key order: a key that is not listed holds the type's default. `Memory` is the device's byte memory in one canonical
form: addresses strictly rising, no entry equal to what an unlisted address reads as (zero).
-/
namespace Sys2Proof.Machine

/-- A sparse total map from Nat, as plain data. -/
structure Tbl (α : Type) where
  cells : List (Nat × α)
  deriving DecidableEq, Repr, Inhabited

namespace Cells

/-- First entry with key `k`. -/
def find {α : Type} : List (Nat × α) → Nat → Option α
  | [], _ => none
  | (j, v) :: r, k => if j = k then some v else find r k

/-- Insert or replace, in rising key order. -/
def insert {α : Type} : List (Nat × α) → Nat → α → List (Nat × α)
  | [], k, v => [(k, v)]
  | (j, w) :: r, k, v =>
    if k < j then (k, v) :: (j, w) :: r
    else if k = j then (k, v) :: r
    else (j, w) :: insert r k v

/-- Remove every entry with key `k`. -/
def erase {α : Type} : List (Nat × α) → Nat → List (Nat × α)
  | [], _ => []
  | (j, w) :: r, k => if j = k then erase r k else (j, w) :: erase r k

/-- Keys strictly rising. -/
def rising {α : Type} : List (Nat × α) → Bool
  | [] => true
  | [_] => true
  | (i, _) :: (j, w) :: r => decide (i < j) && rising ((j, w) :: r)

end Cells

namespace Tbl

/-- The empty table: every key holds the default. -/
def empty {α : Type} : Tbl α := ⟨[]⟩

/-- Value at a key. -/
def get {α : Type} [Inhabited α] (t : Tbl α) (k : Nat) : α :=
  (Cells.find t.cells k).getD default

/-- Store a value at a key. -/
def put {α : Type} (t : Tbl α) (k : Nat) (v : α) : Tbl α := ⟨Cells.insert t.cells k v⟩

/-- Store a value at a key, listing no default: used for registers. -/
def putc {α : Type} [Inhabited α] [DecidableEq α] (t : Tbl α) (k : Nat) (v : α) : Tbl α :=
  if v = default then ⟨Cells.erase t.cells k⟩ else ⟨Cells.insert t.cells k v⟩

/-- Change the value at a key. -/
def upd {α : Type} [Inhabited α] (t : Tbl α) (k : Nat) (f : α → α) : Tbl α := t.put k (f (t.get k))

/-- Keys listed. -/
def keys {α : Type} (t : Tbl α) : List Nat := t.cells.map (·.1)

/-- Values listed. -/
def vals {α : Type} (t : Tbl α) : List α := t.cells.map (·.2)

/-- Apply `f` to every listed value. -/
def mapVals {α : Type} (t : Tbl α) (f : α → α) : Tbl α := ⟨t.cells.map (fun c => (c.1, f c.2))⟩

/-- Drop a key. -/
def drop {α : Type} (t : Tbl α) (k : Nat) : Tbl α := ⟨Cells.erase t.cells k⟩

end Tbl

/-! ## Ranges that hold no value yet (R63) -/

/-- Ranges [first, last + 1) with a number each. -/
abbrev Segs := List (Nat × Nat × Nat)

namespace Segs

/-- The number of the range that holds an address. -/
def at? : Segs → Nat → Option Nat
  | [], _ => none
  | (b, e, k) :: r, a => if b ≤ a ∧ a < e then some k else at? r a

/-- A range, or nothing where it is empty. -/
def piece (b e k : Nat) : Segs := if b < e then [(b, e, k)] else []

/-- The ranges without `n` addresses from `a` upward. -/
def cut : Segs → Nat → Nat → Segs
  | [], _, _ => []
  | (b, e, k) :: r, a, n => piece b (min e a) k ++ (piece (max b (a + n)) e k ++ cut r a n)

/-- A range put in its place. -/
def add : Segs → Nat → Nat → Nat → Segs
  | [], b, e, k => [(b, e, k)]
  | x :: r, b, e, k => if e ≤ x.1 then (b, e, k) :: x :: r else x :: add r b e k

/-- Ranges that are not empty, rise and do not overlap. -/
def wf : Segs → Bool
  | [] => true
  | (b, e, _) :: r => decide (b < e) && r.all (fun x => decide (e ≤ x.1)) && wf r

end Segs

/-- The device's byte memory by device-local address (R19): HBM, the yard aperture and the local aperture. `fresh`: ranges whose
bytes are free values, each with a number: local memory newly given to a gang (R63), HBM under keys that have changed (R473) or after a start. -/
structure Memory where
  cells : List Host.Cell
  fresh : Segs
  deriving DecidableEq, Repr, Inhabited

namespace Memory

/-- What an address outside fresh ranges that nothing has written reads as (DESIGN CHOICE, log 1). -/
def unwritten : Byte := 0

/-- Memory with nothing listed. -/
def empty : Memory := ⟨[], []⟩

/-- What an unlisted address reads as: a free byte in a range whose contents are undefined (R63, log 3). -/
def unlisted (m : Memory) (a : Nat) : Byte :=
  match m.fresh.at? a with
  | some k => Config.freshByte k a
  | none => unwritten

/-- The byte at an address. -/
def read (m : Memory) (a : Nat) : Byte :=
  match Cells.find m.cells a with
  | some b => b
  | none => m.unlisted a

/-- Write one byte, keeping the canonical form. -/
def write (m : Memory) (a : Nat) (b : Byte) : Memory :=
  ⟨if b = unwritten then Cells.erase m.cells a else Cells.insert m.cells a b, m.fresh.cut a 1⟩

/-- `n` bytes from an address upward become zero. -/
def zero (m : Memory) (a n : Nat) : Memory :=
  ⟨m.cells.filter fun e => !(decide (a ≤ e.1) && decide (e.1 < a + n)), m.fresh.cut a n⟩

/-- The contents of `n` bytes from an address upward are undefined from here on, until they are written (R63). -/
def freshen (m : Memory) (a n k : Nat) : Memory :=
  if n = 0 then m else ⟨(m.zero a n).cells, (m.zero a n).fresh.add a (a + n) k⟩

/-- Write bytes at consecutive addresses. -/
def writeList (m : Memory) (a : Nat) : List Byte → Memory
  | [] => m
  | b :: bs => (m.write a b).writeList (a + 1) bs

/-- `n` bytes from an address upward. -/
def readList (m : Memory) (a : Nat) : Nat → List Byte
  | 0 => []
  | n + 1 => m.read a :: m.readList (a + 1) n

/-- The canonical form: addresses rise, no entry equals what an unlisted address reads as, and no entry lies in a fresh range. -/
def wf (m : Memory) : Bool :=
  Cells.rising m.cells && m.cells.all (fun c => decide (c.2 ≠ unwritten) && (m.fresh.at? c.1).isNone) && m.fresh.wf

end Memory

/-- Little-endian value of a byte list (R9). -/
def leNat : List Byte → Nat
  | [] => 0
  | b :: bs => b.toNat + 256 * leNat bs

/-- The low `n` bytes of a value, little-endian (R9). -/
def leBytes : Nat → Nat → List Byte
  | 0, _ => []
  | n + 1, v => BitVec.ofNat 8 v :: leBytes n (v / 256)

end Sys2Proof.Machine
end

