-- ==== Sys2Proof/Machine/State.lean ====
section
/-!
DEFINITION. Sys2Proof/Machine/State.lean: the state of one G7 device, whole: crews with their setts, gangs, cores, yards,
dies, the hub die's front end, the links, the security block and start-up. Everything is plain data. A table that lists
nothing at a key holds that type's default there: all numbers zero, all flags false, all lists empty.
-/
namespace Sys2Proof.Machine

/-! ## Crews -/

/-- An address space of R15 that a program's access reaches. -/
inductive Space where
  | global | localMem | yard | kv | token
  deriving DecidableEq, Repr, Inhabited

/-- A translated location: the space, the address in the space's own form, and where it lies: device and device-local
address (R18, R19), with the leaf's MTYPE (R23). -/
structure Loc where
  space : Space
  addr : Nat
  dev : Nat
  pa : Nat
  mtype : Nat
  deriving DecidableEq, Repr, Inhabited

/-- Where a crew stands in its sett (R200): between setts; executing slots; its commit's effectful slots; its control slot. -/
inductive Phase where
  | idle | exec | effects | control
  deriving DecidableEq, Repr, Inhabited

/-- An exception raised in a sett (R200, R348, R435). -/
structure Exc where
  cause : BitVec 8
  addr : DWord
  slot : Nat
  lane : Nat
  flags : BitVec 5
  deriving DecidableEq, Repr, Inhabited

/-- A register write that becomes architectural at commit (R200). -/
inductive Wr where
  | v (reg lane : Nat) (x : Word)
  | s (n : Nat) (x : DWord)
  | p (n lane : Nat) (b : Bool)
  | d (idx : Nat) (x : DWord)
  | fpsr (x : DWord)
  | seed (x : DWord)
  deriving DecidableEq, Repr

/-- A plain store of the sett, held until commit (R140, R343). -/
structure StoreRec where
  slot : Nat
  lane : Nat
  loc : Loc
  bytes : List Byte
  deriving DecidableEq, Repr, Inhabited

/-- What an instruction that acts at commit read at sett start (R200): one entry for a lane, or one for the crew. -/
structure Cap where
  slot : Nat
  lane : Nat
  loc : Loc
  args : List DWord
  deriving DecidableEq, Repr, Inhabited

/-- An SFU operation in flight (R338): crew, sett epoch, slot, and the result per lane with the flags it raises. -/
structure SfuOp where
  crew : Nat
  epoch : Nat
  slot : Nat
  vals : List (Nat × Word)
  flags : BitVec 5
  deriving DecidableEq, Repr, Inhabited

/-- Engines with an operation queue (R165). -/
inductive EngUnit where
  | copy | matrix | coll | send
  deriving DecidableEq, Repr, Inhabited

/-- Before-commit conditions (R344, R165, R174, R37, R199). -/
inductive WaitKind where
  | fence (eng wide : Bool)
  | barArrive (k : Nat)
  | barWait (k : Nat)
  | waitc (p : Path6) (n : Nat)
  | stamp (m : Nat) (cmp : StampCmp) (v : Nat) (loc : Loc)
  | leave
  | iinv
  | engine (u : EngUnit)
  | cap (p : Path6)
  | xlatBusy
  | exit
  deriving DecidableEq, Repr

/-- A before-commit condition of a slot. -/
structure WaitRec where
  slot : Nat
  kind : WaitKind
  deriving DecidableEq, Repr

/-- After-commit holds (R344, R398, R361). `sent`: the store operations that a wide fence sent on their way (R155). `iinv`: the caches and
lines that an IINV drops once the CWBs before it are complete (R357). -/
inductive Hold where
  | ops (p : Path6) (upto : Nat)
  | sent (tags : List (Nat × Nat))
  | bar (k : Nat) (phase : Nat) (held : Bool)
  | iinv (cores keys cwbs : List Nat)
  | bench (b : Nat)
  | fired
  deriving DecidableEq, Repr

/-- What a control slot decided while its sett executed (R293, R296): applied at commit. -/
structure CtlCap where
  take : Word
  dests : List (Nat × Nat)
  aux : DWord
  deriving DecidableEq, Repr, Inhabited

/-- The sett a crew runs (R200, R256): its header and slot words, the slot that executes, transients, register writes and stores
to come, reserved pops by slot and source position with their queue places, reserved and made pushes, slots whose pop names a
bound queue, flags and generators, the exception, what its effectful and control slots captured, and what has returned to it
from other devices (with the poisoned words of it), the slots whose SFU result has still to come, the SFU operations that wait for room, and
the lane and entry of a KV miss that is parked. `marks`: how many register writes stood before slot n's, where a slot's writes come late. -/
structure Sett where
  phase : Phase
  pc : Nat
  nslots : Nat
  lit : Word
  words : List DWord
  slot : Nat
  trans : Tbl DWord
  wr : List Wr
  marks : Tbl Nat
  stores : List StoreRec
  pops : Tbl DWord
  popList : List (Nat × Nat × Nat × DWord)
  pushRes : List (Nat × Nat)
  pushed : List (Nat × DWord)
  popBad : List Nat
  flags : BitVec 5
  flagSlot : Option Nat
  gens : Tbl Word
  exc : Option Exc
  waits : List WaitRec
  caps : List Cap
  ctl : CtlCap
  holds : List Hold
  stValue : Tbl DWord
  remote : List (Nat × Nat × List Byte)
  remoteBad : List (Nat × Nat × List Nat)
  sfuPend : List Nat
  sfuWait : List SfuOp
  kvParked : Option (Nat × Nat)
  deriving DecidableEq, Repr, Inhabited

/-- A path of a crew (R203): PC, lane mask, JOIN mask while join-waiting, setts since its last reconvergence. -/
structure Path where
  pc : Nat
  mask : Word
  join : Option Word
  run : Nat
  deriving DecidableEq, Repr, Inhabited

/-- A call group (R300): return address, members, lanes that pushed it and have not returned, pending list, return set. -/
structure CallGroup where
  id : Nat
  ra : Nat
  members : Word
  inside : Word
  pending : List (Nat × Word)
  ret : Word
  deriving DecidableEq, Repr, Inhabited

/-- A monitor (R171). -/
structure Monitor where
  armed : Bool
  space : Nat
  addr : DWord
  scope : Nat
  deriving DecidableEq, Repr, Inhabited

/-- An in-flight counter (R174, R175): operations issued; the largest k with 1 to k complete; later ones complete. -/
structure PathCtr where
  issued : Nat
  done : Nat
  late : List Nat
  deriving DecidableEq, Repr, Inhabited

/-- A crew's part of one barrier (R145). -/
structure CrewBar where
  first : Nat
  arrivedIn : Option Nat
  holds : Bool
  deriving DecidableEq, Repr, Inhabited

/-- Where a crew context is. -/
inductive CrewPlace where
  | free | resident | halted | saved
  deriving DecidableEq, Repr, Inhabited

/-- A code line held by the crew's fetch buffer (R82): device × 2⁴¹ + line, its words, its poisoned 4-byte words of 32 (R91). -/
structure FetchLine where
  line : Nat
  words : List DWord
  bad : List Nat
  deriving DecidableEq, Repr, Inhabited

/-- A sett that the fetch buffer holds (R82, R359): its header's place (device × 2⁴⁸ + address), its slots, the lines it stands in. -/
structure FetchSett where
  key : Nat
  slots : Nat
  lines : List FetchLine
  deriving DecidableEq, Repr, Inhabited

/-- A crew context (R447), with its sett in progress. `cwbs`: ST operations that are CWBs not complete when the last one issued. -/
structure Crew where
  place : CrewPlace
  part : Nat
  gang : Nat
  idx : Nat
  core : Nat
  quarter : Nat
  rowBase : Nat
  budget : Nat
  prio : Bool
  level : Bool
  age : Nat
  v : Tbl Word
  s : Tbl DWord
  p : Tbl Word
  d : Tbl DWord
  t : Tbl Word
  fpsr : DWord
  seed : DWord
  gens : Tbl Word
  mons : Tbl Monitor
  ctr : Tbl PathCtr
  paths : List Path
  groups : List CallGroup
  nextGroup : Nat
  exited : Word
  bars : Tbl CrewBar
  member : Bool
  trPc : DWord
  trCause : DWord
  trAddr : DWord
  trS0 : DWord
  trS1 : DWord
  inTrap : Bool
  holds : List Hold
  savedHolds : List Hold
  privRoot : DWord
  privHwm : DWord
  privLimit : DWord
  featCtx : DWord
  submitSt : DWord
  epoch : Nat
  stall : BitVec 4
  fetch : List FetchSett
  cwbs : List Nat
  pendTrap : Option (BitVec 8 × DWord)
  preempt : Bool
  poisonV : List Nat
  poisonS : List Nat
  poisonP : List Nat
  poisonD : List Nat
  sett : Sett
  deriving DecidableEq, Repr, Inhabited

/-! ## Gangs, launches -/

/-- A gang barrier (R145). -/
structure Barrier where
  phase : Nat
  members : Int
  delta : Int
  arrived : Nat
  held : Nat
  deriving DecidableEq, Repr, Inhabited

/-- A moded region's or local operand buffer's state (R67, R72): fill and read index (a FIFO's tail and head), the buffers that are full,
the swizzle span recorded with each buffer (R379), who filled it, a line buffer's lines written and oldest unreleased line, and the
fillers and consumers that wait, in arrival order (R68). -/
structure Ring where
  fill : Nat
  read : Nat
  full : List Nat
  spans : Tbl Nat
  owners : Tbl Nat
  lines : Nat
  oldest : Nat
  fillers : List Nat
  consumers : List Nat
  deriving DecidableEq, Repr, Inhabited

/-- One row of a batt (R213): record handle, attention header word, released or not; and what the gang's token views take of the record, fixed
for the gang's life (R215). -/
structure Row where
  handle : Word
  hdr : DWord
  released : Bool
  kvh : Word
  hidden : DWord
  seqid : DWord
  deriving DecidableEq, Repr, Inhabited

/-- A physical accumulator tile (R375, R377). -/
structure Tile where
  gang : Option Nat
  draining : Bool
  words : Tbl Word
  poison : List Nat
  deriving DecidableEq, Repr, Inhabited

/-- A gang (R194, R198). -/
structure Gang where
  live : Bool
  part : Nat
  launch : Option Nat
  opSel : Option (Nat × Nat)
  tableGen : Nat
  lrec : BitVec 4096
  index : Nat
  core : Nat
  baseQ : Nat
  localBase : Nat
  crews : Tbl Nat
  reserve : List Nat
  winding : Bool
  level : Bool
  bars : Tbl Barrier
  obs : Tbl Ring
  acc : Tbl (Option Nat)
  rows : List Row
  dispatched : Bool
  featReq : DWord
  saved : Bool
  savedTiles : Tbl Tile
  deriving DecidableEq, Repr, Inhabited

/-- A launch (R424): its command, gangs not yet ended, and the cluster that each level-3 instance has been placed in (R194). -/
structure Launch where
  live : Bool
  cmd : Nat
  part : Nat
  lrec : BitVec 4096
  level : Bool
  gangsLeft : Nat
  homes : Tbl (Option Nat)
  deriving DecidableEq, Repr, Inhabited

/-! ## Cores and yards -/

/-- A combining-buffer line (R79): its home address, the MTYPE of its page, the bytes written, the store operations in it. -/
structure CbLine where
  dev : Nat
  line : Nat
  mtype : Nat
  bytes : List (Nat × Byte)
  tags : List (Nat × Nat)
  age : Nat
  deriving DecidableEq, Repr, Inhabited

/-- A cache line kept as read (R79, R82), with its poisoned 4-byte words of 32 (R91). -/
structure Line where
  dev : Nat
  line : Nat
  bytes : List Byte
  bad : List Nat
  deriving DecidableEq, Repr, Inhabited

/-- A die cache line (R86): its home line, whether it has been written, whether it is a streaming line. -/
structure DcLine where
  line : Nat
  dirty : Bool
  stream : Bool
  deriving DecidableEq, Repr, Inhabited

/-- A copy template slot (R181). -/
structure Template where
  armed : Bool
  gang : Nat
  crew : Nat
  level : Bool
  src : Rec256
  dst : Rec256
  sstep : DWord
  dstep : DWord
  target : DWord
  base : Nat
  fired : Nat
  stamped : Nat
  queue : Nat
  deriving DecidableEq, Repr, Inhabited

/-- A channel queue (R366): entries with the order in which they entered, and the reservations of R200. -/
structure Queue where
  entries : List (Nat × DWord)
  next : Nat
  popRes : Nat
  pushRes : Nat
  deriving DecidableEq, Repr, Inhabited

/-- A core. -/
structure Core where
  queues : Tbl Queue
  tiles : Tbl Tile
  templates : Tbl Template
  l1 : List Line
  cb : List CbLine
  icache : List Line
  sfu : Tbl (List SfuOp)
  cyc : DWord
  issue : Tbl Nat
  streak : Tbl Nat
  pressed : Option Nat
  deriving DecidableEq, Repr, Inhabited

/-- A yard (R64-R67). -/
structure Yard where
  configured : Bool
  modes : List DWord
  grants : List (Bool × Nat)
  regions : Tbl Ring
  deriving DecidableEq, Repr, Inhabited

/-! ## Engines -/

/-- Engine operations (R165). -/
inductive OpKind where
  | copy | cond | mc | fired | coll | mma | tld | accNew | accZero | accLd | accSt | tokSend | pref
  deriving DecidableEq, Repr, Inhabited

/-- Stages of an engine operation (R166). `blocked`: waiting on a ring or a reservation; `parked`: a request of it is parked. -/
inductive OpStage where
  | issued | accepted | started | blocked | parked | performed | done
  deriving DecidableEq, Repr, Inhabited

/-- A multicast branch (R184, R185). `ready`: its record has been read; `ended`: it delivers no more tiles. -/
structure Branch where
  yd : Bool
  shape : Rec256
  tab : List Byte
  origin : DWord
  dstep : DWord
  slack : Nat
  window : Nat
  stamp : DWord
  delivered : Nat
  status : Nat
  parked : Bool
  stamped : Bool
  ended : Bool
  ready : Bool
  staged : List (List Byte)
  stagedBad : List (List Nat)
  deriving DecidableEq, Repr, Inhabited

/-- An engine operation (R166). `accepted`: its acceptance checks have passed; `got`: lines that other devices
have answered; `lost`: pages whose requests were cancelled (R35); `launch`: the launch of a template's gang (R424); `left`: the elements of a
copy, and behind them the scales of its blocks, that have not performed; `held`: the pages whose requests of it are parked (R178). -/
structure EngineOp where
  live : Bool
  kind : OpKind
  stage : OpStage
  crew : Nat
  gang : Nat
  core : Nat
  part : Nat
  level : Bool
  path : Option Path6
  seq : Nat
  recS : Rec256
  recD : Rec256
  tabS : List Byte
  tabD : List Byte
  orgS : DWord
  orgD : DWord
  stamp : DWord
  value : DWord
  ver : DWord
  expect : DWord
  next : DWord
  ta : Nat
  tb : Nat
  ka : Bool
  kb : Bool
  oba : Nat
  obb : Nat
  kd : Nat
  tile : Nat
  rm : Nat
  sat : Bool
  status : Nat
  pos : Nat
  n : Nat
  tiles : Nat
  branches : List Branch
  args : List DWord
  locs : List Loc
  slot : Nat
  accepted : Bool
  reserved : Bool
  got : List Line
  lost : List Nat
  launch : Option Nat
  left : List Nat
  held : List Nat
  deriving DecidableEq, Repr, Inhabited

/-- A read-modify-write of one element at its home (R153, R353): what it does, its address and operands. -/
structure Rmw where
  op : AtomOp
  ty : ElemTy
  pa : Nat
  x : Nat
  y : Nat
  deriving DecidableEq, Repr

/-- A write on its way to its home (R79, R85): plain bytes, or an atomic without return; with the store operations it belongs to (crew, ST
sequence number) and the MTYPE of its lines where it is not normal. -/
structure HomeReq where
  core : Nat
  dev : Nat
  part : Nat
  level : Bool
  bytes : List (Nat × Byte)
  tags : List (Nat × Nat)
  rmw : Option Rmw
  types : List (Nat × Nat)
  deriving DecidableEq, Repr, Inhabited

/-- What a member of a collective instance has sent (R187, R188): the partition, the group's handle, the instance's number, the member's device; the
compared word and its elements. -/
structure Contrib where
  part : Nat
  group : Nat
  inst : Nat
  dev : Nat
  words : List DWord
  deriving DecidableEq, Repr, Inhabited

/-- A monitor registration at a home (R171, R172). -/
structure Registration where
  crew : Nat
  dev : Nat
  pa : Nat
  home : Nat
  written : Bool
  deriving DecidableEq, Repr, Inhabited

/-! ## Translation and faults -/

/-- A cached translation (R28). KIND: 0 global leaf of 2^size bytes, 1 KV page, 2 private page, 3 a pointer that spans 2^size bytes. PLACE: a
core's micro-TLB, a cluster's TLB from 1000, a die's walk cache from 2000, its KV map units from 3000. -/
structure TlbEntry where
  place : Nat
  part : Nat
  kind : Nat
  ctx : Nat
  page : Nat
  size : Nat
  entry : DWord
  deriving DecidableEq, Repr, Inhabited

/-- An invalidation in progress (R37, R38). KIND 4: a grant has gone, and ACK is the CTR of the GRANT frame that waits for its answer, with the
granules of this device that went (R474). -/
structure Inval where
  part : Nat
  kind : Nat
  arg : Nat
  ack : Option (DWord × List Nat)
  deriving DecidableEq, Repr, Inhabited

/-- A walk in flight (R28, R29) for a prefetch (R355): its operation and the virtual addresses of its lines. -/
structure Walk where
  part : Nat
  crew : Nat
  op : Nat
  level : Bool
  vas : List Nat
  dieCacheOnly : Bool
  deriving DecidableEq, Repr, Inhabited

/-- Whose request a die fault queue entry holds (R33, R35). `page`: a copy's request to one page; `remote`: another device's request at its home
(R87). -/
inductive FqWho where
  | ldkv (crew slot lane epoch : Nat)
  | op (id : Nat)
  | page (id key : Nat)
  | stamp (id : Nat)
  | branch (id branch : Nat)
  | branchStamp (id branch : Nat)
  | bench (b elem : Nat)
  | benchRecord (b : Nat)
  | remote (src seq : Nat) (m : TolsalMsg)
  | carousel (die entry : Nat)
  | spill (die op : Nat)
  | spillWrite (die op : Nat)
  deriving DecidableEq, Repr, Inhabited

/-- A die fault queue entry (R33). ACT: 1 to be replayed, 2 to be cancelled (R34). -/
structure FqEntry where
  valid : Bool
  part : Nat
  cause : BitVec 8
  addr : DWord
  aux : Word
  who : FqWho
  unit : Nat
  core : Nat
  ctx : Nat
  write : Bool
  atomic : Bool
  remote : Bool
  order : Nat
  act : Nat
  deriving DecidableEq, Repr, Inhabited

/-- A fault record that is not yet written (R443): the partition, the record without SEQ, and whether a delivery of it has failed. -/
structure PendRec where
  part : Nat
  bits : BitVec 256
  tried : Bool
  deriving DecidableEq, Repr, Inhabited

/-! ## Dies -/

/-- A configuration region (R92-R95). -/
structure Region where
  present : Bool
  bytes : List Byte
  digest : BitVec 256
  backing : DWord
  part : Nat
  level : Bool
  sealTag : BitVec 256
  frozen : Bool
  failed : Bool
  deriving DecidableEq, Repr, Inhabited

/-- A replacement that waits for the next layer boundary (R217). -/
structure PendConfig where
  cmd : Nat
  carousel : Bool
  region : Region
  copies : Tbl (BitVec 4096)
  deriving DecidableEq, Repr, Inhabited

/-- A batt (R213). -/
structure Batt where
  rows : List Row
  deriving DecidableEq, Repr, Inhabited

/-- A token packet on its way to a carder (R209, R430): the pool slot that holds the record, its ROUTE class and SUMMARY, the TK operation it
belongs to, and whether its place is the spill ring. A record that changes dies travels with it: the sending die, or the sending device with
its handle, epoch and sequence number. -/
structure Packet where
  slot : Nat
  handle : Word
  summary : DWord
  pri : Bool
  op : Option Nat
  spill : Bool
  fromDie : Option Nat
  src : Option (Nat × Word × Word × Nat)
  image : BitVec 1024
  part : Nat
  level : Bool
  poison : List Nat
  deriving DecidableEq, Repr, Inhabited

/-- A carder (R210-R214): packets on their way, waiting tokens oldest first, formed batt, whether its pass has begun, spill ring
positions, the handles in the ring, and whether its own read of the ring or the first packet's write to it is parked (R429, R430). -/
structure Carder where
  inbound : List Packet
  waiting : List Word
  batt : Option Batt
  boarding : Bool
  spillHead : Nat
  spillTail : Nat
  ring : List Word
  parked : Bool
  sendParked : Bool
  deriving DecidableEq, Repr, Inhabited

/-- A dispatched batt (R214): its operator, the table it was dispatched under, the copy of its launch record, its rows. -/
structure BattJob where
  die : Nat
  op : Nat
  gen : Nat
  part : Nat
  lrec : BitVec 4096
  rows : List Row
  deriving DecidableEq, Repr, Inhabited

/-- A gang or context that waits for placement (R426). -/
inductive PlaceReq where
  | launchGang (launch index : Nat)
  | batt (job : BattJob)
  | resumeCrew (crew : Nat) (cmd : Option Nat)
  deriving DecidableEq, Repr

/-- A pass of the carousel (R216): its entry, the tile under way, that tile's bytes and poisoned words once they are read, the
destinations that have it, and the pages whose reads were cancelled (R35). `begun`: its first tile has been written (R214); `passed`: the
carousel has moved on while its read was parked (R191). -/
structure Pass where
  entry : Nat
  tile : Nat
  loaded : Bool
  bytes : List Byte
  bad : List Nat
  given : List Nat
  parked : Bool
  lost : List Nat
  begun : Bool
  passed : Bool
  deriving DecidableEq, Repr, Inhabited

/-- A compute die. `pass`: the pass under way; `aside`: passes whose read is parked or has been answered since (R191). -/
structure Die where
  dc : List DcLine
  fq : Tbl FqEntry
  fqOrder : Nat
  recs : List PendRec
  placeq : List PlaceReq
  corrected : Nat
  uncorr : Nat
  reloads : Nat
  opTable : Region
  copies : Tbl (BitVec 4096)
  tableGen : Nat
  oldGens : List Nat
  carousel : Region
  spills : List Byte
  spillDigest : BitVec 256
  spillPart : Nat
  spillLevel : Bool
  pend : List PendConfig
  standing : Nat
  pass : Option Pass
  aside : List Pass
  rot : Word
  last : Word
  temp : BitVec 16
  throttle : BitVec 8
  episodes : BitVec 16
  gated : BitVec 16
  shadowBad : List Nat
  deriving DecidableEq, Repr, Inhabited

/-- A token pool slot (R52, R208): its record, and the record's poisoned 4-byte words (R90). -/
structure TokSlot where
  used : Bool
  gen : Nat
  part : Nat
  bits : BitVec 1024
  poison : List Nat
  deriving DecidableEq, Repr, Inhabited

/-- A batt being lent (R432, R433): the victim's job, the thief's core, the epochs of the victim's copies, and the thief's rows. STAGE: 0 the
grant is on its way, 1 the thief has the records and its acknowledgement is on its way. -/
structure Lend where
  live : Bool
  job : BattJob
  thiefCore : Nat
  stage : Nat
  epochs : List Word
  newRows : List Row
  deriving DecidableEq, Repr, Inhabited

/-! ## Bench -/

/-- A channel entry (R224): value and head tag, the iteration tag of a G5 image (R252), and the invocation it belongs to (R247, R249). -/
structure Ent where
  val : Word
  tag : BitVec 2
  iter : BitVec 6
  inv : Nat
  deriving DecidableEq, Repr, Inhabited

/-- A fault token (R249) with the element that raised it; for a step of a kind, the input channels whose heads a SKIP pops (R250). -/
structure SpallTok where
  bits : BitVec 128
  elem : Nat
  pops : Option (List Nat)
  deriving DecidableEq, Repr, Inhabited

/-- An element (R224, R236): its bits and input channels; the fault it has still to send; the rule and beat it fires; ISECT's last
coordinates; REORD's two blocks; BUF's entries and the count it has taken; the beats in which it popped a DONE; the start tokens it
took; the invocation of the entry it popped last; a streaming node's token, position and due mark; whether its access is parked, or asked of
another device and answered; and how many requests a G5 node has sent. -/
structure Elem where
  preds : Byte
  ch : Tbl (List Ent)
  faulted : Bool
  sendTok : Option SpallTok
  firing : Option (Nat × Nat)
  lastA : Option Word
  lastB : Option Word
  fill : List Ent
  emit : List Ent
  emitPos : Nat
  flip : Bool
  buf : List Ent
  stored : Nat
  dones : Nat
  took : Nat
  inv : Nat
  strTok : Option Nat
  strPos : Nat
  markDue : Bool
  read : Nat
  parked : Bool
  asked : Bool
  answer : Option (List Byte)
  sends : Nat
  deriving DecidableEq, Repr, Inhabited

/-- Bench states (R253). -/
inductive BenchSt where
  | none | running | draining | stopping | saved | aborting | frozen
  deriving DecidableEq, Repr, Inhabited

/-- A crew that has entered, its five operands, and its level (R227). -/
structure Entry where
  crew : Nat
  ops : List DWord
  level : Bool
  deriving DecidableEq, Repr, Inhabited

/-- A request in a G5 bench's ordered retire unit (R252): iteration, node, address, operands, invocation. -/
structure RetReq where
  iter : Nat
  elem : Nat
  addr : Nat
  x : Word
  y : Word
  inv : Nat
  deriving DecidableEq, Repr, Inhabited

/-- A bench (R227–R255), or a crew that has entered and waits for its group. `fin`: the completion record that is being written. `off`: the column
offset it holds; `base`: the one it was first placed at, by which its elements name their crew's lanes for good (R157, R255). -/
structure Bench where
  live : Bool
  part : Nat
  gang : Nat
  core : Nat
  first : Nat
  entries : List Entry
  level : Bool
  st : BenchSt
  prior : BenchSt
  exiting : Bool
  preempted : Bool
  img : List Byte
  region : Region
  off : Nat
  base : Nat
  elems : Tbl Elem
  spall : List SpallTok
  given : Nat
  awaiting : List SpallTok
  replies : List Word
  abortTok : Option SpallTok
  fin : Option (BitVec 128)
  parked : Bool
  sent : Bool
  retireQ : List RetReq
  retired : Nat
  g5Fault : Option Nat
  deriving DecidableEq, Repr, Inhabited

/-! ## Front end -/

/-- A producer (R407, R412). BLOCKED: its spill head did not translate and waits for an XLAT_INV (R409). -/
structure Producer where
  v : Bool
  hostst : Bool
  staddr : Nat
  splog2 : Nat
  spbase : Nat
  rlog2 : Nat
  rbase : Nat
  devp : Bool
  pri : Bool
  group : Nat
  part : Nat
  sup : Bool
  nextSeq : Word
  intake : List Word
  spillHead : Nat
  spillTail : Nat
  blocked : Bool
  waiting : Option Nat
  deriving DecidableEq, Repr, Inhabited

/-- Progress of a taken command (R416, R423). -/
inductive CmdSt where
  | none | taken | running | finished
  deriving DecidableEq, Repr, Inhabited

/-- A taken command (R414, R423). -/
structure Cmd where
  st : CmdSt
  prod : Nat
  part : Nat
  level : Bool
  seq : Word
  kind : Nat
  arg0 : DWord
  arg1 : DWord
  ctarget : DWord
  cvalue : DWord
  event : Bool
  status : Nat
  detail : Nat
  launch : Nat
  deriving DecidableEq, Repr, Inhabited

/-- A merge unit (R413): the number after that of the producer it last served in each class, and its count of high-class commands. -/
structure Merge where
  nextHigh : Nat
  nextNorm : Nat
  highRun : Nat
  deriving DecidableEq, Repr, Inhabited

/-! ## Partitions -/

/-- An installed bench image (R420), and the patched copy that waits for the handle's benches to drain (R421). -/
structure Image where
  present : Bool
  bytes : List Byte
  backing : DWord
  level : Bool
  patched : Option (List Byte)
  deriving DecidableEq, Repr, Inhabited

/-- A collective group (R468). -/
structure CollGroup where
  present : Bool
  devs : List Nat
  deriving DecidableEq, Repr, Inhabited

/-- A requester connection (R463). -/
structure Qp where
  set : Bool
  localQp : BitVec 24
  remoteQp : BitVec 24
  mac : BitVec 48
  ip : BitVec 128
  ringSet : Bool
  ringAddr : DWord
  ringKey : Word
  ringLog : Nat
  records : Nat
  rateDrops : Nat
  deriving DecidableEq, Repr, Inhabited

/-- A partition (R40, R449). `units`: its shadow units, by number, the same on every die (R97). `savedCarders`: waiting tokens and formed batts of
its carders while it is out (R96). -/
structure Partition where
  present : Bool
  swapped : Bool
  swapping : Option Nat
  clusters : BitVec 24
  held : BitVec 24
  units : List Nat
  grants : List (Nat × Nat)
  ptRoot : DWord
  kvdesc : DWord
  trVec : DWord
  wdog : DWord
  frRing : DWord
  frStamp : DWord
  frRead : DWord
  frSeq : Nat
  frBlocked : Bool
  images : Tbl Image
  windows : Tbl (BitVec 128)
  qp : Qp
  groups : Tbl CollGroup
  keyed : Bool
  secret : BitVec 256
  ctrIn : DWord
  ctrOut : DWord
  savedLocal : List (Nat × List (Nat × Byte) × Segs)
  savedPoison : List (Nat × List Nat)
  savedYards : List (Nat × Yard × List (Nat × Byte))
  savedCores : List (Nat × Core)
  savedCarders : List (Nat × Carder)
  outCrews : List Nat
  deriving DecidableEq, Repr, Inhabited

/-! ## Links, start-up -/

/-- A peer port (R456, R465, R475). -/
structure Port where
  isOpen : Bool
  peer : Option (BitVec 4 × BitVec 256)
  sakGen : Nat
  deriving DecidableEq, Repr, Inhabited

/-- Who waits for the response of a request sent on the link (R464, R466). `keep`: a plain load's or prefetch's line may still enter the L1 (R81,
R355). -/
inductive RemoteWho where
  | load (crew slot lane epoch addr : Nat) (keep : Bool)
  | pref (crew core op : Nat) (keep : Bool)
  | commit (crew slot lane : Nat) (acc : Bool)
  | store (tags : List (Nat × Nat)) (part core ctx pa : Nat)
  | op (id : Nat)
  | branch (id branch : Nat)
  | token (slot op : Nat)
  | unit (tag : Nat)
  | bench (b elem : Nat)
  | benchRecord (b : Nat)
  | rdma (id : Nat)
  deriving DecidableEq, Repr, Inhabited

/-- A request outstanding to another device (R464). -/
structure Outstanding where
  seq : Nat
  dev : Nat
  who : RemoteWho
  msg : TolsalMsg
  deriving DecidableEq, Repr

/-- An RDMA request that has been admitted and waits for other devices (R462). -/
structure Rdma where
  id : Nat
  part : Nat
  write : Bool
  va : Nat
  n : Nat
  deriving DecidableEq, Repr, Inhabited

/-- A record that moves to another die (R209), from a die's slot or from another device (its DEV and sequence number): the carder it goes
to and its packet, its new handle once the receiving die has given it a slot, whether its frame is lost, whether the carder has accepted
it. -/
structure DieFrame where
  slot : Nat
  packet : Packet
  dstDie : Nat
  op : Nat
  src : Option (Nat × Nat)
  handle : Word
  lost : Bool
  accepted : Bool
  deriving DecidableEq, Repr, Inhabited

/-- Frames the device sends (R458, R461, R464). -/
inductive Sent where
  | event (part : Nat) (rec : List Byte)
  | ack (part status : Nat) (reqCtr ctr : DWord)
  | surveyRsp (part : Nat) (vals : List (DWord × Nat)) (ctr : DWord)
  | attestRsp (report : List Byte) (sig : List Byte)
  | idRsp (pub : List Byte) (cert : List Byte)
  | imageReq (off len : Nat)
  | rdmaAck (part : Nat)
  | rdmaData (part : Nat) (bytes : List Byte)
  | nakInvalid (part : Nat)
  | nakAccess (part : Nat)
  | hostWrite (part : Nat) (addr : DWord) (key : Option Word) (bytes : List Byte)
  | tolsal (dev : Nat) (m : TolsalMsg)
  deriving DecidableEq, Repr

/-- A start-counter record in flash (R479). -/
structure StartRec where
  seqno : Nat
  count : Nat
  reason : Nat
  stage : Nat
  valid : Bool
  deriving DecidableEq, Repr, Inhabited

/-- Start-up state (R476-R480). STAGE 0-4; POWERED false after a power loss. `flash`: the image that the ROM has written to flash, none
while it holds the one it came with; `fetching`: why the ROM fetches an image from the host, with the bytes it has; `version`: that of
the image that starts; `kem`: the number of the start's ML-KEM key pair (R472). -/
structure Boot where
  powered : Bool
  stage : Nat
  minimal : Bool
  svn : Nat
  version : Nat
  recA : StartRec
  recB : StartRec
  flash : Option (List Byte)
  fetching : Option BootReason
  fetched : List Byte
  kem : Nat
  measure : BitVec 256
  log : List (Nat × BitVec 256)
  kc : BitVec 256
  dropped : Nat
  deriving DecidableEq, Repr, Inhabited

/-- The firing of a bench element's action (R233, R400): bench, element, rule, beat. -/
structure Fire where
  bench : Nat
  elem : Nat
  rule : Nat
  beat : Nat
  deriving DecidableEq, Repr, Inhabited

/-! ## The state -/

/-- The whole device. `reservations`: version words, by address, with the device and the number of the operation or request that holds or waits
for each (R180). `collSeq`: the instances that each group has numbered (R187). `queueWaits`: the crews that wait for room in an engine's queue, in the order in which they came (R165). `agenda` says, as plain data, which unit or input takes the next steps; with an empty agenda the machine
goes on with the crew in `cur`. `free` counts the free values taken (the model's own field, log 3). -/
structure State where
  agenda : List Instr
  free : Nat
  cur : Nat
  mem : Memory
  poison : List Nat
  inflight : List HomeReq
  regs : List Registration
  tlb : List TlbEntry
  invals : List Inval
  walks : List Walk
  crews : Tbl Crew
  epochs : Tbl Nat
  gangs : Tbl Gang
  nextGang : Nat
  launches : Tbl Launch
  nextLaunch : Nat
  cores : Tbl Core
  yards : Tbl Yard
  dies : Tbl Die
  pool : Tbl TokSlot
  carders : Tbl Carder
  lends : Tbl Lend
  ops : Tbl EngineOp
  nextOp : Nat
  queues : Tbl (List Nat)
  queueWaits : Tbl (List Nat)
  reservations : List (Nat × Nat × Nat)
  collSeq : Tbl Nat
  contribs : List Contrib
  benches : Tbl Bench
  nextBench : Nat
  mapCache : List (BitVec 256 × List Byte)
  fire : Option Fire
  producers : Tbl Producer
  merges : Tbl Merge
  nextGroup : Nat
  cmds : Tbl Cmd
  nextCmd : Nat
  restarting : Bool
  parts : Tbl Partition
  dev : Nat
  domain : List Nat
  ports : Tbl Port
  outstanding : List Outstanding
  nextSeq : Nat
  seen : List (Nat × Nat × TolsalMsg)
  rdmas : List Rdma
  nextRdma : Nat
  windowAcks : List (Nat × DWord × List Nat)
  unitLines : List (Nat × Line)
  dieFrames : List DieFrame
  tokSeen : List (Nat × Word × Word)
  hubErrs : DWord
  sent : List Sent
  boot : Boot
  deriving DecidableEq, Repr, Inhabited

/-- Reasons a step stops with a fault. -/
inductive Fault where
  /-- Raised by `execHomeAccessPerform` when a request at the head of its home names a device-local address that R19's map does
  not hold. Safe: translation raises PROTECTION for every such address first (R24, R39), so no access of a run gets there. -/
  | unbacked
  deriving DecidableEq, Repr

/-- Reasons a step is refused. -/
inductive Refusal where
  /-- The meaning is not written yet; raised by an arm of `exec` only. Safe: nothing runs. -/
  | notModelled (mnemonic : String)
  deriving DecidableEq, Repr

/-- What a step answers. -/
abbrev Out := Host.Outcome State Fault Refusal

namespace State

/-- Partition 0 exists from start-up (R449). -/
def resetPart0 : Partition := { (default : Partition) with present := true }

/-- Producer 0: a host producer of partition 0 with SUP = 1 (R449); its ring is not given by the spec (log 6). -/
def resetProducer0 : Producer := { (default : Producer) with v := true, sup := true }

/-- Start-up complete: stage 4 reached, start counter 0 (R476, R479). What the start measured, its image's version and its keys are free values
(R470, R472, R477). -/
def resetBoot : Boot :=
  { (default : Boot) with
    powered := true
    stage := 4
    svn := Config.flashVersion
    version := Config.flashVersion
    recA := { (default : StartRec) with valid := true }
    kem := 1
    measure := Config.bootMeasure
    log := Config.bootLog
    kc := Config.sealKey 1 }

/-- The machine right after start-up (R11, R476 stage 4): partition 0 and producer 0 exist, $device reads 0 (R18), memory
lists nothing, no crew runs. -/
def reset : State :=
  { (default : State) with
    parts := Tbl.put Tbl.empty 0 resetPart0
    producers := Tbl.put Tbl.empty 0 resetProducer0
    domain := [0]
    boot := resetBoot }

end State

end Sys2Proof.Machine
end

