-- ==== Sys2Proof/Machine/Operands.lean ====
section
/-!
DEFINITION. Sys2Proof/Machine/Operands.lean: operand forms (R268–R276): reading a source in a lane, guards, destinations, the
transient a slot yields, and the slot bookkeeping every meaning shares (R200).
-/
namespace Sys2Proof.Machine

/-! ## The executing crew -/

namespace State

/-- The crew that executes. -/
def me (s : State) : Crew := s.crews.get s.cur

/-- Replace the executing crew. -/
def setMe (s : State) (c : Crew) : State := { s with crews := s.crews.put s.cur c }

/-- Change the executing crew. -/
def updMe (s : State) (f : Crew → Crew) : State := s.setMe (f s.me)

end State

/-- Lanes of a mask, in increasing order. -/
def lanesOf (m : Word) : List Nat := (List.range 32).filter fun l => m.getLsbD l

/-- The mask of one lane. -/
def laneBit (l : Nat) : Word := 1#32 <<< l

/-- The mask of a list of lanes. -/
def maskOf (ls : List Nat) : Word := ls.foldl (fun m l => m ||| laneBit l) 0

namespace Crew

/-- The running path: the head of the list (R203, R204). -/
def run (c : Crew) : Path := c.paths.headD default

/-- $mask: the running path's lanes (R203). -/
def mask (c : Crew) : Word := c.run.mask

/-- A P register's bits; P7 reads as 1 in every lane (R271, R315). -/
def pred (c : Crew) (n : BitVec 3) : Word := if n = 7 then BitVec.allOnes 32 else c.p.get n.toNat

/-- Lanes of the running path whose guard holds (R272). -/
def guardMask (c : Crew) (g : Guard) : Word :=
  c.mask &&& (if g.pn then ~~~(c.pred g.pg) else c.pred g.pg)

/-- Lane `l`'s word of Vn. -/
def vreg (c : Crew) (n l : Nat) : Word := c.v.get (n * 32 + l)

/-- Lane `l`'s 64-bit pair at Vn (R98). -/
def vpair (c : Crew) (n l : Nat) : DWord := c.vreg (n + 1) l ++ c.vreg n l

/-- S register. -/
def sreg (c : Crew) (n : Nat) : DWord := c.s.get n

/-- Word w of Dn, by 4n + w. -/
def dword (c : Crew) (k : Nat) : DWord := c.d.get k

/-- The 256 bits of Dn. -/
def drec (c : Crew) (n : Nat) : Rec256 :=
  c.dword (4 * n + 3) ++ c.dword (4 * n + 2) ++ c.dword (4 * n + 1) ++ c.dword (4 * n)

end Crew

/-- Bits of a number. -/
def bitsOf {n : Nat} (x : BitVec n) (lo len : Nat) : Nat := (x.extractLsb' lo len).toNat

/-! ## Levels (R192, R194, R195) -/

/-- Is level n declared by a launch record's LEVMASK? -/
def levDeclared (lrec : BitVec 4096) (n : Nat) : Bool := n ≤ 2 || (n ≤ 7 && lrec.getLsbD (51 + (n - 3)))

/-- Level n's entry. -/
def levEntry (lrec : BitVec 4096) (n : Nat) : DWord := lrec.extractLsb' (512 + 64 * (n - 3)) 64

/-- A declared level's COUNT. -/
def levCount (lrec : BitVec 4096) (n : Nat) : Nat := bitsOf (levEntry lrec n) 0 32

/-- Index of a gang's instance of level n within the next higher declared level of 3–5, lowest declared level fastest; `rem` is the
linear index in units of instances of level n. -/
def levIndex (lrec : BitVec 4096) : List Nat → Nat → Nat → Nat → Nat
  | [], _, _, idx => idx
  | k :: ks, n, rem, idx =>
    if levDeclared lrec k then
      let c := max 1 (levCount lrec k)
      if n < k then rem % c
      else levIndex lrec ks n (rem / c) idx
    else levIndex lrec ks n rem idx

/-- $lev n for a crew of a gang with index `gi` (R195). The spec does not say what the other fields of an undeclared level read as: the whole word is 0
(log 96). -/
def levWord (lrec : BitVec 4096) (n gi crew lane : Nat) : DWord :=
  if !levDeclared lrec n then 0
  else
    let v : DWord := 1#1 ++ 0#63
    let part := if levDeclared lrec 6 then bitsOf (levEntry lrec 6) 32 28 else 0
    match n with
    | 0 => v ||| BitVec.ofNat 64 lane
    | 1 => v ||| BitVec.ofNat 64 crew
    | 2 => v ||| (1#64 <<< 60) ||| BitVec.ofNat 64 (levIndex lrec [3, 4, 5] 2 gi part % 2 ^ 32)
    | 6 | 7 => v ||| BitVec.ofNat 64 (bitsOf (levEntry lrec n) 60 3 * 2 ^ 60)
    | _ =>
      v ||| BitVec.ofNat 64 (bitsOf (levEntry lrec n) 60 3 * 2 ^ 60) |||
        BitVec.ofNat 64 (levIndex lrec [3, 4, 5] n gi part % 2 ^ 32)

/-- $press of a core (R221, R428). -/
def pressWord (k : Core) : DWord :=
  match k.pressed with
  | some n => BitVec.ofNat 64 (n % 256 * 256 + 1)
  | none => 0

/-! ## Reading a source -/

/-- The inline constant table (R270). -/
def constVal (n : BitVec 6) : DWord :=
  let k := n.toNat
  if k ≤ 0x20 then BitVec.ofNat 64 k
  else if k ≤ 0x28 then BitVec.ofInt 64 (0x20 - (k : Int))
  else
    match k with
    | 0x29 => 64
    | 0x2A => 128
    | 0x2B => 256
    | 0x2C => 0xFF
    | 0x2D => 0xFFFF
    | 0x2E => 0x7FFFFFFF
    | 0x2F => 0x80000000
    | 0x30 => 0x3F000000
    | 0x31 => 0x3F800000
    | 0x32 => 0x40000000
    | 0x33 => 0x40800000
    | 0x34 => 0xBF000000
    | 0x35 => 0xBF800000
    | 0x36 => 0xC0000000
    | 0x37 => 0x3E800000
    | 0x38 => 0x3FB8AA3B
    | 0x39 => 0x3F317218
    | 0x3A => 0x40490FDB
    | 0x3B => 0x3E22F983
    | 0x3C => 0x7F800000
    | 0x3D => 0xFF800000
    | 0x3E => 0x7FC00000
    | _ => 0x7F7FFFFF

/-- A special register (R276), as crew `c` reads it in a lane. -/
def specVal (s : State) (c : Crew) (r : Special) (l : Nat) : DWord :=
  let g := s.gangs.get c.gang
  match r with
  | .lane => BitVec.ofNat 64 l
  | .crew => BitVec.ofNat 64 c.idx
  | .gang => BitVec.ofNat 64 (g.index % 2 ^ 32)
  | .core => BitVec.ofNat 64 c.core
  | .cluster => BitVec.ofNat 64 (c.core / Config.coresPerCluster)
  | .die => BitVec.ofNat 64 (c.core / Config.coresPerDie)
  | .device => BitVec.ofNat 64 s.dev
  | .lev n => levWord g.lrec n.toNat g.index c.idx l
  | .mask => c.mask.setWidth 64
  | .budget => BitVec.ofNat 64 c.budget
  | .feat => Config.feat
  | .press => pressWord (s.cores.get c.core)
  | .cyc => (s.cores.get c.core).cyc
  | .seed => c.seed
  | .fpsr => c.fpsr

/-- Is slot n a literal slot of the running sett (R258)? -/
def Sett.isLit (t : Sett) (n : Nat) : Bool := t.lit.getLsbD n

/-- Transient ^n in a lane: a literal, or what slot n yielded (R200, R258). -/
def Crew.transient (c : Crew) (n l : Nat) : DWord :=
  if c.sett.isLit n then c.sett.words.getD n 0 else c.sett.trans.get (n * 32 + l)

/-- A source at 64 bits in lane `l`, read at sett start; `pos` is its place among the slot's source fields, which tells pops apart
(R269, R274). -/
def src64 (s : State) (c : Crew) (pos : Nat) (a : Src) (l : Nat) : DWord :=
  match a with
  | .v n => c.vpair n.toNat l
  | .s n => c.sreg n.toNat
  | .trans n => c.transient n.toNat l
  | .pop _ => c.sett.pops.get (c.sett.slot * 4 + pos)
  | .const n => constVal n
  | .spec r => specVal s c r l
  | .tok n => (c.t.get (n.toNat * 32 + l)).setWidth 64
  | .pred n => if (c.pred n).getLsbD l then 1 else 0
  | .dword d w => c.dword (4 * d.toNat + w.toNat)

/-- A source at 32 bits: bits 31:0 of a 64-bit source, or Vn alone (R269). -/
def src32 (s : State) (c : Crew) (pos : Nat) (a : Src) (l : Nat) : Word :=
  match a with
  | .v n => c.vreg n.toNat l
  | _ => (src64 s c pos a l).setWidth 32

/-- A source at the width of its instruction; a 32-bit value in the low half. -/
def srcW (s : State) (c : Crew) (pos : Nat) (a : Src) (wide : Bool) (l : Nat) : DWord :=
  if wide then src64 s c pos a l else (src32 s c pos a l).setWidth 64

/-- A per-lane source where one value for the crew is asked for: the lowest lane whose guard holds (R269). -/
def uni64 (s : State) (c : Crew) (pos : Nat) (a : Src) (g : Guard) : DWord :=
  src64 s c pos a ((lanesOf (c.guardMask g)).headD 0)

/-- The same at 32 bits. -/
def uni32 (s : State) (c : Crew) (pos : Nat) (a : Src) (g : Guard) : Word :=
  src32 s c pos a ((lanesOf (c.guardMask g)).headD 0)

/-- A source of a packed 16-bit float instruction: inline constants fill both halves (R270). -/
def srcPacked (s : State) (c : Crew) (t : PackTy) (pos : Nat) (a : Src) (l : Nat) : Word :=
  match a with
  | .const n =>
    let x := constVal n
    let h : BitVec 16 :=
      if n.toNat ≥ 0x30 then
        BitVec.ofNat 16 (cvtF (match t with | .f16x2 => .f16 | .b16x2 => .b16) .f32 .rne false (x.toNat % 2 ^ 32) 0).1
      else x.setWidth 16
    h ++ h
  | _ => src32 s c pos a l

/-! ## Writing a destination -/

/-- A result as an S destination receives it (R269, R305, R322): 32-bit results are zero-extended, or sign-extended for .I32. -/
def sForm (wide sx : Bool) (x : DWord) : DWord :=
  if wide then x else if sx then (x.setWidth 32).signExtend 64 else (x.setWidth 32).setWidth 64

/-- The register writes of a slot's lane results, in lane order (R269, R271, R272). -/
def dstWrites (d : Dst) (wide sx : Bool) (rs : List (Nat × DWord)) : List Wr :=
  match d with
  | .v n =>
    rs.flatMap fun r =>
      if wide then [.v n.toNat r.1 (r.2.setWidth 32), .v (n.toNat + 1) r.1 (r.2.extractLsb' 32 32)]
      else [.v n.toNat r.1 (r.2.setWidth 32)]
  | .trans => []
  | .s n =>
    match rs with
    | [] => []
    | r :: _ => [.s n.toNat (sForm wide sx r.2)]
  | .p n => if n = 7 then [] else rs.map fun r => .p n.toNat r.1 (r.2.getLsbD 0)

/-- The destination's sett-start value in a lane, which a guarded-off lane's transient holds (R272). -/
def dstStart (c : Crew) (d : Dst) (wide : Bool) (l : Nat) : DWord :=
  match d with
  | .v n => if wide then c.vpair n.toNat l else (c.vreg n.toNat l).setWidth 64
  | .trans => 0
  | .s n => c.sreg n.toNat
  | .p n => if (c.pred n).getLsbD l then 1 else 0

/-- A slot's transient in a lane (R200, R272, R305): its result as the destination receives it, which for S is the one word of the crew and
for P bit 0; in a lane whose guard does not hold, the destination's sett-start value. -/
def transVal (c : Crew) (d : Dst) (wide sx : Bool) (rs : List (Nat × DWord)) (l : Nat) : DWord :=
  match Cells.find rs l with
  | none => dstStart c d wide l
  | some x =>
    match d with
    | .s _ => sForm wide sx (rs.headD (l, x)).2
    | .p _ => if x.getLsbD 0 then 1 else 0
    | _ => sForm wide sx x

/-- Store a slot's transient for every lane. -/
def putTrans (t : Tbl DWord) (slot : Nat) (f : Nat → DWord) : Tbl DWord :=
  (List.range 32).foldl (fun t l => t.putc (slot * 32 + l) (f l)) t

/-! ## Slot bookkeeping (R200) -/

/-- Is the word of a slot an effectful instruction that is no control instruction? -/
def wordEffectful (w : DWord) : Bool :=
  match decode w with
  | .instr i => i.effectful && !i.control
  | .refused _ => false

namespace Sett

/-- Does slot n act in a phase? Literal slots never do; at commit only effectful slots do. -/
def acts (t : Sett) (ph : Phase) (n : Nat) : Bool :=
  match ph with
  | .exec => !t.isLit n
  | .effects => !t.isLit n && wordEffectful (t.words.getD n 0)
  | _ => false

/-- The first slot at or after n that acts in a phase, or the slot count. -/
def seek (t : Sett) (ph : Phase) (n : Nat) : Nat :=
  ((List.range t.nslots).find? fun k => decide (n ≤ k) && t.acts ph k).getD t.nslots

/-- Go on with the next slot of the phase. -/
def advance (t : Sett) : Sett := { t with slot := t.seek t.phase (t.slot + 1) }

/-- The executing slot's writes come later: their place among the sett's is kept (R200). -/
def mark (t : Sett) : Sett := { t with marks := t.marks.put t.slot t.wr.length }

/-- Writes of slot n that come late take their place in slot order, so that a higher slot's write stands (R200). -/
def lateWrites (t : Sett) (n : Nat) (wr : List Wr) : Sett :=
  let p := t.marks.get n
  { t with
    wr := t.wr.take p ++ wr ++ t.wr.drop p
    marks := ⟨t.marks.cells.map fun e => if e.1 > n then (e.1, e.2 + wr.length) else e⟩ }

end Sett

/-- The sett's exception bit set (R200): the lowest slot's exception stands, since slots run in order. -/
def raiseExc (c : Crew) (cause : BitVec 8) (addr : DWord) (lane : Nat) : Crew :=
  { c with sett := { c.sett with exc := some ⟨cause, addr, c.sett.slot, lane, 0⟩ } }

/-- Cause codes (R435). -/
def cIllegalOp : BitVec 8 := 0x01
def cBadTarget : BitVec 8 := 0x02
def cBudget : BitVec 8 := 0x03
def cFeature : BitVec 8 := 0x04
def cPrivilege : BitVec 8 := 0x05
def cAlign : BitVec 8 := 0x08
def cShape : BitVec 8 := 0x09
def cBounds : BitVec 8 := 0x0A
def cNotPresent : BitVec 8 := 0x10
def cProtection : BitVec 8 := 0x11
def cKvMiss : BitVec 8 := 0x12
def cPrivateGrow : BitVec 8 := 0x13
def cFpException : BitVec 8 := 0x18
def cBenchFault : BitVec 8 := 0x20
def cConfigEcc : BitVec 8 := 0x21
def cUncorrectable : BitVec 8 := 0x28
def cSvc : BitVec 8 := 0x30
def cBreak : BitVec 8 := 0x31
def cPreempt : BitVec 8 := 0x38
def cWatchdog : BitVec 8 := 0x3C
def cRowFreed : BitVec 8 := 0x40

/-- Stall reasons (R207). -/
def stNone : BitVec 4 := 0
def stOperand : BitVec 4 := 1
def stChannel : BitVec 4 := 2
def stWaitc : BitVec 4 := 3
def stStamp : BitVec 4 := 4
def stBarrier : BitVec 4 := 5
def stSfu : BitVec 4 := 6
def stMatrix : BitVec 4 := 7
def stBench : BitVec 4 := 8

/-- The address of slot n's word: the header stands before slot 0 (R256). -/
def slotAddr (t : Sett) (n : Nat) : Nat := t.pc + 8 * (n + 1)

/-- A slot whose pop names a queue that is bound, whatever its guard (R274, R367). -/
def Crew.popTrap (c : Crew) : Bool := c.sett.popBad.contains c.sett.slot

/-- What a lane of a slot yields: its result, flags and generator state. -/
structure LaneOut where
  val : DWord
  fl : Flags5
  gen : Word
  deriving DecidableEq, Repr

/-- The lane results of a slot, with all flags and the generators, lanes in increasing order. -/
def runLanes (f : Nat → Word → LaneOut) (gens : Tbl Word) : List Nat → List (Nat × DWord) × Flags5 × Tbl Word
  | [] => ([], 0, gens)
  | l :: ls =>
    let o := f l (gens.get l)
    let (rs, fl, g) := runLanes f (if o.gen = gens.get l then gens else gens.putc l o.gen) ls
    ((l, o.val) :: rs, o.fl ||| fl, g)

/-- A slot ends: its writes and transient are staged, its flags recorded, the next slot comes up (R200, R112). -/
def endSlot (c : Crew) (d : Dst) (wide sx : Bool) (rs : List (Nat × DWord)) (fl : Flags5) (gens : Tbl Word) : Crew :=
  let t := c.sett
  let armed := fl &&& (c.fpsr.extractLsb' 8 5)
  { c with
    sett := Sett.advance { t with
      wr := t.wr ++ dstWrites d wide sx rs
      trans := putTrans t.trans t.slot (transVal c d wide sx rs)
      flags := t.flags ||| fl
      flagSlot := if armed = 0 then t.flagSlot else (t.flagSlot.or (some t.slot))
      gens := gens } }

/-- The result of slot n that comes late: its writes take their place, its transient and flags are those of a slot that ends (R200, R338). -/
def endLate (c : Crew) (n : Nat) (d : Dst) (wide sx : Bool) (rs : List (Nat × DWord)) (fl : Flags5) : Crew :=
  let t := c.sett
  let armed := fl &&& (c.fpsr.extractLsb' 8 5)
  { c with
    sett := { t.lateWrites n (dstWrites d wide sx rs) with
      trans := putTrans t.trans n (transVal c d wide sx rs)
      flags := t.flags ||| fl
      flagSlot := if armed = 0 then t.flagSlot else some ((t.flagSlot.map fun m => min m n).getD n) } }

/-- A slot that computes in each lane whose guard holds and touches nothing but its destination (R272). -/
def laneSlot (s : State) (g : Guard) (d : Dst) (wide sx : Bool) (f : Crew → Nat → Word → LaneOut) : State :=
  let c := s.me
  if c.popTrap then s.setMe (raiseExc c cProtection 0 0)
  else
    let (rs, fl, gens) := runLanes (f c) c.sett.gens (lanesOf (c.guardMask g))
    s.setMe (endSlot c d wide sx rs fl gens)

/-- A slot whose value depends on the operands alone: no flag, no generator. -/
def valueSlot (s : State) (g : Guard) (d : Dst) (wide sx : Bool) (f : Crew → Nat → DWord) : State :=
  laneSlot s g d wide sx fun c l gen => ⟨f c l, 0, gen⟩

/-- A slot that gives chosen lanes their own results: permutes, votes, reductions. -/
def crossSlot (s : State) (g : Guard) (d : Dst) (wide sx : Bool) (f : Crew → List Nat → List (Nat × DWord) × Flags5) : State :=
  let c := s.me
  if c.popTrap then s.setMe (raiseExc c cProtection 0 0)
  else
    let (rs, fl) := f c (lanesOf (c.guardMask g))
    s.setMe (endSlot c d wide sx rs fl c.sett.gens)

end Sys2Proof.Machine
end

