-- ==== Sys2Proof/Machine/Integer.lean ====
section
/-!
DEFINITION. Sys2Proof/Machine/Integer.lean: integer arithmetic, moves, shifts, bit fields and comparison, OP 0x10–0x2C
(R304–R313). Each value function works on operands as read; the meanings stand below them, one for each instruction.
-/
namespace Sys2Proof.Machine

/-! ## Elements of a type (R304, R305) -/

/-- Element width. -/
def intW : IntTy → Nat
  | .n32 | .i32 => 32
  | .n64 | .i64 => 64
  | .n16x2 | .i16x2 => 16
  | .n8x4 | .i8x4 => 8

/-- Elements of an operand. -/
def intN : IntTy → Nat
  | .n32 | .i32 | .n64 | .i64 => 1
  | .n16x2 | .i16x2 => 2
  | .n8x4 | .i8x4 => 4

/-- Two's-complement types. -/
def intSigned (t : IntTy) : Bool := t.signed

/-- A 32-bit result of .I32 is sign-extended into an S register (R305). -/
def intSx : IntTy → Bool
  | .i32 => true
  | _ => false

/-- Element e of an operand, unsigned. -/
def elemN (t : IntTy) (x : DWord) (e : Nat) : Nat := x.toNat / 2 ^ (intW t * e) % 2 ^ intW t

/-- Element e of an operand, read as the type. -/
def elemI (t : IntTy) (x : DWord) (e : Nat) : Int := readInt (intW t) (intSigned t) (elemN t x e)

/-- Elements put together. -/
def packElems (t : IntTy) (f : Nat → Nat) : DWord :=
  BitVec.ofNat 64 ((List.range (intN t)).foldl (fun a e => a + f e % 2 ^ intW t * 2 ^ (intW t * e)) 0)

/-- An exact result into its element: wrapped, or saturated (R100, R305). -/
def fitElem (t : IntTy) (sat : Bool) (v : Int) : Nat :=
  wrapNat (intW t) (if sat then clampInt (intW t) (intSigned t) v else v)

/-- An element-wise operation (R306). -/
def mapElems (t : IntTy) (sat : Bool) (f : Nat → Int) : DWord := packElems t fun e => fitElem t sat (f e)

/-! ## Values -/

def iaddVal (t : IntTy) (sat : Bool) (a b : DWord) : DWord := mapElems t sat fun e => elemI t a e + elemI t b e
def iadd3Val (t : IntTy) (sat : Bool) (a b c : DWord) : DWord :=
  mapElems t sat fun e => elemI t a e + elemI t b e + elemI t c e
def isubVal (t : IntTy) (sat : Bool) (a b : DWord) : DWord := mapElems t sat fun e => elemI t a e - elemI t b e
def imulVal (t : IntTy) (sat : Bool) (a b : DWord) : DWord := mapElems t sat fun e => elemI t a e * elemI t b e
/-- Floor(a × b / 2^w). -/
def imulhVal (t : IntTy) (a b : DWord) : DWord :=
  mapElems t false fun e => (elemI t a e * elemI t b e) / (2 ^ intW t : Int)
def imadVal (t : IntTy) (sat : Bool) (a b c : DWord) : DWord :=
  mapElems t sat fun e => elemI t a e * elemI t b e + elemI t c e

/-- The 64-bit type of the same signedness (R307). -/
def widen : IntTy → IntTy
  | .i32 => .i64
  | _ => .n64

/-- IMAD.WIDE: 32-bit a and b, 64-bit c (R307). -/
def imadWideVal (t : IntTy) (sat : Bool) (a b c : DWord) : DWord :=
  mapElems (widen t) sat fun _ => elemI t a 0 * elemI t b 0 + elemI (widen t) c 0

def iminVal (t : IntTy) (a b : DWord) : DWord := mapElems t false fun e => min (elemI t a e) (elemI t b e)
def imaxVal (t : IntTy) (a b : DWord) : DWord := mapElems t false fun e => max (elemI t a e) (elemI t b e)
def iabsVal (t : IntTy) (sat : Bool) (a : DWord) : DWord := mapElems t sat fun e => (elemI t a e).natAbs

/-- How LEA reads b (R307). -/
def leaB (m : LeaMode) (b : DWord) : DWord :=
  match m with
  | .plain => b
  | .zx => (b.setWidth 32).setWidth 64
  | .sx => (b.setWidth 32).signExtend 64

/-- a + b × 2^s, wrapping (R306, R307). -/
def leaVal (t : IntTy) (sh : BitVec 3) (m : LeaMode) (a b : DWord) : DWord :=
  mapElems t false fun _ => elemI t a 0 + elemI t (leaB m b) 0 * 2 ^ sh.toNat

/-- The count of element e (R309): 32 bits for a 64-bit type, the element itself otherwise. -/
def shiftCount (t : IntTy) (k : DWord) (e : Nat) : Nat := if t.wide then k.toNat % 2 ^ 32 else elemN t k e

/-- One element shifted or rotated by k (R309). -/
def shiftElem (w : Nat) (op : ShiftOp) (a k : Nat) : Nat :=
  match op with
  | .shl => if k ≥ w then 0 else a * 2 ^ k % 2 ^ w
  | .shr => if k ≥ w then 0 else a / 2 ^ k
  | .sar => wrapNat w (if k ≥ w then (if a ≥ 2 ^ (w - 1) then -1 else 0) else readInt w true a / (2 ^ k : Int))
  | .rol => let r := k % w; (a * 2 ^ r + a / 2 ^ (w - r)) % 2 ^ w
  | .ror => let r := k % w; (a / 2 ^ r + a * 2 ^ (w - r)) % 2 ^ w

/-- Shifts and rotates by SRC2 (R309). -/
def shiftVal (t : IntTy) (op : ShiftOp) (a k : DWord) : DWord :=
  packElems t fun e => shiftElem (intW t) op (elemN t a e) (shiftCount t k e)

/-- An immediate at the operand width (R262, R313). -/
def immVal (t : IntTy) (imm : BitVec 20) : DWord :=
  if t.wide then imm.signExtend 64 else (imm.signExtend 32).setWidth 64

/-- MOVI (R308). -/
def moviVal (t : IntTy) (imm : BitVec 20) : DWord := immVal t imm

/-- SEL (R308). -/
def selVal (a b c : DWord) : DWord := if c.getLsbD 0 then a else b

/-- An integer condition (R312). -/
def condVal (c : Cond) (a b : Int) : Bool :=
  match c with
  | .eq => decide (a = b)
  | .ne => decide (a ≠ b)
  | .lt => decide (a < b)
  | .le => decide (a ≤ b)
  | .gt => decide (a > b)
  | .ge => decide (a ≥ b)

/-- How an outcome combines with bit 0 of c (R312). -/
def combVal (k : Comb) (r : Bool) (c : DWord) : Bool :=
  match k with
  | .none => r
  | .and => r && c.getLsbD 0
  | .or => r || c.getLsbD 0
  | .xor => r ^^ c.getLsbD 0

/-- One or zero. -/
def boolWord (b : Bool) : DWord := if b then 1 else 0

/-- ICMP (R312). -/
def icmpVal (t : IntTy) (c : Cond) (k : Comb) (a b x : DWord) : DWord :=
  boolWord (combVal k (condVal c (elemI t a 0) (elemI t b 0)) x)

/-- pos and len of a bit-field operand (R310). -/
def fieldPos (pl : DWord) : Nat := pl.toNat % 256
def fieldLen (w : Nat) (pl : DWord) : Nat := min (pl.toNat / 256 % 256) w

/-- BFX (R310): bits at or above w read as 0. -/
def bfxVal (t : IntTy) (a pl : DWord) : DWord :=
  let w := intW t
  let len := fieldLen w pl
  let x := a.toNat % 2 ^ w / 2 ^ fieldPos pl % 2 ^ len
  if len = 0 then 0 else BitVec.ofNat 64 (wrapNat w (readInt len (intSigned t) x))

/-- BFI (R310): c with bits pos + i below w, for i < len, replaced by bit i of a. -/
def bfiVal (t : IntTy) (a pl c : DWord) : DWord :=
  let w := intW t
  let pos := fieldPos pl
  let len := fieldLen w pl
  BitVec.ofNat 64 ((List.range w).foldl (fun acc j =>
    let b := if pos ≤ j && j < pos + len then a.toNat.testBit (j - pos) else c.toNat.testBit j
    if b then acc + 2 ^ j else acc) 0)

/-- Set bits among the low w. -/
def popcVal (t : IntTy) (a : DWord) : DWord :=
  BitVec.ofNat 64 (((List.range (intW t)).filter fun j => a.toNat.testBit j).length)
/-- Leading zero bits; w when a = 0. -/
def clzVal (t : IntTy) (a : DWord) : DWord := BitVec.ofNat 64 (intW t - bitLen (a.toNat % 2 ^ intW t))
/-- Trailing zero bits; w when a = 0. -/
def ctzVal (t : IntTy) (a : DWord) : DWord :=
  BitVec.ofNat 64 (((List.range (intW t)).find? fun j => a.toNat.testBit j).getD (intW t))
/-- Bit i moved to bit w − 1 − i. -/
def brevVal (t : IntTy) (a : DWord) : DWord :=
  let w := intW t
  BitVec.ofNat 64 ((List.range w).foldl (fun acc j => if a.toNat.testBit j then acc + 2 ^ (w - 1 - j) else acc) 0)

/-- LOP (R311) at the operand width. -/
def lopVal (t : IntTy) (op : LopOp) (a b : DWord) : DWord :=
  let r : DWord :=
    match op with
    | .and => a &&& b
    | .or => a ||| b
    | .xor => a ^^^ b
    | .andn => a &&& ~~~b
    | .orn => a ||| ~~~b
    | .xnor => ~~~(a ^^^ b)
    | .not => ~~~a
  if t.wide then r else (r.setWidth 32).setWidth 64

/-! ## Slot forms -/

/-- Two sources of one width. -/
def intSlot2 (o : Ops2) (t : IntTy) (f : DWord → DWord → DWord) (s : State) : State :=
  valueSlot s o.g o.d t.wide (intSx t) fun c l => f (srcW s c 0 o.a t.wide l) (srcW s c 1 o.b t.wide l)

/-- Three sources of one width. -/
def intSlot3 (o : Ops3) (t : IntTy) (f : DWord → DWord → DWord → DWord) (s : State) : State :=
  valueSlot s o.g o.d t.wide (intSx t) fun c l =>
    f (srcW s c 0 o.a t.wide l) (srcW s c 1 o.b t.wide l) (srcW s c 2 o.c t.wide l)

/-- One source. -/
def intSlot1 (o : Ops1) (t : IntTy) (f : DWord → DWord) (s : State) : State :=
  valueSlot s o.g o.d t.wide (intSx t) fun c l => f (srcW s c 0 o.a t.wide l)

/-- A source and a second one read at 32 bits (R309, R310). -/
def intSlotK (o : Ops2) (t : IntTy) (f : DWord → DWord → DWord) (s : State) : State :=
  valueSlot s o.g o.d t.wide (intSx t) fun c l => f (srcW s c 0 o.a t.wide l) (srcW s c 1 o.b false l)

/-- One source, a 32-bit unsigned count as result (R310). -/
def countSlot (o : Ops1) (t : IntTy) (f : DWord → DWord) (s : State) : State :=
  valueSlot s o.g o.d false false fun c l => f (srcW s c 0 o.a t.wide l)

/-! ## Meanings -/

/-- IADD (R306). -/
def execIadd (o : Ops2) (t : IntTy) (sat : Bool) (s : State) : Out := .next (intSlot2 o t (iaddVal t sat) s)
/-- IADD3 (R306). -/
def execIadd3 (o : Ops3) (t : IntTy) (sat : Bool) (s : State) : Out := .next (intSlot3 o t (iadd3Val t sat) s)
/-- ISUB (R306). -/
def execIsub (o : Ops2) (t : IntTy) (sat : Bool) (s : State) : Out := .next (intSlot2 o t (isubVal t sat) s)
/-- IMUL (R306). -/
def execImul (o : Ops2) (t : IntTy) (sat : Bool) (s : State) : Out := .next (intSlot2 o t (imulVal t sat) s)
/-- IMULH (R306). -/
def execImulh (o : Ops2) (t : IntTy) (s : State) : Out := .next (intSlot2 o t (imulhVal t) s)
/-- IMAD (R306). -/
def execImad (o : Ops3) (t : IntTy) (sat : Bool) (s : State) : Out := .next (intSlot3 o t (imadVal t sat) s)
/-- IMAD.WIDE (R307). -/
def execImadWide (o : Ops3) (t : IntTy) (sat : Bool) (s : State) : Out :=
  .next (valueSlot s o.g o.d true false fun c l =>
    imadWideVal t sat (srcW s c 0 o.a false l) (srcW s c 1 o.b false l) (srcW s c 2 o.c true l))
/-- IMIN (R306). -/
def execImin (o : Ops2) (t : IntTy) (s : State) : Out := .next (intSlot2 o t (iminVal t) s)
/-- IMAX (R306). -/
def execImax (o : Ops2) (t : IntTy) (s : State) : Out := .next (intSlot2 o t (imaxVal t) s)
/-- IABS (R306). -/
def execIabs (o : Ops1) (t : IntTy) (sat : Bool) (s : State) : Out := .next (intSlot1 o t (iabsVal t sat) s)
/-- LEA (R306, R307). -/
def execLea (o : Ops2) (t : IntTy) (sh : BitVec 3) (m : LeaMode) (s : State) : Out :=
  .next (valueSlot s o.g o.d t.wide (intSx t) fun c l =>
    leaVal t sh m (srcW s c 0 o.a t.wide l) (srcW s c 1 o.b (t.wide && m == .plain) l))
/-- SHL (R309). -/
def execShl (o : Ops2) (t : IntTy) (s : State) : Out := .next (intSlotK o t (shiftVal t .shl) s)
/-- SHR (R309). -/
def execShr (o : Ops2) (t : IntTy) (s : State) : Out := .next (intSlotK o t (shiftVal t .shr) s)
/-- SAR (R309). -/
def execSar (o : Ops2) (t : IntTy) (s : State) : Out := .next (intSlotK o t (shiftVal t .sar) s)
/-- ROL (R309). -/
def execRol (o : Ops2) (t : IntTy) (s : State) : Out := .next (intSlotK o t (shiftVal t .rol) s)
/-- ROR (R309). -/
def execRor (o : Ops2) (t : IntTy) (s : State) : Out := .next (intSlotK o t (shiftVal t .ror) s)
/-- MOV (R308). -/
def execMov (o : Ops1) (s : State) : Out := .next (valueSlot s o.g o.d false false fun c l => srcW s c 0 o.a false l)
/-- MOV.N64 (R308). -/
def execMovN64 (o : Ops1) (s : State) : Out := .next (valueSlot s o.g o.d true false fun c l => srcW s c 0 o.a true l)

/-- A MOV that writes a register no DK reaches (R278): the value of the lowest guarded lane, staged for commit; its transient is
the value, or the register's start value where no lane's guard holds. -/
def specialMove (g : Guard) (a : Src) (start : Crew → DWord) (w : DWord → Wr) (s : State) : State :=
  let c := s.me
  if c.popTrap then s.setMe (raiseExc c cProtection 0 0)
  else
    let on := c.guardMask g != 0
    let x := uni64 s c 0 a g
    let t := c.sett
    s.setMe { c with
      sett := Sett.advance { t with
        wr := t.wr ++ (if on then [w x] else [])
        trans := putTrans t.trans t.slot fun l => if (c.guardMask g).getLsbD l then x else start c } }

/-- MOV $seed and MOV $fpsr (R278). -/
def execMovSpecial (g : Guard) (a : Src) (fpsr : Bool) (s : State) : Out :=
  .next (specialMove g a (fun c => if fpsr then c.fpsr else c.seed) (if fpsr then .fpsr else .seed) s)
/-- MOV Dn.w (R278). -/
def execMovDWord (g : Guard) (a : Src) (w : BitVec 6) (s : State) : Out :=
  .next (specialMove g a (fun c => c.dword w.toNat) (.d w.toNat) s)
/-- MOVI (R308). -/
def execMovi (d : Dst) (g : Guard) (t : IntTy) (imm : BitVec 20) (s : State) : Out :=
  .next (valueSlot s g d t.wide (intSx t) fun _ _ => moviVal t imm)
/-- SEL (R308). -/
def execSel (o : Ops3) (t : IntTy) (s : State) : Out :=
  .next (valueSlot s o.g o.d t.wide (intSx t) fun c l =>
    selVal (srcW s c 0 o.a t.wide l) (srcW s c 1 o.b t.wide l) (srcW s c 2 o.c false l))
/-- ICMP (R312). -/
def execIcmp (o : Ops3) (t : IntTy) (cd : Cond) (k : Comb) (s : State) : Out :=
  .next (valueSlot s o.g o.d false false fun c l =>
    icmpVal t cd k (srcW s c 0 o.a t.wide l) (srcW s c 1 o.b t.wide l) (srcW s c 2 o.c false l))
/-- BFX (R310). -/
def execBfx (o : Ops2) (t : IntTy) (s : State) : Out := .next (intSlotK o t (bfxVal t) s)
/-- BFI (R310). -/
def execBfi (o : Ops3) (t : IntTy) (s : State) : Out :=
  .next (valueSlot s o.g o.d t.wide (intSx t) fun c l =>
    bfiVal t (srcW s c 0 o.a t.wide l) (srcW s c 1 o.b false l) (srcW s c 2 o.c t.wide l))
/-- POPC (R310). -/
def execPopc (o : Ops1) (t : IntTy) (s : State) : Out := .next (countSlot o t (popcVal t) s)
/-- CLZ (R310). -/
def execClz (o : Ops1) (t : IntTy) (s : State) : Out := .next (countSlot o t (clzVal t) s)
/-- CTZ (R310). -/
def execCtz (o : Ops1) (t : IntTy) (s : State) : Out := .next (countSlot o t (ctzVal t) s)
/-- BREV (R310). -/
def execBrev (o : Ops1) (t : IntTy) (s : State) : Out := .next (intSlot1 o t (brevVal t) s)
/-- LOP (R311). -/
def execLop (o : Ops2) (t : IntTy) (op : LopOp) (s : State) : Out := .next (intSlot2 o t (lopVal t op) s)
/-- IADD with an immediate (R313). -/
def execIaddImm (o : Ops1) (t : IntTy) (sat : Bool) (imm : BitVec 20) (s : State) : Out :=
  .next (intSlot1 o t (fun a => iaddVal t sat a (immVal t imm)) s)
/-- IMUL with an immediate (R313). -/
def execImulImm (o : Ops1) (t : IntTy) (sat : Bool) (imm : BitVec 20) (s : State) : Out :=
  .next (intSlot1 o t (fun a => imulVal t sat a (immVal t imm)) s)
/-- LOP with an immediate (R313). -/
def execLopImm (o : Ops1) (t : IntTy) (op : LopOp) (imm : BitVec 20) (s : State) : Out :=
  .next (intSlot1 o t (fun a => lopVal t op a (immVal t imm)) s)
/-- Shifts and rotates by an immediate (R313). -/
def execShiftImm (o : Ops1) (t : IntTy) (op : ShiftOp) (imm : BitVec 20) (s : State) : Out :=
  .next (intSlot1 o t (fun a => shiftVal t op a (immVal t imm)) s)
/-- ICMP with an immediate (R313). -/
def execIcmpImm (o : Ops1) (t : IntTy) (cd : Cond) (imm : BitVec 20) (s : State) : Out :=
  .next (valueSlot s o.g o.d false false fun c l => icmpVal t cd .none (srcW s c 0 o.a t.wide l) (immVal t imm) 0)
/-- IMIN and IMAX with an immediate (R313). -/
def execIminmaxImm (o : Ops1) (t : IntTy) (isMax : Bool) (imm : BitVec 20) (s : State) : Out :=
  .next (intSlot1 o t (fun a => if isMax then imaxVal t a (immVal t imm) else iminVal t a (immVal t imm)) s)

end Sys2Proof.Machine
end

