-- ==== Sys2Proof/Machine/FloatOps.lean ====
section
/-!
DEFINITION. Sys2Proof/Machine/FloatOps.lean: FP32 and packed 16-bit arithmetic, conversion, MX packing and DOT4, OP 0x40–0x64
(R322–R336).
-/
namespace Sys2Proof.Machine

/-- What a lane yields from a code, flags and a generator. -/
def laneOf (r : Nat × Flags5 × Word) : LaneOut := ⟨BitVec.ofNat 64 r.1, r.2.1, r.2.2⟩

/-- What a lane yields from a code and flags. -/
def laneOf' (r : Nat × Flags5) (gen : Word) : LaneOut := ⟨BitVec.ofNat 64 r.1, r.2, gen⟩

/-! ## One element -/

def faddEl (f : Fmt) (rm : Rnd) (sat na nb : Bool) (a b : Nat) (gen : Word) : Nat × Flags5 × Word :=
  finishF f rm sat (addX rm ((decodeF f a).negIf na) ((decodeF f b).negIf nb)) gen
def fmulEl (f : Fmt) (rm : Rnd) (sat na : Bool) (a b : Nat) (gen : Word) : Nat × Flags5 × Word :=
  finishF f rm sat (mulX ((decodeF f a).negIf na) (decodeF f b)) gen
def ffmaEl (f : Fmt) (rm : Rnd) (sat np nc : Bool) (a b c : Nat) (gen : Word) : Nat × Flags5 × Word :=
  finishF f rm sat (fmaX rm (decodeF f a) (decodeF f b) ((decodeF f c).negIf nc) np) gen

/-! ## FP32 (R324–R328) -/

def faddVal (rm : Rnd) (sat na nb : Bool) (a b gen : Word) : LaneOut :=
  laneOf (faddEl .f32 rm sat na nb a.toNat b.toNat gen)
def fmulVal (rm : Rnd) (sat na : Bool) (a b gen : Word) : LaneOut := laneOf (fmulEl .f32 rm sat na a.toNat b.toNat gen)
def ffmaVal (rm : Rnd) (sat np nc : Bool) (a b c gen : Word) : LaneOut :=
  laneOf (ffmaEl .f32 rm sat np nc a.toNat b.toNat c.toNat gen)
def fminmaxVal (isMax nan : Bool) (a b gen : Word) : LaneOut := laneOf' (minmaxF .f32 isMax nan a.toNat b.toNat) gen
def fcmpVal (cd : FCond) (k : Comb) (a b c gen : Word) : LaneOut :=
  let r := compareF .f32 cd a.toNat b.toNat
  ⟨boolWord (combVal k r.1 (c.setWidth 64)), r.2, gen⟩
def fclassVal (a gen : Word) : LaneOut := ⟨(classF a).setWidth 64, 0, gen⟩
def fclassTestVal (a m gen : Word) : LaneOut := ⟨boolWord (classF a &&& m.setWidth 10 != 0), 0, gen⟩
def frndVal (rm : Rnd) (a gen : Word) : LaneOut :=
  let r := frndF rm a gen
  ⟨r.1.setWidth 64, r.2.1, r.2.2⟩

/-- One 32-bit source. -/
def floatSlot1 (o : Ops1) (f : Word → Word → LaneOut) (s : State) : State :=
  laneSlot s o.g o.d false false fun c l gen => f (src32 s c 0 o.a l) gen
/-- Two 32-bit sources. -/
def floatSlot2 (o : Ops2) (f : Word → Word → Word → LaneOut) (s : State) : State :=
  laneSlot s o.g o.d false false fun c l gen => f (src32 s c 0 o.a l) (src32 s c 1 o.b l) gen
/-- Three 32-bit sources. -/
def floatSlot3 (o : Ops3) (f : Word → Word → Word → Word → LaneOut) (s : State) : State :=
  laneSlot s o.g o.d false false fun c l gen => f (src32 s c 0 o.a l) (src32 s c 1 o.b l) (src32 s c 2 o.c l) gen

/-- FADD.F32 (R324). -/
def execFadd (o : Ops2) (rm : Rnd) (sat na nb : Bool) (s : State) : Out := .next (floatSlot2 o (faddVal rm sat na nb) s)
/-- FMUL.F32 (R324). -/
def execFmul (o : Ops2) (rm : Rnd) (sat na : Bool) (s : State) : Out := .next (floatSlot2 o (fmulVal rm sat na) s)
/-- FFMA.F32 (R324). -/
def execFfma (o : Ops3) (rm : Rnd) (sat np nc : Bool) (s : State) : Out := .next (floatSlot3 o (ffmaVal rm sat np nc) s)
/-- FMIN.F32 (R325). -/
def execFmin (o : Ops2) (nan : Bool) (s : State) : Out := .next (floatSlot2 o (fminmaxVal false nan) s)
/-- FMAX.F32 (R325). -/
def execFmax (o : Ops2) (nan : Bool) (s : State) : Out := .next (floatSlot2 o (fminmaxVal true nan) s)
/-- FCMP.F32 (R326). -/
def execFcmp (o : Ops3) (cd : FCond) (k : Comb) (s : State) : Out := .next (floatSlot3 o (fcmpVal cd k) s)
/-- FCLASS.F32 (R327). -/
def execFclass (o : Ops1) (s : State) : Out := .next (floatSlot1 o fclassVal s)
/-- FCLASS.TEST.F32 (R327). -/
def execFclassTest (o : Ops2) (s : State) : Out := .next (floatSlot2 o fclassTestVal s)
/-- FRND.F32 (R328). -/
def execFrnd (o : Ops1) (rm : Rnd) (s : State) : Out := .next (floatSlot1 o (frndVal rm) s)

/-! ## Packed 16-bit (R329) -/

/-- The format of a packed type. -/
def packFmt : PackTy → Fmt
  | .f16x2 => .f16
  | .b16x2 => .b16

/-- Half e of a word. -/
def half (x : Word) (e : Nat) : Nat := x.toNat / 2 ^ (16 * e) % 65536

/-- Both elements, 0 then 1; flags ORed, the generator stepping in element order. -/
def packed2 (f : Nat → Word → Nat × Flags5 × Word) (gen : Word) : LaneOut :=
  let r0 := f 0 gen
  let r1 := f 1 r0.2.2
  ⟨BitVec.ofNat 64 (r0.1 + r1.1 * 65536), r0.2.1 ||| r1.2.1, r1.2.2⟩

def faddPackedVal (t : PackTy) (rm : Rnd) (sat na nb : Bool) (a b gen : Word) : LaneOut :=
  packed2 (fun e => faddEl (packFmt t) rm sat na nb (half a e) (half b e)) gen
def fmulPackedVal (t : PackTy) (rm : Rnd) (sat na : Bool) (a b gen : Word) : LaneOut :=
  packed2 (fun e => fmulEl (packFmt t) rm sat na (half a e) (half b e)) gen
def ffmaPackedVal (t : PackTy) (rm : Rnd) (sat np nc : Bool) (a b c gen : Word) : LaneOut :=
  packed2 (fun e => ffmaEl (packFmt t) rm sat np nc (half a e) (half b e) (half c e)) gen
def fminmaxPackedVal (t : PackTy) (isMax nan : Bool) (a b gen : Word) : LaneOut :=
  packed2 (fun e g => let r := minmaxF (packFmt t) isMax nan (half a e) (half b e); (r.1, r.2, g)) gen
/-- Bit e is element e's outcome (R329). -/
def fcmpPackedVal (t : PackTy) (cd : FCond) (a b gen : Word) : LaneOut :=
  let r0 := compareF (packFmt t) cd (half a 0) (half b 0)
  let r1 := compareF (packFmt t) cd (half a 1) (half b 1)
  ⟨BitVec.ofNat 64 ((if r0.1 then 1 else 0) + (if r1.1 then 2 else 0)), r0.2 ||| r1.2, gen⟩

/-- Two packed sources. -/
def packedSlot2 (o : Ops2) (t : PackTy) (f : Word → Word → Word → LaneOut) (s : State) : State :=
  laneSlot s o.g o.d false false fun c l gen => f (srcPacked s c t 0 o.a l) (srcPacked s c t 1 o.b l) gen

/-- FADD packed (R329). -/
def execFaddPacked (o : Ops2) (t : PackTy) (rm : Rnd) (sat na nb : Bool) (s : State) : Out :=
  .next (packedSlot2 o t (faddPackedVal t rm sat na nb) s)
/-- FMUL packed (R329). -/
def execFmulPacked (o : Ops2) (t : PackTy) (rm : Rnd) (sat na : Bool) (s : State) : Out :=
  .next (packedSlot2 o t (fmulPackedVal t rm sat na) s)
/-- FFMA packed (R329). -/
def execFfmaPacked (o : Ops3) (t : PackTy) (rm : Rnd) (sat np nc : Bool) (s : State) : Out :=
  .next (laneSlot s o.g o.d false false fun c l gen =>
    ffmaPackedVal t rm sat np nc (srcPacked s c t 0 o.a l) (srcPacked s c t 1 o.b l) (srcPacked s c t 2 o.c l) gen)
/-- FMIN packed (R329). -/
def execFminPacked (o : Ops2) (t : PackTy) (nan : Bool) (s : State) : Out :=
  .next (packedSlot2 o t (fminmaxPackedVal t false nan) s)
/-- FMAX packed (R329). -/
def execFmaxPacked (o : Ops2) (t : PackTy) (nan : Bool) (s : State) : Out :=
  .next (packedSlot2 o t (fminmaxPackedVal t true nan) s)
/-- FCMP packed (R329). -/
def execFcmpPacked (o : Ops2) (t : PackTy) (cd : FCond) (s : State) : Out :=
  .next (packedSlot2 o t (fcmpPackedVal t cd) s)

/-! ## Conversion (R330–R332) -/

/-- A narrow result filled to 32 bits (R98). -/
def fill98 (t : ElemTy) (x : Nat) : DWord :=
  match t with
  | .i8 | .i16 => BitVec.ofNat 64 (wrapNat 32 (readInt (elemBits t) true x))
  | _ => BitVec.ofNat 64 (x % 2 ^ elemBits t)

def cvtVal (dt st : ElemTy) (rm : Rnd) (sat : Bool) (a : DWord) (gen : Word) : LaneOut :=
  let r := cvtF dt st rm sat (a.toNat % 2 ^ elemBits st) gen
  ⟨fill98 dt r.1, r.2.1, r.2.2⟩

/-- CVT (R330, R331). -/
def execCvt (o : Ops1) (dt st : ElemTy) (rm : Rnd) (sat : Bool) (s : State) : Out :=
  .next (laneSlot s o.g o.d dt.wide false fun c l gen => cvtVal dt st rm sat (srcW s c 0 o.a st.wide l) gen)

/-- Two FP32 values rounded into elements of width w, element 0 first. -/
def packTwo (f : Fmt) (rm : Rnd) (sat : Bool) (a b gen : Word) : Nat × Nat × Flags5 × Word :=
  let t (g : Word) (x : Word) := finishF f rm sat ⟨decodeF .f32 x.toNat, snanFlag [decodeF .f32 x.toNat]⟩ g
  let r0 := t gen a
  let r1 := t r0.2.2 b
  (r0.1, r1.1, r0.2.1 ||| r1.2.1, r1.2.2)

/-- An element widened exactly to FP32, NaN made canonical (R332). -/
def widenEl (f : Fmt) (x : Nat) : Nat × Flags5 :=
  let r := finishF .f32 .rne false ⟨decodeF f x, snanFlag [decodeF f x]⟩ 0
  (r.1, r.2.1)

/-- Packed conversions (R332). -/
def cvtPackedVal (f : CvtP) (rm : Rnd) (sat : Bool) (a b c gen : Word) : LaneOut :=
  let halves (ef : Fmt) : LaneOut :=
    let r := packTwo ef rm sat a b gen
    ⟨BitVec.ofNat 64 (r.1 + r.2.1 * 2 ^ 16), r.2.2.1, r.2.2.2⟩
  let bytes (ef : Fmt) (hi : Bool) : LaneOut :=
    let r := packTwo ef rm sat a b gen
    let p := r.1 + r.2.1 * 2 ^ 8
    let k := c.toNat
    ⟨BitVec.ofNat 64 (if hi then k % 2 ^ 16 + p * 2 ^ 16 else p + k / 2 ^ 16 * 2 ^ 16), r.2.2.1, r.2.2.2⟩
  let two (ef : Fmt) (w sh : Nat) : LaneOut :=
    let r0 := widenEl ef (a.toNat / 2 ^ sh % 2 ^ w)
    let r1 := widenEl ef (a.toNat / 2 ^ (sh + w) % 2 ^ w)
    ⟨BitVec.ofNat 64 (r0.1 + r1.1 * 2 ^ 32), r0.2 ||| r1.2, gen⟩
  match f with
  | .toF16x2 => halves .f16
  | .toB16x2 => halves .b16
  | .fromF16x2 => two .f16 16 0
  | .fromB16x2 => two .b16 16 0
  | .toE4m3Lo => bytes .e4m3 false
  | .toE4m3Hi => bytes .e4m3 true
  | .toE5m2Lo => bytes .e5m2 false
  | .toE5m2Hi => bytes .e5m2 true
  | .fromE4m3Lo => two .e4m3 8 0
  | .fromE4m3Hi => two .e4m3 8 16
  | .fromE5m2Lo => two .e5m2 8 0
  | .fromE5m2Hi => two .e5m2 8 16

/-- Packed CVT (R332). -/
def execCvtPacked (o : Ops3) (f : CvtP) (rm : Rnd) (sat : Bool) (s : State) : Out :=
  .next (laneSlot s o.g o.d (!f.isPack) false fun c l gen =>
    cvtPackedVal f rm sat (src32 s c 0 o.a l) (src32 s c 1 o.b l) (src32 s c 2 o.c l) gen)

/-! ## MX blocks across lanes (R333–R335) -/

/-- Element width of an MX format. -/
def mxBits : MxFmt → Nat
  | .mx8a | .mx8b => 8
  | .mx6a | .mx6b => 6
  | .mx4 => 4

/-- The packed string of R114 as a number. -/
def mxString (w : Nat) : List Nat → Nat
  | [] => 0
  | q :: qs => q % 2 ^ w + 2 ^ w * mxString w qs

/-- What lane 16b + i receives under a layout (R333). -/
def mxLaneWord (f : MxFmt) (ly : MxLayout) (scale : Nat) (codes : List Nat) (i : Nat) : Nat :=
  let w := mxBits f
  match ly with
  | .elem => codes.getD i 0 % 2 ^ w + scale * 256
  | .words =>
    if i < w / 2 then mxString w codes / 2 ^ (32 * i) % 2 ^ 32
    else if i = 15 then scale
    else 0

/-- MXPACK of one block (R334): lane results, flags, and the generators of the guarded lanes. -/
def mxpackBlock (f : MxFmt) (ly : MxLayout) (strict : Bool) (rm : Rnd) (val : Nat → Word) (gens : Tbl Word) (on : Word)
    (b : Nat) : List (Nat × DWord) × Flags5 × List (Nat × Word) :=
  let ls := (List.range 16).map (16 * b + ·)
  let act := ls.filter fun l => on.getLsbD l
  if act.isEmpty then ([], 0, [])
  else
    let vs := ls.map fun l => if on.getLsbD l then decodeF .f32 (val l).toNat else .fin false 0 0
    let (scale, codes, fl, gs) := mxPackBlock f rm strict vs (ls.map fun l => gens.get l)
    (act.map fun l => (l, BitVec.ofNat 64 (mxLaneWord f ly scale codes (l % 16))), fl,
      act.map fun l => (l, gs.getD (l % 16) 0))

/-- MXPACK (R333, R334). -/
def execMxpack (o : Ops1) (f : MxFmt) (ly : MxLayout) (strict : Bool) (rm : Rnd) (s : State) : Out :=
  let c := s.me
  if c.popTrap then .next (s.setMe (raiseExc c cProtection 0 0))
  else
    let on := c.guardMask o.g
    let r0 := mxpackBlock f ly strict rm (src32 s c 0 o.a) c.sett.gens on 0
    let r1 := mxpackBlock f ly strict rm (src32 s c 0 o.a) c.sett.gens on 1
    let gens := (r0.2.2 ++ r1.2.2).foldl (fun t p => if p.2 = t.get p.1 then t else t.putc p.1 p.2) c.sett.gens
    .next (s.setMe (endSlot c o.d false false (r0.1 ++ r1.1) (r0.2.1 ||| r1.2.1) gens))

/-- The element code and scale a lane finds (R335). -/
def mxFind (f : MxFmt) (ly : MxLayout) (val : Nat → Word) (l : Nat) : Nat × Nat :=
  let w := mxBits f
  let b := l - l % 16
  match ly with
  | .elem => ((val l).toNat % 2 ^ w, (val l).toNat / 256 % 256)
  | .words =>
    let str := (List.range (w / 2)).foldl (fun a j => a + (val (b + j)).toNat * 2 ^ (32 * j)) 0
    (str / 2 ^ (w * (l % 16)) % 2 ^ w, (val (b + 15)).toNat % 256)

/-- MXUNPACK (R335). -/
def execMxunpack (o : Ops1) (f : MxFmt) (ly : MxLayout) (s : State) : Out :=
  .next (laneSlot s o.g o.d false false fun c l gen =>
    let q := mxFind f ly (src32 s c 0 o.a) l
    let r := mxUnpack f q.1 q.2
    ⟨r.1.setWidth 64, r.2, gen⟩)

/-! ## DOT4 (R336) -/

/-- Element e of width w. -/
def elemAt (w : Nat) (x : Word) (e : Nat) : Nat := x.toNat / 2 ^ (w * e) % 2 ^ w

/-- A float DOT4: one exact sum, one rounding. -/
def dotFloat (f : Fmt) (w : Nat) (rm : Rnd) (a b c gen : Word) : Nat × Flags5 × Word :=
  let es := List.range (32 / w)
  let ps := es.map fun e => (decodeF f (elemAt w a e), decodeF f (elemAt w b e))
  let cv := decodeF .f32 c.toNat
  let sn := snanFlag (cv :: ps.flatMap fun p => [p.1, p.2])
  let d := dotX rm ps
  let x := addX rm cv d.v
  finishF .f32 rm false ⟨x.v, x.fl ||| d.fl ||| sn⟩ gen

/-- An integer DOT4. -/
def dotInt (signed sat : Bool) (a b c : Word) : Nat :=
  let v := (List.range 4).foldl (fun acc e => acc + readInt 8 signed (elemAt 8 a e) * readInt 8 signed (elemAt 8 b e))
    (readInt 32 signed c.toNat)
  wrapNat 32 (if sat then clampInt 32 signed v else v)

/-- DOT4 (R336). -/
def dot4Val (t : DotTy) (rm : Rnd) (sat : Bool) (a b c gen : Word) : LaneOut :=
  match t with
  | .e4m3x4 => laneOf (dotFloat .e4m3 8 rm a b c gen)
  | .e5m2x4 => laneOf (dotFloat .e5m2 8 rm a b c gen)
  | .f16x2 => laneOf (dotFloat .f16 16 rm a b c gen)
  | .b16x2 => laneOf (dotFloat .b16 16 rm a b c gen)
  | .i8x4 => ⟨BitVec.ofNat 64 (dotInt true sat a b c), 0, gen⟩
  | .n8x4 => ⟨BitVec.ofNat 64 (dotInt false sat a b c), 0, gen⟩

/-- DOT4 (R336). -/
def execDot4 (o : Ops3) (t : DotTy) (rm : Rnd) (sat : Bool) (s : State) : Out :=
  .next (floatSlot3 o (dot4Val t rm sat) s)

end Sys2Proof.Machine
end

