-- ==== Sys2Proof/Machine/Flags.lean ====
section
/-!
DEFINITION. Sys2Proof/Machine/Flags.lean: $fpsr (R111), flags at commit and the floating-point trap (R112, R323).
-/
namespace Sys2Proof.Machine

/-- Enable bits of $fpsr, in the order of its flags (R111). -/
def fpEnables (fpsr : DWord) : Flags5 := fpsr.extractLsb' 8 5

/-- Sticky flags of $fpsr. -/
def fpFlags (fpsr : DWord) : Flags5 := fpsr.extractLsb' 0 5

/-- A sett's flags ORed into $fpsr at commit (R112). -/
def orFlags (fpsr : DWord) (fl : Flags5) : DWord := fpsr ||| fl.setWidth 64

/-- What a write of $fpsr stores: reserved bits read zero (R10, R111). -/
def fpsrWrite (x : DWord) : DWord := x &&& 0x1F1F

/-- The floating-point trap of a sett: a raised flag whose enable bit $fpsr held at sett start (R112, R323). -/
def Crew.fpTrap (c : Crew) : Option Exc :=
  let t := c.sett
  if t.flags &&& fpEnables c.fpsr == 0 then none
  else some ⟨cFpException, 0, t.flagSlot.getD 0, 0, t.flags⟩

end Sys2Proof.Machine
end

