-- ==== Sys2Proof/Machine/Mem.lean ====
section
/-!
DEFINITION. Sys2Proof/Machine/Mem.lean: access to the tables of State, the device's address map (R19), in-flight counters (R174,
R175), accesses performed at homes (R85), poison (R91), monitor registrations (R172), the combining buffer and the L1 (R79–R81).
-/
namespace Sys2Proof.Machine

/-! ## Tables of the state -/

namespace State

/-- A crew context. -/
def crew (s : State) (k : Nat) : Crew := s.crews.get k
/-- Change a crew context. -/
def updCrew (s : State) (k : Nat) (f : Crew → Crew) : State := { s with crews := s.crews.upd k f }
/-- A gang. -/
def gang (s : State) (k : Nat) : Gang := s.gangs.get k
/-- Change a gang. -/
def updGang (s : State) (k : Nat) (f : Gang → Gang) : State := { s with gangs := s.gangs.upd k f }
/-- A core. -/
def core (s : State) (k : Nat) : Core := s.cores.get k
/-- Change a core. -/
def updCore (s : State) (k : Nat) (f : Core → Core) : State := { s with cores := s.cores.upd k f }
/-- A compute die. -/
def die (s : State) (k : Nat) : Die := s.dies.get k
/-- Change a compute die. -/
def updDie (s : State) (k : Nat) (f : Die → Die) : State := { s with dies := s.dies.upd k f }
/-- A partition. -/
def part (s : State) (k : Nat) : Partition := s.parts.get k
/-- Change a partition. -/
def updPart (s : State) (k : Nat) (f : Partition → Partition) : State := { s with parts := s.parts.upd k f }
/-- An engine operation. -/
def eop (s : State) (k : Nat) : EngineOp := s.ops.get k
/-- Change an engine operation. -/
def updOp (s : State) (k : Nat) (f : EngineOp → EngineOp) : State := { s with ops := s.ops.upd k f }
/-- A bench. -/
def bench (s : State) (k : Nat) : Bench := s.benches.get k
/-- Change a bench. -/
def updBench (s : State) (k : Nat) (f : Bench → Bench) : State := { s with benches := s.benches.upd k f }
/-- The next free value number is taken (log 3). -/
def bumpFree (s : State) : State := { s with free := s.free + 1 }

end State

/-- A crew context's core is on this die (R7). -/
def dieOf (core : Nat) : Nat := core / Config.coresPerDie
/-- A core's cluster, 0–23 (R6). -/
def clusterOf (core : Nat) : Nat := core / Config.coresPerCluster

/-! ## The device-local address map (R19) -/

/-- First address above the HBM ranges. -/
def hbmEnd : Nat := 0xC000000000
/-- HBM ranges. -/
def isHbm (a : Nat) : Bool := a < hbmEnd
/-- Die that owns an HBM address. -/
def hbmDie (a : Nat) : Nat := a / 0x3000000000
/-- First byte of a yard's aperture window. -/
def yardAp (y : Nat) : Nat := 0x800000000000 + y * 0x200000
/-- First byte of a core's aperture window. -/
def localAp (c : Nat) : Nat := 0x810000000000 + c * 0x40000
/-- Yard aperture. -/
def isYardAp (a : Nat) : Bool := 0x800000000000 ≤ a && a < 0x800018000000
/-- Local aperture. -/
def isLocalAp (a : Nat) : Bool := 0x810000000000 ≤ a && a < 0x810003000000
/-- Device yard of a yard-aperture address. -/
def apYard (a : Nat) : Nat := (a - 0x800000000000) / 0x200000
/-- Core of a local-aperture address. -/
def apCore (a : Nat) : Nat := (a - 0x810000000000) / 0x40000
/-- Is an address backed? -/
def isBacked (a : Nat) : Bool := isHbm a || isYardAp a || isLocalAp a
/-- The die that a device-local address lies on. -/
def dieOfAddr (pa : Nat) : Nat := if isHbm pa then hbmDie pa else if isYardAp pa then apYard pa / 48 else dieOf (apCore pa)
/-- 1 GiB granule of an HBM address (R40). -/
def granuleOf (a : Nat) : Nat := a / 2 ^ 30

/-- Die cache slice of an HBM address (R84). -/
def sliceOf (a : Nat) : Nat :=
  let x := BitVec.ofNat 48 a
  (x.extractLsb' 7 4 ^^^ x.extractLsb' 11 4 ^^^ x.extractLsb' 15 4 ^^^ x.extractLsb' 19 4).toNat

/-- The home of an address, numbered: slices 0–63, yards from 64, cores from 256 (R131). -/
def homeOf (a : Nat) : Nat :=
  if isHbm a then hbmDie a * 16 + sliceOf a
  else if isYardAp a then 64 + apYard a
  else 256 + apCore a

/-! ## In-flight counters (R174–R176) -/

/-- Counter number of a path. -/
def pathNo : Path6 → Nat
  | .ld => 0 | .st => 1 | .cp => 2 | .mx => 3 | .cl => 4 | .tk => 5

/-- Cap of a path's counter. -/
def pathCap : Path6 → Nat
  | .ld => 64 | .st => 256 | .cp => 32 | .mx => 16 | .cl => 8 | .tk => 64

/-- Operations that have become complete in issue order, after `late` later ones. -/
def absorb : Nat → Nat → List Nat → Nat × List Nat
  | 0, d, late => (d, late)
  | n + 1, d, late => if late.contains (d + 1) then absorb n (d + 1) (late.filter (· != d + 1)) else (d, late)

/-- Operation k of a path completes. -/
def PathCtr.complete (p : PathCtr) (k : Nat) : PathCtr :=
  if k ≤ p.done || p.late.contains k then p
  else
    let (d, late) := absorb (p.late.length + 1) p.done (k :: p.late)
    { p with done := d, late := late }

/-- The counter's value (R175). -/
def PathCtr.value (p : PathCtr) : Nat := p.issued - p.done

/-- A crew's counter. -/
def Crew.counter (c : Crew) (p : Path6) : Nat := (c.ctr.get (pathNo p)).value

/-- All six counters are zero. -/
def Crew.quiet (c : Crew) : Bool := [Path6.ld, .st, .cp, .mx, .cl, .tk].all fun p => c.counter p == 0

/-- Issue one operation on a path; its number is the new `issued`. -/
def Crew.issueOn (c : Crew) (p : Path6) : Crew :=
  { c with ctr := c.ctr.upd (pathNo p) fun q => { q with issued := q.issued + 1 } }

/-- Number of the last operation issued on a path. -/
def Crew.lastOn (c : Crew) (p : Path6) : Nat := (c.ctr.get (pathNo p)).issued

/-- Operation k of a crew's path completes, resident or not (R176). -/
def State.completeOn (s : State) (crew : Nat) (p : Path6) (k : Nat) : State :=
  if (s.crew crew).place == .free then s else s.updCrew crew fun c => { c with ctr := c.ctr.upd (pathNo p) fun q => q.complete k }

/-- Crews of a core that wait in their sett for one reason are asked again. -/
def State.wakeCore (s : State) (core : Nat) (why : BitVec 4) : State :=
  { s with crews := s.crews.mapVals fun c =>
      if c.core == core && c.stall == why && c.sett.phase == .exec then { c with stall := 0 } else c }

/-! ## Homes (R85) -/

/-- Words of a byte write that it covers whole. -/
def wholeWord (bs : List (Nat × Byte)) (w : Nat) : Bool := (List.range 4).all fun i => bs.any fun b => b.1 == 4 * w + i

/-- Bytes written at their home on this device: memory changes, whole words lose their poison (R91), registered waiters of the
touched stamp words wake (R172). -/
def State.perform (s : State) (bs : List (Nat × Byte)) : State :=
  { s with
    mem := bs.foldl (fun m b => m.write b.1 b.2) s.mem
    poison := s.poison.filter fun w => !wholeWord bs w
    regs := s.regs.map fun r =>
      if r.dev = s.dev && bs.any (fun b => r.pa ≤ b.1 && b.1 < r.pa + 8) then { r with written := true } else r }

/-- Bytes at consecutive addresses. -/
def bytesAt (a : Nat) : List Byte → List (Nat × Byte)
  | [] => []
  | b :: bs => (a, b) :: bytesAt (a + 1) bs

/-- A value written at its home. -/
def State.performVal (s : State) (a n v : Nat) : State := s.perform (bytesAt a (leBytes n v))

/-- A value read at its home. -/
def State.readVal (s : State) (a n : Nat) : Nat := leNat (s.mem.readList a n)

/-- A 64-bit word read at its home. -/
def State.read64 (s : State) (a : Nat) : DWord := BitVec.ofNat 64 (s.readVal a 8)

/-- Is a 4-byte word of a range poisoned? The address of the first. -/
def State.poisonedIn (s : State) (a n : Nat) : Option Nat :=
  ((List.range ((a + n + 3) / 4 - a / 4)).map (a / 4 + ·)).find? fun w => s.poison.contains w

/-! ## The die caches (R55, R86) -/

/-- The set of a line in the die caches: its slice of 2,048 sets, by the line number's higher bits (log 80). -/
def dcSet (line : Nat) : Nat := sliceOf (line * 128) * 2048 + line / 16 % 2048

/-- A line enters its set of 12: a full set gives up a streaming line first, else the line that came first (R86). A line that is there
already keeps its place. -/
def keepDc (ls : List DcLine) (l : DcLine) : List DcLine :=
  if ls.any fun e => e.line == l.line then ls.map fun e => if e.line == l.line then { e with dirty := e.dirty || l.dirty } else e
  else
    let set := ls.filter fun e => dcSet e.line == dcSet l.line
    let out := if set.length ≥ 12 then ((set.find? (·.stream)).or set.head?).map (·.line) else none
    ls.filter (fun e => some e.line != out) ++ [l]

/-- An access of MTYPE `mtype` reaches a line's slice (R86): normal and streaming lines allocate; an uncached access uses a line that is
present and allocates none. Lines of the apertures have no slice. -/
def State.touchDc (s : State) (line mtype : Nat) (write : Bool) : State :=
  let a := line * 128
  if !isHbm a then s
  else
    s.updDie (hbmDie a) fun d =>
      if mtype ≥ 2 && !(d.dc.any fun e => e.line == line) then d
      else { d with dc := keepDc d.dc ⟨line, write, mtype == 1⟩ }

/-- The lines of a byte write reach their slices. `types`: the MTYPE of the lines that are not normal. -/
def State.touchWrite (s : State) (bs : List (Nat × Byte)) (types : List (Nat × Nat)) : State :=
  (bs.foldl (fun l b => if l.contains (b.1 / 128) then l else l ++ [b.1 / 128]) []).foldl (fun s line =>
    s.touchDc line (((types.find? fun t => t.1 == line).map (·.2)).getD 0) true) s

/-! ## Read-modify-writes (R153, R353) -/

/-- The new value of a read-modify-write of one element (R352, R242): none where CAS finds another value. ADD.F32 adds in the element's own
format. -/
def rmwNew (op : AtomOp) (t : ElemTy) (old x y : Nat) : Option Nat :=
  let w := elemBits t
  let num := readInt w (elemSigned t)
  match op with
  | .add => some ((old + x) % 2 ^ w)
  | .addF32 => some (faddEl (elemFmt t) .rne false false false old x 0).1
  | .min => some (if num x < num old then x else old)
  | .max => some (if num x > num old then x else old)
  | .and => some (old &&& x)
  | .or => some (old ||| x)
  | .xor => some (old ^^^ x)
  | .xchg => some x
  | .cas => if old = x then some y else none

/-- A read-modify-write at its home on this device, as one indivisible step (R153, R353). -/
def State.rmwAt (s : State) (op : AtomOp) (t : ElemTy) (pa x y : Nat) : State :=
  let n := elemBits t / 8
  match rmwNew op t (s.readVal pa n) x y with
  | some v => s.performVal pa n v
  | none => s

/-- A request's atomic performs at its home on this device. -/
def State.performRmw (s : State) (w : Rmw) : State := s.rmwAt w.op w.ty w.pa w.x w.y

/-- The bytes that an atomic touches. -/
def Rmw.n (w : Rmw) : Nat := elemBits w.ty / 8

/-! ## Plain writes on their way: requests in flight (R85, R156) -/

/-- Operation tags of `tags` that no buffer line and no request still holds. -/
def State.tagLive (s : State) (t : Nat × Nat) : Bool :=
  s.inflight.any (fun r => r.tags.contains t) ||
  s.cores.vals.any (fun k => k.cb.any fun e => e.tags.contains t) ||
  s.outstanding.any (fun o => match o.who with
    | .store tags _ _ _ _ => tags.contains t
    | _ => false)

/-- Store operations all of whose lines have performed complete (R174). -/
def State.settleTags (s : State) : List (Nat × Nat) → State
  | [] => s
  | t :: ts => (if s.tagLive t then s else s.completeOn t.1 .st t.2).settleTags ts

/-- A message to another device takes the next Tolsal sequence number (R464). -/
def State.sendTo (s : State) (dev : Nat) (who : RemoteWho) (mk : Nat → TolsalMsg) : State :=
  let m := mk s.nextSeq
  { s with
    outstanding := s.outstanding ++ [⟨s.nextSeq, dev, who, m⟩]
    nextSeq := s.nextSeq + 1
    sent := s.sent ++ [.tolsal dev m] }

/-- A message to another device that is no request of this device. -/
def State.tell (s : State) (dev : Nat) (m : TolsalMsg) : State := { s with sent := s.sent ++ [.tolsal dev m] }

/-- A request performs once; its answer is kept until it is acknowledged (R464). -/
def State.answerTo (s : State) (src seq : Nat) (bs : List Byte) (bad : List Nat) : State :=
  let m : TolsalMsg := .response seq bs bad
  { s with seen := s.seen ++ [(src, seq, m)] }.tell src m

/-- Consecutive runs of a byte write. -/
def runsOf : List (Nat × Byte) → List (Nat × List Byte)
  | [] => []
  | (a, b) :: r =>
    match runsOf r with
    | (a', bs) :: rest => if a' = a + 1 then (a, b :: bs) :: rest else (a, [b]) :: (a', bs) :: rest
    | [] => [(a, [b])]

/-- A request reaches its home: on this device it performs, toward another it becomes Tolsal requests (R18, R464). -/
def State.performReq (s : State) (r : HomeReq) : State :=
  if r.dev = s.dev then
    match r.rmw with
    | some w => ((s.touchDc (w.pa / 128) ((r.types.headD (0, 0)).2) true).performRmw w).settleTags r.tags
    | none => ((s.touchWrite r.bytes r.types).perform r.bytes).settleTags r.tags
  else
    match r.rmw with
    | some w => s.sendTo r.dev (.store r.tags r.part r.core 0xFFFF w.pa) fun q =>
        .atomic s.dev q w.pa w.op w.ty (BitVec.ofNat 64 w.x) (BitVec.ofNat 64 w.y) r.level r.part
    | none => (runsOf r.bytes).foldl (fun s run =>
        s.sendTo r.dev (.store r.tags r.part r.core 0xFFFF run.1) fun q => .write s.dev q run.1 run.2 r.level r.part) s

/-- A core has sent stores to other devices that are not answered. -/
def State.remoteStores (s : State) (core : Nat) : Bool :=
  s.outstanding.any fun o => match o.who with
    | .store _ _ k _ _ => k == core
    | _ => false

/-- A core has sent stores to a device other than `dev` that are not answered. -/
def State.remoteElse (s : State) (core dev : Nat) : Bool :=
  s.outstanding.any fun o => match o.who with
    | .store _ _ k _ _ => k == core && o.dev != dev
    | _ => false

/-- The requests of a core reach their homes in the order in which they left it, so that a sett's stores appear as a group (R140) and an
atomic is before the writes that follow it (R139): one for this device waits until the core's stores to other devices are answered, one for
another device until those to every third one are. Frames to one device arrive in order (R464). -/
def State.mayPerform (s : State) (r : HomeReq) : Bool :=
  if r.dev = s.dev then !s.remoteStores r.core else !s.remoteElse r.core r.dev

/-- A core's requests in flight perform, in order, as far as they may. -/
def drainReqs (core : Nat) : List HomeReq → State → State
  | [], s => s
  | r :: rs, s =>
    if r.core = core && s.mayPerform r then drainReqs core rs (({ s with inflight := s.inflight.erase r }).performReq r)
    else if r.core = core then s
    else drainReqs core rs s

/-- Every request of a core performs, as far as it may. -/
def State.drain (s : State) (core : Nat) : State := drainReqs core s.inflight s

/-! ## The combining buffer (R79) -/

/-- Join two tag lists. -/
def joinTags (a b : List (Nat × Nat)) : List (Nat × Nat) := a ++ b.filter fun t => !a.contains t

/-- A core's buffer lines go on their way to their homes, as one request: no other party sees one of them before another (R79, R140). -/
def State.flushCb (s : State) (core : Nat) : State :=
  let k := s.core core
  match k.cb with
  | [] => s
  | e :: _ =>
    let c := s.crew (e.tags.headD (0, 0)).1
    { s with
      cores := s.cores.put core { k with cb := [] }
      inflight := s.inflight ++ [⟨core, s.dev, c.part, c.level, k.cb.flatMap (·.bytes),
        k.cb.foldl (fun t e => joinTags t e.tags) [], none,
        (k.cb.filter fun e => e.mtype != 0).map fun e => (e.line, e.mtype)⟩] }

/-- Merge bytes over a line's bytes. -/
def overlay (old new : List (Nat × Byte)) : List (Nat × Byte) := new.foldl (fun m b => Cells.insert m b.1 b.2) old

/-- Enter store bytes of one line of this device into a core's buffer; a full buffer is sent first (16 lines). -/
def State.enterCb (s : State) (core line mtype : Nat) (bs : List (Nat × Byte)) (tag : Nat × Nat) : State :=
  let k := s.core core
  if k.cb.any fun e => e.line == line then
    s.updCore core fun k => { k with
      cb := k.cb.map fun e => if e.line == line then { e with bytes := overlay e.bytes bs, tags := joinTags e.tags [tag] } else e }
  else
    let s := if k.cb.length ≥ 16 then s.flushCb core else s
    s.updCore core fun k => { k with cb := k.cb ++ [⟨s.dev, line, mtype, overlay [] bs, [tag], 0⟩] }

/-! ## Loads (R79–R81) -/

/-- The byte of an address that a core's combining buffer holds. -/
def Core.cbByte (k : Core) (dev a : Nat) : Option Byte :=
  match k.cb.find? fun e => e.dev == dev && e.line == a / 128 with
  | some e => Cells.find e.bytes a
  | none => none

/-- The byte of an address that a core's cache line holds. -/
def lineByte (ls : List Line) (dev a : Nat) : Option Byte :=
  match ls.find? fun e => e.dev == dev && e.line == a / 128 with
  | some e => e.bytes[a % 128]?
  | none => none

/-- The youngest byte of an address that a core has sent and that has not performed: a crew reads its own stores (R139). -/
def State.flightByte (s : State) (core dev a : Nat) : Option Byte :=
  let f := s.inflight.foldl (fun acc r =>
    if r.core = core && r.dev = dev then (Cells.find r.bytes a).or acc else acc) none
  f.or (s.outstanding.foldl (fun acc o =>
    match o.who, o.msg with
    | .store _ _ k _ _, .write _ _ pa bs _ _ =>
      if k = core && o.dev = dev && pa ≤ a && a < pa + bs.length then bs[a - pa]?.or acc else acc
    | _, _ => acc) none)

/-- A byte at its home on this device as a core sees it. -/
def State.homeByte (s : State) (core a : Nat) : Byte := (s.flightByte core s.dev a).getD (s.mem.read a)

/-- A byte that a plain load of a core takes from this device: the buffer first, then the L1 for normal pages, then the home. -/
def State.viewByte (s : State) (core a mtype : Nat) : Byte :=
  let k := s.core core
  match k.cbByte s.dev a with
  | some b => b
  | none =>
    match (if mtype = 0 then lineByte k.l1 s.dev a else none) with
    | some b => b
    | none => s.homeByte core a

/-- Keep a line in an L1 or instruction cache: four lines of a set, the oldest leaves (R79, R82). -/
def keepLine (ls : List Line) (l : Line) : List Line :=
  let ls := ls.filter fun e => !(e.dev == l.dev && e.line == l.line)
  let set := ls.filter fun e => e.line % 128 == l.line % 128
  let ls := if set.length ≥ 4 then
    match set with
    | e :: _ => ls.filter fun x => !(x.dev == e.dev && x.line == e.line)
    | [] => ls
    else ls
  ls ++ [l]

/-- The byte of an address as a core's own stores on their way leave it (R79, R139): the buffer's first, then the youngest in flight. -/
def State.ownByte (s : State) (core dev a : Nat) : Option Byte := ((s.core core).cbByte dev a).or (s.flightByte core dev a)

/-- A load miss allocates its line in the L1, with the core's own stores in it (R79, R139). -/
def State.fillL1 (s : State) (core dev a : Nat) : State :=
  let k := s.core core
  if dev ≠ s.dev || k.l1.any (fun e => e.dev == dev && e.line == a / 128) then s
  else
    let l : Line := ⟨dev, a / 128, (List.range 128).map fun i =>
      (k.cbByte dev (a / 128 * 128 + i)).getD (s.homeByte core (a / 128 * 128 + i)), []⟩
    s.updCore core fun k => { k with l1 := keepLine k.l1 l }

/-- The lines that a core's plain loads and prefetches have asked of other devices no longer enter its L1: those that `hit` names by device and line. -/
def State.unkeep (s : State) (core : Nat) (hit : Nat → Nat → Bool) : State :=
  { s with outstanding := s.outstanding.map fun o => match o.who, o.msg with
    | .load k sl l e a true, .read _ _ pa _ _ _ =>
      if (s.crew k).core == core && hit o.dev (pa / 128) then { o with who := .load k sl l e a false } else o
    | .pref k q op true, .read _ _ pa _ _ _ => if q == core && hit o.dev (pa / 128) then { o with who := .pref k q op false } else o
    | _, _ => o }

/-- A line leaves a core's L1: what was read before no longer stands for it (R139, R152). -/
def State.dropLine (s : State) (core dev line : Nat) : State :=
  let held := (s.core core).l1.any fun e => e.dev == dev && e.line == line
  (if held then s.updCore core fun q => { q with l1 := q.l1.filter fun e => !(e.dev == dev && e.line == line) } else s).unkeep core
    fun d l => d == dev && l == line

/-- The lines of a byte write that a party other than the core's crews makes in their name leave the L1: engines and bench nodes write at the
home (R148, R161). -/
def State.dropBytes (s : State) (core dev : Nat) (bs : List (Nat × Byte)) : State :=
  (bs.foldl (fun l b => if l.contains (b.1 / 128) then l else l ++ [b.1 / 128]) []).foldl (fun s line => s.dropLine core dev line) s

/-- A store updates the L1 copy of its line if one is present (R79). -/
def patchLines (ls : List Line) (dev : Nat) (bs : List (Nat × Byte)) : List Line :=
  ls.map fun e =>
    if e.dev == dev then
      { e with bytes := bs.foldl (fun l b => if b.1 / 128 == e.line then l.set (b.1 % 128) b.2 else l) e.bytes }
    else e

/-- Drop a core's L1 (R80): lines on their way from other devices do not enter it either. -/
def State.dropL1 (s : State) (core : Nat) : State :=
  (if (s.core core).l1.isEmpty then s else s.updCore core fun k => { k with l1 := [] }).unkeep core fun _ _ => true

/-- Is a scope wider than .core (R133)? -/
def Scope.wide : Scope → Bool
  | .crew => false
  | .gang => false
  | .core => false
  | _ => true

/-- What a release wider than .core sends and what then performs: every buffer line and every request of the core (R155). -/
def State.releaseCore (s : State) (core : Nat) : State := (s.flushCb core).drain core

/-- Stores of a core are still on their way. -/
def State.coreBusy (s : State) (core : Nat) : Bool := s.remoteStores core || s.inflight.any fun r => r.core == core

/-- Does a core hold, on its way to a home, a write to one of an address range's lines? -/
def State.holdsLines (s : State) (core dev a n : Nat) : Bool :=
  let hit := fun l => a / 128 ≤ l && l ≤ (a + n - 1) / 128
  (s.core core).cb.any (fun e => e.dev == dev && hit e.line) ||
  s.inflight.any (fun r => r.core == core && r.dev == dev && ((r.bytes.any fun b => hit (b.1 / 128)) || match r.rmw with
    | some w => hit (w.pa / 128)
    | none => false)) ||
  s.outstanding.any (fun o => match o.who, o.msg with
    | .store _ _ k _ _, .write _ _ pa bs _ _ => k == core && o.dev == dev && (hit (pa / 128) || hit ((pa + bs.length - 1) / 128))
    | .store _ _ k _ _, .atomic _ _ pa _ _ _ _ _ _ => k == core && o.dev == dev && hit (pa / 128)
    | _, _ => false)

/-- An atomic of the core to one of an address range's lines is on its way: its result is not known before it performs. -/
def State.rmwOpen (s : State) (core dev a n : Nat) : Bool :=
  let hit := fun l => a / 128 ≤ l && l ≤ (a + n - 1) / 128
  s.inflight.any (fun r => r.core == core && r.dev == dev && match r.rmw with
    | some w => hit (w.pa / 128)
    | none => false) ||
  s.outstanding.any (fun o => match o.who, o.msg with
    | .store _ _ k _ _, .atomic _ _ pa _ _ _ _ _ _ => k == core && o.dev == dev && hit (pa / 128)
    | _, _ => false)

/-- An access performed at a home comes after what its core holds for the line (R79): that is sent and performs first. -/
def State.settleLines (s : State) (core dev a n : Nat) : State := if s.holdsLines core dev a n then s.releaseCore core else s

/-! ## Bench images (R236, R244) -/

/-- A field of an image's bytes, little-endian. -/
def imgVal (img : List Byte) (a n : Nat) : Nat := leNat ((img.drop a).take n)

/-- Elements of an image. -/
def imgCount (img : List Byte) : Nat := (img.length - 64) / 160

/-- Element word of record i (R236, R244). -/
def elemWord (img : List Byte) (i : Nat) : DWord := BitVec.ofNat 64 (imgVal img (64 + 160 * i) 8)

/-- Does a QIN element of the image take entries from queue q (R236)? -/
def imgTakes (img : List Byte) (q : Nat) : Bool :=
  (List.range (imgCount img)).any fun i =>
    let w := elemWord img i
    bitsOf w 60 4 != 15 && w.getLsbD 54 && bitsOf w 50 4 == q

end Sys2Proof.Machine
end

