-- ==== Sys2Proof/Machine/Xlate.lean ====
section
/-!
DEFINITION. Sys2Proof/Machine/Xlate.lean: translation of global, private and KV addresses (R17–R49), the checks of local, yard and
token addresses (R50–R52), and the locations a SIMT access names (R346–R348).
-/
namespace Sys2Proof.Machine

/-- Kinds of access by the permission they need (R26). `valid`: the line-range instructions, which check validity only (R356). -/
inductive Acc where
  | load | store | atomic | fetch | valid
  deriving DecidableEq, Repr

/-- What a translation yields: device, device-local address and MTYPE, or a cause. -/
inductive Xl where
  | ok (dev pa mtype : Nat)
  | bad (cause : BitVec 8)
  deriving DecidableEq, Repr

/-- What a walk finds: a leaf entry and its page size in bits, or a cause. -/
inductive Leaf where
  | ok (entry : DWord) (size : Nat)
  | bad (cause : BitVec 8)
  deriving DecidableEq, Repr

/-! ## Entries (R23, R24) -/

def pteV (e : DWord) : Bool := e.getLsbD 63
def pteLeaf (e : DWord) : Bool := e.getLsbD 62
def pteMtype (e : DWord) : Nat := bitsOf e 56 3
def pteEx (e : DWord) : Bool := e.getLsbD 55
def pteWr (e : DWord) : Bool := e.getLsbD 54
def pteRd (e : DWord) : Bool := e.getLsbD 53
def ptePrv (e : DWord) : Bool := e.getLsbD 52
/-- Bits 51:8 as an address. -/
def pteAddr (e : DWord) : Nat := bitsOf e 8 44 * 256
/-- DEV of a domain physical address (R18). -/
def paDev (a : Nat) : Nat := a / 2 ^ 48 % 16
/-- Device-local part. -/
def paLocal (a : Nat) : Nat := a % 2 ^ 48

/-- Does a partition hold an HBM granule of a device (R40)? Partition 0 holds what no other partition holds. -/
def State.holds (s : State) (p dev g : Nat) : Bool :=
  if p = 0 then !(s.parts.cells.any fun e => e.1 != 0 && e.2.grants.contains (dev, g))
  else (s.part p).grants.contains (dev, g)

/-- The clusters that a partition holds on a device of the domain (R20): another device's are a free value (log 81). -/
def State.clustersOn (s : State) (p dev : Nat) : BitVec 24 :=
  if dev = s.dev then (s.part p).clusters else Config.farClusters p dev

/-- Does a partition hold the clusters of every yard or core a page of an aperture covers (R20)? -/
def State.holdsAperture (s : State) (p dev a size : Nat) : Bool :=
  let cl := s.clustersOn p dev
  if isYardAp a then cl.getLsbD (apYard a / 8)
  else (List.range (max 1 (size / 0x40000))).all fun i => cl.getLsbD (apCore (a + i * 0x40000) / 8)

/-- Is an address in an aperture of R19? -/
def isAperture (a : Nat) : Bool := isYardAp a || isLocalAp a

/-- A leaf is well formed for a page of `2 ^ size` bytes (R20, R24). -/
def State.leafOk (s : State) (p : Nat) (e : DWord) (size : Nat) : Bool :=
  let a := pteAddr e
  bitsOf e 59 3 == 0 && bitsOf e 0 8 == 0 && decide (pteMtype e ≤ 2) && a % 2 ^ size == 0 &&
  s.domain.contains (paDev a) &&
  (if isHbm (paLocal a) then s.holds p (paDev a) (granuleOf (paLocal a))
   else isAperture (paLocal a) && (size == 16 || size == 21) && pteMtype e == 2 && !pteEx e &&
     s.holdsAperture p (paDev a) (paLocal a) (2 ^ size))

/-- A pointer is well formed (R24). -/
def State.pointerOk (s : State) (e : DWord) : Bool :=
  let a := pteAddr e
  bitsOf e 52 10 == 0 && bitsOf e 0 8 == 0 && paDev a == s.dev && isHbm (paLocal a)

/-- Bits of address that an entry of a level spans: level 0 holds 64 KiB leaves; level n above it indexes 9 bits from bit 21 + 9(n − 1). -/
def levelBits : Nat → Nat
  | 0 => 16
  | n => 12 + 9 * n

/-- The entry of level `lvl` for a virtual address in the table at `table`: level 4 indexes bits 55:48 (R22). -/
def State.tableEntry (s : State) (lvl table va : Nat) : DWord :=
  s.read64 (table + 8 * (match lvl with
    | 0 => va / 2 ^ 16 % 32
    | 4 => va / 2 ^ 48 % 256
    | n => va / 2 ^ levelBits n % 512))

/-- The place of a die's walk cache among the translation caches. -/
def walkPlace (die : Nat) : Nat := 2000 + die
/-- The place of a die's KV map units. -/
def kvPlace (die : Nat) : Nat := 3000 + die

/-- A pointer of level 4 to 1 that a die's walk cache holds (R28). -/
def State.walkHit (s : State) (p die lvl va : Nat) : Option DWord :=
  (s.tlb.find? fun t => t.kind == 3 && t.place == walkPlace die && t.part == p && t.size == levelBits lvl &&
    t.page == va / 2 ^ levelBits lvl).map (·.entry)

/-- The walk from the table of level `lvl` by a die's walker (R22, R24, R25); a pointer in its walk cache saves the table read (R28). -/
def State.walkFrom (s : State) (p die : Nat) : Nat → Nat → Nat → Leaf
  | lvl, table, va =>
    let e := (if lvl = 0 then none else s.walkHit p die lvl va).getD (s.tableEntry lvl table va)
    if !pteV e then .bad cNotPresent
    else
      match lvl with
      | 0 => if pteLeaf e && s.leafOk p e 16 then .ok e 16 else .bad cProtection
      | n + 1 =>
        if pteLeaf e then
          if n + 1 ≤ 2 && s.leafOk p e (12 + 9 * (n + 1)) then .ok e (12 + 9 * (n + 1)) else .bad cProtection
        else if s.pointerOk e then s.walkFrom p die n (paLocal (pteAddr e)) va
        else .bad cProtection

/-- The pointers that a walk meets, as the walk cache takes them (R28). -/
def State.walkPointers (s : State) (p die : Nat) : Nat → Nat → Nat → List TlbEntry
  | 0, _, _ => []
  | n + 1, table, va =>
    let e := (s.walkHit p die (n + 1) va).getD (s.tableEntry (n + 1) table va)
    if pteV e && !pteLeaf e && s.pointerOk e then
      ⟨walkPlace die, p, 3, 0, va / 2 ^ levelBits (n + 1), levelBits (n + 1), e⟩ :: s.walkPointers p die n (paLocal (pteAddr e)) va
    else []

/-- A leaf that linear mode stands for (R39): normal, readable, writable and executable; uncached and not executable in an aperture. -/
def linearLeaf (va : Nat) : DWord × Nat :=
  if isAperture (paLocal va) then
    (BitVec.ofNat 64 (2 ^ 63 + 2 ^ 62 + 2 * 2 ^ 56 + 2 ^ 54 + 2 ^ 53 + va / 2 ^ 16 % 2 ^ 36 * 2 ^ 16), 16)
  else (BitVec.ofNat 64 (2 ^ 63 + 2 ^ 62 + 2 ^ 55 + 2 ^ 54 + 2 ^ 53 + va / 2 ^ 30 % 2 ^ 22 * 2 ^ 30), 30)

/-- The global walk of a partition by a die's walker (R22, R39). -/
def State.walkGlobal (s : State) (p die va : Nat) : Leaf :=
  let root := (s.part p).ptRoot
  if root.getLsbD 0 then
    if isHbm (paLocal (pteAddr root)) then s.walkFrom p die 4 (paLocal (pteAddr root)) va else .bad cProtection
  else if va / 2 ^ 52 ≠ 0 then .bad cProtection
  else
    let (e, size) := linearLeaf va
    if s.leafOk p e size then .ok e size else .bad cProtection

/-- The private walk of a crew context: the flat table at PRIV_ROOT (R47, R49). -/
def State.walkPrivate (s : State) (ctx off : Nat) : Leaf :=
  let c := s.crew ctx
  let page := off / 2 ^ 16
  if off ≥ 2 ^ 32 then .bad cProtection
  else if page < bitsOf c.privHwm 0 17 then
    let a := bitsOf c.privRoot 8 40 * 256 + 8 * page
    if !isHbm a then .bad cProtection
    else
      let e := s.read64 a
      if !pteV e then .bad cNotPresent
      else if pteLeaf e && s.leafOk c.part e 16 then .ok e 16
      else .bad cProtection
  else if page < bitsOf c.privLimit 0 17 then .bad cPrivateGrow
  else .bad cProtection

/-- First address of the private window (R17). -/
def privBase : Nat := 0xFF000000000000

/-- The translation caches that a request passes, in order (R28): its core's micro-TLB and its cluster's TLB. A unit of a die or of the hub
die, whose requests carry no crew context, has only the walker. -/
def State.tlbPlaces (s : State) (ctx : Nat) : List Nat :=
  if ctx ≥ 2 ^ 14 then [] else [(s.crew ctx).core, 1000 + clusterOf (s.crew ctx).core]

/-- The die whose walker serves a request. -/
def State.walkDie (s : State) (ctx : Nat) : Nat := if ctx ≥ 2 ^ 14 then 0 else dieOf (s.crew ctx).core

/-- A leaf cached in one place: global entries by partition, private ones by crew context too (R28). -/
def State.tlbAt (s : State) (place p ctx va : Nat) : Option TlbEntry :=
  let priv := decide (va ≥ privBase)
  s.tlb.find? fun t => t.place == place && t.part == p &&
    (if priv then t.kind == 2 && t.ctx == ctx && t.page == (va - privBase) / 2 ^ 16
     else t.kind == 0 && t.page == va / 2 ^ t.size)

/-- A cached leaf: the micro-TLB's before the cluster's. -/
def State.tlbFind (s : State) (p ctx va : Nat) : Option (DWord × Nat) :=
  ((s.tlbPlaces ctx).findSome? fun q => s.tlbAt q p ctx va).map fun t => (t.entry, t.size)

/-- The leaf of a virtual address: cached, or walked. -/
def State.leafOf (s : State) (p ctx va : Nat) : Leaf :=
  match s.tlbFind p ctx va with
  | some (e, size) => .ok e size
  | none => if va ≥ privBase then s.walkPrivate ctx (va - privBase) else s.walkGlobal p (s.walkDie ctx) va

/-- Entries of a translation cache (R28). A KV map unit's number is not given (log 82). -/
def tlbCap (place : Nat) : Nat := if place < 1000 then 256 else if place < 2000 then 4096 else if place < 3000 then 512 else 4096

/-- An entry enters its cache: a full one gives up the entry that came first (log 82). -/
def putTlb (ts : List TlbEntry) (t : TlbEntry) : List TlbEntry :=
  if ts.contains t then ts
  else
    let mine := ts.filter fun e => e.place == t.place
    (if mine.length ≥ tlbCap t.place then
      match mine with
      | e :: _ => ts.erase e
      | [] => ts
      else ts) ++ [t]

/-- A walk's pointers and leaf are cached (R28). -/
def State.tlbFill (s : State) (p ctx va : Nat) : State :=
  match s.leafOf p ctx va with
  | .bad _ => s
  | .ok e size =>
    let root := (s.part p).ptRoot
    let ptrs := if (s.tlbFind p ctx va).isSome || decide (va ≥ privBase) || !root.getLsbD 0 then []
      else s.walkPointers p (s.walkDie ctx) 4 (paLocal (pteAddr root)) va
    let leaf := fun q : Nat => if va ≥ privBase then (⟨q, p, 2, ctx, (va - privBase) / 2 ^ 16, 16, e⟩ : TlbEntry)
      else ⟨q, p, 0, 0, va / 2 ^ size, size, e⟩
    let new := (s.tlbPlaces ctx).filter fun q => (s.tlbAt q p ctx va).isNone
    if ptrs.isEmpty && new.isEmpty then s
    else { s with tlb := (ptrs ++ new.map leaf).foldl putTlb s.tlb }

/-- Does a leaf permit an access at a privilege level (R26)? -/
def leafAllows (e : DWord) (a : Acc) (level : Bool) : Bool :=
  match a with
  | .valid => true
  | .load => pteRd e && (level || !ptePrv e)
  | .store => pteWr e && (level || !ptePrv e)
  | .atomic => pteRd e && pteWr e && (level || !ptePrv e)
  | .fetch => pteEx e && (level || !ptePrv e)

/-- Translation of a global virtual address below 2⁵⁶. `engine`: aperture leaves serve engine requests only (R20). -/
def State.xlat (s : State) (p ctx : Nat) (level engine : Bool) (a : Acc) (va : Nat) : Xl :=
  match s.leafOf p ctx va with
  | .bad cause => .bad cause
  | .ok e size =>
    let pa := pteAddr e + va % 2 ^ size
    if !leafAllows e a level then .bad cProtection
    else if isAperture (paLocal pa) && !engine then .bad cProtection
    else .ok (paDev pa) (paLocal pa) (pteMtype e)

/-! ## KV space (R42–R46) -/

/-- A KV address through the descriptor and the two table levels, each read at its home (R42–R45). A descriptor array that lies outside the HBM
ranges gives PROTECTION, and its granule is not checked against the partition's grant: the spec states neither (log 83). -/
def State.kvWalk (s : State) (p : Nat) (handle : Word) (off : Nat) (write : Bool) : Xl :=
  let base := (s.part p).kvdesc
  let log2n := bitsOf base 56 8
  let gen := bitsOf handle 24 8
  let idx := bitsOf handle 0 24
  if gen = 0 || log2n = 0 || idx ≥ 2 ^ log2n then .bad cProtection
  else
    let da := bitsOf base 5 43 * 32 + 32 * idx
    let lo := s.read64 da
    let hi := s.read64 (da + 8)
    let l1 := bitsOf lo 12 40 * 4096
    let sz := 13 + bitsOf hi 48 2
    let limit := bitsOf hi 0 20
    if !isHbm da || !lo.getLsbD 63 || bitsOf hi 56 8 ≠ gen then .bad cProtection
    else if bitsOf lo 52 11 ≠ 0 || bitsOf lo 0 12 ≠ 0 || bitsOf hi 20 28 ≠ 0 || bitsOf hi 50 6 ≠ 0 || limit > 2 ^ (32 - sz) ||
        paDev l1 ≠ s.dev || !isHbm (paLocal l1) || !s.holds p s.dev (granuleOf (paLocal l1)) then .bad cProtection
    else
      let page := off / 2 ^ sz
      if page ≥ limit then .bad cKvMiss
      else
        let e1 := s.read64 (paLocal l1 + 8 * (page / 512))
        let next := bitsOf e1 12 40 * 4096
        if !e1.getLsbD 63 then .bad cKvMiss
        else if bitsOf e1 52 11 ≠ 0 || bitsOf e1 0 12 ≠ 0 || paDev next ≠ s.dev || !isHbm (paLocal next) ||
            !s.holds p s.dev (granuleOf (paLocal next)) then .bad cProtection
        else
          let e2 := s.read64 (paLocal next + 8 * (page % 512))
          let pg := bitsOf e2 13 39 * 8192
          if !e2.getLsbD 63 then .bad cKvMiss
          else if bitsOf e2 52 10 ≠ 0 || bitsOf e2 0 13 ≠ 0 || pg % 2 ^ sz ≠ 0 || !s.domain.contains (paDev pg) ||
              !isHbm (paLocal pg) || !s.holds p (paDev pg) (granuleOf (paLocal pg)) then .bad cProtection
          else if write && !e2.getLsbD 62 then .bad cProtection
          else .ok (paDev pg) (paLocal pg + off % 2 ^ sz) 1

/-- A KV page that a die's KV map units hold. -/
def State.kvAt (s : State) (p die : Nat) (handle : Word) (off : Nat) : Option TlbEntry :=
  s.tlb.find? fun t => t.kind == 1 && t.place == kvPlace die && t.part == p && t.ctx == handle.toNat && t.page == off / 2 ^ t.size

/-- A KV address translated, through the cache of a die's KV map units (R46): `kind` 1 holds the page's address and WR. -/
def State.kvXlat (s : State) (p die : Nat) (handle : Word) (off : Nat) (write : Bool) : Xl :=
  match s.kvAt p die handle off with
  | some t =>
    if write && !t.entry.getLsbD 62 then .bad cProtection
    else .ok (paDev (bitsOf t.entry 0 52)) (paLocal (bitsOf t.entry 0 52) + off % 2 ^ t.size) 1
  | none => s.kvWalk p handle off write

/-- Cache a KV page (8 KiB parts, the least page size). -/
def State.kvFill (s : State) (p die : Nat) (handle : Word) (off : Nat) : State :=
  match s.kvXlat p die handle off false with
  | .ok dev pa _ =>
    if (s.kvAt p die handle off).isSome then s
    else
      let wr := match s.kvWalk p handle off true with
        | .ok _ _ _ => 2 ^ 62
        | .bad _ => 0
      let t : TlbEntry := ⟨kvPlace die, p, 1, handle.toNat, off / 8192, 13, BitVec.ofNat 64 (wr + dev * 2 ^ 48 + (pa - off % 8192))⟩
      { s with tlb := putTlb s.tlb t }
  | .bad _ => s

/-! ## Locations of a SIMT access -/

/-- What a lane's address names: a location, or the cause and fault address its check reports (R348). -/
inductive Res where
  | ok (l : Loc)
  | bad (cause : BitVec 8) (addr : DWord)
  deriving DecidableEq, Repr

/-- A global or private address (R346, R17, R32). -/
def State.resGlobal (s : State) (c : Crew) (ctx : Nat) (a : Acc) (sum : Int) (n : Nat) : Res :=
  let w := BitVec.ofInt 64 sum
  if sum < 0 || sum ≥ 2 ^ 56 then .bad cProtection w
  else if sum.toNat % n ≠ 0 then .bad cAlign w
  else
    match s.xlat c.part ctx c.level false a sum.toNat with
    | .ok dev pa mt => .ok ⟨.global, sum.toNat, dev, pa, mt⟩
    | .bad cause => .bad cause w

/-- A gang's local allocation in bytes (R192, R50). -/
def Gang.localSize (g : Gang) : Nat := bitsOf g.lrec 27 9 * 1024

/-- A local address (R50). -/
def State.resLocal (s : State) (c : Crew) (sum : Int) (n : Nat) : Res :=
  let g := s.gang c.gang
  let w := BitVec.ofInt 64 sum
  if sum < 0 || sum ≥ 2 ^ 32 then .bad cProtection w
  else if sum.toNat % n ≠ 0 then .bad cAlign w
  else if sum.toNat + n > g.localSize then .bad cProtection w
  else .ok ⟨.localMem, sum.toNat, s.dev, localAp c.core + g.localBase + sum.toNat, 2⟩

/-- Yard grant j of a launch record: die and yard, when present (R192). -/
def grantOf (lrec : BitVec 4096) (j : Nat) : Option (Nat × Nat) :=
  let w := lrec.extractLsb' (2048 + 64 * j) 64
  if w.getLsbD 63 then some (bitsOf w 6 2, bitsOf w 0 6) else none

/-- Yard grants of a launch record by device yard. -/
def grantedYards (lrec : BitVec 4096) : List Nat :=
  (List.range 4).filterMap fun j =>
    match grantOf lrec j with
    | some (d, y) => some (d * 48 + y)
    | none => none

/-- The mode word of an address generator of a granted yard (R192). -/
def modeWord (lrec : BitVec 4096) (j ag : Nat) : DWord := lrec.extractLsb' (2304 + 64 * (4 * j + ag)) 64

/-- Device yard and offset of a yard address, when it names a yard (R51). -/
def yardParts (a : Nat) : Option (Nat × Nat) :=
  if a / 2 ^ 24 % 64 ≥ 48 || a / 2 ^ 21 % 8 ≠ 0 then none
  else some (a / 2 ^ 30 % 4 * 48 + a / 2 ^ 24 % 64, a % 2 ^ 21)

/-- A yard address (R51). -/
def State.resYard (s : State) (c : Crew) (sum : Int) (n : Nat) : Res :=
  let w := BitVec.ofInt 64 sum
  if sum < 0 || sum ≥ 2 ^ 32 then .bad cProtection w
  else if sum.toNat % n ≠ 0 then .bad cAlign w
  else
    match yardParts sum.toNat with
    | some (y, off) =>
      if (grantedYards (s.gang c.gang).lrec).contains y then .ok ⟨.yard, sum.toNat, s.dev, yardAp y + off, 2⟩
      else .bad cProtection w
    | none => .bad cProtection w

/-- Key of a token record in the pool. -/
def tokKey (handle : Word) : Nat := bitsOf handle 15 2 * 32768 + bitsOf handle 0 15

/-- The current generation of a slot: 1 until it is freed first (R491). -/
def TokSlot.genNow (t : TokSlot) : Nat := if t.gen = 0 then 1 else t.gen

/-- Does a handle name a record of this device by its current generation (R52)? -/
def State.tokLive (s : State) (handle : Word) : Bool :=
  bitsOf handle 24 4 != 0 && bitsOf handle 24 4 == (s.pool.get (tokKey handle)).genNow && bitsOf handle 28 4 == s.dev &&
  bitsOf handle 17 7 == 0

/-- A token address (R346, R52): `off` is the sum without BASE. -/
def State.resToken (s : State) (handle : Word) (off : Int) (n : Nat) : Res :=
  let w := BitVec.ofInt 64 off
  if off < 0 || off > 128 - (n : Int) then .bad cProtection w
  else if off.toNat % n ≠ 0 then .bad cAlign w
  else if s.tokLive handle then .ok ⟨.token, off.toNat, s.dev, tokKey handle, 2⟩
  else .bad cProtection w

/-- A KV address (R346, R45). -/
def State.resKv (s : State) (c : Crew) (handle : Word) (off : Int) (n : Nat) : Res :=
  let w := BitVec.ofInt 64 off
  if off < 0 || off ≥ 2 ^ 32 then .bad cProtection w
  else if off.toNat % n ≠ 0 then .bad cAlign w
  else
    match s.kvXlat c.part (dieOf c.core) handle off.toNat false with
    | .ok dev pa mt => .ok ⟨.kv, off.toNat, dev, pa, mt⟩
    | .bad cause => .bad cause w

/-- The first lane whose address fails: lane, cause, fault address (R348). -/
def firstBad : List (Nat × Res) → Option (Nat × BitVec 8 × DWord)
  | [] => none
  | (l, .bad cause a) :: _ => some (l, cause, a)
  | (_, .ok _) :: r => firstBad r

/-- The locations of the lanes that have one. -/
def goodLocs : List (Nat × Res) → List (Nat × Loc)
  | [] => []
  | (l, .ok x) :: r => (l, x) :: goodLocs r
  | (_, .bad _ _) :: r => goodLocs r

/-- Cache the translations of global locations. -/
def State.fillTlbs (s : State) (p ctx : Nat) (ls : List (Nat × Loc)) : State :=
  ls.foldl (fun s l => match l.2.space with
    | .global => s.tlbFill p ctx l.2.addr
    | _ => s) s

end Sys2Proof.Machine
end

