-- ==== Sys2Proof/Machine/Ops.lean ====
section
/-!
DEFINITION. Sys2Proof/Machine/Ops.lean: the operations that many meanings share: fault records (R442, R443), instruction fetch and the
checks of a transfer address (R82, R293), discarding a sett (R200), paths and call groups (R203, R204, R297–R302), gang barriers
(R145–R147), the end of a crew and of a gang (R198, R199), taking a trap and returning from it (R437–R440).
-/
namespace Sys2Proof.Machine

/-! ## Fault records (R442) -/

/-- A fault record without SEQ: its fields as R442 names them. -/
def faultRec (cause : BitVec 8) (flags part die core unit ctx fqe aux : Nat) (addr : DWord) : BitVec 256 :=
  BitVec.ofNat 256 (cause.toNat * 2 ^ 88 + flags % 256 * 2 ^ 96 + part % 16 * 2 ^ 104 + die % 4 * 2 ^ 110 +
    core % 256 * 2 ^ 112 + unit % 256 * 2 ^ 120 + ctx % 65536 * 2 ^ 128 + fqe % 65536 * 2 ^ 144 + aux % 2 ^ 32 * 2 ^ 160 +
    addr.toNat * 2 ^ 192)

/-- FLAGS bits of a record. -/
def fgRecovered : Nat := 1
def fgWrite : Nat := 2
def fgAtomic : Nat := 4
def fgRemote : Nat := 8
def fgDouble : Nat := 16
def fgBench : Nat := 32

/-- Room in a die's record buffer of 64 entries (R443). -/
def State.recRoom (s : State) (die n : Nat) : Bool := (s.die die).recs.length + n ≤ 64

/-- A record enters its die's record buffer; none is kept for a partition that does not exist (R453). -/
def State.emit (s : State) (die part : Nat) (r : BitVec 256) : State :=
  if !(s.part part).present then s
  else s.updDie die fun d => { d with recs := d.recs ++ [⟨part, r, false⟩] }

/-! ## Instruction fetch (R82, R83, R32) -/

/-- What a fetch of one word gives: the word, a line of another device that must come first, or a fault. -/
inductive FetchR where
  | word (w : DWord)
  | wait (dev line : Nat)
  | bad (cause : BitVec 8)
  deriving DecidableEq, Repr

/-- Word i of 16 of a code line. -/
def lineWord (bs : List Byte) (i : Nat) : DWord := BitVec.ofNat 64 (leNat ((bs.drop (8 * i)).take 8))

/-- The key of a code line: device × 2⁴¹ + line. -/
def lineKey (dev line : Nat) : Nat := dev * 2 ^ 41 + line

/-- A line that an instruction cache holds. -/
def Core.codeLine (q : Core) (dev line : Nat) : Option Line := q.icache.find? fun e => e.dev == dev && e.line == line

/-- Word i of 16 of a line whose poisoned 4-byte words are `bad` (R91). -/
def wordOf (w : DWord) (bad : List Nat) (i : Nat) : FetchR := if bad.any fun b => b / 2 == i then .bad cUncorrectable else .word w

/-- The sett that a fetch buffer holds for a header's place. -/
def Crew.buffered (c : Crew) (dev pa : Nat) : Option FetchSett := c.fetch.find? fun f => f.key == dev * 2 ^ 48 + pa

/-- The word at a code address, as the crew fetches it for the sett at `pc`: of the fetch buffer when that holds the sett, else from the
instruction cache, else from the home (R82, R83). -/
def State.fetchAt (s : State) (k : Nat) (level : Bool) (pc va : Nat) : FetchR :=
  let c := s.crew k
  match s.xlat c.part k level false .fetch va with
  | .bad cause => .bad cause
  | .ok dev pa _ =>
    let mine := match s.xlat c.part k level false .fetch pc with
      | .ok d a _ => c.buffered d a
      | .bad _ => none
    match mine.bind fun f => f.lines.find? fun l => l.line == lineKey dev (pa / 128) with
    | some f => wordOf (f.words.getD (pa % 128 / 8) 0) f.bad (pa % 128 / 8)
    | none =>
      match (s.core c.core).codeLine dev (pa / 128) with
      | some e => wordOf (lineWord e.bytes (pa % 128 / 8)) e.bad (pa % 128 / 8)
      | none =>
        if dev ≠ s.dev then .wait dev (pa / 128)
        else if (s.poisonedIn (pa / 8 * 8) 8).isSome then .bad cUncorrectable
        else .word (s.read64 (pa / 8 * 8))

/-- The header word at a code address. -/
def State.fetchWord (s : State) (k : Nat) (level : Bool) (va : Nat) : FetchR := s.fetchAt k level va va

/-- The poisoned 4-byte words of a line of this device. -/
def State.lineBad (s : State) (line : Nat) : List Nat :=
  (s.poison.filter fun w => w / 32 == line).map (· % 32)

/-- A code line as it stands in a core's instruction cache or at its home on this device. -/
def State.codeAt (s : State) (core dev line : Nat) : Option Line :=
  ((s.core core).codeLine dev line).or
    (if dev = s.dev then some ⟨dev, line, s.mem.readList (line * 128) 128, s.lineBad line⟩ else none)

/-- The line of a code address is kept in the instruction cache, with its poison (R82, R91). -/
def State.keepCode (s : State) (k : Nat) (level : Bool) (va : Nat) : State :=
  let c := s.crew k
  match s.xlat c.part k level false .fetch va with
  | .bad _ => s
  | .ok dev pa _ =>
    if ((s.core c.core).codeLine dev (pa / 128)).isSome then s.tlbFill c.part k va
    else
      match s.codeAt c.core dev (pa / 128) with
      | some l => ((s.tlbFill c.part k va).touchDc (pa / 128) 0 false).updCore c.core fun q => { q with icache := keepLine q.icache l }
      | none => s

/-! ## The fetch buffer (R82, R359) -/

/-- Setts that a crew's fetch buffer holds. -/
def fetchSetts : Nat := 8

/-- The lines of n words from a code address, none when one does not translate or is not at hand: a prefetch never faults (R31). -/
def State.codeLines (s : State) (k : Nat) (level : Bool) (va : Nat) : Nat → Option (List FetchLine)
  | 0 => some []
  | n + 1 =>
    let c := s.crew k
    match s.xlat c.part k level false .fetch va, s.codeLines k level (va + 8) n with
    | .ok dev pa _, some r =>
      if r.any fun l => l.line == lineKey dev (pa / 128) then some r
      else
        match s.codeAt c.core dev (pa / 128) with
        | some l => some (⟨lineKey dev (pa / 128), (List.range 16).map (lineWord l.bytes), l.bad⟩ :: r)
        | none => none
    | _, _ => none

/-- The sett at a code address as the fetch buffer takes it: as it stands there already, else read now. -/
def State.prefetchSett (s : State) (k : Nat) (level : Bool) (pc : Nat) : Option FetchSett :=
  match s.xlat (s.crew k).part k level false .fetch pc, s.fetchWord k level pc with
  | .ok dev pa _, .word w =>
    match (s.crew k).buffered dev pa with
    | some f => some f
    | none =>
      if !isHeader w then none
      else
        let n := (Header.ofWord w).nm1.toNat + 1
        (s.codeLines k level pc (n + 1)).map fun ls => ⟨dev * 2 ^ 48 + pa, n, ls⟩
  | _, _ => none

/-- The setts that follow an address, as many as can be had. -/
def State.settsFrom (s : State) (k : Nat) (level : Bool) (pc : Nat) : Nat → List FetchSett
  | 0 => []
  | n + 1 =>
    match s.prefetchSett k level pc with
    | some f => f :: s.settsFrom k level (pc + 8 * (f.slots + 1)) n
    | none => []

/-- The fetch buffer while a sett runs: the setts that its branch names, then those that follow it, up to 8; every other one leaves it. Which
are prefetched, and which leave a full buffer, the spec leaves open (log 79). -/
def State.prefetch (s : State) (k : Nat) (level : Bool) (fall : Nat) (branch : Option Nat) : State :=
  let named := (branch.bind (s.prefetchSett k level)).toList
  let next := s.settsFrom k level fall (fetchSetts - named.length)
  s.updCrew k fun c => { c with fetch := named ++ next.filter fun f => !named.contains f }

/-- Ask another device for a code line; its answer fills the instruction cache. Slot 63 stands for the fetch. -/
def State.askCode (s : State) (k dev line : Nat) : State :=
  let c := s.crew k
  let asked := s.outstanding.any fun o => match o.who with
    | .load crew 63 _ _ _ _ => crew == k && o.dev == dev
    | _ => false
  if asked then s
  else s.sendTo dev (.load k 63 line c.epoch 0 false) fun q => .read s.dev q (line * 128) 128 c.level c.part

/-! ## Addresses of transfer (R293) -/

/-- What a transfer address checks to. -/
inductive TgtR where
  | ok
  | wait (dev line : Nat)
  | bad (cause : BitVec 8)
  deriving DecidableEq, Repr

/-- Steps 1–3 of R293, and step 4 for a call target. -/
def State.checkTarget (s : State) (k : Nat) (level call : Bool) (a : DWord) : TgtR :=
  if bitsOf a 56 8 ≠ 0 || bitsOf a 0 3 ≠ 0 then .bad cBadTarget
  else
    match s.fetchWord k level a.toNat with
    | .bad cause => .bad cause
    | .wait dev line => .wait dev line
    | .word w =>
      if !isHeader w then .bad cBadTarget
      else if call && !(Header.ofWord w).func then .bad cBadTarget
      else .ok

/-- A number put into its place in a rising list, once. -/
def insertAsc (n : Nat) : List Nat → List Nat
  | [] => [n]
  | m :: r => if n < m then n :: m :: r else if n = m then m :: r else m :: insertAsc n r

/-- Distinct addresses in ascending order. -/
def ascending (as : List DWord) : List DWord :=
  (as.foldl (fun l a => insertAsc a.toNat l) []).map fun n => BitVec.ofNat 64 n

/-- The first failure of the checks of R293 over addresses in ascending order; `call` says which are call targets. -/
def State.checkTargets (s : State) (k : Nat) (level : Bool) (call : DWord → Bool) : List DWord → TgtR × DWord
  | [] => (.ok, 0)
  | a :: r =>
    match s.checkTarget k level (call a) a with
    | .ok => s.checkTargets k level call r
    | x => (x, a)

/-! ## Discarding a sett (R200) -/

/-- Entries that return to a queue in their original order. -/
def Queue.giveBack (q : Queue) (es : List (Nat × DWord)) : Queue :=
  { q with entries := es.foldl (fun l e => Cells.insert l e.1 e.2) q.entries }

/-- The reserved entries of a sett return to the queues of its core. -/
def returnEntries (k : Core) (t : Sett) : Core :=
  let qs := t.popList.foldl (fun qs p => qs.upd p.2.1 fun q => { q.giveBack [(p.2.2.1, p.2.2.2)] with popRes := q.popRes - 1 }) k.queues
  { k with queues := t.pushRes.foldl (fun qs p => qs.upd p.2 fun q => { q with pushRes := q.pushRes - 1 }) qs }

/-- A sett is discarded: nothing it did stands; what returns to it later carries an old epoch (R200, R338). -/
def State.discard (s : State) (k : Nat) : State :=
  let c := s.crew k
  if c.sett.phase == .idle then s
  else
    let s := s.updCore c.core fun q => returnEntries q c.sett
    { s.updCrew k fun c => { c with sett := default, epoch := c.epoch + 1 } with
      regs := s.regs.filter fun r => r.crew != k
      queueWaits := s.queueWaits.mapVals fun l => l.filter (· != k) }

/-! ## Paths (R203, R204, R297) -/

/-- Join masks of two merged paths. -/
def joinUnion : Option Word → Option Word → Option Word
  | none, b => b
  | a, none => a
  | some a, some b => some (a ||| b)

/-- Put a path behind those before it, merging it into one with the same PC (R203). -/
def mergeInto : List Path → Path → List Path
  | [], p => [p]
  | q :: r, p =>
    if q.pc = p.pc then { q with mask := q.mask ||| p.mask, join := joinUnion q.join p.join, run := 0 } :: r
    else q :: mergeInto r p

/-- Paths with equal PCs merge; the merged path takes the earlier position (R203). -/
def mergePaths (ps : List Path) : List Path := ps.foldl mergeInto []

/-- Is a path ready (R297)? A join-waiting path waits for the lanes of its mask that lie on another path and have not exited. -/
def pathReady (exited : Word) (ps : List Path) (p : Path) : Bool :=
  match p.join with
  | none => true
  | some m =>
    let others := (ps.filter fun q => q.pc != p.pc || q.mask != p.mask).foldl (fun a q => a ||| q.mask) 0
    m &&& others &&& ~~~exited == 0

/-- The head moves to the back (R204). -/
def rotate : List Path → List Path
  | [] => []
  | p :: r => r ++ [{ p with run := 0 }]

/-- The list with the next ready path at its head, its wait at the JOIN over; nothing when no path is ready. -/
def selectReady (exited : Word) : Nat → List Path → Option (List Path)
  | 0, _ => none
  | n + 1, ps =>
    match ps with
    | [] => none
    | p :: r => if pathReady exited ps p then some ({ p with join := none } :: r) else selectReady exited n (r ++ [p])

/-- Live lanes: on paths, in pending lists or in return sets (R299). -/
def Crew.live (c : Crew) : Word :=
  let onPaths := c.paths.foldl (fun a p => a ||| p.mask) (0 : Word)
  c.groups.foldl (fun a g => a ||| g.ret ||| g.pending.foldl (fun a p => a ||| p.2) (0 : Word)) onPaths

/-- Call groups by falling id: the innermost stand first. -/
def insertGroup (g : CallGroup) : List CallGroup → List CallGroup
  | [] => [g]
  | h :: r => if g.id > h.id then g :: h :: r else h :: insertGroup g r

/-- A group none of whose members lies on a path advances (R302): the next pending set becomes a path, or the return set does and
the group ends. The path counts its setts on from those that led to it, since nothing reconverged (R204). -/
def advanceGroup (run : Nat) (c : Crew) (g : CallGroup) : Crew :=
  let others := c.groups.filter fun h => h.id != g.id
  match g.pending with
  | (t, m) :: r =>
    if m == 0 then { c with groups := insertGroup { g with pending := r } others }
    else { c with paths := ⟨t, m, none, run⟩ :: c.paths, groups := insertGroup { g with pending := r } others }
  | [] =>
    { c with
      paths := if g.ret == 0 then c.paths else ⟨g.ra, g.ret, none, run⟩ :: c.paths
      groups := others }

/-- The innermost group that must advance: one without a member on a path (R302). A lane that waits in an inner group when the group ends is in it no
more (log 84). -/
def stalledGroup (c : Crew) : Option CallGroup :=
  let onPaths := c.paths.foldl (fun a p => a ||| p.mask) (0 : Word)
  c.groups.find? fun g => g.members &&& onPaths == 0

/-- Groups advance at once, as long as one must. -/
def advanceGroups (run : Nat) : Nat → Crew → Crew
  | 0, c => c
  | n + 1, c =>
    match stalledGroup c with
    | some g => advanceGroups run n (advanceGroup run c g)
    | none => c

/-- Fuel that suffices: each advance consumes a pending set or a group. -/
def groupFuel (c : Crew) : Nat := c.groups.foldl (fun a g => a + g.pending.length + 1) 0

/-- Call depth of a lane (R300). -/
def Crew.depth (c : Crew) (l : Nat) : Nat := (c.groups.filter fun g => g.inside.getLsbD l).length

/-- Ending lanes leave their path, call groups and JOIN masks (R299). -/
def Crew.endLanes (c : Crew) (m : Word) : Crew :=
  { c with
    exited := c.exited ||| m
    paths := (c.paths.map fun p => { p with mask := p.mask &&& ~~~m, join := p.join.map (· &&& ~~~m) }).filter fun p => p.mask != 0
    groups := c.groups.map fun g => { g with
      members := g.members &&& ~~~m, inside := g.inside &&& ~~~m, ret := g.ret &&& ~~~m
      pending := g.pending.map fun p => (p.1, p.2 &&& ~~~m) } }

/-! ## Gang barriers (R145–R147) -/

/-- Crews of a gang that are attached to it, by context number. -/
def State.gangCrews (s : State) (g : Nat) : List Nat := (s.gang g).crews.vals

/-- Held arrivals of a barrier become counted in the phase that begins. -/
def State.countHeld (s : State) (g k ph : Nat) : State :=
  (s.gangCrews g).foldl (fun s x => s.updCrew x fun c =>
    let b := c.bars.get k
    if b.holds then { c with bars := c.bars.put k { b with holds := false, arrivedIn := some ph } } else c) s

/-- CheckComplete of R145. A phase that begins with every member already arrived completes too; the one after it cannot. -/
def State.checkBar (s : State) (g k : Nat) : Nat → State
  | 0 => s
  | n + 1 =>
    let b := (s.gang g).bars.get k
    if b.members > 0 && (b.arrived : Int) = b.members then
      let s := s.updGang g fun x => { x with bars := x.bars.put k ⟨b.phase + 1, b.members + b.delta, 0, b.held, 0⟩ }
      (s.countHeld g k (b.phase + 1)).checkBar g k n
    else s

/-- Would Arrive hold this arrival (R145)? -/
def State.arrivesHeld (s : State) (k b : Nat) : Bool :=
  let c := s.crew k
  let ph := ((s.gang c.gang).bars.get b).phase
  let cb := c.bars.get b
  decide (cb.first > ph) || cb.arrivedIn == some ph

/-- Arrive of R145. -/
def State.arrive (s : State) (k b : Nat) : State :=
  let c := s.crew k
  let ph := ((s.gang c.gang).bars.get b).phase
  let held := s.arrivesHeld k b
  let s := s.updCrew k fun c =>
    let x := c.bars.get b
    { c with bars := c.bars.put b (if held then { x with holds := true } else { x with arrivedIn := some ph }) }
  let s := s.updGang c.gang fun g =>
    let x := g.bars.get b
    { g with bars := g.bars.put b (if held then { x with held := x.held + 1 } else { x with arrived := x.arrived + 1 }) }
  s.checkBar c.gang b 3

/-- Leave of R147, on one barrier. -/
def State.leaveBar (s : State) (k b : Nat) : State :=
  let c := s.crew k
  let g := c.gang
  let ph := ((s.gang g).bars.get b).phase
  let x := c.bars.get b
  let counts := decide (x.first ≤ ph) && x.arrivedIn != some ph
  let s := s.updCrew k fun c => { c with
    bars := c.bars.put b { x with holds := false, arrivedIn := if counts then some ph else x.arrivedIn } }
  let s := s.updGang g fun w =>
    let y := w.bars.get b
    { w with bars := w.bars.put b { y with
        arrived := if counts then y.arrived + 1 else y.arrived
        held := if x.holds then y.held - 1 else y.held
        delta := y.delta - 1 } }
  s.checkBar g b 3

/-- Leave of R147, on every barrier of the gang. -/
def State.leaveAll (s : State) (k : Nat) : State := (List.range 16).foldl (fun s b => s.leaveBar k b) s

/-- CREW.JOIN on one barrier (R146). -/
def State.joinBar (s : State) (k b : Nat) : State :=
  let c := s.crew k
  let ph := ((s.gang c.gang).bars.get b).phase
  let s := s.updCrew k fun c => { c with bars := c.bars.put b ⟨ph + 1, none, false⟩ }
  s.updGang c.gang fun w => { w with bars := w.bars.upd b fun y => { y with delta := y.delta + 1 } }

/-- CREW.JOIN on every barrier. -/
def State.joinAll (s : State) (k : Nat) : State :=
  (List.range 16).foldl (fun s b => s.joinBar k b) (s.updCrew k fun c => { c with member := true })

/-- Has the phase of the crew's arrival on a barrier completed, with no arrival held (R361)? -/
def State.barPassed (s : State) (k b : Nat) : Bool :=
  let c := s.crew k
  let x := c.bars.get b
  !x.holds && (match x.arrivedIn with
    | some n => decide (n < ((s.gang c.gang).bars.get b).phase)
    | none => true)

/-- Member count of a gang. -/
def State.memberCount (s : State) (g : Nat) : Nat := ((s.gangCrews g).filter fun k => (s.crew k).member).length

/-! ## Token records (R52, R395) -/

/-- Freeing a record advances its generation: 1 to 15 and then 1 again (R52). -/
def nextGen (g : Nat) : Nat := if g ≥ 15 then 1 else g + 1

/-- A pool slot is freed. -/
def State.freeToken (s : State) (key : Nat) : State :=
  { s with pool := s.pool.upd key fun t => { t with used := false, gen := nextGen t.genNow } }

/-! ## The end of crews and gangs (R198, R199, R220) -/

/-- A grantee releases a yard; with its last grantee the configuration goes (R66). -/
def Yard.release (y : Yard) (g : Bool × Nat) : Yard :=
  let gs := y.grants.filter (· != g)
  if gs.isEmpty then { y with grants := [], configured := false, modes := [], regions := Tbl.empty } else { y with grants := gs }

/-- A grantee releases every yard. -/
def State.releaseYards (s : State) (g : Bool × Nat) : State :=
  { s with yards := s.yards.mapVals fun y => if y.grants.contains g then y.release g else y }

/-- Rows that a dispatched gang never released are freed, each with a record (R397, R444). -/
def State.freeRows (s : State) (g k : Nat) : State :=
  let w := s.gang g
  (w.rows.filter fun r => !r.released).foldl (fun s r =>
    (s.freeToken (tokKey r.handle)).emit (dieOf w.core) w.part
      (faultRec cRowFreed 0 w.part (dieOf w.core) w.core 0 k 0xFFFF r.handle.toNat 0)) s

/-- Does anything dispatched under a die's operator table of generation `gen` still run or wait (R66)? -/
def State.tableUsed (s : State) (die gen : Nat) : Bool :=
  s.gangs.vals.any (fun w => w.live && w.opSel.map (·.1) == some die && w.tableGen == gen) ||
  s.dies.vals.any (fun d => d.placeq.any fun r => match r with
    | .batt job => job.die == die && job.gen == gen
    | _ => false) ||
  s.lends.vals.any fun l => l.live && l.job.die == die && l.job.gen == gen

/-- The grantee that stands for a die's operator table of one generation. -/
def tableGrantee (die gen : Nat) : Bool × Nat := (true, die * 65536 + gen)

/-- A replaced table releases its yards once nothing dispatched under it is left (R66). -/
def State.releaseTable (s : State) (die gen : Nat) : State :=
  if (s.die die).oldGens.contains gen && !s.tableUsed die gen then
    (s.releaseYards (tableGrantee die gen)).updDie die fun d => { d with oldGens := d.oldGens.filter (· != gen) }
  else s

/-- A gang of a launch has ended; with the last one the launch releases its yards (R66). -/
def State.launchGangEnds (s : State) (l : Nat) : State :=
  let s := { s with launches := s.launches.upd l fun x => { x with gangsLeft := x.gangsLeft - 1 } }
  if (s.launches.get l).gangsLeft = 0 then s.releaseYards (false, l) else s

/-- An ended gang's record goes once no accepted firing of its templates needs its places any more (R183). -/
def State.dropGang (s : State) (g : Nat) : State :=
  if (s.gang g).live || s.ops.vals.any (fun o => o.live && o.gang == g) then s else { s with gangs := s.gangs.drop g }

/-- A gang ends with its last crew `k` (R198): reserves go, its templates are disarmed, its tiles freed, its rows freed; its launch or
its operator table counts it. -/
def State.endGang (s : State) (g k : Nat) : State :=
  let w := s.gang g
  let s := s.freeRows g k
  let s := s.updCore w.core fun q => { q with
    templates := q.templates.mapVals fun t => if t.gang == g then { t with armed := false } else t
    tiles := q.tiles.mapVals fun t => if t.gang == some g then { (default : Tile) with } else t }
  let s := (s.updGang g fun w => { w with live := false, reserve := [] }).dropGang g
  match w.launch with
  | some l => s.launchGangEnds l
  | none => s.releaseTable ((w.opSel.map (·.1)).getD 0) w.tableGen

/-- Room for the records that the end of a crew may emit: one for each unreleased row of a gang it ends (R397, R443). -/
def State.endRoom (s : State) (k : Nat) : Bool :=
  let c := s.crew k
  let w := s.gang c.gang
  decide (w.crews.cells.length > 1) || s.recRoom (dieOf c.core) (w.rows.filter fun r => !r.released).length

/-- A crew context is free. What was issued for it carries an older sett epoch than any sett of the next crew of that number (R338). -/
def State.dropCrew (s : State) (k : Nat) : State :=
  { s with
    epochs := s.epochs.put k ((s.crew k).epoch + 1)
    crews := s.crews.drop k
    regs := s.regs.filter fun r => r.crew != k }

/-- A crew ends: its slot, rows and fetch buffer are free; it leaves its gang, which ends with its last crew. `back`: its $crew value
returns to the reserve (R220); otherwise it is retired and the gang winds down (R199). -/
def State.endCrew (s : State) (k : Nat) (back : Bool) : State :=
  let c := s.crew k
  let g := c.gang
  let s := s.dropCrew k
  let s := s.updGang g fun w => { w with
    crews := w.crews.drop c.idx
    reserve := if back then insertAsc c.idx w.reserve else w.reserve
    winding := if back then w.winding else true }
  if (s.gang g).crews.cells.isEmpty then s.endGang g k else s

/-! ## After-commit holds (R344) -/

/-- Engine operations issued or armed by a crew that are not complete (R143, R344). -/
def State.enginesOpen (s : State) (k : Nat) : Bool := s.ops.vals.any fun o => o.live && o.crew == k

/-- Has an after-commit hold cleared (R344)? -/
def State.holdClear (s : State) (k : Nat) (h : Hold) : Bool :=
  match h with
  | .ops p upto => decide (((s.crew k).ctr.get (pathNo p)).done ≥ upto)
  | .bar b _ _ => s.barPassed k b
  | .sent tags => !tags.any s.tagLive
  | .iinv _ _ cwbs => !cwbs.any fun n => s.tagLive (k, n)
  | .bench b => !(s.bench b).live
  | .fired => !s.enginesOpen k

/-- The lines leave the instruction caches of cores; fetches of those lines under way are discarded (R357). -/
def State.dropCode (s : State) (cores keys : List Nat) : State :=
  let s := { s with outstanding := s.outstanding.filter fun o =>
    match o.who with
    | .load crew 63 line _ _ _ => !(cores.contains (s.crew crew).core && keys.contains (lineKey o.dev line))
    | _ => true }
  cores.foldl (fun s q => if (s.core q).icache.isEmpty then s else
    s.updCore q fun x => { x with icache := x.icache.filter fun e => !keys.contains (lineKey e.dev e.line) }) s

/-- A hold that has cleared ends: an IINV drops its lines (R357). -/
def State.endHold (s : State) : Hold → State
  | .iinv cores keys _ => s.dropCode cores keys
  | _ => s

/-- Do a bench's elements belong to its quarters: from its placement until it is saved or ends (R228, R253)? -/
def Bench.placed (x : Bench) : Bool := x.live && x.st != .none && x.st != .saved

/-- Is a quarter of a core held by a bench, so that it issues no SIMT instruction (R228)? -/
def State.benchQuarter (s : State) (core q : Nat) : Bool :=
  s.benches.vals.any fun x => x.placed && x.core == core && x.entries.any fun e => (s.crew e.crew).quarter == q

/-- The holds of a crew that have not cleared. -/
def State.pendingHolds (s : State) (k : Nat) : List Hold := (s.crew k).holds.filter fun h => !s.holdClear k h

/-! ## Taking a trap (R437–R439) -/

/-- TR_CAUSE.NEST. -/
def nestBit (c : DWord) : Bool := c.getLsbD 15

/-- TR_CAUSE as trap entry writes it (R436, R437). -/
def trCauseWord (mask : Word) (lane slot : Nat) (flags : BitVec 5) (hold level : Bool) (cause : BitVec 8) : DWord :=
  BitVec.ofNat 64 (mask.toNat * 2 ^ 32 + lane % 32 * 2 ^ 27 + slot % 32 * 2 ^ 22 + flags.toNat * 2 ^ 17 +
    (if hold then 2 ^ 16 else 0) + 2 ^ 15 + (if level then 2 ^ 14 else 0) + cause.toNat)

/-- A double trap (R439): the crew stops as HALT stops it, its PC at the sett that raised the trap; a record follows. -/
def State.doubleTrap (s : State) (k : Nat) (cause : BitVec 8) (addr : DWord) : State :=
  let c := s.crew k
  let aux := if nestBit c.trCause then bitsOf c.trCause 0 8 else 0
  (s.updCrew k fun c => { c with place := .halted }).emit (dieOf c.core) c.part
    (faultRec cause fgDouble c.part (dieOf c.core) c.core 0 k 0xFFFF aux addr)

/-- TakeTrap of R437 for crew k, whose sett is gone: TR_PC, TR_ADDR and TR_CAUSE are saved, a pending hold is set aside, the level rises
to 1, VEC is checked, and the running path goes on at VEC. -/
def State.takeTrap (s : State) (k : Nat) (cause : BitVec 8) (addr : DWord) (slot lane : Nat) (flags : BitVec 5) (pc : Nat) : State :=
  let c := s.crew k
  let vec := BitVec.ofNat 64 (bitsOf (s.part c.part).trVec 0 56)
  if nestBit c.trCause || vec == 0 then s.doubleTrap k cause addr
  else
    let holds := s.pendingHolds k
    let s := s.updCrew k fun c => { c with
      trPc := BitVec.ofNat 64 (pc % 2 ^ 56)
      trAddr := addr
      trCause := trCauseWord c.mask lane slot flags (!holds.isEmpty) c.level cause
      savedHolds := holds
      holds := []
      level := true }
    match s.checkTarget k true false vec with
    | .bad cause' => s.doubleTrap k cause' vec
    | _ => s.updCrew k fun c => { c with
        inTrap := true
        paths := match c.paths with
          | p :: r => { p with pc := vec.toNat, join := none } :: r
          | [] => [] }

/-- The commit of TRET (R440): the level and the hold come back, NEST clears, rotation resumes, the path goes on at TR_PC; `cause` and
`pc` are TR_CAUSE and TR_PC as they were at sett start. -/
def Crew.tret (c : Crew) (cause : DWord) (pc : Nat) : Crew :=
  { c with
    level := cause.getLsbD 14
    holds := if cause.getLsbD 16 then c.holds ++ c.savedHolds else c.holds
    savedHolds := if cause.getLsbD 16 then [] else c.savedHolds
    trCause := c.trCause &&& ~~~(0x8000 : DWord)
    inTrap := false
    paths := match c.paths with
      | p :: r => { p with pc := pc } :: r
      | [] => [] }

/-! ## Saving a crew (R96, R406, R446, R447) -/

/-- Bytes of shadow store that a crew's context takes: its rows, its S, D and P registers, its control state (R96). -/
def Crew.shadowBytes (c : Crew) : Nat := 128 * c.budget + 1056 + 768 + Config.groupBytes * c.groups.length

/-- Bytes that a gang's part takes: its local allocation and its tiles (R447). -/
def Gang.shadowBytes (g : Gang) : Nat :=
  g.localSize + 16384 * (g.acc.vals.filter Option.isSome).length

/-- Shadow store that a partition's saved crews and gangs take on a die. -/
def State.shadowUsed (s : State) (part die : Nat) : Nat :=
  ((s.crews.vals.filter fun c => c.place == .saved && c.part == part && dieOf c.core == die).map Crew.shadowBytes).sum +
  ((s.gangs.vals.filter fun g => g.saved && g.part == part && dieOf g.core == die).map Gang.shadowBytes).sum

/-- Is a crew the last of its gang that is not saved? -/
def State.lastResident (s : State) (k : Nat) : Bool :=
  (s.gangCrews (s.crew k).gang).all fun j => j == k || (s.crew j).place == .saved

/-- Do the partition's shadow units take a crew's context (R446)? -/
def State.shadowFits (s : State) (k : Nat) : Bool :=
  let c := s.crew k
  decide (s.shadowUsed c.part (dieOf c.core) + c.shadowBytes + (if s.lastResident k then (s.gang c.gang).shadowBytes else 0) ≤
    (s.part c.part).units.length * 2 ^ 20)

/-- Byte range of memory read as nonzero cells. -/
def rangeCells (m : Memory) (a n : Nat) : List (Nat × Byte) := m.cells.filter fun e => decide (a ≤ e.1) && decide (e.1 < a + n)

/-- The part of a range whose contents are undefined (R63), counted from its start. -/
def rangeFresh (m : Memory) (a n : Nat) : Segs :=
  (((m.fresh.cut 0 a).cut (a + n) (2 ^ 64)).map fun x => (x.1 - a, x.2.1 - a, x.2.2))

/-- Memory of a range reads zero and holds no poison. -/
def State.zeroRange (s : State) (a n : Nat) : State :=
  { s with mem := s.mem.zero a n, poison := s.poison.filter fun w => !(decide (a ≤ 4 * w) && decide (4 * w < a + n)) }

/-- The poisoned words of a range, counted from its start. -/
def State.poisonOf (s : State) (a n : Nat) : List Nat :=
  (s.poison.filter fun w => decide (a ≤ 4 * w) && decide (4 * w < a + n)).map fun w => w - a / 4

/-- A gang's part of the context is saved with its last crew (R447): local bytes and tiles leave the core, which does not clear the memory that
becomes free (R63). -/
def State.saveGang (s : State) (g : Nat) : State :=
  let w := s.gang g
  let a := localAp w.core + w.localBase
  let cells := (rangeCells s.mem a w.localSize).map fun e => (e.1 - a, e.2)
  let tiles : Tbl Tile := ⟨(w.acc.cells.filterMap fun e => match e.2 with
    | some t => if t < 16 then some (e.1, (s.core w.core).tiles.get t) else none
    | none => none)⟩
  let bad := s.poisonOf a w.localSize
  let s := s.updPart w.part fun p => { p with
    savedLocal := p.savedLocal ++ [(g, cells, rangeFresh s.mem a w.localSize)], savedPoison := p.savedPoison ++ [(g, bad)] }
  let s := s.updCore w.core fun q => { q with tiles := q.tiles.mapVals fun t => if t.gang == some g && !t.draining then default else t }
  s.updGang g fun w => { w with saved := true, savedTiles := tiles }

/-- A crew's context goes to the shadow store and the crew leaves its quarter; what its core holds for it is sent (R157, R79); a PREEMPT record
follows (R406, R444, R446). -/
def State.saveCrew (s : State) (k : Nat) : State :=
  let c := s.crew k
  let last := s.lastResident k
  let s := (s.flushCb c.core).updCrew k fun c => { c with place := .saved, preempt := false, stall := stNone, fetch := [] }
  let s := { s with regs := s.regs.filter fun r => r.crew != k }
  let s := s.emit (dieOf c.core) c.part (faultRec cPreempt 0 c.part (dieOf c.core) c.core 0 k 0xFFFF (k % 2 ^ 14) 0)
  if last then s.saveGang c.gang else s

/-- HALT, or pre-emption at a sett boundary: saved when the shadow units and the record buffer have room, else resident and stalled
(R446). -/
def State.trySave (s : State) (k : Nat) : State :=
  if s.shadowFits k && s.recRoom (dieOf (s.crew k).core) 1 then s.saveCrew k else s

end Sys2Proof.Machine
end

