-- ==== Sys2Proof/Machine/Sett.lean ====
section
/-!
DEFINITION. Sys2Proof/Machine/Sett.lean: setts (R200): starting one with its decode checks and reservations, its commit, taking the trap
of a discarded one, the issue of quarters and the local watchdog (R206, R441).
-/
namespace Sys2Proof.Machine

/-! ## Decode checks of a sett (R201, R202, R259, R277, R281, R362, R364) -/

/-- What each slot of a sett decodes to: nothing for a literal slot. -/
def slotInstrs (lit : Word) : Nat → List DWord → List (Option Decoded)
  | _, [] => []
  | n, w :: ws => (if lit.getLsbD n then none else some (decode w)) :: slotInstrs lit (n + 1) ws

/-- The instruction of a slot. -/
def instrAt (ds : List (Option Decoded)) (n : Nat) : Option Instr :=
  match ds.getD n none with
  | some (.instr i) => some i
  | _ => none

/-- A slot reads ^n where n is not lower, or names an effectful or control slot (R201). -/
def badTransient (ds : List (Option Decoded)) (n : Nat) (i : Instr) : Bool :=
  i.srcs.any fun p => match p.1 with
    | .trans m =>
      decide (m.toNat ≥ n) || (match instrAt ds m.toNat with
        | some j => j.effectful || j.control
        | none => false)
    | _ => false

/-- ILLEGAL_OP of a slot beyond its own decoding: a bench action, a control instruction before the last slot, a transient that does
not exist, a second barrier instruction on one barrier, a sett CREW.LEAVE may not stand in. -/
def slotIllegal (ds : List (Option Decoded)) (n : Nat) (i : Instr) : Bool :=
  let other := fun m => m ≠ n
  i.benchAction ||
  (i.control && n + 1 != ds.length) ||
  badTransient ds n i ||
  (match i.barrier with
   | some k => (List.range ds.length).any fun m => other m && (match instrAt ds m with
      | some j => j.barrier == some k
      | none => false)
   | none => false) ||
  (i.isLeave && (List.range ds.length).any fun m => other m && (match instrAt ds m with
    | some j => j.notWithLeave || (decide (m > n) && (j.effectful || j.control))
    | none => false))

/-- The first failure of the slots in increasing number: cause, slot, and whether the header's address is reported (R281, R435). -/
def checkSlots (level : Bool) (budget : Nat) (all : List (Option Decoded)) : Nat → List (Option Decoded) → Option (BitVec 8 × Nat × Bool)
  | _, [] => none
  | n, d :: ds =>
    match d with
    | none => checkSlots level budget all (n + 1) ds
    | some (.refused _) => some (cIllegalOp, n, false)
    | some (.instr i) =>
      if slotIllegal all n i then some (cIllegalOp, n, false)
      else if i.features &&& ~~~Config.feat != 0 then some (cFeature, n, false)
      else if i.privileged && !level then some (cPrivilege, n, false)
      else if i.topV > budget then some (cBudget, n, true)
      else checkSlots level budget all (n + 1) ds

/-- The header checks of R259, in table order; a failing one reports the header (R435). -/
def checkHeader (h : Header) (budget : Nat) (words : List DWord) : Option (BitVec 8) :=
  let n := h.nm1.toNat + 1
  if h.resv != 0 || bitsOf h.lit n 32 ≠ 0 then some cIllegalOp
  else if 8 * (h.budm1.toNat + 1) > budget then some cBudget
  else if (List.range n).any fun i => !h.lit.getLsbD i && isHeader (words.getD i 0) then some cIllegalOp
  else none

/-! ## Pops and pushes (R200, R274, R367) -/

/-- The pops of a slot: source position and queue, in the order of R274. QPOP's own pop has position 3. -/
def popsOf (i : Instr) : List (Nat × Nat) :=
  ((List.range i.srcs.length).zip i.srcs).filterMap (fun p => match p.2.1 with
    | .pop q => some (p.1, q.toNat)
    | _ => none) ++
  (match i with
   | .qpop _ _ n => [(3, n.toNat)]
   | _ => [])

/-- The queue a slot pushes. -/
def pushOf : Instr → Option Nat
  | .qpush _ _ n => some n.toNat
  | _ => none

/-- Queues whose pops are refused: bound to a copy template, or feeding the QIN element of a running bench (R181, R367). -/
def State.boundQueue (s : State) (core q : Nat) : Bool :=
  (s.core core).templates.vals.any (fun t => t.armed && t.queue == q) ||
  s.benches.vals.any (fun b => b.live && b.core == core && b.st == .running && imgTakes b.img q)

/-- The pops of a sett: slot, position, queue. -/
def settPops (ds : List (Option Decoded)) : List (Nat × Nat × Nat) :=
  (List.range ds.length).flatMap fun n => match instrAt ds n with
    | some i => (popsOf i).map fun p => (n, p.1, p.2)
    | none => []

/-- The pushes of a sett: slot, queue. -/
def settPushes (ds : List (Option Decoded)) : List (Nat × Nat) :=
  (List.range ds.length).filterMap fun n => match instrAt ds n with
    | some i => (pushOf i).map fun q => (n, q)
    | none => none

/-- Capacity of a channel queue (R366). -/
def queueCap : Nat := 32

/-- The start condition of R200: enough entries to pop and enough free places to push. -/
def queuesAllow (k : Core) (pops : List (Nat × Nat × Nat)) (pushes : List (Nat × Nat)) : Bool :=
  (List.range 16).all fun q =>
    let e := k.queues.get q
    decide ((pops.filter fun p => p.2.2 == q).length ≤ e.entries.length) &&
    decide (e.entries.length + e.popRes + e.pushRes + (pushes.filter fun p => p.2 == q).length ≤ queueCap)

/-- Reserve one pop: the queue's first entry. -/
def takePop (k : Core) (q : Nat) : Core × Nat × DWord :=
  let e := k.queues.get q
  match e.entries with
  | (seq, v) :: r => ({ k with queues := k.queues.put q { e with entries := r, popRes := e.popRes + 1 } }, seq, v)
  | [] => (k, 0, 0)

/-- Reserve the pops of a sett, in order. -/
def takePops (k : Core) (t : Sett) : List (Nat × Nat × Nat) → Core × Sett
  | [] => (k, t)
  | (slot, pos, q) :: r =>
    let (k, seq, v) := takePop k q
    takePops k { t with pops := t.pops.put (slot * 4 + pos) v, popList := t.popList ++ [(slot, q, seq, v)] } r

/-- Reserve the pushes of a sett. -/
def takePushes (k : Core) (ps : List (Nat × Nat)) : Core :=
  { k with queues := ps.foldl (fun qs p => qs.upd p.2 fun q => { q with pushRes := q.pushRes + 1 }) k.queues }

/-! ## Starting a sett -/

/-- Stall reason of a hold. -/
def holdReason : Hold → BitVec 4
  | .ops _ _ => stWaitc
  | .sent _ => stWaitc
  | .bar _ _ _ => stBarrier
  | .iinv _ _ _ => stWaitc
  | .bench _ => stBench
  | .fired => stWaitc

/-- A sett that raises an exception before any slot runs. -/
def excSett (t : Sett) (pc : Nat) (cause : BitVec 8) (addr : DWord) (slot : Nat) : Sett :=
  { t with phase := .exec, pc := pc, exc := some ⟨cause, addr, slot, 0, 0⟩ }

/-- The words of the sett at `pc` at consecutive code addresses: all of them, or the first that does not come. -/
def State.fetchAll (s : State) (k : Nat) (level : Bool) (pc va : Nat) : Nat → List DWord × Option FetchR
  | 0 => ([], none)
  | n + 1 =>
    match s.fetchAt k level pc va with
    | .word w =>
      let (ws, f) := s.fetchAll k level pc (va + 8) n
      (w :: ws, f)
    | f => ([], some f)

/-- Cycles pass in a core while a quarter issues: how many is not given (R13, R276, R206; log 3). -/
def State.tick (s : State) (core : Nat) : State :=
  (s.updCore core fun k => { k with cyc := k.cyc + BitVec.ofNat 64 (1 + (Config.cyclesOf s.free).toNat) }).bumpFree

/-- The head of the path list is the path that runs next: equal PCs merge, a path that waits at a JOIN is passed over (R203, R204);
a handler's path stays where it is and waits there when it waits at a JOIN (R204, R205, R438). -/
def Crew.pick (c : Crew) : Option (List Path) :=
  let ps := mergePaths c.paths
  selectReady c.exited (if c.inTrap then min 1 ps.length else ps.length) ps

/-- Does another path of the crew stand ready behind the head? -/
def Crew.otherReady (c : Crew) : Bool :=
  match c.paths with
  | _ :: r => r.any fun p => pathReady c.exited c.paths p
  | [] => false

/-- A stall at a sett start rotates the paths when another is ready, outside a handler (R204). -/
def Crew.stallRotate (c : Crew) (why : BitVec 4) : Crew :=
  if !c.inTrap && c.otherReady then { c with paths := rotate c.paths, stall := why } else { c with stall := why }

/-- The code lines a sett stands in are kept. -/
def State.keepSett (s : State) (k : Nat) (level : Bool) (pc n : Nat) : State :=
  (List.range n).foldl (fun s i => s.keepCode k level (pc + 8 * i)) s

/-- A sett whose words have come: header and slot checks, then the reservations of R200. -/
def State.beginSett (s : State) (k pc : Nat) (h : Header) (words : List DWord) : State :=
  let c := s.crew k
  let n := h.nm1.toNat + 1
  let t : Sett := { (default : Sett) with phase := .exec, pc := pc, nslots := n, lit := h.lit, words := words, gens := c.gens }
  let fail := fun cause addr slot => s.updCrew k fun c => { c with stall := stNone, sett := excSett t pc cause (BitVec.ofNat 64 addr) slot }
  match checkHeader h c.budget words with
  | some cause => fail cause pc 0
  | none =>
    let ds := slotInstrs h.lit 0 words
    match checkSlots c.level c.budget ds 0 ds with
    | some (cause, i, atHeader) => fail cause (if atHeader then pc else slotAddr t i) i
    | none =>
      let all := settPops ds
      let pops := all.filter fun p => !s.boundQueue c.core p.2.2
      let pushes := settPushes ds
      if !queuesAllow (s.core c.core) pops pushes then s.updCrew k fun c => c.stallRotate stChannel
      else
        let (q, t) := takePops (s.core c.core) t pops
        let t := { t with
          pushRes := pushes
          popBad := (all.filter fun (p : Nat × Nat × Nat) => s.boundQueue c.core p.2.2).map Prod.fst }
        let s := { s with cores := s.cores.put c.core (takePushes q pushes) }
        let s := s.updCrew k fun c => { c with stall := stNone, epoch := c.epoch + 1, sett := { t with slot := t.seek .exec 0 } }
        let held := match s.xlat c.part k c.level false .fetch pc with
          | .ok dev pa _ => (c.buffered dev pa).isSome
          | .bad _ => false
        let s := if held then s else s.keepSett k c.level pc (n + 1)
        s.prefetch k c.level (pc + 8 * (n + 1))
          (((instrAt ds (n - 1)).bind Instr.target).map fun j => (((pc : Int) + 8 * j.toInt) % (2 ^ 56 : Int)).toNat)

/-- The next sett of crew k: its path, the fetch of its words, its checks (R200, R203, R281). -/
def State.fetchSett (s : State) (k : Nat) : State :=
  let c := s.crew k
  let pc := c.run.pc
  let raise := fun cause addr => s.updCrew k fun c => { c with stall := stNone, sett := excSett default pc cause (BitVec.ofNat 64 addr) 0 }
  let fault := fun cause => raise cause pc
  match s.fetchWord k c.level pc with
  | .bad cause => fault cause
  | .wait dev line => (s.askCode k dev line).updCrew k fun c => { c with stall := stOperand }
  | .word w =>
    if !isHeader w then fault cBadTarget
    else
      let h := Header.ofWord w
      match s.fetchAll k c.level pc (pc + 8) (h.nm1.toNat + 1) with
      | (_, some (.bad cause)) => fault cause
      | (_, some (.wait dev line)) => (s.askCode k dev line).updCrew k fun c => { c with stall := stOperand }
      | (words, _) => s.beginSett k pc h words

/-- The start of crew k's next sett, cycles apart: its holds have cleared, no pre-emption waits, and a path is ready; a trap owed from
the commit before is raised at this sett (R35, R345). -/
def State.startSett (s : State) (k : Nat) : State :=
  let c := s.crew k
  if c.place != .resident || c.sett.phase != .idle || c.preempt then s
  else if s.benchQuarter c.core c.quarter then s.updCrew k fun c => { c with stall := stBench }
  else
    match c.holds.find? fun h => !s.holdClear k h with
    | some h => s.updCrew k fun c => { c with stall := holdReason h }
    | none =>
      let s := c.holds.foldl (fun s h => s.endHold h) s
      match c.pick with
      | none => s.updCrew k fun c => { c with holds := [], stall := stBarrier }
      | some ps =>
        let s := s.updCrew k fun c => { c with holds := [], paths := ps }
        match c.pendTrap with
        | some (cause, addr) => s.updCrew k fun c => { c with
            pendTrap := none, stall := stNone, sett := excSett default c.run.pc cause addr 0 }
        | none => s.fetchSett k

/-- SETT_START of crew k (R200): cycles pass when a sett starts. -/
def State.settStart (s : State) (k : Nat) : State :=
  let t := s.startSett k
  if (s.crew k).sett.phase == .idle && (t.crew k).sett.phase != .idle then t.tick (s.crew k).core else t

/-! ## Before-commit conditions (R344) -/

/-- Engine queue capacities (R165). -/
def engCap : EngUnit → Nat
  | .copy => 32
  | .matrix => 16
  | .coll => 16
  | .send => 64

/-- Key of an engine's queue: the collective engine is one per die, the others one per core. -/
def engKey (core : Nat) : EngUnit → Nat
  | .copy => core * 4
  | .matrix => core * 4 + 1
  | .send => core * 4 + 2
  | .coll => dieOf core * 4 + 3

/-- WAIT.STAMP's comparison (R171). -/
def stampHolds (cmp : StampCmp) (x v : Nat) : Bool :=
  match cmp with
  | .eq => x == v
  | .ne => x != v
  | .ge => decide (x ≥ v)

/-- Does a stamp word end a wait: a failed status, or a value that satisfies the comparison (R171)? -/
def stampDone (cmp : StampCmp) (v : Nat) (w : DWord) : Bool := bitsOf w 56 8 != 0 || stampHolds cmp (bitsOf w 0 56) v

/-- The bytes another device has answered to a slot's lane. -/
def Sett.answer (t : Sett) (slot lane : Nat) : Option (List Byte) :=
  match t.remote.find? fun r => r.1 == slot && r.2.1 == lane with
  | some r => some r.2.2
  | none => none

/-- Is word w of an answer poisoned (R91)? -/
def Sett.answerBad (t : Sett) (slot lane w : Nat) : Bool := t.remoteBad.any fun r => r.1 == slot && r.2.1 == lane && r.2.2.contains w

/-- Is a request of this sett's slot and lane outstanding on the link? -/
def State.asked (s : State) (k slot lane : Nat) : Bool :=
  s.outstanding.any fun o => match o.who with
    | .load c sl ln e _ _ => c == k && sl == slot && ln == lane && e == (s.crew k).epoch
    | .commit c sl ln _ => c == k && sl == slot && ln == lane
    | _ => false

/-- The answer of another device for a slot's lane is used up. -/
def Sett.dropAnswer (t : Sett) (slot lane : Nat) : Sett :=
  { t with
    remote := t.remote.filter fun r => !(r.1 == slot && r.2.1 == lane)
    remoteBad := t.remoteBad.filter fun r => !(r.1 == slot && r.2.1 == lane) }

/-- WaitStamp's step on a word of another device, where this device holds no registration: each read that does not end the wait is followed by
another (R172). A poisoned or lost word traps at the sett (R91, R350). -/
def State.stampFar (s : State) (k slot : Nat) (cmp : StampCmp) (v : Nat) (loc : Loc) : State × Bool :=
  let c := s.crew k
  let again := fun (s : State) =>
    (s.sendTo loc.dev (.load k slot 0 c.epoch loc.addr false) fun q => .read s.dev q loc.pa 8 c.level c.part, false)
  match c.sett.answer slot 0 with
  | some bs =>
    let w := BitVec.ofNat 64 (leNat bs)
    if bs.isEmpty || c.sett.remoteBad.any (fun r => r.1 == slot && r.2.1 == 0) then
      (s.updCrew k fun c => { c with sett := { c.sett with exc := some ⟨cUncorrectable, BitVec.ofNat 64 loc.addr, slot, 0, 0⟩ } }, false)
    else if stampDone cmp v w then
      (s.updCrew k fun c => { c with sett := { c.sett with stValue := c.sett.stValue.put slot w } }, true)
    else again (s.updCrew k fun c => { c with sett := c.sett.dropAnswer slot 0 })
  | none => if s.asked k slot 0 then (s, false) else again s

/-- WaitStamp's one step at the home: read, and register when the comparison does not hold (R171, R172). -/
def State.stampRead (s : State) (k slot : Nat) (cmp : StampCmp) (v : Nat) (loc : Loc) : State × Bool :=
  if loc.dev = s.dev then
    let s := s.settleLines (s.crew k).core loc.dev loc.pa 8
    if s.holdsLines (s.crew k).core loc.dev loc.pa 8 then (s, false)
    else
    let w := s.read64 loc.pa
    let others := s.regs.filter fun r => !(r.crew == k && r.pa == loc.pa)
    let mine : Registration := ⟨k, loc.dev, loc.pa, homeOf loc.pa, false⟩
    if stampDone cmp v w then
      (({ s with regs := others }).updCrew k fun c => { c with sett := { c.sett with stValue := c.sett.stValue.put slot w } }, true)
    else if s.regs.contains mine then (s, false)
    else if (others.filter fun r => r.home == homeOf loc.pa).length < 64 then ({ s with regs := others ++ [mine] }, false)
    else ({ s with regs := others }, false)
  else s.stampFar k slot cmp v loc

/-- Entries of an engine's queue that setts in their commit have still to make (R165). -/
def State.engineClaims (s : State) (core : Nat) (u : EngUnit) : Nat :=
  (s.crews.vals.map fun c =>
    if c.sett.phase == .effects && engKey c.core u == engKey core u then
      (c.sett.waits.filter fun w => w.kind == .engine u && decide (w.slot ≥ c.sett.slot)).length
    else 0).sum

/-- May crew k's sett enter an engine's queue (R165): there is room for its issues and no crew that came before it waits? One that may not
takes its place behind those that wait. -/
def State.tryEngine (s : State) (k : Nat) (u : EngUnit) : State × Bool :=
  let c := s.crew k
  let key := engKey c.core u
  let line := s.queueWaits.get key
  let used := (s.queues.get key).length + s.engineClaims c.core u
  let n := (c.sett.waits.filter fun x => x.kind == .engine u).length
  if (decide (used + n ≤ engCap u) || used == 0) && (line.isEmpty || line.head? == some k) then (s, true)
  else if line.contains k then (s, false)
  else ({ s with queueWaits := s.queueWaits.put key (line ++ [k]) }, false)

/-- One before-commit condition of crew k: the state its test leaves, and the stall reason when it does not hold. -/
def State.tryWait (s : State) (k : Nat) (w : WaitRec) : State × Option (BitVec 4) :=
  let c := s.crew k
  let no := fun (b : Bool) (why : BitVec 4) => if b then none else some why
  match w.kind with
  | .fence eng wide =>
    let s := if wide then s.releaseCore c.core else s
    let c := s.crew k
    let done := c.counter .st == 0 && (!wide || !s.coreBusy c.core) &&
      (!eng || (c.counter .cp == 0 && c.counter .mx == 0 && c.counter .cl == 0 && c.counter .tk == 0 && !s.enginesOpen k))
    (s, no done stWaitc)
  | .barArrive b => (s, no (!(c.bars.get b).holds) stBarrier)
  | .barWait b => (s, no (s.barPassed k b) stBarrier)
  | .waitc p n => (s, no (decide (c.counter p ≤ n)) stWaitc)
  | .stamp _ cmp v loc =>
    let (s, ok) := s.stampRead k w.slot cmp v loc
    (s, no ok stStamp)
  | .leave => (s, no c.quiet stWaitc)
  | .iinv => (s, no (!c.cwbs.any fun n => s.tagLive (k, n)) stWaitc)
  | .engine u =>
    let (s, ok) := s.tryEngine k u
    (s, no ok stMatrix)
  | .cap p => (s, no (decide (c.counter p < pathCap p)) stWaitc)
  | .exit => (s, no c.quiet stWaitc)
  | .xlatBusy => (s, no (!s.invals.any fun i => decide (i.kind < 4)) stWaitc)

/-- Every before-commit condition: commit begins when all hold at once. -/
def State.tryWaits (s : State) (k : Nat) : List WaitRec → State × Option (BitVec 4)
  | [] => (s, none)
  | w :: ws =>
    match s.tryWait k w with
    | (s, none) => s.tryWaits k ws
    | r => r

/-! ## Plain stores and prefetches issue (R140, R79, R355) -/

/-- Bytes of a location. -/
def StoreRec.cells (r : StoreRec) : List (Nat × Byte) := bytesAt r.loc.pa r.bytes

/-- What the plain stores of one slot write: the value of the highest lane stands at each byte (R137). -/
def storeCells (rs : List StoreRec) : List (Nat × Byte) := rs.foldl (fun m r => overlay m r.cells) []

/-- The MTYPE of the lines of stores that are not normal. -/
def storeTypes (rs : List StoreRec) : List (Nat × Nat) :=
  (rs.filter fun r => r.loc.mtype != 0).map fun r => (r.loc.pa / 128, r.loc.mtype)

/-- A write of a core goes on its way behind what the core holds (R140). -/
def State.sendReq (s : State) (r : HomeReq) : State :=
  let s := s.flushCb r.core
  { s with inflight := s.inflight ++ [r] }

/-- The plain stores of one slot to one device go on their way: global bytes of this device enter the combining buffer, every other byte
leaves for its home, as one request (R79, R60). The core's L1 copies keep up; a line on its way from another device does not enter it. -/
def State.issueTo (s : State) (k seq dev : Nat) (rs : List StoreRec) : State :=
  let c := s.crew k
  let bs := storeCells rs
  let global := rs.any fun r => r.loc.space == .global
  let s := if global && dev = s.dev then
      ((bs.map fun b => b.1 / 128).foldl (fun l n => insertAsc n l) []).foldl (fun s line =>
        s.enterCb c.core line (((storeTypes rs).find? fun t => t.1 == line).map (·.2) |>.getD 0)
          (bs.filter fun b => b.1 / 128 == line) (k, seq)) s
    else s.sendReq ⟨c.core, dev, c.part, c.level, bs, [(k, seq)], none, storeTypes rs⟩
  if global then
    (s.updCore c.core fun q => { q with l1 := patchLines q.l1 dev bs }).unkeep c.core
      fun d line => d == dev && bs.any fun b => b.1 / 128 == line
  else s

/-- The plain stores of one slot issue as one ST operation (R351). -/
def State.issueSlot (s : State) (k : Nat) (rs : List StoreRec) : State :=
  let s := s.updCrew k fun c => c.issueOn .st
  let seq := (s.crew k).lastOn .st
  (rs.map fun r => r.loc.dev).eraseDups.foldl (fun s dev => s.issueTo k seq dev (rs.filter fun r => r.loc.dev == dev)) s

/-- The plain stores of a sett issue in slot order (R140, R200). -/
def State.issueStores (s : State) (k : Nat) (rs : List StoreRec) : State :=
  (rs.map fun r => r.slot).eraseDups.foldl (fun s n => s.issueSlot k (rs.filter fun r => r.slot == n)) s

/-- Prefetches of a sett issue, one LD operation each (R355). A prefetch's lines stand in `args`, its kind in `lane`. -/
def State.issuePref (s : State) (k : Nat) (p : Cap) : State :=
  let s := s.updCrew k fun c => c.issueOn .ld
  let c := s.crew k
  { s with walks := s.walks ++ [⟨c.part, k, c.lastOn .ld, c.level, p.args.map (·.toNat), p.lane == 1⟩] }

/-! ## Commit (R200) -/

/-- One register write; a register written whole loses its poison. -/
def Crew.applyWr (c : Crew) : Wr → Crew
  | .v r l x => { c with v := c.v.putc (r * 32 + l) x, poisonV := c.poisonV.filter (· != r * 32 + l) }
  | .s n x => { c with s := c.s.putc n x, poisonS := c.poisonS.filter (· != n) }
  | .p n l b =>
    let m := c.p.get n
    { c with p := c.p.putc n (if b then m ||| laneBit l else m &&& ~~~laneBit l) }
  | .d i x => { c with d := c.d.putc i x, poisonD := c.poisonD.filter (· != i) }
  | .fpsr x => { c with fpsr := fpsrWrite x }
  | .seed x => { c with seed := x, gens := ⟨(List.range 32).map fun l => (l, genInit x l)⟩ }

/-- The register writes of a sett, in slot order, after its flags and generator steps (R112, R278, R323). -/
def Crew.applyWrs (c : Crew) : Crew :=
  let t := c.sett
  t.wr.foldl Crew.applyWr { c with fpsr := orFlags c.fpsr t.flags, gens := t.gens }

/-- Does a slot of the running sett act in some lane? -/
def Crew.slotActs (c : Crew) (n : Nat) : Bool :=
  match decode (c.sett.words.getD n 0) with
  | .instr i => c.guardMask i.guard != 0
  | .refused _ => false

/-- An entry enters a queue. -/
def Queue.push (q : Queue) (v : DWord) : Queue := { q with entries := q.entries ++ [(q.next, v)], next := q.next + 1 }

/-- The sett's queue entries at commit (R200, R367): popped entries leave, those of slots that do not act return; pushes enter. -/
def commitQueues (c : Crew) (k : Core) : Core :=
  let t := c.sett
  let k := returnEntries k { t with popList := t.popList.filter fun p => !c.slotActs p.1 }
  let qs := (t.popList.filter fun p => c.slotActs p.1).foldl
    (fun qs p => qs.upd p.2.1 fun q => { q with popRes := q.popRes - 1 }) k.queues
  { k with queues := t.pushed.foldl (fun qs p => qs.upd p.1 fun q => q.push p.2) qs }

/-- Does the sett write a P register in every lane, so that its poison goes (R91)? -/
def Sett.coversP (t : Sett) (n : Nat) : Bool :=
  (List.range 32).all fun l => t.wr.any fun w => match w with
    | .p m k _ => m == n && k == l
    | _ => false

/-- Queue entries and register writes of the sett become architectural. -/
def State.finishWrites (s : State) (k : Nat) : State :=
  let c := s.crew k
  (s.updCore c.core (commitQueues c)).updCrew k fun c => { c.applyWrs with poisonP := c.poisonP.filter fun n => !c.sett.coversP n }

/-- The sett is over: `heads` stand in place of the running path; 64 setts without a reconvergence send the head to the back (R204). -/
def Crew.endSett (c : Crew) (heads : List Path) : Crew :=
  let ps := heads ++ c.paths.tail
  let ps := match ps with
    | p :: _ => if !c.inTrap && p.run ≥ 64 then rotate ps else ps
    | [] => ps
  { c with paths := ps, sett := default, stall := stNone }

/-- The running path goes on at an address. -/
def Crew.goTo (c : Crew) (pc : Nat) : Crew := c.endSett [{ c.run with pc := pc, run := c.run.run + 1 }]

/-- Fall-through address of a sett (R260). -/
def Sett.fall (t : Sett) : DWord := BitVec.ofNat 64 (t.pc + 8 * (t.nslots + 1))

/-- The control instruction of a sett, in its last slot (R202). -/
def Sett.ctlInstr (t : Sett) : Option Instr :=
  if t.nslots = 0 || t.isLit (t.nslots - 1) then none
  else
    match decode (t.words.getD (t.nslots - 1) 0) with
    | .instr i => if i.control then some i else none
    | .refused _ => none

/-- Set the exception of crew k's sett. -/
def State.raiseAt (s : State) (k : Nat) (e : Exc) : State :=
  s.updCrew k fun c => { c with stall := stNone, sett := { c.sett with exc := some e } }

/-- Transfer addresses of the executing sett pass R293 before it commits: `go` when they do. The fault of a fall-through address belongs
to no slot: SLOT is 0 (R437). -/
def State.checkedGo (s : State) (k : Nat) (call : DWord → Bool) (addrs : List DWord) (go : State → State) : State :=
  let c := s.crew k
  match s.checkTargets k c.level call (ascending addrs) with
  | (.ok, _) => go s
  | (.wait dev line, _) => (s.askCode k dev line).updCrew k fun c => { c with stall := stOperand }
  | (.bad cause, a) => s.raiseAt k ⟨cause, a, if c.sett.slot < c.sett.nslots then c.sett.slot else 0, 0, 0⟩

/-- The commit of a sett whose slots and transfer addresses raised nothing: a raised flag whose enable bit is set discards it instead
(R112, R323). -/
def State.enterCommit (s : State) (k : Nat) (go : State → State) : State :=
  match (s.crew k).fpTrap with
  | some e => s.raiseAt k e
  | none => go s

/-- The commit begins: the conditions hold, the plain stores and prefetches issue, the effectful slots come up. -/
def State.beginCommit (s : State) (k : Nat) : State :=
  match s.tryWaits k (s.crew k).sett.waits with
  | (s, some why) =>
    let c := s.crew k
    if why != stMatrix && !c.inTrap && c.otherReady then (s.discard k).updCrew k fun c => c.stallRotate why
    else s.updCrew k fun c => { c with stall := why }
  | (s, none) =>
    let t := (s.crew k).sett
    let s := { s with queueWaits := s.queueWaits.mapVals fun l => l.filter (· != k) }
    let s := s.issueStores k t.stores
    let s := (t.caps.filter fun p => match decode (t.words.getD p.slot 0) with
      | .instr i => !i.effectful
      | .refused _ => false).foldl (fun s p => s.issuePref k p) s
    s.updCrew k fun c => { c with stall := stNone, sett := { c.sett with phase := .effects, slot := c.sett.seek .effects 0 } }

/-- The commit ends: queues and registers change; the control slot comes up, or the path falls through. -/
def State.endCommit (s : State) (k : Nat) : State :=
  let s := s.finishWrites k
  let t := (s.crew k).sett
  match t.ctlInstr with
  | some _ => s.updCrew k fun c => { c with sett := { c.sett with phase := .control, slot := t.nslots - 1 } }
  | none => s.updCrew k fun c => c.goTo t.fall.toNat

/-- SETT_COMMIT of crew k (R200). -/
def State.settCommit (s : State) (k : Nat) : State :=
  let t := (s.crew k).sett
  if t.exc.isSome then s
  else
    match t.phase with
    | .exec =>
      if t.slot < t.nslots then s
      else if !t.sfuPend.isEmpty then s.updCrew k fun c => { c with stall := if t.sfuWait.isEmpty then stOperand else stSfu }
      else
        match t.ctlInstr with
        | some _ => s.enterCommit k fun s => s.beginCommit k
        | none => s.checkedGo k (fun _ => false) [t.fall] fun s => s.enterCommit k fun s => s.beginCommit k
    | .effects => if t.slot < t.nslots then s else s.endCommit k
    | _ => s

/-- SETT_COMMIT (R200): first the conditions, the stores and the effectful slots; then registers and queues. -/
def execSettCommit (s : State) : Out := .next (s.settCommit s.cur)

/-! ## Traps of a discarded sett, issue, watchdog -/

/-- Room for the record a trap may emit, and VEC's word at hand (R437, R443). -/
def State.trapReady (s : State) (k : Nat) : Bool :=
  let c := s.crew k
  s.recRoom (dieOf c.core) 1 &&
  (match s.checkTarget k true false (BitVec.ofNat 64 (bitsOf (s.part c.part).trVec 0 56)) with
   | .wait _ _ => false
   | _ => true)

/-- Ask for VEC's line when another device holds it. -/
def State.askVec (s : State) (k : Nat) : State :=
  let c := s.crew k
  match s.checkTarget k true false (BitVec.ofNat 64 (bitsOf (s.part c.part).trVec 0 56)) with
  | .wait dev line => s.askCode k dev line
  | _ => s

/-- TRAP_ENTRY (R437, SETT_DISCARD of R200, DOUBLE_TRAP of R439): the executing crew's sett has its exception bit set. -/
def execTrapEntry (s : State) : Out :=
  let k := s.cur
  match (s.crew k).sett.exc with
  | some e =>
    if s.trapReady k then
      .next ((s.discard k).takeTrap k e.cause e.addr e.slot e.lane e.flags (s.crew k).sett.pc)
    else .next ((s.askVec k).updCrew k fun c => { c with stall := stOperand })
  | none => .next s

/-- Can a crew go on (R206)? One that waits is asked again. -/
def State.ready (s : State) (k : Nat) : Bool :=
  let c := s.crew k
  c.place == .resident && !c.preempt && !s.benchQuarter c.core c.quarter &&
  (match c.sett.phase with
   | .idle => ((s.startSett k).crew k).stall == stNone
   | .exec =>
     if c.sett.exc.isSome || c.sett.slot < c.sett.nslots then c.stall == stNone
     else ((s.settCommit k).crew k).stall == stNone
   | _ => true)

/-- Crews resident in a quarter. -/
def State.quarterCrews (s : State) (core q : Nat) : List Nat :=
  (s.crews.cells.filter fun e => e.2.place == .resident && e.2.core == core && e.2.quarter == q).map (·.1)

/-- Of two crews the one taken first: PRIO = 1 before PRIO = 0, then the older (R206). -/
def State.older (s : State) (a b : Nat) : Nat :=
  let x := s.crew a
  let y := s.crew b
  if x.prio != y.prio then (if x.prio then a else b) else if x.age ≤ y.age then a else b

/-- The oldest ready crew of a quarter but the one that `now` names, as the quarter's issue field does: 0 is none. -/
def State.oldestReady (s : State) (core q now : Nat) : Option Nat :=
  (s.quarterCrews core q).foldl (fun acc k =>
    if k + 1 = now || !s.ready k then acc
    else
      match acc with
      | none => some k
      | some a => some (s.older a k)) none

/-- A quarter issues from crew k (R206): a crew it turns to begins a new count of its cycles. -/
def State.issueFrom (s : State) (k : Nat) : State :=
  let c := s.crew k
  { s.updCore c.core fun q =>
      if q.issue.get c.quarter = k + 1 then q else { q with issue := q.issue.put c.quarter (k + 1), streak := q.streak.put c.quarter 0 } with
    cur := k }

/-- Crew k has issued: the cycles of its core since `before` count while another crew of the quarter is ready (R206). -/
def State.countStreak (s : State) (k : Nat) (before : DWord) : State :=
  let c := s.crew k
  if (s.oldestReady c.core c.quarter (k + 1)).isSome then
    s.updCore c.core fun q => { q with streak := q.streak.upd c.quarter (· + (q.cyc - before).toNat) }
  else s.updCore c.core fun q => { q with streak := q.streak.put c.quarter 0 }

/-- SETT_START (R200): the crew's quarter counts the cycles of a sett that starts. -/
def execSettStart (s : State) : Out :=
  let t := s.settStart s.cur
  .next (if s.me.sett.phase == .idle && (t.crew s.cur).sett.phase != .idle then t.countStreak s.cur (s.core s.me.core).cyc else t)

/-- Has a quarter to leave the crew it issued from last (R206): the crew stalls, or has had 1,024 cycles while another was ready and
stands between two setts? -/
def State.mustSwitch (s : State) (core q : Nat) : Bool :=
  let now := (s.core core).issue.get q
  now == 0 || !s.ready (now - 1) || (decide ((s.core core).streak.get q ≥ 1024) && (s.crew (now - 1)).sett.phase == .idle)

/-- QUARTER_ISSUE_SWITCH (R206): the quarter of a crew goes on with it: it issues from it already, or it must leave the one it issued from and
this is its oldest other ready crew. -/
def execQuarterIssueSwitch (crew : Nat) (s : State) : Out :=
  let c := s.crew crew
  let now := (s.core c.core).issue.get c.quarter
  if c.place == .resident &&
      (now == crew + 1 || (s.mustSwitch c.core c.quarter && s.oldestReady c.core c.quarter now == some crew)) then
    .next (s.issueFrom crew)
  else .next s

/-- A crew stands in a bench group. -/
def Crew.inBench (c : Crew) : Bool := c.holds.any fun h => match h with
  | .bench _ => true
  | _ => false

/-- LOCAL_WATCHDOG (R441): the crew's limit has passed without an event of its kinds; a sett that has not begun its commit is discarded
and the trap is taken at the head path's sett. -/
def execLocalWatchdog (crew : Nat) (s : State) : Out :=
  let c := s.crew crew
  let limit := bitsOf (s.part c.part).wdog 0 32
  let busy := c.sett.phase == .effects || c.sett.phase == .control
  if limit = 0 || c.place != .resident || c.inBench || busy || c.paths.isEmpty then .next s
  else if s.trapReady crew then .next ((s.discard crew).takeTrap crew cWatchdog 0 0 0 0 c.run.pc)
  else .next (s.askVec crew)

end Sys2Proof.Machine
end

