-- ==== Sys2Proof/Machine/LoadStore.lean ====
section
/-!
DEFINITION. Sys2Proof/Machine/LoadStore.lean: loads and stores, OP 0x80–0x92 (R346–R351, R342–R343), and what every effectful slot shares:
its checks and captures while the sett executes, its effect at commit (R200, R201).
-/
namespace Sys2Proof.Machine

/-! ## Effectful slots -/

/-- The executing slot is done; the next one of its phase comes up. -/
def Crew.nextSlot (c : Crew) : Crew := { c with stall := stNone, sett := c.sett.advance }

/-- An effectful slot keeps what it read at sett start, the conditions it sets before commit, and its place among the sett's writes. -/
def State.keep (s : State) (caps : List Cap) (waits : List WaitRec) : State :=
  s.updMe fun c => { c with sett := { c.sett.mark with caps := c.sett.caps ++ caps, waits := c.sett.waits ++ waits } }.nextSlot

/-- An effectful slot's results land, in their slot's place (R200). -/
def State.land (s : State) (wr : List Wr) : State :=
  s.updMe fun c => { c with sett := c.sett.lateWrites c.sett.slot wr }.nextSlot

/-- Do the holds that earlier slots of the sett left stand still (R344)? An access that follows a fence of its own sett waits for what the
fence covers (R139). -/
def State.fenced (s : State) : Bool := !(s.pendingHolds s.cur).isEmpty

/-- What the executing slot captured. -/
def Crew.caps (c : Crew) : List Cap := c.sett.caps.filter fun p => p.slot == c.sett.slot

/-- The location of what names no address. -/
def noLoc : Loc := ⟨.token, 0, 0, 0, 0⟩

/-- A wait condition of the executing slot. -/
def Crew.wait (c : Crew) (w : WaitKind) : WaitRec := ⟨c.sett.slot, w⟩

/-- The executing crew stalls where it stands. -/
def State.stallMe (s : State) (why : BitVec 4) : State := s.updMe fun c => { c with stall := why }

/-- An effectful slot: `check` while the sett executes, `act` at commit (R200). -/
def effSlot (check act : State → State) (s : State) : State :=
  match s.me.sett.phase with
  | .effects => act s
  | _ => check s

/-- A result written uniformly to the lanes of an effectful slot. -/
def uniWrites (c : Crew) (g : Guard) (d : Dst) (wide : Bool) (x : DWord) : List Wr :=
  dstWrites d wide false ((lanesOf (c.guardMask g)).map fun l => (l, x))

/-- The fence side of an acquire wider than .core: the L1 goes (R80). -/
def State.acquire (s : State) (core : Nat) (sc : Scope) : State := if Scope.wide sc then s.dropL1 core else s

/-- A release wider than .core sends what the core holds (R155). -/
def State.releaseAt (s : State) (core : Nat) (sc : Scope) : State := if Scope.wide sc then s.releaseCore core else s

/-- The executing core's own L1 keeps up with an access it performed at the home (R139: same location). -/
def State.touchL1 (s : State) (core dev pa n : Nat) : State :=
  s.updCore core fun q => { q with l1 := patchLines q.l1 dev (bytesAt pa (s.mem.readList pa n)) }

/-! ## Addresses (R346) -/

/-- Width in bytes (R347). -/
def memN : MemW → Nat
  | .n8 | .i8 => 1
  | .n16 | .i16 => 2
  | .n32 => 4
  | .n64 => 8
  | .n128 => 16

/-- INDEX × 2^SCALE + OFFSET with a signed index. -/
def scaledIdx (s : State) (c : Crew) (m : MemA) (l : Nat) : Int :=
  (src32 s c 1 m.index l).toInt * 2 ^ m.scale.toNat + m.off.toInt

/-- The location a lane of a load or store names. -/
def resMem (s : State) (c : Crew) (k : Nat) (sp : Space) (a : Acc) (m : MemA) (l : Nat) : Res :=
  let n := memN m.w
  match sp with
  | .global => s.resGlobal c k a ((src64 s c 0 m.base l).toNat + scaledIdx s c m l) n
  | .localMem => s.resLocal c ((src32 s c 0 m.base l).toNat + scaledIdx s c m l) n
  | .yard => s.resYard c ((src32 s c 0 m.base l).toNat + scaledIdx s c m l) n
  | .kv => s.resKv c (src32 s c 0 m.base l) ((src32 s c 1 m.index l).toNat * 2 ^ m.scale.toNat + m.off.toInt) n
  | .token => s.resToken (src32 s c 0 m.base l) ((src32 s c 1 m.index l).toNat * 2 ^ m.scale.toNat + m.off.toInt) n

/-! ## Bytes of a load (R343, R350) -/

/-- The byte that the sett's own plain stores of earlier slots put at an address: the last such write stands. -/
def Sett.ownByte (t : Sett) (slot dev a : Nat) : Option Byte :=
  t.stores.foldl (fun acc r => if r.slot < slot && r.loc.dev = dev then (Cells.find r.cells a).or acc else acc) none

/-- A byte of a location on this device, beyond the sett's own stores. -/
def State.locByte (s : State) (core : Nat) (x : Loc) (i : Nat) : Byte :=
  match x.space with
  | .token => ((s.pool.get x.pa).bits.extractLsb' (8 * (x.addr + i)) 8)
  | .global => s.viewByte core (x.pa + i) x.mtype
  | .kv => s.viewByte core (x.pa + i) 1
  | _ => s.homeByte core (x.pa + i)

/-- Bytes an answer from another device starts at: its line for normal pages (R81), the address itself otherwise. -/
def askBase (x : Loc) : Nat := if x.mtype = 0 then x.pa / 128 * 128 else x.pa
/-- Bytes asked for. -/
def askLen (x : Loc) (n : Nat) : Nat := if x.mtype = 0 then 128 else n

/-- The bytes of a lane's load: nothing while another device has not answered. -/
def State.loadBytes (s : State) (c : Crew) (slot lane : Nat) (x : Loc) (n : Nat) : Option (List Byte) :=
  let own := fun i (b : Byte) => (c.sett.ownByte slot x.dev (x.pa + i)).getD b
  if s.rmwOpen c.core x.dev x.pa n then none
  else if x.space == .token then some ((List.range n).map fun i => s.locByte c.core x i)
  else if x.dev = s.dev then some ((List.range n).map fun i => own i (s.locByte c.core x i))
  else
    let k := s.core c.core
    let cached : List (Option Byte) := (List.range n).map fun i => lineByte k.l1 x.dev (x.pa + i)
    let merged := fun i (b : Byte) => own i ((s.ownByte c.core x.dev (x.pa + i)).getD b)
    if x.mtype = 0 && cached.all Option.isSome then some ((List.range n).map fun i => merged i ((cached.getD i none).getD 0))
    else
      match c.sett.answer slot lane with
      | some bs => some ((List.range n).map fun i => merged i (bs.getD (x.pa + i - askBase x) 0))
      | none => none

/-- Does byte i of a load come from its sett's or its core's own stores (R91)? -/
def State.fromOwn (s : State) (c : Crew) (slot : Nat) (x : Loc) (i : Nat) : Bool :=
  (c.sett.ownByte slot x.dev (x.pa + i)).isSome || (s.ownByte c.core x.dev (x.pa + i)).isSome

/-- The word whose poison a load would read: bytes from the sett's own stores or the core's do not come from it (R91). -/
def State.loadPoison (s : State) (c : Crew) (slot : Nat) (x : Loc) (n : Nat) : Option DWord :=
  match x.space with
  | .token =>
    match (List.range n).find? fun i => (s.pool.get x.pa).poison.contains ((x.addr + i) / 4) with
    | some i => some (BitVec.ofNat 64 (x.addr + i - (x.addr + i) % 4))
    | none => none
  | _ =>
    if x.dev ≠ s.dev || s.poison.isEmpty then none
    else
      match (List.range n).find? fun i => s.poison.contains ((x.pa + i) / 4) && !s.fromOwn c slot x i with
      | some i => some (BitVec.ofNat 64 (x.addr + i - (x.pa + i) % 4))
      | none => none

/-- A lane's location with its poison check, the last of R348. -/
def withPoison (s : State) (c : Crew) (n : Nat) : Res → Res
  | .ok x =>
    match s.loadPoison c c.sett.slot x n with
    | some a => .bad cUncorrectable a
    | none => .ok x
  | r => r

/-- A lane's location on another device: the link has lost its load (R350), or its answer holds a poisoned word that the load reads (R91). -/
def withFarPoison (s : State) (c : Crew) (n lane : Nat) : Res → Res
  | .ok x =>
    if lane < 32 && c.sett.answer c.sett.slot lane == some [] then .bad cUncorrectable (BitVec.ofNat 64 x.addr)
    else if c.sett.remoteBad.isEmpty then .ok x
    else
      match (List.range n).find? fun i =>
          c.sett.answerBad c.sett.slot lane ((x.pa + i) / 4 - askBase x / 4) && !s.fromOwn c c.sett.slot x i with
      | some i => .bad cUncorrectable (BitVec.ofNat 64 (x.addr + i - (x.pa + i) % 4))
      | none => .ok x
  | r => r

/-- A loaded value as its register group receives it (R98, R350). -/
def extendLoad (w : MemW) (bs : List Byte) : Nat :=
  match w with
  | .i8 => ((BitVec.ofNat 8 (leNat bs)).signExtend 32).toNat
  | .i16 => ((BitVec.ofNat 16 (leNat bs)).signExtend 32).toNat
  | _ => leNat bs

/-- V registers of a group of `n` bytes. -/
def groupWrites (r n lane v : Nat) : List Wr :=
  (List.range ((n + 3) / 4)).map fun i => .v (r + i) lane (BitVec.ofNat 32 (v / 2 ^ (32 * i)))

/-- Bits 63:0 of a register group. -/
def groupStart (c : Crew) (r n lane : Nat) : DWord :=
  if n > 4 then c.vpair r lane else (c.vreg r lane).setWidth 64

/-- A plain load ends: its group and its transient, which holds bits 63:0 of what the group receives. -/
def endLoad (c : Crew) (m : MemA) (vs : List (Nat × Nat)) : Crew :=
  let n := memN m.w
  let r := m.r.toNat
  let t := c.sett
  { c with
    sett := { t with
      wr := t.wr ++ (vs.flatMap fun (p : Nat × Nat) => groupWrites r n p.1 p.2)
      trans := putTrans t.trans t.slot fun l =>
        match Cells.find vs l with
        | some v => BitVec.ofNat 64 v
        | none => groupStart c r n l } }.nextSlot

/-- Ask another device for a lane's bytes, once the core's own stores to those lines have performed (R139). A normal line may then enter the L1
when it comes, if `keep` (R81). -/
def State.askLoad (s : State) (k slot lane : Nat) (x : Loc) (n : Nat) (keep : Bool) : State :=
  let c := s.crew k
  if s.asked k slot lane then s
  else
    let s := s.settleLines c.core x.dev (askBase x) (askLen x n)
    if s.holdsLines c.core x.dev (askBase x) (askLen x n) then s
    else s.sendTo x.dev (.load k slot lane c.epoch x.addr (keep && x.mtype == 0)) fun q => .read s.dev q (askBase x) (askLen x n) c.level c.part

/-- A load's lines of this device enter the L1 and the die cache when they missed (R79, R86); a line that a load of another MTYPE has read
leaves the L1, which would give an older value later (R139). Lines of other devices enter as they come (R81). -/
def State.allocate (s : State) (c : Crew) (ls : List (Nat × Loc)) : State :=
  ls.foldl (fun s p =>
    match p.2.space with
    | .global =>
      if p.2.mtype = 0 then
        if p.2.dev ≠ s.dev || ((s.core c.core).l1.any fun e => e.dev == p.2.dev && e.line == p.2.pa / 128) then s
        else (s.fillL1 c.core p.2.dev p.2.pa).touchDc (p.2.pa / 128) 0 false
      else
        let s := s.dropLine c.core p.2.dev (p.2.pa / 128)
        if p.2.dev = s.dev then s.touchDc (p.2.pa / 128) p.2.mtype false else s
    | .kv => if p.2.dev = s.dev then (s.dropLine c.core p.2.dev (p.2.pa / 128)).touchDc (p.2.pa / 128) p.2.mtype false else s
    | _ => s) s

/-! ## LDKV misses (R32, R33) -/

/-- A free entry of a die fault queue (1,024 entries). -/
def Die.freeFq (d : Die) : Option Nat := (List.range 1024).find? fun i => !(d.fq.get i).valid

/-- A request parks in its die's fault queue, with its record (R33, R444). -/
def State.park (s : State) (die i : Nat) (e : FqEntry) : State :=
  let s := s.updDie die fun d => { d with fq := d.fq.put i { e with valid := true, order := d.fqOrder }, fqOrder := d.fqOrder + 1 }
  let fl := (if e.write then fgWrite else 0) + (if e.atomic then fgAtomic else 0) + (if e.remote then fgRemote else 0)
  s.emit die e.part (faultRec e.cause (fl) e.part die e.core e.unit e.ctx i e.aux.toNat e.addr)

/-- A KV miss parks the load; the sett waits with reason 0x1. A full fault queue or record buffer holds it (R33, R443). -/
def State.parkKv (s : State) (k lane : Nat) (handle : Word) (off : DWord) : State :=
  let c := s.crew k
  let d := dieOf c.core
  let s := s.updCrew k fun c => { c with stall := stOperand }
  match (s.die d).freeFq with
  | some i =>
    if s.recRoom d 1 then
      (s.park d i ⟨true, c.part, cKvMiss, off, handle, .ldkv k c.sett.slot lane c.epoch, 0, c.core, k, false, false, false, 0, 0⟩).updCrew k
        fun c => { c with sett := { c.sett with kvParked := some (lane, i) } }
    else s
  | none => s

/-! ## Loads -/

/-- The lanes of a load whose bytes are still with other devices, or with an atomic of the core on its way. -/
def State.awaited (s : State) (c : Crew) (n : Nat) (good : List (Nat × Loc)) : List (Nat × Loc) :=
  good.filter fun p => (s.loadBytes c c.sett.slot p.1 p.2 n).isNone

/-- A plain load while its sett executes (R350). The lowest lane that fails is reported once every lower lane's poison is known (R348). -/
def plainLoad (sp : Space) (m : MemA) (s : State) : State :=
  let c := s.me
  let k := s.cur
  let n := memN m.w
  let ls := lanesOf (c.guardMask m.g)
  if c.popTrap then s.setMe (raiseExc c cProtection 0 0)
  else
    let rs := ls.map fun l => (l, withFarPoison s c n l (withPoison s c n (resMem s c k sp .load m l)))
    let hard := firstBad (rs.filter fun r => match r.2 with
      | .bad cause _ => cause != cKvMiss
      | .ok _ => true)
    let first := (hard.map (·.1)).getD 32
    let good := (goodLocs rs).filter fun p => decide (p.1 < first)
    let open' := s.awaited c n good
    let ask := fun s : State => (open'.foldl (fun s p => s.askLoad k c.sett.slot p.1 p.2 n true) s).stallMe stOperand
    match hard with
    | some (l, cause, a) => if open'.isEmpty then s.setMe (raiseExc c cause a l) else ask s
    | none =>
      match firstBad rs with
      | some (l, _, off) => if c.sett.kvParked.isSome then s.stallMe stOperand else s.parkKv k l (src32 s c 0 m.base l) off
      | none =>
        if !open'.isEmpty then ask s
        else
          let value := fun l => match Cells.find good l with
            | some x => extendLoad m.w ((s.loadBytes c c.sett.slot l x n).getD [])
            | none => 0
          let s := (s.fillTlbs c.part k good).allocate c good
          let s := if sp == .kv then ls.foldl (fun s l =>
            s.kvFill c.part (dieOf c.core) (src32 s c 0 m.base l) ((Cells.find good l).getD default).addr) s else s
          s.setMe (endLoad c m (ls.map fun l => (l, value l)))

/-- Lanes of an effectful access of n bytes whose words lie on another device, which has not told whether they are poisoned: they are asked for
while the sett executes, as lane + 32 (R91, R348). -/
def State.farOpen (s : State) (c : Crew) (rs : List (Nat × Res)) : List (Nat × Loc) :=
  (goodLocs rs).filter fun p => p.2.dev != s.dev && (c.sett.answer c.sett.slot (p.1 + 32)).isNone

/-- An effectful access checks its lanes and captures their locations; `args` are operands read at sett start. One that reads n bytes
(`reads = some n`) meets the poison of another device's words too. -/
def State.captureLanes (s : State) (reads : Option Nat) (rs : List (Nat × Res)) (args : Nat → List DWord) (waits : List WaitKind) : State :=
  let c := s.me
  if c.popTrap then s.setMe (raiseExc c cProtection 0 0)
  else
    let rs := match reads with
      | some n => rs.map fun r => (r.1, withFarPoison s c n (r.1 + 32) r.2)
      | none => rs
    let first := ((firstBad rs).map (·.1)).getD 32
    let wait : List (Nat × Loc) := match reads with
      | some _ => (s.farOpen c rs).filter fun p => decide (p.1 < first)
      | none => []
    if !wait.isEmpty then
      (wait.foldl (fun s p => s.askLoad s.cur c.sett.slot (p.1 + 32) p.2 (reads.getD 0) false) s).stallMe stOperand
    else
      match firstBad rs with
      | some (l, cause, a) => s.setMe (raiseExc c cause a l)
      | none =>
        let good := goodLocs rs
        let s := s.fillTlbs c.part s.cur good
        s.keep (good.map fun p => ⟨c.sett.slot, p.1, p.2, args p.1⟩) (if good.isEmpty then [] else waits.map c.wait)

/-- Answers of other devices for the lanes of the executing slot: all there, or the first lane still asked. -/
def State.askCommit (s : State) (k : Nat) (p : Cap) (acc : Bool) (mk : Nat → TolsalMsg) : State :=
  if s.asked k p.slot p.lane then s else s.sendTo p.loc.dev (.commit k p.slot p.lane acc) mk

/-- What the core holds for the lines of captured locations performs first (R79). -/
def State.settleCaps (s : State) (core n : Nat) (caps : List Cap) : State :=
  caps.foldl (fun s p => s.settleLines core p.loc.dev p.loc.pa n) s

/-- Captured locations for whose lines the core still holds a store. -/
def State.capsHeld (s : State) (core n : Nat) (caps : List Cap) : Bool :=
  caps.any fun p => s.holdsLines core p.loc.dev p.loc.pa n

/-- A captured lane lies on another device, which has not answered. -/
def State.unanswered (s : State) (c : Crew) (p : Cap) : Bool := p.loc.dev != s.dev && (c.sett.answer p.slot p.lane).isNone

/-- The bytes of a captured lane: from the home, or from the answer; none when the link lost it. -/
def State.capBytes (s : State) (c : Crew) (n : Nat) (p : Cap) : List Byte :=
  if p.loc.dev = s.dev then s.mem.readList p.loc.pa n else (c.sett.answer p.slot p.lane).getD []

/-- An acquire load performs (R350): every lane at its home, the L1 of the core then gone for wide scopes. A lane whose request the
link lost, or that was cancelled at its home, leaves its destination unwritten; the trap is owed at the next sett (R35, R466). -/
def acquireLoad (m : MemA) (s : State) : State :=
  let c := s.me
  let k := s.cur
  let n := memN m.w
  let caps := c.caps
  let s := s.settleCaps c.core n caps
  if s.fenced || s.capsHeld c.core n caps then s.stallMe stOperand
  else if caps.any (s.unanswered c) then
    (caps.foldl (fun s p =>
      if s.unanswered c p then s.askCommit k p true fun q => .read s.dev q p.loc.pa n c.level c.part else s) s).stallMe stOperand
  else
    let good := caps.filter fun p => !(s.capBytes c n p).isEmpty
    let s' := good.foldl (fun t p => (if p.loc.dev = t.dev then t.touchDc (p.loc.pa / 128) p.loc.mtype false else t).dropLine c.core p.loc.dev
      (p.loc.pa / 128)) s
    let s' := if good.isEmpty then s' else s'.acquire c.core m.scope
    s'.land (good.flatMap fun p => groupWrites m.r.toNat n p.lane (extendLoad m.w (s.capBytes c n p)))

/-- A load: plain, or effectful as an acquire (R349, R350). -/
def loadInstr (sp : Space) (m : MemA) (s : State) : State :=
  if m.ord then
    effSlot (fun s =>
      let c := s.me
      s.captureLanes (some (memN m.w)) ((lanesOf (c.guardMask m.g)).map fun l => (l, withPoison s c (memN m.w) (resMem s c s.cur sp .load m l)))
        (fun _ => []) []) (acquireLoad m) s
  else plainLoad sp m s

/-- LDL (R349, R350). -/
def execLdl (m : MemA) (s : State) : Out := .next (loadInstr .localMem m s)
/-- LDG (R349, R350). -/
def execLdg (m : MemA) (s : State) : Out := .next (loadInstr .global m s)
/-- LDY (R349, R350). -/
def execLdy (m : MemA) (s : State) : Out := .next (loadInstr .yard m s)
/-- LDKV (R349, R350, R32). -/
def execLdkv (m : MemA) (s : State) : Out := .next (loadInstr .kv m s)
/-- LDT (R349, R350, R52). -/
def execLdt (m : MemA) (s : State) : Out := .next (loadInstr .token m s)

/-! ## Stores -/

/-- The low n bytes of a lane's data register group (R351). -/
def storeBytes (c : Crew) (r n lane : Nat) : List Byte :=
  (leBytes 16 ((List.range 4).foldl (fun a i => if 4 * i < n then a + (c.vreg (r + i) lane).toNat * 2 ^ (32 * i) else a) 0)).take n

/-- A plain store while its sett executes: checked, held until commit; its transient is 0 (R351). -/
def plainStore (sp : Space) (m : MemA) (s : State) : State :=
  let c := s.me
  let n := memN m.w
  let ls := lanesOf (c.guardMask m.g)
  let rs := ls.map fun l => (l, resMem s c s.cur sp .store m l)
  if c.popTrap then s.setMe (raiseExc c cProtection 0 0)
  else
    match firstBad rs with
    | some (l, cause, a) => s.setMe (raiseExc c cause a l)
    | none =>
      let good := goodLocs rs
      let s := s.fillTlbs c.part s.cur good
      let t := c.sett
      let c := { c with sett := { t with
        stores := t.stores ++ good.map fun p => ⟨t.slot, p.1, p.2, storeBytes c m.r.toNat n p.1⟩
        waits := if good.isEmpty then t.waits else t.waits ++ [c.wait (.cap .st)] } }
      s.setMe (endSlot c .trans false false [] 0 c.sett.gens)

/-- A release store (R351): it goes on its way behind everything that the core holds and has sent, so that its home performs it after those
(R79, R140, R155); the highest lane's bytes stand (R137); one ST operation. -/
def releaseStore (m : MemA) (s : State) : State :=
  let c := s.me
  let k := s.cur
  let n := memN m.w
  let caps := c.caps
  if caps.isEmpty then s.land []
  else if s.fenced then s.stallMe stWaitc
  else
    let rs := caps.map fun p => (⟨p.slot, p.lane, p.loc, storeBytes c m.r.toNat n p.lane⟩ : StoreRec)
    let s := ((s.flushCb c.core).issueSlot k rs).flushCb c.core
    (s.drain c.core).land []

/-- A store: plain, or effectful as a release (R349, R351). -/
def storeInstr (sp : Space) (m : MemA) (s : State) : State :=
  if m.ord then
    effSlot (fun s =>
      let c := s.me
      s.captureLanes none ((lanesOf (c.guardMask m.g)).map fun l => (l, resMem s c s.cur sp .store m l)) (fun _ => []) [.cap .st])
      (releaseStore m) s
  else plainStore sp m s

/-- STL (R349, R351). -/
def execStl (m : MemA) (s : State) : Out := .next (storeInstr .localMem m s)
/-- STG (R349, R351). -/
def execStg (m : MemA) (s : State) : Out := .next (storeInstr .global m s)
/-- STY (R349, R351). -/
def execSty (m : MemA) (s : State) : Out := .next (storeInstr .yard m s)

end Sys2Proof.Machine
end

