-- ==== Sys2Proof/Machine/Atomics.lean ====
section
/-!
DEFINITION. Sys2Proof/Machine/Atomics.lean: atomics, OP 0xA0–0xA5 (R352, R353, R153). The addresses are checked while the sett executes;
each lane's operation is performed at its home at commit.
-/
namespace Sys2Proof.Machine

/-- Bytes of an atomic type (R352). -/
def atomN (t : AtomTy) : Nat := if t.wide then 8 else 4

/-- The element type of an atomic: ADD.F32 adds FP32 words (R352). -/
def atomElem (op : AtomOp) : AtomTy → ElemTy
  | .n32 => if op == .addF32 then .f32 else .n32
  | .i32 => if op == .addF32 then .f32 else .i32
  | .n64 => .n64
  | .i64 => .i64

/-- The location of a lane of an atomic: BASE and OFFSET (R346), read and write permission (R26), then poison (R348). -/
def resAtom (s : State) (c : Crew) (sp : Space) (a : AtomA) (l : Nat) : Res :=
  let n := atomN a.ty
  withPoison s c n (match sp with
    | .global => s.resGlobal c s.cur .atomic ((src64 s c 0 a.base l).toNat + a.off.toInt) n
    | .yard => s.resYard c ((src32 s c 0 a.base l).toNat + a.off.toInt) n
    | _ => s.resLocal c ((src32 s c 0 a.base l).toNat + a.off.toInt) n)

/-- x at n bytes and y, as read at sett start. -/
def atomArgs (s : State) (c : Crew) (a : AtomA) (l : Nat) : List DWord :=
  [srcW s c 1 a.x a.ty.wide l, groupStart c a.r.toNat (atomN a.ty) l]

/-- x and y of a captured lane, as numbers of n bytes. -/
def capX (p : Cap) : Nat := (p.args.getD 0 0).toNat
/-- y of a captured lane. -/
def capY (p : Cap) : Nat := (p.args.getD 1 0).toNat

/-- A captured lane of an atomic as its home performs it. -/
def atomRmw (a : AtomA) (p : Cap) : Rmw := ⟨a.op, atomElem a.op a.ty, p.loc.pa, capX p, capY p⟩

/-- The request for an atomic at another device's home. -/
def atomMsg (s : State) (c : Crew) (a : AtomA) (p : Cap) (q : Nat) : TolsalMsg :=
  .atomic s.dev q p.loc.pa a.op (atomElem a.op a.ty) (p.args.getD 0 0) (p.args.getD 1 0) c.level c.part

/-- The old value of a lane is kept until the sett's writes land. -/
def State.putAnswer (s : State) (k slot lane : Nat) (bs : List Byte) : State :=
  s.updCrew k fun c => { c with sett := { c.sett with remote := c.sett.remote ++ [(slot, lane, bs)] } }

/-- The lanes of an atomic with return, upward (R137): each waits for its old value before the next is performed. True when all have
theirs. -/
def atomLanes (k : Nat) (a : AtomA) : List Cap → State → State × Bool
  | [], s => (s, true)
  | p :: ps, s =>
    if ((s.crew k).sett.answer p.slot p.lane).isSome then atomLanes k a ps s
    else if p.loc.dev = s.dev then
      let old := s.mem.readList p.loc.pa (atomN a.ty)
      atomLanes k a ps (((s.touchDc (p.loc.pa / 128) p.loc.mtype true).performRmw (atomRmw a p)).putAnswer k p.slot p.lane old)
    else (s.askCommit k p a.ord (atomMsg s (s.crew k) a p), false)

/-- The lines that an atomic may change leave the core's L1 (R80, R139). -/
def State.dropCaps (s : State) (core : Nat) (caps : List Cap) : State :=
  caps.foldl (fun s p => s.dropLine core p.loc.dev (p.loc.pa / 128)) s

/-- An atomic with return at commit: it performs after every write of its core that went before it (R139, R79), a release before it and an
acquire after it when ORD = 1 (R135). A lane whose answer the link lost leaves its destination unwritten (R466). -/
def atomReturn (a : AtomA) (s : State) : State :=
  let c := s.me
  let k := s.cur
  let caps := c.caps
  if caps.isEmpty then s.land []
  else
    let s := s.releaseCore c.core
    if s.fenced || s.coreBusy c.core then s.stallMe stOperand
    else
      match atomLanes k a caps (s.dropCaps c.core caps) with
      | (s, false) => s.stallMe stOperand
      | (s, true) =>
        let olds := caps.map fun p => (p.lane, ((s.crew k).sett.answer p.slot p.lane).getD [])
        let s := if a.ord then s.acquire c.core a.scope else s
        s.land ((olds.filter fun r => !r.2.isEmpty).flatMap fun r => groupWrites a.r.toNat (atomN a.ty) r.1 (leNat r.2))

/-- An atomic without return at commit: one ST operation (R174). Its lanes go on their way upward, behind everything that the core holds and
has sent, as a release does (R135, R137, R139, R155). -/
def atomSend (a : AtomA) (s : State) : State :=
  let c := s.me
  let k := s.cur
  let caps := c.caps
  if caps.isEmpty then s.land []
  else if s.fenced then s.stallMe stWaitc
  else
    let s := ((s.flushCb c.core).updCrew k fun c => c.issueOn .st).dropCaps c.core caps
    let tag := (k, (s.crew k).lastOn .st)
    let reqs := caps.map fun p =>
      (⟨c.core, p.loc.dev, c.part, c.level, [], [tag], some (atomRmw a p), [(p.loc.pa / 128, p.loc.mtype)]⟩ : HomeReq)
    let s := { s with inflight := s.inflight ++ reqs }
    (s.drain c.core).land []

/-- An atomic's two parts: what it captures, and what it does at commit. -/
def atomInstr (sp : Space) (ret : Bool) (a : AtomA) (s : State) : State :=
  effSlot (fun s =>
    let c := s.me
    s.captureLanes (some (atomN a.ty)) ((lanesOf (c.guardMask a.g)).map fun l => (l, resAtom s c sp a l)) (atomArgs s c a) (if ret then [] else [.cap .st]))
    (if ret then atomReturn a else atomSend a) s

/-- ATOM with return (R352, R353). -/
def execAtomGlobal (a : AtomA) (s : State) : Out := .next (atomInstr .global true a s)
/-- ATOM.L with return (R352, R353). -/
def execAtomLocal (a : AtomA) (s : State) : Out := .next (atomInstr .localMem true a s)
/-- ATOM.Y with return (R352, R353). -/
def execAtomYard (a : AtomA) (s : State) : Out := .next (atomInstr .yard true a s)
/-- ATOM without return (R352, R353). -/
def execAtomGlobalNoret (a : AtomA) (s : State) : Out := .next (atomInstr .global false a s)
/-- ATOM.L without return (R352, R353). -/
def execAtomLocalNoret (a : AtomA) (s : State) : Out := .next (atomInstr .localMem false a s)
/-- ATOM.Y without return (R352, R353). -/
def execAtomYardNoret (a : AtomA) (s : State) : Out := .next (atomInstr .yard false a s)

end Sys2Proof.Machine
end

