-- ==== Sys2Proof/Machine/Fences.lean ====
section
/-!
DEFINITION. Sys2Proof/Machine/Fences.lean: fences, prefetch and cache maintenance, OP 0xA6–0xAB (R354–R358, R143, R155, R82).
-/
namespace Sys2Proof.Machine

/-- A slot without operands that acts once for the crew: what it waits for, and what it does at commit (R272). -/
def onceSlot (g : Guard) (waits : List WaitKind) (act : State → State) (s : State) : State :=
  effSlot (fun s =>
    let c := s.me
    s.keep [] (if c.guardMask g == 0 then [] else waits.map c.wait))
    (fun s => if s.me.guardMask g == 0 then s.land [] else act s) s

/-! ## Fences (R354, R344) -/

/-- The after-commit hold of a fence: its own sett's stores, and for .ENG its engine operations. -/
def fenceHolds (c : Crew) (eng : Bool) (sent : List (Nat × Nat)) : List Hold :=
  .ops .st (c.lastOn .st) :: (if sent.isEmpty then [] else [.sent sent]) ++
  (if eng then [.ops .cp (c.lastOn .cp), .ops .mx (c.lastOn .mx), .ops .cl (c.lastOn .cl), .ops .tk (c.lastOn .tk), .fired] else [])

/-- The store operations of a core's crews that are on their way (R155). -/
def State.sentTags (s : State) (core : Nat) : List (Nat × Nat) :=
  (s.inflight.filter fun r => r.core == core).foldl (fun t r => joinTags t r.tags)
    (s.outstanding.foldl (fun t o => match o.who with
      | .store tags _ q _ _ => if q == core then joinTags t tags else t
      | _ => t) [])

/-- A fence at commit: a release and an acquire at its scope (R143, R155). What its own sett and its core have sent holds the next sett
until it has performed (R344). -/
def fenceAct (eng : Bool) (sc : Scope) (s : State) : State :=
  let c := s.me
  let s := s.releaseAt c.core sc
  let sent := if Scope.wide sc then s.sentTags c.core else []
  ((s.acquire c.core sc).updMe fun c => { c with holds := c.holds ++ fenceHolds c eng sent }).land []

/-- FENCE (R354). -/
def execFence (g : Guard) (scope : Scope) (s : State) : Out :=
  .next (onceSlot g [.fence false (Scope.wide scope)] (fenceAct false scope) s)

/-- FENCE.ENG (R354). -/
def execFenceEng (g : Guard) (scope : Scope) (s : State) : Out :=
  .next (onceSlot g [.fence true (Scope.wide scope)] (fenceAct true scope) s)

/-! ## Prefetch (R355) -/

/-- The line a lane of PREF names, by its first virtual address; an address outside the space is dropped. -/
def prefLine (s : State) (c : Crew) (base index : Src) (off : BitVec 14) (scale : BitVec 2) (l : Nat) : Option DWord :=
  let a := (src64 s c 0 base l).toNat + ((src32 s c 1 index l).toInt * 2 ^ scale.toNat + off.toInt)
  if a < 0 || a ≥ 2 ^ 56 then none else some (BitVec.ofNat 64 (a.toNat / 128 * 128))

/-- PREF while its sett executes: its lines are kept until commit; its transient is 0 and it never traps on an address. -/
def prefSlot (dc : Bool) (base index : Src) (off : BitVec 14) (g : Guard) (scale : BitVec 2) (s : State) : State :=
  let c := s.me
  let ls := lanesOf (c.guardMask g)
  if c.popTrap then s.setMe (raiseExc c cProtection 0 0)
  else if ls.isEmpty then s.setMe (endSlot c .trans false false [] 0 c.sett.gens)
  else
    let vas := ascending (ls.filterMap (prefLine s c base index off scale))
    let c := { c with sett := { c.sett with
      caps := c.sett.caps ++ [⟨c.sett.slot, if dc then 1 else 0, noLoc, vas⟩]
      waits := c.sett.waits ++ [c.wait (.cap .ld)] } }
    s.setMe (endSlot c .trans false false [] 0 c.sett.gens)

/-- PREF.L1 (R355). -/
def execPrefL1 (base index : Src) (off : BitVec 14) (g : Guard) (scale : BitVec 2) (s : State) : Out :=
  .next (prefSlot false base index off g scale s)
/-- PREF.DC (R355). -/
def execPrefDc (base index : Src) (off : BitVec 14) (g : Guard) (scale : BitVec 2) (s : State) : Out :=
  .next (prefSlot true base index off g scale s)

/-! ## Line ranges (R356) -/

/-- The lines a lane names, as device × 2⁴¹ + line, or the failure of the first that fails. -/
inductive RangeR where
  | ok (keys : List Nat)
  | bad (cause : BitVec 8) (addr : DWord)
  deriving DecidableEq, Repr

/-- n consecutive lines from the line of a virtual address: validity and range are checked, no permission (R356). -/
def State.lineKeys (s : State) (c : Crew) (k va : Nat) : Nat → RangeR
  | 0 => .ok []
  | n + 1 =>
    if va ≥ 2 ^ 56 then .bad cProtection (BitVec.ofNat 64 va)
    else
      match s.xlat c.part k c.level false .valid va with
      | .bad cause => .bad cause (BitVec.ofNat 64 va)
      | .ok dev pa _ =>
        match s.lineKeys c k (va + 128) n with
        | .ok ks => .ok ((dev * 2 ^ 41 + pa / 128) :: ks)
        | r => r

/-- The lines of one lane of CWB, CINV or IINV: a count of 0 names nothing, one above 65,536 raises BOUNDS. -/
def laneLines (s : State) (c : Crew) (k : Nat) (a : RangeA) (l : Nat) : RangeR :=
  let sum := (src64 s c 0 a.base l).toNat + a.off.toInt
  let n := (src32 s c 1 a.n l).toNat
  if n = 0 then .ok []
  else if n > 65536 then .bad cBounds (BitVec.ofInt 64 sum)
  else if sum < 0 || sum ≥ 2 ^ 56 then .bad cProtection (BitVec.ofInt 64 sum)
  else s.lineKeys c k (sum.toNat / 128 * 128) n

/-- The union of the lanes' ranges, or the first lane that fails (R348). -/
def rangeUnion (s : State) (c : Crew) (k : Nat) (a : RangeA) : List Nat → List Nat × Option (Nat × BitVec 8 × DWord)
  | [] => ([], none)
  | l :: ls =>
    match laneLines s c k a l with
    | .bad cause addr => ([], some (l, cause, addr))
    | .ok ks =>
      let (r, e) := rangeUnion s c k a ls
      (ks ++ r.filter fun x => !ks.contains x, e)

/-- A line-range instruction: it keeps its lines while its sett executes, and acts on them at commit. -/
def rangeSlot (a : RangeA) (waits : List WaitKind) (act : List Nat → State → State) (s : State) : State :=
  effSlot (fun s =>
    let c := s.me
    if c.popTrap then s.setMe (raiseExc c cProtection 0 0)
    else if c.guardMask a.g == 0 then s.keep [] []
    else
      match rangeUnion s c s.cur a (lanesOf (c.guardMask a.g)) with
      | (_, some (l, cause, addr)) => s.setMe (raiseExc c cause addr l)
      | (ks, none) => s.keep [⟨c.sett.slot, 0, noLoc, ks.map fun n => BitVec.ofNat 64 n⟩] (waits.map c.wait))
    (fun s => match s.me.caps with
      | p :: _ => act (p.args.map (·.toNat)) s
      | [] => s.land []) s

/-- Does a write on its way touch one of the lines? -/
def inLines (keys : List Nat) (dev : Nat) (bs : List (Nat × Byte)) : Bool :=
  bs.any fun b => keys.contains (dev * 2 ^ 41 + b.1 / 128)

/-- A request in flight of a core that touches the lines belongs to an operation too. -/
def tagReq (core : Nat) (keys : List Nat) (tag : Nat × Nat) (r : HomeReq) : HomeReq :=
  if r.core == core && inLines keys r.dev r.bytes then { r with tags := joinTags r.tags [tag] } else r

/-- So does one sent to another device. -/
def tagSent (core : Nat) (keys : List Nat) (tag : Nat × Nat) (o : Outstanding) : Outstanding :=
  match o.who, o.msg with
  | .store tags part q ctx pa, .write _ _ a bs _ _ =>
    if q == core && inLines keys o.dev (bytesAt a bs) then { o with who := .store (joinTags tags [tag]) part q ctx pa } else o
  | _, _ => o

/-- CWB (R356): the buffer's lines within the ranges are sent; the whole buffer goes with them, as one group (R79, R140). The operation
is complete when every write of those lines that the core has sent has performed. -/
def cwbAct (keys : List Nat) (s : State) : State :=
  let k := s.cur
  let c := s.me
  let s := s.updCrew k fun c => c.issueOn .st
  let seq := (s.crew k).lastOn .st
  let tag := (k, seq)
  let s := if (s.core c.core).cb.any fun e => keys.contains (e.dev * 2 ^ 41 + e.line) then s.flushCb c.core else s
  let s := { s with
    inflight := s.inflight.map (tagReq c.core keys tag)
    outstanding := s.outstanding.map (tagSent c.core keys tag) }
  let s := s.updCrew k fun c => { c with cwbs := (c.cwbs.filter fun n => s.tagLive (k, n)) ++ [seq] }
  (s.settleTags [tag]).land []

/-- CWB (R356). -/
def execCwb (a : RangeA) (s : State) : Out := .next (rangeSlot a [.cap .st] cwbAct s)

/-- CINV (R356): the core's L1 drops the lines; one ST operation, complete at once. -/
def cinvAct (keys : List Nat) (s : State) : State :=
  let k := s.cur
  let c := s.me
  let s := s.updCrew k fun c => c.issueOn .st
  let s := (s.updCore c.core fun q => { q with l1 := q.l1.filter fun e => !keys.contains (lineKey e.dev e.line) }).unkeep c.core
    fun dev line => keys.contains (lineKey dev line)
  (s.completeOn k .st ((s.crew k).lastOn .st)).land []

/-- CINV (R356). -/
def execCinv (a : RangeA) (s : State) : Out := .next (rangeSlot a [.cap .st] cinvAct s)

/-- The cores whose instruction caches IINV names (R357). -/
def iinvCores (core : Nat) : Scope → List Nat
  | .crew | .gang | .core => [core]
  | .cluster => (List.range Config.coresPerCluster).map (clusterOf core * Config.coresPerCluster + ·)
  | .die => (List.range Config.coresPerDie).map (dieOf core * Config.coresPerDie + ·)
  | _ => List.range Config.cores

/-- IINV (R357): after every CWB of the crew the named caches drop the lines; while one of its own sett's is not complete, the next sett waits
for it (R344). -/
def iinvAct (sc : Scope) (keys : List Nat) (s : State) : State :=
  let c := s.me
  let cores := iinvCores c.core sc
  let s := if c.cwbs.any fun n => s.tagLive (s.cur, n) then s.drain c.core else s
  let open' := s.me.cwbs.filter fun n => s.tagLive (s.cur, n)
  if open'.isEmpty then (s.dropCode cores keys).land []
  else (s.updMe fun c => { c with holds := c.holds ++ [.iinv cores keys open'] }).land []

/-- IINV (R356, R357). -/
def execIinv (a : RangeA) (scope : Scope) (s : State) : Out := .next (rangeSlot a [.iinv] (iinvAct scope) s)

/-- FETCHB (R358): the crew's fetch buffer is emptied. -/
def execFetchb (g : Guard) (s : State) : Out :=
  .next (onceSlot g [] (fun s => (s.updMe fun c => { c with fetch := [] }).land []) s)

end Sys2Proof.Machine
end

