-- ==== Sys2Proof/Machine/Sync.lean ====
section
/-!
DEFINITION. Sys2Proof/Machine/Sync.lean: synchronisation, OP 0xB0–0xBA (R360–R370), and the wake-ups of a waiting crew (R172).
-/
namespace Sys2Proof.Machine

/-! ## Gang barriers (R361, R362) -/

/-- A barrier slot: a crew that is no member traps PROTECTION (R219). -/
def barSlot (g : Guard) (waits : List WaitKind) (act : State → State) (s : State) : State :=
  let c := s.me
  if c.sett.phase != .effects && c.guardMask g != 0 && !c.member then s.setMe (raiseExc c cProtection 0 0)
  else onceSlot g waits act s

/-- BAR.ARRIVE (R361). -/
def execBarArrive (g : Guard) (k : BitVec 4) (s : State) : Out :=
  .next (barSlot g [.barArrive k.toNat] (fun s => (s.arrive s.cur k.toNat).land []) s)

/-- BAR.WAIT (R361): it changes no barrier state. -/
def execBarWait (g : Guard) (k : BitVec 4) (s : State) : Out :=
  .next (barSlot g [.barWait k.toNat] (fun s => s.land []) s)

/-- BAR.SYNC (R361): the arrival, and the wait on it as an after-commit hold. -/
def execBarSync (g : Guard) (k : BitVec 4) (s : State) : Out :=
  .next (barSlot g [.barArrive k.toNat] (fun s =>
    let ph := ((s.gang s.me.gang).bars.get k.toNat).phase
    let held := s.arrivesHeld s.cur k.toNat
    ((s.arrive s.cur k.toNat).updMe fun c => { c with holds := c.holds ++ [.bar k.toNat ph held] }).land []) s)

/-! ## Joining and leaving (R363–R365) -/

/-- CREW.JOIN (R363): a member traps PROTECTION. -/
def execCrewJoin (g : Guard) (s : State) : Out :=
  let c := s.me
  if c.sett.phase != .effects && c.guardMask g != 0 && c.member then .next (s.setMe (raiseExc c cProtection 0 0))
  else .next (onceSlot g [] (fun s => (s.joinAll s.cur).land []) s)

/-- CREW.LEAVE at commit (R364): refused to the gang's only member; otherwise the crew ends with what its sett wrote. -/
def leaveAct (d : Dst) (g : Guard) (s : State) : State :=
  let k := s.cur
  let c := s.me
  if c.member && s.memberCount c.gang == 1 then s.land (uniWrites c g d false 1)
  else if !s.endRoom k then s.stallMe stWaitc
  else
    let s := s.finishWrites k
    (if c.member then s.leaveAll k else s).endCrew k true

/-- CREW.LEAVE (R364). -/
def execCrewLeave (d : Dst) (g : Guard) (s : State) : Out := .next (onceSlot g [.leave] (leaveAct d g) s)

/-- CREW.QUERY (R365): $press. -/
def execCrewQuery (d : Dst) (g : Guard) (s : State) : Out :=
  .next (valueSlot s g d false false fun c _ => pressWord (s.core c.core))

/-- The word of CREW.QUERY.GANG (R365). -/
def gangWord (s : State) (c : Crew) : DWord :=
  let members := s.memberCount c.gang
  let attached := (s.gangCrews c.gang).length - members
  BitVec.ofNat 64 ((if c.member then 2 ^ 31 else 0) + (s.gang c.gang).reserve.length % 64 * 2 ^ 16 + attached % 64 * 2 ^ 8 + members % 64)

/-- CREW.QUERY.GANG (R365). -/
def execCrewQueryGang (d : Dst) (g : Guard) (s : State) : Out :=
  .next (valueSlot s g d false false fun c _ => gangWord s c)

/-! ## Channel queues (R366, R367) -/

/-- A slot that keeps one value for the crew while its sett executes and acts on it at commit. -/
def valueOnce (g : Guard) (waits : DWord → List WaitKind) (v : Crew → DWord) (act : DWord → State → State) (s : State) : State :=
  effSlot (fun s =>
    let c := s.me
    if c.popTrap then s.setMe (raiseExc c cProtection 0 0)
    else if c.guardMask g == 0 then s.keep [] []
    else s.keep [⟨c.sett.slot, 0, noLoc, [v c]⟩] ((waits (v c)).map c.wait))
    (fun s => match s.me.caps with
      | p :: _ => act (p.args.headD 0) s
      | [] => s.land []) s

/-- QPUSH (R367): the entry enters the queue with the sett's others. -/
def execQpush (g : Guard) (a : Src) (n : BitVec 4) (s : State) : Out :=
  .next (valueOnce g (fun _ => []) (fun c => uni64 s c 0 a g)
    (fun v s => (s.updMe fun c => { c with sett := { c.sett with pushed := c.sett.pushed ++ [(n.toNat, v)] } }).land []) s)

/-- QPOP (R367): the reserved entry lands in d. A bound queue traps PROTECTION. -/
def execQpop (d : Dst) (g : Guard) (_n : BitVec 4) (s : State) : Out :=
  .next (effSlot (fun s =>
    let c := s.me
    if c.popTrap then s.setMe (raiseExc c cProtection 0 0) else s.keep [] [])
    (fun s =>
      let c := s.me
      s.land (uniWrites c g d true (c.sett.pops.get (c.sett.slot * 4 + 3)))) s)

/-! ## Counters and stamps (R368–R370) -/

/-- WAITC (R368): a threshold at or above the cap waits for nothing. -/
def execWaitc (g : Guard) (a : Src) (p : Path6) (s : State) : Out :=
  .next (valueOnce g (fun v => if v.toNat ≥ pathCap p then [] else [.waitc p v.toNat])
    (fun c => (uni32 s c 0 a g).setWidth 64) (fun _ s => s.land []) s)

/-- Codes of the spaces a monitor may name. -/
def spaceNo : Space3 → Nat
  | .global => 0
  | .localMem => 1
  | .yard => 2

/-- The check of MON.ARM's address (R369): a global address is not translated. -/
def monCheck (s : State) (c : Crew) (sp : Space3) (a : DWord) : Res :=
  match sp with
  | .global =>
    if a.toNat ≥ 2 ^ 56 then .bad cProtection a
    else if a.toNat % 8 ≠ 0 then .bad cAlign a
    else .ok default
  | .localMem => s.resLocal c (a.toNat % 2 ^ 32 : Nat) 8
  | .yard => s.resYard c (a.toNat % 2 ^ 32 : Nat) 8

/-- Arming at commit (R369): the monitor takes the address and the scope; a registration for the old address is dropped. -/
def armAct (sp : Space3) (sc : Scope) (k : Nat) (a : DWord) (s : State) : State :=
  let a := match sp with
    | .global => a
    | _ => (a.setWidth 32).setWidth 64
  ({ s with regs := s.regs.filter fun r => r.crew != s.cur }.updMe fun c =>
    { c with mons := c.mons.put k ⟨true, spaceNo sp, a, (Scope.code sc).toNat⟩ }).land []

/-- MON.ARM (R369). -/
def execMonArm (g : Guard) (a : Src) (sp : Space3) (scope : Scope) (k : BitVec 2) (s : State) : Out :=
  let c := s.me
  if c.sett.phase != .effects && c.guardMask g != 0 && !c.popTrap then
    match monCheck s c sp (uni64 s c 0 a g) with
    | .bad cause addr => .next (s.setMe (raiseExc c cause addr 0))
    | .ok _ => .next (valueOnce g (fun _ => []) (fun c => uni64 s c 0 a g) (armAct sp scope k.toNat) s)
  else .next (valueOnce g (fun _ => []) (fun c => uni64 s c 0 a g) (armAct sp scope k.toNat) s)

/-- The location a monitor names, translated as a load of 8 bytes (R370, R32). -/
def monLoc (s : State) (c : Crew) (m : Monitor) : Res :=
  withPoison s c 8 (match m.space with
    | 0 => s.resGlobal c s.cur .load m.addr.toNat 8
    | 1 => s.resLocal c m.addr.toNat 8
    | _ => s.resYard c m.addr.toNat 8)

/-- WAIT.STAMP at commit: the observed word lands in d; an acquire at the monitor's scope (R171, R148). -/
def stampAct (d : Dst) (g : Guard) (s : State) : State :=
  let c := s.me
  match c.caps with
  | [] => s.land []
  | p :: _ =>
    let wide := decide ((p.args.headD 0).toNat ≥ 3)
    let w := c.sett.stValue.get c.sett.slot
    let s := if wide then s.dropL1 c.core else s
    s.land (uniWrites c g d true w)

/-- WAIT.STAMP (R370): an unarmed monitor traps PROTECTION (R172). -/
def execWaitStamp (d : Dst) (g : Guard) (v : Src) (cmp : StampCmp) (k : BitVec 2) (s : State) : Out :=
  .next (effSlot (fun s =>
    let c := s.me
    let m := c.mons.get k.toNat
    if c.popTrap then s.setMe (raiseExc c cProtection 0 0)
    else if c.guardMask g == 0 then s.keep [] []
    else if !m.armed then s.setMe (raiseExc c cProtection 0 0)
    else
      match monLoc s c m with
      | .bad cause a => s.setMe (raiseExc c cause a 0)
      | .ok x =>
        let s := s.fillTlbs c.part s.cur [(0, x)]
        s.keep [⟨c.sett.slot, 0, x, [BitVec.ofNat 64 m.scope]⟩] [c.wait (.stamp k.toNat cmp (bitsOf (uni64 s c 0 v g) 0 56) x)])
    (stampAct d g) s)

/-- Does a crew wait at WAIT.STAMP before its commit? -/
def Crew.stampWaiting (c : Crew) : Bool :=
  c.sett.phase == .exec && c.sett.exc.isNone && decide (c.sett.slot ≥ c.sett.nslots) && c.sett.waits.any fun w => match w.kind with
    | .stamp _ _ _ _ => true
    | _ => false

/-- STAMP_MONITOR_WAKE (R172): a registered stamp was written; its waiter reads it again. -/
def execStampMonitorWake (crew : Nat) (s : State) : Out :=
  if s.regs.any (fun r => r.crew == crew && r.written) && (s.crew crew).stampWaiting then
    .next ({ s with regs := s.regs.filter fun r => !(r.crew == crew && r.written) }.settCommit crew)
  else .next s

/-- STAMP_POLL_TIMER (R172): a waiter without a registration reads its stamp again. -/
def execStampPollTimer (crew : Nat) (s : State) : Out :=
  let c := s.crew crew
  if c.stampWaiting && !(s.regs.any fun r => r.crew == crew) then
    .next ((s.updCrew crew fun c => { c with sett := { c.sett with
      remote := c.sett.remote.filter fun r => !(c.sett.waits.any fun w => w.slot == r.1 && (match w.kind with
        | .stamp _ _ _ _ => true
        | _ => false)) } }).settCommit crew)
  else .next s

end Sys2Proof.Machine
end

