-- ==== Sys2Proof/Machine/Shape.lean ====
section
/-!
DEFINITION. Sys2Proof/Machine/Shape.lean: shape records (R124–R130), the addresses of their elements, and SHAPE.MAKE (R384).
-/
namespace Sys2Proof.Machine

/-! ## Records (R124, R125) -/

/-- A shape record with its dimension table: sizes, strides and box extents by dimension, dimension 0 first (its stride reads 0). -/
structure Shape where
  bounds : Nat
  swz : Nat
  space : Nat
  etype : Nat
  base : Nat
  sizes : List Nat
  strides : List Nat
  boxes : List Nat
  kvh : Nat
  scaleBase : Nat
  deriving DecidableEq, Repr, Inhabited

/-- Bits of an element type (R115); 0 for an unlisted code. -/
def etBits (t : Nat) : Nat :=
  if t = 0x00 || t = 0x04 || t = 0x13 || t = 0x14 || t = 0x18 || t = 0x19 then 8
  else if t = 0x01 || t = 0x05 || t = 0x11 || t = 0x12 then 16
  else if t = 0x02 || t = 0x06 || t = 0x10 then 32
  else if t = 0x03 || t = 0x07 then 64
  else if t = 0x08 || t = 0x09 || t = 0x1C then 4
  else if t = 0x1A || t = 0x1B then 6
  else 0

/-- MX types. -/
def etMx (t : Nat) : Bool := decide (0x18 ≤ t) && decide (t ≤ 0x1C)

/-- Rank of a record. -/
def recRank (r : Rec256) : Nat := bitsOf r 252 4 + 1
/-- Address of the dimension table; 0 for none. -/
def recDimt (r : Rec256) : Nat := bitsOf r 192 48 * 256
/-- Bytes of a record's dimension table (R125). -/
def tableLen (r : Rec256) : Nat := 16 * (max 1 (recRank r - 1))
/-- Must a record have a dimension table (R125)? -/
def needsTable (r : Rec256) : Bool := decide (recRank r ≥ 3) || etMx (bitsOf r 56 5) || bitsOf r 61 3 == 1

/-- A 128-bit entry of a dimension table. -/
def tabEntry (tab : List Byte) (i : Nat) : Nat := leNat ((tab.drop (16 * i)).take 16)

/-- A field of a number. -/
def fieldOf (x lo len : Nat) : Nat := x / 2 ^ lo % 2 ^ len

/-- The record and its table as a shape. -/
def shapeOf (r : Rec256) (tab : List Byte) : Shape :=
  let rank := recRank r
  let more := (List.range (rank - 2)).map fun j => tabEntry tab (j + 1)
  let h := tabEntry tab 0
  { bounds := bitsOf r 250 2
    swz := bitsOf r 247 3
    space := bitsOf r 61 3
    etype := bitsOf r 56 5
    base := bitsOf r 0 56
    sizes := bitsOf r 96 32 :: (if rank ≥ 2 then bitsOf r 160 32 :: more.map (fieldOf · 96 32) else [])
    strides := 0 :: (if rank ≥ 2 then bitsOf r 128 32 :: more.map (fieldOf · 0 56) else [])
    boxes := bitsOf r 80 16 :: (if rank ≥ 2 then bitsOf r 64 16 :: more.map (fieldOf · 80 16) else [])
    kvh := fieldOf h 64 32
    scaleBase := fieldOf h 0 56 }

/-- Element width in bits. -/
def Shape.w (x : Shape) : Nat := etBits x.etype
/-- MX elements? -/
def Shape.mx (x : Shape) : Bool := etMx x.etype
/-- A product of sizes. -/
def prodOf (l : List Nat) : Nat := l.foldl (· * ·) 1
/-- Elements of the box. -/
def Shape.count (x : Shape) : Nat := prodOf x.boxes
/-- Bytes of the box's elements. -/
def Shape.boxBytes (x : Shape) : Nat := x.count * x.w / 8
/-- Bytes of the box with the scales of its blocks. -/
def Shape.tileBytes (x : Shape) : Nat := x.boxBytes + (if x.mx then x.count / 16 else 0)
/-- The box's dimension-0 extent in bytes: P of R128. -/
def Shape.rowBytes (x : Shape) : Nat := x.boxes.headD 0 * x.w / 8
/-- Swizzle span in bytes; 0 for none. -/
def spanBytes (swz : Nat) : Nat := if swz = 0 then 0 else 16 * 2 ^ swz

/-! ## Checks (R129) -/

/-- FIELD failures that the record alone shows. Bits of BASE above the space's range are counted among them (log 87). -/
def recField (r : Rec256) : Bool :=
  bitsOf r 240 7 != 0 || etBits (bitsOf r 56 5) == 0 || decide (bitsOf r 61 3 > 3) || decide (bitsOf r 247 3 > 4) ||
  bitsOf r 250 2 == 3 || (recRank r == 1 && (bitsOf r 128 64 != 0 || bitsOf r 64 16 != 0)) ||
  ((recDimt r != 0) != needsTable r) || (bitsOf r 61 3 != 0 && bitsOf r 32 24 != 0)

/-- FIELD failures of the dimension table. KVH of a record outside KV space and SCALEBASE of a record without MX elements are counted among them
when they are not zero, and so are bits of SCALEBASE above the space's range (log 87). -/
def tabField (r : Rec256) (tab : List Byte) : Bool :=
  let h := tabEntry tab 0
  fieldOf h 96 32 != 0 || fieldOf h 56 8 != 0 || (bitsOf r 61 3 != 1 && fieldOf h 64 32 != 0) ||
  (!etMx (bitsOf r 56 5) && fieldOf h 0 56 != 0) || (bitsOf r 61 3 != 0 && fieldOf h 32 24 != 0) ||
  (List.range (recRank r - 2)).any fun j => fieldOf (tabEntry tab (j + 1)) 56 24 != 0

/-- Distance from the first to the last byte of the tensor. -/
def Shape.extent (x : Shape) : Nat :=
  ((x.sizes.zip x.strides).map fun p => (p.1 - 1) * p.2).sum + (x.sizes.headD 0 * x.w + 7) / 8 - 1

/-- Distance from the first to the last byte of the scale array. -/
def Shape.scaleExtent (x : Shape) : Nat := x.sizes.headD 0 / 16 * prodOf x.sizes.tail - 1

/-- Does a byte range leave its space (EXTENT)? -/
def leavesSpace (space first dist : Nat) : Bool :=
  match space with
  | 0 => decide (first + dist ≥ 2 ^ 56) || (decide (first < privBase) && decide (first + dist ≥ privBase))
  | 1 => decide (first + dist ≥ 2 ^ 32)
  | 2 => decide (first + dist ≥ 2 ^ 18)
  | _ => decide (first % 2 ^ 21 + dist ≥ 2 ^ 21)

/-- The status of a record whose FIELD checks pass. -/
def Shape.check (x : Shape) : Nat :=
  let p := x.rowBytes
  let w := spanBytes x.swz
  if x.sizes.contains 0 || x.boxes.contains 0 || (x.mx && x.sizes.headD 0 % 16 != 0) then 2
  else if x.base % 16 ≠ 0 then 3
  else if x.strides.any (· % 16 != 0) then 4
  else if x.boxes.headD 0 * x.w % 128 ≠ 0 || (x.mx && x.boxes.headD 0 % 16 != 0) || x.count * x.w > 2 ^ 24 ||
      (w ≠ 0 && (p < w || p % w ≠ 0)) then 5
  else if leavesSpace x.space x.base x.extent || (x.mx && leavesSpace x.space x.scaleBase x.scaleExtent) then 6
  else 0

/-- R129 over a record and its table. -/
def shapeStatus (r : Rec256) (tab : List Byte) : Nat :=
  if recField r then 1 else if needsTable r && tabField r tab then 1 else (shapeOf r tab).check

/-! ## Elements (R126–R128) -/

/-- Coordinates of the box element with linear index q, dimension 0 fastest. -/
def coordsOf : List Nat → Nat → List Nat
  | [], _ => []
  | b :: bs, q => q % b :: coordsOf bs (q / b)

/-- A signed half of an origin word (R373). -/
def originI (o : DWord) (d : Nat) : Int :=
  match d with
  | 0 => (o.setWidth 32).toInt
  | 1 => (o.extractLsb' 32 32).toInt
  | _ => 0

/-- Tensor coordinates of box coordinates. -/
def placed (o : DWord) (cs : List Nat) : List Int :=
  ((List.range cs.length).zip cs).map fun p => originI o p.1 + p.2

/-- Is an element in bounds (R127)? -/
def Shape.inBounds (x : Shape) (is : List Int) : Bool :=
  (is.zip x.sizes).all fun p => decide (0 ≤ p.1) && decide (p.1 < p.2)

/-- Is element q of a box at an origin in bounds? An MX block counts as out of bounds when any of its elements does (R127). Blocks are counted by
place in the box, from its own first element, and a block's scale is that of its first element, also where the origin is no multiple of 16
(log 87). -/
def Shape.elemIn (x : Shape) (o : DWord) (q : Nat) : Bool :=
  if etMx x.etype then
    x.inBounds (placed o (coordsOf x.boxes (q / 16 * 16))) && x.inBounds (placed o (coordsOf x.boxes (q / 16 * 16 + 15)))
  else x.inBounds (placed o (coordsOf x.boxes q))

/-- Is the box at an origin within its tensor? -/
def Shape.boxInside (x : Shape) (o : DWord) : Bool :=
  (List.range x.boxes.length).all fun d =>
    decide (0 ≤ originI o d) && decide (originI o d + (x.boxes.getD d 0 : Int) ≤ (x.sizes.getD d 0 : Int))

/-- Σ i_d × STRIDE_d. -/
def Shape.rowOff (x : Shape) (is : List Int) : Nat := ((is.zip x.strides).map fun p => p.1.toNat * p.2).sum

/-- Linear index of the coordinates above dimension 0: L of R126. -/
def lineIndex : List Nat → List Nat → Nat
  | i :: is, s :: ss => i + s * lineIndex is ss
  | _, _ => 0

/-- Byte address of an MX element's scale (R126). -/
def Shape.scaleAddr (x : Shape) (is : List Int) : Nat :=
  let ns := is.map Int.toNat
  x.scaleBase + ns.headD 0 / 16 + x.sizes.headD 0 / 16 * lineIndex ns.tail x.sizes.tail

/-- Swizzled place of byte b of box row q (R128). -/
def swizzle (span rowBytes q b : Nat) : Nat :=
  if span = 0 || b ≥ rowBytes then b else (b / 16 ^^^ (q % (span / 16))) * 16 + b % 16

/-- The record as the tensor side of a tile load or of an accumulator's load or store names it: never swizzled (R128, R379). -/
def Shape.flat (x : Shape) : Shape := { x with swz := 0 }

/-- The bytes an in-bounds element lies in, as addresses in the record's space with the bit its lowest byte starts at (R126). A local or yard
box is swizzled by its record's span (R128); a copy between two such boxes swizzles each by its own (log 87). -/
def Shape.elemBytes (x : Shape) (o : DWord) (q : Nat) : List Nat × Nat :=
  let cs := coordsOf x.boxes q
  let is := placed o cs
  let span := if x.space ≥ 2 then spanBytes x.swz else 0
  let rowBit : Int := 8 * ((x.base + x.rowOff is : Nat) : Int) + originI o 0 * (x.w : Int)
  let bit := (rowBit % 8).toNat + cs.headD 0 * x.w
  let row := q / x.boxes.headD 1
  ((List.range ((bit + x.w - 1) / 8 + 1 - bit / 8)).map fun j =>
    ((rowBit / 8 + ((swizzle span x.rowBytes row (bit / 8 + j) : Nat) : Int)) % (2 ^ 64 : Int)).toNat, bit % 8)

/-- The format of a float type's code, when it is one. -/
def fmtOfCode (t : Nat) : Option Fmt :=
  match t with
  | 0x10 => some .f32
  | 0x11 => some .f16
  | 0x12 => some .b16
  | 0x13 => some .e4m3
  | 0x14 => some .e5m2
  | _ => none

/-- The canonical NaN of a float type's code (R102); 0 for an integer type. -/
def nanOf (t : Nat) : Nat :=
  match fmtOfCode t with
  | some f => f.canon
  | none => 0

/-- What an out-of-bounds element reads as (R127). The elements of a block whose scale reads as NaN are 0 (log 87). -/
def Shape.fillVal (x : Shape) : Nat := if x.bounds = 2 then nanOf x.etype else 0
/-- What an out-of-bounds block's scale reads as. -/
def Shape.fillScale (x : Shape) : Nat := if x.bounds = 2 then 0xFF else 0

/-! ## SHAPE.MAKE (R384) -/

/-- A dimension table read as an ordinary load of the sett: its bytes, the failure of its first bad part, or nothing while another
device has not answered. Parts of 16 bytes. -/
inductive TabR where
  | ok (bs : List Byte)
  | bad (cause : BitVec 8) (addr : DWord)
  | wait (x : Loc)
  deriving DecidableEq, Repr

/-- The table of a record, from address a in parts of 16 bytes, as crew `c` reads it in slot `slot`. -/
def State.readTable (s : State) (c : Crew) (slot : Nat) : Nat → Nat → TabR
  | _, 0 => .ok []
  | a, n + 1 =>
    match withFarPoison s c 16 (n % 32) (withPoison s c 16 (s.resGlobal c s.cur .load a 16)) with
    | .bad cause addr => .bad cause addr
    | .ok x =>
      match s.loadBytes c slot (n % 32) x 16 with
      | none => .wait x
      | some bs =>
        match s.readTable c slot (a + 16) n with
        | .ok r => .ok (bs ++ r)
        | r => r

/-- The table of a record while a sett executes: none needed, or read. -/
def State.tableOf (s : State) (c : Crew) (r : Rec256) : TabR :=
  if recField r || !needsTable r then .ok [] else s.readTable c c.sett.slot (recDimt r) (tableLen r / 16)

/-- Ask another device for the line of a table part; the lane number tells parts apart. -/
def State.askTable (s : State) (r : Rec256) : State :=
  let c := s.me
  (List.range (tableLen r / 16)).foldl (fun s i =>
    match s.resGlobal c s.cur .load ((recDimt r + 16 * i : Nat) : Int) 16 with
    | .ok x =>
      let lane : Nat := (tableLen r / 16 - 1 - i) % 32
      if x.dev = s.dev || (s.loadBytes c c.sett.slot lane x 16).isSome then s else s.askLoad s.cur c.sett.slot lane x 16 true
    | .bad _ _ => s) s

/-- The record in an operand block of four S registers (R371). -/
def Crew.blockRec (c : Crew) (n : Nat) : Rec256 := c.sreg (n + 3) ++ c.sreg (n + 2) ++ c.sreg (n + 1) ++ c.sreg n

/-- SHAPE.MAKE (R384). -/
def execShapeMake (g : Guard) (da : BitVec 4) (sn : BitVec 6) (e : Dst) (strict : Bool) (s : State) : Out :=
  let c := s.me
  let r := c.blockRec sn.toNat
  if c.guardMask g == 0 then .next (s.setMe (endSlot c e false false [] 0 c.sett.gens))
  else
    match s.tableOf c r with
    | .bad cause a => .next (s.setMe (raiseExc c cause a 0))
    | .wait _ => .next ((s.askTable r).stallMe stOperand)
    | .ok tab =>
      let st := shapeStatus r tab
      if strict && st ≠ 0 then .next (s.setMe (raiseExc c cShape (BitVec.ofNat 64 st) 0))
      else
        let t := c.sett
        let writes := if st = 0 then (List.range 4).map fun w => Wr.d (4 * da.toNat + w) (c.sreg (sn.toNat + w)) else []
        let c := { c with stall := stNone, sett := { t with wr := t.wr ++ writes } }
        .next (s.setMe (endSlot c e false false ((lanesOf (c.guardMask g)).map fun l => (l, BitVec.ofNat 64 st)) 0 c.sett.gens))

end Sys2Proof.Machine
end

