-- ==== Sys2Proof/Machine/Submit.lean ====
section
/-!
DEFINITION. Sys2Proof/Machine/Submit.lean: submissions to the front end (R408–R412): the decision, the producer status word, the spill
ring; and the reads and writes of units that are no crew (R506).
-/
namespace Sys2Proof.Machine

/-! ## Requests of units that are no crew -/

/-- The context number of a request that no crew makes; its private window holds nothing. -/
def noCtx : Nat := 0xFFFF

/-- $core of a record's issuer that is a die-level unit (R442). -/
def noCore : Nat := 0xFF

/-- A translation for a unit's own record, ring or stamp: no aperture leaf serves it (R20). -/
def State.unitXlat (s : State) (p : Nat) (level : Bool) (a : Acc) (va : Nat) : Xl :=
  if va ≥ 2 ^ 56 then .bad cProtection else s.xlat p noCtx level false a va

/-- Bytes written at a translated place: at its home here, or as a request to another device (R18). -/
def State.writeOut (s : State) (p : Nat) (level : Bool) (dev pa : Nat) (bs : List Byte) : State :=
  if dev = s.dev then s.perform (bytesAt pa bs)
  else s.sendTo dev (.store [] p noCore noCtx pa) fun q => .write s.dev q pa bs level p

/-- A unit's write through a partition's tables: the state, or the cause of its failure. -/
def State.unitWrite (s : State) (p : Nat) (level : Bool) (va : Nat) (bs : List Byte) : Except (BitVec 8) State :=
  match s.unitXlat p level .store va with
  | .bad cause => .error cause
  | .ok dev pa _ => .ok (s.writeOut p level dev pa bs)

/-- Units of a fault record (R442): the front end. -/
def unFront : Nat := 10
/-- The Tolsal link. -/
def unLink : Nat := 11

/-- A failed write or spill of the front end leaves a record (R444). The records of the hub die's units go to die 0's buffer (log 7). -/
def State.frontRecord (s : State) (p : Nat) (cause : BitVec 8) (write : Bool) (va : Nat) : State :=
  s.emit 0 p (faultRec cause (if write then fgWrite else 0) p 0 noCore unFront noCtx 0xFFFF 0 (BitVec.ofNat 64 va))

/-! ## Submission (R409, R410) -/

/-- Submission codes (R409). -/
def scAccepted : Nat := 1
def scSpilled : Nat := 2
def scFull : Nat := 3
def scDup : Nat := 4
def scGap : Nat := 5
def scBadProd : Nat := 6
def scSlotSeq : Nat := 7

/-- Entries of an intake ring (R412). -/
def intakeCap : Nat := 16

/-- The address of a spill-ring entry. -/
def Producer.spillVa (p : Producer) (n : Nat) : Nat := p.spbase + 8 * (n % 2 ^ p.splog2)

/-- Has the spill ring a free entry by its pointers? -/
def Producer.spillRoom (p : Producer) : Bool := decide (p.splog2 ≠ 0) && decide (p.spillTail - p.spillHead < 2 ^ p.splog2)

/-- The producer status word after a decision (R410). -/
def statusWord (code seq free : Nat) : DWord := BitVec.ofNat 64 (code * 2 ^ 56 + free * 2 ^ 32 + seq % 2 ^ 32)

/-- A decision is reported in the producer status word (R410). -/
def State.report (s : State) (n code seq : Nat) : State :=
  let p := s.producers.get n
  if p.staddr = 0 then s
  else
    let w := statusWord code seq (intakeCap - p.intake.length)
    if p.hostst then
      if (s.part p.part).qp.set then
        { s with sent := s.sent ++ [.hostWrite p.part (BitVec.ofNat 64 p.staddr) none (leBytes 8 w.toNat)] }
      else s
    else
      match s.unitWrite p.part p.sup p.staddr (leBytes 8 w.toNat) with
      | .ok s => s
      | .error cause => s.frontRecord p.part cause true p.staddr

/-- A spill-ring entry written: the ring's page must translate with WR at the producer's level (R409). -/
def State.spill (s : State) (n : Nat) (w : DWord) : Except (BitVec 8) State :=
  let p := s.producers.get n
  match s.unitWrite p.part p.sup (p.spillVa p.spillTail) (leBytes 8 w.toNat) with
  | .ok s => .ok { s with producers := s.producers.upd n fun p => { p with spillTail := p.spillTail + 1 } }
  | .error cause => .error cause

/-- NEXTSEQ advances. -/
def Producer.advance (p : Producer) : Producer := { p with nextSeq := p.nextSeq + 1 }

/-- Submit of R409 for a word from partition `part`; `crew` when a crew sent it. The code, and the state with the decision reported. -/
def State.submit (s : State) (w : DWord) (part : Nat) (crew : Bool) : State × Nat :=
  let n := bitsOf w 0 12
  let seq := bitsOf w 32 32
  let p := s.producers.get n
  if !p.v || p.part ≠ part || p.devp ≠ crew then (s, scBadProd)
  else
    let d := (BitVec.ofNat 32 seq - p.nextSeq).toNat
    if d ≥ 2 ^ 31 then (s.report n scDup seq, scDup)
    else if d ≠ 0 then (s.report n scGap seq, scGap)
    else if p.spillHead = p.spillTail && p.intake.length < intakeCap then
      let s := { s with producers := s.producers.put n { p.advance with intake := p.intake ++ [BitVec.ofNat 32 seq] } }
      (s.report n scAccepted seq, scAccepted)
    else if p.devp && p.spillRoom then
      match s.spill n w with
      | .ok s =>
        let s := { s with producers := s.producers.upd n Producer.advance }
        (s.report n scSpilled seq, scSpilled)
      | .error cause => ((s.frontRecord p.part cause true (p.spillVa p.spillTail)).report n scFull seq, scFull)
    else (s.report n scFull seq, scFull)

/-- Room for the records a submission may leave (R443). -/
def State.submitRoom (s : State) : Bool := s.recRoom 0 2

end Sys2Proof.Machine
end

