-- ==== Sys2Proof/Machine/Engine.lean ====
section
/-!
DEFINITION. Sys2Proof/Machine/Engine.lean: what every engine operation shares (R165–R170): its issue into a queue, the reads and writes
of box elements, parking, stamps and completion.
-/
namespace Sys2Proof.Machine

/-! ## Target words (R372) -/

/-- SPC of a target word. -/
def tgSpc (t : DWord) : Nat := bitsOf t 56 2
/-- ADDR of a target word. -/
def tgAddr (t : DWord) : Nat := bitsOf t 0 56
/-- A target word that names nothing. -/
def tgNone : DWord := BitVec.ofNat 64 (3 * 2 ^ 56)

/-- The check of a target word while its sett executes: cause and address when it fails (R372, R169). -/
def targetBad (t : DWord) (align : Nat) (none' : Bool) : Option (BitVec 8 × DWord) :=
  if bitsOf t 61 3 ≠ 0 then some (cProtection, BitVec.ofNat 64 (tgAddr t))
  else if tgSpc t = 3 then (if none' then none else some (cProtection, BitVec.ofNat 64 (tgAddr t)))
  else if tgSpc t ≠ 0 && tgAddr t / 2 ^ 32 ≠ 0 then some (cProtection, BitVec.ofNat 64 (tgAddr t))
  else if tgAddr t % align ≠ 0 then some (cAlign, BitVec.ofNat 64 (tgAddr t))
  else none

/-! ## Units of a fault record (R442) -/

def unCopy : Nat := 1
def unMatrix : Nat := 2
def unColl : Nat := 3
def unSend : Nat := 4
def unCarder : Nat := 5
def unCarousel : Nat := 6
def unBench : Nat := 7
def unLoader : Nat := 8

/-- The unit of an engine operation. -/
def opUnit : OpKind → Nat
  | .copy | .cond | .mc | .fired => unCopy
  | .mma | .tld | .accNew | .accZero | .accLd | .accSt => unMatrix
  | .coll => unColl
  | .tokSend => unSend
  | .pref => 0

/-- The engine of an operation. -/
def opEngine : OpKind → EngUnit
  | .copy | .cond | .mc | .fired | .pref => .copy
  | .mma | .tld | .accNew | .accZero | .accLd | .accSt => .matrix
  | .coll => .coll
  | .tokSend => .send

/-! ## Locations of an engine's access (R20, R50, R51, R126) -/

/-- A byte of a record's space as a gang's request names it, for a given partition, context and level. `data`: a payload byte, which an
aperture leaf may serve (R20). -/
def State.spaceLoc (s : State) (part ctx gang core : Nat) (level data : Bool) (space kvh : Nat) (acc : Acc) (a : Nat) : Res :=
  let w := BitVec.ofNat 64 a
  let g := s.gang gang
  match space with
  | 0 =>
    if a ≥ 2 ^ 56 then .bad cProtection w
    else
      match s.xlat part ctx level data acc a with
      | .ok dev pa mt => .ok ⟨.global, a, dev, pa, mt⟩
      | .bad cause => .bad cause w
  | 1 =>
    if a ≥ 2 ^ 32 then .bad cProtection w
    else
      match s.kvXlat part (dieOf core) (BitVec.ofNat 32 kvh) a (acc == .store) with
      | .ok dev pa mt => .ok ⟨.kv, a, dev, pa, mt⟩
      | .bad cause => .bad cause w
  | 2 => if a ≥ g.localSize then .bad cProtection w else .ok ⟨.localMem, a, s.dev, localAp core + g.localBase + a, 2⟩
  | _ =>
    match yardParts a with
    | some (y, off) => if (grantedYards g.lrec).contains y then .ok ⟨.yard, a, s.dev, yardAp y + off, 2⟩ else .bad cProtection w
    | none => .bad cProtection w

/-- The page whose request a cancellation ends: the least page of the space (R21, R44). -/
def lostPage (space a : Nat) : Nat := if space = 1 then a / 2 ^ 13 else a / 2 ^ 16

/-- No cause: an address whose request was cancelled reads as poison and takes no write (R35). -/
def cLost : BitVec 8 := 0

/-- Do an operation's payload requests use aperture leaves: those of copies, TLD and collectives do, ACC.LD and ACC.ST do not (R20). -/
def OpKind.aperture (k : OpKind) : Bool := k != .accLd && k != .accSt

/-- A byte of an operation's record. -/
def State.engLoc (s : State) (o : EngineOp) (x : Shape) (acc : Acc) (a : Nat) : Res :=
  if o.lost.contains (lostPage x.space a) then .bad cLost 0
  else s.spaceLoc o.part o.crew o.gang o.core o.level o.kind.aperture x.space x.kvh acc a

/-- A target word's 8 or 16 bytes (R372): no aperture leaf serves it. -/
def State.targetLoc (s : State) (part ctx gang core : Nat) (level : Bool) (t : DWord) : Res :=
  match tgSpc t with
  | 0 => s.spaceLoc part ctx gang core level false 0 0 .store (tgAddr t)
  | 1 => s.spaceLoc part ctx gang core level false 2 0 .store (tgAddr t)
  | _ => s.spaceLoc part ctx gang core level false 3 0 .store (tgAddr t)

/-! ## Reading and writing elements -/

/-- What reading one element gives: its bits, poison, a failed address, or a line of another device that must come first. -/
inductive ElemR where
  | val (v : Nat)
  | poison
  | bad (cause : BitVec 8) (addr : DWord)
  | need (dev line : Nat)
  deriving DecidableEq, Repr

/-- A byte at its home, or from a line another device answered. -/
def State.engByte (s : State) (got : List Line) (x : Loc) : Option Byte :=
  if x.dev = s.dev then some (s.mem.read x.pa) else lineByte got x.dev x.pa

/-- Does a line that another device answered hold its byte's word poisoned (R91)? -/
def linePoison (got : List Line) (x : Loc) : Bool :=
  got.any fun l => l.dev == x.dev && l.line == x.pa / 128 && l.bad.contains (x.pa % 128 / 4)

/-- The bytes at record addresses. -/
def State.readAddrs (s : State) (got : List Line) (loc : Nat → Res) (as : List Nat) : ElemR :=
  let rs := as.map fun a => (a, loc a)
  match firstBad rs with
  | some (_, cause, a) => if cause == cLost then .poison else .bad cause a
  | none =>
    let xs := goodLocs rs
    match xs.find? fun p => (s.engByte got p.2).isNone with
    | some p => .need p.2.dev (p.2.pa / 128)
    | none =>
      if xs.any fun p => (p.2.dev == s.dev && s.poison.contains (p.2.pa / 4)) || linePoison got p.2 then .poison
      else .val (leNat (xs.map fun p => (s.engByte got p.2).getD 0))

/-- One element of a box (R126, R127). -/
def State.elemRead (s : State) (got : List Line) (x : Shape) (loc : Nat → Res) (o : DWord) (q : Nat) : ElemR :=
  if !x.elemIn o q then .val x.fillVal
  else
    let (as, ph) := x.elemBytes o q
    match s.readAddrs got loc as with
    | .val v => .val (v / 2 ^ ph % 2 ^ x.w)
    | r => r

/-- The scale of the block that element q lies in. -/
def State.scaleRead (s : State) (got : List Line) (x : Shape) (loc : Nat → Res) (o : DWord) (q : Nat) : ElemR :=
  let is := placed o (coordsOf x.boxes q)
  if !x.elemIn o q then .val x.fillScale else s.readAddrs got loc [x.scaleAddr is]

/-- Many reads: the values (none for a poisoned one), the first failure, the lines wanted. -/
structure Gather where
  vals : List (Option Nat)
  bad : Option (BitVec 8 × DWord)
  need : List (Nat × Nat)
  deriving DecidableEq, Repr, Inhabited

/-- Gather reads in order. -/
def gather : List ElemR → Gather
  | [] => ⟨[], none, []⟩
  | r :: rs =>
    let g := gather rs
    match r with
    | .val v => { g with vals := some v :: g.vals }
    | .poison => { g with vals := none :: g.vals }
    | .bad cause a => { g with vals := none :: g.vals, bad := some (cause, a) }
    | .need dev line => { g with vals := none :: g.vals, need := if g.need.contains (dev, line) then g.need else (dev, line) :: g.need }

/-- Elements of a box, and behind them the scales of its blocks. -/
def Shape.events (x : Shape) : Nat := x.count + (if x.mx then x.count / 16 else 0)

/-- What element or scale q of a box reads as. -/
def State.eventRead (s : State) (got : List Line) (x : Shape) (loc : Nat → Res) (o : DWord) (q : Nat) : ElemR :=
  if q < x.count then s.elemRead got x loc o q else s.scaleRead got x loc o (16 * (q - x.count))

/-- The bytes that element or scale q of a box lies in; none when it is out of bounds. -/
def Shape.eventBytes (x : Shape) (o : DWord) (q : Nat) : List Nat :=
  if q < x.count then (if x.elemIn o q then (x.elemBytes o q).1 else [])
  else if x.elemIn o (16 * (q - x.count)) then [x.scaleAddr (placed o (coordsOf x.boxes (16 * (q - x.count))))] else []

/-- A whole box in linear order, then the scales of its blocks. -/
def State.gatherBox (s : State) (got : List Line) (x : Shape) (loc : Nat → Res) (o : DWord) : Gather :=
  gather ((List.range x.events).map (s.eventRead got x loc o))

/-- Bits to write at byte addresses of a record's space: mask and value. -/
def mergeBits (m : List (Nat × Nat × Nat)) (a mask v : Nat) : List (Nat × Nat × Nat) :=
  match Cells.find m a with
  | some (k, w) => Cells.insert m a (k ||| mask, (w - (w &&& mask)) ||| v)
  | none => Cells.insert m a (mask, v)

/-- The bits of one element spread over its bytes. -/
def putBits (m : List (Nat × Nat × Nat)) (as : List Nat) (ph w v : Nat) : List (Nat × Nat × Nat) :=
  ((List.range as.length).zip as).foldl (fun m p =>
    mergeBits m p.2 ((2 ^ w - 1) * 2 ^ ph / 2 ^ (8 * p.1) % 256) (v % 2 ^ w * 2 ^ ph / 2 ^ (8 * p.1) % 256)) m

/-- The bits that element or scale q of a box writes; none when it is out of bounds (R127). -/
def Shape.scatterOne (x : Shape) (o : DWord) (m : List (Nat × Nat × Nat)) (q v : Nat) : List (Nat × Nat × Nat) :=
  match x.eventBytes o q with
  | [] => m
  | a :: as => if q < x.count then putBits m (a :: as) (x.elemBytes o q).2 x.w v else mergeBits m a 255 v

/-- The writes of a box: out-of-bounds and poisoned elements are not written (R127, R178); a later element's bits stand (R126). -/
def Shape.scatter (x : Shape) (o : DWord) (vals : List (Option Nat)) : List (Nat × Nat × Nat) :=
  (List.range x.events).foldl (fun m q => match vals.getD q none with
    | some v => x.scatterOne o m q v
    | none => m) []

/-- Translated bytes to write: device, address, byte. -/
structure Scatter where
  bytes : List (Nat × Nat × Byte)
  bad : Option (BitVec 8 × DWord)
  need : List (Nat × Nat)
  deriving DecidableEq, Repr, Inhabited

/-- Bits become bytes at their homes: a byte written in part keeps its other bits. -/
def State.resolveBits (s : State) (got : List Line) (loc : Nat → Res) : List (Nat × Nat × Nat) → Scatter
  | [] => ⟨[], none, []⟩
  | (a, mask, v) :: r =>
    let t := s.resolveBits got loc r
    match loc a with
    | .bad cause w => if cause == cLost then t else { t with bad := some (cause, w) }
    | .ok x =>
      if mask = 255 then { t with bytes := (x.dev, x.pa, BitVec.ofNat 8 v) :: t.bytes }
      else
        match s.engByte got x with
        | some b => { t with bytes := (x.dev, x.pa, BitVec.ofNat 8 ((b.toNat - (b.toNat &&& mask)) ||| v)) :: t.bytes }
        | none => { t with need := (x.dev, x.pa / 128) :: t.need }

/-- The bytes of a write that lie on one device. -/
def bytesOn (dev : Nat) (bs : List (Nat × Nat × Byte)) : List (Nat × Byte) := (bs.filter fun b => b.1 == dev).map (·.2)

/-- Bytes that a unit writes: at homes here, as write requests to other devices. -/
def State.homeWrite (s : State) (who : RemoteWho) (part : Nat) (level : Bool) (bs : List (Nat × Nat × Byte)) : State :=
  let here := bytesOn s.dev bs
  let s := if here.isEmpty then s else s.perform here
  ((bs.map (·.1)).filter (· != s.dev)).eraseDups.foldl (fun s dev =>
    (runsOf (bytesOn dev bs)).foldl (fun s run =>
      s.sendTo dev who fun q => .write s.dev q run.1 run.2 level part) s) s

/-- Bytes an engine operation of a core writes. The core's L1 keeps no older copy of their lines (R148, R152). -/
def State.engWrite (s : State) (who : RemoteWho) (core part : Nat) (level : Bool) (bs : List (Nat × Nat × Byte)) : State :=
  let s := s.homeWrite who part level bs
  ((bs.map (·.1)).eraseDups).foldl (fun s dev => s.dropBytes core dev (bytesOn dev bs)) s

/-- The lines of an operation's accesses reach their slices, and their translations the caches of R28 and R46 (R86). -/
def State.engSeen (s : State) (o : EngineOp) (x : Shape) (write : Bool) (as : List Nat) : State :=
  (as.foldl (fun l a => if l.contains (a / 128) then l else l ++ [a / 128]) []).foldl (fun s n =>
    let a := ((as.find? fun a => a / 128 == n).getD 0)
    match s.engLoc o x (if write then .store else .load) a with
    | .ok l =>
      let s := match x.space with
        | 0 => s.tlbFill o.part o.crew a
        | 1 => s.kvFill o.part (dieOf o.core) (BitVec.ofNat 32 x.kvh) a
        | _ => s
      if l.dev = s.dev then s.touchDc (l.pa / 128) l.mtype write else s
    | .bad _ _ => s) s

/-- Does a request of an operation wait for another device? -/
def State.opWaits (s : State) (id : Nat) : Bool :=
  s.outstanding.any fun o => match o.who with
    | .op i | .branch i _ => i == id
    | _ => false

/-- Does a request of a multicast branch wait for another device? -/
def State.branchWaits (s : State) (id b : Nat) : Bool :=
  s.outstanding.any fun o => match o.who with
    | .branch i c => i == id && c == b
    | _ => false

/-- Has an operation, or its branch, asked another device for a line? -/
def State.lineAsked (s : State) (who : RemoteWho) (p : Nat × Nat) : Bool :=
  s.outstanding.any fun x => match x.msg with
    | .read _ _ pa _ _ _ => x.who == who && x.dev == p.1 && pa == p.2 * 128
    | _ => false

/-- Ask other devices for the lines that an operation, or a branch of it, wants. -/
def State.askFor (s : State) (id : Nat) (who : RemoteWho) (need : List (Nat × Nat)) : State :=
  let o := s.eop id
  need.foldl (fun s p =>
    if s.lineAsked who p then s else s.sendTo p.1 who fun q => .read s.dev q (p.2 * 128) 128 o.level o.part) s

/-- Ask other devices for the lines an operation wants. -/
def State.askLines (s : State) (id : Nat) (need : List (Nat × Nat)) : State := s.askFor id (.op id) need

/-! ## Queues and stages (R165, R166) -/

/-- Key of an operation's queue. -/
def EngineOp.key (o : EngineOp) : Nat := engKey o.core (opEngine o.kind)

/-- An operation takes the next number and enters its engine's queue. -/
def State.enqueueOp (s : State) (o : EngineOp) : State :=
  let id := s.nextOp
  { s with
    ops := s.ops.put id { o with live := true, stage := .issued }
    nextOp := id + 1
    queues := s.queues.upd o.key fun q => q ++ [id] }

/-- A crew issues an operation; a counted one counts (R166, R174). -/
def State.issueOp (s : State) (k : Nat) (o : EngineOp) : State :=
  let c := s.crew k
  let s := match o.path with
    | some p => s.updCrew k fun c => c.issueOn p
    | none => s
  let seq := match o.path with
    | some p => (s.crew k).lastOn p
    | none => 0
  s.enqueueOp { o with crew := k, gang := c.gang, core := c.core, part := c.part, level := c.level, seq := seq }

/-- An engine issue: its operands are checked while the sett executes and what it names is kept; at commit, a release of what the core
holds, the operation enters its queue (R139, R165, R374). `op` may bind names as it forms the operation. -/
def issueWith (g : Guard) (p : Option Path6) (check : State → State) (op : State → List DWord → State × EngineOp)
    (s : State) : State :=
  effSlot (fun s =>
    let c := s.me
    if c.popTrap then s.setMe (raiseExc c cProtection 0 0)
    else if c.guardMask g == 0 then s.keep [] []
    else check s)
    (fun s =>
      let c := s.me
      match c.caps with
      | [] => s.land []
      | x :: _ =>
        let s := s.releaseCore c.core
        if s.coreBusy c.core then s.stallMe stWaitc
        else
          let (s, o) := op s x.args
          (s.issueOp s.cur { o with path := p }).land []) s

/-- The executing slot keeps its arguments and waits for room in the engine's queue and below its counter's cap. -/
def State.keepIssue (s : State) (u : EngUnit) (p : Option Path6) (args : List DWord) : State :=
  let c := s.me
  s.keep [⟨c.sett.slot, 0, noLoc, args⟩] (c.wait (.engine u) :: (match p with
    | some q => [c.wait (.cap q)]
    | none => []))

/-- An engine issue whose check is a failure or none. -/
def issueSlot (g : Guard) (u : EngUnit) (p : Option Path6) (check : State → Option (BitVec 8 × DWord)) (args : State → List DWord)
    (op : State → List DWord → EngineOp) (s : State) : State :=
  issueWith g p (fun s =>
    match check s with
    | some (cause, a) => s.setMe (raiseExc s.me cause a 0)
    | none => s.keepIssue u p (args s)) (fun s xs => (s, op s xs)) s

/-- The first of several target-word checks that fails. -/
def firstTarget : List (Option (BitVec 8 × DWord)) → Option (BitVec 8 × DWord)
  | [] => none
  | some e :: _ => some e
  | none :: r => firstTarget r

/-- A member's share of a collective instance goes to the group's other members (R187). -/
def State.collTell (s : State) (o : EngineOp) (words : List DWord) : State :=
  (((s.part o.part).groups.get o.tile).devs.filter (· != s.dev)).foldl (fun s d =>
    s.tell d (.coll s.dev o.part o.tile o.pos words)) s

/-- An operation is complete: it leaves its queue and its counter falls (R174). A collective that has numbered its instance and ends without its
share tells the other members so, whose forms then disagree with it (R187; log 89). A gang that has ended goes with its last operation (R183). -/
def State.finishOp (s : State) (id : Nat) : State :=
  let o := s.eop id
  let s := if o.kind == .coll && o.pos != 0 && !o.reserved then s.collTell o [] else s
  let s := { s with ops := s.ops.drop id, queues := s.queues.upd o.key fun q => q.filter (· != id) }.wakeCore o.core stMatrix
  let s := s.dropGang o.gang
  match o.path with
  | some p => s.completeOn o.crew p o.seq
  | none => s

/-- Status codes of stamps (R170). -/
def ssBounds : Nat := 1
def ssOverlap : Nat := 2
def ssCondFail : Nat := 3
def ssCancelled : Nat := 4
def ssPoison : Nat := 5
def ssMismatch : Nat := 6
def ssLink : Nat := 7
def ssMcForm : Nat := 8
def ssShape (check : Nat) : Nat := 0x10 + check

/-! ## Parking (R32, R33) -/

/-- Is a request that was refused aimed at another device: does the page its address has in global space lie there (R444)? -/
def State.abroad (s : State) (part ctx : Nat) (cause : BitVec 8) (addr : DWord) : Bool :=
  cause == cProtection &&
  match s.leafOf part ctx addr.toNat with
  | .ok e _ => paDev (pteAddr e) != s.dev
  | .bad _ => false

/-- A request of an operation parks in its die's fault queue; with the queue or the record buffer full it is held where it is. -/
def State.parkReq (s : State) (die part unit core ctx : Nat) (who : FqWho) (cause : BitVec 8) (addr : DWord) (aux : Nat) (write atomic : Bool) :
    State × Bool :=
  match (s.die die).freeFq with
  | some i =>
    if s.recRoom die 1 then
      (s.park die i ⟨true, part, cause, addr, BitVec.ofNat 32 aux, who, unit, core, ctx, write, atomic, s.abroad part ctx cause addr, 0, 0⟩, true)
    else (s, false)
  | none => (s, false)

/-- An operation's payload request parks. One to a private page between HWM and LIMIT parks with cause PRIVATE_GROW (R49 names the precise trap
only; log 88). -/
def State.parkOp (s : State) (id : Nat) (cause : BitVec 8) (addr : DWord) (kvh : Nat) (write : Bool) : State :=
  let o := s.eop id
  let aux := if cause == cKvMiss then kvh else 0
  let (s, ok) := s.parkReq (dieOf o.core) o.part (opUnit o.kind) o.core o.crew (.op id) cause addr aux write false
  if ok then s.updOp id fun o => { o with stage := .parked } else s

/-! ## Stamps (R168, R169) -/

/-- A stamp word. -/
def stampWord (status : Nat) (value : DWord) : DWord := BitVec.ofNat 64 (status % 256 * 2 ^ 56 + bitsOf value 0 56)

/-- The stamp of an operation: written, and the operation complete once no request of it waits; or parked. -/
def State.stampOp (s : State) (id : Nat) : State :=
  let o := s.eop id
  if s.opWaits id then s
  else if o.stage == .done || tgSpc o.stamp = 3 then s.finishOp id
  else
    match s.targetLoc o.part o.crew o.gang o.core o.level o.stamp with
    | .ok x =>
      let bs := leBytes 8 (stampWord o.status o.value).toNat
      if x.dev = s.dev then ((s.perform (bytesAt x.pa bs)).dropLine o.core x.dev (x.pa / 128)).finishOp id
      else
        ((s.updOp id fun o => { o with stage := .done }).dropLine o.core x.dev (x.pa / 128)).sendTo x.dev (.op id) fun q =>
          .write s.dev q x.pa bs o.level o.part
    | .bad cause a =>
      let (s, ok) := s.parkReq (dieOf o.core) o.part (opUnit o.kind) o.core o.crew (.stamp id) cause a 0 true false
      if ok then s.updOp id fun o => { o with stage := .parked } else s

/-- An operation's payload is over, with a status; its stamp follows (R166). -/
def State.endPayload (s : State) (id status : Nat) : State := s.updOp id fun o => { o with stage := .performed, status := status }

/-! ## Operations of a saved gang -/

/-- Does an operation touch its gang's local allocation? -/
def usesLocal (o : EngineOp) : Bool :=
  tgSpc o.stamp == 1 || tgSpc o.ver == 1 || bitsOf o.recS 61 3 == 2 || bitsOf o.recD 61 3 == 2

/-- An operation whose gang's local bytes are in the shadow store waits for them (R446, R447). -/
def State.opAway (s : State) (o : EngineOp) : Bool := (s.gang o.gang).saved && usesLocal o

/-! ## Dimension tables read by an engine (R130) -/

/-- The table of a record: a failing or waiting read, or its bytes. No aperture leaf serves it. -/
def State.engTable (s : State) (o : EngineOp) (r : Rec256) : Gather :=
  if recField r || !needsTable r then ⟨[], none, []⟩
  else
    gather ((List.range (tableLen r)).map fun i =>
      s.readAddrs o.got (s.spaceLoc o.part o.crew o.gang o.core o.level false 0 0 .load) [recDimt r + i])

/-- The bytes of a gathered table; a poisoned one reads 0 there. -/
def Gather.table (g : Gather) : List Byte := g.vals.map fun v => BitVec.ofNat 8 (v.getD 0)

/-- Is anything of a gathered range poisoned? -/
def Gather.poisoned (g : Gather) : Bool := g.vals.any Option.isNone

end Sys2Proof.Machine
end

