-- ==== Sys2Proof/Machine/Sha3.lean ====
section
/-!
DEFINITION. Sys2Proof/Machine/Sha3.lean: SHA3-256, the digest of configuration regions and bench images (R93, R244). The rules name the
function; its steps are those of the published standard (log 12).
-/
namespace Sys2Proof.Machine

/-- Rotate a lane left. -/
def keccakRot (x : DWord) (n : Nat) : DWord := x <<< n ||| x >>> (64 - n)

/-- The bits that the standard's eight-bit register yields, n of them from r: it shifts up, and folds x⁸ into x⁶ + x⁵ + x⁴ + 1. -/
def keccakBits : Nat → Nat → List Nat
  | 0, _ => []
  | n + 1, r => r % 2 :: keccakBits n (if r < 128 then 2 * r else (2 * r - 256) ^^^ 0x71)

/-- A round's constant of its seven bits: bit j stands at 2^j - 1. -/
def keccakConst : Nat → List Nat → Nat
  | _, [] => 0
  | j, v :: r => v * 2 ^ (2 ^ j - 1) + keccakConst (j + 1) r

/-- The constants of the next n rounds. -/
def keccakConsts : Nat → List Nat → List DWord
  | 0, _ => []
  | n + 1, bits => BitVec.ofNat 64 (keccakConst 0 (bits.take 7)) :: keccakConsts n (bits.drop 7)

/-- The lanes x + 5y that ρ and π lead through: after (x, y) comes (y, 2x + 3y). -/
def keccakWalk : Nat → Nat → Nat → List Nat
  | 0, _, _ => []
  | n + 1, x, y => (x + 5 * y) :: keccakWalk n y ((2 * x + 3 * y) % 5)

/-- θ: each lane takes the sums of two neighbouring columns. -/
def keccakTheta (a : List DWord) : List DWord :=
  let sum := fun x => a.getD x 0 ^^^ a.getD (x + 5) 0 ^^^ a.getD (x + 10) 0 ^^^ a.getD (x + 15) 0 ^^^ a.getD (x + 20) 0
  let cols := [sum 0, sum 1, sum 2, sum 3, sum 4]
  (List.range 25).map fun i => a.getD i 0 ^^^ cols.getD ((i + 4) % 5) 0 ^^^ keccakRot (cols.getD ((i + 1) % 5) 0) 1

/-- ρ and π: lane (0, 0) stays, and the k-th of the walk, turned by (k + 1)(k + 2) / 2, moves to the next. -/
def keccakMove (a : List DWord) : List DWord :=
  let w := keccakWalk 24 1 0
  let moved := (List.range 24).map fun k => (w.getD ((k + 1) % 24) 0, keccakRot (a.getD (w.getD k 0) 0) ((k + 1) * (k + 2) / 2 % 64))
  a.headD 0 :: (List.range 24).map fun i => (Cells.find moved (i + 1)).getD 0

/-- χ on a row of five. -/
def keccakRow : List DWord → List DWord
  | [p, q, r, s, t] => [p ^^^ (~~~q &&& r), q ^^^ (~~~r &&& s), r ^^^ (~~~s &&& t), s ^^^ (~~~t &&& p), t ^^^ (~~~p &&& q)]
  | l => l

/-- χ row by row, and ι. -/
def keccakMix (rc : DWord) (a : List DWord) : List DWord :=
  match (List.range 5).flatMap fun y => keccakRow ((a.drop (5 * y)).take 5) with
  | v :: r => (v ^^^ rc) :: r
  | [] => []

/-- The permutation: 24 rounds. -/
def keccak (a : List DWord) : List DWord :=
  (keccakConsts 24 (keccakBits 168 1)).foldl (fun a rc => keccakMix rc (keccakMove (keccakTheta a))) a

/-- Take a block of 136 bytes in. -/
def keccakTake (a : List DWord) (block : List Byte) : List DWord :=
  keccak ((List.range 25).map fun i => a.getD i 0 ^^^ BitVec.ofNat 64 (leNat ((block.drop (8 * i)).take 8)))

/-- The blocks of a padded message, n of them. -/
def keccakBlocks : Nat → List Byte → List DWord → List DWord
  | 0, _, a => a
  | n + 1, bs, a => keccakBlocks n (bs.drop 136) (keccakTake a (bs.take 136))

/-- A message with SHA3's padding. -/
def sha3Pad (bs : List Byte) : List Byte :=
  match 136 - bs.length % 136 with
  | 1 => bs ++ [0x86]
  | n => bs ++ 0x06 :: List.replicate (n - 2) 0 ++ [0x80]

/-- SHA3-256; the first output byte is the least significant (R9). -/
def sha3 (bs : List Byte) : BitVec 256 :=
  let a := keccakBlocks (bs.length / 136 + 1) (sha3Pad bs) (List.replicate 25 0)
  a.getD 3 0 ++ a.getD 2 0 ++ a.getD 1 0 ++ a.getD 0 0

end Sys2Proof.Machine
end

