-- ==== Sys2Proof/Machine/Image.lean ====
section
/-!
DEFINITION. Sys2Proof/Machine/Image.lean: bench images (R244): their header, element words (R236), rules (R231), memory parameters (R242), and
the loader's checks (R235, R237, R239, R240, R242–R244).
-/
namespace Sys2Proof.Machine

/-! ## Header (R244) -/

/-- A field of the 64-byte header. -/
def imgHdr (img : List Byte) (lo len : Nat) : Nat := bitsOf (BitVec.ofNat 512 (imgVal img 0 64)) lo len

/-- Columns of the image. -/
def imgWidth (img : List Byte) : Nat := 4 * (imgHdr img 104 2 + 1)
/-- Crews of the group. -/
def imgCrews (img : List Byte) : Nat := imgHdr img 106 2 + 1
/-- FORM: 0 routed, 1 canonical, 2 G5 routed. -/
def imgForm (img : List Byte) : Nat := imgHdr img 108 4
/-- DIGEST. -/
def imgDigest (img : List Byte) : BitVec 256 := BitVec.ofNat 256 (imgHdr img 256 256)
/-- RSCOPE is wider than .core (R133). -/
def imgWide (img : List Byte) : Bool := decide (imgHdr img 101 3 ≥ 3)
/-- The element records. -/
def imgBody (img : List Byte) : List Byte := img.drop 64

/-! ## Element words (R236) -/

def ewKind (w : DWord) : Nat := bitsOf w 60 4
def ewSrc (w : DWord) : Bool := w.getLsbD 59
def ewSch (w : DWord) : Nat := bitsOf w 57 2
def ewSink (w : DWord) : Bool := w.getLsbD 56
def ewHnd (w : DWord) : Bool := w.getLsbD 55
def ewQinv (w : DWord) : Bool := w.getLsbD 54
def ewQin (w : DWord) : Nat := bitsOf w 50 4
def ewOseed (w : DWord) : Bool := w.getLsbD 49
def ewPinit (w : DWord) : Byte := BitVec.ofNat 8 (bitsOf w 41 8)
def ewParam (w : DWord) (lo len : Nat) : Nat := bitsOf (BitVec.ofNat 32 (bitsOf w 0 32)) lo len

/-- Kinds (R236). -/
def kPlain : Nat := 0
def kIsect : Nat := 1
def kReord : Nat := 2
def kBuf : Nat := 3
def kMem : Nat := 4
def kRtree : Nat := 5
def kUnused : Nat := 15

/-- Block size of a REORD element (R239). -/
def reordB (w : DWord) : Nat := (ewParam w 24 8 + 1) * (ewParam w 16 8 + 1)

/-! ## Arcs (R244) -/

/-- Arc entry of output o. -/
def imgArc (img : List Byte) (e o : Nat) : Word := BitVec.ofNat 32 (imgVal img (64 + 160 * e + 8 + 4 * o) 4)

def arcV (a : Word) : Bool := a.getLsbD 31
def arcOrd (a : Word) : Bool := a.getLsbD 30
def arcKind (a : Word) : Nat := bitsOf a 28 2
def arcRow (a : Word) : Nat := bitsOf a 25 3
def arcCol (a : Word) : Nat := bitsOf a 21 4
def arcCh (a : Word) : Nat := bitsOf a 19 2
def arcQueue (a : Word) : Nat := bitsOf a 15 4

/-- The element an arc names: a position of a routed image, an element number of a canonical one (R246). -/
def arcElem (img : List Byte) (a : Word) : Nat :=
  if imgForm img = 1 then arcRow a * 16 + arcCol a else arcRow a * imgWidth img + arcCol a

/-- Does an arc name an element of the image? -/
def arcInside (img : List Byte) (a : Word) : Bool :=
  decide (arcElem img a < imgCount img) && (imgForm img == 1 || decide (arcCol a < imgWidth img)) &&
  ewKind (elemWord img (arcElem img a)) != kUnused

/-- Outputs of every element with an arc, by element and output. -/
def imgArcs (img : List Byte) : List (Nat × Nat × Word) :=
  (List.range (imgCount img)).flatMap fun e => if ewKind (elemWord img e) = kUnused then [] else
    (List.range 4).filterMap fun o => if arcV (imgArc img e o) then some (e, o, imgArc img e o) else none

/-- Does an arc feed input channel c of element e? -/
def imgFed (img : List Byte) (e c : Nat) : Bool :=
  (imgArcs img).any fun p => arcKind p.2.2 == 0 && arcElem img p.2.2 == e && arcCh p.2.2 == c

/-! ## Rules (R231) -/

/-- A rule: trigger word and action word. -/
structure Rule where
  trig : DWord
  act : DWord
  deriving DecidableEq, Repr, Inhabited

/-- Rule word i of element e. -/
def imgRule (img : List Byte) (e i : Nat) : Rule :=
  ⟨BitVec.ofNat 64 (imgVal img (64 + 160 * e + 32 + 16 * i) 8), BitVec.ofNat 64 (imgVal img (64 + 160 * e + 40 + 16 * i) 8)⟩

namespace Rule

def v (r : Rule) : Bool := r.trig.getLsbD 63
def pri (r : Rule) : Nat := bitsOf r.trig 60 3
def pval (r : Rule) : Byte := r.trig.extractLsb' 52 8
def pcare (r : Rule) : Byte := r.trig.extractLsb' 44 8
def iready (r : Rule) (c : Nat) : Bool := r.trig.getLsbD (40 + c)
/-- N of DEPTH. -/
def depth (r : Rule) : Nat := 2 ^ bitsOf r.trig 37 3
def tagch (r : Rule) : Nat := bitsOf r.trig 35 2
def tagset (r : Rule) : Nat := bitsOf r.trig 31 4
def out (r : Rule) (o : Nat) : Bool := r.trig.getLsbD (27 + o)
def deq (r : Rule) (c : Nat) : Bool := r.trig.getLsbD (23 + c)
def pwmask (r : Rule) : Byte := r.trig.extractLsb' 15 8
def pnew (r : Rule) : Byte := r.trig.extractLsb' 7 8
def otag (r : Rule) : Nat := bitsOf r.trig 4 3

/-- The action. -/
def action (r : Rule) : Option Instr :=
  match decode r.act with
  | .instr i => some i
  | .refused _ => none

/-- Channels a source field of the action reads, with its place among the sources. -/
def reads (r : Rule) : List (Nat × Nat) :=
  match r.action with
  | some i => ((List.range i.srcs.length).zip i.srcs).filterMap fun p => match p.2.1 with
    | .pop q => some (p.1, q.toNat)
    | _ => none
  | none => []

/-- The channel that source `pos` of a MERGE reads: a, b, c. -/
def mergeCh (r : Rule) (pos : Nat) : Nat := ((r.reads.find? fun p => p.1 == pos).map (·.2)).getD 0

end Rule

/-- Is an action a MERGE? -/
def isMerge : Option Instr → Bool
  | some (.merge _) => true
  | _ => false

/-- Operations permitted in an action (R234). -/
def benchOp : Instr → Bool
  | .iadd _ _ _ | .iadd3 _ _ _ | .isub _ _ _ | .imul _ _ _ | .imulh _ _ | .imad _ _ _ | .imadWide _ _ _ | .imin _ _ | .imax _ _
  | .iabs _ _ _ | .lea _ _ _ _ | .shl _ _ | .shr _ _ | .sar _ _ | .rol _ _ | .ror _ _ | .mov _ | .movN64 _ | .movi _ _ _ _
  | .sel _ _ | .icmp _ _ _ _ | .bfx _ _ | .bfi _ _ | .popc _ _ | .clz _ _ | .ctz _ _ | .brev _ _ | .lop _ _ _
  | .iaddImm _ _ _ _ | .imulImm _ _ _ _ | .lopImm _ _ _ _ | .shiftImm _ _ _ _ | .icmpImm _ _ _ _ | .iminmaxImm _ _ _ _ => true
  | .plop _ _ | .pmovPack _ _ | .pmovSet _ _ _ | .perm _ => true
  | .fadd _ _ _ _ _ | .fmul _ _ _ _ | .ffma _ _ _ _ _ | .fmin _ _ | .fmax _ _ | .fcmp _ _ _ | .fclass _ | .fclassTest _ | .frnd _ _
  | .faddPacked _ _ _ _ _ _ | .fmulPacked _ _ _ _ _ | .ffmaPacked _ _ _ _ _ _ | .fminPacked _ _ _ | .fmaxPacked _ _ _
  | .fcmpPacked _ _ _ | .cvt _ _ _ _ _ | .cvtPacked _ _ _ _ | .dot4 _ _ _ _ => true
  | .rcp _ | .rsq _ | .sqrt _ | .exp2 _ | .log2 _ | .sin _ | .cos _ | .tanh _ | .sigm _ => true
  | .steer _ | .merge _ | .gate _ | .fwd _ => true
  | _ => false

/-- Does a source or the destination of an action name what a bench has not (R235): a transient or LIT, an S register destination, a
64-bit operand, a V register at or above the budget, a channel outside IREADY? -/
def actionNames (r : Rule) (i : Instr) (budget : Nat) : Bool :=
  (i.srcs.all fun p => !p.2 && (match p.1 with
    | .trans _ => false
    | .pop q => decide (q.toNat < 4) && r.iready q.toNat
    | _ => true)) &&
  (match i.dst with
   | some (.s _, _) => false
   | some (_, k) => k == 1
   | none => true) &&
  decide (i.topV ≤ budget)

/-- MERGE's own form (R400): three channels, IREADY and DEQ name exactly them, DEPTH 1. -/
def mergeForm (r : Rule) : Bool :=
  let cs := r.reads.map (·.2)
  cs.length == 3 && cs.eraseDups.length == 3 && r.depth == 1 &&
  (List.range 4).all fun c => r.iready c == cs.contains c && r.deq c == cs.contains c

/-- The loader's checks of a valid rule (R235, R231). -/
def ruleOk (r : Rule) (budget : Nat) : Bool :=
  decide (bitsOf r.trig 37 3 ≤ 5) && decide (r.otag ≤ 4) &&
  ((List.range 4).all fun c => !r.deq c || r.iready c) &&
  (r.tagset == 0 || r.iready r.tagch) &&
  (r.depth == 1 || r.tagset == 0 || r.tagset % 2 == 1) &&
  (match r.action with
   | some i => i.guard == ⟨7, false⟩ && benchOp i && actionNames r i budget && (!isMerge (some i) || mergeForm r)
   | none => false)

/-! ## Memory parameters (R242) -/

/-- The parameter block of element e: slot 6 in bits 127:0. -/
def memBlock (img : List Byte) (e : Nat) : Rec256 := BitVec.ofNat 256 (imgVal img (64 + 160 * e + 128) 32)

def mbBase (m : Rec256) : Nat := bitsOf m 200 56
def mbSize (m : Rec256) : Nat := bitsOf m 168 32
def mbInvStep (m : Rec256) : Nat := bitsOf m 136 32
def mbCount0 (m : Rec256) : Nat := bitsOf m 120 16
def mbCount1 (m : Rec256) : Nat := bitsOf m 104 16
def mbStep1 (m : Rec256) : Nat := bitsOf m 88 16
def mbStep0 (m : Rec256) : Nat := bitsOf m 72 16
def mbAclass (m : Rec256) : Nat := bitsOf m 64 8
def mbClass (m : Rec256) : Nat := bitsOf m 62 2
def mbDir (m : Rec256) : Nat := bitsOf m 60 2
def mbSpace (m : Rec256) : Nat := bitsOf m 58 2
def mbOrd (m : Rec256) : Nat := bitsOf m 56 2
def mbInd (m : Rec256) : Bool := m.getLsbD 52
def mbTagw (m : Rec256) : Bool := m.getLsbD 42
def mbM1 (m : Rec256) : Bool := m.getLsbD 41

/-- AOP. -/
def mbAop (m : Rec256) : Option AtomOp :=
  match bitsOf m 48 4 with
  | 0 => some .add
  | 1 => some .addF32
  | 2 => some .min
  | 3 => some .max
  | 4 => some .and
  | 5 => some .or
  | 6 => some .xor
  | 7 => some .xchg
  | 8 => some .cas
  | _ => none

/-- Is a type one a memory node may have, and is it a float? -/
def memType : ElemTy → Option Bool
  | .n8 | .n16 | .n32 | .i8 | .i16 | .i32 => some false
  | .f32 | .f16 | .b16 => some true
  | _ => none

/-- ETYPE. -/
def mbType (m : Rec256) : Option ElemTy :=
  match ElemTy.ofCode (m.extractLsb' 43 5) with
  | some t => if (memType t).isSome then some t else none
  | none => none

/-- The parameter block of a MEM element is one the loader takes (R242). -/
def memOk (w : DWord) (m : Rec256) : Bool :=
  decide (mbClass m < 3) && decide (mbDir m < 3) && decide (mbSpace m < 3) && decide (mbOrd m < 3) && bitsOf m 0 41 == 0 &&
  (mbAop m).isSome &&
  (match mbType m with
   | some t => mbAop m != some .addF32 || memType t == some true
   | none => false) &&
  (mbClass m != 0 || (mbDir m == 0 && ewSrc w && mbCount0 m != 0 && mbCount1 m != 0)) &&
  (mbClass m != 2 || mbDir m == 2)

/-! ## The loader's checks -/

/-- One element's record (R10, R235–R242): `budget` of its crew, `col` its column. A canonical image has no columns yet. Reserved bits, and
DKIND 0b11, are refused in absent arcs and invalid rules too (log 18); the rules of an unused element are invalid (R237). -/
def elemOk (img : List Byte) (e budget : Nat) : Bool :=
  let w := elemWord img e
  let k := ewKind w
  let col := e % imgWidth img
  let rules := (List.range 8).map (imgRule img e)
  let silent := fun n => (rules.take n).all fun r => !r.v && bitsOf r.trig 0 4 == 0
  decide (k ≤ 5 || k = 15) && bitsOf w 32 9 == 0 && imgVal img (64 + 160 * e + 24) 8 == 0 &&
  ((List.range 4).all fun o => let a := imgArc img e o; bitsOf a 0 15 == 0 && arcKind a != 3) &&
  (imgForm img == 1 || ((k != kIsect || col % 4 == 1) && (k != kReord || col % 4 == 2) && (k != kMem || col % 4 == 3))) &&
  (match k with
   | 0 => bitsOf w 0 32 == 0 && rules.all fun r => bitsOf r.trig 0 4 == 0 && (!r.v || ruleOk r budget)
   | 1 => bitsOf w 0 32 == 0 && silent 8
   | 2 => silent 8 && decide (2 * reordB w ≤ budget)
   | 3 => ewParam w 8 24 == 0 && silent 8 && decide (ewParam w 0 8 + 1 ≤ budget)
   | 4 => bitsOf w 0 32 == 0 && silent 6 && memOk w (memBlock img e)
   | 5 => decide (bitsOf w 0 32 ≤ 5) && silent 8
   | _ => silent 8)

/-- Elements that are used. -/
def imgElems (img : List Byte) : List Nat := (List.range (imgCount img)).filter fun e => ewKind (elemWord img e) != kUnused

/-- Memory nodes with ordering entries on I3 and O3: random and ordered-update (R243). -/
def isOrdered (img : List Byte) (e : Nat) : Bool := ewKind (elemWord img e) == kMem && mbClass (memBlock img e) != 0

/-- May a port of an element carry an arc with this ORD flag (R243)? Ordered nodes carry ordering entries on I3 and O3 and data on the
rest; a PLAIN element's arcs are all of one sort; other kinds carry data. -/
def portOk (img : List Byte) (as : List (Nat × Nat × Word)) (e port : Nat) (ord : Bool) : Bool :=
  let k := ewKind (elemWord img e)
  if isOrdered img e then ord == (port == 3)
  else if k = kPlain then
    as.all fun p =>
      (p.1 != e || arcOrd p.2.2 == ord) && (arcKind p.2.2 != 0 || arcElem img p.2.2 != e || arcOrd p.2.2 == ord)
  else !ord

/-- Two regions overlap in one space. -/
def overlaps (a b : Rec256) : Bool :=
  mbSpace a == mbSpace b && decide (mbBase a < mbBase b + mbSize b) && decide (mbBase b < mbBase a + mbSize a)

/-- Sources of the ordering arcs into an element. -/
def ordSources (img : List Byte) (as : List (Nat × Nat × Word)) (e : Nat) : List Nat :=
  (as.filter fun p => arcOrd p.2.2 && arcKind p.2.2 == 0 && arcElem img p.2.2 == e).map (·.1)

/-- The elements that hand on the ordering entries of some nodes alone: the nodes, and the PLAIN elements that fork and join their chains (R243). -/
def chainOf (img : List Byte) (as : List (Nat × Nat × Word)) (nodes : List Nat) : List Nat :=
  let plains := (imgElems img).filter fun e => ewKind (elemWord img e) == kPlain && !(ordSources img as e).isEmpty
  plains.foldl (fun set _ => set ++ plains.filter fun e => !set.contains e && (ordSources img as e).all set.contains) nodes

/-- Classes (R243): nodes of one class agree on IND, and a class without IND closes its chain: an ordering arc leads from a node of the class, or from
a join of such, into the I3 of one with OSEED. The spec does not say which node is the last: the one that the arc leaves (log 93). -/
def classesOk (img : List Byte) (as : List (Nat × Nat × Word)) : Bool :=
  let ns := (imgElems img).filter (isOrdered img)
  let cls := fun e => mbAclass (memBlock img e)
  ns.all fun e =>
    let same := ns.filter fun f => cls f == cls e
    (same.all fun f => mbInd (memBlock img f) == mbInd (memBlock img e)) &&
    (mbInd (memBlock img e) || same.any fun f => ewOseed (elemWord img f) &&
      as.any fun p => arcOrd p.2.2 && arcKind p.2.2 == 0 && arcElem img p.2.2 == f && arcCh p.2.2 == 3 &&
        (chainOf img as same).contains p.1)

/-- Streaming regions are read only (R164, R243). -/
def streamsOk (img : List Byte) : Bool :=
  let ms := ((imgElems img).filter fun e => ewKind (elemWord img e) == kMem).map (memBlock img)
  ms.all fun a => mbClass a != 0 || ms.all fun b => mbDir b == 0 || !overlaps a b

/-- The header (R244): magic, form, reserved fields, and the length the elements take. -/
def headerOk (img : List Byte) : Bool :=
  let n := 2 * imgCrews img * imgWidth img
  imgHdr img 112 16 == 0xBE07 && decide (imgForm img ≤ 2) && imgHdr img 128 96 == 0 && imgHdr img 0 101 == 0 &&
  imgHdr img 224 32 == 160 * n && img.length == 64 + 160 * n

/-- Arcs: inside the image, one to a destination channel, ordering and data kept apart (R243, R244). -/
def arcsOk (img : List Byte) (as : List (Nat × Nat × Word)) : Bool :=
  let dests := (as.filter fun p => arcKind p.2.2 == 0).map fun p => (arcElem img p.2.2, arcCh p.2.2)
  (as.all fun p =>
    let a := p.2.2
    portOk img as p.1 p.2.1 (arcOrd a) &&
    (if arcKind a = 0 then arcInside img a && portOk img as (arcElem img a) (arcCh a) (arcOrd a) else !arcOrd a)) &&
  dests.eraseDups.length == dests.length

/-- An image passes R10, R235, R243 and R244 for the budgets of its crews. -/
def imageOk (img : List Byte) (budget : Nat → Nat) : Bool :=
  let es := imgElems img
  let as := imgArcs img
  headerOk img &&
  (List.range (imgCount img)).all (fun e => elemOk img e (budget (e / imgWidth img / 2))) &&
  decide ((es.filter fun e => ewHnd (elemWord img e)).length ≤ 1) &&
  es.any (fun e => ewSink (elemWord img e)) && es.any (fun e => ewSrc (elemWord img e)) &&
  (imgForm img != 2 || !es.any fun e => ewHnd (elemWord img e)) &&
  arcsOk img as && classesOk img as && streamsOk img

/-! ## Seals (R93) -/

/-- The seal of a region: SHA3-256 of KC, its reference digest, its name and the address of its backing copy. -/
def sealOf (kc digest : BitVec 256) (kind die core handle : Nat) (backing : DWord) : BitVec 256 :=
  sha3 (leBytes 32 kc.toNat ++ leBytes 32 digest.toNat ++ Config.sealName kind die core handle ++ leBytes 8 backing.toNat)

end Sys2Proof.Machine
end

