-- ==== Sys2Proof/Machine/Lanes.lean ====
section
/-!
DEFINITION. Sys2Proof/Machine/Lanes.lean: predicates, votes and permutes, OP 0x30–0x36 (R314–R321).
-/
namespace Sys2Proof.Machine

/-- PLOP's truth table at bit 0 of its sources (R314). -/
def plopVal (lut : BitVec 8) (a b c : DWord) : DWord :=
  let i := (if a.getLsbD 0 then 4 else 0) + (if b.getLsbD 0 then 2 else 0) + (if c.getLsbD 0 then 1 else 0)
  boolWord (lut.getLsbD i)

/-- PLOP (R314). -/
def execPlop (o : Ops3) (lut : BitVec 8) (s : State) : Out :=
  .next (valueSlot s o.g o.d false false fun c l =>
    plopVal lut (srcW s c 0 o.a false l) (srcW s c 1 o.b false l) (srcW s c 2 o.c false l))

/-- A lane's predicates as bits 7:0 (R315). -/
def packPreds (c : Crew) (l : Nat) : DWord :=
  BitVec.ofNat 64 ((List.range 8).foldl (fun a i => if (c.pred (BitVec.ofNat 3 i)).getLsbD l then a + 2 ^ i else a) 0)

/-- PMOV.PACK (R315). -/
def execPmovPack (d : Dst) (g : Guard) (s : State) : Out := .next (valueSlot s g d false false packPreds)

/-- The predicate writes of PMOV.SET in one lane (R315). -/
def pmovWrites (a m : Word) (l : Nat) : List Wr :=
  (List.range 7).filterMap fun i => if m.getLsbD i then some (.p i l (a.getLsbD i)) else none

/-- PMOV.SET (R315). Its transient is what P0, the register its encoding names, receives or keeps. -/
def execPmovSet (a m : Src) (g : Guard) (s : State) : Out :=
  let c := s.me
  if c.popTrap then .next (s.setMe (raiseExc c cProtection 0 0))
  else
    let on := c.guardMask g
    let t := c.sett
    .next (s.setMe { c with
      sett := Sett.advance { t with
        wr := t.wr ++ (lanesOf on).flatMap fun l => pmovWrites (src32 s c 0 a l) (src32 s c 1 m l) l
        trans := putTrans t.trans t.slot fun l =>
          if on.getLsbD l && (src32 s c 1 m l).getLsbD 0 then boolWord ((src32 s c 0 a l).getLsbD 0)
          else boolWord ((c.pred 0).getLsbD l) } })

/-- A vote: one value for every guarded lane (R316). -/
def voteSlot (o : Ops1) (f : List Word → Nat) (h : List (Nat × Word) → Nat) (s : State) : State :=
  crossSlot s o.g o.d false false fun c ls =>
    let xs := ls.map fun l => (l, src32 s c 0 o.a l)
    let v := BitVec.ofNat 64 (f (xs.map (·.2)) + h xs)
    (ls.map fun l => (l, v), 0)

/-- VOTE.ALL (R316). -/
def execVoteAll (o : Ops1) (s : State) : Out :=
  .next (voteSlot o (fun xs => if xs.all (·.getLsbD 0) then 1 else 0) (fun _ => 0) s)
/-- VOTE.ANY (R316). -/
def execVoteAny (o : Ops1) (s : State) : Out :=
  .next (voteSlot o (fun xs => if xs.any (·.getLsbD 0) then 1 else 0) (fun _ => 0) s)
/-- VOTE.EQ (R316). -/
def execVoteEq (o : Ops1) (s : State) : Out :=
  .next (voteSlot o (fun xs => if xs.all (· == xs.headD 0) then 1 else 0) (fun _ => 0) s)
/-- VOTE.BALLOT (R316). -/
def execVoteBallot (o : Ops1) (s : State) : Out :=
  .next (voteSlot o (fun _ => 0)
    (fun xs => (maskOf (xs.filterMap fun x => if x.2.getLsbD 0 then some x.1 else none)).toNat) s)
/-- VOTE.COUNT (R316). -/
def execVoteCount (o : Ops1) (s : State) : Out :=
  .next (voteSlot o (fun xs => (xs.filter (·.getLsbD 0)).length) (fun _ => 0) s)

/-- One byte of PERM (R317). -/
def permByte (bytes : BitVec 64) (nib : Nat) : Nat :=
  let b := bytes.toNat / 2 ^ (8 * (nib % 8)) % 256
  if nib ≥ 8 then (if b ≥ 128 then 0xFF else 0) else b

/-- PERM (R317). -/
def permVal (a b c : Word) : DWord :=
  let bytes : BitVec 64 := b ++ a
  BitVec.ofNat 64 ((List.range 4).foldl (fun acc j =>
    acc + permByte bytes (c.toNat / 2 ^ (4 * j) % 16) * 2 ^ (8 * j)) 0)

/-- PERM (R317). -/
def execPerm (o : Ops3) (s : State) : Out :=
  .next (valueSlot s o.g o.d false false fun c l => permVal (src32 s c 0 o.a l) (src32 s c 1 o.b l) (src32 s c 2 o.c l))

/-- The lane SHFL reads (R319); W = 32 >> g. -/
def shflLane (m : ShflMode) (seg : BitVec 3) (l k : Nat) : Nat :=
  let w := 32 / 2 ^ seg.toNat
  let s := l - l % w
  match m with
  | .idx => s + k % w
  | .up => if l < s + k then l else l - k
  | .down => if l + k ≥ s + w then l else l + k
  | .xor => s + (l ^^^ k) % w

/-- SHFL (R318, R319). -/
def execShfl (o : Ops2) (t : IntTy) (m : ShflMode) (seg : BitVec 3) (s : State) : Out :=
  .next (valueSlot s o.g o.d t.wide false fun c l =>
    srcW s c 0 o.a t.wide (shflLane m seg l ((src32 s c 1 o.b l).toNat % 32)))

/-- One lane's value for every guarded lane (R320). -/
def bcastSlot (o : Ops1) (t : IntTy) (lane : Crew → Nat → Nat) (s : State) : State :=
  crossSlot s o.g o.d t.wide false fun c ls =>
    match ls with
    | [] => ([], 0)
    | k :: _ =>
      let v := srcW s c 0 o.a t.wide (lane c k)
      (ls.map fun l => (l, v), 0)

/-- BCAST.IDX (R320). -/
def execBcastIdx (o : Ops2) (t : IntTy) (s : State) : Out :=
  .next (bcastSlot ⟨o.d, o.a, o.g⟩ t (fun c k => (src32 s c 1 o.b k).toNat % 32) s)
/-- BCAST.FIRST (R320). -/
def execBcastFirst (o : Ops1) (t : IntTy) (s : State) : Out := .next (bcastSlot o t (fun _ k => k) s)

/-- CMPCT's results (R321): `ks` are the kept lanes, in order. -/
def cmpctVals (val : Nat → DWord) (fill : Nat → DWord) : List Nat → List Nat → List (Nat × DWord)
  | [], _ => []
  | l :: ls, [] => (l, fill l) :: cmpctVals val fill ls []
  | l :: ls, k :: ks => (l, val k) :: cmpctVals val fill ls ks

/-- CMPCT (R321). -/
def execCmpct (o : Ops3) (t : IntTy) (s : State) : Out :=
  .next (crossSlot s o.g o.d t.wide false fun c ls =>
    let keep := ls.filter fun l => (src32 s c 1 o.b l).getLsbD 0
    (cmpctVals (srcW s c 0 o.a t.wide) (srcW s c 2 o.c t.wide) ls keep, 0))

end Sys2Proof.Machine
end

