-- ==== Sys2Proof/Machine/Reduce.lean ====
section
/-!
DEFINITION. Sys2Proof/Machine/Reduce.lean: RED and SCAN across lanes, OP 0x79 and 0x7A (R339–R341).
-/
namespace Sys2Proof.Machine

/-- The integer type of a scalar reduction type. -/
def redInt : RedTy → IntTy
  | .n32 | .f32 => .n32
  | .i32 => .i32
  | .n64 => .n64
  | .i64 => .i64

/-- The operation ⊕ (R339). -/
def redOp (op : RedOp) (t : RedTy) (x y : DWord) : DWord × Flags5 :=
  match t, op with
  | .f32, .add =>
    let r := faddEl .f32 .rne false false false (x.toNat % 2 ^ 32) (y.toNat % 2 ^ 32) 0
    (BitVec.ofNat 64 r.1, r.2.1)
  | .f32, .min =>
    let r := minmaxF .f32 false true (x.toNat % 2 ^ 32) (y.toNat % 2 ^ 32)
    (BitVec.ofNat 64 r.1, r.2)
  | .f32, .max =>
    let r := minmaxF .f32 true true (x.toNat % 2 ^ 32) (y.toNat % 2 ^ 32)
    (BitVec.ofNat 64 r.1, r.2)
  | _, .add => (iaddVal (redInt t) false x y, 0)
  | _, .min => (iminVal (redInt t) x y, 0)
  | _, .max => (imaxVal (redInt t) x y, 0)
  | _, .and => (x &&& y, 0)
  | _, .or => (x ||| y, 0)
  | _, .xor => (x ^^^ y, 0)

/-- What .EXCL writes in the first guarded lane (R341). -/
def redIdentity (op : RedOp) (t : RedTy) : DWord :=
  match t, op with
  | _, .add => 0
  | _, .or => 0
  | _, .xor => 0
  | .n64, .and => BitVec.allOnes 64
  | .i64, .and => BitVec.allOnes 64
  | _, .and => 0xFFFFFFFF
  | .n32, .min => 0xFFFFFFFF
  | .i32, .min => 0x7FFFFFFF
  | .n64, .min => BitVec.allOnes 64
  | .i64, .min => 0x7FFFFFFFFFFFFFFF
  | .f32, .min => 0x7F800000
  | .n32, .max => 0
  | .i32, .max => 0x80000000
  | .n64, .max => 0
  | .i64, .max => 0x8000000000000000
  | .f32, .max => 0xFF800000

/-- One level of the tree: neighbours combine, a lone value passes (R340) as it is: the spec does not say whether a lone NaN is an operation's result
under R102, and the model takes it for none (log 97). -/
def redLevel (f : DWord → DWord → DWord × Flags5) : List (Option DWord) → List (Option DWord) × Flags5
  | p :: q :: r =>
    let (xs, fl) := redLevel f r
    match p, q with
    | some a, some b => let z := f a b; (some z.1 :: xs, z.2 ||| fl)
    | some a, none => (some a :: xs, fl)
    | none, b => (b :: xs, fl)
  | xs => (xs, 0)

/-- The tree over a segment: `k` levels (R340). -/
def redTree (f : DWord → DWord → DWord × Flags5) : Nat → List (Option DWord) → Option DWord × Flags5
  | 0, xs => (xs.headD none, 0)
  | k + 1, xs =>
    let (ys, fl) := redLevel f xs
    let (z, fl') := redTree f k ys
    (z, fl ||| fl')

/-- The first lanes of the segments of a segment code (R339). -/
def segStarts (seg : BitVec 3) : List Nat := (List.range (2 ^ seg.toNat)).map (· * (32 / 2 ^ seg.toNat))

/-- RED over the lanes `ls` (R340). -/
def redLanes (op : RedOp) (t : RedTy) (seg : BitVec 3) (x : Nat → DWord) (ls : List Nat) : List (Nat × DWord) × Flags5 :=
  let w := 32 / 2 ^ seg.toNat
  let per := (segStarts seg).map fun s =>
    let (z, fl) := redTree (redOp op t) (5 - seg.toNat)
      ((List.range w).map fun i => if ls.contains (s + i) then some (x (s + i)) else none)
    match z with
    | some v => ((ls.filter fun l => s ≤ l && l < s + w).map fun l => (l, v), fl)
    | none => ([], fl)
  (per.flatMap (·.1), per.foldl (fun a p => a ||| p.2) 0)

/-- RED (R339, R340). -/
def execRed (o : Ops1) (op : RedOp) (t : RedTy) (seg : BitVec 3) (s : State) : Out :=
  .next (crossSlot s o.g o.d t.wide (intSx (redInt t)) fun c ls => redLanes op t seg (fun l => srcW s c 0 o.a t.wide l) ls)

/-- SCAN within one segment, lanes ascending (R341). -/
def scanSeg (f : DWord → DWord → DWord × Flags5) (excl : Bool) (ident : DWord) (x : Nat → DWord) :
    Option DWord → List Nat → List (Nat × DWord) × Flags5
  | _, [] => ([], 0)
  | acc, l :: ls =>
    let nx : DWord × Flags5 := match acc with
      | none => (x l, 0)
      | some a => f a (x l)
    let out := if excl then acc.getD ident else nx.1
    let (rs, fl) := scanSeg f excl ident x (some nx.1) ls
    ((l, out) :: rs, nx.2 ||| fl)

/-- SCAN over the lanes `ls` (R341). -/
def scanLanes (op : RedOp) (t : RedTy) (seg : BitVec 3) (excl cin : Bool) (x y : Nat → DWord) (ls : List Nat) :
    List (Nat × DWord) × Flags5 :=
  let w := 32 / 2 ^ seg.toNat
  let per := (segStarts seg).map fun s =>
    let seglanes := ls.filter fun l => s ≤ l && l < s + w
    let acc := match seglanes with
      | l :: _ => if cin then some (y l) else none
      | [] => none
    scanSeg (redOp op t) excl (redIdentity op t) x acc seglanes
  (per.flatMap (·.1), per.foldl (fun a p => a ||| p.2) 0)

/-- SCAN (R339, R341). -/
def execScan (o : Ops2) (op : RedOp) (t : RedTy) (seg : BitVec 3) (excl cin : Bool) (s : State) : Out :=
  .next (crossSlot s o.g o.d t.wide (intSx (redInt t)) fun c ls =>
    scanLanes op t seg excl cin (fun l => srcW s c 0 o.a t.wide l) (fun l => srcW s c 1 o.b t.wide l) ls)

end Sys2Proof.Machine
end

