-- ==== Sys2Proof/Machine/Sfu.lean ====
section
/-!
DEFINITION. Sys2Proof/Machine/Sfu.lean: the special functions, OP 0x70–0x78 (R337, R338). An exact value is taken in fixed point with
256 fractional bits; where R337 gives a bound and no single value, the result is a free value held within that bound.
-/
namespace Sys2Proof.Machine

/-! ## Reals in fixed point -/

/-- One, with 256 fractional bits. -/
def fxOne : Nat := 2 ^ 256
/-- ln 2. -/
def fxLn2 : Nat := 0xb17217f7d1cf79abc9e3b39803f2f6af40f343267298b62d8a0d175b8baafa2b
/-- 2π. -/
def fx2Pi : Nat := 0x6487ed5110b4611a62633145c06e0e68948127044533e63a0105df531d89cd912

def fxMul (a b : Nat) : Nat := a * b / fxOne
def fxDiv (a b : Nat) : Nat := a * fxOne / b

/-- e^t for t below 1, as 1 + t (1 + t/2 (1 + t/3 (…))), from its k-th factor. -/
def fxExpFrom (t : Nat) : Nat → Nat → Nat
  | _, 0 => fxOne
  | k, n + 1 => fxOne + fxMul t (fxExpFrom t (k + 1) n) / k

/-- e^t for t below 1. -/
def fxExp (t : Nat) : Nat := fxExpFrom t 1 64

/-- 2^r for r below 1. -/
def fxExp2 (r : Nat) : Nat := fxExp (fxMul r fxLn2)

/-- artanh z for z at most 1/3: z + z³/3 + z⁵/5 + …. -/
def fxArtanhFrom (z2 : Nat) : Nat → Nat → Nat → Nat
  | _, _, 0 => 0
  | p, k, n + 1 => p / k + fxArtanhFrom z2 (fxMul p z2) (k + 2) n

/-- log₂ m for m from 1 up to 2. -/
def fxLog2 (m : Nat) : Nat :=
  let z := fxDiv (m - fxOne) (m + fxOne)
  fxDiv (2 * fxArtanhFrom (fxMul z z) z 1 90) fxLn2

/-- The alternating series of sine (t = x, k = 1) or cosine (t = 1, k = 0) with terms t, t x²/((k+1)(k+2)), …. -/
def fxTrigFrom (x2 : Nat) : Nat → Nat → Bool → Nat → Int
  | _, _, _, 0 => 0
  | t, k, neg, n + 1 =>
    (if neg then -(t : Int) else (t : Int)) + fxTrigFrom x2 (fxMul t x2 / ((k + 1) * (k + 2))) (k + 2) (!neg) n

/-- sin 2πf and cos 2πf for f below 1/2. -/
def fxSin (f : Nat) : Int := let x := fxMul f fx2Pi; fxTrigFrom (fxMul x x) x 1 false 50
def fxCos (f : Nat) : Int := let x := fxMul f fx2Pi; fxTrigFrom (fxMul x x) fxOne 0 false 50

/-- e^−x for a nonnegative fixed-point x; 0 below 2^−400. -/
def fxExpNeg (x : Nat) : Nat :=
  let y := fxDiv x fxLn2
  let n := y / fxOne
  if n ≥ 400 then 0 else fxDiv fxOne (fxExp2 (y % fxOne)) / 2 ^ n

/-- m × 2^e in fixed point. -/
def fxOf (m : Nat) (e : Int) : Nat := if e + 256 ≥ 0 then m * 2 ^ (e + 256).toNat else m / 2 ^ (-(e + 256)).toNat

/-- The integer square root, found bit by bit from bit k downward. -/
def isqrtFrom (n : Nat) : Nat → Nat → Nat
  | 0, r => if (r + 1) * (r + 1) ≤ n then r + 1 else r
  | k + 1, r => isqrtFrom n k (if (r + 2 ^ (k + 1)) * (r + 2 ^ (k + 1)) ≤ n then r + 2 ^ (k + 1) else r)

def isqrt (n : Nat) : Nat := isqrtFrom n (bitLen n / 2 + 1) 0

/-! ## Results within a bound (R337) -/

/-- How far from the exact value a result may lie. -/
inductive SfuBound where
  | ulps (k : Nat)
  | absolute
  deriving DecidableEq, Repr

/-- Exponent of one ulp of v × 2^e in FP32, subnormals kept; a v of 0 stands for a value below every subnormal. -/
def ulpExp (v : Nat) (e : Int) : Int := if v = 0 then -149 else max (e + (bitLen v : Int) - 1 - 23) (-149)

/-- Does an FP32 word lie within the bound of ±v × 2^e? -/
def withinBound (b : SfuBound) (r : Word) (neg : Bool) (v : Nat) (e : Int) : Bool :=
  match decodeF .f32 r.toNat with
  | .fin n m h =>
    let bm : Nat := match b with | .ulps k => k | .absolute => 1
    let be : Int := match b with | .ulps _ => ulpExp v e | .absolute => -22
    let base := min h (min e be)
    decide ((scaled n m h base - scaled neg v e base).natAbs ≤ bm * 2 ^ (be - base).toNat)
  | _ => false

/-- The result of function `fn` on `a`, whose exact value is ±v × 2^e: the free value where it keeps the bound, else the nearest
FP32 value, which keeps it. -/
def sfuPick (fn : Nat) (a : Word) (b : SfuBound) (neg : Bool) (v : Nat) (e : Int) : Word :=
  let r := Config.sfuValue fn a
  if withinBound b r neg v e then r else BitVec.ofNat 32 (roundF .f32 .rne false neg v e 0).1

/-- A result word with its sign. -/
def f32Sign (neg : Bool) (x : Word) : Word := if neg then x ||| 0x80000000 else x
def f32Inf (neg : Bool) : Word := f32Sign neg 0x7F800000
def f32NaN : Word := 0x7FC00000
def f32One : Word := 0x3F800000

/-- The word of an exact dyadic. -/
def f32Of (neg : Bool) (m : Nat) (e : Int) : Word := BitVec.ofNat 32 (roundF .f32 .rne false neg m e 0).1

/-- The special functions. -/
inductive SfuFn where
  | rcp | rsq | sqrt | exp2 | log2 | sin | cos | tanh | sigm
  deriving DecidableEq, Repr

/-- Is m a power of two? -/
def isPow2 (m : Nat) : Bool := decide (m = 2 ^ (bitLen m - 1))

/-- 1 / a, the quotient taken with 300 bits. -/
def sfuRcp (a : Word) (n : Bool) (m : Nat) (e : Int) : Word × Flags5 :=
  if m = 0 then (f32Inf n, flDZ)
  else
    let v := if isPow2 m then 1 else 2 ^ 300 / m
    let ve : Int := if isPow2 m then -e - ((bitLen m : Int) - 1) else -e - 300
    if ve + (bitLen v : Int) > 128 then (f32Inf n, flOF) else (sfuPick 0 a (.ulps 1) n v ve, 0)

/-- 1 / √a. -/
def sfuRsq (a : Word) (n : Bool) (m : Nat) (e : Int) : Word × Flags5 :=
  if m = 0 then (f32Inf n, flDZ)
  else if n then (f32NaN, flNV)
  else
    let k : Nat := if e % 2 = 0 then 0 else 1
    (sfuPick 1 a (.ulps 1) false (isqrt (2 ^ 600 / (m * 2 ^ k))) (-((e - (k : Int)) / 2) - 300), 0)

/-- √a, correctly rounded under RNE: an integer root with a sticky bit. -/
def sfuSqrt (a : Word) (n : Bool) (m : Nat) (e : Int) : Word × Flags5 :=
  if m = 0 then (a, 0)
  else if n then (f32NaN, flNV)
  else
    let k : Nat := if e % 2 = 0 then 60 else 61
    let mm := m * 2 ^ k
    let r := isqrt mm
    let st := if r * r = mm then 0 else 1
    (f32Of false (2 * r + st) ((e - (k : Int)) / 2 - 1), 0)

/-- 2^a: exact for integers from −149. -/
def sfuExp2 (a : Word) (n : Bool) (m : Nat) (e : Int) : Word × Flags5 :=
  if m = 0 then (f32One, 0)
  else if e + (bitLen m : Int) - 1 ≥ 8 then
    if n then (sfuPick 3 a (.ulps 2) false 0 (-149), 0) else (f32Inf false, flOF)
  else
    let x := fxOf m e
    let whole := x / fxOne
    let frac := x % fxOne
    if !n && decide (whole ≥ 128) then (f32Inf false, flOF)
    else if decide (e ≥ 0) || decide (m % 2 ^ (-e).toNat = 0) then
      let k : Int := if n then -(whole : Int) else whole
      if k < -149 then (sfuPick 3 a (.ulps 2) false 1 k, 0) else (f32Of false 1 k, 0)
    else if n then (sfuPick 3 a (.ulps 2) false (fxExp2 (fxOne - frac)) (-(whole : Int) - 1 - 256), 0)
    else (sfuPick 3 a (.ulps 2) false (fxExp2 frac) ((whole : Int) - 256), 0)

/-- log₂ a: 2 ulp outside 0.5–2, absolute 2⁻²² inside, exact at powers of two. -/
def sfuLog2 (a : Word) (n : Bool) (m : Nat) (e : Int) : Word × Flags5 :=
  if m = 0 then (f32Inf true, flDZ)
  else if n then (f32NaN, flNV)
  else
    let k : Int := e + (bitLen m : Int) - 1
    if isPow2 m then (f32Of (decide (k < 0)) k.natAbs 0, 0)
    else
      let v : Int := k * (fxOne : Int) + (fxLog2 (m * 2 ^ (256 - (bitLen m - 1))) : Int)
      let b : SfuBound := if k = 0 || k = -1 then .absolute else .ulps 2
      (sfuPick 4 a b (decide (v < 0)) v.natAbs (-256), 0)

/-- The fraction of a revolution a stands for, in fixed point. -/
def revolution (n : Bool) (m : Nat) (e : Int) : Nat :=
  let f := if e ≥ 0 then 0 else fxOf (m % 2 ^ (-e).toNat) e
  if n && f != 0 then fxOne - f else f

/-- Is a a multiple of 1/4? -/
def quarterTurn (m : Nat) (e : Int) : Bool := decide (e ≥ -2) || decide (m % 2 ^ (-e - 2).toNat = 0)

/-- sin 2πa. -/
def sfuSin (a : Word) (n : Bool) (m : Nat) (e : Int) : Word × Flags5 :=
  if m = 0 then (a, 0)
  else
    let f := revolution n m e
    if quarterTurn m e then
      (if f = fxOne / 4 then f32One else if f = 3 * (fxOne / 4) then f32Sign true f32One else 0, 0)
    else
      let v : Int := if f < fxOne / 2 then fxSin f else -(fxSin (f - fxOne / 2))
      (sfuPick 5 a .absolute (decide (v < 0)) v.natAbs (-256), 0)

/-- cos 2πa. -/
def sfuCos (a : Word) (n : Bool) (m : Nat) (e : Int) : Word × Flags5 :=
  if m = 0 then (f32One, 0)
  else
    let f := revolution n m e
    if quarterTurn m e then
      (if f = 0 then f32One else if f = fxOne / 2 then f32Sign true f32One else 0, 0)
    else
      let v : Int := if f < fxOne / 2 then fxCos f else -(fxCos (f - fxOne / 2))
      (sfuPick 6 a .absolute (decide (v < 0)) v.natAbs (-256), 0)

/-- tanh a: (1 − q) / (1 + q) with q = e^−2|a|, which never is 0: the exact value lies below 1. -/
def sfuTanh (a : Word) (n : Bool) (m : Nat) (e : Int) : Word × Flags5 :=
  if m = 0 then (a, 0)
  else
    let q := max 1 (if e + (bitLen m : Int) > 9 then 0 else fxExpNeg (2 * fxOf m e))
    (sfuPick 7 a (.ulps 2) n (fxDiv (fxOne - q) (fxOne + q)) (-256), 0)

/-- 1 / (1 + e^−a), below 1 for every a. -/
def sfuSigm (a : Word) (n : Bool) (m : Nat) (e : Int) : Word × Flags5 :=
  if m = 0 then (0x3F000000, 0)
  else
    let q := max 1 (if e + (bitLen m : Int) > 9 then 0 else fxExpNeg (fxOf m e))
    (sfuPick 8 a (.ulps 2) false (if n then fxDiv q (fxOne + q) else fxDiv fxOne (fxOne + q)) (-256), 0)

/-- A special function on an FP32 word (R337). -/
def sfuVal (fn : SfuFn) (a : Word) : Word × Flags5 :=
  match decodeF .f32 a.toNat with
  | .nan sg => (f32NaN, if sg then flNV else 0)
  | .inf n =>
    match fn with
    | .rcp => (f32Sign n 0, 0)
    | .rsq => if n then (f32NaN, flNV) else (0, 0)
    | .sqrt => if n then (f32NaN, flNV) else (f32Inf false, 0)
    | .exp2 => if n then (0, 0) else (f32Inf false, 0)
    | .log2 => if n then (f32NaN, flNV) else (f32Inf false, 0)
    | .sin | .cos => (f32NaN, flNV)
    | .tanh => (f32Sign n f32One, 0)
    | .sigm => if n then (0, 0) else (f32One, 0)
  | .fin n m e =>
    match fn with
    | .rcp => sfuRcp a n m e
    | .rsq => sfuRsq a n m e
    | .sqrt => sfuSqrt a n m e
    | .exp2 => sfuExp2 a n m e
    | .log2 => sfuLog2 a n m e
    | .sin => sfuSin a n m e
    | .cos => sfuCos a n m e
    | .tanh => sfuTanh a n m e
    | .sigm => sfuSigm a n m e

/-! ## The SFU queue (R338) -/

/-- An operation enters its quarter's SFU, which holds 8, or waits for room with its sett. -/
def State.sfuEnter (s : State) (k : Nat) (op : SfuOp) : State :=
  let c := s.crews.get k
  let q := (s.cores.get c.core).sfu.get c.quarter
  if decide (q.length < 8) && c.sett.sfuWait.isEmpty then
    { s with cores := s.cores.upd c.core fun x => { x with sfu := x.sfu.put c.quarter (q ++ [op]) } }
  else { s with crews := s.crews.upd k fun c => { c with sett := { c.sett with sfuWait := c.sett.sfuWait ++ [op] } } }

/-- An SFU slot: one operation for its guarded lanes. The sett goes on with its other slots; those that read the result wait for it, and so
does the commit (R338). -/
def sfuSlot (fn : SfuFn) (o : Ops1) (s : State) : State :=
  let c := s.me
  if c.popTrap then s.setMe (raiseExc c cProtection 0 0)
  else
    let ls := lanesOf (c.guardMask o.g)
    if ls.isEmpty then s.setMe (endSlot c o.d false false [] 0 c.sett.gens)
    else
      let rs := ls.map fun l => (l, sfuVal fn (src32 s c 0 o.a l))
      let op : SfuOp := ⟨s.cur, c.epoch, c.sett.slot, rs.map fun r => (r.1, r.2.1), rs.foldl (fun a r => a ||| r.2.2) 0⟩
      (s.setMe { c with sett := ({ c.sett.mark with sfuPend := c.sett.sfuPend ++ [c.sett.slot] } : Sett).advance }).sfuEnter s.cur op

/-- RCP (R337). -/
def execRcp (o : Ops1) (s : State) : Out := .next (sfuSlot .rcp o s)
/-- RSQ (R337). -/
def execRsq (o : Ops1) (s : State) : Out := .next (sfuSlot .rsq o s)
/-- SQRT (R337). -/
def execSqrt (o : Ops1) (s : State) : Out := .next (sfuSlot .sqrt o s)
/-- EXP2 (R337). -/
def execExp2 (o : Ops1) (s : State) : Out := .next (sfuSlot .exp2 o s)
/-- LOG2 (R337). -/
def execLog2 (o : Ops1) (s : State) : Out := .next (sfuSlot .log2 o s)
/-- SIN (R337). -/
def execSin (o : Ops1) (s : State) : Out := .next (sfuSlot .sin o s)
/-- COS (R337). -/
def execCos (o : Ops1) (s : State) : Out := .next (sfuSlot .cos o s)
/-- TANH (R337). -/
def execTanh (o : Ops1) (s : State) : Out := .next (sfuSlot .tanh o s)
/-- SIGM (R337). -/
def execSigm (o : Ops1) (s : State) : Out := .next (sfuSlot .sigm o s)

/-- A result reaches its crew when the epoch it carries is that of the crew's running sett, and is dropped otherwise (R338). -/
def sfuDeliver (s : State) (op : SfuOp) : State :=
  let c := s.crews.get op.crew
  let t := c.sett
  if c.epoch = op.epoch && t.phase == .exec && t.sfuPend.contains op.slot then
    match decode (t.words.getD op.slot 0) with
    | .instr i =>
      match i.dst with
      | some (d, _) =>
        let c' := endLate { c with stall := stNone } op.slot d false false (op.vals.map fun r => (r.1, r.2.setWidth 64)) op.flags
        { s with crews := s.crews.put op.crew { c' with sett := { c'.sett with sfuPend := t.sfuPend.filter (· != op.slot) } } }
      | none => s
    | .refused _ => s
  else s

/-- An operation that waits for room enters the SFU of a quarter: of the crew with the lowest number (log 85). -/
def State.sfuAdmit (s : State) (core quarter : Nat) : State :=
  match s.crews.cells.find? fun e => e.2.core == core && e.2.quarter == quarter && !e.2.sett.sfuWait.isEmpty with
  | some (k, c) =>
    match c.sett.sfuWait with
    | op :: r =>
      let q := (s.cores.get core).sfu.get quarter
      if q.length ≥ 8 then s
      else
        { s with
          crews := s.crews.upd k fun c => { c with sett := { c.sett with sfuWait := r } }
          cores := s.cores.upd core fun x => { x with sfu := x.sfu.put quarter (q ++ [op]) } }
    | [] => s
  | none => s

/-- SFU_RESULT_RETURN (R338): the oldest operation of a quarter's SFU returns and its entry is freed. -/
def execSfuResultReturn (core quarter : Nat) (s : State) : Out :=
  let k := s.cores.get core
  match k.sfu.get quarter with
  | [] => .next s
  | op :: rest =>
    .next ((sfuDeliver { s with cores := s.cores.put core { k with sfu := k.sfu.put quarter rest } } op).sfuAdmit core quarter)

end Sys2Proof.Machine
end

