-- ==== Sys2Proof/Machine/Bench.lean ====
section
/-!
DEFINITION. Sys2Proof/Machine/Bench.lean: the elements of a bench (R223–R241): channels, arcs and credits, rule firing, the element actions
(R400), the kinds ISECT, REORD, BUF and RTREE, and the faults they raise (R249).
-/
namespace Sys2Proof.Machine

/-! ## The grid (R223, R228) -/

/-- An element. -/
def Bench.elem (x : Bench) (e : Nat) : Elem := x.elems.get e
/-- Change an element. -/
def State.updElem (s : State) (b e : Nat) (f : Elem → Elem) : State :=
  s.updBench b fun x => { x with elems := x.elems.upd e f }
/-- The element word. -/
def Bench.word (x : Bench) (e : Nat) : DWord := elemWord x.img e
/-- Row and column within the image. -/
def Bench.row (x : Bench) (e : Nat) : Nat := e / imgWidth x.img
def Bench.col (x : Bench) (e : Nat) : Nat := e % imgWidth x.img
/-- The crew an element acts for: row pair k is the group's k-th crew. -/
def Bench.crewOf (x : Bench) (e : Nat) : Nat := (x.entries.getD (x.row e / 2) default).crew
/-- The element's lane of its crew (R223). A bench that resumes at another offset takes its lanes along: its elements keep the registers, the
generators and the $lane that they had (R157, R255). -/
def Bench.lane (x : Bench) (e : Nat) : Nat := x.row e % 2 * 16 + x.col e + x.base
/-- Elements fire in RUNNING and DRAINING (R253). -/
def Bench.serves (x : Bench) : Bool := x.live && x.fin.isNone && (x.st == .running || x.st == .draining)
/-- A firing in progress finishes its beats in STOPPING and ABORTING too (R251, R253). -/
def Bench.finishes (x : Bench) : Bool := x.serves || (x.live && (x.st == .stopping || x.st == .aborting))
/-- A G5 image. -/
def Bench.g5 (x : Bench) : Bool := imgForm x.img == 2
/-- Has an element something of its own under way that keeps it from a step? -/
def Elem.held (t : Elem) : Bool := t.faulted || t.parked || t.asked
/-- May an element take a step of a kind? -/
def Bench.mayStep (x : Bench) (e kind : Nat) : Bool :=
  x.serves && decide (e < imgCount x.img) && ewKind (x.word e) == kind && !(x.elem e).held

/-! ## Channels and arcs (R224, R226, R244) -/

/-- DONE. -/
def tagDone : BitVec 2 := 3

/-- Entries of an input channel. -/
def Bench.chan (x : Bench) (e c : Nat) : List Ent := (x.elem e).ch.get c

/-- An element with QINV takes entries of its core queue into I3 while the channel has room (R236, R244). -/
def State.feed (s : State) (b e : Nat) : State :=
  let x := s.bench b
  let w := x.word e
  if !ewQinv w || !x.serves then s
  else
    let q := (s.core x.core).queues.get (ewQin w)
    let es := q.entries.take (queueCap - (x.chan e 3).length)
    let s := s.updCore x.core fun k => { k with queues := k.queues.put (ewQin w) { q with entries := q.entries.drop es.length } }
    s.updElem b e fun t => { t with ch := t.ch.upd 3 fun l => l ++ es.map fun p => ⟨p.2.setWidth 32, 0, 0, t.inv⟩ }

/-- Credits of an output channel: free places at the arc's end; an output without an arc always has space (R226). -/
def State.space (s : State) (b e o : Nat) : Nat :=
  let x := s.bench b
  let a := imgArc x.img e o
  if !arcV a then queueCap
  else
    match arcKind a with
    | 0 => queueCap - (x.chan (arcElem x.img a) (arcCh a)).length
    | 1 =>
      let q := (s.core x.core).queues.get (arcQueue a)
      queueCap - (q.entries.length + q.popRes + q.pushRes)
    | _ => queueCap - x.replies.length

/-- An entry pushed to an output channel: to an element, to a core queue without its tag, or to the spall net (R244, R250). -/
def State.pushArc (s : State) (b e o : Nat) (v : Ent) : State :=
  let x := s.bench b
  let a := imgArc x.img e o
  if !arcV a then s
  else
    match arcKind a with
    | 0 => s.updElem b (arcElem x.img a) fun t => { t with ch := t.ch.upd (arcCh a) fun l => l ++ [v] }
    | 1 => s.updCore x.core fun k => { k with queues := k.queues.upd (arcQueue a) fun q => q.push (v.val.setWidth 64) }
    | _ => s.updBench b fun x => { x with replies := x.replies ++ [v.val] }

/-- An entry pushed to every output of a set. -/
def State.pushOuts (s : State) (b e : Nat) (outs : Nat → Bool) (v : Ent) : State :=
  (List.range 4).foldl (fun s o => if outs o then s.pushArc b e o v else s) s

/-- The heads of some input channels are popped in one beat or step; a DONE among them counts once (R248). The first one says which invocation the
element is in. -/
def State.popChans (s : State) (b e : Nat) (cs : List Nat) : State :=
  s.updElem b e fun t => { t with
    inv := match cs with
      | c :: _ => ((t.ch.get c).headD ⟨0, 0, 0, t.inv⟩).inv
      | [] => t.inv
    dones := if cs.any fun c => ((t.ch.get c).headD default).tag == tagDone then t.dones + 1 else t.dones
    ch := cs.foldl (fun ch c => ch.upd c List.tail) t.ch }

/-- A V register of the element's lane is written (R223, R229). -/
def State.setLaneV (s : State) (b e r : Nat) (v : Word) : State :=
  let x := s.bench b
  s.updCrew (x.crewOf e) fun c => c.applyWr (.v r (x.lane e) v)

/-! ## Faults (R249) -/

def spRegion : Nat := 1
def spAlign : Nat := 2
def spPoison : Nat := 3
def spOrder : Nat := 4
def spMarks : Nat := 5
def spFpx : Nat := 6
def spCancelled : Nat := 8
def spAccess : Nat := 9

/-- A fault token. -/
def spallBits (addr inv cause row col rule beat : Nat) : BitVec 128 :=
  BitVec.ofNat 128 (addr % 2 ^ 64 * 2 ^ 64 + inv % 65536 * 2 ^ 48 + cause % 256 * 2 ^ 40 + row % 8 * 2 ^ 37 + col % 16 * 2 ^ 33 +
    rule % 8 * 2 ^ 30 + beat % 32 * 2 ^ 25)

/-- The first iteration not retired whose 6-bit tag is t (R252). -/
def tagIter (retired : Nat) (t : BitVec 6) : Nat := retired + (t.toNat + 64 - retired % 64) % 64

/-- An element faults in invocation `inv` (R249): its token waits to be sent and it fires nothing. A G5 bench has no handler: its fault names
iteration `it`, and the bench aborts once the iterations below have retired (R252). -/
def State.spallRaise (s : State) (b e cause : Nat) (addr : Nat) (rule beat : Nat) (pops : Option (List Nat)) (it inv : Nat) : State :=
  let x := s.bench b
  let bits := spallBits addr inv cause (x.row e) (x.col e) rule beat
  if x.g5 then
    let worse := match x.g5Fault with
      | some j => decide (it < j)
      | none => true
    (s.updElem b e fun t => { t with faulted := true }).updBench b fun x =>
      if worse then { x with g5Fault := some it, abortTok := some ⟨bits, e, pops⟩ } else x
  else s.updElem b e fun t => { t with faulted := true, sendTok := some ⟨bits, e, pops⟩ }

/-! ## Rules (R232, R233) -/

/-- The two channels a MERGE tests: c's, and the one c's head selects (R232, R400). -/
def Bench.mergePops (x : Bench) (e : Nat) (r : Rule) : List Nat :=
  let c := r.mergeCh 2
  let sel := ((x.chan e c).headD default).val.getLsbD 0
  [c, if sel then r.mergeCh 1 else r.mergeCh 0]

/-- Channels popped on a beat. -/
def Bench.beatPops (x : Bench) (e : Nat) (r : Rule) : List Nat :=
  if isMerge r.action then x.mergePops e r else (List.range 4).filter r.deq

/-- Is a rule ready (R232)? -/
def State.ruleReady (s : State) (b e : Nat) (r : Rule) : Bool :=
  let x := s.bench b
  let n := r.depth
  r.v && ((x.elem e).preds ^^^ r.pval) &&& r.pcare == 0 &&
  (if isMerge r.action then (x.mergePops e r).all fun c => !(x.chan e c).isEmpty
   else (List.range 4).all fun c => !r.iready c ||
     (decide ((x.chan e c).length ≥ n) && (n == 1 || ((x.chan e c).take n).all fun v => v.tag == 0))) &&
  (r.tagset == 0 || (match x.chan e r.tagch with
    | v :: _ => r.tagset / 2 ^ v.tag.toNat % 2 == 1
    | [] => false)) &&
  (List.range 4).all fun o => !r.out o || decide (s.space b e o ≥ n)

/-- The ready rule with the highest PRI, the lowest index among equals (R233). -/
def State.bestRule (s : State) (b e : Nat) : Option Nat :=
  (List.range 8).foldl (fun best i =>
    let r := imgRule (s.bench b).img e i
    if !s.ruleReady b e r then best
    else
      match best with
      | some j => if r.pri > (imgRule (s.bench b).img e j).pri then some i else best
      | none => some i) none

/-- The channel whose head gives a G5 entry its iteration tag: the first of IREADY (R252). -/
def Bench.iterOf (x : Bench) (e : Nat) (r : Rule) : BitVec 6 :=
  match (List.range 4).find? r.iready with
  | some c => ((x.chan e c).headD default).iter
  | none => 0

/-- The invocation that a beat of a rule belongs to: that of its first IREADY channel's head; of the entry popped last, for a rule that reads
none (log 94). -/
def Bench.ruleInv (x : Bench) (e : Nat) (r : Rule) : Nat :=
  match (List.range 4).find? r.iready with
  | some c => ((x.chan e c).headD ⟨0, 0, 0, (x.elem e).inv⟩).inv
  | none => (x.elem e).inv

/-- The tag of what a beat pushes (R231). A head tag that is asked of an empty channel is a free value (log 11). -/
def State.outTag (s : State) (b e : Nat) (r : Rule) : BitVec 2 :=
  if r.otag < 4 then BitVec.ofNat 2 r.otag
  else
    match (s.bench b).chan e r.tagch with
    | v :: _ => v.tag
    | [] => (Config.free32 s.free).setWidth 2

/-- A beat ends: what it yields is pushed to `outs`, its inputs are popped, and after the last beat the predicates change (R233). The last beat of a
firing changes them when it was skipped too: R233's update is the firing's and no write of the beat (log 95). -/
def State.endBeat (s : State) (b e i beat : Nat) (outs : Nat → Bool) (result : Option Word) : State :=
  let x := s.bench b
  let r := imgRule x.img e i
  let s := match result with
    | some v => (s.pushOuts b e outs ⟨v, s.outTag b e r, x.iterOf e r, x.ruleInv e r⟩).bumpFree
    | none => s
  (s.popChans b e (x.beatPops e r)).updElem b e fun t =>
    if beat + 1 < r.depth then { t with firing := some (i, beat + 1) }
    else { t with firing := none, preds := (t.preds &&& ~~~r.pwmask) ||| (r.pnew &&& r.pwmask) }

/-! ## Actions (R234) -/

/-- The action word with every source that reads P7 turned into a channel read: the element's p7 is a bit like the others. -/
def p7Word (w : DWord) (i : Instr) : DWord :=
  ((List.range i.srcs.length).zip i.srcs).foldl (fun w p =>
    if p.2.1 == .pred 7 then (w &&& ~~~(0x3FF#64 <<< (30 - 10 * p.1))) ||| (0x180#64 <<< (30 - 10 * p.1)) else w) w

/-- What the sources that read channels, or p7, read: by source position. -/
def Bench.headsOf (x : Bench) (e : Nat) (i : Instr) : Tbl DWord :=
  ⟨((List.range i.srcs.length).zip i.srcs).filterMap fun p => match p.2.1 with
    | .pop q => some (p.1, (((x.chan e q.toNat).headD default).val).setWidth 64)
    | .pred n => if n = 7 then some (p.1, if (x.elem e).preds.getLsbD 7 then 1 else 0) else none
    | _ => none⟩

/-- The element as a crew of one lane in a sett of its action: its predicates, its crew's registers (R229, R234). -/
def State.asCrew (s : State) (b e : Nat) (w : DWord) (i : Instr) : State :=
  let x := s.bench b
  let k := x.crewOf e
  let c := s.crew k
  let p := (x.elem e).preds
  let t : Sett := { (default : Sett) with phase := .exec, nslots := 1, words := [w], pops := x.headsOf e i, gens := c.gens }
  let c' : Crew := { c with
    paths := [⟨0, laneBit (x.lane e), none, 0⟩]
    p := ⟨(List.range 8).map fun n => (n, if p.getLsbD n then laneBit (x.lane e) else 0)⟩
    sett := t }
  { s.updCore c.core fun q => { q with sfu := q.sfu.put c.quarter [] } with cur := k, crews := s.crews.put k c' }

/-- The instruction an action word holds, run (R234). -/
def runAction (i : Instr) (s : State) : Out :=
  match i with
  | .iadd o t sat => execIadd o t sat s
  | .iadd3 o t sat => execIadd3 o t sat s
  | .isub o t sat => execIsub o t sat s
  | .imul o t sat => execImul o t sat s
  | .imulh o t => execImulh o t s
  | .imad o t sat => execImad o t sat s
  | .imin o t => execImin o t s
  | .imax o t => execImax o t s
  | .iabs o t sat => execIabs o t sat s
  | .lea o t sh m => execLea o t sh m s
  | .shl o t => execShl o t s
  | .shr o t => execShr o t s
  | .sar o t => execSar o t s
  | .rol o t => execRol o t s
  | .ror o t => execRor o t s
  | .mov o => execMov o s
  | .movi d g t imm => execMovi d g t imm s
  | .sel o t => execSel o t s
  | .icmp o t c k => execIcmp o t c k s
  | .bfx o t => execBfx o t s
  | .bfi o t => execBfi o t s
  | .popc o t => execPopc o t s
  | .clz o t => execClz o t s
  | .ctz o t => execCtz o t s
  | .brev o t => execBrev o t s
  | .lop o t op => execLop o t op s
  | .iaddImm o t sat imm => execIaddImm o t sat imm s
  | .imulImm o t sat imm => execImulImm o t sat imm s
  | .lopImm o t op imm => execLopImm o t op imm s
  | .shiftImm o t op imm => execShiftImm o t op imm s
  | .icmpImm o t c imm => execIcmpImm o t c imm s
  | .iminmaxImm o t mx imm => execIminmaxImm o t mx imm s
  | .plop o lut => execPlop o lut s
  | .pmovPack d g => execPmovPack d g s
  | .pmovSet a m g => execPmovSet a m g s
  | .perm o => execPerm o s
  | .fadd o rm sat na nb => execFadd o rm sat na nb s
  | .fmul o rm sat na => execFmul o rm sat na s
  | .ffma o rm sat np nc => execFfma o rm sat np nc s
  | .fmin o nan => execFmin o nan s
  | .fmax o nan => execFmax o nan s
  | .fcmp o c k => execFcmp o c k s
  | .fclass o => execFclass o s
  | .fclassTest o => execFclassTest o s
  | .frnd o rm => execFrnd o rm s
  | .faddPacked o t rm sat na nb => execFaddPacked o t rm sat na nb s
  | .fmulPacked o t rm sat na => execFmulPacked o t rm sat na s
  | .ffmaPacked o t rm sat np nc => execFfmaPacked o t rm sat np nc s
  | .fminPacked o t nan => execFminPacked o t nan s
  | .fmaxPacked o t nan => execFmaxPacked o t nan s
  | .fcmpPacked o t c => execFcmpPacked o t c s
  | .cvt o dt st rm sat => execCvt o dt st rm sat s
  | .cvtPacked o f rm sat => execCvtPacked o f rm sat s
  | .dot4 o t rm sat => execDot4 o t rm sat s
  | .rcp o => execRcp o s
  | .rsq o => execRsq o s
  | .sqrt o => execSqrt o s
  | .exp2 o => execExp2 o s
  | .log2 o => execLog2 o s
  | .sin o => execSin o s
  | .cos o => execCos o s
  | .tanh o => execTanh o s
  | .sigm o => execSigm o s
  | _ => .next s

/-- The action word with a predicate destination turned into DK 0b01: the outputs receive the whole result, of which the predicate takes bit 0
(R234). PMOV.SET has no other form. -/
def wholeResult (w : DWord) (i : Instr) : DWord :=
  match i, i.dst with
  | .pmovSet _ _ _, _ => w
  | _, some (.p _, _) => (w &&& ~~~(0x3FF#64 <<< 40)) ||| (1#64 <<< 48)
  | _, _ => w

/-- What an action leaves in its one-lane sett: an SFU operation has returned (R234). -/
def State.actionSett (s : State) (b e : Nat) (i : Instr) (w : DWord) : Sett :=
  let w := wholeResult (p7Word w i) i
  let t := s.asCrew b e w i
  let run := match decode w with
    | .instr j => j
    | .refused _ => i
  match runAction run t with
  | .next u =>
    match execSfuResultReturn u.me.core u.me.quarter u with
    | .next v => v.me.sett
    | _ => u.me.sett
  | _ => default

/-- The predicate bits after an action's writes: PMOV.SET writes p0–p6; DK 0b11 writes bit 0 of the result, p7 included (R234, R315). -/
def actionPreds (p : Byte) (i : Instr) (wr : List Wr) (result : Word) : Byte :=
  let put := fun (p : Byte) (n : Nat) (v : Bool) => if v then p ||| (1#8 <<< n) else p &&& ~~~(1#8 <<< n)
  let p := wr.foldl (fun p w => match w with
    | .p n _ v => put p n v
    | _ => p) p
  match i.dst with
  | some (.p n, _) => put p n.toNat (result.getLsbD 0)
  | _ => p

/-- What an action yields to its outputs: PMOV.PACK packs the element's own p7 (R224). -/
def actionResult (p : Byte) (i : Instr) (lane : Nat) (t : Sett) : Word :=
  match i with
  | .pmovPack _ _ => p.setWidth 32
  | _ => (t.trans.get lane).setWidth 32

/-- Does an action read a poisoned register of its lane? -/
def Crew.benchPoison (c : Crew) (i : Instr) (lane : Nat) : Bool :=
  i.srcs.any fun p => match p.1 with
    | .v n => c.poisonV.contains (n.toNat * 32 + lane)
    | .s n => c.poisonS.contains n.toNat
    | _ => false

/-- The iteration a fault of a rule names (R252). -/
def Bench.faultIter (x : Bench) (e : Nat) (r : Rule) : Nat := tagIter x.retired (x.iterOf e r)

/-- The action's writes: its result to its lane's V register, the predicates, the generators, and its flags in the crew's $fpsr (R229, R233). -/
def State.actionWrites (s : State) (b e : Nat) (t : Sett) (p : Byte) (result : Word) : State :=
  let k := (s.bench b).crewOf e
  let s := s.updCrew k fun c =>
    let vs := t.wr.filterMap fun w => match w with
      | .v n l _ => some (Wr.v n l result)
      | _ => none
    vs.foldl Crew.applyWr { c with gens := t.gens, fpsr := orFlags c.fpsr t.flags }
  s.updElem b e fun x => { x with preds := p }

/-- One beat of rule i (R233, R235). A beat toward a full core queue waits. -/
def State.beat (s : State) (b e i beat : Nat) : State :=
  let x := s.bench b
  let r := imgRule x.img e i
  let c := s.crew (x.crewOf e)
  match r.action with
  | none => s
  | some a =>
    if (List.range 4).any fun o => r.out o && s.space b e o == 0 then s
    else
      let s := s.updElem b e fun t => { t with firing := some (i, beat) }
      if c.benchPoison a (x.lane e) then s.spallRaise b e spPoison 0 i beat none (x.faultIter e r) (x.ruleInv e r)
      else if a.benchAction then { s with fire := some ⟨b, e, i, beat⟩, agenda := a :: s.agenda }
      else
        let t := s.actionSett b e a r.act
        let v := actionResult (x.elem e).preds a (x.lane e) t
        if t.flags &&& fpEnables c.fpsr != 0 then
          let u := s.asCrew b e r.act a
          let arg := match a.srcs with
            | p :: _ => (src32 u u.me 0 p.1 (x.lane e)).toNat
            | [] => 0
          s.spallRaise b e spFpx arg i beat none (x.faultIter e r) (x.ruleInv e r)
        else (s.actionWrites b e t (actionPreds (x.elem e).preds a t.wr v) v).endBeat b e i beat r.out (some v)

/-- ELEMENT_RULE_FIRE (R232, R233): a PLAIN element goes on with its firing, or fires its best ready rule, by one beat. -/
def execElementRuleFire (b elem : Nat) (s : State) : Out :=
  let x := s.bench b
  let t := x.elem elem
  if !x.finishes || decide (elem ≥ imgCount x.img) || ewKind (x.word elem) != kPlain || t.held || s.fire.isSome then .next s
  else
    let s := s.feed b elem
    match t.firing with
    | some (i, n) => .next (s.beat b elem i n)
    | none =>
      if !x.serves then .next s
      else
        match s.bestRule b elem with
        | some i => .next (s.beat b elem i 0)
        | none => .next s

/-! ## Element actions (R400) -/

/-- A value goes to a rule's destination (R234, R250): the lane's V register, or bit 0 of it to a predicate of the element. -/
def State.ruleDst (s : State) (b e i : Nat) (v : Word) : State :=
  match (imgRule (s.bench b).img e i).action with
  | none => s
  | some a =>
    match a.dst with
    | some (.v n, _) => s.setLaneV b e n.toNat v
    | some (.p n, _) => s.updElem b e fun t => { t with
        preds := if v.getLsbD 0 then t.preds ||| (1#8 <<< n.toNat) else t.preds &&& ~~~(1#8 <<< n.toNat) }
    | _ => s

/-- An element action: `f` says from its 32-bit sources what it pushes and to which of its outputs; its destination takes the same
value, pushed or not (R234). In a sett it is ILLEGAL_OP (R280). -/
def elementAction (srcs : List Src) (f : List Word → Rule → (Nat → Bool) × Word) (i : Instr) (s : State) : State :=
  match s.fire with
  | none => s.setMe (raiseExc s.me cIllegalOp (BitVec.ofNat 64 (slotAddr s.me.sett s.me.sett.slot)) 0)
  | some q =>
    let x := s.bench q.bench
    let r := imgRule x.img q.elem q.rule
    let u := s.asCrew q.bench q.elem (p7Word r.act i) i
    let vs := ((List.range srcs.length).zip srcs).map fun p =>
      if p.2 == .pred 7 then (u.me.sett.pops.get p.1).setWidth 32 else src32 u u.me p.1 p.2 (x.lane q.elem)
    let (outs, v) := f vs r
    ({ s with fire := none }.ruleDst q.bench q.elem q.rule v).endBeat q.bench q.elem q.rule q.beat outs (some v)

/-- STEER: a to output c[1:0] when that output is in OUT and c[2] = 0. -/
def execSteer (o : Ops2) (s : State) : Out :=
  .next (elementAction [o.a, o.b] (fun vs r =>
    let c := vs.getD 1 0
    (fun n => r.out n && !c.getLsbD 2 && n == bitsOf c 0 2, vs.getD 0 0)) (.steer o) s)

/-- MERGE: b when c[0] = 1, otherwise a. -/
def execMerge (o : Ops3) (s : State) : Out :=
  .next (elementAction [o.a, o.b, o.c] (fun vs r =>
    (r.out, if (vs.getD 2 0).getLsbD 0 then vs.getD 1 0 else vs.getD 0 0)) (.merge o) s)

/-- GATE: a when c[0] = 1. -/
def execGate (o : Ops2) (s : State) : Out :=
  .next (elementAction [o.a, o.b] (fun vs r => (fun n => r.out n && (vs.getD 1 0).getLsbD 0, vs.getD 0 0)) (.gate o) s)

/-- FWD: a. -/
def execFwd (o : Ops1) (s : State) : Out :=
  .next (elementAction [o.a] (fun vs r => (r.out, vs.getD 0 0)) (.fwd o) s)

/-! ## Kinds (R238–R241) -/

/-- A fault of a kind's step: the heads that took part are popped when it is answered (R250). -/
def State.kindFault (s : State) (b e cause addr : Nat) (pops : List Nat) : State :=
  let x := s.bench b
  let v := (x.chan e (pops.headD 0)).headD default
  s.spallRaise b e cause addr 0 0 (some pops) (tagIter x.retired v.iter) v.inv

/-- Do a coordinate and the last of its side rise (R238)? -/
def rises (last : Option Word) (v : Word) : Bool :=
  match last with
  | some u => decide (u.toNat < v.toNat)
  | none => true

/-- One step of ISECT with the heads of its four inputs (R238). -/
def State.isect (s : State) (b e : Nat) (a c u v : Ent) : State :=
  let room := (List.range 3).all fun o => decide (s.space b e o > 0)
  let push3 := fun (s : State) (p q r : Ent) => ((s.pushArc b e 0 p).pushArc b e 1 q).pushArc b e 2 r
  if u.tag != a.tag || v.tag != c.tag then s.kindFault b e spMarks a.val.toNat [0, 1, 2, 3]
  else if a.tag != 0 && c.tag != 0 then
    if a.tag != c.tag then s.kindFault b e spMarks a.val.toNat [0, 1, 2, 3]
    else if !room then s
    else
      let m : Ent := ⟨0, a.tag, a.iter, a.inv⟩
      ((push3 s m m m).popChans b e [0, 1, 2, 3]).updElem b e fun t => { t with lastA := none, lastB := none }
  else if a.tag == 0 && !rises (s.bench b |>.elem e).lastA a.val then s.kindFault b e spOrder a.val.toNat [0, 2]
  else if c.tag == 0 && !rises (s.bench b |>.elem e).lastB c.val then s.kindFault b e spOrder c.val.toNat [1, 3]
  else if a.tag == 0 && c.tag == 0 && a.val == c.val then
    if !room then s
    else
      ((push3 s ⟨a.val, 0, a.iter, a.inv⟩ ⟨u.val, 0, a.iter, a.inv⟩ ⟨v.val, 0, a.iter, a.inv⟩).popChans b e [0, 1, 2, 3]).updElem b e fun t =>
        { t with lastA := some a.val, lastB := some c.val }
  else if c.tag != 0 || (a.tag == 0 && decide (a.val.toNat < c.val.toNat)) then
    (s.popChans b e [0, 2]).updElem b e fun t => { t with lastA := some a.val }
  else (s.popChans b e [1, 3]).updElem b e fun t => { t with lastB := some c.val }

/-- ISECT_STEP (R238). -/
def execIsectStep (b elem : Nat) (s : State) : Out :=
  if !(s.bench b).mayStep elem kIsect then .next s
  else
    let s := s.feed b elem
    let x := s.bench b
    match x.chan elem 0, x.chan elem 1, x.chan elem 2, x.chan elem 3 with
    | a :: _, c :: _, u :: _, v :: _ => .next (s.isect b elem a c u v)
    | _, _, _, _ => .next s

/-- The buffer index of a REORD element's n-th entry (R239). -/
def reordIndex (w : DWord) (n : Nat) : Nat :=
  let ca := ewParam w 24 8 + 1
  (n % ca * ewParam w 8 8 + n / ca * ewParam w 0 8) % reordB w

/-- A REORD element emits the next entry of its full block. -/
def State.reordEmit (s : State) (b e : Nat) : State :=
  let x := s.bench b
  let t := x.elem e
  if t.emit.isEmpty || s.space b e 0 == 0 then s
  else
    let w := x.word e
    (s.pushArc b e 0 (t.emit.getD (reordIndex w t.emitPos) default)).updElem b e fun t =>
      if t.emitPos + 1 < reordB w then { t with emitPos := t.emitPos + 1 } else { t with emit := [], emitPos := 0 }

/-- A REORD element takes its next entry: DATA into the block it fills, in V0 to V(2B − 1); a mark at a block boundary, once the block
before it is out. -/
def State.reordTake (s : State) (b e : Nat) : State :=
  let x := s.bench b
  let t := x.elem e
  let n := reordB (x.word e)
  match x.chan e 0 with
  | [] => s
  | v :: _ =>
    if v.tag == 0 then
      if t.fill.length ≥ n then s
      else
        ((s.setLaneV b e ((if t.flip then n else 0) + t.fill.length) v.val).popChans b e [0]).updElem b e fun t =>
          { t with fill := t.fill ++ [v] }
    else if !t.fill.isEmpty && t.fill.length < n then s.kindFault b e spMarks v.val.toNat [0]
    else if !t.fill.isEmpty || !t.emit.isEmpty || s.space b e 0 == 0 then s
    else (s.pushArc b e 0 v).popChans b e [0]

/-- A full block takes the place of one that is out. -/
def Elem.reordSwap (t : Elem) (n : Nat) : Elem :=
  if t.emit.isEmpty && t.fill.length == n then { t with emit := t.fill, emitPos := 0, fill := [], flip := !t.flip } else t

/-- REORD_STEP (R239): one entry out of the full block and one into the other. -/
def execReordStep (b elem : Nat) (s : State) : Out :=
  if !(s.bench b).mayStep elem kReord then .next s
  else
    let s := s.feed b elem
    let n := reordB ((s.bench b).word elem)
    .next ((((s.updElem b elem fun t => t.reordSwap n).reordEmit b elem).reordTake b elem).updElem b elem fun t => t.reordSwap n)

/-- BUF_STEP (R240): an entry leaves the buffer and one enters it. -/
def execBufStep (b elem : Nat) (s : State) : Out :=
  if !(s.bench b).mayStep elem kBuf then .next s
  else
    let s := s.feed b elem
    let x := s.bench b
    let depth := ewParam (x.word elem) 0 8 + 1
    let s := match (x.elem elem).buf with
      | v :: r => if s.space b elem 0 == 0 then s
        else (s.pushArc b elem 0 v).updElem b elem fun t => { t with buf := r }
      | [] => s
    let t := (s.bench b).elem elem
    match (s.bench b).chan elem 0 with
    | v :: _ =>
      if t.buf.length ≥ depth then .next s
      else
        .next (((s.setLaneV b elem (t.stored % depth) v.val).popChans b elem [0]).updElem b elem fun t =>
          { t with buf := t.buf ++ [v], stored := t.stored + 1 })
    | [] => .next s

/-- I0 op I1 of an RTREE element (R241): no flag. -/
def rtreeVal (op : Nat) (a c : Word) : Word :=
  let (r, t) : RedOp × RedTy := match op with
    | 0 => (.add, .f32)
    | 1 => (.add, .i32)
    | 2 => (.max, .f32)
    | 3 => (.min, .f32)
    | 4 => (.max, .i32)
    | _ => (.min, .i32)
  (redOp r t (a.setWidth 64) (c.setWidth 64)).1.setWidth 32

/-- RTREE_STEP (R241). -/
def execRtreeStep (b elem : Nat) (s : State) : Out :=
  if !(s.bench b).mayStep elem kRtree then .next s
  else
    let s := s.feed b elem
    let x := s.bench b
    match x.chan elem 0, x.chan elem 1 with
    | a :: _, c :: _ =>
      if a.tag != c.tag then .next (s.kindFault b elem spMarks a.val.toNat [0, 1])
      else if s.space b elem 0 == 0 then .next s
      else
        let v := if a.tag == 0 then rtreeVal (ewParam (x.word elem) 0 4) a.val c.val else a.val
        .next ((s.pushArc b elem 0 ⟨v, a.tag, a.iter, a.inv⟩).popChans b elem [0, 1])
    | _, _ => .next s

end Sys2Proof.Machine
end

