-- ==== Sys2Proof/Machine/BenchMem.lean ====
section
/-!
DEFINITION. Sys2Proof/Machine/BenchMem.lean: memory nodes of a bench (R76–R78, R158–R164, R242, R243) and the ordered retire unit of a G5
bench (R252).
-/
namespace Sys2Proof.Machine

/-- A memory node's parameters. -/
def Bench.mem (x : Bench) (e : Nat) : Rec256 := memBlock x.img e
/-- ETYPE of a node. -/
def memElem (m : Rec256) : ElemTy := (mbType m).getD .n32
/-- Bytes of a node's element. -/
def memBytes (m : Rec256) : Nat := elemBits (memElem m) / 8
/-- The access a node makes, as its permission is checked (R26). -/
def memAcc (m : Rec256) : Acc :=
  match mbDir m with
  | 0 => .load
  | 1 => .store
  | _ => .atomic

/-- Does output o of an element have an arc? -/
def Bench.hasArc (x : Bench) (e o : Nat) : Bool := arcV (imgArc x.img e o)

/-- Does an ordered node take ordering entries: I3 has an arc, or OSEED (R243)? -/
def Bench.chained (x : Bench) (e : Nat) : Bool := imgFed x.img e 3 || ewOseed (x.word e)

/-- The channels an access takes its operands from: address, data or operand, CAS's new value (R242). -/
def operandChs (m : Rec256) : List Nat :=
  0 :: (if mbDir m = 0 then [] else if mbDir m = 2 && mbAop m == some .cas then [1, 2] else [1])

/-- Where an access lies, or how it fails: inside the region, aligned, and translated for the node's crew (R242, R50, R51). -/
inductive MemR where
  | ok (l : Loc)
  | spall (cause : Nat)
  | park (cause : BitVec 8)
  deriving DecidableEq, Repr

/-- The checks of an access at address a, in order (R242). -/
def State.memLoc (s : State) (b e a : Nat) : MemR :=
  let x := s.bench b
  let m := x.mem e
  let n := memBytes m
  let k := x.crewOf e
  let c := s.crew k
  if a < mbBase m || a + n > mbBase m + mbSize m then .spall spRegion
  else if a % n ≠ 0 then .spall spAlign
  else
    match s.spaceLoc c.part k x.gang x.core x.level false (match mbSpace m with | 0 => 2 | 1 => 3 | _ => 0) 0 (memAcc m) a with
    | .ok l => if mbSpace m = 0 && a + n > (s.gang x.gang).localSize then .spall spAccess else .ok l
    | .bad cause _ => if mbSpace m = 2 then .park cause else .spall spAccess

/-- A value read, as an entry's 32 bits (R98). -/
def memWord (m : Rec256) (v : Nat) : Word := (fill98 (memElem m) v).setWidth 32

/-- What an access at its home gives: the state after it, and the old value. -/
def State.memPerform (s : State) (m : Rec256) (pa : Nat) (x y : Word) : State × Word :=
  let n := memBytes m
  let w := 2 ^ (8 * n)
  let old := memWord m (s.readVal pa n)
  match mbDir m with
  | 0 => (s, old)
  | 1 => (s.performVal pa n (x.toNat % w), old)
  | _ => (s.rmwAt ((mbAop m).getD .add) (memElem m) pa (x.toNat % w) (y.toNat % w), old)

/-- The request for an access at another device's home. -/
def State.memAsk (s : State) (b e : Nat) (l : Loc) (x y : Word) : State :=
  let z := s.bench b
  let m := z.mem e
  let n := memBytes m
  (s.sendTo l.dev (.bench b e) fun q => match mbDir m with
    | 0 => .read s.dev q l.pa n z.level z.part
    | 1 => .write s.dev q l.pa (leBytes n x.toNat) z.level z.part
    | _ => .atomic s.dev q l.pa ((mbAop m).getD .add) (memElem m) (x.setWidth 64) (y.setWidth 64) z.level z.part).updElem b e
    fun t => { t with asked := true }

/-- Is a node's SCOPE wider than .core (R133, R161)? -/
def mbWide (m : Rec256) : Bool := decide (bitsOf m 53 3 ≥ 3)

/-- Before an access performs, what the core holds for its line goes home (R79); before a release wider than .core, all that the core holds (R155,
R161). Whether it may perform then. -/
def State.memReady (s : State) (core : Nat) (m : Rec256) (l : Loc) : State × Bool :=
  let n := memBytes m
  if mbOrd m == 2 && mbWide m then
    let s := s.releaseCore core
    (s, !s.coreBusy core && !s.holdsLines core l.dev l.pa n)
  else
    let s := s.settleLines core l.dev l.pa n
    (s, !s.holdsLines core l.dev l.pa n)

/-- What an access leaves to its core: a line that it may have written is gone from the L1, and after an acquire wider than .core all of it (R80,
R152, R161). -/
def State.memSeen (s : State) (core : Nat) (m : Rec256) (l : Loc) : State :=
  let s := if mbDir m = 0 then s else s.dropLine core l.dev (l.pa / 128)
  if mbOrd m == 1 && mbWide m then s.dropL1 core else s

/-- What an access comes to: performed with the old value, or waiting, or failed. -/
inductive MemDone where
  | value (v : Word)
  | waits
  | spall (cause : Nat)
  deriving DecidableEq, Repr

/-- A node's access at address a: a translation fault parks it (R32, R242); a poisoned word is a fault; another device is asked. -/
def State.memAccess (s : State) (b e a : Nat) (x y : Word) : State × MemDone :=
  let z := s.bench b
  let m := z.mem e
  let n := memBytes m
  match (z.elem e).answer with
  | some bs =>
    let s := s.updElem b e fun t => { t with answer := none }
    let s := match s.memLoc b e a with
      | .ok l => s.memSeen z.core m l
      | _ => s
    (s, if bs.isEmpty && mbDir m != 1 then .spall spPoison else .value (memWord m (leNat bs)))
  | none =>
    match s.memLoc b e a with
    | .spall cause => (s, .spall cause)
    | .park cause =>
      let (s, ok) := s.parkReq (dieOf z.core) z.part unBench z.core (z.crewOf e) (.bench b e) cause (BitVec.ofNat 64 a) 0
        (mbDir m == 1) (mbDir m ≥ 2)
      (if ok then s.updElem b e fun t => { t with parked := true } else s, .waits)
    | .ok l =>
      let (s, ready) := s.memReady z.core m l
      if !ready then (s, .waits)
      else if l.dev ≠ s.dev then (s.memAsk b e l x y, .waits)
      else if mbDir m != 1 && (s.poisonedIn l.pa n).isSome then (s, .spall spPoison)
      else
        let (s, v) := s.memPerform m l.pa x y
        ((s.touchDc (l.pa / 128) l.mtype (mbDir m != 0)).memSeen z.core m l, .value v)

/-! ## Streaming nodes (R76, R242) -/

/-- The address of entry n for start token k. -/
def streamAddr (m : Rec256) (k n : Nat) : Nat :=
  mbBase m + k * mbInvStep m + n % mbCount0 m * mbStep0 m + n / mbCount0 m * mbStep1 m

/-- The iteration tag of a streaming node's next entry: its entries are a G5 loop's iterations (log 13). -/
def Elem.streamIter (t : Elem) : BitVec 6 := BitVec.ofNat 6 t.read

/-- The next position of a stream; M1 owes a STOP1 after COUNT0 entries. -/
def State.streamStep (s : State) (b e : Nat) : State :=
  let m := (s.bench b).mem e
  s.updElem b e fun t => { t with
    strPos := t.strPos + 1
    read := t.read + 1
    markDue := mbM1 m && (t.strPos + 1) % mbCount0 m == 0 }

/-- A word of a stream is pushed; with TAGW it carries its tag, and DONE ends the stream. -/
def State.streamPush (s : State) (b e : Nat) (v : Word) : State :=
  let x := s.bench b
  let m := x.mem e
  let it := (x.elem e).streamIter
  let n := (x.elem e).inv
  if mbTagw m then
    let tag : BitVec 2 := v.extractLsb' 30 2
    let s := s.pushArc b e 0 ⟨v &&& 0x3FFFFFFF, tag, it, n⟩
    if tag == tagDone then s.updElem b e fun t => { t with strTok := none, read := t.read + 1 } else s.streamStep b e
  else (s.pushArc b e 0 ⟨v, 0, it, n⟩).streamStep b e

/-- Exit nodes of a G5 image: write and atomic nodes (R252). -/
def Bench.exits (x : Bench) : List Nat :=
  (imgElems x.img).filter fun e => ewKind (x.word e) == kMem && mbDir (x.mem e) != 0

/-- Is an iteration within the 64 that the ordered retire unit holds? -/
def Bench.iterFits (x : Bench) (it : Nat) : Bool := !x.g5 || x.exits.isEmpty || decide (it < x.retired + 64)

/-- The least number of a list; 0 when it is empty. -/
def leastOf : List Nat → Nat
  | [] => 0
  | n :: r => r.foldl min n

/-- Sources. -/
def Bench.sources (x : Bench) : List Nat := (imgElems x.img).filter fun e => ewSrc (x.word e)
/-- Start tokens injected: taken by every source (R247). -/
def Bench.injected (x : Bench) : Nat := leastOf (x.sources.map fun e => (x.elem e).took)

/-- One step of a stream whose token is k, once that token is injected (R76): a mark that is due, the DONE after the last entry, or the read of the
next entry. -/
def State.stream (s : State) (b e k : Nat) : State :=
  let x := s.bench b
  let m := x.mem e
  let t := x.elem e
  if s.space b e 0 == 0 || !x.iterFits t.read || decide (t.inv ≥ x.injected) then s
  else if t.markDue then (s.pushArc b e 0 ⟨0, 1, t.streamIter, t.inv⟩).updElem b e fun t => { t with markDue := false }
  else if t.strPos ≥ mbCount0 m * mbCount1 m then
    (s.pushArc b e 0 ⟨0, tagDone, t.streamIter, t.inv⟩).updElem b e fun t => { t with strTok := none }
  else
    let a := streamAddr m k t.strPos
    match s.memAccess b e a 0 0 with
    | (s, .value v) => s.streamPush b e v
    | (s, .waits) => s
    | (s, .spall cause) => s.spallRaise b e cause a 0 0 none t.read t.inv

/-- MEM_STREAM_READ (R76, R242): a streaming node takes its next start token, or reads its pattern on. -/
def execMemStreamRead (b elem : Nat) (s : State) : Out :=
  let x := s.bench b
  if !x.mayStep elem kMem || mbClass (x.mem elem) != 0 then .next s
  else
    let s := s.feed b elem
    let x := s.bench b
    let sch := ewSch (x.word elem)
    match (x.elem elem).strTok with
    | some k => .next (s.stream b elem k)
    | none =>
      match x.chan elem sch with
      | v :: _ => .next ((s.popChans b elem [sch]).updElem b elem fun t =>
          { t with strTok := some v.val.toNat, strPos := 0, markDue := false })
      | [] => .next s

/-! ## Random and ordered-update nodes (R77, R78, R242, R243) -/

/-- The channels of I1 and I2 that have arcs. -/
def Bench.sideChs (x : Bench) (e : Nat) : List Nat := [1, 2].filter fun c => imgFed x.img e c

/-- A mark at the head of I0 passes (R242). -/
def State.memMark (s : State) (b e : Nat) (v : Ent) : State :=
  let x := s.bench b
  let cs := x.sideChs e
  if cs.any fun c => (x.chan e c).isEmpty then s
  else if cs.any fun c => ((x.chan e c).headD default).tag != v.tag then s.kindFault b e spMarks v.val.toNat (0 :: cs)
  else if s.space b e 0 == 0 then s
  else (s.pushArc b e 0 ⟨0, v.tag, v.iter, v.inv⟩).popChans b e (0 :: cs)

/-- An access has completed: its value goes to O0 when the node returns one, its ordering entry to O3, and its inputs go (R158, R242,
R243). `value` is none for an access that was skipped. -/
def State.memFinish (s : State) (b e : Nat) (value : Option Word) : State :=
  let x := s.bench b
  let m := x.mem e
  let h := (x.chan e 0).headD default
  let s := match value with
    | some v => if mbDir m = 1 then s else s.pushArc b e 0 ⟨v, 0, h.iter, h.inv⟩
    | none => s
  (s.pushArc b e 3 ⟨0, 0, h.iter, h.inv⟩).popChans b e (operandChs m ++ (if x.chained e then [3] else []))

/-- Operands of the access at a node's heads: address, data or operand, new value. -/
def Bench.memArgs (x : Bench) (e : Nat) : Nat × Word × Word :=
  (mbBase (x.mem e) + ((x.chan e 0).headD default).val.toNat, ((x.chan e 1).headD default).val, ((x.chan e 2).headD default).val)

/-- Room for what an access pushes. -/
def State.memRoom (s : State) (b e : Nat) : Bool :=
  let m := (s.bench b).mem e
  (mbDir m == 1 || decide (s.space b e 0 > 0)) && decide (s.space b e 3 > 0)

/-- An access that its node's tokens demand, with the head v of I0. -/
def State.memDemand (s : State) (b e : Nat) (v : Ent) : State :=
  let x := s.bench b
  let m := x.mem e
  let cs := operandChs m
  if cs.any fun c => (x.chan e c).isEmpty then s
  else if cs.any fun c => ((x.chan e c).headD default).tag != 0 then s.kindFault b e spMarks v.val.toNat cs
  else if (x.chained e && (x.chan e 3).isEmpty) || !s.memRoom b e then s
  else
    let (a, p, q) := x.memArgs e
    match s.memAccess b e a p q with
    | (s, .value r) => s.memFinish b e (some r)
    | (s, .waits) => s
    | (s, .spall cause) => s.spallRaise b e cause a 0 0 none (tagIter x.retired v.iter) v.inv

/-- Does a node send its requests to the ordered retire unit (R252)? -/
def Bench.unitSends (x : Bench) (e : Nat) : Bool := x.g5 && mbDir (x.mem e) != 0

/-- A write or atomic node of a G5 bench sends its request to the ordered retire unit (R252), once its region and alignment hold. -/
def State.memSend (s : State) (b e : Nat) (v : Ent) : State :=
  let x := s.bench b
  let m := x.mem e
  let cs := operandChs m
  let n := (x.elem e).sends
  if cs.any fun c => (x.chan e c).isEmpty then s
  else if cs.any fun c => ((x.chan e c).headD default).tag != 0 then s.kindFault b e spMarks v.val.toNat cs
  else if x.retireQ.length ≥ 256 || !x.iterFits n then s
  else
    let (a, p, q) := x.memArgs e
    match s.memLoc b e a with
    | .spall cause => s.spallRaise b e cause a 0 0 none n v.inv
    | _ =>
      ((s.updBench b fun x => { x with retireQ := x.retireQ ++ [⟨n, e, a, p, q, v.inv⟩] }).popChans b e cs).updElem b e
        fun t => { t with sends := n + 1 }

/-- One step of a random or ordered-update node. -/
def State.memStep (s : State) (b e : Nat) : State :=
  let x := s.bench b
  match x.chan e 0 with
  | [] => s
  | v :: _ =>
    if v.tag != 0 then s.memMark b e v
    else if x.unitSends e then s.memSend b e v
    else s.memDemand b e v

/-- MEM_RANDOM_ACCESS (R77, R242). -/
def execMemRandomAccess (b elem : Nat) (s : State) : Out :=
  let x := s.bench b
  if !x.mayStep elem kMem || mbClass (x.mem elem) != 1 then .next s else .next ((s.feed b elem).memStep b elem)

/-- MEM_ORDERED_UPDATE (R78, R242). -/
def execMemOrderedUpdate (b elem : Nat) (s : State) : Out :=
  let x := s.bench b
  if !x.mayStep elem kMem || mbClass (x.mem elem) != 2 then .next s else .next ((s.feed b elem).memStep b elem)

/-! ## The ordered retire unit (R252) -/

/-- The bench begins to abort with a token (R251). -/
def State.beginAbort (s : State) (b : Nat) (t : SpallTok) : State :=
  s.updBench b fun x => { x with st := .aborting, abortTok := some t }

/-- May a request of iteration i perform: every exit node has delivered its i-th, and its node's ordering entry is there? -/
def Bench.mayRetire (x : Bench) (q : RetReq) : Bool :=
  q.iter == x.retired && x.exits.all (fun e => decide ((x.elem e).sends > x.retired)) &&
  !(x.elem q.elem).held && (!x.chained q.elem || !(x.chan q.elem 3).isEmpty)

/-- A request of the unit performs at its home. -/
def State.retireReq (s : State) (b : Nat) (q : RetReq) : State :=
  let x := s.bench b
  let m := x.mem q.elem
  if !s.memRoom b q.elem then s
  else
    match s.memAccess b q.elem q.addr q.x q.y with
    | (s, .value v) =>
      let it := BitVec.ofNat 6 q.iter
      let s := if mbDir m = 1 then s else s.pushArc b q.elem 0 ⟨v, 0, it, q.inv⟩
      ((s.pushArc b q.elem 3 ⟨0, 0, it, q.inv⟩).popChans b q.elem (if x.chained q.elem then [3] else [])).updBench b fun x =>
        { x with retireQ := x.retireQ.filter (· != q) }
    | (s, .waits) => s
    | (s, .spall cause) => s.spallRaise b q.elem cause q.addr 0 0 none q.iter q.inv

/-- The unit's next act: a request of its oldest iteration, or that iteration's retirement when none is left. -/
def State.retireNext (s : State) (b : Nat) : State :=
  let x := s.bench b
  match x.retireQ.find? x.mayRetire with
  | some q => s.retireReq b q
  | none =>
    if !x.exits.isEmpty && x.exits.all (fun e => decide ((x.elem e).sends > x.retired)) &&
        !x.retireQ.any (fun q => q.iter == x.retired) then
      s.updBench b fun x => { x with retired := x.retired + 1 }
    else s

/-- ORDERED_RETIRE (R252): the requests of the oldest iteration perform one by one; the iteration retires when none is left; at a faulting
iteration the bench aborts with that iteration as ADDR, and the rest is discarded. -/
def execOrderedRetire (b : Nat) (s : State) : Out :=
  let x := s.bench b
  if !x.serves || !x.g5 then .next s
  else
    match x.g5Fault with
    | some i =>
      if x.retired ≥ i || x.exits.isEmpty then
        let t := x.abortTok.getD default
        let bits := (t.bits &&& ((1#128 <<< 64) - 1)) ||| BitVec.ofNat 128 (i % 2 ^ 32 * 2 ^ 64)
        .next ((s.beginAbort b { t with bits := bits }).updBench b fun x => { x with retireQ := [] })
      else .next (s.retireNext b)
    | none => .next (s.retireNext b)

end Sys2Proof.Machine
end

