-- ==== Sys2Proof/Machine/BenchRun.lean ====
section
/-!
DEFINITION. Sys2Proof/Machine/BenchRun.lean: a bench from its entry to its completion record (R227–R230, R245–R255, R398, R399): start,
injection, the spall net, retirement, abort, drain and resumption.
-/
namespace Sys2Proof.Machine

/-! ## Completion records (R248) -/

def bsOk : Nat := 0
def bsStopped : Nat := 1
def bsFault : Nat := 2
def bsReject : Nat := 3
def bsNoplace : Nat := 4
def bsMapfail : Nat := 5

/-- A completion record; for FAULT it names what the token names. -/
def benchRecord (status : Nat) (tok : BitVec 128) (done : Nat) : BitVec 128 :=
  BitVec.ofNat 128 (bitsOf tok 64 64 * 2 ^ 64 + status * 2 ^ 56 + bitsOf tok 40 8 * 2 ^ 48 + bitsOf tok 37 3 * 2 ^ 45 +
    bitsOf tok 33 4 * 2 ^ 41 + bitsOf tok 30 3 * 2 ^ 38 + done % 2 ^ 32)

/-- The five operands that the group's crews agree on (R227). -/
def Bench.ops (x : Bench) : List DWord := (x.entries.headD default).ops
/-- Invocation count. -/
def Bench.count (x : Bench) : Nat := (x.ops.getD 1 0).toNat
/-- Completion target. -/
def Bench.target (x : Bench) : DWord := x.ops.getD 3 0
/-- NOTRAP. -/
def Bench.notrap (x : Bench) : Bool := (x.ops.getD 4 0).getLsbD 0

/-- The bench is over and its record written: its columns are free, its crews go on with what they find in memory, and after a FAULT
without NOTRAP each traps BENCH_FAULT at its next sett (R229, R248, R251, R162). -/
def State.endBench (s : State) (b : Nat) : State :=
  let x := s.bench b
  let fin := x.fin.getD 0
  let s := { s with benches := s.benches.drop b }.dropL1 x.core
  if bitsOf fin 56 8 = bsFault && !x.notrap then
    x.entries.foldl (fun s e => s.updCrew e.crew fun c => { c with
      pendTrap := some (cBenchFault, BitVec.ofNat 64 (bitsOf fin 64 64)) }) s
  else s

/-- The completion record is written from the crews' core as a release at RSCOPE (R162, R248): one wider than .core waits for what the core has sent (R155). It is
written at the level of the group (R227, R506); a write that fails parks (R32). -/
def State.writeRecord (s : State) (b : Nat) (fin : BitVec 128) : State :=
  let s := s.updBench b fun x => { x with fin := some fin, core := if x.st == .none then (s.crew (x.entries.headD default).crew).core else x.core }
  let x := s.bench b
  let k := (x.entries.headD default).crew
  let s := if imgWide x.img then s.releaseCore x.core else s
  if imgWide x.img && s.coreBusy x.core then s
  else match s.targetLoc x.part k x.gang x.core x.level x.target with
  | .ok l =>
    let bs := leBytes 16 fin.toNat
    if l.dev = s.dev then (s.perform (bytesAt l.pa bs)).endBench b
    else (s.updBench b fun x => { x with sent := true }).sendTo l.dev (.benchRecord b) fun q => .write s.dev q l.pa bs x.level x.part
  | .bad cause a =>
    let (s, ok) := s.parkReq (dieOf x.core) x.part unBench x.core k (.benchRecord b) cause a 0 true false
    if ok then s.updBench b fun x => { x with parked := true } else s

/-- A refused bench: its record is still to be written by BENCH_RETIRE. -/
def State.refuseBench (s : State) (b status : Nat) : State :=
  s.updBench b fun x => { x with fin := some (benchRecord status 0 0) }

/-! ## Entering (R227, R398) -/

/-- Must a crew be refused alone (R398): a flag other than NOTRAP, a count out of range, no image, a crew outside its group? -/
def State.enterRefused (s : State) (c : Crew) (ops : List DWord) : Bool :=
  let n := (ops.getD 1 0).toNat
  let img := (s.part c.part).images.get (bitsOf (ops.getD 0 0) 0 32)
  let first := bitsOf (ops.getD 2 0) 0 5
  ops.getD 4 0 &&& ~~~1 != 0 || decide (n < 1) || decide (n > 65536) || !img.present ||
  decide (c.idx < first) || decide (c.idx ≥ first + imgCrews img.bytes)

/-- The crew joins: it waits for its group, held until its bench is over. -/
def State.enterBench (s : State) (ops : List DWord) : State :=
  let c := s.me
  let b := s.nextBench
  let img := (s.part c.part).images.get (bitsOf (ops.getD 0 0) 0 32)
  let x : Bench := { (default : Bench) with
    live := true
    part := c.part
    gang := c.gang
    core := c.core
    first := bitsOf (ops.getD 2 0) 0 5
    entries := [⟨s.cur, ops, c.level⟩]
    level := c.level
    img := img.bytes
    fin := if s.enterRefused c ops then some (benchRecord bsReject 0 0) else none }
  ({ s with benches := s.benches.put b x, nextBench := b + 1 }.updMe fun c => { c with holds := c.holds ++ [Hold.bench b] }).land []

/-- BENCH.ENTER (R398): the target is checked while the sett executes; at commit what the core holds is sent (R162) and the crew joins. -/
def execBenchEnter (g : Guard) (sn : BitVec 6) (s : State) : Out :=
  .next (effSlot (fun s =>
    let c := s.me
    if c.guardMask g == 0 then s.keep [] []
    else
      let ops := (List.range 5).map fun i => c.sreg (sn.toNat + i)
      match targetBad (ops.getD 3 0) 16 false with
      | some (cause, a) => s.setMe (raiseExc c cause a 0)
      | none => s.keep [⟨c.sett.slot, 0, noLoc, ops⟩] [])
    (fun s => match s.me.caps with
      | [] => s.land []
      | p :: _ =>
        let s := s.releaseCore s.me.core
        if s.coreBusy s.me.core then s.stallMe stBench else s.enterBench p.args) s)

/-- The gang's bench whose group begins at c, once it has started. -/
def State.benchAt (s : State) (gang c : Nat) : Option Nat :=
  (s.benches.cells.find? fun e => e.2.live && e.2.st != .none && e.2.gang == gang && e.2.first == c).map (·.1)

/-- State codes (R253). -/
def benchCode : BenchSt → Nat
  | .none => 0
  | .running => 2
  | .frozen => 4
  | .draining => 5
  | .stopping => 6
  | .saved => 7
  | .aborting => 9

/-- BENCH.EXIT's effect and answer (R230, R399). -/
def State.exitBench (s : State) (gang c : Nat) : State × Nat :=
  match s.benchAt gang c with
  | none => (s, 1)
  | some b =>
    let x := s.bench b
    if x.st == .running then (s.updBench b fun x => { x with st := .draining, exiting := true }, 0)
    else if x.st == .frozen && x.prior == .running then (s.updBench b fun x => { x with prior := .draining, exiting := true }, 0)
    else (s, 2)

/-- BENCH.EXIT (R399). -/
def execBenchExit (o : Ops1) (s : State) : Out :=
  .next (effSlot (fun s =>
    let c := s.me
    if c.popTrap then s.setMe (raiseExc c cProtection 0 0)
    else if c.guardMask o.g == 0 then s.keep [] []
    else s.keep [⟨c.sett.slot, 0, noLoc, [(uni32 s c 0 o.a o.g).setWidth 64]⟩] [])
    (fun s => match s.me.caps with
      | [] => s.land []
      | p :: _ =>
        let (t, v) := s.exitBench s.me.gang (bitsOf (p.args.getD 0 0) 0 5)
        t.land (uniWrites t.me o.g o.d false (BitVec.ofNat 64 v))) s)

/-- BENCH.STATE (R399): read while the sett executes. -/
def execBenchState (o : Ops1) (s : State) : Out :=
  .next (valueSlot s o.g o.d false false fun c _ =>
    match s.benchAt c.gang (bitsOf (uni32 s c 0 o.a o.g) 0 5) with
    | some b => BitVec.ofNat 64 (benchCode (s.bench b).st)
    | none => 0)

/-! ## Starting (R228, R245, R246) -/

/-- A crew's own bench that waits for its group. -/
def State.waitingBench (s : State) (gang idx : Nat) : Option Nat :=
  (s.benches.cells.find? fun e => e.2.live && e.2.st == .none && e.2.fin.isNone && !e.2.region.present && e.2.gang == gang &&
    (s.crew (e.2.entries.headD default).crew).idx == idx).map (·.1)

/-- The waiting benches of a bench's group, when all have entered (R227). -/
def State.groupOf (s : State) (b : Nat) : Option (List Nat) :=
  let x := s.bench b
  (List.range (imgCrews x.img)).mapM fun i => s.waitingBench x.gang (x.first + i)

/-- Does a bench hold a column that a group would take (R245)? -/
def State.colsTaken (s : State) (b core : Nat) (quarters : List Nat) (off width : Nat) : Bool :=
  s.benches.cells.any fun e => e.1 != b && e.2.placed && e.2.core == core &&
    (e.2.entries.any fun n => quarters.contains (s.crew n.crew).quarter) &&
    decide (e.2.off < off + width) && decide (off < e.2.off + imgWidth e.2.img)

/-- The smallest free column offset (R245). -/
def State.freeOffset (s : State) (b : Nat) : Option Nat :=
  let x := s.bench b
  let qs := x.entries.map fun e => (s.crew e.crew).quarter
  let core := (s.crew (x.entries.headD default).crew).core
  [0, 4, 8, 12].find? fun o => decide (o + imgWidth x.img ≤ 16) && !s.colsTaken b core qs o (imgWidth x.img)

/-- An element at bench start (R224). -/
def startElem (w : DWord) : Elem :=
  { (default : Elem) with preds := ewPinit w, ch := if ewOseed w then ⟨[(3, [⟨0, 0, 0, 0⟩])]⟩ else Tbl.empty }

/-- The handle of a bench's image. -/
def Bench.handle (x : Bench) : Nat := bitsOf (x.ops.getD 0 0) 0 32

/-- A bench's region as a core holds it: its seal names the core (R93). -/
def State.sealRegion (s : State) (x : Bench) (core : Nat) (r : Region) : Region :=
  { r with sealTag := sealOf s.boot.kc r.digest 2 (dieOf core) core x.handle r.backing }

/-- The image is placed and injection starts; no free offset is NOPLACE (R245, R247). -/
def State.placeBench (s : State) (b : Nat) : State :=
  match s.freeOffset b with
  | none => s.refuseBench b bsNoplace
  | some o =>
    let core := (s.crew ((s.bench b).entries.headD default).crew).core
    s.updBench b fun x => { x with
      st := .running
      core := core
      region := s.sealRegion x core x.region
      off := o
      base := o
      elems := ⟨(imgElems x.img).map fun e => (e, startElem (elemWord x.img e))⟩ }

/-- Budgets of a group's crews. -/
def State.budgetOf (s : State) (x : Bench) (i : Nat) : Nat := (s.crew (x.entries.getD i default).crew).budget

/-- The routed form of a canonical image is placed; one that these crews' budgets cannot hold is rejected (R240): what the mapper makes of an image
depends on the image alone (R246). -/
def State.placeRouted (s : State) (b : Nat) (img : List Byte) : State :=
  if imageOk img (s.budgetOf (s.bench b)) then (s.updBench b fun x => { x with img := img }).placeBench b else s.refuseBench b bsReject

/-- The image is loaded, its digest and form are checked (R93, R228), and it is placed; a canonical image first goes to the mapper unless
the device has its routed form (R246). -/
def State.loadBench (s : State) (b : Nat) : State :=
  let x := s.bench b
  let d := sha3 (imgBody x.img)
  if d != imgDigest x.img || !imageOk x.img (s.budgetOf x) || (imgForm x.img == 2 && !Config.feat.getLsbD 6) then s.refuseBench b bsReject
  else
    let i := (s.part x.part).images.get x.handle
    let s := s.updBench b fun x => { x with region := { (default : Region) with
      present := true, digest := d, backing := i.backing, part := x.part, level := i.level, bytes := x.img } }
    if imgForm x.img = 1 then
      match s.mapCache.find? fun e => e.1 == sha3 x.img with
      | some (_, r) => s.placeRouted b r
      | none => s
    else s.placeBench b

/-- Have the crews of a group left their setts, and the other crews of their quarters any commit in progress? -/
def State.quartersRest (s : State) (crews : List Nat) : Bool :=
  crews.all fun k =>
    let c := s.crew k
    c.place == .resident && c.sett.phase == .idle &&
    (s.quarterCrews c.core c.quarter).all fun j => (s.crew j).sett.phase == .idle || (s.crew j).sett.phase == .exec

/-- Do crews lie in distinct quarters of one core (R228)? -/
def State.together (s : State) (crews : List Nat) : Bool :=
  let qs := crews.map fun k => (s.crew k).quarter
  qs.eraseDups.length == qs.length && crews.all fun k => (s.crew k).core == (s.crew (crews.headD 0)).core

/-- The crews of a group become one bench (R227, R228): their operands agree and they lie in distinct quarters of one core, or each is refused at
its own target. The level of the record is the group's (R506). -/
def State.startBench (s : State) (b : Nat) (group : List Nat) : State :=
  let entries := group.flatMap fun i => (s.bench i).entries
  let ops := (s.bench b).ops
  let level := entries.all (·.level)
  if entries.any (fun e => e.ops != ops) || !s.together (entries.map (·.crew)) then
    group.foldl (fun s i => (s.updBench i fun x => { x with level := level }).refuseBench i bsReject) s
  else
    let s := entries.foldl (fun s e => s.updCrew e.crew fun c => { c with holds := c.holds.map fun h => match h with
      | .bench i => if group.contains i then Hold.bench b else h
      | _ => h }) s
    let s := { s with benches := ⟨s.benches.cells.filter fun e => e.1 == b || !group.contains e.1⟩ }
    (s.updBench b fun x => { x with entries := entries, level := level }).loadBench b

/-- BENCH_START (R227, R228): the whole group has committed its BENCH.ENTER. -/
def execBenchStart (b : Nat) (s : State) : Out :=
  let x := s.bench b
  if !x.live || x.st != .none || x.fin.isSome || x.region.present then .next s
  else
    match s.groupOf b with
    | none => .next s
    | some group =>
      if s.quartersRest (group.flatMap fun i => (s.bench i).entries.map (·.crew)) then .next (s.startBench b group) else .next s

/-- What the mapper makes of a canonical image, when it is a routed image of the same crews (R246). -/
def mapped (img : List Byte) : Option (List Byte) :=
  match Config.mapImage img with
  | some r => if imageOk r (fun _ => 256) && imgForm r != 1 && imgCrews r == imgCrews img then some r else none
  | none => none

/-- The image that an element array runs: a canonical image goes through the mapper (R246). -/
def routedOf (img : List Byte) : Option (List Byte) := if imgForm img = 1 then mapped img else some img

/-- BENCH_MAP (R246): the mapper's routed image is kept with the canonical image's digest, 256 of them, and placed once the crews are together as at
the start (R228); an image it cannot fit is MAPFAIL. -/
def execBenchMap (b : Nat) (s : State) : Out :=
  let x := s.bench b
  let crews := x.entries.map (·.crew)
  if !x.live || x.st != .none || x.fin.isSome || !x.region.present || imgForm x.img != 1 || !s.quartersRest crews then .next s
  else
    match mapped x.img with
    | none => .next (s.refuseBench b bsMapfail)
    | some r =>
      let s := { s with mapCache := (s.mapCache ++ [(sha3 x.img, r)]).drop (s.mapCache.length + 1 - 256) }
      .next (if s.together crews then s.placeRouted b r else s.refuseBench b bsReject)

/-! ## Injection and completion (R247, R248) -/

/-- Has the token that is offered been taken by some source? -/
def Bench.partly (x : Bench) : Bool := x.sources.any fun e => (x.elem e).took > x.injected
/-- Invocations completed: the fewest DONEs a sink has counted. -/
def Bench.completed (x : Bench) : Nat :=
  leastOf (((imgElems x.img).filter fun e => ewSink (x.word e)).map fun e => (x.elem e).dones)
/-- Has every memory request performed? -/
def Bench.settled (x : Bench) : Bool := x.elems.vals.all (fun t => !t.asked && !t.parked) && x.retireQ.isEmpty
/-- Is no multi-beat firing in progress, but for faulted elements? -/
def Bench.still (x : Bench) : Bool := x.elems.vals.all fun t => t.firing.isNone || t.faulted

/-- START_TOKEN_TAKE (R247): the injector places the offered token in a source's channel; a drain completes a token partly placed. -/
def execStartTokenTake (b elem : Nat) (s : State) : Out :=
  let x := s.bench b
  let k := x.injected
  let w := x.word elem
  if x.live && (x.st == .running || (x.st == .draining && x.partly)) && x.sources.contains elem && (x.elem elem).took == k &&
      decide (k < x.count) && decide ((x.chan elem (ewSch w)).length < queueCap) &&
      (ewKind w == kMem || x.iterFits k) then
    .next (s.updElem b elem fun t => { t with
      took := t.took + 1
      ch := t.ch.upd (ewSch w) fun l => l ++ [⟨BitVec.ofNat 32 k, 0, BitVec.ofNat 6 k, k⟩] })
  else .next s

/-! ## The spall net (R249, R250) -/

/-- The HND element. -/
def Bench.handler (x : Bench) : Option Nat := (imgElems x.img).find? fun e => ewHnd (x.word e)

/-- SPALL_FAULT_SEND (R249): a faulting element sends its token when the net has room; without a handler the bench aborts (R250). -/
def execSpallFaultSend (b elem : Nat) (s : State) : Out :=
  let x := s.bench b
  match (x.elem elem).sendTok with
  | none => .next s
  | some t =>
    if !x.serves then .next s
    else
      let gone := s.updElem b elem fun t => { t with sendTok := none }
      if x.handler.isNone then .next (gone.beginAbort b t)
      else if x.spall.length < 16 then .next (gone.updBench b fun x => { x with spall := x.spall ++ [t] })
      else .next s

/-- SPALL_DELIVER (R250): the next 32 bits of the first token reach the handler's I0. -/
def execSpallDeliver (b : Nat) (s : State) : Out :=
  let x := s.bench b
  match x.spall, x.handler with
  | t :: r, some h =>
    if !x.serves || (x.chan h 0).length ≥ queueCap then .next s
    else
      let v : Word := BitVec.ofNat 32 (bitsOf t.bits (32 * x.given) 32)
      let s := s.updElem b h fun u => { u with ch := u.ch.upd 0 fun l => l ++ [⟨v, 0, 0, bitsOf t.bits 48 16⟩] }
      .next (s.updBench b fun x =>
        if x.given = 3 then { x with spall := r, given := 0, awaiting := x.awaiting ++ [t] } else { x with given := x.given + 1 })
  | _, _ => .next s

/-- Outputs that the answer to a fault may push to. -/
def Bench.answerOuts (x : Bench) (t : SpallTok) : List Nat :=
  let e := t.elem
  if t.pops.isSome then []
  else if ewKind (x.word e) = kPlain then (List.range 4).filter (imgRule x.img e ((x.elem e).firing.getD (0, 0)).1).out
  else if mbClass (x.mem e) = 0 then [0]
  else [0, 3]

/-- A fault is answered: repaired with a value, or skipped (R250). -/
def State.answerFault (s : State) (b : Nat) (t : SpallTok) (rep : Option Word) : State :=
  let e := t.elem
  let s := s.updElem b e fun t => { t with faulted := false }
  let x := s.bench b
  match t.pops with
  | some cs => s.popChans b e cs
  | none =>
    if ewKind (x.word e) = kPlain then
      match (x.elem e).firing with
      | none => s
      | some (i, beat) =>
        match rep with
        | some v => (s.ruleDst b e i v).endBeat b e i beat (imgRule x.img e i).out (some v)
        | none => s.endBeat b e i beat (fun _ => false) none
    else if mbClass (x.mem e) = 0 then
      match rep with
      | some v => s.streamPush b e v
      | none => s.streamStep b e
    else s.memFinish b e rep

/-- SPALL_REPLY (R250): the oldest reply answers the oldest delivered fault; REPAIR waits for its value entry. -/
def execSpallReply (b : Nat) (s : State) : Out :=
  let x := s.bench b
  match x.awaiting, x.replies with
  | t :: r, c :: cs =>
    if !x.serves || (x.answerOuts t).any fun o => s.space b t.elem o == 0 then .next s
    else
      match bitsOf c 30 2, cs with
      | 0, v :: vs => .next ((s.updBench b fun x => { x with awaiting := r, replies := vs }).answerFault b t
          (if t.pops.isSome then none else some v))
      | 0, [] => .next s
      | 1, _ => .next ((s.updBench b fun x => { x with awaiting := r, replies := cs }).answerFault b t none)
      | _, _ => .next ((s.updBench b fun x => { x with awaiting := r, replies := cs }).beginAbort b t)
  | _, _ => .next s

/-! ## Ending (R248, R251) -/

/-- BENCH_RETIRE (R248): the last invocation is complete and every request has performed, or a record is due and its crews are on their core. -/
def execBenchRetire (b : Nat) (s : State) : Out :=
  let x := s.bench b
  if !x.live || x.parked || x.sent then .next s
  else
    match x.fin with
    | some f => if x.entries.all fun e => (s.crew e.crew).place == .resident then .next (s.writeRecord b f) else .next s
    | none =>
      if x.st == .running && decide (x.completed ≥ x.count) && x.settled then
        .next (s.writeRecord b (benchRecord bsOk 0 x.completed))
      else .next s

/-- BENCH_ABORT (R251): beats in progress and requests are over, and FAULT is written. -/
def execBenchAbort (b : Nat) (s : State) : Out :=
  let x := s.bench b
  if x.live && x.st == .aborting && x.fin.isNone && x.still && x.settled then
    .next (s.writeRecord b (benchRecord bsFault (x.abortTok.getD default).bits x.completed))
  else .next s

/-! ## Drain, save, resume (R253–R255) -/

/-- Pre-emption of a bench (R253, R95): it drains; a failed region's bench is saved as it stands. -/
def State.drainBench (s : State) (b : Nat) : State :=
  let x := s.bench b
  if x.st == .running then s.updBench b fun x => { x with st := .draining, preempted := true }
  else if x.st == .draining then s.updBench b fun x => { x with preempted := true }
  else if x.st == .frozen && x.region.failed then s.updBench b fun x => { x with st := .saved }
  else if x.st == .frozen && (x.prior == .running || x.prior == .draining) then
    s.updBench b fun x => { x with prior := .draining, preempted := true }
  else s

/-- Does an input channel hold ordering entries (R243)? -/
def Bench.ordering (x : Bench) (e c : Nat) : Bool :=
  (isOrdered x.img e && c == 3) ||
  (imgArcs x.img).any fun p => arcOrd p.2.2 && arcKind p.2.2 == 0 && arcElem x.img p.2.2 == e && arcCh p.2.2 == c

/-- The elements of a bench that has drained cleanly: no channel holds anything, but for the ordering entries that the context's ordering counts
keep (R254). -/
def Bench.cleared (x : Bench) : Tbl Elem :=
  ⟨x.elems.cells.map fun p => (p.1, { p.2 with ch := ⟨p.2.ch.cells.filter fun c => x.ordering p.1 c.1⟩ })⟩

/-- BENCH_DRAIN_COMPLETE (R253): every injected invocation is complete; the bench is saved, or stops. -/
def execBenchDrainComplete (b : Nat) (s : State) : Out :=
  let x := s.bench b
  if x.live && x.st == .draining && x.fin.isNone && !x.partly && decide (x.completed ≥ x.injected) && x.settled then
    if x.preempted then .next (s.updBench b fun x => { x with st := .saved, elems := x.cleared })
    else .next (s.writeRecord b (benchRecord bsStopped 0 x.completed))
  else .next s

/-- BENCH_DRAIN_TIMEOUT (R253): 65,536 cycles have passed without an invocation completing. -/
def execBenchDrainTimeout (b : Nat) (s : State) : Out :=
  let x := s.bench b
  if x.live && x.st == .draining && x.preempted && x.fin.isNone then .next (s.updBench b fun x => { x with st := .stopping }) else .next s

/-- BENCH_STOPPING_COMPLETE (R254): every multi-beat firing is done and every unparked request has performed. -/
def execBenchStoppingComplete (b : Nat) (s : State) : Out :=
  let x := s.bench b
  if x.live && x.st == .stopping && x.still && x.elems.vals.all (fun t => !t.asked) then
    .next (s.updBench b fun x => { x with st := .saved })
  else .next s

/-- The state a saved bench goes on to: it aborts, when it was frozen in ABORTING (R95, R253); otherwise it drains for its exit, or runs. -/
def Bench.goesOn (x : Bench) : BenchSt := if x.prior == .aborting then .aborting else if x.exiting then .draining else .running

/-- The image installed under the handle that a bench was loaded from. -/
def State.imageOf (s : State) (x : Bench) : Image := (s.part x.part).images.get x.handle

/-- The image that a saved bench is restored from (R254): the one under its handle; when another has replaced that, the one it loaded (R420). -/
def State.restoredImage (s : State) (x : Bench) : List Byte :=
  let i := s.imageOf x
  if i.present && imgDigest i.bytes == x.region.digest then i.bytes else x.region.bytes

/-- A saved bench is restored on its crews' core at an offset: with its image, whose digest is checked again (R93, R254), or frozen, when its region
has failed or fails now (R95, R445). -/
def State.restoreBench (s : State) (b core off : Nat) : State :=
  let x := s.bench b
  let img := s.restoredImage x
  let back := fun (st : BenchSt) => s.updBench b fun x => { x with
    st := st
    prior := x.goesOn
    off := off
    core := core
    preempted := false
    img := if img == x.region.bytes then x.img else (routedOf img).getD x.img
    region := s.sealRegion x core { x.region with bytes := img } }
  if x.region.failed then back .frozen
  else if sha3 (imgBody img) == x.region.digest then back x.goesOn
  else if !s.recRoom (dieOf core) 1 then s
  else
    ((back .frozen).updBench b fun x => { x with region := { x.region with frozen := true, failed := true } }).emit (dieOf core) x.part
      (faultRec cConfigEcc fgBench x.part (dieOf core) core unLoader noCtx 0xFFFF 2 0)

/-- BENCH_RESUME (R255): no patch of its image is under way (R421), the group's crews stand together on one core again and an offset is free. -/
def execBenchResume (b : Nat) (s : State) : Out :=
  let x := s.bench b
  let crews := x.entries.map (·.crew)
  if !x.live || x.st != .saved || (s.imageOf x).patched.isSome || !s.quartersRest crews || !s.together crews ||
      crews.any (fun k => (s.crew k).preempt) then .next s
  else
    match s.freeOffset b with
    | none => .next s
    | some o => .next (s.restoreBench b (s.crew (crews.headD 0)).core o)

end Sys2Proof.Machine
end

