-- ==== Sys2Proof/Machine/Rings.lean ====
section
/-!
DEFINITION. Sys2Proof/Machine/Rings.lean: moded yard regions and operand buffers (R64–R74): where their buffers lie, which is filled and
which read next, and who waits.
-/
namespace Sys2Proof.Machine

/-! ## Mode words (R64, R65) -/

def mwMode (m : DWord) : Nat := bitsOf m 62 2
def mwCnt (m : DWord) : Nat := bitsOf m 58 4
def mwLines (m : DWord) : Nat := bitsOf m 48 10
def mwUnit (m : DWord) : Nat := bitsOf m 32 16
def mwSize (m : DWord) : Nat := bitsOf m 16 16
def mwBase (m : DWord) : Nat := bitsOf m 0 15

/-- One mode word's own conditions (R64, R65). -/
def modeOk (m : DWord) : Bool :=
  !m.getLsbD 15 && decide (mwBase m + mwSize m ≤ 32768) &&
  (match mwMode m with
   | 0 => mwCnt m == 0 && mwLines m == 0 && mwUnit m == 0
   | 1 => decide (1 ≤ mwCnt m) && decide (mwCnt m ≤ 8) && mwLines m == 0 && decide (1 ≤ mwUnit m) && decide (mwUnit m ≤ 32768) &&
     mwSize m == mwCnt m * mwUnit m
   | 2 => mwCnt m == 0 && mwLines m == 0 && decide (1 ≤ mwUnit m) && decide (mwUnit m ≤ 32768) && mwSize m != 0 &&
     mwSize m % mwUnit m == 0
   | _ => mwCnt m == 0 && decide (1 ≤ mwLines m) && decide (1 ≤ mwUnit m) && decide (mwUnit m ≤ 32768) &&
     mwSize m == mwLines m * mwUnit m)

/-- Do two regions overlap, one of them not plain? -/
def modesClash (a b : DWord) : Bool :=
  !(mwMode a == 0 && mwMode b == 0) && mwSize a != 0 && mwSize b != 0 && decide (mwBase a < mwBase b + mwSize b) && decide (mwBase b < mwBase a + mwSize a)

/-- A valid set of mode words (R65). -/
def modesOk : List DWord → Bool
  | [] => true
  | m :: ms => modeOk m && (ms.all fun n => !modesClash m n) && modesOk ms

/-! ## Where a ring's buffers lie -/

/-- First byte, buffer size in bytes and number of buffers of a ring. -/
structure RingGeo where
  pa : Nat
  unit : Nat
  n : Nat
  deriving DecidableEq, Repr, Inhabited

/-- Entry k of a launch record's operand-buffer table (R71). -/
def obWord (lrec : BitVec 4096) (k : Nat) : DWord := lrec.extractLsb' (1024 + 64 * k) 64

/-- The geometry of a moded yard region: a tile store or a FIFO (R67). -/
def State.yardGeo (s : State) (y ag : Nat) : Option RingGeo :=
  let m := (s.yards.get y).modes.getD ag 0
  match mwMode m with
  | 1 => some ⟨yardAp y + mwBase m * 64, mwUnit m * 64, mwCnt m⟩
  | 2 => some ⟨yardAp y + mwBase m * 64, mwUnit m * 64, mwSize m / mwUnit m⟩
  | _ => none

/-- The geometry of a ring (R67, R71). -/
def State.ringGeo (s : State) (r : RingSel) : Option RingGeo :=
  match r with
  | .yard y ag => s.yardGeo y ag
  | .localOb g ob =>
    let w := s.gang g
    let e := obWord w.lrec ob
    if e.getLsbD 63 && !e.getLsbD 62 then
      some ⟨localAp w.core + w.localBase + bitsOf e 0 12 * 64, bitsOf e 32 16 * 64, bitsOf e 56 3 + 1⟩
    else none

/-- The ring an operand-buffer entry of a gang names (R72). -/
def State.obRing (s : State) (g ob : Nat) : Option RingSel :=
  let w := s.gang g
  let e := obWord w.lrec ob
  if !e.getLsbD 63 then none
  else if e.getLsbD 62 then some (.yard (dieOf w.core * 48 + bitsOf e 50 6) (bitsOf e 48 2))
  else some (.localOb g ob)

/-- Bytes of one buffer of an operand-buffer entry. -/
def State.obUnit (s : State) (g ob : Nat) : Option Nat :=
  match s.obRing g ob with
  | some r => (s.ringGeo r).map (·.unit)
  | none => none

/-- A ring's state. -/
def State.ring (s : State) (r : RingSel) : Ring :=
  match r with
  | .yard y ag => (s.yards.get y).regions.get ag
  | .localOb g ob => (s.gang g).obs.get ob

/-- Change a ring's state. -/
def State.updRing (s : State) (r : RingSel) (f : Ring → Ring) : State :=
  match r with
  | .yard y ag => { s with yards := s.yards.upd y fun y => { y with regions := y.regions.upd ag f } }
  | .localOb g ob => s.updGang g fun g => { g with obs := g.obs.upd ob f }

/-! ## Filling and reading (R67, R68, R72) -/

/-- The buffer at the fill index is empty. -/
def Ring.canFill (r : Ring) : Bool := !r.full.contains r.fill
/-- The buffer at the read index is full. -/
def Ring.canRead (r : Ring) : Bool := r.full.contains r.read

/-- The buffer at the fill index becomes full. -/
def Ring.setFull (r : Ring) (n span owner : Nat) : Ring :=
  { r with full := r.full ++ [r.fill], spans := r.spans.put r.fill span, owners := r.owners.put r.fill owner, fill := (r.fill + 1) % n }

/-- The buffer at the read index is released. -/
def Ring.setEmpty (r : Ring) (n : Nat) : Ring :=
  { r with full := r.full.filter (· != r.read), read := (r.read + 1) % n }

/-- Full buffers that an owner filled: u_b of R185. -/
def Ring.owned (r : Ring) (owner : Nat) : Nat := (r.full.filter fun i => r.owners.get i == owner).length

/-- Put a waiter at the end of a list it is not in. -/
def joinWait (l : List Nat) (k : Nat) : List Nat := if l.contains k then l else l ++ [k]

/-- A filler arrives at its ring. -/
def State.arriveFill (s : State) (r : RingSel) (k : Nat) : State := s.updRing r fun x => { x with fillers := joinWait x.fillers k }
/-- A consumer arrives at its ring. -/
def State.arriveRead (s : State) (r : RingSel) (k : Nat) : State := s.updRing r fun x => { x with consumers := joinWait x.consumers k }
/-- May filler k fill now: it is first, and there is room. -/
def State.mayFill (s : State) (r : RingSel) (k : Nat) : Bool :=
  let x := s.ring r
  x.fillers.head? == some k && x.canFill
/-- May consumer k read now? -/
def State.mayRead (s : State) (r : RingSel) (k : Nat) : Bool :=
  let x := s.ring r
  x.consumers.head? == some k && x.canRead
/-- The first filler is done: its buffer is full. -/
def State.endFill (s : State) (r : RingSel) (k span owner : Nat) : State :=
  match s.ringGeo r with
  | some g => s.updRing r fun x => { x.setFull g.n span owner with fillers := x.fillers.filter (· != k) }
  | none => s
/-- The first consumer is done: its buffer is empty again unless it is kept. -/
def State.endRead (s : State) (r : RingSel) (k : Nat) (keep : Bool) : State :=
  match s.ringGeo r with
  | some g => s.updRing r fun x =>
    let y := if keep then x else x.setEmpty g.n
    { y with consumers := x.consumers.filter (· != k) }
  | none => s

/-! ## Line buffers (R67) -/

/-- A line-buffer region's line n is appended once line n − LINES is released; it becomes age 0. -/
def Ring.appendLine (r : Ring) (lines : Nat) : Ring := if r.lines < r.oldest + lines then { r with lines := r.lines + 1 } else r
/-- The place of age a, byte b of a line buffer: none while the line is not written, or for an age at or above LINES. -/
def Ring.lineAt (r : Ring) (lines unit a b : Nat) : Option Nat :=
  if a < lines && r.lines > a then some ((r.lines - 1 - a) % lines * unit + b) else none
/-- The oldest unreleased line is released. -/
def Ring.releaseLine (r : Ring) : Ring := if r.oldest < r.lines then { r with oldest := r.oldest + 1 } else r

/-- A line-buffer region: its first byte, its line's bytes, its number of lines (R64, R67). -/
def State.lineGeo (s : State) (r : RingSel) : Option RingGeo :=
  match r with
  | .yard y ag =>
    let m := (s.yards.get y).modes.getD ag 0
    if mwMode m = 3 then some ⟨yardAp y + mwBase m * 64, mwUnit m * 64, mwLines m⟩ else none
  | .localOb _ _ => none

/-- The writing stream of a line buffer appends a line. No rule names a unit that writes such a region, so the line's bytes are open (log 92). -/
def State.fillLine (s : State) (r : RingSel) : State :=
  match s.lineGeo r with
  | some g =>
    let x := s.ring r
    if x.lines < x.oldest + g.n then
      let a := g.pa + x.lines % g.n * g.unit
      { s.updRing r fun x => x.appendLine g.n with mem := s.mem.freshen a g.unit s.free }.bumpFree
    else s
  | none => s

/-- The reading stream of a line buffer releases its oldest line. -/
def State.freeLine (s : State) (r : RingSel) : State := if (s.lineGeo r).isSome then s.updRing r Ring.releaseLine else s

/-- Waiter numbers: an operation's own fill or read; a multicast branch's fill; a carousel destination's. -/
def opWaiter (id : Nat) : Nat := id * 16
def branchWaiter (id b : Nat) : Nat := id * 16 + 1 + b
def carWaiter (die j : Nat) : Nat := 2 ^ 60 + die * 4 + j

end Sys2Proof.Machine
end

