-- ==== Sys2Proof/Machine/Copy.lean ====
section
/-!
DEFINITION. Sys2Proof/Machine/Copy.lean: the copy engine (R177–R186, R385–R387): plain, conditional and multicast copies, and templates.
-/
namespace Sys2Proof.Machine

/-! ## Acceptance checks (R177) -/

/-- What an engine finds of a record: its shape and table; a status; a fault or lines its table waits for. -/
inductive RecR where
  | ok (x : Shape) (tab : List Byte)
  | fail (status : Nat)
  | bad (cause : BitVec 8) (addr : DWord)
  | need (lines : List (Nat × Nat))
  deriving DecidableEq, Repr

/-- An operation's record, its table read at acceptance (R129, R130). A poisoned table ends the operation with POISON. -/
def State.engRecord (s : State) (o : EngineOp) (r : Rec256) : RecR :=
  let g := s.engTable o r
  match g.bad with
  | some (cause, a) => .bad cause a
  | none =>
    if !g.need.isEmpty then .need g.need
    else if g.poisoned then .fail ssPoison
    else
      let st := shapeStatus r g.table
      if st ≠ 0 then .fail (ssShape st) else .ok (shapeOf r g.table) g.table

/-- The bytes that a box touches, its blocks' scales with them. -/
def Shape.touched (x : Shape) (o : DWord) : List Nat := (List.range x.events).flatMap (x.eventBytes o)

/-- From the lowest to the highest byte of a list, the highest moved up by `more`. -/
def spanOf (more : Nat) : List Nat → Option (Nat × Nat)
  | [] => none
  | a :: as => some (as.foldl min a, as.foldl max a + more)

/-- The parts of a span that lie on different 64 KiB pages. -/
def pagesOf (p : Nat × Nat) : List (Nat × Nat) :=
  (List.range (p.2 / 65536 + 1 - p.1 / 65536)).map fun i =>
    (max p.1 ((p.1 / 65536 + i) * 65536), min p.2 ((p.1 / 65536 + i) * 65536 + 65535))

/-- Where a global span lies: device, first and last byte of each part that translates. -/
def State.physSpan (s : State) (o : EngineOp) (p : Nat × Nat) : List (Nat × Nat × Nat) :=
  (pagesOf p).filterMap fun q => match s.spaceLoc o.part o.crew o.gang o.core o.level true 0 0 .valid q.1 with
    | .ok x => some (x.dev, x.pa, x.pa + (q.2 - q.1))
    | .bad _ _ => none

/-- Do two closed ranges meet? -/
def meets (a b : Nat × Nat) : Bool := decide (a.1 ≤ b.2) && decide (b.1 ≤ a.2)

/-- Do the spans of two boxes intersect (R177, step 4)? -/
def State.spansMeet (s : State) (o : EngineOp) (space kvhA kvhB : Nat) (a b : Option (Nat × Nat)) : Bool :=
  match a, b with
  | some a, some b =>
    (meets a b && (space != 1 || kvhA == kvhB)) ||
    (space == 0 && (s.physSpan o a).any fun p => (s.physSpan o b).any fun q => p.1 == q.1 && meets p.2 q.2)
  | _, _ => false

/-- Does a box break its record's trap bounds policy? -/
def Shape.outside (x : Shape) (o : DWord) : Bool := x.bounds == 0 && !x.boxInside o

/-- Steps 2–4 of R177 over two records whose boxes move by `moreX` and `moreY` bytes in all: the status. -/
def State.checkPair (s : State) (o : EngineOp) (x y : Shape) (ox oy : DWord) (moreX moreY : Nat) : Nat :=
  if x.boxes ≠ y.boxes || x.etype ≠ y.etype then ssShape 5
  else if x.outside ox || y.outside oy then ssBounds
  else if x.space == y.space && s.spansMeet o x.space x.kvh y.kvh (spanOf moreX (x.touched ox)) (spanOf moreY (y.touched oy)) then
    ssOverlap
  else 0

/-- Acceptance of an operation with a source and a destination record, checked by `check` (R177). -/
def State.acceptBoxes (s : State) (id : Nat) (check : Shape → Shape → Nat) : State :=
  let o := s.eop id
  match s.engRecord o o.recS, s.engRecord o o.recD with
  | .bad cause a, _ | _, .bad cause a => s.parkOp id cause a 0 false
  | .need l, _ | _, .need l => s.askLines id l
  | .fail st, _ | _, .fail st => s.endPayload id st
  | .ok x tx, .ok y ty =>
    let st := check x y
    let s := s.updOp id fun o => { o with accepted := true, stage := .accepted, tabS := tx, tabD := ty }
    if st ≠ 0 then s.endPayload id st else s

/-- Acceptance of a copy: every element event is still to come. -/
def State.acceptCopy (s : State) (id : Nat) : State :=
  let o := s.eop id
  let s := s.acceptBoxes id fun x y => s.checkPair o x y o.orgS o.orgD 0 0
  s.updOp id fun o => if o.accepted then { o with left := List.range (shapeOf o.recS o.tabS).events } else o

/-! ## Element events (R177, R178) -/

/-- Writing a box of an operation: a fault parks, lines of other devices come first, and then every element performs. -/
def State.writeBox (s : State) (id : Nat) (y : Shape) (origin : DWord) (vals : List (Option Nat)) (done : State → State) : State :=
  let o := s.eop id
  let w := s.resolveBits o.got (s.engLoc o y .store) (y.scatter origin vals)
  match w.bad with
  | some (cause, a) => s.parkOp id cause a y.kvh true
  | none =>
    if !w.need.isEmpty then s.askLines id w.need
    else done ((s.engWrite (.op id) o.core o.part o.level w.bytes).engSeen o y true (y.touched origin))

/-- A request's page in its space, and whether it writes: what parks as one request of a copy (R178; log 86). -/
def reqKey (space : Nat) (write : Bool) (a : Nat) : Nat := (lostPage space a * 8 + space) * 2 + (if write then 1 else 0)

/-- The requests of element event q of a copy, its source's (unless the engine holds the source) and its destination's. -/
def EngineOp.requests (o : EngineOp) (q : Nat) : List Nat :=
  let x := shapeOf o.recS o.tabS
  let y := shapeOf o.recD o.tabD
  (if o.branches.isEmpty then (x.eventBytes o.orgS q).map (reqKey x.space false) else []) ++ (y.eventBytes o.orgD q).map (reqKey y.space true)

/-- A copy's request to one page parks; the elements that need it wait behind it, the others go on (R178). Nothing while the fault queue has
no room. -/
def State.parkPage (s : State) (id : Nat) (x : Shape) (cause : BitVec 8) (addr : DWord) (write : Bool) : Option State :=
  let o := s.eop id
  let key := reqKey x.space write addr.toNat
  let (s, ok) := s.parkReq (dieOf o.core) o.part (opUnit o.kind) o.core o.crew (.page id key) cause addr (if cause == cKvMiss then x.kvh else 0)
    write false
  if ok then some (s.updOp id fun o => { o with held := key :: o.held }) else none

/-- Lines that an element event waits for are asked of other devices: nothing when they are on their way. -/
def State.askOnce (s : State) (id : Nat) (need : List (Nat × Nat)) : Option State :=
  if need.all (s.lineAsked (.op id)) then none else some (s.askLines id need)

/-- The source of element event q: read at its home, or from the tile that the engine holds (R179). -/
def State.copySource (s : State) (o : EngineOp) (q : Nat) : ElemR :=
  let x := shapeOf o.recS o.tabS
  match o.branches with
  | [] => s.eventRead o.got x (s.engLoc o x .load) o.orgS q
  | b :: _ =>
    if (b.stagedBad.headD []).contains q then .poison
    else if q < x.count then .val (leNat ((b.staged.headD []).take x.boxBytes) / 2 ^ (q * x.w) % 2 ^ x.w)
    else .val ((b.staged.headD []).getD (x.boxBytes + (q - x.count)) 0).toNat

/-- Element event q of a copy: a read of its source and a write of its destination (R177). A poisoned source leaves its destination unwritten and
the status POISON behind (R178). Nothing when it can get no further now. -/
def State.copyElem (s : State) (id q : Nat) : Option State :=
  let o := s.eop id
  let x := shapeOf o.recS o.tabS
  let y := shapeOf o.recD o.tabD
  match s.copySource o q with
  | .bad cause a => s.parkPage id x cause a false
  | .need dev line => s.askOnce id [(dev, line)]
  | .poison => some (s.updOp id fun o => { o with left := o.left.erase q, status := ssPoison })
  | .val v =>
    let w := s.resolveBits o.got (s.engLoc o y .store) (y.scatterOne o.orgD [] q v)
    match w.bad with
    | some (cause, a) => s.parkPage id y cause a true
    | none =>
      if !w.need.isEmpty then s.askOnce id w.need
      else
        let s := (s.engSeen o x false (if o.branches.isEmpty then x.eventBytes o.orgS q else [])).engSeen o y true (y.eventBytes o.orgD q)
        some ((s.engWrite (.op id) o.core o.part o.level w.bytes).updOp id fun o => { o with
          left := o.left.erase q
          got := w.bytes.foldl (fun ls b => patchLines ls b.1 [b.2]) o.got })

/-- The next element event of a copy that gets further; those behind a parked request wait (R178). -/
def State.copyStep (s : State) (id : Nat) : Option State :=
  let o := s.eop id
  o.left.findSome? fun q => if (o.requests q).any o.held.contains then none else s.copyElem id q

/-- A copy's element events, one at a time, in an order of the model's own (R167). -/
def State.copyPayload (s : State) (id : Nat) : State :=
  let o := s.eop id
  if o.left.isEmpty then s.endPayload id o.status else (s.copyStep id).getD s

/-- A parked request of a copy goes again (R34): the first element that needs it performs, or parks again. -/
def State.rerunPage (s : State) (id key : Nat) : State :=
  let s := s.updOp id fun o => { o with held := o.held.filter (· != key) }
  let o := s.eop id
  if !o.live || (o.stage != .accepted && o.stage != .started) then s
  else
    match o.left.find? fun q => (o.requests q).contains key && !(o.requests q).any o.held.contains with
    | some q => (s.copyElem id q).getD s
    | none => s

/-- The operation of a copy's operand block (R371, R385). -/
def copyOp (k : OpKind) (ds dd : BitVec 4) (n : Nat) (s : State) : EngineOp :=
  let c := s.me
  { (default : EngineOp) with
    kind := k
    recS := c.drec ds.toNat
    recD := c.drec dd.toNat
    orgS := c.sreg n
    orgD := c.sreg (n + 1)
    stamp := c.sreg (n + 2)
    value := c.sreg (n + 3)
    ver := if k == .cond then c.sreg (n + 4) else tgNone
    expect := c.sreg (n + 5)
    next := c.sreg (n + 6) }

/-- COPY (R385). -/
def execCopy (g : Guard) (ds dd : BitVec 4) (sn : BitVec 6) (s : State) : Out :=
  .next (issueSlot g .copy (some .cp) (fun s => targetBad (s.me.sreg (sn.toNat + 2)) 8 true) (fun _ => [])
    (fun s _ => copyOp .copy ds dd sn.toNat s) s)

/-! ## Conditional copies (R179, R180, R385) -/

/-- The version target's check: SCOPE zero, no SPC 0b11 (R385). -/
def verBad (t : DWord) : Option (BitVec 8 × DWord) :=
  if bitsOf t 58 3 ≠ 0 then some (cProtection, BitVec.ofNat 64 (tgAddr t)) else targetBad t 8 false

/-- COPY.COND (R385). -/
def execCopyCond (g : Guard) (ds dd : BitVec 4) (sn : BitVec 6) (s : State) : Out :=
  .next (issueSlot g .copy (some .cp)
    (fun s => firstTarget [targetBad (s.me.sreg (sn.toNat + 2)) 8 true, verBad (s.me.sreg (sn.toNat + 4))]) (fun _ => [])
    (fun s _ => copyOp .cond ds dd sn.toNat s) s)

/-- A box's values packed as a tile: element q at bit q × w, then the scales (R379); and which of them are poisoned. -/
def packTile (x : Shape) (vals : List (Option Nat)) : List Byte × List Nat :=
  let n := ((List.range x.count).zip vals).foldl (fun a p => a + p.2.getD 0 * 2 ^ (p.1 * x.w)) 0
  (leBytes x.boxBytes n ++ (if x.mx then (vals.drop x.count).map fun v => BitVec.ofNat 8 (v.getD 0) else []),
   ((List.range vals.length).zip vals).filterMap fun p => if p.2.isNone then some p.1 else none)

/-- The values of a packed tile. -/
def unpackTile (x : Shape) (bs : List Byte) (bad : List Nat) : List (Option Nat) :=
  let n := leNat (bs.take x.boxBytes)
  ((List.range x.count).map fun q => if bad.contains q then none else some (n / 2 ^ (q * x.w) % 2 ^ x.w)) ++
  (if x.mx then (List.range (x.count / 16)).map fun b =>
    if bad.contains (x.count + b) then none else some (bs.getD (x.boxBytes + b) 0).toNat
   else [])

/-- The first of a version word's reservations has become another device's: it is told so (R180). -/
def State.grantNext (s : State) (pa : Nat) : State :=
  match s.reservations.find? fun r => r.1 == pa with
  | some (_, dev, seq) => if dev = s.dev then s else s.answerTo dev seq [] []
  | none => s

/-- A reservation request of a device reaches its home on this one: it waits behind earlier ones (R180). -/
def State.reserve (s : State) (pa dev n : Nat) : State :=
  let s' := { s with reservations := s.reservations ++ [(pa, dev, n)] }
  if s.reservations.any fun r => r.1 == pa then s' else s'.grantNext pa

/-- A reservation is given up at its home: the next one holds the word. -/
def State.unreserveAt (s : State) (pa dev n : Nat) : State :=
  let first := (s.reservations.find? fun r => r.1 == pa) == some (pa, dev, n)
  let s := { s with reservations := s.reservations.filter fun r => r != (pa, dev, n) }
  if first then s.grantNext pa else s

/-- The source box is read into the engine and the version word's reservation asked for at its home (R179, R180). -/
def State.condReserve (s : State) (id : Nat) : State :=
  let o := s.eop id
  let x := shapeOf o.recS o.tabS
  let g := s.gatherBox o.got x (s.engLoc o x .load) o.orgS
  match g.bad with
  | some (cause, a) => s.parkOp id cause a x.kvh false
  | none =>
    if !g.need.isEmpty then s.askLines id g.need
    else
      match s.targetLoc o.part o.crew o.gang o.core o.level o.ver with
      | .bad cause a => s.parkOp id cause a 0 true
      | .ok v =>
        let (bs, bad) := packTile x g.vals
        let s := (s.engSeen o x false (x.touched o.orgS)).updOp id fun o => { o with
          stage := .blocked, reserved := true, got := [], locs := [v], value := o.value, pos := s.nextSeq
          branches := [{ (default : Branch) with staged := [bs], stagedBad := [bad] }] }
        if v.dev = s.dev then s.reserve v.pa s.dev id
        else s.sendTo v.dev (.op id) fun q => .reserve s.dev q v.pa o.part

/-- An operation's reservation is given up: at another device by a request of its own. -/
def State.unreserve (s : State) (id : Nat) : State :=
  let o := s.eop id
  if !o.reserved then s
  else
    let v := o.locs.headD default
    let s := s.updOp id fun o => { o with reserved := false }
    if v.dev = s.dev then s.unreserveAt v.pa s.dev id
    else s.sendTo v.dev (.op id) fun q => .unreserve s.dev q v.pa o.pos o.part

/-- Does an operation hold its version word: its reservation is the first for its word, or the home has answered? -/
def State.reservedFirst (s : State) (id : Nat) : Bool :=
  match (s.eop id).locs with
  | v :: _ =>
    if v.dev = s.dev then (s.reservations.find? fun r => r.1 == v.pa) == some (v.pa, s.dev, id) else !s.opWaits id
  | [] => false

/-- With the reservation held: compare, once; then the box is written, or the copy fails (R179). -/
def State.condCompare (s : State) (id : Nat) : State :=
  let o := s.eop id
  let v := o.locs.headD default
  match s.readAddrs o.got (fun a => .ok { v with addr := a, pa := v.pa + (a - v.addr) }) ((List.range 8).map (v.addr + ·)) with
  | .need dev line => s.askLines id [(dev, line)]
  | .poison => (s.unreserve id).endPayload id ssPoison
  | .bad cause a => s.parkOp id cause a 0 false
  | .val w =>
    if w ≠ o.expect.toNat then (s.unreserve id).endPayload id ssCondFail else s.updOp id fun o => { o with stage := .started }

/-- The box performs, element by element; then next is written, and the reservation given up; a box with poisoned elements leaves the version
word (R179, R178). -/
def State.condFinish (s : State) (id : Nat) : State :=
  let o := s.eop id
  let v := o.locs.headD default
  if !o.left.isEmpty then (s.copyStep id).getD s
  else if s.opWaits id then s
  else if o.status ≠ 0 then (s.unreserve id).endPayload id o.status
  else
    ((s.engWrite (.op id) o.core o.part o.level ((bytesAt v.pa (leBytes 8 o.next.toNat)).map fun b => (v.dev, b))).unreserve id).endPayload id 0

/-- What a conditional copy does next. -/
def State.condStep (s : State) (id : Nat) : State :=
  let o := s.eop id
  match o.stage with
  | .accepted => s.condReserve id
  | .blocked => if s.reservedFirst id then s.condCompare id else s
  | .started => s.condFinish id
  | _ => s

/-- COND_COPY_RESERVE (R180). -/
def execCondCopyReserve (op : Nat) (s : State) : Out :=
  let o := s.eop op
  if o.live && o.kind == .cond then .next (s.condStep op) else .next s

/-! ## Templates (R181–R183, R386) -/

/-- A queue feeds the QIN element of a running bench of the core. -/
def State.qinQueue (s : State) (core q : Nat) : Bool :=
  s.benches.vals.any fun b => b.live && b.core == core && b.st == .running && imgTakes b.img q

/-- COPY.ARM's status (R386). -/
def State.armStatus (s : State) (core gang slot q : Nat) : Nat :=
  let ts := (s.core core).templates
  if (ts.get slot).armed && (ts.get slot).gang != gang then 1
  else if (ts.vals.any fun t => t.armed && t.queue == q && t.gang != gang) || s.qinQueue core q then 2
  else 0

/-- The slot is filled; any other slot of the gang bound to the queue is disarmed (R386). -/
def State.arm (s : State) (core slot : Nat) (t : Template) : State :=
  s.updCore core fun q => { q with
    templates := (q.templates.mapVals fun u => if u.armed && u.gang == t.gang && u.queue == t.queue then { u with armed := false } else u).put
      slot t }

/-- COPY.ARM at commit. -/
def armAt (g : Guard) (ds dd : BitVec 4) (n : Nat) (e : Dst) (slot : Nat) (s : State) : State :=
  let c := s.me
  let w := c.sreg (n + 3)
  let q := bitsOf w 60 4
  let st := s.armStatus c.core c.gang slot q
  let s' := if st = 0 then
      s.arm c.core slot ⟨true, c.gang, s.cur, c.level, c.drec ds.toNat, c.drec dd.toNat, c.sreg n, c.sreg (n + 1), c.sreg (n + 2),
        bitsOf w 0 56, 0, 0, q⟩
    else s
  s'.land (uniWrites c g e false (BitVec.ofNat 64 st))

/-- COPY.ARM (R386). -/
def execCopyArm (g : Guard) (ds dd : BitVec 4) (sn : BitVec 6) (e : Dst) (slot : BitVec 4) (s : State) : Out :=
  .next (effSlot (fun s =>
    let c := s.me
    if c.guardMask g == 0 then s.keep [] []
    else
      match targetBad (c.sreg (sn.toNat + 2)) 8 false with
      | some (cause, a) => s.setMe (raiseExc c cause a 0)
      | none => s.keep [] [])
    (fun s => if s.me.guardMask g == 0 then s.land [] else armAt g ds dd sn.toNat e slot.toNat s) s)

/-- COPY.DISARM (R386). -/
def execCopyDisarm (g : Guard) (e : Dst) (slot : BitVec 4) (s : State) : Out :=
  .next (onceSlot g [] (fun s =>
    let c := s.me
    let t := (s.core c.core).templates.get slot.toNat
    let held := t.armed && t.gang != c.gang
    let s := if held then s else s.updCore c.core fun q => { q with
      templates := q.templates.upd slot.toNat fun t => { t with armed := false } }
    s.land (uniWrites c g e false (if held then 1 else 0))) s)

/-- Fired copies of a template slot that are not complete, in order. -/
def State.firedOpen (s : State) (core slot : Nat) : List Nat :=
  (s.ops.cells.filter fun e => e.2.live && e.2.kind == .fired && e.2.core == core && e.2.slot == slot).map (·.1)

/-- A record with its BASE moved up. -/
def moveBase (r : Rec256) (n : Nat) : Rec256 := BitVec.ofNat 256 (r.toNat / 2 ^ 56 * 2 ^ 56 + (r.toNat + n) % 2 ^ 56)

/-- TEMPLATE_FIRE (R181, R182): the bound queue's first token fires a copy, when fewer than 8 are outstanding and the engine's queue has
room. -/
def execTemplateFire (core slot : Nat) (s : State) : Out :=
  let t := (s.core core).templates.get slot
  let q := (s.core core).queues.get t.queue
  match q.entries with
  | (_, w) :: rest =>
    if t.armed && decide ((s.firedOpen core slot).length < 8) && decide ((s.queues.get (engKey core .copy)).length < engCap .copy) then
      let o : EngineOp := { (default : EngineOp) with
        kind := .fired, crew := t.crew, gang := t.gang, core := core, part := (s.gang t.gang).part, level := t.level, path := none
        recS := moveBase t.src (bitsOf w 0 32 * t.sstep.toNat)
        recD := moveBase t.dst (bitsOf w 32 32 * t.dstep.toNat)
        stamp := t.target
        value := BitVec.ofNat 64 ((t.base + t.fired + 1) % 2 ^ 56)
        slot := slot
        launch := (s.gang t.gang).launch }
      let s := s.updCore core fun c => { c with
        queues := c.queues.put t.queue { q with entries := rest }
        templates := c.templates.put slot { t with fired := t.fired + 1 } }
      .next (s.enqueueOp o)
    else .next s
  | [] => .next s

/-! ## Multicast copies (R184–R187, R387) -/

/-- A descriptor's address check while the sett executes (R387). -/
def descBad (a : DWord) : Option (BitVec 8 × DWord) :=
  if a.toNat ≥ 2 ^ 56 then some (cProtection, a) else if a.toNat % 64 ≠ 0 then some (cAlign, a) else none

/-- COPY.MC (R385). -/
def execCopyMc (g : Guard) (ds : BitVec 4) (a : Src) (s : State) : Out :=
  .next (issueSlot g .copy (some .cp) (fun s => descBad (uni64 s s.me 0 a g)) (fun s => [uni64 s s.me 0 a g])
    (fun s args => { (default : EngineOp) with kind := .mc, recS := s.me.drec ds.toNat, args := args, stamp := tgNone }) s)

/-- A descriptor entry's 64 bytes. -/
def State.descEntry (s : State) (o : EngineOp) (i : Nat) : ElemR :=
  s.readAddrs o.got (s.spaceLoc o.part o.crew o.gang o.core o.level false 0 0 .load)
    ((List.range 64).map fun j => (o.args.headD 0).toNat + 64 * i + j)

/-- A branch entry (R387). -/
def branchOf (v : Nat) : Branch :=
  { (default : Branch) with
    yd := fieldOf v 503 1 == 1
    window := fieldOf v 500 3 + 1
    slack := fieldOf v 497 3
    stamp := BitVec.ofNat 64 (fieldOf v 384 64)
    origin := BitVec.ofNat 64 (fieldOf v 320 64)
    dstep := BitVec.ofNat 64 (fieldOf v 256 64)
    shape := BitVec.ofNat 256 v }

/-- Reserved fields of the header set. -/
def headerReserved (v : Nat) : Bool := fieldOf v 192 320 != 0 || fieldOf v 19 45 != 0

/-- Reserved fields of a branch entry set, those that YD = 1 makes zero among them. -/
def branchReserved (v : Nat) : Bool :=
  let b := branchOf v
  fieldOf v 504 8 != 0 || fieldOf v 448 49 != 0 || (b.yd && (bitsOf b.origin 8 56 != 0 || b.dstep != 0 || b.shape != 0))

/-- The ring of a yard branch: granted to the gang, and a tile store or a FIFO (R184). -/
def State.branchRing (s : State) (o : EngineOp) (b : Branch) : Option (RingSel × RingGeo) :=
  let y := dieOf o.core * 48 + bitsOf b.origin 0 6
  let ag := bitsOf b.origin 6 2
  if (grantedYards (s.gang o.gang).lrec).contains y then (s.yardGeo y ag).map fun g => (.yard y ag, g) else none

/-- A branch that ends early keeps the status it ends with. -/
def Branch.stop (b : Branch) (status : Nat) : Branch := { b with status := status, ended := true }

/-- A branch has delivered its last tile or ended. -/
def Branch.isOver (b : Branch) (n : Nat) : Bool := b.ended || decide (b.delivered ≥ n)

/-- Branches that have ended wait for no room any more (R68, R185). -/
def State.leaveRings (s : State) (id : Nat) : State :=
  let o := s.eop id
  let gone := (List.range o.branches.length).filter fun i => (o.branches.getD i default).ended
  let leave := fun (r : Ring) => { r with fillers := r.fillers.filter fun k => !(gone.any fun i => branchWaiter id i == k) }
  if gone.isEmpty then s
  else { s with yards := s.yards.mapVals fun y => { y with regions := y.regions.mapVals leave } }

/-- Branches of an operation end with one status: those that are not over and that `who` names (R186). -/
def State.stopBranches (s : State) (id status : Nat) (who : Nat → Bool) : State :=
  let stopped := fun (o : EngineOp) (i : Nat) =>
    let b := o.branches.getD i default
    if who i && !(o.accepted && b.isOver o.n) then b.stop status else b
  (s.updOp id fun o => { o with branches := (List.range o.branches.length).map (stopped o) }).leaveRings id

/-- Every branch ends with one status before any data moves; one whose stamp target is refused writes no stamp (R184, R387, R166). -/
def State.failAll (s : State) (id status : Nat) : State :=
  (s.updOp id fun o => { o with accepted := true, stage := .accepted }).stopBranches id status fun _ => true

/-- The span of a branch's writes: its record's space, handle and range; a yard branch writes its region. -/
def State.branchSpan (s : State) (o : EngineOp) (b : Branch) (more : Nat) : Nat × Nat × Option (Nat × Nat) :=
  if b.yd then
    let y := dieOf o.core * 48 + bitsOf b.origin 0 6
    match s.yardGeo y (bitsOf b.origin 6 2) with
    | some g =>
      let a := dieOf o.core * 2 ^ 30 + bitsOf b.origin 0 6 * 2 ^ 24 + (g.pa - yardAp y)
      (3, 0, some (a, a + g.unit * g.n - 1))
    | none => (3, 0, none)
  else
    let y := shapeOf b.shape b.tab
    (y.space, y.kvh, spanOf more (y.touched b.origin))

/-- The checks of R177 for one branch; its record and table have been read. -/
def State.branchStatus (s : State) (o : EngineOp) (x : Shape) (b : Branch) (n sstep : Nat) : Nat :=
  if b.yd then
    if x.outside o.orgS then ssBounds
    else
      let (sp, kv, span) := s.branchSpan o b 0
      if x.space == sp && s.spansMeet o sp x.kvh kv (spanOf ((n - 1) * sstep) (x.touched o.orgS)) span then ssOverlap else 0
  else s.checkPair o x (shapeOf b.shape b.tab) o.orgS b.origin ((n - 1) * sstep) ((n - 1) * b.dstep.toNat)

/-- The destination record of branch i is read (R130): it is ready, ends with a status, parks, or waits for a line. -/
def State.readBranch (s : State) (id i : Nat) : State :=
  let o := s.eop id
  let b := o.branches.getD i default
  let upd := fun (s : State) (f : Branch → Branch) => s.updOp id fun o => { o with branches := o.branches.modify i f }
  if b.ready || b.ended || b.parked then s
  else if b.yd then upd s fun b => { b with ready := true }
  else
    match s.engRecord o b.shape with
    | .bad cause a =>
      let (s, ok) := s.parkReq (dieOf o.core) o.part unCopy o.core o.crew (.branch id i) cause a 0 false false
      if ok then upd s fun b => { b with parked := true } else s
    | .need l => s.askFor id (.branch id i) l
    | .fail st => upd s fun b => b.stop st
    | .ok _ t => upd s fun b => { b with tab := t, ready := true }

/-- The destination records are read; when every branch is ready or has ended, every pair is checked and the copy begins (R177, R184). -/
def State.mcBranches (s : State) (id : Nat) : State :=
  let s := (List.range (s.eop id).branches.length).foldl (fun s i => s.readBranch id i) s
  let o := s.eop id
  if o.branches.any fun b => !b.ready && !b.ended then s
  else
    let x := shapeOf o.recS o.tabS
    s.updOp id fun p => { p with
      accepted := true, stage := .accepted
      branches := p.branches.map fun b =>
        let st := s.branchStatus o x b o.n o.expect.toNat
        if b.ended || st = 0 then b else b.stop st }

/-- A multicast's form beyond its reserved fields (R184). -/
def State.mcFormOk (s : State) (o : EngineOp) (x : Shape) (bs : List Branch) : Bool :=
  (bs.all fun b => !b.yd || (match s.branchRing o b with
    | some (_, g) => g.unit == x.tileBytes
    | none => false)) &&
  decide ((bs.map fun b => (b.slack + 1) * x.tileBytes).sum ≤ 2 ^ 18)

/-- The descriptor of a multicast (R387): once it is read, the operation knows its branches and their stamps. -/
def State.readDesc (s : State) (id : Nat) : State :=
  let o := s.eop id
  let hd := gather [s.descEntry o 0]
  let h := (hd.vals.headD none).getD 0
  let es := gather ((List.range (fieldOf h 16 3 + 1)).map fun i => s.descEntry o (i + 1))
  match hd.bad.or (if hd.need.isEmpty then es.bad else none) with
  | some (cause, a) => s.parkOp id cause a 0 false
  | none =>
    if !hd.need.isEmpty then s.askLines id hd.need
    else if !es.need.isEmpty then s.askLines id es.need
    else
      let vs := es.vals.map fun v => v.getD 0
      let bs := vs.map fun v => { branchOf v with stamped := (targetBad (branchOf v).stamp 8 false).isSome }
      let s := s.updOp id fun o => { o with
        branches := bs, n := fieldOf h 0 16 + 1, orgS := BitVec.ofNat 64 (fieldOf h 128 64), expect := BitVec.ofNat 64 (fieldOf h 64 64) }
      if hd.poisoned || es.poisoned then s.failAll id ssPoison
      else if headerReserved h || vs.any branchReserved || bs.any (·.stamped) then s.failAll id ssMcForm
      else s

/-- The source record of a multicast and its form (R184); `tiles` = 1 says that they have passed. -/
def State.readSource (s : State) (id : Nat) : State :=
  let o := s.eop id
  match s.engRecord o o.recS with
  | .bad cause a => s.parkOp id cause a 0 false
  | .need l => s.askLines id l
  | .fail st => s.failAll id st
  | .ok x tab =>
    if s.mcFormOk o x o.branches then s.updOp id fun o => { o with tabS := tab, tiles := 1 } else s.failAll id ssMcForm

/-- Acceptance of a multicast copy: its descriptor, its source record and form, its branches' records. -/
def State.acceptMc (s : State) (id : Nat) : State :=
  let s := if (s.eop id).branches.isEmpty then s.readDesc id else s
  let o := s.eop id
  if o.accepted || o.stage != .issued || o.branches.isEmpty then s
  else
    let s := if o.tiles = 0 then s.readSource id else s
    let o := s.eop id
    if o.accepted || o.stage != .issued || o.tiles = 0 then s else s.mcBranches id

/-- A shape with its base moved. -/
def Shape.move (x : Shape) (n : Nat) : Shape := { x with base := (x.base + n) % 2 ^ 56 }

/-- MULTICAST_TILE_READ (R185): the source reads tile r when r − d_b ≤ S_b for every branch that goes on. -/
def execMulticastTileRead (op : Nat) (s : State) : Out :=
  let o := s.eop op
  let going := o.branches.filter fun b => !b.isOver o.n
  if o.live && o.kind == .mc && o.stage == .accepted && o.accepted && decide (o.pos < o.n) && !going.isEmpty &&
      going.all (fun b => decide (o.pos - b.delivered ≤ b.slack)) then
    let x := (shapeOf o.recS o.tabS).move (o.pos * o.expect.toNat)
    let g := s.gatherBox o.got x (s.engLoc o x .load) o.orgS
    match g.bad with
    | some (cause, a) => .next (s.parkOp op cause a x.kvh false)
    | none =>
      if !g.need.isEmpty then .next (s.askLines op g.need)
      else
        let (bs, bad) := packTile x g.vals
        .next ((s.engSeen o x false (x.touched o.orgS)).updOp op fun o => { o with
          pos := o.pos + 1, got := []
          branches := o.branches.map fun b =>
            if b.isOver o.n then b else { b with staged := b.staged ++ [bs], stagedBad := b.stagedBad ++ [bad] } })
  else .next s

/-- A branch of an operation changes. -/
def State.updBranch (s : State) (id b : Nat) (f : Branch → Branch) : State :=
  s.updOp id fun o => { o with branches := o.branches.modify b f }

/-- A branch's staged tile has been delivered. -/
def Branch.pop (b : Branch) : Branch :=
  { b with
    delivered := b.delivered + 1
    status := if (b.stagedBad.headD []).isEmpty then b.status else ssPoison
    staged := b.staged.tail
    stagedBad := b.stagedBad.tail }

/-- A branch's request parks. -/
def State.parkBranch (s : State) (id b : Nat) (who : FqWho) (cause : BitVec 8) (addr : DWord) (kvh : Nat) : State :=
  let o := s.eop id
  let (s, ok) := s.parkReq (dieOf o.core) o.part unCopy o.core o.crew who cause addr (if cause == cKvMiss then kvh else 0) true false
  if ok then s.updBranch id b fun x => { x with parked := true } else s

/-- Bytes of a packed tile that poisoned elements leave unwritten are left out. -/
def tileCells (x : Shape) (pa : Nat) (bs : List Byte) (bad : List Nat) : List (Nat × Byte) :=
  if bad.isEmpty then bytesAt pa bs
  else ((List.range bs.length).zip bs).filterMap fun p =>
    let hit := bad.any fun q =>
      if q < x.count then decide (q * x.w / 8 ≤ p.1) && decide (p.1 ≤ (q * x.w + x.w - 1) / 8) else p.1 == x.boxBytes + (q - x.count)
    if hit then none else some (pa + p.1, p.2)

/-- MULTICAST_TILE_DELIVER (R185): the branch's next read tile goes to its destination. -/
def execMulticastTileDeliver (op branch : Nat) (s : State) : Out :=
  let o := s.eop op
  let b := o.branches.getD branch default
  if o.live && o.kind == .mc && o.accepted && decide (branch < o.branches.length) && !b.isOver o.n && !b.parked then
    match b.staged, b.stagedBad with
    | bs :: _, bad :: _ =>
      let x := shapeOf o.recS o.tabS
      if b.yd then
        match s.branchRing o b with
        | none => .next s
        | some (r, geo) =>
          let k := branchWaiter op branch
          if (s.ring r).owned k ≥ b.window then .next s
          else
            let s := s.arriveFill r k
            if s.mayFill r k then
              let cells := tileCells x (geo.pa + (s.ring r).fill * geo.unit) bs bad
              .next (((s.perform cells).endFill r k 0 k).updBranch op branch Branch.pop)
            else .next s
      else
        let y := (shapeOf b.shape b.tab).move (b.delivered * b.dstep.toNat)
        let w := s.resolveBits o.got (s.engLoc o y .store) (y.scatter b.origin (unpackTile x bs bad))
        match w.bad with
        | some (cause, a) => .next (s.parkBranch op branch (.branch op branch) cause a y.kvh)
        | none =>
          if !w.need.isEmpty then .next (s.askFor op (.branch op branch) w.need)
          else .next (((s.engWrite (.branch op branch) o.core o.part o.level w.bytes).engSeen o y true (y.touched b.origin)).updBranch op branch
            Branch.pop)
    | _, _ => .next s
  else .next s

/-- The next branch that is over writes its stamp, behind its own writes; with every stamp written the operation is complete (R186). -/
def State.mcStamp (s : State) (id : Nat) : State :=
  let o := s.eop id
  if !o.accepted then s
  else
    match (List.range o.branches.length).find? fun i =>
      let b := o.branches.getD i default
      b.isOver o.n && !b.stamped && !b.parked && !s.branchWaits id i with
    | some i =>
      let b := o.branches.getD i default
      match s.targetLoc o.part o.crew o.gang o.core o.level b.stamp with
      | .ok x =>
        -- the descriptor names no VALUE: a free value stands there (log 3)
        let bs := leBytes 8 (stampWord b.status (Config.freeWord s.free)).toNat
        (s.bumpFree.engWrite (.branch id i) o.core o.part o.level ((bytesAt x.pa bs).map fun c => (x.dev, c))).updBranch id i fun b => { b with stamped := true }
      | .bad cause a => s.parkBranch id i (.branchStamp id i) cause a 0
    | none => if o.branches.all (·.stamped) && o.branches.all (fun b => b.isOver o.n) && !s.opWaits id then s.finishOp id else s

end Sys2Proof.Machine
end

