-- ==== Sys2Proof/Machine/Matrix.lean ====
section
/-!
DEFINITION. Sys2Proof/Machine/Matrix.lean: the matrix engine, OP 0xC0–0xC6 (R375–R383): accumulator names and tiles, operand buffers, MMA and
the transfers.
-/
namespace Sys2Proof.Machine

/-! ## Names and tiles (R375–R377) -/

/-- Physical tiles of a core. A name may be bound to a tile that is not chosen yet: its number is then 16 and more, 16 + the operation
that will take it. -/
def tilesPerCore : Nat := 16

/-- The tile an operation on name n goes to: the one bound at its commit, or one that it will take itself (R375). -/
def State.nameTile (s : State) (g n : Nat) : State × Nat :=
  match (s.gang g).acc.get n with
  | some t => (s, t)
  | none =>
    let t := tilesPerCore + s.nextOp
    (s.updGang g fun w => { w with acc := w.acc.put n (some t) }, t)

/-- ACC.NEW's binding at commit (R376, R377): the old tile drains; the name goes to a tile not chosen yet. -/
def State.newTile (s : State) (g n : Nat) : State × Nat :=
  let t := tilesPerCore + s.nextOp
  let s := match (s.gang g).acc.get n with
    | some old => if old < tilesPerCore then s.updCore (s.gang g).core fun q => { q with
        tiles := q.tiles.upd old fun t => { t with draining := true } } else s
    | none => s
  (s.updGang g fun w => { w with acc := w.acc.put n (some t) }, t)

/-- Does an operation name a tile? -/
def usesTile : OpKind → Bool
  | .mma | .accNew | .accZero | .accLd | .accSt => true
  | _ => false

/-- A free tile of a core. -/
def Core.freeTile (k : Core) : Option Nat := (List.range tilesPerCore).find? fun t => (k.tiles.get t).gang.isNone

/-- An operation whose name was bound to no tile takes a free one, written with zeros; whoever names it follows. A name that has moved on
leaves it draining. -/
def State.takeTile (s : State) (id : Nat) : Option State :=
  let o := s.eop id
  let v := tilesPerCore + id
  if o.tile ≠ v then some s
  else
    match (s.core o.core).freeTile with
    | none => none
    | some t =>
      let w := s.gang o.gang
      let named := w.acc.vals.any fun x => x == some v
      let s := s.updCore o.core fun q => { q with tiles := q.tiles.put t ⟨some o.gang, !named, Tbl.empty, []⟩ }
      let s := s.updGang o.gang fun w => { w with acc := w.acc.mapVals fun x => if x == some v then some t else x }
      some { s with ops := s.ops.mapVals fun p => if p.core == o.core && usesTile p.kind && p.tile == v then { p with tile := t } else p }

/-- Does any live operation of a core name a tile? -/
def State.tileBusy (s : State) (core t : Nat) : Bool :=
  s.ops.vals.any fun o => o.live && o.core == core && usesTile o.kind && o.tile == t

/-- ACC_TILE_DRAIN_FREE (R377): a draining tile that no operation names any longer is free. -/
def execAccTileDrainFree (core tile : Nat) (s : State) : Out :=
  let t := (s.core core).tiles.get tile
  if t.draining && t.gang.isSome && !s.tileBusy core tile then
    .next (s.updCore core fun q => { q with tiles := q.tiles.put tile default })
  else .next s

/-- ACC.NEW (R377). -/
def execAccNew (g : Guard) (acc : BitVec 3) (s : State) : Out :=
  .next (issueWith g none (fun s => s.keepIssue .matrix none []) (fun s _ =>
    let (s, t) := s.newTile s.me.gang acc.toNat
    (s, { (default : EngineOp) with kind := .accNew, stamp := tgNone, tile := t })) s)

/-- ACC.ZERO (R377). -/
def execAccZero (g : Guard) (acc : BitVec 3) (s : State) : Out :=
  .next (issueWith g none (fun s => s.keepIssue .matrix none []) (fun s _ =>
    let (s, t) := s.nameTile s.me.gang acc.toNat
    (s, { (default : EngineOp) with kind := .accZero, stamp := tgNone, tile := t })) s)

/-! ## Records of TLD, ACC.LD and ACC.ST (R378) -/

/-- An issue with a record: R129 and the table read as a load of the sett, then `more`, then the bounds policy (R127). -/
def recordIssue (g : Guard) (da : BitVec 4) (a : Src) (more : State → Shape → Bool) (op : State → EngineOp → State × EngineOp)
    (s : State) : State :=
  issueWith g (some .mx) (fun s =>
    let c := s.me
    let r := c.drec da.toNat
    match s.tableOf c r with
    | .bad cause addr => s.setMe (raiseExc c cause addr 0)
    | .wait _ => (s.askTable r).stallMe stOperand
    | .ok tab =>
      let st := shapeStatus r tab
      let x := shapeOf r tab
      let o := uni64 s c 0 a g
      if st ≠ 0 then s.setMe (raiseExc c cShape (BitVec.ofNat 64 st) 0)
      else if !more s x then s.setMe (raiseExc c cShape 0 0)
      else if x.outside o then s.setMe (raiseExc c cBounds 0 0)
      else s.keepIssue .matrix (some .mx) (o :: tab.map fun b => b.setWidth 64))
    (fun s args => op s { (default : EngineOp) with
      recS := s.me.drec da.toNat, tabS := args.tail.map fun b => b.setWidth 8, orgS := args.headD 0, stamp := tgNone }) s

/-- TLD (R379): the entry must exist and its buffers hold the box. -/
def execTld (g : Guard) (ob : BitVec 4) (da : BitVec 4) (a : Src) (s : State) : Out :=
  .next (recordIssue g da a (fun s x => match s.obUnit s.me.gang ob.toNat with
    | some u => decide (x.tileBytes ≤ u)
    | none => false)
    (fun s o => (s, { o with kind := .tld, oba := ob.toNat })) s)

/-- The record of ACC.LD or ACC.ST: rank 2, a 64 × 64 box, an accepted type (R382). -/
def accRecord (types : List Nat) (x : Shape) : Bool := x.boxes == [64, 64] && types.contains x.etype

/-- ACC.LD (R382). -/
def execAccLd (g : Guard) (acc : BitVec 3) (da : BitVec 4) (a : Src) (s : State) : Out :=
  .next (recordIssue g da a (fun _ x => accRecord [0x10, 0x06, 0x02, 0x11, 0x12] x) (fun s o =>
    let (s, t) := s.nameTile s.me.gang acc.toNat
    (s, { o with kind := .accLd, tile := t })) s)

/-- Codes of rounding modes kept with an operation. -/
def rmCode : Rnd → Nat
  | .rne => 0
  | .rz => 1
  | .ru => 2
  | .rd => 3
  | .sr => 4

/-- The rounding mode of a code. -/
def rmOf : Nat → Rnd
  | 1 => .rz
  | 2 => .ru
  | 3 => .rd
  | 4 => .sr
  | _ => .rne

/-- ACC.ST (R382). -/
def execAccSt (g : Guard) (acc : BitVec 3) (da : BitVec 4) (a : Src) (rm : Rnd) (sat : Bool) (s : State) : Out :=
  .next (recordIssue g da a (fun _ x => accRecord [0x10, 0x06, 0x02, 0x11, 0x12, 0x13, 0x14] x) (fun s o =>
    let (s, t) := s.nameTile s.me.gang acc.toNat
    (s, { o with kind := .accSt, tile := t, rm := rmCode rm, sat := sat })) s)

/-! ## MMA (R380, R381) -/

/-- Bytes of a 64 × KD operand of a type: T of R381. -/
def mmaBytes (t kd : Nat) : Nat := 64 * kd * etBits t / 8 + (if etMx t then 4 * kd else 0)

/-- The control word and the entries pass (R381). -/
def State.mmaOk (s : State) (ta tb oba obb : Nat) (w : DWord) : Bool :=
  let kd := bitsOf w 0 16
  let fits := fun t ob => match s.obUnit s.me.gang ob with
    | some u => decide (mmaBytes t kd ≤ u)
    | none => false
  kd % 16 == 0 && decide (16 ≤ kd) && decide (kd ≤ 4096) && bitsOf w 16 48 == 0 && fits ta oba && fits tb obb

/-- MMA (R380). -/
def execMma (g : Guard) (ta tb : ElemTy) (ka kb : Bool) (acc : BitVec 3) (oba obb : BitVec 4) (c : Src) (s : State) : Out :=
  let a := (ElemTy.code ta).toNat
  let b := (ElemTy.code tb).toNat
  .next (issueWith g (some .mx) (fun s =>
    let w := uni64 s s.me 0 c g
    if s.mmaOk a b oba.toNat obb.toNat w then s.keepIssue .matrix (some .mx) [w] else s.setMe (raiseExc s.me cShape 0 0))
    (fun s args =>
      let (s, t) := s.nameTile s.me.gang acc.toNat
      (s, { (default : EngineOp) with
        kind := .mma, stamp := tgNone, tile := t, ta := a, tb := b, ka := ka, kb := kb, oba := oba.toNat, obb := obb.toNat
        kd := bitsOf (args.headD 0) 0 16 })) s)

/-- The format of a float or MX operand's elements. -/
def mmaFmt (t : Nat) : Fmt :=
  match t with
  | 0x18 => .e4m3
  | 0x19 => .e5m2
  | 0x1A => .e3m2
  | 0x1B => .e2m3
  | 0x1C => .e2m1
  | _ => (fmtOfCode t).getD .f32

/-- Integer operand types. -/
def mmaInt (t : Nat) : Bool := decide (t < 0x10)

/-- K of a type's accumulation step (R119). -/
def mmaStep (t : Nat) : Nat := if etMx t then 16 else if t = 0x11 || t = 0x12 then 4 else if t = 0x08 || t = 0x09 then 16 else 8

/-- The step of a pairing: the smaller, or a block of 16 when either is MX. -/
def pairStep (a b : Nat) : Nat := if etMx a || etMx b then 16 else min (mmaStep a) (mmaStep b)

/-- Row m of an operand, as one number. -/
def mmaRow (bs : List Byte) (t kd m : Nat) : Nat := leNat ((bs.drop (m * kd * etBits t / 8)).take (kd * etBits t / 8))

/-- The scale of row m, block j; 0x7F for a type without scales (R119). -/
def mmaScale (bs : List Byte) (t kd m j : Nat) : Nat :=
  if etMx t then (bs.getD (64 * kd * etBits t / 8 + m * (kd / 16) + j) 0).toNat else 0x7F

/-- One float step: the exact sum of its products, scaled (R120–R122). -/
def floatStep (ta tb ra rb sa sb k0 n : Nat) : FV :=
  let ps := (List.range n).map fun i =>
    (decodeF (mmaFmt ta) (fieldOf ra ((k0 + i) * etBits ta) (etBits ta)), decodeF (mmaFmt tb) (fieldOf rb ((k0 + i) * etBits tb) (etBits tb)))
  if sa = 0xFF || sb = 0xFF then .nan false else (dotX .rne ps).v.scale ((sa : Int) + sb - 254)

/-- One integer step: the exact sum of its products (R123). -/
def intStep (ta tb ra rb k0 n : Nat) : Int :=
  ((List.range n).map fun i =>
    readInt (etBits ta) (ta = 0x04 || ta = 0x09) (fieldOf ra ((k0 + i) * etBits ta) (etBits ta)) *
    readInt (etBits tb) (tb = 0x04 || tb = 0x09) (fieldOf rb ((k0 + i) * etBits tb) (etBits tb))).sum

/-- One accumulator word through all steps, in increasing k. -/
def mmaWord (ta tb kd : Nat) (a b : List Byte) (m j : Nat) (c : Word) : Word :=
  let n := pairStep ta tb
  let ra := mmaRow a ta kd m
  let rb := mmaRow b tb kd j
  (List.range (kd / n)).foldl (fun c i =>
    if mmaInt ta then c + BitVec.ofInt 32 (intStep ta tb ra rb (i * n) n)
    else accAdd c (floatStep ta tb ra rb (mmaScale a ta kd m i) (mmaScale b tb kd j i) (i * n) n)) c

/-- What a buffer's swizzle record holds: the span's code and the row size of the box that filled it (R128, R379). -/
def spanCode (x : Shape) : Nat := x.rowBytes * 8 + x.swz

/-- Where byte i of a box lies in a buffer with a swizzle record. -/
def spanPlace (code i : Nat) : Nat :=
  let p := code / 8
  if p = 0 then i else i / p * p + swizzle (spanBytes (code % 8)) p (i / p) (i % p)

/-- A buffer's bytes as an operand of n element bytes and its scales, unswizzled; none where a word is poisoned. -/
def State.operandBytes (s : State) (pa code n total : Nat) : List (Option Byte) :=
  (List.range total).map fun i =>
    let a := pa + (if i < n then spanPlace code i else i)
    if s.poison.contains (a / 4) then none else some (s.mem.read a)

/-- Rows of an operand that hold a poisoned byte, its scales among them. -/
def badRows (bs : List (Option Byte)) (t kd : Nat) : List Nat :=
  let n := kd * etBits t / 8
  (List.range 64).filter fun m =>
    ((bs.drop (m * n)).take n).any Option.isNone ||
    (etMx t && ((bs.drop (64 * n + m * (kd / 16))).take (kd / 16)).any Option.isNone)

/-- A tile's words rewritten. -/
def State.updTile (s : State) (core t : Nat) (f : Tile → Tile) : State :=
  s.updCore core fun q => { q with tiles := q.tiles.upd t f }

/-- A matrix operation is over (R166, R174). -/
def State.endMatrix (s : State) (id : Nat) : State := (s.endPayload id 0).stampOp id

/-- MMA performs: both buffers full and this operation first at them (R72, R381). One entry named twice is released once. -/
def State.runMma (s : State) (id : Nat) : State :=
  let o := s.eop id
  match s.obRing o.gang o.oba, s.obRing o.gang o.obb with
  | some ra, some rb =>
    let k := opWaiter id
    let s := (s.arriveRead ra k).arriveRead rb k
    if s.mayRead ra k && s.mayRead rb k then
      match s.ringGeo ra, s.ringGeo rb with
      | some ga, some gb =>
        let xa := s.ring ra
        let xb := s.ring rb
        let bytes := fun (x : Ring) (g : RingGeo) t =>
          s.operandBytes (g.pa + x.read * g.unit) (x.spans.get x.read) (64 * o.kd * etBits t / 8) (mmaBytes t o.kd)
        let a := bytes xa ga o.ta
        let b := bytes xb gb o.tb
        let av := a.map fun v => v.getD 0
        let bv := b.map fun v => v.getD 0
        let pa := badRows a o.ta o.kd
        let pb := badRows b o.tb o.kd
        let s := s.updTile o.core o.tile fun t => { t with
          words := (List.range 4096).foldl (fun w i => w.putc i (mmaWord o.ta o.tb o.kd av bv (i / 64) (i % 64) (t.words.get i))) t.words
          poison := (List.range 4096).filter fun i => t.poison.contains i || pa.contains (i / 64) || pb.contains (i % 64) }
        let s := if ra = rb then s.endRead ra k (o.ka && o.kb) else (s.endRead ra k o.ka).endRead rb k o.kb
        s.endMatrix id
      | _, _ => s
    else s
  | _, _ => s

/-! ## Transfers -/

/-- Words marked poisoned. -/
def State.poisonAt (s : State) (pas : List Nat) : State :=
  { s with poison := pas.foldl (fun l a => if l.contains (a / 4) then l else l ++ [a / 4]) s.poison }

/-- Bytes of a packed box that its poisoned elements lie in. -/
def badBytes (x : Shape) (bad : List Nat) : List Nat :=
  bad.flatMap fun q =>
    if q < x.count then (List.range ((q * x.w + x.w - 1) / 8 + 1 - q * x.w / 8)).map (q * x.w / 8 + ·) else [x.boxBytes + (q - x.count)]

/-- TLD performs: its entry's fill buffer is empty and it is first there (R379). -/
def State.runTld (s : State) (id : Nat) : State :=
  let o := s.eop id
  let x := shapeOf o.recS o.tabS
  match s.obRing o.gang o.oba with
  | none => s
  | some r =>
    let k := opWaiter id
    let s := s.arriveFill r k
    match s.ringGeo r with
    | none => s
    | some geo =>
      if !s.mayFill r k then s
      else
        let g := s.gatherBox o.got x.flat (s.engLoc o x .load) o.orgS
        match g.bad with
        | some (cause, a) => s.parkOp id cause a x.kvh false
        | none =>
          if !g.need.isEmpty then s.askLines id g.need
          else
            let (bs, bad) := packTile x g.vals
            let s := s.engSeen o x false (x.flat.touched o.orgS)
            let pa := geo.pa + (s.ring r).fill * geo.unit
            let place := fun i => pa + (if i < x.boxBytes then spanPlace (spanCode x) i else i)
            let s := s.perform (((List.range bs.length).zip bs).map fun p => (place p.1, p.2))
            let s := s.poisonAt ((badBytes x bad).map place)
            (s.endFill r k (spanCode x) k).endMatrix id

/-- A word as ACC.LD reads it (R382). -/
def accLoad (t v : Nat) : Word :=
  if t = 0x11 then BitVec.ofNat 32 (cvtF .f32 .f16 .rne false v 0).1
  else if t = 0x12 then BitVec.ofNat 32 (cvtF .f32 .b16 .rne false v 0).1
  else if t = 0x10 && (decodeF .f32 v).isNan then 0x7FC00000
  else BitVec.ofNat 32 v

/-- A word as ACC.ST writes it (R382, R109). -/
def accStore (t : Nat) (rm : Rnd) (sat : Bool) (w : Word) : Nat :=
  match t with
  | 0x11 => (cvtF .f16 .f32 rm sat w.toNat 0).1
  | 0x12 => (cvtF .b16 .f32 rm sat w.toNat 0).1
  | 0x13 => (cvtF .e4m3 .f32 rm sat w.toNat 0).1
  | 0x14 => (cvtF .e5m2 .f32 rm sat w.toNat 0).1
  | 0x10 => if (decodeF .f32 w.toNat).isNan then 0x7FC00000 else w.toNat
  | _ => w.toNat

/-- ACC.LD performs. -/
def State.runAccLd (s : State) (id : Nat) : State :=
  let o := s.eop id
  let x := (shapeOf o.recS o.tabS).flat
  let g := s.gatherBox o.got x (s.engLoc o x .load) o.orgS
  match g.bad with
  | some (cause, a) => s.parkOp id cause a x.kvh false
  | none =>
    if !g.need.isEmpty then s.askLines id g.need
    else
      ((s.engSeen o x false (x.touched o.orgS)).updTile o.core o.tile fun t => { t with
        words := ((List.range 4096).zip g.vals).foldl (fun w p => w.putc p.1 (accLoad x.etype (p.2.getD 0))) t.words
        poison := ((List.range 4096).zip g.vals).filterMap fun p => if p.2.isNone then some p.1 else none }).endMatrix id

/-- ACC.ST performs: a poisoned tile word leaves its element's words poisoned (R90). -/
def State.runAccSt (s : State) (id : Nat) : State :=
  let o := s.eop id
  let x := (shapeOf o.recS o.tabS).flat
  let t := (s.core o.core).tiles.get o.tile
  let vals := (List.range 4096).map fun i => some (accStore x.etype (rmOf o.rm) o.sat (t.words.get i))
  let bad := (List.range 4096).filter fun i => t.poison.contains i && x.elemIn o.orgS i
  let pas := bad.flatMap fun q => (x.elemBytes o.orgS q).1.filterMap fun a => match s.engLoc o x .store a with
    | .ok l => if l.dev = s.dev then some l.pa else none
    | .bad _ _ => none
  s.writeBox id x o.orgS vals fun s => (s.poisonAt pas).endMatrix id

/-- ACC.RD (R383): per lane, the word of the tile bound at sett start, once every operation of earlier setts on it has completed. -/
def execAccRd (g : Guard) (acc : BitVec 3) (p : Src) (d : Dst) (s : State) : Out :=
  let c := s.me
  let ls := lanesOf (c.guardMask g)
  let pos := fun l => bitsOf (src32 s c 0 p l) 0 6 * 64 + bitsOf (src32 s c 0 p l) 6 6
  if c.popTrap then .next (s.setMe (raiseExc c cProtection 0 0))
  else
    match (s.gang c.gang).acc.get acc.toNat with
    | none => .next (s.updMe fun c => { endSlot c d false false (ls.map fun l => (l, 0)) 0 c.sett.gens with stall := stNone })
    | some t =>
      if ls.isEmpty then .next (s.updMe fun c => endSlot c d false false [] 0 c.sett.gens)
      else if s.tileBusy c.core t then .next (s.stallMe stMatrix)
      else
        let w := (s.core c.core).tiles.get t
        match ls.find? fun l => w.poison.contains (pos l) with
        | some l => .next (s.setMe (raiseExc c cUncorrectable ((src32 s c 0 p l).setWidth 64) l))
        | none =>
          .next (s.updMe fun c => { endSlot c d false false (ls.map fun l => (l, (w.words.get (pos l)).setWidth 64)) 0 c.sett.gens with
            stall := stNone })

/-! ## The queue (R376) -/

/-- Do two operations of a queue start in queue order? -/
def ordered (o p : EngineOp) : Bool :=
  (usesTile o.kind && usesTile p.kind && o.tile == p.tile) ||
  (o.gang == p.gang &&
    ((o.kind == .tld && p.kind == .tld && o.oba == p.oba) ||
     (o.kind == .mma && p.kind == .mma && (o.oba == p.oba || o.oba == p.obb || o.obb == p.oba || o.obb == p.obb))))

/-- An earlier operation of the queue holds this one back. -/
def State.matrixHeld (s : State) (id : Nat) : Bool :=
  let o := s.eop id
  ((s.queues.get o.key).takeWhile (· != id)).any fun j => ordered (s.eop j) o

/-- A matrix operation performs when its turn, its tile and its buffers allow. One of a gang that has ended is over; one of a gang whose
context is saved waits. -/
def State.runMatrix (s : State) (id : Nat) : State :=
  let o := s.eop id
  if !o.live || opEngine o.kind != .matrix then s
  else if o.stage == .performed || !(s.gang o.gang).live then s.stampOp id
  else if o.stage == .parked || (s.gang o.gang).saved || s.matrixHeld id then s
  else if !usesTile o.kind then s.runTld id
  else
    match s.takeTile id with
    | none => s
    | some s =>
      match o.kind with
      | .mma => s.runMma id
      | .accLd => s.runAccLd id
      | .accSt => s.runAccSt id
      | .accZero => (s.updTile o.core (s.eop id).tile fun t => { t with words := Tbl.empty, poison := [] }).endMatrix id
      | _ => s.endMatrix id

/-- MATRIX_OPERATION_EXECUTE (R376, R381, R382). -/
def execMatrixOperationExecute (core op : Nat) (s : State) : Out :=
  if (s.eop op).core = core then .next (s.runMatrix op) else .next s

end Sys2Proof.Machine
end

