-- ==== Sys2Proof/Machine/Coll.lean ====
section
/-!
DEFINITION. Sys2Proof/Machine/Coll.lean: collectives (R187–R190, R388, R389).
-/
namespace Sys2Proof.Machine

/-! ## Issue (R388) -/

def kindCode : CollKind → Nat
  | .allred => 0
  | .redscat => 1
  | .allgath => 2
  | .bcast => 3

def collOpCode : CollOp → Nat
  | .sum => 0
  | .max => 1
  | .min => 2

/-- A partition's collective group: its devices by rank, when the handle names one that this device is a member of. -/
def State.collGroup (s : State) (p h : Nat) : Option (List Nat) :=
  let g := (s.part p).groups.get h
  if h < 256 && g.present && g.devs.contains s.dev then some g.devs else none

/-- COLL's checks while its sett executes. -/
def State.collBad (s : State) (k : CollKind) (n : Nat) : Option (BitVec 8 × DWord) :=
  let c := s.me
  let w := c.sreg n
  match s.collGroup c.part (bitsOf w 0 16) with
  | none => some (cProtection, 0)
  | some devs =>
    if k == .bcast && decide (bitsOf w 16 4 ≥ devs.length) then some (cProtection, 0) else targetBad (c.sreg (n + 1)) 8 false

/-- COLL (R388): `tile` holds the group handle, `rm` the root, `oba` the kind, `obb` the operation, `ta` the type. -/
def execColl (g : Guard) (k : CollKind) (op : CollOp) (t : ElemTy) (ds dd : BitVec 4) (sn : BitVec 6) (s : State) : Out :=
  .next (issueSlot g .coll (some .cl) (fun s => s.collBad k sn.toNat) (fun _ => []) (fun s _ =>
    let c := s.me
    { (default : EngineOp) with
      kind := .coll
      recS := c.drec ds.toNat
      recD := c.drec dd.toNat
      tile := bitsOf (c.sreg sn.toNat) 0 16
      rm := bitsOf (c.sreg sn.toNat) 16 4
      oba := kindCode k
      obb := collOpCode op
      ta := (ElemTy.code t).toNat
      stamp := c.sreg (sn.toNat + 1)
      value := c.sreg (sn.toNat + 2) }) s)

/-! ## Acceptance (R187, R389) -/

/-- Key of a partition's group among the instance counts. -/
def collKey (part group : Nat) : Nat := part * 65536 + group

/-- The requirement of a kind on the element counts of source and destination. -/
def collCounts (kind n c d : Nat) : Bool :=
  match kind with
  | 1 => c == n * d
  | 2 => d == n * c
  | _ => d == c

/-- Acceptance of a collective: it takes the next instance number of its group, whatever its checks give (R187); then its records, types and
counts are checked (R389). -/
def State.acceptColl (s : State) (id : Nat) : State :=
  let o := s.eop id
  let n := ((s.collGroup o.part o.tile).getD []).length
  let key := collKey o.part o.tile
  let s := if o.pos ≠ 0 then s
    else
      let inst := s.collSeq.get key + 1
      { s with collSeq := s.collSeq.put key inst }.updOp id fun o => { o with pos := inst, n := n }
  s.acceptBoxes id fun x y =>
    if x.etype ≠ o.ta || y.etype ≠ o.ta || !collCounts o.oba n x.count y.count then ssShape 5
    else if x.outside 0 || y.outside 0 then ssBounds
    else 0

/-! ## Reductions (R188) -/

/-- The float format of a type code, for the operations that compute in it. -/
def collFmt (t : Nat) : Option Fmt := if t = 0x10 || t = 0x11 || t = 0x12 then fmtOfCode t else none

/-- A member's value as the reduction takes it: 16-bit floats become FP32 for SUM. -/
def collIn (t op x : Nat) : Nat :=
  if op = 0 && t = 0x11 then (cvtF .f32 .f16 .rne false x 0).1
  else if op = 0 && t = 0x12 then (cvtF .f32 .b16 .rne false x 0).1
  else x

/-- The result rounded once to the element type. -/
def collOut (t op x : Nat) : Nat :=
  if op = 0 && t = 0x11 then (cvtF .f16 .f32 .rne false x 0).1
  else if op = 0 && t = 0x12 then (cvtF .b16 .f32 .rne false x 0).1
  else x

/-- One combination. -/
def collComb (t op x y : Nat) : Nat :=
  match collFmt t with
  | some f =>
    match op with
    | 0 => (finishF .f32 .rne false (addX .rne (decodeF .f32 x) (decodeF .f32 y)) 0).1
    | 1 => (minmaxF f true true x y).1
    | _ => (minmaxF f false true x y).1
  | none =>
    let w := etBits t
    let a := readInt w (t = 0x06 || t = 0x07) x
    let b := readInt w (t = 0x06 || t = 0x07) y
    match op with
    | 0 => wrapNat w (a + b)
    | 1 => wrapNat w (max a b)
    | _ => wrapNat w (min a b)

/-- One level of the tree over ranks; a member without a partner is carried up. -/
def collLevel (f : Nat → Nat → Nat) : List (Option Nat) → List (Option Nat)
  | a :: b :: r => (match a, b with
    | some x, some y => some (f x y)
    | _, _ => none) :: collLevel f r
  | l => l

/-- The tree over up to 2 ^ n members. -/
def collTree (f : Nat → Nat → Nat) : Nat → List (Option Nat) → Option Nat
  | 0, l => l.headD none
  | n + 1, l => collTree f n (collLevel f l)

/-- The reduction of every member's element i. -/
def collReduce (t op : Nat) (members : List (List (Option Nat))) (i : Nat) : Option Nat :=
  (collTree (collComb t op) 4 (members.map fun m => (m.getD i none).map (collIn t op))).map (collOut t op)

/-- What a member of a rank receives (R389). -/
def collResult (kind op t root rank c d : Nat) (members : List (List (Option Nat))) : List (Option Nat) :=
  (List.range d).map fun i =>
    match kind with
    | 0 => collReduce t op members i
    | 1 => collReduce t op members (rank * d + i)
    | 2 => (members.getD (i / c) []).getD (i % c) none
    | _ => (members.getD root []).getD i none

/-- What R187 compares across members: kind, operation, type and count in one word. -/
def collHeader (o : EngineOp) (c : Nat) : DWord := BitVec.ofNat 64 (o.oba * 2 ^ 56 + o.obb * 2 ^ 48 + o.ta * 2 ^ 40 + c % 2 ^ 40)

/-- A member's source is read into the engine, and its share goes to the other members (R187, R188): the compared word, then its elements. -/
def State.collSend (s : State) (id : Nat) : State :=
  let o := s.eop id
  let x := shapeOf o.recS o.tabS
  let g := s.gatherBox o.got x (s.engLoc o x .load) 0
  match g.bad with
  | some (cause, a) => s.parkOp id cause a x.kvh false
  | none =>
    if !g.need.isEmpty then s.askLines id g.need
    else
      let (bs, bad) := packTile x g.vals
      ((s.engSeen o x false (x.touched 0)).collTell o (collHeader o x.count :: g.vals.map fun v => BitVec.ofNat 64 (v.getD 0))).updOp id fun o =>
        { o with stage := .started, reserved := true, got := [], branches := [{ (default : Branch) with staged := [bs], stagedBad := [bad] }] }

/-- What a member of an instance has sent. -/
def State.contribOf (s : State) (o : EngineOp) (dev : Nat) : Option (List DWord) :=
  (s.contribs.find? fun c => c.part == o.part && c.group == o.tile && c.inst == o.pos && c.dev == dev).map (·.words)

/-- An instance is over on this device: its shares are dropped. -/
def State.dropContribs (s : State) (o : EngineOp) : State :=
  { s with contribs := s.contribs.filter fun c => !(c.part == o.part && c.group == o.tile && c.inst == o.pos) }

/-- COLLECTIVE_INSTANCE_COMPLETE (R187–R189): every member's share has come, or the link has lost it: `lost` names those ranks. -/
def execCollectiveInstanceComplete (op : Nat) (lost : List Nat) (s : State) : Out :=
  let o := s.eop op
  let devs := (s.collGroup o.part o.tile).getD []
  let rank := devs.findIdx (· == s.dev)
  let others := (List.range devs.length).filter (· != rank)
  let share := fun q => s.contribOf o (devs.getD q 0)
  if !o.live || o.kind != .coll || o.stage != .started || s.opAway o || others.any fun q => (share q).isNone && !lost.contains q then .next s
  else
    let x := shapeOf o.recS o.tabS
    let y := shapeOf o.recD o.tabD
    if others.any fun q => (share q).isNone then .next ((s.dropContribs o).endPayload op ssLink)
    else if others.any fun q => ((share q).getD []).headD 0 != collHeader o x.count || ((share q).getD []).length != x.events + 1 then
      .next ((s.dropContribs o).endPayload op ssMismatch)
    else
      let b := o.branches.headD default
      let bad := b.stagedBad.headD []
      let mine := unpackTile x (b.staged.headD []) bad
      let members := (List.range devs.length).map fun q =>
        if q = rank then mine else ((share q).getD []).tail.map fun v => some (v.toNat % 2 ^ x.w)
      .next (s.writeBox op y 0 (collResult o.oba o.obb o.ta o.rm rank x.count y.count members) fun s =>
        (s.dropContribs o).endPayload op (if bad.isEmpty then 0 else ssPoison))

/-- A destination that has become unreachable: collectives that still wait for its share end with LINK (R466). -/
def State.collUnreachable (s : State) (dev : Nat) : State :=
  s.ops.cells.foldl (fun s e =>
    let o := e.2
    if o.live && o.kind == .coll && o.stage == .started && ((s.collGroup o.part o.tile).getD []).contains dev && (s.contribOf o dev).isNone then
      (s.dropContribs o).endPayload e.1 ssLink
    else s) s

end Sys2Proof.Machine
end

