-- ==== Sys2Proof/Machine/Token.lean ====
section
/-!
DEFINITION. Sys2Proof/Machine/Token.lean: token records and the token instructions, OP 0xD6–0xDA (R208, R209, R390–R396), and where a send
places a record (R394, R430).
-/
namespace Sys2Proof.Machine

/-! ## Fields of a record (R208) -/

/-- A field of a record. -/
def recGet (b : BitVec 1024) (lo len : Nat) : Nat := (b.extractLsb' lo len).toNat

/-- A record with one field replaced. -/
def recPut (b : BitVec 1024) (lo len v : Nat) : BitVec 1024 :=
  BitVec.ofNat 1024 (b.toNat - recGet b lo len * 2 ^ lo + v % 2 ^ len * 2 ^ lo)

/-- Lowest bit and width of the fields that are not reserved, LENT and HELD left out. -/
def recFields : List (Nat × Nat) :=
  [(0, 8), (22, 2), (24, 8), (32, 32), (64, 64), (128, 32), (160, 24), (192, 32), (224, 32), (256, 56), (320, 64), (384, 32), (416, 32),
   (448, 32), (496, 16), (512, 12), (524, 4), (528, 14), (576, 64), (640, 384)]

/-- A record image with its reserved fields, LENT and HELD zero. -/
def recClean (b : BitVec 1024) : BitVec 1024 :=
  BitVec.ofNat 1024 (recFields.foldl (fun a f => a + recGet b f.1 f.2 * 2 ^ f.1) 0)

def rcHandle (b : BitVec 1024) : Word := b.extractLsb' 32 32
def rcEpoch (b : BitVec 1024) : Word := b.extractLsb' 192 32
def rcParent (b : BitVec 1024) : Word := b.extractLsb' 224 32
def rcFeat (b : BitVec 1024) : DWord := b.extractLsb' 320 64
def rcPos (b : BitVec 1024) : Nat := recGet b 160 24

/-- First bit and width a TOK.LOAD field covers. -/
def tokFieldSpan (f : TokField) (sel : Nat) : Nat × Nat :=
  match f with
  | .kind => (22, 2)
  | .pos => (160, 24)
  | .sslot => (528, 14)
  | .chunk => (512, 12)
  | .mflags => (524, 4)
  | .parent => (224, 32)
  | .kvh => (128, 32)
  | .nextop => (24, 8)
  | .epoch => (192, 32)
  | .topk => (496, 16)
  | .temp => (416, 32)
  | .topp => (384, 32)
  | .sseed => (448, 32)
  | .lentHeld => (14, 2)
  | .uflags => (0, 8)
  | .seqid => (64, 64)
  | .hidden => (256, 56)
  | .feat => (320, 64)
  | .summary => (576, 64)
  | .user => if sel % 8 ≤ 5 then (640 + 64 * (sel % 8), 64) else (0, 0)

/-- The field TOK.LOAD reads (R391): `sel` picks the USER word. -/
def tokFieldVal (b : BitVec 1024) (f : TokField) (sel : Nat) : Nat := recGet b (tokFieldSpan f sel).1 (tokFieldSpan f sel).2

/-- Change a pool record. -/
def State.updTok (s : State) (key : Nat) (f : TokSlot → TokSlot) : State := { s with pool := s.pool.upd key f }

/-- A record's bits. -/
def State.tok (s : State) (handle : Word) : BitVec 1024 := (s.pool.get (tokKey handle)).bits

/-- The device writes a field of a record: poison goes from the words it covers whole (R91). -/
def TokSlot.set (t : TokSlot) (lo len v : Nat) : TokSlot :=
  { t with
    bits := recPut t.bits lo len v
    poison := t.poison.filter fun w => !(decide (lo ≤ 32 * w) && decide (32 * w + 32 ≤ lo + len)) }

/-! ## Slots of a die's pool (R52, R491) -/

/-- Records of a die's pool. -/
def poolSlots : Nat := 32768

/-- The lowest number at or above `i`, within `n` numbers, that `p` holds of. -/
def firstNat (p : Nat → Bool) : Nat → Nat → Option Nat
  | 0, _ => none
  | n + 1, i => if p i then some i else firstNat p n (i + 1)

/-- The free slot with the lowest SLOT of a die's pool. -/
def State.freeSlot (s : State) (die : Nat) : Option Nat :=
  firstNat (fun i => !(s.pool.get (die * poolSlots + i)).used) poolSlots 0

/-- Free slots of a die's pool that no record on its way to the die counts on (R430). -/
def State.slotCredits (s : State) (die : Nat) : Nat :=
  poolSlots - (s.pool.cells.filter fun e => e.1 / poolSlots == die && e.2.used).length -
    (s.dieFrames.filter fun f => f.dstDie == die && f.handle == 0).length

/-- The handle of a slot at its current generation. -/
def State.handleOf (s : State) (die slot : Nat) : Word :=
  BitVec.ofNat 32 (s.dev * 2 ^ 28 + (s.pool.get (die * poolSlots + slot)).genNow * 2 ^ 24 + die * 2 ^ 15 + slot)

/-- A new record takes a slot: its HANDLE is the slot's. -/
def State.takeSlot (s : State) (die slot part : Nat) (bits : BitVec 1024) (poison : List Nat) : State × Word :=
  let h := s.handleOf die slot
  let t := { s.pool.get (die * poolSlots + slot) with used := true, part := part, bits := bits, poison := poison }
  (s.updTok (die * poolSlots + slot) fun _ => t.set 32 32 h.toNat, h)

/-! ## Operators (R53, R210) -/

/-- Key of a carder. -/
def carKey (die op : Nat) : Nat := die * 64 + op

/-- A carder. -/
def State.carder (s : State) (die op : Nat) : Carder := s.carders.get (carKey die op)

/-- Change a carder. -/
def State.updCarder (s : State) (die op : Nat) (f : Carder → Carder) : State := { s with carders := s.carders.upd (carKey die op) f }

/-- Byte field of a region's image. -/
def regWord (r : Region) (a n : Nat) : Nat := leNat ((r.bytes.drop a).take n)

/-- Entry of a die's operator table: 32 bytes, none of them set when no table is loaded. -/
def State.opEntry (s : State) (die op : Nat) : BitVec 256 := BitVec.ofNat 256 (regWord (s.die die).opTable (32 * op) 32)

def oeV (e : BitVec 256) : Bool := e.getLsbD 63
def oePin (e : BitVec 256) : Bool := e.getLsbD 62
def oeLayer (e : BitVec 256) : Nat := bitsOf e 48 8
def oeHeight (e : BitVec 256) : Nat := bitsOf e 41 7 + 1
def oeTimeout (e : BitVec 256) : Nat := bitsOf e 0 32
def oeLrec (e : BitVec 256) : Nat := bitsOf e 64 56

/-- Spill table entry of a die: LOG2N and BASE (R429). -/
def State.spillLog (s : State) (die op : Nat) : Nat := leNat (((s.die die).spills.drop (16 * op + 8)).take 1)
def State.spillBase (s : State) (die op : Nat) : Nat := leNat (((s.die die).spills.drop (16 * op)).take 7)

/-- Virtual address of spill-ring place n (R429). -/
def State.spillVa (s : State) (die op n : Nat) : Nat := s.spillBase die op + 16 * (n % 2 ^ s.spillLog die op)

/-- Waiting tokens a carder holds (R211). -/
def carderCap : Nat := 4096

/-- Does a carder's partition stand still (R451)? Senders then see FULL. -/
def State.carderOut (s : State) (die : Nat) : Bool :=
  let d := s.die die
  d.opTable.present && ((s.part d.opTable.part).swapped || (s.part d.opTable.part).swapping.isSome)

/-- Where the port of a carder places a record (R394, R430): none is FULL; true is the spill ring. `moves`: the record needs a slot there. -/
def State.placeAt (s : State) (die op : Nat) (moves : Bool) : Option Bool :=
  let c := s.carder die op
  let spilled := (c.inbound.filter fun p => p.spill).length
  let ring := decide (s.spillLog die op ≠ 0) && decide (c.spillTail - c.spillHead + spilled < 2 ^ s.spillLog die op)
  if s.carderOut die || (moves && s.slotCredits die = 0) then none
  else if c.spillHead < c.spillTail || spilled ≠ 0 then (if ring then some true else none)
  else if c.waiting.length + c.inbound.length < carderCap then some false
  else if ring then some true
  else none

/-! ## TK operations (R174) -/

/-- Does a packet or a request of a TK operation still wait? -/
def State.tokOpen (s : State) (id : Nat) : Bool :=
  s.carders.vals.any (fun c => c.inbound.any fun p => p.op == some id) ||
  s.outstanding.any fun o => match o.who with
    | .token _ i => i == id
    | _ => false

/-- A TK operation completes once every lane's record is accepted or spilled. -/
def State.settleTok (s : State) (id : Nat) : State :=
  let o := s.eop id
  if o.live && o.kind == .tokSend && !s.tokOpen id then s.finishOp id else s

/-- The same, for a packet that may belong to one. -/
def State.settlePacket (s : State) (p : Packet) : State :=
  match p.op with
  | some id => s.settleTok id
  | none => s

/-! ## Sending (R393, R394, R209) -/

def ctlOpn (c : Word) : Nat := bitsOf c 0 8
def ctlDev (c : Word) : Nat := bitsOf c 8 4
def ctlPri (c : Word) : Bool := c.getLsbD 12

/-- The check of a control word (R393). -/
def State.ctlBad (s : State) (c : Word) : Bool := bitsOf c 17 15 ≠ 0 || !s.domain.contains (ctlDev c)

/-- A send's changes to a record: KSET, POSINC, NEXTOP (R394). -/
def sendEdits (c : Word) (t : TokSlot) : TokSlot :=
  let t := if c.getLsbD 14 then t.set 22 2 (bitsOf c 15 2) else t
  let t := if c.getLsbD 13 then t.set 160 24 (rcPos t.bits + 1) else t
  t.set 24 8 (ctlOpn c)

/-- Credits for a carder of another device are that device's to give: which place it has is free (log 3). -/
def freePlace (w : DWord) : Option Bool := if w.toNat % 3 = 2 then none else some (w.toNat % 3 == 1)

/-- The place a send unit decides for a record of a die (R394). -/
def State.sendPlace (s : State) (srcDie : Nat) (c : Word) : State × Option Bool :=
  if ctlDev c = s.dev then (s, s.placeAt (ctlOpn c / 64) (ctlOpn c % 64) (srcDie != ctlOpn c / 64))
  else (s.bumpFree, freePlace (Config.freeWord s.free))

/-- The record of pool slot `key` is sent for TK operation `id` of crew k, its place decided (R209). Whether a frame between dies is lost
is free (log 3). -/
def State.sendPacket (s : State) (k id key : Nat) (sum : DWord) (c : Word) (spill : Bool) : State :=
  let w := s.crew k
  let s := s.updTok key (sendEdits c)
  let t := s.pool.get key
  let p : Packet := ⟨key, rcHandle t.bits, sum, ctlPri c, some id, spill, none, none, 0, t.part, w.level, []⟩
  let die := ctlOpn c / 64
  let op := ctlOpn c % 64
  if ctlDev c ≠ s.dev then
    s.sendTo (ctlDev c) (.token key id) fun q =>
      .token s.dev q (rcHandle t.bits).toNat (rcEpoch t.bits).toNat (ctlOpn c) (ctlPri c) sum t.bits t.poison w.level t.part
  else if key / poolSlots = die then s.updCarder die op fun x => { x with inbound := x.inbound ++ [p] }
  else
    let p := { p with fromDie := some (key / poolSlots), image := t.bits, poison := t.poison }
    let s := s.updCarder die op fun x => { x with inbound := x.inbound ++ [p] }
    let f : DieFrame := ⟨key, p, die, op, none, 0, (Config.freeWord s.free).getLsbD 0, false⟩
    { s with dieFrames := s.dieFrames ++ [f] }.bumpFree

/-- Is a handle an unreleased row of a gang? -/
def Gang.holdsRow (g : Gang) (h : Word) : Bool := g.rows.any fun r => r.handle == h && !r.released

/-- A gang releases a row. -/
def State.releaseRow (s : State) (g : Nat) (h : Word) : State :=
  s.updGang g fun w => { w with rows := w.rows.map fun r => if r.handle == h then { r with released := true } else r }

/-- One lane of TOK.SEND (R394): its status. -/
def State.sendLane (s : State) (k id : Nat) (h : Word) (sum : DWord) (c : Word) : State × Nat :=
  let g := (s.crew k).gang
  if !(s.gang g).holdsRow h then (s, 3)
  else
    match s.sendPlace (tokKey h / poolSlots) c with
    | (s, none) => (s, 2)
    | (s, some spill) => ((s.releaseRow g h).sendPacket k id (tokKey h) sum c spill, if spill then 1 else 0)

/-- The lanes of a token instruction at commit, upward, each with its result. -/
def tokLanes (f : State → Cap → State × DWord) : List Cap → State → State × List (Nat × DWord)
  | [], s => (s, [])
  | p :: ps, s =>
    let (s, v) := f s p
    let (s, rs) := tokLanes f ps s
    (s, (p.lane, v) :: rs)

/-- A 32-bit argument of a capture. -/
def capWord (p : Cap) (i : Nat) : Word := (p.args.getD i 0).setWidth 32

/-- A handle checked under R52. -/
def State.resHandle (s : State) (h : Word) : Res :=
  if s.tokLive h then .ok ⟨.token, 0, s.dev, tokKey h, 2⟩ else .bad cProtection (h.setWidth 64)

/-- A location whose control word holds too (R393). -/
def State.withCtl (s : State) (c : Word) : Res → Res
  | .ok x => if s.ctlBad c then .bad cProtection (c.setWidth 64) else .ok x
  | r => r

/-- A token instruction that sends, at commit: one TK operation, its lanes upward; a release of what the core holds goes before (R149). -/
def sendAct (d : Dst) (wide : Bool) (f : Nat → State → Cap → State × DWord) (s : State) : State :=
  let c := s.me
  match c.caps with
  | [] => s.land []
  | caps =>
    let s := s.releaseCore c.core
    if s.coreBusy c.core then s.stallMe stWaitc
    else
      let id := s.nextOp
      let s := s.issueOp s.cur { (default : EngineOp) with kind := .tokSend, path := some .tk, stamp := tgNone }
      let (s, rs) := tokLanes (f id) caps s
      (s.settleTok id).land (dstWrites d wide false rs)

/-! ## The instructions -/

/-- TOK.LOAD (R391). -/
def execTokLoad (d : Dst) (g : Guard) (f : TokField) (h sel : Src) (s : State) : Out :=
  let c := s.me
  if c.popTrap then .next (s.setMe (raiseExc c cProtection 0 0))
  else
    let ls := lanesOf (c.guardMask g)
    let val := fun l =>
      let (lo, len) := tokFieldSpan f (src64 s c 1 sel l).toNat
      let hd := src32 s c 0 h l
      match s.resHandle hd with
      | .ok x =>
        if (s.pool.get x.pa).poison.any fun w => decide (lo < 32 * w + 32) && decide (32 * w < lo + len) then
          .bad cUncorrectable (hd.setWidth 64)
        else Res.ok x
      | r => r
    match firstBad (ls.map fun l => (l, val l)) with
    | some (l, cause, a) => .next (s.setMe (raiseExc c cause a l))
    | none => .next (s.setMe (endSlot c d f.wide false
        (ls.map fun l => (l, BitVec.ofNat 64 (tokFieldVal (s.tok (src32 s c 0 h l)) f (src64 s c 1 sel l).toNat))) 0 c.sett.gens))

/-- TOK.HDR (R392, R213). -/
def execTokHdr (o : Ops1) (s : State) : Out :=
  .next (valueSlot s o.g o.d true false fun c l => match (s.gang c.gang).rows[bitsOf (src32 s c 0 o.a l) 0 6]? with
    | some r => r.hdr
    | none => 0)

/-- TOK.SEND (R394): handle, then control word, checked while the sett executes. -/
def execTokSend (o : Ops3) (s : State) : Out :=
  .next (effSlot (fun s =>
    let c := s.me
    s.captureLanes none ((lanesOf (c.guardMask o.g)).map fun l => (l, s.withCtl (src32 s c 2 o.c l) (s.resHandle (src32 s c 0 o.a l))))
      (fun l => [src64 s c 0 o.a l, src64 s c 1 o.b l, src64 s c 2 o.c l]) [.engine .send, .cap .tk])
    (sendAct o.d false fun id s p =>
      let (s, st) := s.sendLane s.cur id (capWord p 0) (p.args.getD 1 0) (capWord p 2)
      (s, BitVec.ofNat 64 st)) s)

/-- TOK.RETIRE (R395). -/
def execTokRetire (o : Ops1) (s : State) : Out :=
  .next (effSlot (fun s =>
    let c := s.me
    s.captureLanes none ((lanesOf (c.guardMask o.g)).map fun l => (l, s.resHandle (src32 s c 0 o.a l)))
      (fun l => [src64 s c 0 o.a l]) [])
    (fun s =>
      let g := s.me.gang
      let (s, rs) := tokLanes (fun s p =>
        let h := capWord p 0
        if (s.gang g).holdsRow h then ((s.releaseRow g h).freeToken (tokKey h), 0) else (s, 3)) s.me.caps s
      s.land (dstWrites o.d false false rs)) s)

/-- The image a TOK.SPAWN read, from its capture. -/
def spawnImage (p : Cap) : BitVec 1024 :=
  BitVec.ofNat 1024 ((List.range 16).foldl (fun a i => a + (p.args.getD (2 + i) 0).toNat * 2 ^ (64 * i)) 0)

/-- One lane of TOK.SPAWN (R396): status and handle. -/
def State.spawnLane (s : State) (k id : Nat) (p : Cap) : State × DWord :=
  let w := s.crew k
  let die := dieOf w.core
  match s.freeSlot die with
  | none => (s, BitVec.ofNat 64 (4 * 2 ^ 32))
  | some i =>
    let sum := p.args.getD 0 0
    let c := capWord p 1
    let (s, h) := s.takeSlot die i w.part (recPut (recClean (spawnImage p)) 576 64 sum.toNat) []
    match s.sendPlace die c with
    | (s, none) => (s.freeToken (tokKey h), BitVec.ofNat 64 (2 * 2 ^ 32))
    | (s, some spill) =>
      (s.sendPacket k id (tokKey h) sum c spill, BitVec.ofNat 64 ((if spill then 2 ^ 32 else 0) + h.toNat))

/-- The check part of TOK.SPAWN: a plain load of 128 bytes for each lane, and its control word (R396). -/
def spawnCheck (o : Ops3) (s : State) : State :=
  let c := s.me
  let k := s.cur
  let ls := lanesOf (c.guardMask o.g)
  if c.popTrap then s.setMe (raiseExc c cProtection 0 0)
  else
    let rs := ls.map fun l => (l, s.withCtl (src32 s c 2 o.c l)
      (withFarPoison s c 128 l (withPoison s c 128 (s.resGlobal c k .load (src64 s c 0 o.a l).toNat 128))))
    let first := ((firstBad rs).map (·.1)).getD 32
    let good := goodLocs rs
    let todo := good.filter fun p => decide (p.1 < first) && (s.loadBytes c c.sett.slot p.1 p.2 128).isNone
    if !todo.isEmpty then (todo.foldl (fun s p => s.askLoad k c.sett.slot p.1 p.2 128 true) s).stallMe stOperand
    else
      match firstBad rs with
      | some (l, cause, a) => s.setMe (raiseExc c cause a l)
      | none =>
        let cap := fun (p : Nat × Loc) =>
          let bs := (s.loadBytes c c.sett.slot p.1 p.2 128).getD []
          (⟨c.sett.slot, p.1, p.2, src64 s c 1 o.b p.1 :: src64 s c 2 o.c p.1 :: (List.range 16).map (lineWord bs)⟩ : Cap)
        let t := (s.fillTlbs c.part k good).allocate c good
        t.keep (good.map cap) (if good.isEmpty then [] else [c.wait (.engine .send), c.wait (.cap .tk)])

/-- TOK.SPAWN (R396). -/
def execTokSpawn (o : Ops3) (s : State) : Out :=
  .next (effSlot (spawnCheck o) (sendAct o.d true fun id s p => s.spawnLane s.cur id p) s)

end Sys2Proof.Machine
end

