-- ==== Sys2Proof/Machine/Carder.lean ====
section
/-!
DEFINITION. Sys2Proof/Machine/Carder.lean: carders, spill rings, the carousel and the replacement of operator tables and carousel programs
(R66, R209–R217, R429, R430).
-/
namespace Sys2Proof.Machine

/-! ## Reads of units that are no crew -/

/-- A byte as a unit of a partition reads it: no aperture leaf serves it (R20). -/
def State.unitLoc (s : State) (p : Nat) (level : Bool) (va : Nat) : Res :=
  match s.unitXlat p level .load va with
  | .ok dev pa mt => .ok ⟨.global, va, dev, pa, mt⟩
  | .bad cause => .bad cause (BitVec.ofNat 64 va)

/-- Lines that other devices have answered to a unit's read. -/
def State.linesOf (s : State) (tag : Nat) : List Line := (s.unitLines.filter fun e => e.1 == tag).map (·.2)

/-- `n` bytes of a unit's read, one value a byte. -/
def State.unitGather (s : State) (tag p : Nat) (level : Bool) (va n : Nat) : Gather :=
  gather ((List.range n).map fun i => s.readAddrs (s.linesOf tag) (s.unitLoc p level) [va + i])

/-- Ask other devices for the lines a unit's read wants. -/
def State.askUnit (s : State) (tag p : Nat) (level : Bool) (need : List (Nat × Nat)) : State :=
  need.foldl (fun s q =>
    let asked := s.outstanding.any fun x => match x.who, x.msg with
      | .unit t, .read _ _ pa _ _ _ => t == tag && x.dev == q.1 && pa == q.2 * 128
      | _, _ => false
    if asked then s else s.sendTo q.1 (.unit tag) fun m => .read s.dev m (q.2 * 128) 128 level p) s

/-- A unit's read is over: the lines it had are gone. -/
def State.dropLines (s : State) (tag : Nat) : State := { s with unitLines := s.unitLines.filter fun e => e.1 != tag }

/-- Tags of units. -/
def tagCarousel (die : Nat) : Nat := die
def tagCarder (die op : Nat) : Nat := 16 + carKey die op

/-! ## Command statuses (R423) -/

def csOk : Nat := 0
def csLaunch : Nat := 0x20
def csForm : Nat := 0x21
def csFault : Nat := 0x22
def csDigest : Nat := 0x23
def csBusy : Nat := 0x24
def csStamp : Nat := 0x25
def csCancelled : Nat := 0x26

/-- Change a command. -/
def State.updCmd (s : State) (k : Nat) (f : Cmd → Cmd) : State := { s with cmds := s.cmds.upd k f }

/-- A command's effect is over with a status; its completion record is next (R423). -/
def State.finishCmd (s : State) (k status detail : Nat) : State :=
  s.updCmd k fun c => { c with st := .finished, status := status, detail := detail }

/-! ## Acceptance (R209, R211, R430) -/

/-- Is this the record a packet came from? -/
def DieFrame.carries (f : DieFrame) (die op : Nat) (p : Packet) : Bool :=
  f.handle == 0 && f.dstDie == die && f.op == op &&
  (match p.src with
   | some (dev, _, _, seq) => f.src == some (dev, seq)
   | none => f.src.isNone && f.slot == p.slot)

/-- The issuer of a packet that changes dies: the crew of its TK operation, or the die it comes from (R30). -/
def State.packetIssuer (s : State) (p : Packet) : Nat × Nat :=
  match p.op with
  | some id => (1, (s.eop id).crew)
  | none => (0, p.fromDie.getD 0)

/-- Is a packet's frame lost, or one that its issuer sent before it: a link between dies delivers an issuer's frames in order (R209)? -/
def State.frameLost (s : State) (die op : Nat) (p : Packet) : Bool :=
  s.dieFrames.any (fun f => f.carries die op p && f.lost) ||
  (p.src.isNone && (s.dieFrames.takeWhile fun f => !f.carries die op p).any fun f =>
    f.lost && f.src.isNone && s.packetIssuer f.packet == s.packetIssuer p)

/-- A packet at its carder's port: a record that changes dies takes a new slot there (R209); nothing while its frame is lost or the pool is full. -/
def State.landPacket (s : State) (die op : Nat) (p : Packet) : Option (State × Packet) :=
  if p.fromDie.isNone && p.src.isNone then some (s, p)
  else if s.frameLost die op p then none
  else
    match s.freeSlot die with
    | none => none
    | some i =>
      let (s, h) := s.takeSlot die i p.part p.image p.poison
      some ({ s with
        dieFrames := s.dieFrames.map fun f => if f.carries die op p then { f with handle := h } else f
        tokSeen := match p.src with
          | some (dev, hd, ep, _) => s.tokSeen ++ [(dev, hd, ep)]
          | none => s.tokSeen },
        { p with slot := die * poolSlots + i, handle := h, fromDie := none, src := none })

/-- The carder has a record, so its sending slot may go: the acceptance returns (R209, R467). -/
def State.returnAcceptance (s : State) (die : Nat) (h : Word) : State :=
  let s := s.dieFrames.foldl (fun s f => match f.src with
    | some (dev, seq) => if f.dstDie == die && f.handle == h then { s with sent := s.sent ++ [.tolsal dev (.tokenAccepted seq)] } else s
    | none => s) s
  { s with dieFrames := (s.dieFrames.filter fun f => !(f.src.isSome && f.dstDie == die && f.handle == h)).map fun f =>
      if f.dstDie == die && f.handle == h then { f with accepted := true } else f }

/-- A carder accepts a record: it writes SUMMARY, marks HELD by its entry, and the token waits (R209, R212). -/
def State.acceptToken (s : State) (die op : Nat) (h : Word) (sum : DWord) : State :=
  let v := oeV (s.opEntry die op)
  let s := s.updTok (tokKey h) fun t => (t.set 576 64 sum.toNat).set 14 1 (if v then 0 else 1)
  (s.updCarder die op fun c => { c with waiting := c.waiting ++ [h] }).returnAcceptance die h

/-- A token packet's 16 bytes (R209). -/
def packetBytes (op : Nat) (p : Packet) : List Byte :=
  leBytes 16 (p.summary.toNat + p.handle.toNat * 2 ^ 64 + (op + if p.pri then 64 else 0) * 2 ^ 121)

/-- The issuer of a packet's write to a spill ring: core and context. -/
def State.packetFrom (s : State) (p : Packet) : Nat × Nat :=
  match p.op with
  | some id => ((s.eop id).core, (s.eop id).crew)
  | none => (noCore, noCtx)

/-- The first packet goes into the carder's spill ring, at the sender's level; a write that fails parks (R430, R32). -/
def State.spillPacket (s : State) (die op : Nat) (p : Packet) : State :=
  let c := s.carder die op
  let va := s.spillVa die op c.spillTail
  let part := (s.die die).spillPart
  match s.landPacket die op p with
  | none => s
  | some (t, q) =>
    match t.unitWrite part p.level va (packetBytes op q) with
    | .ok t => (t.updCarder die op fun c => { c with
        inbound := c.inbound.tail, spillTail := c.spillTail + 1, ring := c.ring ++ [q.handle] }).settlePacket p
    | .error cause =>
      let (core, ctx) := s.packetFrom p
      let at' := if core = noCore then die else dieOf core
      let (s, ok) := s.parkReq at' part unSend core ctx (.spillWrite die op) cause (BitVec.ofNat 64 va) 0 true false
      if ok then s.updCarder die op fun c => { c with sendParked := true } else s

/-- TOKEN_ACCEPT (R209, R211, R430): the first packet at a carder's port is accepted, or goes into the spill ring where its place is that. -/
def execTokenAccept (die op : Nat) (s : State) : Out :=
  let c := s.carder die op
  match c.inbound with
  | [] => .next s
  | p :: r =>
    if s.carderOut die || c.sendParked then .next s
    else if p.spill then .next (s.spillPacket die op p)
    else if c.waiting.length ≥ carderCap then .next s
    else
      match s.landPacket die op p with
      | none => .next s
      | some (s, q) =>
        .next (((s.updCarder die op fun c => { c with inbound := r }).acceptToken die op q.handle q.summary).settlePacket p)

/-- TOKEN_ACCEPT_RETURN (R209): the acceptance of a record sent to another die has returned, and its sending slot is freed. -/
def execTokenAcceptReturn (slot : Nat) (s : State) : Out :=
  if s.dieFrames.any fun f => f.src.isNone && f.slot == slot && f.accepted then
    .next ({ s with dieFrames := s.dieFrames.filter fun f => !(f.src.isNone && f.slot == slot && f.accepted) }.freeToken slot)
  else .next s

/-- The record of the spill ring's first entry is lost to it: freed as TOK.RETIRE frees it, with a record (R35, R444). -/
def State.dropSpill (s : State) (die op : Nat) : State :=
  let c := s.carder die op
  let h := c.ring.headD 0
  let part := (s.die die).spillPart
  let s := (if s.tokLive h then s.freeToken (tokKey h) else s).emit die part (faultRec cRowFreed 0 part die noCore unCarder noCtx 0xFFFF h.toNat 0)
  (s.updCarder die op fun c => { c with spillHead := c.spillHead + 1, ring := c.ring.tail, parked := false }).returnAcceptance die h

/-- The carder's read of its ring's first entry: the packet; a failed or poisoned read; a line of another device wanted. -/
def State.readSpill (s : State) (die op : Nat) : Gather :=
  s.unitGather (tagCarder die op) (s.die die).spillPart (s.die die).spillLevel (s.spillVa die op (s.carder die op).spillHead) 16

/-- CARDER_SPILL_ACCEPT (R430, R211): the ring's head is accepted whenever there is room. -/
def execCarderSpillAccept (die op : Nat) (s : State) : Out :=
  let c := s.carder die op
  let d := s.die die
  if s.carderOut die || c.parked || c.spillHead ≥ c.spillTail || c.waiting.length ≥ carderCap then .next s
  else
    let g := s.readSpill die op
    match g.bad with
    | some (cause, a) =>
      let (s, ok) := s.parkReq die d.spillPart unCarder noCore noCtx (.spill die op) cause a 0 false false
      .next (if ok then s.updCarder die op fun c => { c with parked := true } else s)
    | none =>
      if !g.need.isEmpty then .next (s.askUnit (tagCarder die op) d.spillPart d.spillLevel g.need)
      else
        let s := s.dropLines (tagCarder die op)
        if g.poisoned then .next (if s.recRoom die 1 then s.dropSpill die op else s)
        else
          let w := leNat g.table
          let h := BitVec.ofNat 32 (w / 2 ^ 64)
          let s := s.updCarder die op fun c => { c with spillHead := c.spillHead + 1, ring := c.ring.tail }
          .next (if s.tokLive h then s.acceptToken die op h (BitVec.ofNat 64 w) else s)

/-! ## Batts (R212–R214) -/

/-- BuildHeader of R213 for a record among the handles of its batt. -/
def buildHeader (b : BitVec 1024) (handles : List Word) : DWord :=
  let prow := if rcParent b ≠ 0 && handles.contains (rcParent b) then handles.findIdx (· == rcParent b) else 0xFF
  BitVec.ofNat 64 (recGet b 22 2 * 2 ^ 62 + recGet b 528 14 * 2 ^ 48 + rcPos b * 2 ^ 24 + prow * 2 ^ 16 + recGet b 524 4 * 2 ^ 12 +
    recGet b 512 12)

/-- The 4-byte words of a record that BuildHeader reads: KIND, POS, PARENT, and CHUNK with MFLAGS and SSLOT (R208). -/
def headerWords : List Nat := [0, 5, 7, 16]

/-- The rows of a batt; the header of a record is free when a word that it is built from is poisoned (R91, log 3). -/
def State.battRows (s : State) (hs : List Word) : List Row :=
  ((List.range hs.length).zip hs).map fun p =>
    { (default : Row) with
      handle := p.2
      hdr := if headerWords.any (s.pool.get (tokKey p.2)).poison.contains then Config.freeWord (s.free + p.1)
        else buildHeader (s.tok p.2) hs }

/-- Do a carder's table and entry let it form and dispatch: table not frozen, entry valid, partition in place (R212, R451)? -/
def State.carderRuns (s : State) (die op : Nat) : Bool :=
  !(s.die die).opTable.frozen && oeV (s.opEntry die op) && !s.carderOut die

/-- A batt of the oldest waiting tokens forms. -/
def State.formBatt (s : State) (die op : Nat) : State :=
  let hs := (s.carder die op).waiting.take (oeHeight (s.opEntry die op))
  let rows := s.battRows hs
  { s.updCarder die op fun c => { c with batt := some ⟨rows⟩, boarding := false, waiting := c.waiting.drop hs.length } with
    free := s.free + hs.length }

/-- May a carder form a batt (R212)? -/
def State.mayForm (s : State) (die op : Nat) : Bool :=
  s.carderRuns die op && (s.carder die op).batt.isNone && !(s.carder die op).waiting.isEmpty

/-- BATT_FORM (R212, R213): as many tokens wait as the batt is high. -/
def execBattForm (die op : Nat) (s : State) : Out :=
  .next (if s.mayForm die op && decide ((s.carder die op).waiting.length ≥ oeHeight (s.opEntry die op)) then s.formBatt die op else s)

/-- CARDER_TIMEOUT (R211, R212): the oldest token has waited TIMEOUT cycles. -/
def execCarderTimeout (die op : Nat) (s : State) : Out :=
  .next (if s.mayForm die op && oeTimeout (s.opEntry die op) != 0 then s.formBatt die op else s)

/-- A formed batt becomes a gang that waits for placement (R214). -/
def State.dispatch (s : State) (die op : Nat) (b : Batt) : State :=
  let d := s.die die
  let job : BattJob := ⟨die, op, d.tableGen, d.opTable.part, d.copies.get op, b.rows⟩
  (s.updCarder die op fun c => { c with batt := none, boarding := false }).updDie die fun d => { d with placeq := d.placeq ++ [.batt job] }

/-- BATT_DISPATCH (R214): at once when pinned, otherwise once the pass it boards has begun. -/
def execBattDispatch (die op : Nat) (s : State) : Out :=
  let c := s.carder die op
  match c.batt with
  | some b => .next (if s.carderRuns die op && (oePin (s.opEntry die op) || c.boarding) then s.dispatch die op b else s)
  | none => .next s

/-! ## The carousel (R216) -/

/-- Number of entries of a die's program. -/
def State.carCount (s : State) (die : Nat) : Nat := regWord (s.die die).carousel 0 1 + 1

/-- Entry j of a die's program. -/
def State.carEntry (s : State) (die j : Nat) : BitVec 256 := BitVec.ofNat 256 (regWord (s.die die).carousel (32 + 32 * j) 32)

def ceOp (e : BitVec 256) : Nat := bitsOf e 56 8
def ceTiles (e : BitVec 256) : Nat := bitsOf e 128 32
def ceUnit (e : BitVec 256) : Nat := bitsOf e 64 16 * 64
def ceBase (e : BitVec 256) : Nat := bitsOf e 0 56

/-- Destination k of an entry of a die: the ring, when it is valid. -/
def ceDest (die : Nat) (e : BitVec 256) (k : Nat) : Option RingSel :=
  if e.getLsbD (192 + 16 * k + 15) then some (.yard (die * 48 + bitsOf e (192 + 16 * k + 2) 6) (bitsOf e (192 + 16 * k) 2)) else none

/-- Does operator op have a formed batt that waits to board entry j? -/
def State.waitsToBoard (s : State) (die op j : Nat) : Bool :=
  let c := s.carder die op
  let e := s.opEntry die op
  s.carderRuns die op && c.batt.isSome && !c.boarding && !oePin e && oeLayer e == j

/-- Does the carousel run a pass of entry j when it comes up (R216)? -/
def State.entryWaits (s : State) (die j : Nat) : Bool := s.waitsToBoard die (ceOp (s.carEntry die j) % 64) j

/-- The carousel comes up to entry `next` of n from where it stands; passing from the last entry to entry 0 completes a rotation, whose
length in cycles is free (R216, log 3). -/
def State.moveTo (s : State) (die next n : Nat) : State :=
  if next < n then s.updDie die fun d => { d with standing := next }
  else (s.updDie die fun d => { d with standing := next - n, rot := d.rot + 1, last := Config.free32 s.free }).bumpFree

/-- A pass whose parked read has gone through takes up where it stood (R191). -/
def Die.resumePass (d : Die) : Option (Pass × List Pass) :=
  (d.aside.find? fun p => !p.parked).map fun p => (p, d.aside.filter fun q => q.entry != p.entry)

/-- CAROUSEL_PASS_BEGIN (R216): the next entry with a waiting batt starts its pass, one whose read is parked left out (R191); with none, the
carousel idles. A replacement that waits takes effect first (R217). -/
def execCarouselPassBegin (die : Nat) (s : State) : Out :=
  let d := s.die die
  let n := s.carCount die
  if !d.carousel.present || d.carousel.frozen || d.pass.isSome || s.carderOut die then .next s
  else
    match d.resumePass with
    | some (p, rest) => .next (s.updDie die fun d => { d with pass := some p, aside := rest })
    | none =>
      if !d.pend.isEmpty then .next s
      else
        match (List.range n).find? fun k => s.entryWaits die ((d.standing + k) % n) && d.aside.all fun p => p.entry != (d.standing + k) % n with
        | none => .next s
        | some k =>
          .next ((s.moveTo die (d.standing + k) n).updDie die fun d =>
            { d with pass := some { (default : Pass) with entry := (d.standing + k) % n } })

/-- A pass begins as its first tile is written: the batts of its layer that have formed board it (R214). -/
def State.board (s : State) (die j : Nat) : State :=
  (List.range 64).foldl (fun s op =>
    if s.waitsToBoard die op j then s.updCarder die op fun c => { c with boarding := true } else s) s

/-- The rings of an entry's valid destinations, with their waiters. -/
def carDests (die : Nat) (e : BitVec 256) : List (Nat × RingSel) :=
  (List.range 4).filterMap fun k => (ceDest die e k).map fun r => (k, r)

/-- One destination takes the tile when its region has room and those that came before have filled it (R67, R68, R191). -/
def State.fillDest (s : State) (die k : Nat) (r : RingSel) (bs : List Byte) (bad : List Nat) : State × Bool :=
  match s.ringGeo r with
  | none => (s, false)
  | some g =>
    let s := s.arriveFill r (carWaiter die k)
    if s.mayFill r (carWaiter die k) then
      let pa := g.pa + (s.ring r).fill * g.unit
      (((s.perform (bytesAt pa bs)).poisonAt (bad.map (pa + ·))).endFill r (carWaiter die k) 0 (carWaiter die k), true)
    else (s, false)

/-- The tile goes to the destinations that have room; with the last of them the next tile is up, and with the last tile the pass ends. -/
def State.giveTile (s : State) (die : Nat) (p : Pass) : State :=
  let e := s.carEntry die p.entry
  let ds := carDests die e
  let (s, given) := ds.foldl (fun (x : State × List Nat) q =>
    if x.2.contains q.1 then x
    else
      let (t, ok) := x.1.fillDest die q.1 q.2 p.bytes p.bad
      if ok then (t, x.2 ++ [q.1]) else x) (s, p.given)
  let all := ds.all fun q => given.contains q.1
  let s := if !p.begun && (all || !given.isEmpty) then s.board die p.entry else s
  let p := { p with begun := p.begun || all || !given.isEmpty, given := given }
  if all then
    if p.tile + 1 ≥ ceTiles e then
      let s := s.updDie die fun d => { d with pass := none }
      if p.passed then s else s.moveTo die (p.entry + 1) (s.carCount die)
    else s.updDie die fun d => { d with pass := some { (default : Pass) with
      entry := p.entry, tile := p.tile + 1, begun := p.begun, passed := p.passed } }
  else s.updDie die fun d => { d with pass := some p }

/-- What the read of a pass's tile gives (R191). -/
def State.readTile (s : State) (die : Nat) (p : Pass) : Gather :=
  let d := s.die die
  let e := s.carEntry die p.entry
  let va := ceBase e + p.tile * ceUnit e
  gather ((List.range (ceUnit e)).map fun i =>
    if p.lost.contains (lostPage 0 (va + i)) then .poison
    else s.readAddrs (s.linesOf (tagCarousel die)) (s.unitLoc d.carousel.part d.carousel.level) [va + i])

/-- The pass with its tile's bytes. -/
def State.loadTile (s : State) (die : Nat) (p : Pass) (g : Gather) : State × Pass :=
  (s.dropLines (tagCarousel die), { p with
    loaded := true, parked := false, bytes := g.table, bad := (List.range g.vals.length).filter fun i => (g.vals.getD i none).isNone })

/-- A pass's read parks; the pass steps aside, and the carousel goes on with the next entry (R191). -/
def State.parkTile (s : State) (die : Nat) (p : Pass) (cause : BitVec 8) (a : DWord) : State × Bool :=
  s.parkReq die (s.die die).carousel.part unCarousel noCore noCtx (.carousel die p.entry) cause a 0 false false

/-- CAROUSEL_TILE_FILL (R191, R216): the tile under way is read, then written to each destination as room allows. -/
def State.tileFill (s : State) (die : Nat) : State :=
  let d := s.die die
  match d.pass with
  | none => s
  | some p =>
    if s.carderOut die then s
    else if p.loaded then s.giveTile die p
    else
      let g := s.readTile die p
      match g.bad with
      | some (cause, a) =>
        let (s, ok) := s.parkTile die p cause a
        if ok then
          let s := s.updDie die fun d => { d with pass := none, aside := d.aside ++ [{ p with parked := true, passed := true }] }
          if p.passed then s else s.moveTo die (p.entry + 1) (s.carCount die)
        else s
      | none =>
        if !g.need.isEmpty then s.askUnit (tagCarousel die) d.carousel.part d.carousel.level g.need
        else
          let (s, p) := s.loadTile die p g
          s.giveTile die p

/-- The parked read of a pass goes again (R34): the tile is read, or its read parks anew. `lost`: the page that a cancellation takes from it. -/
def State.rereadTile (s : State) (die entry : Nat) (lost : Option Nat) : State :=
  match (s.die die).aside.find? fun p => p.entry == entry with
  | none => s
  | some p =>
    let p := { p with lost := lost.toList ++ p.lost, parked := false }
    let g := s.readTile die p
    let (s, p) := match g.bad with
      | some (cause, a) =>
        let (s, ok) := s.parkTile die p cause a
        (s, { p with parked := ok })
      | none => if g.need.isEmpty then s.loadTile die p g else (s, p)
    s.updDie die fun d => { d with aside := d.aside.map fun q => if q.entry == entry then p else q }

/-- CAROUSEL_TILE_FILL. -/
def execCarouselTileFill (die : Nat) (s : State) : Out := .next (s.tileFill die)

/-! ## Grants (R66) -/

/-- The mode words that a launch record gives its grant j. -/
def grantModes (lrec : BitVec 4096) (j : Nat) : List DWord := (List.range 4).map (modeWord lrec j)

/-- A grantee is granted one yard: nothing when another configuration is in place. -/
def State.grantYard (s : State) (who : Bool × Nat) (y : Nat) (ms : List DWord) : Option State :=
  let x := s.yards.get y
  if x.configured then
    if x.modes == ms then
      some { s with yards := s.yards.put y { x with grants := if x.grants.contains who then x.grants else x.grants ++ [who] } }
    else none
  else some { s with yards := s.yards.put y ⟨true, ms, [who], Tbl.empty⟩ }

/-- A grantee is granted every yard of a launch record, or none. -/
def State.grantAll (s : State) (who : Bool × Nat) (lrec : BitVec 4096) : Option State :=
  (List.range 4).foldl (fun (acc : Option State) j =>
    match acc, grantOf lrec j with
    | some s, some (d, y) => s.grantYard who (d * 48 + y) (grantModes lrec j)
    | _, none => acc
    | none, _ => none) (some s)

/-! ## Replacement (R217) -/

/-- Valid operators of a table's image. -/
def validOps (r : Region) : List Nat := (List.range 64).filter fun op => oeV (BitVec.ofNat 256 (regWord r (32 * op) 32))

/-- The waiting tokens and formed batts of a partition's carders go to the shadow store (R96): those of the dies whose table is its own. -/
def State.saveCarders (s : State) (p : Nat) : State :=
  let mine := fun (k : Nat) => (s.die (k / 64)).opTable.present && (s.die (k / 64)).opTable.part == p
  let saved := s.carders.cells.filter fun e => mine e.1 && (!e.2.waiting.isEmpty || e.2.batt.isSome)
  let s := s.updPart p fun x => { x with savedCarders := x.savedCarders ++ saved.map fun e =>
    (e.1, { (default : Carder) with waiting := e.2.waiting, batt := e.2.batt, boarding := e.2.boarding }) }
  { s with carders := ⟨s.carders.cells.map fun e => (e.1, if mine e.1 then { e.2 with waiting := [], batt := none, boarding := false } else e.2)⟩ }

/-- They return to the carders of a die, before what has come since. -/
def State.restoreCarders (s : State) (p die : Nat) : State :=
  let back := (s.part p).savedCarders.filter fun e => e.1 / 64 == die
  let s := back.foldl (fun (s : State) e => { s with carders := s.carders.upd e.1 fun c => { c with
    waiting := e.2.waiting ++ c.waiting, batt := e.2.batt.or c.batt, boarding := if e.2.batt.isSome then e.2.boarding else c.boarding } }) s
  s.updPart p fun x => { x with savedCarders := x.savedCarders.filter fun e => e.1 / 64 != die }

/-- HELD of every waiting token follows its entry (R212). -/
def State.markHeld (s : State) (die : Nat) : State :=
  (List.range 64).foldl (fun s op =>
    let v := oeV (s.opEntry die op)
    (s.carder die op).waiting.foldl (fun s h => s.updTok (tokKey h) fun t => t.set 14 1 (if v then 0 else 1)) s) s

/-! ## Links between dies (R209) -/

/-- DIE_LINK_RESEND (R209): a lost frame between dies is sent again. -/
def execDieLinkResend (k : Nat) (s : State) : Out :=
  .next { s with dieFrames := ((List.range s.dieFrames.length).zip s.dieFrames).map fun p =>
    if p.1 = k then { p.2 with lost := false } else p.2 }

end Sys2Proof.Machine
end

