-- ==== Sys2Proof/Machine/EngineRun.lean ====
section
/-!
DEFINITION. Sys2Proof/Machine/EngineRun.lean: the events that move engine operations, plain writes and ring waiters forward (R67, R68, R85, R166).
-/
namespace Sys2Proof.Machine

/-! ## Acceptance (R166, R177) -/

/-- Is an operation the first of its queue that has not been accepted (R166)? -/
def State.firstIssued (s : State) (id : Nat) : Bool :=
  ((s.queues.get (s.eop id).key).find? fun j => (s.eop j).stage == .issued) == some id

/-- An operation's acceptance checks run. -/
def State.accept (s : State) (id : Nat) : State :=
  let o := s.eop id
  match o.kind with
  | .copy | .cond | .fired => s.acceptCopy id
  | .mc => s.acceptMc id
  | .coll => s.acceptColl id
  | _ => s.updOp id fun o => { o with accepted := true, stage := .accepted }

/-- ENGINE_ACCEPT (R166, R177): operations are accepted in issue order. -/
def execEngineAccept (op : Nat) (s : State) : Out :=
  let o := s.eop op
  if o.live && o.stage == .issued && s.firstIssued op && !s.opAway o then .next (s.accept op) else .next s

/-! ## Performing and completing (R166, R174) -/

/-- An event that only ever answers a next state, as the function of states it is. -/
def after (f : State → Out) (s : State) : State :=
  match f s with
  | .next t => t
  | _ => s

/-- The payload of an accepted operation. -/
def State.payload (s : State) (id : Nat) : State :=
  let o := s.eop id
  if !o.live || s.opAway o then s
  else
    match o.kind with
    | .copy | .fired => if o.stage == .accepted then s.copyPayload id else s
    | .cond => s.condStep id
    | .coll =>
      if o.stage == .accepted then s.collSend id
      else if o.stage == .started then after (execCollectiveInstanceComplete id []) s
      else s
    | .mma | .tld | .accNew | .accZero | .accLd | .accSt => s.runMatrix id
    | _ => s

/-- May a firing's stamp be written: the stamps of one slot follow the firings (R181)? -/
def State.stampTurn (s : State) (id : Nat) : Bool :=
  let o := s.eop id
  o.kind != .fired || (s.firedOpen o.core o.slot).all fun j => decide (j ≥ id)

/-- What an operation does next: its payload, then its stamp and its completion. -/
def State.advanceOp (s : State) (id : Nat) : State :=
  let o := s.eop id
  if !o.live || s.opAway o then s
  else if o.kind == .mc then s.mcStamp id
  else if o.kind == .tokSend then s.settleTok id
  else if o.stage == .performed || o.stage == .done then (if s.stampTurn id then s.stampOp id else s)
  else s.payload id

/-- ENGINE_OPERATION_COMPLETE (R166, R174). -/
def execEngineOperationComplete (op : Nat) (s : State) : Out := .next (s.advanceOp op)

/-- HOME_ACCESS_PERFORM (R85): a request that has come to its home performs there. -/
def execHomeAccessPerform (sel : HomeSel) (s : State) : Out :=
  match sel with
  | .engine op => .next (s.payload op)
  | .inflight k =>
    match s.inflight[k]? with
    | none => .next s
    | some r =>
      if !s.mayPerform r || (s.inflight.take k).any (fun q => q.core == r.core) then .next s
      else if r.dev = s.dev && r.bytes.any fun b => !isBacked b.1 then .fault .unbacked
      else .next ({ s with inflight := s.inflight.eraseIdx k }.performReq r)

/-- COMBINING_BUFFER_TIMEOUT (R79): a buffered line has waited long enough; the buffer goes on its way. -/
def execCombiningBufferTimeout (core line : Nat) (s : State) : Out :=
  if (s.core core).cb.any fun e => e.line == line then .next (s.flushCb core) else .next s

/-! ## Rings (R67, R68) -/

/-- The unit behind a waiter number goes on. -/
def State.runWaiter (s : State) (k : Nat) : State :=
  if k ≥ 2 ^ 60 then s.tileFill ((k - 2 ^ 60) / 4)
  else if k % 16 = 0 then s.runMatrix (k / 16)
  else
    match execMulticastTileDeliver (k / 16) (k % 16 - 1) s with
    | .next s => s
    | _ => s

/-- YARD_REGION_FILL (R67, R68, R72): the first waiting fill of a ring proceeds once its buffer is empty; a line buffer's writing stream appends a
line. -/
def execYardRegionFill (r : RingSel) (s : State) : Out :=
  let x := s.ring r
  match x.fillers with
  | k :: _ => if x.canFill then .next (s.runWaiter k) else .next s
  | [] => .next (s.fillLine r)

/-- YARD_REGION_CONSUME (R67, R68, R72): the first waiting consume of a ring proceeds once its buffer is full; a line buffer's reading stream
releases a line. -/
def execYardRegionConsume (r : RingSel) (s : State) : Out :=
  let x := s.ring r
  match x.consumers with
  | k :: _ => if x.canRead then .next (s.runWaiter k) else .next s
  | [] => .next (s.freeLine r)

end Sys2Proof.Machine
end

