-- ==== Sys2Proof/Machine/FaultQ.lean ====
section
/-!
DEFINITION. Sys2Proof/Machine/FaultQ.lean: walks in flight (R28, R355), the delivery of fault records (R443), and the replay and cancellation of
parked requests (R34–R36).
-/
namespace Sys2Proof.Machine

/-! ## Walks (R28, R29, R355) -/

/-- One line of a prefetch: its translation is cached; a line of this device enters the die cache, and a normal one of .L1 the L1, as a load miss would
have it (R79, R81, R86); a fault or an uncached line drops it (R355). The line of another device is asked for, unless the core still holds a
write to it. -/
def State.prefetchLine (s : State) (w : Walk) (va : Nat) : State :=
  let core := (s.crew w.crew).core
  if va ≥ 2 ^ 56 then s
  else
    match s.xlat w.part w.crew w.level false .load va with
    | .bad _ => s
    | .ok dev pa mt =>
      let s := s.tlbFill w.part w.crew va
      if mt ≥ 2 then s
      else if dev = s.dev then
        let s := s.touchDc (pa / 128) mt false
        if w.dieCacheOnly || mt ≠ 0 then s else s.fillL1 core dev pa
      else if w.dieCacheOnly || mt ≠ 0 || s.holdsLines core dev pa 1 || (s.core core).l1.any fun e => e.dev == dev && e.line == pa / 128 then s
      else s.sendTo dev (.pref w.crew core w.op true) fun q => .read s.dev q (pa / 128 * 128) 128 w.level w.part

/-- A prefetch is complete when none of its lines is on its way (R355). -/
def State.endPref (s : State) (k core op : Nat) : State :=
  if s.outstanding.any fun o => match o.who with
    | .pref j q n _ => j == k && q == core && n == op
    | _ => false
  then s else s.completeOn k .ld op

/-- WALK_COMPLETE (R28, R355): the lines of a prefetch have come or been dropped, and its LD operation is complete. -/
def execWalkComplete (k : Nat) (s : State) : Out :=
  match s.walks[k]? with
  | none => .next s
  | some w =>
    let s := w.vas.foldl (fun s va => s.prefetchLine w va) s
    .next ({ s with walks := s.walks.eraseIdx k }.endPref w.crew (s.crew w.crew).core w.op)

/-! ## Delivery of fault records (R443) -/

/-- LOG2N of FR_RING. -/
def Partition.frLog (p : Partition) : Nat := bitsOf p.frRing 59 5

/-- May a partition's next record be written: a ring with a free place, and no failed delivery that waits for a write of R443? -/
def Partition.frRoom (p : Partition) : Bool :=
  p.present && !p.frBlocked && decide (p.frLog ≠ 0) && decide (p.frSeq < p.frRead.toNat + 2 ^ p.frLog)

/-- May a die's record r be the next of its partition: a record whose delivery has failed goes before every other? -/
def State.recTurn (s : State) (die : Nat) (r : PendRec) : Bool :=
  r.tried || !(s.dies.cells.any fun e => e.2.recs.any fun q => q.part == r.part && q.tried) &&
    ((s.die die).recs.find? fun q => q.part == r.part) == some r

/-- The first record of a die that can be written. -/
def State.nextRec (s : State) (die : Nat) : Option PendRec :=
  (s.die die).recs.find? fun r => (s.part r.part).frRoom && s.recTurn die r

/-- A delivery that fails leaves the record where it is; the partition's records wait behind it. -/
def State.recFails (s : State) (die : Nat) (r : PendRec) : State :=
  (s.updPart r.part fun p => { p with frBlocked := true }).updDie die fun d => { d with
    recs := d.recs.map fun q => if q == r then { q with tried := true } else q }

/-- Both writes of a delivery: the record, then its stamp, at level 1. -/
def State.writeRec (s : State) (r : PendRec) : Except (BitVec 8) State :=
  let p := s.part r.part
  let bytes := leBytes 32 (r.bits.toNat / 2 ^ 64 * 2 ^ 64 + p.frSeq)
  match s.unitWrite r.part true (bitsOf p.frRing 12 44 * 4096 + 32 * (p.frSeq % 2 ^ p.frLog)) bytes with
  | .error c => .error c
  | .ok s => if p.frStamp == 0 then .ok s else s.unitWrite r.part true p.frStamp.toNat (leBytes 8 (p.frSeq + 1))

/-- FAULT_RECORD_DELIVER (R443): record s goes to its ring place, and the record stamp becomes s + 1. -/
def execFaultRecordDeliver (die : Nat) (s : State) : Out :=
  match s.nextRec die with
  | none => .next s
  | some r =>
    match s.writeRec r with
    | .error _ => .next (s.recFails die r)
    | .ok s => .next ((s.updPart r.part fun p => { p with frSeq := p.frSeq + 1 }).updDie die fun d => { d with recs := d.recs.erase r })

/-! ## Requests of other devices at their home (R20, R87, R464) -/

/-- Does the home serve a request: the address is backed, and a yard's or core's cluster is the partition's (R20)? -/
def State.serves (s : State) (p pa n : Nat) : Bool :=
  isBacked pa && isBacked (pa + n - 1) && (!isAperture pa || s.holdsAperture p s.dev pa 1)

/-- Words of a range that are poisoned, counted from its first. -/
def State.badWords (s : State) (pa n : Nat) : List Nat :=
  ((List.range ((pa + n + 3) / 4 - pa / 4)).filter fun i => s.poison.contains (pa / 4 + i))

/-- Where a request aims: partition, address, bytes, whether it writes, whether it is an atomic. -/
def msgAim : TolsalMsg → Nat × Nat × Nat × Bool × Bool
  | .read _ _ pa n _ p => (p, pa, n, false, false)
  | .write _ _ pa bs _ p => (p, pa, bs.length, true, false)
  | .atomic _ _ pa _ ty _ _ _ p => (p, pa, elemBits ty / 8, true, true)
  | .reserve _ _ pa p => (p, pa, 8, true, false)
  | .unreserve _ _ pa _ p => (p, pa, 8, true, false)
  | _ => (0, 0, 1, false, false)

/-- A request performs at its home and is answered (R153, R464); a reservation once it holds its word (R180). -/
def State.performRemote (s : State) : TolsalMsg → State
  | .read src seq pa n _ _ => s.answerTo src seq (s.mem.readList pa n) (s.badWords pa n)
  | .write src seq pa bytes _ _ => (s.perform (bytesAt pa bytes)).answerTo src seq [] []
  | .atomic src seq pa op ty x y _ _ =>
    let n := elemBits ty / 8
    (if (s.badWords pa n).isEmpty then s.rmwAt op ty pa x.toNat y.toNat else s).answerTo src seq (s.mem.readList pa n) (s.badWords pa n)
  | .reserve src seq pa _ => s.reserve pa src seq
  | .unreserve src seq pa n _ => (s.unreserveAt pa src n).answerTo src seq [] []
  | _ => s

/-- A request that its home refuses parks in the fault queue of the die it aims at, with the home's address (R87; log 65); a full queue or record
buffer holds it with its sender. -/
def State.parkRemote (s : State) (src seq : Nat) (m : TolsalMsg) : State :=
  let (p, pa, _, write, atomic) := msgAim m
  let die := dieOfAddr pa % Config.dies
  match (s.die die).freeFq with
  | some i =>
    if s.recRoom die 1 then
      s.park die i ⟨true, p, cProtection, BitVec.ofNat 64 pa, 0, .remote src seq m, unLink, noCore, noCtx, write, atomic, false, 0, 0⟩
    else s
  | none => s

/-- A request of another device: performed, or parked. -/
def State.serveRemote (s : State) (m : TolsalMsg) : State :=
  let (p, pa, n, _, _) := msgAim m
  match m with
  | .read src seq .. | .write src seq .. | .atomic src seq .. | .reserve src seq .. | .unreserve src seq .. =>
    if s.serves p pa n then s.performRemote m else s.parkRemote src seq m
  | _ => s

/-- A cancelled request's issuer is told the cause (R34, R35). -/
def State.failTo (s : State) (src seq : Nat) (cause : BitVec 8) : State :=
  let m : TolsalMsg := .failed seq cause
  { s with seen := s.seen ++ [(src, seq, m)] }.tell src m

/-! ## Parked requests (R33–R36) -/

/-- The issuer of an entry (R30, R34). -/
def FqEntry.issuer (e : FqEntry) : Nat × Nat × Nat := (e.unit, e.core, e.ctx)

/-- The entry is next of its issuer: the entries that FQ_RESUME named go in the order in which they parked (R34). -/
def Die.fqTurn (d : Die) (e : FqEntry) : Bool :=
  d.fq.vals.all fun x => !x.valid || x.act == 0 || x.issuer != e.issuer || decide (e.order ≤ x.order)

/-- The entry is free. -/
def State.freeFqEntry (s : State) (die entry : Nat) : State := s.updDie die fun d => { d with fq := d.fq.put entry default }

/-- An operation whose parked request goes again: its acceptance, or its payload. -/
def State.rerunOp (s : State) (id : Nat) : State :=
  let o := s.eop id
  if o.stage != .parked then s
  else if !o.accepted then (s.updOp id fun o => { o with stage := .issued }).accept id
  else
    (s.updOp id fun o => { o with stage := if !o.reserved then .accepted else if o.kind == .coll then .started else .blocked }).advanceOp id

/-- A bench element's access goes again: the stream's entry, the retire unit's request unless it has been discarded (R252), or the demand at the
heads. -/
def State.rerunElem (s : State) (b e : Nat) : State :=
  let s := s.updElem b e fun t => { t with parked := false }
  let x := s.bench b
  match (x.elem e).strTok with
  | some k => s.stream b e k
  | none =>
    match x.retireQ.find? fun q => q.elem == e && q.iter == x.retired with
    | some q => s.retireReq b q
    | none =>
      match x.chan e 0 with
      | v :: _ => if x.unitSends e then s else s.memDemand b e v
      | [] => s

/-- The address of the access that a bench element has parked, its iteration and its invocation. -/
def Bench.parkedAt (x : Bench) (e : Nat) : Nat × Nat × Nat :=
  let t := x.elem e
  match t.strTok with
  | some k => (streamAddr (x.mem e) k t.strPos, t.read, t.inv)
  | none =>
    match x.retireQ.find? fun q => q.elem == e && q.iter == x.retired with
    | some q => (q.addr, q.iter, q.inv)
    | none =>
      let v := (x.chan e 0).headD default
      ((x.memArgs e).1, tagIter x.retired v.iter, v.inv)

/-- Does an LDKV's sett still wait on it (R35)? -/
def State.waitsOn (s : State) (k epoch : Nat) : Bool := (s.crew k).place != .free && (s.crew k).epoch == epoch

/-- A parked LDKV is translated again, whether or not its sett waits on it still (R34, R36): its slot goes on; a page that is still absent parks it
again, with a new record. Any other failure is the sett's own (R32). -/
def State.rerunLoad (s : State) (k epoch die : Nat) (e : FqEntry) : State :=
  let waits := s.waitsOn k epoch
  match s.kvXlat e.part die e.aux e.addr.toNat false, (s.die die).freeFq with
  | .bad cause, some i =>
    if cause == cKvMiss then
      let s := s.park die i { e with act := 0 }
      if waits then s.updCrew k fun c => { c with sett := { c.sett with kvParked := c.sett.kvParked.map fun p => (p.1, i) } } else s
    else if waits then s.updCrew k fun c => { c with stall := stNone, sett := { c.sett with kvParked := none } }
    else s
  | _, _ =>
    let s := s.kvFill e.part die e.aux e.addr.toNat
    if waits then s.updCrew k fun c => { c with stall := stNone, sett := { c.sett with kvParked := none } } else s

/-- A parked request is translated again (R34): it performs, or parks again with a new record. -/
def State.replay (s : State) (die : Nat) (e : FqEntry) : State :=
  match e.who with
  | .ldkv k _ _ epoch => s.rerunLoad k epoch die e
  | .op id => s.rerunOp id
  | .page id key => s.rerunPage id key
  | .stamp id => (s.updOp id fun o => { o with stage := .performed }).stampOp id
  | .branch id b =>
    let s := s.updBranch id b fun x => { x with parked := false }
    if (s.eop id).accepted then after (execMulticastTileDeliver id b) s else if (s.eop id).live then s.accept id else s
  | .branchStamp id b => (s.updBranch id b fun x => { x with parked := false }).mcStamp id
  | .bench b e => s.rerunElem b e
  | .benchRecord b => (s.updBench b fun x => { x with parked := false }).writeRecord b ((s.bench b).fin.getD 0)
  | .remote _ _ m => s.serveRemote m
  | .carousel die entry => s.rereadTile die entry none
  | .spill die op => after (execCarderSpillAccept die op) (s.updCarder die op fun c => { c with parked := false })
  | .spillWrite die op =>
    match (s.carder die op).inbound with
    | p :: _ => (s.updCarder die op fun c => { c with sendParked := false }).spillPacket die op p
    | [] => s

/-- FQ_RESUME_REPLAY (R34). -/
def execFqResumeReplay (die entry : Nat) (s : State) : Out :=
  let d := s.die die
  let e := d.fq.get entry
  if e.valid && e.act == 1 && d.fqTurn e && s.recRoom die 1 then .next ((s.freeFqEntry die entry).replay die e) else .next s

/-! ## Cancellation (R35) -/

/-- A multicast whose source is cancelled: every branch that is not over ends (R35); one whose descriptor is cancelled names no stamp and is over. -/
def State.cancelMc (s : State) (id : Nat) : State :=
  if (s.eop id).branches.isEmpty then s.finishOp id else (s.failAll id ssCancelled).mcStamp id

/-- A branch's request is cancelled: it ends, and the others go on (R35, R186). -/
def State.cancelBranch (s : State) (id b : Nat) : State :=
  let s := (s.updBranch id b fun x => { x with parked := false }).stopBranches id ssCancelled (· == b)
  if !(s.eop id).live then s else if (s.eop id).accepted then s.mcStamp id else s.accept id

/-- The space of an operation's parked request: of its record, or global for a table. -/
def EngineOp.parkSpace (o : EngineOp) : Nat := if o.accepted then (shapeOf o.recS o.tabS).space else 0

/-- An operation's payload request is cancelled: the matrix engine's reads and writes go on without its page; a conditional copy gives
up its reservation (R180); every other operation ends CANCELLED. -/
def State.cancelOp (s : State) (id : Nat) (addr : DWord) : State :=
  let o := s.eop id
  if !o.live then s else
  match o.kind with
  | .tld | .accLd | .accSt => (s.updOp id fun o => { o with lost := lostPage o.parkSpace addr.toNat :: o.lost }).rerunOp id
  | .cond => (s.unreserve id).endPayload id ssCancelled
  | .mc => s.cancelMc id
  | _ => s.endPayload id ssCancelled

/-- The write of a packet to a spill ring is cancelled (R35 gives no row for it): its record is freed, and its send is over. -/
def State.loseSpilled (s : State) (die op : Nat) : State :=
  match (s.carder die op).inbound with
  | [] => s
  | p :: r =>
    match s.landPacket die op p with
    | none => s
    | some (s, q) =>
      (((s.freeToken (tokKey q.handle)).updCarder die op fun c => { c with sendParked := false, inbound := r }).returnAcceptance die
        q.handle).settlePacket p

/-- May the failure of a request be applied: room for the record of a freed row (R443), a slot for a packet that changes dies? -/
def State.mayCancel (s : State) : FqWho → Bool
  | .spill die _ => s.recRoom die 1
  | .spillWrite die op =>
    match (s.carder die op).inbound with
    | p :: _ => (s.landPacket die op p).isSome
    | [] => true
  | _ => true

/-- A parked request is cancelled: its issuer gets the failure of R35. -/
def State.cancel (s : State) (e : FqEntry) : State :=
  match e.who with
  | .ldkv k slot lane epoch =>
    if s.waitsOn k epoch then
      (s.updCrew k fun c => { c with sett := { c.sett with kvParked := none } }).raiseAt k ⟨cKvMiss, e.addr, slot, lane, 0⟩
    else s
  | .op id => s.cancelOp id e.addr
  | .page id _ =>
    if (s.eop id).stage == .accepted || (s.eop id).stage == .started then (s.unreserve id).endPayload id ssCancelled else s
  | .stamp id => s.finishOp id
  | .branch id b => s.cancelBranch id b
  | .branchStamp id b => (s.updBranch id b fun x => { x with parked := false, stamped := true }).mcStamp id
  | .bench b el =>
    let (a, it, inv) := (s.bench b).parkedAt el
    (s.updElem b el fun t => { t with parked := false }).spallRaise b el spCancelled a 0 0 none it inv
  | .benchRecord b => s.endBench b
  | .remote src seq _ => s.failTo src seq e.cause
  | .carousel die entry => s.rereadTile die entry (some (lostPage 0 e.addr.toNat))
  | .spill die op => s.dropSpill die op
  | .spillWrite die op => s.loseSpilled die op

/-- FQ_RESUME_CANCEL (R34, R35). -/
def execFqResumeCancel (die entry : Nat) (s : State) : Out :=
  let d := s.die die
  let e := d.fq.get entry
  if e.valid && e.act == 2 && d.fqTurn e && s.mayCancel e.who then .next ((s.freeFqEntry die entry).cancel e) else .next s

end Sys2Proof.Machine
end

