-- ==== Sys2Proof/Machine/MemSys.lean ====
section
/-!
DEFINITION. Sys2Proof/Machine/MemSys.lean: soft errors (R89–R92) and the freeze and reload of configuration regions (R93–R95, R445).
-/
namespace Sys2Proof.Machine

/-! ## Counts (R91) -/

/-- A count that stops at its greatest value. -/
def satInc (n top : Nat) : Nat := if n ≥ top then top else n + 1

/-- One more uncorrectable error of a die. -/
def State.countUncorr (s : State) (die : Nat) : State := s.updDie die fun d => { d with uncorr := satInc d.uncorr 0xFFFF }

/-- One more corrected error of the hub die, whose counts stand in R91's layout (R92). -/
def State.countHub (s : State) : State :=
  { s with hubErrs := if s.hubErrs.toNat % 2 ^ 32 = 0xFFFFFFFF then s.hubErrs else s.hubErrs + 1 }

/-- PATROL_SCRUB (R89): patrol rewrites a corrected word; no value changes. Die 4 is the hub die. -/
def execPatrolScrub (die : Nat) (s : State) : Out :=
  if die = Config.dies then .next s.countHub else if die ≥ Config.dies then .next s else .next (s.updDie die fun d => { d with corrected := satInc d.corrected 0xFFFFFFFF })

/-! ## Configuration regions (R92, R93) -/

/-- A region's place: its die, its core (0xFF for a die's own), its kind as R415 numbers them, and its handle. -/
def State.regionName (s : State) : RegionSel → Nat × Nat × Nat × Nat
  | .opTable die => (die, noCore, 0, 0)
  | .carousel die => (die, noCore, 1, 0)
  | .bench b => (dieOf (s.bench b).core, (s.bench b).core, 2, (s.bench b).handle)

/-- A region. -/
def State.region (s : State) : RegionSel → Region
  | .opTable die => (s.die die).opTable
  | .carousel die => (s.die die).carousel
  | .bench b => (s.bench b).region

/-- Change a region. -/
def State.updRegion (s : State) (r : RegionSel) (f : Region → Region) : State :=
  match r with
  | .opTable die => s.updDie die fun d => { d with opTable := f d.opTable }
  | .carousel die => s.updDie die fun d => { d with carousel := f d.carousel }
  | .bench b => s.updBench b fun x => { x with region := f x.region }

/-- Does the store hold a region: a bench's from its placement until it is saved or ends? -/
def State.regionHeld (s : State) (r : RegionSel) : Bool :=
  (s.region r).present &&
  (match r with
   | .bench b => (s.bench b).placed
   | _ => true)

/-! ## Uncorrectable errors (R90) -/

/-- A number added to a list once. -/
def addOnce (n : Nat) (l : List Nat) : List Nat := if l.contains n then l else n :: l

/-- A word of memory is poisoned at its home. -/
def State.poisonWord (s : State) (w : Nat) : State := { s with poison := addOnce w s.poison }

/-- The bytes of a buffered word are gone from a combining buffer. -/
def Core.loseWord (k : Core) (w : Nat) : Core :=
  { k with cb := k.cb.map fun e => { e with bytes := e.bytes.filter fun b => b.1 / 4 != w } }

/-- Does a combining buffer hold a byte of a word? -/
def Core.buffers (k : Core) (w : Nat) : Bool := k.cb.any fun e => e.bytes.any fun b => b.1 / 4 == w

/-- Four free values as 256 bits (log 3). -/
def freeWide (n : Nat) : BitVec 256 :=
  Config.freeWord (n + 3) ++ Config.freeWord (n + 2) ++ Config.freeWord (n + 1) ++ Config.freeWord n

/-- An error in what the store keeps beside a region (R93): what is read there is open. -/
def Region.strikeKept (x : Region) (item n : Nat) : Region :=
  match item with
  | 0 => { x with digest := freeWide n }
  | 1 => { x with backing := Config.freeWord n }
  | _ => { x with sealTag := freeWide n }

/-- Where an error strikes: its die, when the place exists, and what becomes of it. -/
def State.strike (s : State) : ErrSite → Option (Nat × State)
  | .l1 core line =>
    if (s.core core).l1.any fun e => e.line == line then
      some (dieOf core, s.updCore core fun k => { k with l1 := k.l1.filter fun e => e.line != line })
    else none
  | .icache core line =>
    if (s.core core).icache.any fun e => e.line == line then
      some (dieOf core, s.updCore core fun k => { k with icache := k.icache.filter fun e => e.line != line })
    else none
  | .fetchBuf crew =>
    let c := s.crew crew
    if c.place == .resident then some (dieOf c.core, s.updCrew crew fun c => { c with fetch := [] }) else none
  | .buffer core w =>
    if (s.core core).buffers w then some (dieOf core, (s.updCore core fun k => k.loseWord w).poisonWord w) else none
  | .memory w => if isBacked (4 * w) then some (dieOfAddr (4 * w), s.poisonWord w) else none
  | .vreg crew reg lane =>
    let c := s.crew crew
    if c.place == .resident && decide (reg < c.budget) && decide (lane < 32) then
      some (dieOf c.core, s.updCrew crew fun c => { c with poisonV := addOnce (reg * 32 + lane) c.poisonV })
    else none
  | .sreg crew reg =>
    let c := s.crew crew
    if c.place == .resident && decide (reg < 128) then some (dieOf c.core, s.updCrew crew fun c => { c with poisonS := addOnce reg c.poisonS })
    else none
  | .preg crew reg =>
    let c := s.crew crew
    if c.place == .resident && decide (reg < 7) then some (dieOf c.core, s.updCrew crew fun c => { c with poisonP := addOnce reg c.poisonP })
    else none
  | .dreg crew word =>
    let c := s.crew crew
    if c.place == .resident && decide (word < 64) then some (dieOf c.core, s.updCrew crew fun c => { c with poisonD := addOnce word c.poisonD })
    else none
  | .acc core tile word =>
    if core < Config.cores ∧ tile < 16 ∧ word < 4096 then
      some (dieOf core, s.updCore core fun k => { k with tiles := k.tiles.upd tile fun t => { t with poison := addOnce word t.poison } })
    else none
  | .token slot word =>
    if slot < Config.dies * poolSlots ∧ word < 32 then
      some (slot / poolSlots, s.updTok slot fun t => { t with poison := addOnce word t.poison })
    else none
  | .shadow die crew =>
    if (s.crew crew).place == .saved && dieOf (s.crew crew).core == die then
      some (die, s.updDie die fun d => { d with shadowBad := addOnce crew d.shadowBad })
    else none
  | .kept r item =>
    if s.regionHeld r && decide (item < 3) then
      some ((s.regionName r).1, { s.updRegion r fun x => x.strikeKept item s.free with free := s.free + 4 })
    else none

/-- UNCORRECTABLE_ERROR (R90): a clean line is dropped, any other word is poisoned where it lies or at its home; UNCORR counts it. -/
def execUncorrectableError (site : ErrSite) (s : State) : Out :=
  match s.strike site with
  | some (die, s) => .next (s.countUncorr die)
  | none => .next s

/-! ## Freeze and reload (R94, R95) -/

/-- Tag of a reload's reads. -/
def tagReload : RegionSel → Nat
  | .opTable die => 400 + die
  | .carousel die => 410 + die
  | .bench b => 2 ^ 40 + b

/-- What a reload has read is given up: it begins again (R95). -/
def State.restartReload (s : State) (r : RegionSel) : State :=
  { s.dropLines (tagReload r) with outstanding := s.outstanding.filter fun o => o.who != RemoteWho.unit (tagReload r) }

/-- CONFIG_FREEZE (R94): the region stops firing; a further error during the reload restarts it (R95). -/
def execConfigFreeze (r : RegionSel) (s : State) : Out :=
  if !s.regionHeld r then .next s
  else
    let s := s.countUncorr (s.regionName r).1
    if (s.region r).frozen then .next (s.restartReload r)
    else
      let s := s.updRegion r fun x => { x with frozen := true }
      match r with
      | .bench b => .next (s.updBench b fun x => { x with prior := x.st, st := .frozen })
      | _ => .next s

/-- Firing goes on from the frozen state. -/
def State.unfreeze (s : State) (r : RegionSel) : State :=
  let s := s.updRegion r fun x => { x with frozen := false, failed := false }
  match r with
  | .bench b => s.updBench b fun x => if x.st == .frozen then { x with st := x.prior } else x
  | _ => s

/-- The digest of a region's contents: a bench image's leaves its header out (R244). -/
def regionDigest (r : RegionSel) (bs : List Byte) : BitVec 256 :=
  match r with
  | .bench _ => sha3 (imgBody bs)
  | _ => sha3 bs

/-- The seal holds: the kept digest and address are as they were loaded (R93). -/
def State.sealed (s : State) (r : RegionSel) : Bool :=
  let (die, core, kind, h) := s.regionName r
  let x := s.region r
  x.sealTag == sealOf s.boot.kc x.digest kind die core h x.backing

/-- A record with cause CONFIG_ECC (R444). -/
def State.eccRecord (s : State) (r : RegionSel) (flags : Nat) : State :=
  let (die, core, kind, _) := s.regionName r
  s.emit die (s.region r).part (faultRec cConfigEcc flags (s.region r).part die core unLoader noCtx 0xFFFF kind 0)

/-- The reload fails: the region stays frozen and is failed (R95). -/
def State.reloadFails (s : State) (r : RegionSel) : State :=
  (s.updRegion r fun x => { x with failed := true }).eccRecord r (match r with
    | .bench _ => fgBench
    | _ => 0)

/-- CONFIG_RELOAD_DONE (R94, R95): the backing copy has been read again; its seal and digest hold and firing goes on, or the region is
failed. The record of either waits for room (R443). -/
def execConfigReloadDone (r : RegionSel) (s : State) : Out :=
  let x := s.region r
  let die := (s.regionName r).1
  if !s.regionHeld r || !x.frozen || x.failed || !s.recRoom die 1 then .next s
  else
    let g := s.unitGather (tagReload r) x.part x.level x.backing.toNat x.bytes.length
    if g.bad.isSome then .next ((s.dropLines (tagReload r)).reloadFails r)
    else if !g.need.isEmpty then .next (s.askUnit (tagReload r) x.part x.level g.need)
    else
      let s := s.dropLines (tagReload r)
      if g.poisoned || !s.sealed r || regionDigest r g.table != x.digest then .next (s.reloadFails r)
      else
        .next (((s.unfreeze r).updDie die fun d => { d with reloads := satInc d.reloads 0xFFFF }).eccRecord r fgRecovered)

end Sys2Proof.Machine
end

