-- ==== Sys2Proof/Machine/Place.lean ====
section
/-!
DEFINITION. Sys2Proof/Machine/Place.lean: placement, pressure, reserve crews, stealing and the reset of a die (R193–R196, R215, R219, R426–R428,
R431–R433).
-/
namespace Sys2Proof.Machine

/-! ## Fields of a launch record (R192) -/

def lrEntry (r : BitVec 4096) : Nat := bitsOf r 64 56
def lrJentry (r : BitVec 4096) : Nat := bitsOf r 128 56
def lrArg (r : BitVec 4096) : DWord := r.extractLsb' 192 64
def lrFeat (r : BitVec 4096) : DWord := r.extractLsb' 256 64
def lrCrews (r : BitVec 4096) : Nat := bitsOf r 46 5 + 1
def lrReserve (r : BitVec 4096) : Nat := bitsOf r 41 5
def lrBudget (r : BitVec 4096) : Nat := 8 * (bitsOf r 36 5 + 1)
def lrLocal (r : BitVec 4096) : Nat := bitsOf r 27 9
def lrPrio (r : BitVec 4096) : Bool := r.getLsbD 26
def lrPbase (r : BitVec 4096) : Nat := bitsOf r 328 40 * 256
def lrPstride (r : BitVec 4096) : Nat := bitsOf r 368 16 * 256
def lrHwm (r : BitVec 4096) : Nat := bitsOf r 384 17
def lrLimit (r : BitVec 4096) : Nat := bitsOf r 401 17

/-! ## What a core has free (R56, R426, R427) -/

/-- Rows of a quarter's register file, and its crew slots. -/
def quarterRows : Nat := 512
def quarterSlots : Nat := 16

/-- The quarter of crew c of a gang with base quarter b. -/
def quarterOf (b c : Nat) : Nat := (b + c) % 4

/-- Crew contexts that hold a slot and rows of a core. -/
def State.onCore (s : State) (core : Nat) : List (Nat × Crew) :=
  s.crews.cells.filter fun e => (e.2.place == .resident || e.2.place == .halted) && e.2.core == core

/-- Rows taken: quarter, first row, number. -/
def rowsTaken (cs : List (Nat × Crew)) : List (Nat × Nat × Nat) := cs.map fun e => (e.2.quarter, e.2.rowBase, e.2.budget)

/-- The lowest contiguous run of free rows of a quarter that also has a free slot. -/
def fitRows (taken : List (Nat × Nat × Nat)) (q budget : Nat) : Option Nat :=
  let t := taken.filter fun x => x.1 == q
  if t.length ≥ quarterSlots then none
  else
    (firstNat (fun i => decide (8 * i + budget ≤ quarterRows) &&
      t.all fun x => decide (8 * i + budget ≤ x.2.1) || decide (x.2.1 + x.2.2 ≤ 8 * i)) 64 0).map (8 * ·)

/-- Every crew in its own quarter: crew, quarter and first row of each. -/
def fitCrews (b : Nat) : List (Nat × Nat) → List (Nat × Nat × Nat) → Option (List (Nat × Nat × Nat))
  | [], _ => some []
  | (c, budget) :: cs, taken =>
    match fitRows taken (quarterOf b c) budget with
    | none => none
    | some r => (fitCrews b cs ((quarterOf b c, r, budget) :: taken)).map ((c, quarterOf b c, r) :: ·)

/-- Local ranges that gangs hold on a core, those of `gone` left out. -/
def State.localTaken (s : State) (core : Nat) (gone : List Nat) : List (Nat × Nat) :=
  (s.gangs.cells.filter fun e => e.2.live && !e.2.saved && e.2.core == core && !gone.contains e.1).map fun e =>
    (e.2.localBase, e.2.localSize)

/-- The lowest free local range of some KiB. -/
def fitLocal (taken : List (Nat × Nat)) (kib : Nat) : Option Nat :=
  (firstNat (fun i => decide (i + kib ≤ 256) &&
    taken.all fun t => t.2 == 0 || decide (1024 * (i + kib) ≤ t.1) || decide (t.1 + t.2 ≤ 1024 * i)) 257 0).map (1024 * ·)

/-! ## Requests (R426) -/

/-- What a gang or context needs: partition, die, feature mask, KiB of local memory, the crews with their budgets, tiles; a cluster it is bound
to; its own core and base quarter when its gang is still there (R448). -/
structure Want where
  part : Nat
  die : Nat
  mask : DWord
  kib : Nat
  crews : List (Nat × Nat)
  tiles : Nat
  cluster : Option Nat
  own : Option (Nat × Nat)
  deriving DecidableEq, Repr, Inhabited

/-- Where a request fits: core, base quarter, local range, and each crew's quarter and rows. -/
structure Fit where
  core : Nat
  baseQ : Nat
  localBase : Nat
  crews : List (Nat × Nat × Nat)
  deriving DecidableEq, Repr, Inhabited

/-- Starting crews of a launch record with their budgets. -/
def startList (r : BitVec 4096) : List (Nat × Nat) := (List.range (lrCrews r)).map fun c => (c, lrBudget r)

/-- The OR of the rows' FEAT fields (R214). -/
def State.rowsFeat (s : State) (rows : List Row) : DWord := rows.foldl (fun a r => a ||| rcFeat (s.tok r.handle)) 0

/-- The level-3 instance a gang belongs to (R194): gangs count the lowest declared level fastest. -/
def homeInstance (r : BitVec 4096) (idx : Nat) : Option Nat :=
  if levDeclared r 3 then some (idx / max 1 (levCount r 3)) else none

/-- The crews of a gang that are saved, with their budgets. -/
def State.savedCrews (s : State) (g : Nat) : List (Nat × Nat) :=
  (s.gangCrews g).filterMap fun k => if (s.crew k).place == .saved then some ((s.crew k).idx, (s.crew k).budget) else none

/-- What a placement request needs. -/
def State.wantOf (s : State) (die : Nat) : PlaceReq → Want
  | .launchGang l idx =>
    let x := s.launches.get l
    ⟨x.part, die, lrFeat x.lrec, lrLocal x.lrec, startList x.lrec, 0,
      (homeInstance x.lrec idx).bind fun i => x.homes.get i, none⟩
  | .batt job => ⟨job.part, die, lrFeat job.lrec ||| s.rowsFeat job.rows, lrLocal job.lrec, startList job.lrec, 0, none, none⟩
  | .resumeCrew k _ =>
    let c := s.crew k
    let w := s.gang c.gang
    if w.saved then
      ⟨c.part, die, c.featCtx, lrLocal w.lrec, s.savedCrews c.gang, w.savedTiles.cells.length, none, none⟩
    else ⟨c.part, die, c.featCtx, 0, [(c.idx, c.budget)], 0, none, some (w.core, w.baseQ)⟩

/-- Free accumulator tiles of a core. -/
def Core.freeTiles (k : Core) : Nat := ((List.range tilesPerCore).filter fun t => (k.tiles.get t).gang.isNone).length

/-- Where on a core a request fits when the crews in `gone` are taken away; a gang that loses all its crews leaves its local range. -/
def State.fitOn (s : State) (w : Want) (core : Nat) (gone : List Nat) : Option Fit :=
  let rest := (s.onCore core).filter fun e => !gone.contains e.1
  let lost := ((s.onCore core).map (·.2.gang)).filter fun g => !(rest.any fun e => e.2.gang == g)
  match w.own with
  | some (c, b) => if c = core then (fitCrews b w.crews (rowsTaken rest)).map fun cs => ⟨core, b, 0, cs⟩ else none
  | none =>
    match fitLocal (s.localTaken core lost) w.kib with
    | none => none
    | some base =>
      if (s.core core).freeTiles < w.tiles then none
      else (List.range 4).findSome? fun b => (fitCrews b w.crews (rowsTaken rest)).map fun cs => ⟨core, b, base, cs⟩

/-- Cores of the die that a request may use at all: of its partition's clusters, with its features, in its cluster. -/
def State.coresFor (s : State) (w : Want) : List Nat :=
  ((List.range Config.coresPerDie).map (w.die * Config.coresPerDie + ·)).filter fun c =>
    (s.part w.part).clusters.getLsbD (clusterOf c) && w.mask &&& ~~~Config.feat == 0 &&
    (w.cluster.isNone || w.cluster == some (clusterOf c))

/-- Free register rows of a core. -/
def State.freeCoreRows (s : State) (core : Nat) : Nat := 4 * quarterRows - ((s.onCore core).map fun e => e.2.budget).sum

/-- The core the placer takes: the most free rows, ties to the lowest number (R426). -/
def State.bestFit (s : State) (w : Want) : Option Fit :=
  (s.coresFor w).foldl (fun acc c =>
    match s.fitOn w c [], acc with
    | none, _ => acc
    | some f, none => some f
    | some f, some g => if s.freeCoreRows c > s.freeCoreRows g.core then some f else acc) none

/-! ## The queue (R426) -/

/-- Does a request's partition stand still (R451)? -/
def State.partOut (s : State) (p : Nat) : Bool := (s.part p).swapped || (s.part p).swapping.isSome

/-- Is it a launch's gang? -/
def PlaceReq.isLaunch : PlaceReq → Bool
  | .launchGang _ _ => true
  | _ => false

/-- The launch of a launch's gang. -/
def PlaceReq.launchNo : PlaceReq → Option Nat
  | .launchGang l _ => some l
  | _ => none

/-- Are stores of a context that returns still on their way from the core that it left (R157)? -/
def State.storesAway (s : State) : PlaceReq → Bool
  | .resumeCrew k _ => s.coreBusy (s.crew k).core
  | _ => false

/-- The requests of a die that may be placed, in the placer's order: dispatched gangs and resumed contexts, then launch gangs. -/
def State.placeOrder (s : State) (die : Nat) : List PlaceReq :=
  let q := (s.die die).placeq.filter fun r => !s.partOut (s.wantOf die r).part && !s.storesAway r
  (q.filter fun r => !r.isLaunch) ++ q.filter PlaceReq.isLaunch

/-- The first launch gang that fits: one that does not fit holds back the later gangs of its launch only. -/
def State.firstLaunch (s : State) (die : Nat) : List PlaceReq → List Nat → Option (PlaceReq × Fit)
  | [], _ => none
  | r :: rs, held =>
    match r.launchNo with
    | none => s.firstLaunch die rs held
    | some l =>
      if held.contains l then s.firstLaunch die rs held
      else
        match s.bestFit (s.wantOf die r) with
        | some f => some (r, f)
        | none => s.firstLaunch die rs (l :: held)

/-- The request the placer places next, and where. -/
def State.nextPlace (s : State) (die : Nat) : Option (PlaceReq × Fit) :=
  match s.placeOrder die with
  | [] => none
  | r :: rs =>
    if r.isLaunch then s.firstLaunch die (r :: rs) []
    else (s.bestFit (s.wantOf die r)).map fun f => (r, f)

/-! ## Starting crews (R196, R215) -/

/-- The lowest free crew context number. -/
def State.freeContext (s : State) : Nat := (firstNat (fun k => !(s.crews.keys.contains k)) 16384 0).getD 0

/-- Age of a crew that becomes resident now (R206). -/
def State.nextAge (s : State) : Nat := s.crews.vals.foldl (fun a c => max a c.age) 0 + 1

/-- What the token views take of row n's record as its gang starts; a field with a poisoned word is free (R215, R91, log 3). -/
def State.viewRow (s : State) (n : Nat) (r : Row) : Row :=
  let t := s.pool.get (tokKey r.handle)
  let read := fun (k lo len : Nat) => if (List.range ((len + 31) / 32)).any fun i => t.poison.contains (lo / 32 + i) then
    Config.freeWord (s.free + 3 * n + k) &&& BitVec.ofNat 64 (2 ^ len - 1) else BitVec.ofNat 64 (recGet t.bits lo len)
  { r with kvh := (read 0 128 32).setWidth 32, hidden := read 1 256 56, seqid := read 2 64 64 }

/-- The rows of a gang that starts. -/
def State.viewRows (s : State) (rows : List Row) : List Row := ((List.range rows.length).zip rows).map fun p => s.viewRow p.1 p.2

/-- The token views of a lane that holds row n (R215). -/
def viewOf (t : Tbl Word) (lane n : Nat) (r : Row) : Tbl Word :=
  let put := fun (t : Tbl Word) (i : Nat) (w : Word) => t.putc (i * 32 + lane) w
  let t := put (put t 0 (r.hdr.setWidth 32)) 1 (r.hdr.extractLsb' 32 32)
  let t := put (put t 2 r.handle) 3 r.kvh
  let t := put (put t 4 (r.hidden.setWidth 32)) 5 (r.hidden.extractLsb' 32 32)
  put (put t 6 (r.seqid.setWidth 32)) 7 (BitVec.ofNat 32 (2 ^ 31 + n % 64))

/-- The token views of crew idx: row i lies in lane i mod 32 of crew i div 32 (R214). -/
def viewsOf (rows : List Row) (idx : Nat) : Tbl Word :=
  (List.range 32).foldl (fun t l => match rows[idx * 32 + l]? with
    | some r => viewOf t l (idx * 32 + l) r
    | none => t) Tbl.empty

/-- PRIV_ROOT of a crew (R196). -/
def privRootOf (r : BitVec 4096) (gi c : Nat) : DWord := BitVec.ofNat 64 ((lrPbase r + (gi * 32 + c) * lrPstride r) % 2 ^ 48)

/-- A crew of gang g starts on its core (R196). Its start is an acquire of what its launch or dispatch has released (R149, R150, R214). -/
def State.startCrew (s : State) (g c q row : Nat) (reserve : Bool) : State :=
  let w := s.gang g
  let r := w.lrec
  let k := s.freeContext
  let x : Crew := { (default : Crew) with
    place := .resident
    part := w.part
    gang := g
    idx := c
    core := w.core
    quarter := q
    rowBase := row
    budget := lrBudget r
    prio := lrPrio r
    level := w.level
    age := s.nextAge
    epoch := s.epochs.get k
    s := Tbl.empty.putc 0 (lrArg r)
    gens := ⟨(List.range 32).map fun l => (l, genInit 0 l)⟩
    t := if w.dispatched then viewsOf w.rows c else Tbl.empty
    paths := [⟨if reserve then lrJentry r else lrEntry r, BitVec.allOnes 32, none, 0⟩]
    member := !reserve
    privRoot := privRootOf r w.index c
    privHwm := BitVec.ofNat 64 (lrHwm r)
    privLimit := BitVec.ofNat 64 (lrLimit r)
    featCtx := w.featReq ||| 1 }
  ({ s with crews := s.crews.put k x }.updGang g fun w => { w with crews := w.crews.put c k }).dropL1 w.core

/-- A core's cluster has power while a crew is placed there (R483). -/
def State.wakeCluster (s : State) (core : Nat) : State :=
  s.updDie (dieOf core) fun d => { d with gated := d.gated &&& ~~~(1#16 <<< (clusterOf core % 6)) }

/-- A new gang on a core: its starting crews take $crew values from 0, the reserve the values that follow (R196). -/
def State.newGang (s : State) (w : Gang) (f : Fit) : State :=
  let g := s.nextGang
  let n := lrCrews w.lrec
  let w := { w with
    live := true
    core := f.core
    baseQ := f.baseQ
    localBase := f.localBase
    reserve := (List.range (lrReserve w.lrec)).map (n + ·)
    bars := (List.range 16).foldl (fun t k => t.put k ⟨0, n, 0, 0, 0⟩) Tbl.empty }
  let s := { s with gangs := s.gangs.put g w, nextGang := g + 1 }
  let s := { s with mem := s.mem.freshen (localAp f.core + f.localBase) w.localSize s.free }.bumpFree
  f.crews.foldl (fun s x => s.startCrew g x.1 x.2.1 x.2.2 false) (s.wakeCluster f.core)

/-- A context returns to a core and quarter: it counts as becoming resident there (R206, R448), and finds there what it has itself written
elsewhere (R157). -/
def State.seatCrew (s : State) (k core q row : Nat) : State :=
  let age := s.nextAge
  (s.dropL1 core).updCrew k fun c => { c with place := .resident, core := core, quarter := q, rowBase := row, age := age, preempt := false }

/-- A gang saved whole returns to a core: its local bytes, its tiles and their names (R447, R448). -/
def State.restoreGang (s : State) (g : Nat) (f : Fit) : State :=
  let w := s.gang g
  let saved : List (Nat × Byte) × Segs := match (s.part w.part).savedLocal.find? fun e => e.1 == g with
    | some e => e.2
    | none => ([], [])
  let a := localAp f.core + f.localBase
  let bad : List Nat := match (s.part w.part).savedPoison.find? fun e => e.1 == g with
    | some e => e.2
    | none => []
  let s := s.zeroRange a w.localSize
  let s := { s with
    mem := saved.2.foldl (fun m (x : Nat × Nat × Nat) => m.freshen (a + x.1) (x.2.1 - x.1) x.2.2)
      (saved.1.foldl (fun m (b : Nat × Byte) => m.write (a + b.1) b.2) s.mem)
    poison := s.poison ++ bad.map (a / 4 + ·) }
  let s := s.updPart w.part fun p => { p with
    savedLocal := p.savedLocal.filter fun e => e.1 != g, savedPoison := p.savedPoison.filter fun e => e.1 != g }
  let s := w.savedTiles.cells.foldl (fun s e =>
    match (s.core f.core).freeTile with
    | some t => (s.updCore f.core fun q => { q with tiles := q.tiles.put t { e.2 with gang := some g } }).updGang g fun w =>
        { w with acc := w.acc.put e.1 (some t) }
    | none => s) s
  let s : State := (s.gangCrews g).foldl (fun s k => s.updCrew k fun c => { c with core := f.core, quarter := quarterOf f.baseQ c.idx }) s
  s.updGang g fun w => { w with core := f.core, baseQ := f.baseQ, localBase := f.localBase, saved := false, savedTiles := Tbl.empty }

/-- A request is placed where it fits. -/
def State.place (s : State) (die : Nat) (r : PlaceReq) (f : Fit) : State :=
  let s := s.updDie die fun d => { d with placeq := d.placeq.erase r }
  match r with
  | .launchGang l idx =>
    let x := s.launches.get l
    let s := s.newGang { (default : Gang) with
      part := x.part, launch := some l, lrec := x.lrec, index := idx, level := x.level, featReq := lrFeat x.lrec } f
    match homeInstance x.lrec idx with
    | some i => { s with launches := s.launches.upd l fun x => { x with homes := x.homes.put i (some (clusterOf f.core)) } }
    | none => s
  | .batt job =>
    let rows := s.viewRows job.rows
    let feat := s.rowsFeat job.rows
    { s with free := s.free + 3 * rows.length }.newGang { (default : Gang) with
      part := job.part, opSel := some (job.die, job.op), tableGen := job.gen, lrec := job.lrec, rows := rows, dispatched := true
      featReq := lrFeat job.lrec ||| feat } f
  | .resumeCrew k cmd =>
    let g := (s.crew k).gang
    let s := if (s.gang g).saved then s.restoreGang g f else s
    let s := match f.crews.find? fun x => x.1 == (s.crew k).idx with
      | some x => (s.wakeCluster f.core).seatCrew k f.core x.2.1 x.2.2
      | none => s
    match cmd with
    | some m => s.finishCmd m csOk 0
    | none => s

/-! ## Pressure (R428) -/

/-- The sublists of n elements. -/
def choose {α : Type} : List α → Nat → List (List α)
  | _, 0 => [[]]
  | [], _ + 1 => []
  | x :: xs, n + 1 => (choose xs n).map (x :: ·) ++ choose xs (n + 1)

/-- The fewest crews whose removal lets a request fit a core. -/
def State.crewsSought (s : State) (w : Want) (core : Nat) : Option Nat :=
  let ks := (s.onCore core).map (·.1)
  (List.range (ks.length + 1)).find? fun n => (choose ks n).any fun gone => (s.fitOn w core gone).isSome

/-- The core to press for a request that fits none: the fewest crews, ties to the lowest number. A context that must return to its own core
presses that one. -/
def State.pressFor (s : State) (w : Want) : Option (Nat × Nat) :=
  (match w.own with
   | some (c, _) => [c]
   | none => s.coresFor w).foldl (fun acc c =>
    match s.crewsSought w c, acc with
    | none, _ => acc
    | some n, none => some (c, n)
    | some n, some (_, m) => if n < m then some (c, n) else acc) none

/-- The marks of a die follow the head of its queue. -/
def State.markPress (s : State) (die : Nat) : State :=
  let s := { s with cores := ⟨s.cores.cells.map fun e => (e.1, if dieOf e.1 = die then { e.2 with pressed := none } else e.2)⟩ }
  match s.placeOrder die with
  | [] => s
  | r :: _ =>
    let w := s.wantOf die r
    if (s.bestFit w).isSome then s
    else
      match s.pressFor w with
      | some (c, n) => s.updCore c fun q => { q with pressed := some n }
      | none => s

/-- GANG_PLACE (R426–R428): the placer places what it can place next; the head that fits no core presses one. -/
def execGangPlace (die : Nat) (s : State) : Out :=
  match s.nextPlace die with
  | some (r, f) => .next ((s.place die r f).markPress die)
  | none => .next (s.markPress die)

/-! ## Reserve crews (R219) -/

/-- The reserve crew that a gang may be offered a slot for: the lowest whose own quarter has room. -/
def State.reserveOf (s : State) (g : Nat) : Option (Nat × Nat × Nat) :=
  let w := s.gang g
  if !w.live || w.winding || w.saved || s.partOut w.part then none
  else w.reserve.findSome? fun c =>
    (fitRows (rowsTaken (s.onCore w.core)) (quarterOf w.baseQ c) (lrBudget w.lrec)).map fun r => (c, quarterOf w.baseQ c, r)

/-- RESERVE_CREW_ATTACH (R219, R428): a core that is not pressed offers an idle slot to a reserve crew, once nothing of the die's queue
can be placed. -/
def execReserveCrewAttach (core : Nat) (s : State) : Out :=
  if (s.core core).pressed.isSome || (s.nextPlace (dieOf core)).isSome then .next s
  else
    match (s.gangs.cells.filter fun e => e.2.core == core).findSome? fun e => (s.reserveOf e.1).map fun x => (e.1, x) with
    | none => .next s
    | some (g, c, q, row) =>
      .next (((s.updGang g fun w => { w with reserve := w.reserve.filter (· != c) }).startCrew g c q row true).wakeCluster core)

/-! ## Stealing (R431–R433) -/

/-- May a dispatched batt of a die be stolen by a core (R431)? -/
def State.stealable (s : State) (die core : Nat) (j : BattJob) : Bool :=
  j.die == die && oePin (s.opEntry die j.op) && (grantedYards j.lrec).isEmpty && !s.partOut j.part &&
  (s.part j.part).clusters.getLsbD (clusterOf core) && (lrFeat j.lrec ||| s.rowsFeat j.rows) &&& ~~~Config.feat == 0

/-- The oldest batt of a die that a core may steal. -/
def State.oldestSteal (s : State) (die core : Nat) : Option BattJob :=
  (s.die die).placeq.findSome? fun r => match r with
    | .batt j => if s.stealable die core j then some j else none
    | _ => none

/-- The victim's copy of a row while it is lent, or no longer lent with a new epoch (R432, R433). -/
def State.setLent (s : State) (h : Word) (lent : Bool) (epoch : Word) : State :=
  s.updTok (tokKey h) fun t => (t.set 15 1 (if lent then 1 else 0)).set 192 32 epoch.toNat

/-- BATT_STEAL_GRANT (R431, R432): a batt that has been dispatched and unplaced for 4,096 carder cycles is lent to an idle core of another
die. -/
def execBattStealGrant (victim op thiefCore : Nat) (s : State) : Out :=
  if dieOf thiefCore = victim || thiefCore ≥ Config.cores || !(s.onCore thiefCore).isEmpty then .next s
  else
    match s.oldestSteal victim thiefCore with
    | none => .next s
    | some j =>
      if j.op ≠ op then .next s
      else
        let epochs := j.rows.map fun r => rcEpoch (s.tok r.handle)
        let s := (j.rows.zip epochs).foldl (fun s p => s.setLent p.1.handle true p.2) s
        let id := s.lends.cells.foldl (fun m e => max m (e.1 + 1)) 0
        .next { s.updDie victim fun d => { d with placeq := d.placeq.erase (.batt j) } with
          lends := s.lends.put id ⟨true, j, thiefCore, 0, epochs, []⟩ }

/-- The thief's copies: new slots of its pool, the records with EPOCH e + 1, the header words unchanged; nothing when the pool is short. -/
def State.takeLent (s : State) (die part : Nat) : List (Row × Word) → Option (State × List Row)
  | [] => some (s, [])
  | (r, e) :: rs =>
    match s.freeSlot die with
    | none => none
    | some i =>
      let t := s.pool.get (tokKey r.handle)
      let (s, h) := s.takeSlot die i part (recPut (recPut t.bits 15 1 0) 192 32 (e.toNat + 1)) t.poison
      (s.takeLent die part rs).map fun x => (x.1, { r with handle := h } :: x.2)

/-- The thief receives a grant. -/
def State.receiveLend (s : State) (k : Nat) : State :=
  let l := s.lends.get k
  if !l.live || l.stage ≠ 0 then s
  else
    match s.takeLent (dieOf l.thiefCore) l.job.part (l.job.rows.zip l.epochs) with
    | none => s
    | some (s, rows) => { s with lends := s.lends.put k { l with stage := 1, newRows := rows } }

/-- STEAL_RECEIVE (R432): the thief die takes slots for the records and acknowledges. -/
def execStealReceive (lend : Nat) (s : State) : Out := .next (s.receiveLend lend)

/-- The thief places the gang of a lend it holds. -/
def State.placeLent (s : State) (k : Nat) : State :=
  let l := s.lends.get k
  { s.updDie (dieOf l.thiefCore) fun d => { d with placeq := d.placeq ++ [.batt { l.job with rows := l.newRows }] } with
    lends := s.lends.drop k }

/-- STEAL_ACK_DELIVERED (R432): the victim frees the copies that are lent at the expected epoch; the thief places the gang. -/
def execStealAckDelivered (lend : Nat) (s : State) : Out :=
  let l := s.lends.get lend
  if !l.live || l.stage ≠ 1 then .next s
  else
    let s := (l.job.rows.zip l.epochs).foldl (fun s p =>
      if s.tokLive p.1.handle && (s.tok p.1.handle).getLsbD 15 && rcEpoch (s.tok p.1.handle) == p.2 then s.freeToken (tokKey p.1.handle)
      else s) s
    .next (s.placeLent lend)

/-- A lend that its victim resolves (R433): the thief discards its copies; the victim clears LENT, sets EPOCH to e + 2 and places the batt
again. -/
def State.undoLend (s : State) (k : Nat) : State :=
  let l := s.lends.get k
  let s := l.newRows.foldl (fun s r => s.freeToken (tokKey r.handle)) s
  let s := (l.job.rows.zip l.epochs).foldl (fun s p => s.setLent p.1.handle false (p.2 + 2)) s
  { s.updDie l.job.die fun d => { d with placeq := d.placeq ++ [.batt l.job] } with lends := s.lends.drop k }

/-- A lend whose victim die is reset (R433): the victim's copies are lost; the thief, told so, places the gang. -/
def State.victimLost (s : State) (k : Nat) : State :=
  let s := s.receiveLend k
  let l := s.lends.get k
  if l.stage ≠ 1 then s
  else (l.job.rows.foldl (fun s r => if s.tokLive r.handle then s.freeToken (tokKey r.handle) else s) s).placeLent k

/-- LEND_DISTURBANCE (R433), before the victim has the acknowledgement: the victim die is reset, or the thief die is, or the link between them
is lost. -/
def execLendDisturbance (lend : Nat) (victimReset : Bool) (s : State) : Out :=
  if !(s.lends.get lend).live then .next s
  else .next (if victimReset then s.victimLost lend else s.undoLend lend)

/-! ## Reset of a die (R11, R209, R433) -/

/-- Records on their way to a die that is reset go there again from their sending slots, with EPOCH e + 2. -/
def State.resendMoves (s : State) (die : Nat) : State :=
  s.dieFrames.foldl (fun s f =>
    if f.dstDie ≠ die || f.src.isSome || f.slot / poolSlots = die then s
    else
      let s := s.updTok f.slot fun t => t.set 192 32 ((rcEpoch t.bits).toNat + 2)
      let t := s.pool.get f.slot
      let s : State := { s with dieFrames := s.dieFrames.map fun (g : DieFrame) =>
        if g.slot = f.slot && g.src.isNone then { g with handle := 0, accepted := false } else g }
      let p := { f.packet with image := t.bits, poison := t.poison, spill := false }
      s.updCarder die f.op fun c => { c with
        inbound := if c.inbound.any fun (q : Packet) => q.fromDie.isSome && q.slot == f.slot then
            c.inbound.map fun (q : Packet) => if q.fromDie.isSome && q.slot == f.slot then p else q
          else c.inbound ++ [p] }) s

/-- A die's own units are as they were at start-up: its cores run nothing, its pool, carders, tables and queues are empty. Memory keeps its
bytes; what other dies have on its way stays. -/
def State.clearDie (s : State) (die : Nat) : State :=
  let here := fun (c : Nat) => dieOf c == die
  let lost := (s.crews.cells.filter fun e => here e.2.core).map (·.1)
  let s := s.reservations.foldl (fun s r => if r.2.1 == s.dev && here (s.eop r.2.2).core then s.unreserveAt r.1 r.2.1 r.2.2 else s) s
  { s with
    epochs := lost.foldl (fun t k => t.put k ((s.crew k).epoch + 1)) s.epochs
    crews := ⟨s.crews.cells.filter fun e => !here e.2.core⟩
    gangs := ⟨s.gangs.cells.filter fun e => !here e.2.core⟩
    cores := ⟨s.cores.cells.filter fun e => !here e.1⟩
    yards := ⟨s.yards.cells.filter fun e => e.1 / 48 != die⟩
    dies := s.dies.drop die
    pool := ⟨s.pool.cells.map fun e => if e.1 / poolSlots = die && e.2.used then (e.1, { e.2 with used := false, gen := nextGen e.2.genNow }) else e⟩
    carders := ⟨s.carders.cells.filterMap fun e =>
      if e.1 / 64 = die then
        (match e.2.inbound.filter fun p => p.fromDie.isSome || p.src.isSome with
         | [] => none
         | ps => some (e.1, { (default : Carder) with inbound := ps.map fun p => { p with spill := false } }))
      else some e⟩
    ops := ⟨s.ops.cells.filter fun e => !here e.2.core⟩
    queues := ⟨s.queues.cells.map fun e => (e.1, e.2.filter fun i => !here (s.eop i).core)⟩
    benches := ⟨s.benches.cells.filter fun e => !here e.2.core⟩
    inflight := s.inflight.filter fun r => !here r.core
    regs := s.regs.filter fun r => !lost.contains r.crew
    walks := s.walks.filter fun w => !lost.contains w.crew
    dieFrames := s.dieFrames.filter fun f => !(f.src.isNone && f.slot / poolSlots == die) }

/-- DIE_RESET (R11, R209, R433): every die that loses a partner in a move or a lend is told; then the die's units are as at start-up. -/
def execDieReset (die : Nat) (s : State) : Out :=
  if die ≥ Config.dies then .next s
  else
    let s := s.lends.cells.foldl (fun s e =>
      if dieOf e.2.thiefCore = die then s.undoLend e.1
      else if e.2.job.die = die then s.victimLost e.1
      else s) s
    .next ((s.clearDie die).resendMoves die)

end Sys2Proof.Machine
end

