-- ==== Sys2Proof/Machine/Front.lean ====
section
/-!
DEFINITION. Sys2Proof/Machine/Front.lean: the front end (R407–R419, R422–R427): doorbells, spill rings, the merge order, taking a command, its
completion record, and the kinds that act through it alone: NOP, PRODUCER, STAMPWAIT and LAUNCH.
-/
namespace Sys2Proof.Machine

/-! ## Reads (R423, R506) -/

/-- What a read of the front end gives: bytes, a wait for another device, or a fault's cause. -/
inductive ReadR where
  | ok (bs : List Byte)
  | wait (s : State)
  | bad (cause : BitVec 8)
  deriving DecidableEq, Repr

/-- A read through a partition's tables; a poisoned word is UNCORRECTABLE (R91). -/
def State.readFor (s : State) (tag part : Nat) (level : Bool) (va n : Nat) : ReadR :=
  let g := s.unitGather tag part level va n
  match g.bad with
  | some (cause, _) => .bad cause
  | none => if !g.need.isEmpty then .wait (s.askUnit tag part level g.need) else if g.poisoned then .bad cUncorrectable else .ok g.table

/-- Tags of the reads of a command and of a producer. -/
def tagCmd (k : Nat) : Nat := 2 ^ 50 + k
def tagProd (n : Nat) : Nat := 2 ^ 45 + n

/-- A command's read. -/
def State.readCmd (s : State) (k va n : Nat) : ReadR :=
  let c := s.cmds.get k
  s.readFor (tagCmd k) c.part c.level va n

/-- A command ends with FAULT and the cause of its read (R423). -/
def State.faultCmd (s : State) (k : Nat) (cause : BitVec 8) : State := s.finishCmd k csFault cause.toNat

/-! ## Producers (R407, R412, R415) -/

/-- Producers of the table. -/
def producerCount : Nat := 4096

/-- Change a producer. -/
def State.updProd (s : State) (n : Nat) (f : Producer → Producer) : State := { s with producers := s.producers.upd n f }

/-- A producer table entry from its image (R407). -/
def producerOf (v : Nat) : Producer :=
  let b : BitVec 256 := BitVec.ofNat 256 v
  { (default : Producer) with
    v := b.getLsbD 63
    hostst := b.getLsbD 255
    staddr := bitsOf b 192 56
    splog2 := bitsOf b 184 8
    spbase := bitsOf b 128 56
    rlog2 := bitsOf b 120 8
    rbase := bitsOf b 64 56
    devp := b.getLsbD 62
    pri := b.getLsbD 61
    group := bitsOf b 57 4
    part := bitsOf b 53 4
    sup := b.getLsbD 52
    nextSeq := b.extractLsb' 0 32 }

/-- Does an image break a rule of R407 or hold a reserved bit (R10)? -/
def producerBad (v : Nat) : Bool :=
  let b : BitVec 256 := BitVec.ofNat 256 v
  let p := producerOf v
  bitsOf b 248 7 != 0 || bitsOf b 32 20 != 0 || p.staddr % 8 != 0 || decide (p.splog2 > 16) || (p.splog2 != 0 && !p.devp) ||
  p.spbase % 256 != 0 || p.rlog2 == 0 || decide (p.rlog2 > 16) || p.rbase % 4096 != 0

/-- Does a producer hold an entry that is not taken? -/
def Producer.pending (p : Producer) : Bool := !p.intake.isEmpty || decide (p.spillHead < p.spillTail)

/-! ## Doorbells and spill rings (R408–R412, R458) -/

/-- Start-up has reached stage 4 (R476). -/
def State.serving (s : State) : Bool := s.boot.powered && !s.boot.minimal && s.boot.stage == 4

/-- A frame is dropped and counted (R458); a device without power counts nothing. -/
def State.dropFrame (s : State) : State :=
  if s.boot.powered then { s with boot := { s.boot with dropped := s.boot.dropped + 1 } } else s

/-- DOORBELL (R408, R458): a frame of 1–32 submission words, each decided in order; it waits for room for the records it may leave (R443). -/
def execDoorbell (part : Nat) (words : List DWord) (s : State) : Out :=
  if !s.serving || words.isEmpty || decide (words.length > 32) then .next s.dropFrame
  else if !s.recRoom 0 (2 * words.length) then .next s
  else .next (words.foldl (fun s w => (s.submit w part false).1) s)

/-- An entry of a spill ring enters its intake ring. -/
def State.unspill (s : State) (n : Nat) (seq : Word) : State :=
  s.updProd n fun p => { p with intake := p.intake ++ [seq], spillHead := p.spillHead + 1 }

/-- INTAKE_SPILL_MOVE (R409, R412): the head of the spill ring moves into the intake; a read that fails leaves a record and waits for the
partition's next XLAT_INV. The SEQ of a poisoned entry is free (log 3). -/
def execIntakeSpillMove (prod : Nat) (s : State) : Out :=
  let p := s.producers.get prod
  if !p.v || p.blocked || decide (p.spillHead ≥ p.spillTail) || decide (p.intake.length ≥ intakeCap) || !s.recRoom 0 1 then .next s
  else
    let va := p.spillVa p.spillHead
    match s.readFor (tagProd prod) p.part p.sup va 8 with
    | .wait s => .next s
    | .ok bs => .next ((s.dropLines (tagProd prod)).unspill prod (BitVec.ofNat 32 (leNat bs / 2 ^ 32)))
    | .bad cause =>
      if cause == cUncorrectable then .next (((s.dropLines (tagProd prod)).unspill prod (Config.free32 s.free)).bumpFree)
      else .next (((s.dropLines (tagProd prod)).frontRecord p.part cause false va).updProd prod fun p => { p with blocked := true })

/-! ## Merge order (R413) -/

/-- A producer whose oldest untaken command can be taken: no STAMPWAIT in progress, its partition in place. -/
def State.eligible (s : State) (p : Producer) : Bool :=
  p.v && !p.intake.isEmpty && p.waiting.isNone && !s.partOut p.part && !s.restarting

/-- Of numbers, the first at or after n, cyclically. -/
def cyclicNext (n : Nat) : List Nat → Option Nat
  | [] => none
  | m :: ms =>
    match cyclicNext n ms with
    | none => some m
    | some k => some (if (m + producerCount - n) % producerCount ≤ (k + producerCount - n) % producerCount then m else k)

/-- The choice of one group's merge unit: the producer, and the unit after it. -/
def State.mergeChoice (s : State) (g : Nat) : Option (Nat × Merge) :=
  let ps := s.producers.cells.filter fun e => s.eligible e.2 && e.2.group == g
  let hi := (ps.filter fun e => e.2.pri).map (·.1)
  let lo := (ps.filter fun e => !e.2.pri).map (·.1)
  let m := s.merges.get g
  if hi.isEmpty || (!lo.isEmpty && decide (m.highRun ≥ 16)) then
    (cyclicNext m.nextNorm lo).map fun n => (n, { m with nextNorm := (n + 1) % producerCount, highRun := 0 })
  else
    (cyclicNext m.nextHigh hi).map fun n => (n, { m with
      nextHigh := (n + 1) % producerCount, highRun := if lo.isEmpty then m.highRun else m.highRun + 1 })

/-- The front end's choice: the groups round-robin, those with nothing skipped. -/
def State.nextProducer (s : State) : Option (Nat × Nat × Merge) :=
  ((List.range 16).map fun i => (s.nextGroup + i) % 16).findSome? fun g => (s.mergeChoice g).map fun x => (g, x)

/-! ## Taking (R414–R418) -/

/-- A command slot's fields. -/
def slotField (v lo len : Nat) : Nat := v / 2 ^ lo % 2 ^ len

/-- Is CTARGET of a form of R414: global, SCOPE .system, the record aligned; or none? -/
def ctargetOk (t : DWord) : Bool :=
  bitsOf t 61 3 == 0 && (tgSpc t == 3 || (tgSpc t == 0 && bitsOf t 58 3 == 7 && tgAddr t % 16 == 0))

/-- The command that a slot holds. -/
def cmdOf (prod : Nat) (p : Producer) (v : Nat) : Cmd :=
  let t := BitVec.ofNat 64 (slotField v 192 64)
  { (default : Cmd) with
    st := .taken
    prod := prod
    part := p.part
    level := p.sup
    seq := BitVec.ofNat 32 (slotField v 0 32)
    kind := slotField v 56 8
    arg0 := BitVec.ofNat 64 (slotField v 64 64)
    arg1 := BitVec.ofNat 64 (slotField v 128 64)
    ctarget := if ctargetOk t then t else tgNone
    cvalue := BitVec.ofNat 64 (slotField v 256 64)
    event := slotField v 48 1 == 1 }

/-- The instruction of a command's kind (R415, R449); none is FORM. -/
def kindInstr (id : Nat) (c : Cmd) : Option Instr :=
  match c.kind with
  | 1 => some (.launch id)
  | 2 => some (.delta id)
  | 3 => some (.stampwait id)
  | 4 => some (.config id)
  | 5 =>
    match bitsOf c.arg0 0 8 with
    | 1 => some (.partitionCreate id)
    | 2 => some (.partitionSwapout id)
    | 3 => some (.partitionSwapin id)
    | 4 => some (.partitionPreempt id)
    | 5 => some (.partitionDestroy id)
    | 6 => some (.partitionScrub id)
    | _ => none
  | 6 => some (.resume id)
  | 7 => some (.producer id)
  | 8 => some (.commandNop id)
  | _ => none

/-- A slot breaks R414 or R415: a reserved bit, a CTARGET of another form. -/
def slotBad (v : Nat) : Bool :=
  slotField v 320 192 != 0 || slotField v 312 8 != 0 || slotField v 49 7 != 0 || slotField v 32 16 != 0 ||
  !ctargetOk (BitVec.ofNat 64 (slotField v 192 64))

/-- The entry of a producer is gone from its intake. -/
def State.popIntake (s : State) (n : Nat) : State := s.updProd n fun p => { p with intake := p.intake.tail }

/-- A slot that was read is taken: its command begins its first effect at once, or is complete with FORM. -/
def State.takeSlotOf (s : State) (n v : Nat) : State :=
  let p := s.producers.get n
  let s := s.popIntake n
  if slotField v 0 32 ≠ (p.intake.headD 0).toNat then s.report n scSlotSeq (p.intake.headD 0).toNat
  else
    let id := s.nextCmd
    let c := cmdOf n p v
    let s := { s with cmds := s.cmds.put id c, nextCmd := id + 1 }
    match kindInstr id c with
    | none => s.finishCmd id csForm 0
    | some i => if slotBad v then s.finishCmd id csForm 0 else { s with agenda := i :: s.agenda }

/-- COMMAND_TAKE (R413, R416–R418): the front end reads the slot of the producer that the merge order chooses. A slot that cannot be
read names no completion record: its entry is gone. -/
def execCommandTake (s : State) : Out :=
  match s.nextProducer with
  | none => .next s
  | some (g, n, m) =>
    if !s.recRoom 0 1 then .next s
    else
      let p := s.producers.get n
      let seq := (p.intake.headD 0).toNat
      match s.readFor (tagProd n) p.part p.sup (p.rbase + 64 * (seq % 2 ^ p.rlog2)) 64 with
      | .wait s => .next s
      | .bad _ => .next { (s.dropLines (tagProd n)).popIntake n with merges := s.merges.put g m, nextGroup := (g + 1) % 16 }
      | .ok bs => .next ({ s.dropLines (tagProd n) with merges := s.merges.put g m, nextGroup := (g + 1) % 16 }.takeSlotOf n (leNat bs))

/-! ## Completion (R423, R425) -/

/-- A completion record. -/
def Cmd.record (c : Cmd) : BitVec 128 :=
  BitVec.ofNat 128 (c.seq.toNat * 2 ^ 96 + c.detail % 256 * 2 ^ 88 + c.kind % 256 * 2 ^ 80 + c.prod % 4096 * 2 ^ 64 +
    c.status % 256 * 2 ^ 56 + bitsOf c.cvalue 0 56)

/-- The copy of a record that an EVENT frame carries, in the host's event ring (R463). -/
def State.ringCopy (s : State) (p : Nat) (bs : List Byte) : State :=
  let q := (s.part p).qp
  if q.set && q.ringSet then
    let at' := q.ringAddr + BitVec.ofNat 64 (16 * (q.records % 2 ^ q.ringLog))
    { s.updPart p fun x => { x with qp := { q with records := q.records + 1 } } with
      sent := s.sent ++ [.hostWrite p at' (some q.ringKey) bs] }
  else s

/-- COMMAND_COMPLETE (R423, R425): the record, a release at .system, then the event frame. A target that cannot be written leaves a
fault record. -/
def execCommandComplete (cmd : Nat) (s : State) : Out :=
  let c := s.cmds.get cmd
  if c.st != .finished || !s.recRoom 0 1 then .next s
  else
    let bs := leBytes 16 c.record.toNat
    let t := if tgSpc c.ctarget = 3 then s
      else
        match s.unitWrite c.part c.level (tgAddr c.ctarget) bs with
        | .ok s => s
        | .error cause => s.frontRecord c.part cause true (tgAddr c.ctarget)
    let t := { t.dropLines (tagCmd cmd) with cmds := t.cmds.drop cmd }
    .next (if c.event then { t.ringCopy c.part bs with sent := (t.ringCopy c.part bs).sent ++ [.event c.part bs] } else t)

/-- COMMAND_NOP (R415): complete on taking. -/
def execCommandNop (cmd : Nat) (s : State) : Out :=
  let c := s.cmds.get cmd
  if c.st != .taken then .next s
  else .next (s.finishCmd cmd (if c.arg0 == 0 && c.arg1 == 0 then csOk else csForm) 0)

/-- PRODUCER (R415, R407). -/
def execProducer (cmd : Nat) (s : State) : Out :=
  let c := s.cmds.get cmd
  if c.st != .taken then .next s
  else if !c.level || bitsOf c.arg1 12 52 ≠ 0 then .next (s.finishCmd cmd csForm 0)
  else
    let n := bitsOf c.arg1 0 12
    match s.readCmd cmd c.arg0.toNat 32 with
    | .wait s => .next s
    | .bad cause => .next (s.faultCmd cmd cause)
    | .ok bs =>
      let old := s.producers.get n
      if producerBad (leNat bs) || (producerOf (leNat bs)).part ≠ c.part || (old.v && old.part ≠ c.part) then
        .next (s.finishCmd cmd csForm 0)
      else if old.pending then .next (s.finishCmd cmd csBusy 0)
      else .next ((s.updProd n fun _ => producerOf (leNat bs)).finishCmd cmd csOk 0)

/-! ## STAMPWAIT (R419) -/

/-- The comparison of a STAMPWAIT (R415). -/
def waitCmp (c : Cmd) : StampCmp :=
  match bitsOf c.arg1 56 2 with
  | 0 => .eq
  | 1 => .ne
  | _ => .ge

/-- A STAMPWAIT's argument is of no form of R415. -/
def waitBad (c : Cmd) : Bool :=
  bitsOf c.arg0 61 3 != 0 || tgSpc c.arg0 != 0 || tgAddr c.arg0 % 8 != 0 || bitsOf c.arg1 58 6 != 0 || bitsOf c.arg1 56 2 == 3

/-- The wait is over: its producer's later commands may be taken. -/
def State.endWait (s : State) (cmd status detail : Nat) : State :=
  let n := (s.cmds.get cmd).prod
  (s.updProd n fun p => { p with waiting := none }).finishCmd cmd status detail

/-- One read of the stamp: the wait ends, or goes on. -/
def State.readWait (s : State) (cmd : Nat) : State :=
  let c := s.cmds.get cmd
  match s.readCmd cmd (tgAddr c.arg0) 8 with
  | .wait s => s
  | .bad cause => s.endWait cmd csFault cause.toNat
  | .ok bs =>
    let w := BitVec.ofNat 64 (leNat bs)
    let s := s.dropLines (tagCmd cmd)
    if stampDone (waitCmp c) (bitsOf c.arg1 0 56) w then s.endWait cmd (if bitsOf w 56 8 = 0 then csOk else csStamp) (bitsOf w 56 8) else s

/-- STAMPWAIT (R419): no later command of its producer is taken until the wait ends. -/
def execStampwait (cmd : Nat) (s : State) : Out :=
  let c := s.cmds.get cmd
  if c.st != .taken then .next s
  else if waitBad c then .next (s.finishCmd cmd csForm 0)
  else .next (((s.updCmd cmd fun c => { c with st := .running }).updProd c.prod fun p => { p with waiting := some cmd }).readWait cmd)

/-- STAMPWAIT_END (R419, R171): the stamp is read again. -/
def execStampwaitEnd (cmd : Nat) (s : State) : Out :=
  let c := s.cmds.get cmd
  if c.st == .running && c.kind == 3 then .next (s.readWait cmd) else .next s

/-! ## Launch records (R192, R193) -/

/-- Is a field of a launch record nonzero? -/
def lrNonzero (r : BitVec 4096) (lo len : Nat) : Bool := (r.extractLsb' lo len) != 0

/-- KIND is wrong or a reserved field is not zero. -/
def lrFormBad (r : BitVec 4096) : Bool :=
  bitsOf r 56 8 != 1 ||
  [(0, 26), (120, 8), (184, 8), (320, 8), (418, 30), (448, 64), (832, 192), (3328, 768)].any (fun f => lrNonzero r f.1 f.2) ||
  ([3, 4, 5, 6, 7].any fun n =>
    let e := levEntry r n
    if levDeclared r n then e.getLsbD 63 || (n != 6 && bitsOf e 32 28 != 0) else e != 0) ||
  ((List.range 4).any fun j =>
    bitsOf (r.extractLsb' (2048 + 64 * j) 64) 8 55 != 0 || (List.range 4).any fun a => (modeWord r j a).getLsbD 15) ||
  ((List.range 16).any fun k => bitsOf (obWord r k) 59 3 != 0 || bitsOf (obWord r k) 12 20 != 0)

/-- An entry of the operand-buffer table that R71 rejects, for gangs of a die. -/
def obBad (r : BitVec 4096) (die : Nat) (w : DWord) : Bool :=
  if !w.getLsbD 63 then false
  else if w.getLsbD 62 then
    bitsOf w 56 3 != 0 || bitsOf w 32 16 != 0 || bitsOf w 0 12 != 0 ||
    !((List.range 4).any fun j => grantOf r j == some (die, bitsOf w 50 6) &&
      (mwMode (modeWord r j (bitsOf w 48 2)) == 1 || mwMode (modeWord r j (bitsOf w 48 2)) == 2))
  else
    bitsOf w 48 8 != 0 || bitsOf w 32 16 == 0 || decide (bitsOf w 32 16 > 4096) ||
    decide (bitsOf w 0 12 * 64 + (bitsOf w 56 3 + 1) * bitsOf w 32 16 * 64 > lrLocal r * 1024)

/-- The conditions on grants, mode words and operand buffers, for gangs placed on a die. -/
def lrGrantsBad (r : BitVec 4096) (die : Nat) : Bool :=
  ((List.range 4).any fun j => match grantOf r j with
    | some (d, y) => d != die || decide (y ≥ 48) || !modesOk (grantModes r j)
    | none => false) ||
  (List.range 16).any fun k => obBad r die (obWord r k)

/-- The first condition of R193 but the last that a launch record meets, for gangs placed on a die. -/
def lrError (r : BitVec 4096) (die : Nat) : Option Nat :=
  let levels := [3, 4, 5, 6, 7].filter fun n => levDeclared r n
  if lrFormBad r then some 1
  else if lrCrews r + lrReserve r > 32 then some 2
  else if lrCrews r > 4 * min 16 (quarterRows / lrBudget r) then some 3
  else if levels.any fun n => decide (bitsOf (levEntry r n) 60 3 < n) then some 4
  else if levels.any fun n => levCount r n == 0 || (n == 7 && levCount r n != 1) ||
      (n == 6 && decide (bitsOf (levEntry r n) 32 28 ≥ levCount r n)) then some 5
  else if lrGrantsBad r die then some 6
  else if lrFeat r &&& ~~~Config.feat != 0 then some 7
  else if lrLocal r > 256 then some 8
  else none

/-! ## LAUNCH (R194, R422–R427) -/

/-- Gangs of a launch on this device: the instances of levels 3–5 (R194). -/
def gangCount (r : BitVec 4096) : Nat := [3, 4, 5].foldl (fun n k => if levDeclared r k then n * levCount r k else n) 1

/-- Dies on which a partition holds a cluster. -/
def State.diesOf (s : State) (part : Nat) : List Nat :=
  (List.range Config.dies).filter fun d => (List.range 6).any fun c => (s.part part).clusters.getLsbD (6 * d + c)

/-- The die of a launch (R426): that of its grants; else the lowest with a core that takes a gang now; else the lowest. The dies of a
launch that declares a level above 2 are chosen in the same way (log 15). -/
def State.launchDie (s : State) (part : Nat) (r : BitVec 4096) : Nat :=
  match (List.range 4).findSome? fun j => grantOf r j with
  | some (d, _) => d
  | none =>
    let fits := (s.diesOf part).find? fun d => (s.bestFit ⟨part, d, lrFeat r, lrLocal r, startList r, 0, none, none⟩).isSome
    fits.getD ((s.diesOf part).headD 0)

/-- A launch enters placement: its gangs in $gang order. -/
def State.enterLaunch (s : State) (cmd die : Nat) (r : BitVec 4096) : State :=
  let c := s.cmds.get cmd
  let l := s.nextLaunch
  let n := gangCount r
  let x : Launch := ⟨true, cmd, c.part, r, c.level, n, Tbl.empty⟩
  ({ s with launches := s.launches.put l x, nextLaunch := l + 1 }.updDie die fun d => { d with
    placeq := d.placeq ++ (List.range n).map (PlaceReq.launchGang l) }).updCmd cmd fun c => { c with st := .running, launch := l }

/-- LAUNCH (R415, R424, R426): the record is read and checked, its yards granted (R66), and its gangs wait for placement. -/
def execLaunch (cmd : Nat) (s : State) : Out :=
  let c := s.cmds.get cmd
  if c.st != .taken then .next s
  else if c.arg1 != 0 || c.arg0.toNat % 256 ≠ 0 then .next (s.finishCmd cmd csForm 0)
  else
    match s.readCmd cmd c.arg0.toNat 512 with
    | .wait s => .next s
    | .bad cause => .next (s.faultCmd cmd cause)
    | .ok bs =>
      let r := BitVec.ofNat 4096 (leNat bs)
      let die := s.launchDie c.part r
      match lrError r die with
      | some e => .next (s.finishCmd cmd csLaunch e)
      | none =>
        match s.grantAll (false, s.nextLaunch) r with
        | none => .next (s.finishCmd cmd csLaunch 9)
        | some s => .next (s.enterLaunch cmd die r)

/-- LAUNCH_COMPLETE (R424): every gang has ended and every firing of its templates is complete. -/
def execLaunchComplete (launch : Nat) (s : State) : Out :=
  let x := s.launches.get launch
  if x.live && x.gangsLeft == 0 && !(s.ops.vals.any fun o => o.live && o.launch == some launch) then
    .next ({ s with launches := s.launches.drop launch }.finishCmd x.cmd csOk 0)
  else .next s

/-! ## Firmware (R418) -/

/-- FIRMWARE_RESTART (R412, R418): taking stops; latching goes on. -/
def execFirmwareRestart (s : State) : Out := .next { s with restarting := true }

/-- FIRMWARE_RESTART_END (R418): taking resumes from each producer's oldest untaken entry. -/
def execFirmwareRestartEnd (s : State) : Out := .next { s with restarting := false }

end Sys2Proof.Machine
end

