-- ==== Sys2Proof/Machine/Survey.lean ====
section
/-!
DEFINITION. Sys2Proof/Machine/Survey.lean: survey space (R481, R482): what SURVEY and SURVEYREQ read, and who may read it.
-/
namespace Sys2Proof.Machine

/-- What a survey address reads as. `free`: an object whose layout no rule gives (log 3). -/
inductive SurveyR where
  | word (w : DWord)
  | free
  | refused
  | misaligned
  | privilege
  deriving DecidableEq, Repr

/-- Two 32-bit words as the 8 bytes they fill. -/
def twoWords (lo hi : Word) : DWord := hi ++ lo

/-- The 64-bit word of a byte list at an offset; bytes beyond its end read 0. -/
def listWord (bs : List Byte) (off : Nat) : DWord := BitVec.ofNat 64 (leNat ((bs.drop off).take 8))

/-- The 32-byte image of a producer entry (R407). -/
def Producer.image (p : Producer) : BitVec 256 :=
  BitVec.ofNat 256 (p.nextSeq.toNat + (if p.sup then 2 ^ 52 else 0) + p.part % 16 * 2 ^ 53 + p.group % 16 * 2 ^ 57 +
    (if p.pri then 2 ^ 61 else 0) + (if p.devp then 2 ^ 62 else 0) + (if p.v then 2 ^ 63 else 0) +
    p.rbase % 2 ^ 56 * 2 ^ 64 + p.rlog2 % 256 * 2 ^ 120 + p.spbase % 2 ^ 56 * 2 ^ 128 + p.splog2 % 256 * 2 ^ 184 +
    p.staddr % 2 ^ 56 * 2 ^ 192 + (if p.hostst then 2 ^ 255 else 0))

/-- MEMERR's layout (R91). -/
def memerrWord (reloads uncorr corr : Nat) : DWord :=
  BitVec.ofNat 64 (min reloads 0xFFFF * 2 ^ 48 + min uncorr 0xFFFF * 2 ^ 32 + min corr 0xFFFFFFFF)

/-- Is record B the current one: valid, with the higher sequence number (R479)? -/
def Boot.useB (b : Boot) : Bool := b.recB.valid && (!b.recA.valid || decide (b.recB.seqno > b.recA.seqno))

/-- The current start-counter record (R479). -/
def Boot.current (b : Boot) : StartRec := if b.useB then b.recB else b.recA

/-- BOOTST (R480). -/
def Boot.word (b : Boot) : DWord :=
  let r := b.current
  BitVec.ofNat 64 (r.reason % 256 * 2 ^ 56 + r.stage % 256 * 2 ^ 48 + (if b.minimal then 2 ^ 40 else 0) + r.count % 256 * 2 ^ 32 +
    b.svn % 2 ^ 32)

/-- THERM of a die (R483). -/
def Die.therm (d : Die) : DWord :=
  BitVec.ofNat 64 (d.episodes.toNat * 2 ^ 48 + d.throttle.toNat * 2 ^ 32 + d.gated.toNat * 2 ^ 16 + d.temp.toNat)

/-- The parts of a crew context from offset 0x8000, in the order of R447: PC, level, trap registers, S, P and D registers, $fpsr, $seed
and generators; the layout of the others is not given. -/
def crewPart (c : Crew) (off : Nat) : SurveyR :=
  let i := off / 8
  if i = 0 then .word (BitVec.ofNat 64 c.run.pc)
  else if i = 1 then .word (if c.level then 1 else 0)
  else if i = 2 then .word c.trPc
  else if i = 3 then .word c.trCause
  else if i = 4 then .word c.trAddr
  else if i = 5 then .word c.trS0
  else if i = 6 then .word c.trS1
  else if i < 71 then .word (c.sreg (i - 7))
  else if i < 75 then .word (twoWords (c.pred (BitVec.ofNat 3 (2 * (i - 71)))) (c.pred (BitVec.ofNat 3 (2 * (i - 71) + 1))))
  else if i < 139 then .word (c.dword (i - 75))
  else if i = 139 then .word c.fpsr
  else if i = 140 then .word c.seed
  else if i < 157 then .word (twoWords (c.gens.get (2 * (i - 141))) (c.gens.get (2 * (i - 141) + 1)))
  else .free

/-- Does a partition hold a cluster? -/
def State.holdsCluster (s : State) (p cl : Nat) : Bool := p = 0 || (s.part p).clusters.getLsbD cl

/-- An object that a partition owns, or nobody but partition 0 may read. -/
def ownedBy (p : Nat) (owner : Option Nat) (r : SurveyR) : SurveyR :=
  if p = 0 || owner == some p then r else .refused

/-- Area 0x0: a crew context. -/
def surveyCrew (s : State) (p die idx off : Nat) : SurveyR :=
  let c := s.crew idx
  if die ≠ 0 || c.place == .free then ownedBy p none (.word 0)
  else
    ownedBy p (some c.part)
      (if off < 0x8000 then .word (twoWords (c.vreg (off / 128) (off % 128 / 4)) (c.vreg (off / 128) (off % 128 / 4 + 1)))
       else crewPart c (off - 0x8000))

/-- A resident crew's slot of its core: its quarter's 16 slots, in the order of the rows that the crews hold (R481 does not number the slots; log 91). -/
def State.crewSlot (s : State) (k : Nat) : Nat :=
  let c := s.crew k
  c.quarter * 16 + (s.crews.vals.filter fun d =>
    d.place == .resident && d.core == c.core && d.quarter == c.quarter && decide (d.rowBase < c.rowBase)).length

/-- The stall reason of a crew slot (R207): 0 where no crew is. -/
def State.slotStall (s : State) (core slot : Nat) : DWord :=
  match s.crews.cells.find? fun e => e.2.place == .resident && e.2.core == core && s.crewSlot e.1 == slot with
  | some e => e.2.stall.setWidth 64
  | none => 0

/-- Area 0x1: a core. -/
def surveyCore (s : State) (p die idx off : Nat) : SurveyR :=
  if die ≥ Config.dies || idx ≥ Config.coresPerDie then ownedBy p none (.word 0)
  else
    let core := die * Config.coresPerDie + idx
    let k := s.core core
    if !s.holdsCluster p (clusterOf core) then .refused
    else if off < 0x40000 then .word (s.read64 (localAp core + off))
    else if off < 0x41000 then
      let q := k.queues.get ((off - 0x40000) / 256)
      .word ((q.entries.getD ((off - 0x40000) % 256 / 8) (0, 0)).2)
    else if off < 0x41080 then .word (BitVec.ofNat 64 ((k.queues.get ((off - 0x41000) / 8)).entries.length))
    else if off < 0x42000 then .word 0
    else if off < 0x42200 then .word (s.slotStall core ((off - 0x42000) / 8))
    else if off < 0x43000 then .word 0
    else if off < 0x43400 then (if (k.templates.get ((off - 0x43000) / 256)).armed then .free else .word 0)
    else .word 0

/-- Area 0x2: a yard. -/
def surveyYard (s : State) (p die idx off : Nat) : SurveyR :=
  if die ≥ Config.dies || idx ≥ 48 then ownedBy p none (.word 0)
  else
    let y := die * 48 + idx
    if !s.holdsCluster p (y / 8) then .refused
    else if off < 0x200000 then .word (s.read64 (yardAp y + off))
    else if off < 0x200020 then .word ((s.yards.get y).modes.getD ((off - 0x200000) / 8) 0)
    else if off < 0x200040 then .word 0
    else if (s.yards.get y).configured then .free
    else .word 0

/-- Area 0x3: a token record. -/
def surveyToken (s : State) (p die off : Nat) : SurveyR :=
  if die ≥ Config.dies || off / 128 ≥ 32768 then ownedBy p none (.word 0)
  else
    let t := s.pool.get (die * 32768 + off / 128)
    ownedBy p (if t.used then some t.part else none) (.word (t.bits.extractLsb' (off % 128 * 8) 64))

/-- Area 0x4: the bench image a core has loaded, then live state. -/
def surveyBench (s : State) (p die idx off : Nat) : SurveyR :=
  if die ≥ Config.dies || idx ≥ Config.coresPerDie then ownedBy p none (.word 0)
  else
    match s.benches.vals.find? fun b => b.live && b.core == die * Config.coresPerDie + idx with
    | some b => ownedBy p (some b.part) (if off < b.img.length then .word (listWord b.img off) else .free)
    | none => ownedBy p none (.word 0)

/-- No read at privilege level 0 returns the partition number (R41): a field PART of 4 bits reads 0 there. -/
def hidePart (level : Bool) (at' : Nat) (w : DWord) : DWord := if level then w else w &&& ~~~(0xF#64 <<< at')

/-- Area 0x5: the front end. -/
def surveyFront (s : State) (p die : Nat) (level : Bool) (off : Nat) : SurveyR :=
  if die ≠ 4 then ownedBy p none (.word 0)
  else if off < 0x20000 then
    let e := s.producers.get (off / 32)
    ownedBy p (if e.v then some e.part else none) (.word (if off % 32 = 0 then hidePart level 53 (e.image.extractLsb' 0 64) else e.image.extractLsb' (off % 32 * 8) 64))
  else if off < 0xA0000 then
    let n := (off - 0x20000) / 128
    let e := s.producers.get n
    ownedBy p (if e.v then some e.part else none)
      (.word (match e.intake[(off - 0x20000) % 128 / 8]? with
        | some q => BitVec.ofNat 64 (q.toNat * 2 ^ 32 + n)
        | none => 0))
  else if off = 0xA0000 then ownedBy p none (.word (BitVec.ofNat 64 s.boot.dropped))
  else ownedBy p none (.word 0)

/-- Area 0x6: a die's fault queue and record buffer. -/
def surveyFaults (s : State) (p die : Nat) (level : Bool) (off : Nat) : SurveyR :=
  if die ≥ Config.dies then ownedBy p none (.word 0)
  else if off < 0x10000 then
    let e := (s.die die).fq.get (off / 64)
    if e.valid then ownedBy p (some e.part) .free else ownedBy p none (.word 0)
  else
    match (s.die die).recs[(off - 0x10000) / 32]? with
    | some r => ownedBy p (some r.part) (.word (if off % 32 = 8 then hidePart level 40 (r.bits.extractLsb' 64 64) else r.bits.extractLsb' (off % 32 * 8) 64))
    | none => ownedBy p none (.word 0)

/-- Area 0x7: an operator table or a carousel program. -/
def surveyRegion (s : State) (p die idx off : Nat) : SurveyR :=
  if die ≥ Config.dies || idx > 1 then ownedBy p none (.word 0)
  else
    let r := if idx = 0 then (s.die die).opTable else (s.die die).carousel
    ownedBy p (if r.present then some r.part else none) (.word (listWord r.bytes off))

/-- The partition that a shadow unit of 1 MiB is allocated to (R97). -/
def State.unitOwner (s : State) (u : Nat) : Option Nat :=
  (s.parts.cells.find? fun e => e.2.present && e.2.units.contains u).map (·.1)

/-- A table of registers as plain numbers. -/
def tblNats (n : Nat) (t : Tbl (BitVec n)) : List Nat := t.cells.flatMap fun e => [e.1, e.2.toNat]

/-- What a saved crew's context holds, as plain numbers (R447). -/
def Crew.savedNats (k : Nat) (c : Crew) : List Nat :=
  [k, c.gang, c.run.pc, if c.level then 1 else 0, c.trPc.toNat, c.trCause.toNat, c.trAddr.toNat, c.trS0.toNat, c.trS1.toNat, c.fpsr.toNat,
    c.seed.toNat] ++ tblNats 32 c.v ++ tblNats 64 c.s ++ tblNats 32 c.p ++ tblNats 64 c.d ++ tblNats 32 c.gens

/-- What a partition's contexts in a die's shadow store hold, as plain numbers: saved crews, and the local bytes and tiles of saved gangs (R96). -/
def State.shadowNats (s : State) (p die : Nat) : List Nat :=
  (s.crews.cells.flatMap fun e =>
    if e.2.place == .saved && e.2.part == p && dieOf e.2.core == die then e.2.savedNats e.1 else []) ++
  s.gangs.cells.flatMap fun e =>
    if e.2.saved && e.2.part == p && dieOf e.2.core == die then
      e.1 :: (((s.part p).savedLocal.filter fun l => l.1 == e.1).flatMap fun l => l.2.1.flatMap fun b => [b.1, b.2.toNat]) ++
        e.2.savedTiles.cells.flatMap fun t => t.1 :: tblNats 32 t.2.words
    else []

/-- Area 0x8: a byte belongs to the partition whose shadow unit holds it, or to none (R54, R482). The same contexts read the same: no rule lays the
store out, so what stands at an offset is an open function of them (log 90). -/
def surveyShadow (s : State) (p die off : Nat) : SurveyR :=
  if die ≥ Config.dies || off ≥ 48 * 2 ^ 20 then ownedBy p none (.word 0)
  else
    match s.unitOwner (off / 2 ^ 20) with
    | some q => ownedBy p (some q) (.word (Config.shadowWord die off (s.shadowNats q die)))
    | none => ownedBy p none (.word (Config.shadowWord die off []))

/-- Area 0x9: device status, which every partition may read. -/
def surveyStatus (s : State) (die off : Nat) : SurveyR :=
  if die ≠ 4 then .word 0
  else if off = 0 then .word s.boot.word
  else if off < 0x28 then .word (s.die (off / 8 - 1)).therm
  else if off = 0x40 then .word s.hubErrs
  else .word 0

/-- A read of survey space by partition p at a privilege level (R404, R481, R482). -/
def State.survey (s : State) (p : Nat) (level : Bool) (a : DWord) : SurveyR :=
  let die := bitsOf a 57 3
  let idx := bitsOf a 43 14
  let off := bitsOf a 0 43
  if a.toNat % 8 ≠ 0 then .misaligned
  else
    match bitsOf a 60 4 with
    | 0 => surveyCrew s p die idx off
    | 1 => surveyCore s p die idx off
    | 2 => surveyYard s p die idx off
    | 3 => if idx = 0 then surveyToken s p die off else ownedBy p none (.word 0)
    | 4 => surveyBench s p die idx off
    | 5 => if idx = 0 then surveyFront s p die level off else ownedBy p none (.word 0)
    | 6 => if idx = 0 then surveyFaults s p die level off else ownedBy p none (.word 0)
    | 7 => surveyRegion s p die idx off
    | 8 => if !level then .privilege else if idx = 0 then surveyShadow s p die off else ownedBy p none (.word 0)
    | 9 => if idx = 0 then surveyStatus s die off else .word 0
    | _ => .word 0

/-- The value a permitted read gives; an open one takes the next free value (log 3). -/
def State.surveyVal (s : State) (r : SurveyR) : State × DWord :=
  match r with
  | .word w => (s, w)
  | .free => (s.bumpFree, Config.freeWord s.free)
  | _ => (s, 0)

end Sys2Proof.Machine
end

