-- ==== Sys2Proof/Machine/SysRegs.lean ====
section
/-!
DEFINITION. Sys2Proof/Machine/SysRegs.lean: the system registers (R403): what SYSR reads and what SYSW does, register by register
(R34, R37–R39, R48, R49, R91, R408–R411, R436, R443); XLAT_INV and its completion (R37, R38).
-/
namespace Sys2Proof.Machine

/-- Bits hi:lo of a word kept, the others 0 (R10). -/
def keepBits (x : DWord) (hi lo : Nat) : DWord := BitVec.ofNat 64 (bitsOf x lo (hi + 1 - lo) * 2 ^ lo)

/-- Is an invalidation of R37 or R39 in progress? -/
def State.invBusy (s : State) : Bool := s.invals.any fun i => decide (i.kind < 4)

/-- Status bytes of an ACK (R458). -/
def ackOk : Nat := 0
def ackBusy : Nat := 1
def ackForm : Nat := 2
def ackDenied : Nat := 3

/-- The device answers an authenticated frame under its partition, with the next CTR of its own (R458, R459). -/
def State.ack (s : State) (p : Nat) (reqCtr : DWord) (status : Nat) : State :=
  let c := (s.part p).ctrOut + 1
  { s.updPart p fun x => { x with ctrOut := c } with sent := s.sent ++ [.ack p status reqCtr c] }

/-- What SYSR reads (R403). A write-only register is rejected at decode and reads 0 here. -/
def State.sysRead (s : State) (k : Nat) (r : SysReg) : DWord :=
  let c := s.crew k
  let p := s.part c.part
  let d := s.die (dieOf c.core)
  match r with
  | .xlatInv | .fqResume | .submit => 0
  | .xlatStat => if s.invBusy then 1 else 0
  | .kvdescBase => p.kvdesc
  | .ptRoot => p.ptRoot
  | .privRoot => c.privRoot
  | .privHwm => c.privHwm
  | .privLimit => c.privLimit
  | .memerr => memerrWord d.reloads d.uncorr d.corrected
  | .carPeriod => d.rot ++ d.last
  | .submitSt => c.submitSt
  | .trPc => c.trPc
  | .trCause => c.trCause
  | .trAddr => c.trAddr
  | .trS0 => c.trS0
  | .trS1 => c.trS1
  | .trVec => p.trVec
  | .wdog => p.wdog
  | .frRing => p.frRing
  | .frStamp => p.frStamp
  | .frRead => p.frRead

/-! ## XLAT_INV (R37, R38) -/

/-- Does an invalidation match a cached entry? -/
def Inval.hits (i : Inval) (t : TlbEntry) : Bool :=
  t.part == i.part &&
  (match i.kind with
   | 0 => true
   | 1 => (t.kind == 0 || t.kind == 3) && i.arg / 2 ^ t.size == t.page
   | 2 => t.kind == 1 && t.ctx == i.arg % 2 ^ 32
   | 4 => true
   | _ => t.kind == 2 && t.ctx == i.arg % 2 ^ 14)

/-- An invalidation begins; records and spilled entries that did not translate are tried again (R443, R409). -/
def State.startInval (s : State) (i : Inval) : State :=
  { s with
    invals := s.invals ++ [i]
    producers := s.producers.mapVals fun p => if p.part == i.part then { p with blocked := false } else p }.updPart i.part fun p => { p with frBlocked := false }

/-- What an XLAT_INV word asks for. -/
def invalOf (part : Nat) (v : DWord) : Inval := ⟨part, bitsOf v 62 2, bitsOf v 0 56, none⟩

/-- Cores whose crews, buffers or requests carry accesses of a partition. -/
def State.partCores (s : State) (p : Nat) : List Nat :=
  ((s.crews.vals.filter fun c => c.part == p && c.place != .free).map (·.core) ++
    (s.inflight.filter fun r => r.part == p).map (·.core)).eraseDups

/-- Requests of a partition that were translated and have not performed. -/
def State.translatedOpen (s : State) (p : Nat) : Bool :=
  s.inflight.any (fun r => r.part == p) ||
  (s.partCores p).any (fun k => !(s.core k).cb.isEmpty) ||
  s.outstanding.any fun o => match o.msg with
    | .read _ _ _ _ _ q | .write _ _ _ _ _ q | .atomic _ _ _ _ _ _ _ _ q => q == p
    | _ => false

/-- Does a captured location still translate to where it did? -/
def State.locFresh (s : State) (k : Nat) (a : Acc) (x : Loc) : Bool :=
  let c := s.crew k
  match x.space with
  | .global => s.xlat c.part k c.level false a x.addr == .ok x.dev x.pa x.mtype
  | _ => true

/-- The permission that a captured access of a slot needs (R26, R356). -/
def capAcc (w : DWord) : Acc :=
  match decode w with
  | .instr (.stg _) => .store
  | .instr (.atomGlobal _) | .instr (.atomGlobalNoret _) => .atomic
  | .instr (.ldg _) | .instr (.waitStamp _ _ _ _ _) => .load
  | _ => .valid

/-- The captured accesses of a crew's sett that it has not used: slot, lane, permission, place. -/
def Sett.openLocs (t : Sett) : List (Nat × Nat × Acc × Loc) :=
  let first := match t.phase with
    | .exec => 0
    | _ => t.slot
  ((t.caps.filter fun p => decide (p.slot ≥ first)).map fun p => (p.slot, p.lane, capAcc (t.words.getD p.slot 0), p.loc)) ++
  (if t.phase == .exec then t.stores.map fun r => (r.slot, r.lane, Acc.store, r.loc) else [])

/-- Is every address that a sett captured and has not used still mapped as it was, and still permitted? -/
def State.settFresh (s : State) (k : Nat) : Bool := (s.crew k).sett.openLocs.all fun x => s.locFresh k x.2.2.1 x.2.2.2

/-- A captured place translated anew. -/
def State.locAgain (s : State) (k : Nat) (a : Acc) (x : Loc) : Loc :=
  let c := s.crew k
  match x.space, s.xlat c.part k c.level false a x.addr with
  | .global, .ok dev pa mt => { x with dev := dev, pa := pa, mtype := mt }
  | _, _ => x

/-- The captured accesses of a sett that has not committed are translated anew, as accesses of a sett that still executes (R32, R38): those
that no longer translate raise their exception, of the lowest slot and lane (R348). -/
def State.retranslate (s : State) (k : Nat) : State :=
  let c := s.crew k
  let bad := c.sett.openLocs.filter fun x => match x.2.2.2.space, s.xlat c.part k c.level false x.2.2.1 x.2.2.2.addr with
    | .global, .bad _ => true
    | _, _ => false
  let first := bad.foldl (fun (m : Option (Nat × Nat × Acc × Loc)) x => match m with
    | some y => if x.1 < y.1 then some x else m
    | none => some x) none
  match first with
  | some (slot, lane, a, x) =>
    match s.xlat c.part k c.level false a x.addr with
    | .bad cause => if c.sett.exc.isSome then s else s.raiseAt k ⟨cause, BitVec.ofNat 64 x.addr, slot, lane, 0⟩
    | .ok _ _ _ => s
  | none => if c.sett.exc.isSome then s else
    s.updCrew k fun c => { c with sett := { c.sett with
      caps := c.sett.caps.map fun p => { p with loc := s.locAgain k (capAcc (c.sett.words.getD p.slot 0)) p.loc }
      stores := c.sett.stores.map fun r => { r with loc := s.locAgain k .store r.loc } } }

/-- A conditional copy that has translated its version word and has not come to its end still finds it there (R179, R38). -/
def State.opFresh (s : State) (o : EngineOp) : Bool :=
  !(o.live && o.accepted && o.kind == .cond) || o.stage == .parked || o.stage == .performed || o.stage == .done ||
  o.locs.all fun x => match x.space with
    | .global => s.xlat o.part o.crew o.level false .atomic x.addr == .ok x.dev x.pa x.mtype
    | _ => true

/-- The keys of granules of this device change (R473): what stands there decrypts to values that nothing states (log 3). -/
def State.rekey (s : State) (gs : List Nat) : State :=
  gs.foldl (fun s g => { s with mem := s.mem.freshen (g * 2 ^ 30) (2 ^ 30) s.free }.bumpFree) s

/-- XLAT_INV_COMPLETE (R38): what the cores of the partitions hold is sent; when every request translated before has performed, the
matching entries are dropped. The accesses of a sett that has not committed are translated anew; one in its commit is waited for, and so is
a conditional copy's version word. -/
def State.completeInval (s : State) : State :=
  match s.invals with
  | [] => s
  | i :: _ =>
    let s := (s.partCores i.part).foldl (fun s k => s.releaseCore k) s
    if s.translatedOpen i.part then s
    else
      let t := { s with tlb := s.tlb.filter fun e => !i.hits e }
      let stale := (t.crews.cells.filter fun e => e.2.part == i.part && e.2.sett.phase != .idle && !t.settFresh e.1).map (·.1)
      if stale.any (fun k => (s.crew k).sett.phase != .exec) || t.ops.vals.any (fun o => o.part == i.part && !t.opFresh o) then s
      else
        let t := { stale.foldl (fun s k => s.retranslate k) t with invals := t.invals.drop 1 }
        match i.ack with
        | some (ctr, gone) => (t.rekey gone).ack 0 ctr ackOk
        | none => t

/-! ## Writes -/

/-- PT_ROOT (R39): ignored when ROOT names another device; otherwise everything of the partition is invalidated. -/
def State.writePtRoot (s : State) (part : Nat) (v : DWord) : State :=
  if paDev (pteAddr v) ≠ s.dev then s
  else
    (s.updPart part fun p => { p with ptRoot := keepBits v 51 8 ||| keepBits v 0 0 }).startInval ⟨part, 0, 0, none⟩

/-- PRIV_HWM (R49): above LIMIT it stores LIMIT; lowering it drops the private entries above the new mark. -/
def State.writeHwm (s : State) (k : Nat) (v : DWord) : State :=
  let c := s.crew k
  let h := min (bitsOf v 0 17) (bitsOf c.privLimit 0 17)
  { s with tlb := s.tlb.filter fun t => !(t.kind == 2 && t.part == c.part && t.ctx == k && decide (t.page ≥ h)) }.updCrew k fun c =>
    { c with privHwm := BitVec.ofNat 64 h }

/-- MEMERR (R91, R92): any write clears the counts of the writer's die. -/
def State.clearMemerr (s : State) (k : Nat) : State :=
  s.updDie (dieOf (s.crew k).core) fun d => { d with corrected := 0, uncorr := 0, reloads := 0 }

/-- FQ_RESUME (R34): the named entries of the writer's partition on its die are to be replayed or cancelled. -/
def State.resumeFq (s : State) (k : Nat) (v : DWord) : State :=
  let c := s.crew k
  let e := bitsOf v 0 11
  let act := if v.getLsbD 63 then 2 else 1
  s.updDie (dieOf c.core) fun d => { d with
    fq := ⟨d.fq.cells.map fun x =>
      if (e == 0x7FF || e == x.1) && x.2.valid && x.2.part == c.part then (x.1, { x.2 with act := act }) else x⟩ }

/-- FR_RING (R436): a LOG2N of 1–3 or above 16 is ignored. -/
def State.writeFrRing (s : State) (part : Nat) (v : DWord) : State :=
  let n := bitsOf v 59 5
  s.updPart part fun p => { p with
    frRing := if n = 0 || (4 ≤ n && n ≤ 16) then keepBits v 63 59 ||| keepBits v 55 12 else p.frRing
    frBlocked := false }

/-- FR_STAMP (R436). -/
def State.writeFrStamp (s : State) (part : Nat) (v : DWord) : State :=
  s.updPart part fun p => { p with frStamp := keepBits v 55 3, frBlocked := false }

/-- FR_READ (R443): a value below the current one, or above the records written, is ignored. -/
def State.writeFrRead (s : State) (part : Nat) (v : DWord) : State :=
  s.updPart part fun p => { p with
    frRead := if v.toNat < p.frRead.toNat || v.toNat > p.frSeq then p.frRead else v
    frBlocked := false }

/-- SUBMIT (R409, R411): decided at once; its code and SEQ stand in SUBMIT_ST. -/
def State.writeSubmit (s : State) (k : Nat) (v : DWord) : State :=
  let (s, code) := s.submit (keepBits v 63 32 ||| keepBits v 11 0) (s.crew k).part true
  s.updCrew k fun c => { c with submitSt := BitVec.ofNat 64 (code * 2 ^ 56 + bitsOf v 32 32) }

/-- What SYSW does (R403): reserved bits are ignored (R10). A read-only register is rejected at decode and keeps its value here. -/
def State.sysWrite (s : State) (k : Nat) (r : SysReg) (v : DWord) : State :=
  let part := (s.crew k).part
  match r with
  | .xlatStat | .privLimit | .carPeriod | .submitSt => s
  | .xlatInv => s.startInval (invalOf part v)
  | .fqResume => s.resumeFq k v
  | .submit => s.writeSubmit k v
  | .kvdescBase => if bitsOf v 56 8 > 24 then s else s.updPart part fun p => { p with kvdesc := keepBits v 63 56 ||| keepBits v 47 5 }
  | .ptRoot => s.writePtRoot part v
  | .privRoot => s.updCrew k fun c => { c with privRoot := keepBits v 47 8 }
  | .privHwm => s.writeHwm k v
  | .memerr => s.clearMemerr k
  | .trPc => s.updCrew k fun c => { c with trPc := keepBits v 55 0 }
  | .trCause => s.updCrew k fun c => { c with trCause := keepBits v 63 14 ||| keepBits v 7 0 }
  | .trAddr => s.updCrew k fun c => { c with trAddr := v }
  | .trS0 => s.updCrew k fun c => { c with trS0 := v }
  | .trS1 => s.updCrew k fun c => { c with trS1 := v }
  | .trVec => s.updPart part fun p => { p with trVec := keepBits v 55 0 }
  | .wdog => s.updPart part fun p => { p with wdog := keepBits v 31 0 }
  | .frRing => s.writeFrRing part v
  | .frStamp => s.writeFrStamp part v
  | .frRead => s.writeFrRead part v

/-- Does a write of a register wait while an invalidation is in progress (R37, R39)? -/
def waitsInval : SysReg → Bool
  | .xlatInv | .ptRoot => true
  | _ => false

/-! ## The same effects as steps of their own -/

/-- A crew that is resident and at level 1 may have its register write taken. -/
def State.supervisor (s : State) (k : Nat) : Bool := (s.crew k).place == .resident && (s.crew k).level

/-- A register write as a step of crew k (R403); a write that waits for an invalidation leaves the state as it is. -/
def State.writeStep (s : State) (k : Nat) (r : SysReg) (v : DWord) : State :=
  if (if r == .submit then (s.crew k).place == .resident && s.submitRoom else s.supervisor k) && (!waitsInval r || !s.invBusy) then
    s.sysWrite k r v
  else s

/-- XLAT_INV with KIND 0b00: every entry of the writer's partition (R37). -/
def execXlatInvPartition (crew : Nat) (s : State) : Out := .next (s.writeStep crew .xlatInv 0)
/-- XLAT_INV with KIND 0b01: the global page that contains ARG (R37). -/
def execXlatInvPage (crew : Nat) (arg : BitVec 56) (s : State) : Out :=
  .next (s.writeStep crew .xlatInv (BitVec.ofNat 64 (2 ^ 62 + arg.toNat)))
/-- XLAT_INV with KIND 0b10: every page of a KV handle (R37, R46). -/
def execXlatInvKv (crew : Nat) (handle : BitVec 32) (s : State) : Out :=
  .next (s.writeStep crew .xlatInv (BitVec.ofNat 64 (2 ^ 63 + handle.toNat)))
/-- XLAT_INV with KIND 0b11: every private entry of a crew context (R37). -/
def execXlatInvPrivate (crew : Nat) (ctx : BitVec 14) (s : State) : Out :=
  .next (s.writeStep crew .xlatInv (BitVec.ofNat 64 (2 ^ 63 + 2 ^ 62 + ctx.toNat)))
/-- The end of an invalidation (R38). -/
def execXlatInvComplete (s : State) : Out := .next s.completeInval
/-- PT_ROOT written (R39). -/
def execPtRootWrite (crew : Nat) (v : DWord) (s : State) : Out := .next (s.writeStep crew .ptRoot v)
/-- PRIV_HWM written (R49). -/
def execPrivHwmWrite (crew : Nat) (v : DWord) (s : State) : Out := .next (s.writeStep crew .privHwm v)
/-- MEMERR written (R91, R92). -/
def execMemerrWrite (crew : Nat) (v : DWord) (s : State) : Out := .next (s.writeStep crew .memerr v)
/-- FR_READ written (R443). -/
def execFrReadWrite (crew : Nat) (v : DWord) (s : State) : Out := .next (s.writeStep crew .frRead v)
/-- SUBMIT written (R411). -/
def execSubmitWrite (crew : Nat) (v : DWord) (s : State) : Out := .next (s.writeStep crew .submit v)
/-- FR_RING written (R436, R443). -/
def execFrRingWrite (crew : Nat) (v : DWord) (s : State) : Out := .next (s.writeStep crew .frRing v)
/-- FR_STAMP written (R436, R443). -/
def execFrStampWrite (crew : Nat) (v : DWord) (s : State) : Out := .next (s.writeStep crew .frStamp v)
/-- Any other system register written (R403). -/
def execSystemRegisterWrite (crew : Nat) (r : SysReg) (v : DWord) (s : State) : Out := .next (s.writeStep crew r v)

end Sys2Proof.Machine
end

