-- ==== Sys2Proof/Machine/Frames.lean ====
section
/-!
DEFINITION. Sys2Proof/Machine/Frames.lean: the host port: management frames (R457–R460, R468–R474) and RoCEv2 (R461–R463).
-/
namespace Sys2Proof.Machine

/-! ## Frames (R457–R459) -/

/-- The device answers as R480 says: only the foreman core and the host port run. -/
def State.inMinimal (s : State) : Bool := s.boot.powered && s.boot.minimal

/-- A frame is accepted: its partition is keyed, its tag verifies, its CTR exceeds the last one accepted (R459). -/
def State.authOk (s : State) (a : Auth) : Bool :=
  decide (a.part < 16) && (s.part a.part).keyed && a.tagOk && decide ((s.part a.part).ctrIn < a.ctr)

/-- The accepted frame's CTR is the last. -/
def State.accepted (s : State) (a : Auth) : State := s.updPart a.part fun p => { p with ctrIn := a.ctr }

/-- An authenticated request (R459): dropped, or accepted and answered. -/
def State.request (s : State) (a : Auth) (f : State → State) : State :=
  if s.serving && s.authOk a then f (s.accepted a) else s.dropFrame

/-- A request that only partition 0 may make (R459). -/
def State.ownerRequest (s : State) (a : Auth) (f : State → State) : State :=
  s.request a fun s => if a.part = 0 then f s else s.ack a.part a.ctr ackDenied

/-! ## Survey (R458, R482) -/

/-- One address of a SURVEYREQ: value and status. -/
def State.surveyOne (s : State) (p : Nat) (x : DWord) : State × DWord × Nat :=
  match s.survey p true x with
  | .misaligned => (s, 0, 2)
  | .refused | .privilege => (s, 0, 1)
  | r =>
    let (s, v) := s.surveyVal r
    (s, v, 0)

/-- The addresses of a SURVEYREQ in order. -/
def State.surveyMany (s : State) (p : Nat) : List DWord → State × List (DWord × Nat)
  | [] => (s, [])
  | x :: xs =>
    let (s, v) := s.surveyOne p x
    let (s, vs) := s.surveyMany p xs
    (s, v :: vs)

/-- The reply to a SURVEYREQ, with the next CTR of the device's own. -/
def State.surveyReply (s : State) (p : Nat) (xs : List DWord) : State :=
  let (s, vs) := s.surveyMany p xs
  let c := (s.part p).ctrOut + 1
  { s.updPart p fun x => { x with ctrOut := c } with sent := s.sent ++ [.surveyRsp p vs c] }

/-- SURVEYREQ (R458, R459, R482); in minimal mode of area 0x9 under partition 0 only (R480). -/
def execSurveyreq (a : Auth) (addrs : List DWord) (s : State) : Out :=
  let mode := s.serving || (s.inMinimal && a.part == 0 && addrs.all fun x => bitsOf x 60 4 == 9)
  if mode && s.authOk a && !addrs.isEmpty && decide (addrs.length ≤ 64) then .next ((s.accepted a).surveyReply a.part addrs)
  else .next s.dropFrame

/-! ## Identity and keys (R469–R472) -/

/-- The bytes of a 256-bit value, and of a text (R9). -/
def bytes256 (x : BitVec 256) : List Byte := leBytes 32 x.toNat
def textBytes (t : String) : List Byte := t.toList.map fun c => BitVec.ofNat 8 c.toNat

/-- A key of partition p from its secret (R472). -/
def partKey (secret : BitVec 256) (label : String) (p : Nat) : BitVec 256 :=
  sha3 (bytes256 secret ++ textBytes label ++ Config.partBytes p)

/-- The BIND digest of a partition (R471). -/
def State.bind (s : State) (p : Nat) : BitVec 256 :=
  if (s.part p).keyed then sha3 (bytes256 (partKey (s.part p).secret "MGMT" p) ++ textBytes "BIND") else 0

/-- The fields of an attestation report (R471). -/
def State.reportFields (s : State) (nonce : BitVec 256) : List (List Byte) :=
  [bytes256 nonce, bytes256 s.boot.measure] ++ s.boot.log.map (fun e => Config.stageBytes e.1 ++ bytes256 e.2) ++
  [bytes256 (sha3 Config.idKey), Config.kemKey s.boot.kem, leBytes 8 Config.feat.toNat, [BitVec.ofNat 8 s.dev],
    leBytes 8 s.boot.word.toNat] ++
  ((List.range 16).map fun n => match (s.ports.get n).peer with
    | some (_, d) => bytes256 d
    | none => []) ++
  (List.range 16).map fun p => bytes256 (s.bind p)

/-- ATTESTREQ (R458, R471). -/
def execAttestreq (nonce : BitVec 256) (s : State) : Out :=
  if s.serving || s.inMinimal then
    let r := Config.reportBytes (s.reportFields nonce)
    .next { s.bumpFree with sent := s.sent ++ [.attestRsp r (Config.idSign s.free (sha3 r))] }
  else .next s.dropFrame

/-- IDREQ (R458, R469). -/
def execIdreq (s : State) : Out :=
  if s.serving || s.inMinimal then .next { s with sent := s.sent ++ [.idRsp Config.idKey Config.idCert] } else .next s.dropFrame

/-- KEY (R458, R472): an unkeyed partition takes the secret; a keyed one answers DENIED under its key. -/
def execKey (part : Nat) (ciphertext : List Byte) (s : State) : Out :=
  if !(s.serving || (s.inMinimal && part == 0)) || decide (part ≥ 16) || decide (ciphertext.length ≠ 1088) then .next s.dropFrame
  else if (s.part part).keyed then .next (s.ack part 0 ackDenied)
  else
    .next ((s.updPart part fun p => { p with
      keyed := true, secret := Config.kemSecret s.boot.kem ciphertext, ctrIn := 0, ctrOut := 0 }).ack part 0 ackOk)

/-! ## Windows, requester connections, groups (R461, R463, R468) -/

/-- Admitted RDMA requests of a partition that have not performed. -/
def State.rdmaOpen (s : State) (p : Nat) : List Nat := (s.rdmas.filter fun r => r.part == p).map (·.id)

/-- WINDOW (R458, R461): acknowledged once every request admitted under the old entry has performed. -/
def execWindow (a : Auth) (n : Nat) (entry : BitVec 128) (s : State) : Out :=
  .next (s.request a fun s =>
    if n ≥ 64 || bitsOf entry 4 4 ≠ 0 || (entry.getLsbD 0 && bitsOf entry 40 32 == 0) then s.ack a.part a.ctr ackForm
    else
      let t := s.updPart a.part fun p => { p with windows := p.windows.put n entry }
      if (s.rdmaOpen a.part).isEmpty then t.ack a.part a.ctr ackOk
      else { t with windowAcks := t.windowAcks ++ [(a.part, a.ctr, s.rdmaOpen a.part)] })

/-- QPSET (R463). -/
def execQpset (a : Auth) (localQp remoteQp : BitVec 24) (mac : BitVec 48) (ip : BitVec 128)
    (ring : Option (BitVec 64 × BitVec 32 × Nat)) (s : State) : Out :=
  .next (s.request a fun s =>
    match ring with
    | none =>
      (s.updPart a.part fun p => { p with qp := ⟨true, localQp, remoteQp, mac, ip, false, 0, 0, 0, 0, 0⟩ }).ack a.part a.ctr ackOk
    | some (addr, key, k) =>
      if k < 4 || k > 16 then s.ack a.part a.ctr ackForm
      else (s.updPart a.part fun p => { p with qp := ⟨true, localQp, remoteQp, mac, ip, true, addr, key, k, 0, 0⟩ }).ack a.part a.ctr ackOk)

/-- Has a group an accepted collective that is not complete (R468)? -/
def State.groupBusy (s : State) (p h : Nat) : Bool :=
  s.ops.vals.any fun o => o.live && o.kind == .coll && o.part == p && o.tile == h && o.accepted

/-- GROUP (R468). -/
def execGroup (a : Auth) (h : Nat) (devs : List Nat) (s : State) : Out :=
  .next (s.request a fun s =>
    if h > 255 || devs.length < 2 || devs.length > 16 || devs.any fun d => decide (d ≥ 16) then s.ack a.part a.ctr ackForm
    else if s.groupBusy a.part h then s.ack a.part a.ctr ackBusy
    else (s.updPart a.part fun p => { p with groups := p.groups.put h ⟨true, devs⟩ }).ack a.part a.ctr ackOk)

/-! ## Grants and the domain (R465, R474) -/

/-- Granules of a device's HBM. -/
def granuleCount : Nat := 768

/-- The partition other than 0 that holds a granule of a device (R40). -/
def State.holder (s : State) (dev g : Nat) : Option Nat :=
  (s.parts.cells.find? fun e => e.1 != 0 && e.2.grants.contains (dev, g)).map (·.1)

/-- Granules that a partition receives: they read zero before the ACK (R474). -/
def State.giveGranules (s : State) (p dev first count : Nat) : State :=
  let s := s.updPart p fun x => { x with grants := x.grants ++ (List.range count).map fun i => (dev, first + i) }
  if dev = s.dev then s.zeroRange (first * 2 ^ 30) (count * 2 ^ 30) else s

/-- Granules that go back: they are held under the start's keys from here on (R473), and the ACK comes once requests translated under the old grants
have performed or parked (R474, R38). -/
def State.takeGranules (s : State) (ctr : DWord) (dev first count : Nat) : State :=
  let hit := fun (g : Nat × Nat) => g.1 == dev && decide (first ≤ g.2) && decide (g.2 < first + count)
  let ps := (s.parts.cells.filter fun e => e.1 != 0 && e.2.grants.any hit).map (·.1)
  let less := fun (e : Nat × Partition) => if e.1 = 0 then e else (e.1, { e.2 with grants := e.2.grants.filter fun g => !hit g })
  let gone := if dev = s.dev then ((List.range count).map (first + ·)).filter fun g => (s.holder dev g).isSome else []
  let s := { s with parts := ⟨s.parts.cells.map less⟩ }.rekey gone
  match ps.reverse with
  | [] => s.ack 0 ctr ackOk
  | p :: r =>
    let each : List Inval := r.reverse.map fun q => ⟨q, 4, 0, none⟩
    { s with invals := s.invals ++ each ++ [⟨p, 4, 0, some (ctr, gone)⟩] }

/-- GRANT (R474): from none to a partition, or from partitions back to none; naming partition 0 names none. -/
def execGrant (a : Auth) (dev first count : Nat) (dest : Option Nat) (s : State) : Out :=
  .next (s.ownerRequest a fun s =>
    if dev ≥ 16 || first + count > granuleCount then s.ack 0 a.ctr ackForm
    else
      match dest with
      | none | some 0 => s.takeGranules a.ctr dev first count
      | some p =>
        if p ≥ 16 || (List.range count).any fun i => (s.holder dev (first + i)).isSome then s.ack 0 a.ctr ackForm
        else (s.giveGranules p dev first count).ack 0 a.ctr ackOk)

/-- Does a partition other than 0 exist? -/
def State.tenants (s : State) : Bool := s.parts.cells.any fun e => e.1 != 0 && e.2.present

/-- Peer ports (R1). -/
def portCount : Nat := 16

/-- A port toward another peer is closed. -/
def Port.toward (p : Port) (peer : Option (BitVec 4 × BitVec 256)) : Port :=
  if p.peer == peer then p else { p with isOpen := false, peer := peer }

/-- The device joins a domain as DEV: what it kept of addresses of the old one is gone. -/
def State.joinDomain (s : State) (dev : Nat) (peers : List (Option (BitVec 4 × BitVec 256))) : State :=
  { s with
    dev := dev
    domain := (dev :: peers.filterMap fun p => p.map fun q => q.1.toNat).eraseDups
    ports := ⟨(List.range portCount).map fun n => (n, (s.ports.get n).toward (peers.getD n none))⟩
    tlb := [] }

/-- DOMAIN (R465, R18). -/
def execDomain (a : Auth) (dev : BitVec 4) (peers : List (Option (BitVec 4 × BitVec 256))) (s : State) : Out :=
  .next (s.ownerRequest a fun s =>
    if peers.length ≠ portCount then s.ack 0 a.ctr ackForm
    else if s.tenants then s.ack 0 a.ctr ackBusy
    else (s.joinDomain dev.toNat peers).ack 0 a.ctr ackOk)

/-! ## RoCEv2 (R461–R463) -/

/-- Fields of a window entry (R461). -/
def winBase (w : BitVec 128) : Nat := bitsOf w 72 56
def winLen (w : BitVec 128) : Nat := bitsOf w 40 32 * 4096

/-- Does a window admit a request: key, range, permission, channel? -/
def winAdmits (w : BitVec 128) (key : Word) (va n : Nat) (write macsec : Bool) : Bool :=
  w.getLsbD 0 && bitsOf w 8 32 == key.toNat && decide (winBase w ≤ va) && decide (va + n ≤ winBase w + winLen w) &&
  w.getLsbD (if write then 1 else 2) && (macsec || !w.getLsbD 3)

/-- Does one valid window of the partition admit it? A keyed partition alone has a MACsec channel (R475). -/
def State.rdmaAdmits (s : State) (p : Nat) (key : Word) (va n : Nat) (write macsec : Bool) : Bool :=
  (List.range 64).any fun i => winAdmits ((s.part p).windows.get i) key va n write (macsec && (s.part p).keyed)

/-- Does every byte translate at level 0 (R462)? -/
def State.rdmaMapped (s : State) (p : Nat) (write : Bool) (va n : Nat) : Bool :=
  (List.range n).all fun i => match s.unitXlat p false (if write then .store else .load) (va + i) with
    | .ok _ _ _ => true
    | .bad _ => false

/-- The bytes of a write at their homes: device, device-local address, byte. -/
def State.rdmaPlaces (s : State) (p va : Nat) (bs : List Byte) : List (Nat × Nat × Byte) :=
  (bytesAt va bs).filterMap fun b => match s.unitXlat p false .store b.1 with
    | .ok dev pa _ => some (dev, pa, b.2)
    | .bad _ => none

/-- Tag of an RDMA READ's lines from other devices. -/
def tagRdma (id : Nat) : Nat := 2 ^ 55 + id

/-- An admitted request has performed: it is answered, and the WINDOW frames that waited for it alone are. -/
def State.endRdma (s : State) (r : Rdma) (answer : Sent) : State :=
  let acks : List (Nat × DWord × List Nat) := s.windowAcks.map fun (w : Nat × DWord × List Nat) => (w.1, w.2.1, w.2.2.filter (· != r.id))
  let s := { s.dropLines (tagRdma r.id) with
    rdmas := s.rdmas.filter fun x => x.id != r.id
    sent := s.sent ++ [answer]
    windowAcks := acks.filter fun (w : Nat × DWord × List Nat) => !w.2.2.isEmpty }
  (acks.filter fun (w : Nat × DWord × List Nat) => w.2.2.isEmpty).foldl
    (fun (s : State) (w : Nat × DWord × List Nat) => s.ack w.1 w.2.1 ackOk) s

/-- An RDMA READ's bytes: a poisoned word's are free, since no rule states them (log 3). -/
def State.rdmaBytes (s : State) (r : Rdma) : Gather := s.unitGather (tagRdma r.id) r.part false r.va r.n

/-- A read goes on: another device's lines are asked for, or the bytes are there. -/
def State.runRead (s : State) (r : Rdma) : State :=
  let g := s.rdmaBytes r
  match g.bad with
  | some _ => s.endRdma r (.nakAccess r.part)
  | none =>
    if !g.need.isEmpty then
      g.need.foldl (fun s q => s.sendTo q.1 (.rdma r.id) fun m => .read s.dev m (q.2 * 128) 128 false r.part) s
    else
      let bs := ((List.range r.n).zip g.vals).map fun p => match p.2 with
        | some v => BitVec.ofNat 8 v
        | none => Config.freeByte (s.free + p.1)
      { s with free := s.free + r.n }.endRdma r (.rdmaData r.part bs)

/-- An admitted request begins. -/
def State.openRdma (s : State) (p : Nat) (write : Bool) (va n : Nat) : State × Rdma :=
  let r : Rdma := ⟨s.nextRdma, p, write, va, n⟩
  ({ s with rdmas := s.rdmas ++ [r], nextRdma := s.nextRdma + 1 }, r)

/-- RDMA WRITE (R461, R462): a plain write at .system, acknowledged once every byte has performed. -/
def execRdmaWrite (part : Nat) (key : BitVec 32) (va : BitVec 64) (bytes : List Byte) (macsec : Bool) (s : State) : Out :=
  if !s.serving then .next s
  else if !s.rdmaAdmits part key va.toNat bytes.length true macsec || !s.rdmaMapped part true va.toNat bytes.length then
    .next { s with sent := s.sent ++ [.nakAccess part] }
  else
    let (s, r) := s.openRdma part true va.toNat bytes.length
    let s := s.homeWrite (.rdma r.id) part false (s.rdmaPlaces part va.toNat bytes)
    .next (if s.outstanding.any fun o => o.who == .rdma r.id then s else s.endRdma r (.rdmaAck part))

/-- RDMA READ (R461, R462): each byte is read at its home. -/
def execRdmaRead (part : Nat) (key : BitVec 32) (va : BitVec 64) (n : Nat) (macsec : Bool) (s : State) : Out :=
  if !s.serving then .next s
  else if !s.rdmaAdmits part key va.toNat n false macsec || !s.rdmaMapped part false va.toNat n then
    .next { s with sent := s.sent ++ [.nakAccess part] }
  else
    let (s, r) := s.openRdma part false va.toNat n
    .next (s.runRead r)

/-- SEND, atomics, UD and every other operation (R461). -/
def execRoceInvalidRequest (part : Nat) (s : State) : Out :=
  if s.serving then .next { s with sent := s.sent ++ [.nakInvalid part] } else .next s

/-- CNP_RECEIVE (R463): the requester rate of the partition falls. -/
def execCnpReceive (part : Nat) (s : State) : Out :=
  if s.serving && (s.part part).qp.set then
    .next (s.updPart part fun p => { p with qp := { p.qp with rateDrops := p.qp.rateDrops + 1 } })
  else .next s

end Sys2Proof.Machine
end

