-- ==== Sys2Proof/Machine/Tolsal.lean ====
section
/-!
DEFINITION. Sys2Proof/Machine/Tolsal.lean: the Tolsal link (R464–R467, R475): requests of other devices, the answers to this device's, outages,
ports.
-/
namespace Sys2Proof.Machine

/-! ## Requests that arrive (R464, R209) -/

/-- Is there an open port to a device (R465)? -/
def State.linked (s : State) (dev : Nat) : Bool :=
  s.ports.vals.any fun p => p.isOpen && (match p.peer with
    | some (d, _) => d.toNat == dev
    | none => false)

/-- The answer to a request that has come before. -/
def State.seenOf (s : State) (src seq : Nat) : Option TolsalMsg :=
  match s.seen.find? fun e => e.1 == src && e.2.1 == seq with
  | some e => some e.2.2
  | none => none

/-- Does a die fault queue hold a device's request (R87), or a version word a reservation of it (R180)? -/
def State.holdsRequest (s : State) (src seq : Nat) : Bool :=
  s.reservations.any (fun r => r.2.1 == src && r.2.2 == seq && src != s.dev) ||
  s.dies.vals.any fun d => d.fq.vals.any fun e => e.valid && match e.who with
    | .remote a b _ => a == src && b == seq
    | _ => false

/-- A request of another device at its home (R464): performed at most once; one that the home refuses parks there (R20, R87). -/
def State.once (s : State) (src seq : Nat) (m : TolsalMsg) : State :=
  match s.seenOf src seq with
  | some a => s.tell src a
  | none => if s.holdsRequest src seq then s else s.serveRemote m

/-- A record from another device comes to a carder's port: dropped when it has been accepted before, left with its sender while there is no
place (R209, R467). -/
def State.landToken (s : State) (src seq h ep dieOp : Nat) (pri : Bool) (sum : DWord) (image : BitVec 1024) (bad : List Nat) (level : Bool)
    (part : Nat) : State :=
  let die := dieOp / 64 % 4
  let op := dieOp % 64
  let pending := s.dieFrames.any fun f => f.src == some (src, seq)
  if s.tokSeen.contains (src, BitVec.ofNat 32 h, BitVec.ofNat 32 ep) then (if pending then s else s.tell src (.tokenAccepted seq))
  else if pending then s
  else
    match s.placeAt die op true with
    | none => s
    | some spill =>
      let p : Packet := ⟨0, BitVec.ofNat 32 h, sum, pri, none, spill, none, some (src, BitVec.ofNat 32 h, BitVec.ofNat 32 ep, seq), image, part,
        level, bad⟩
      { s.updCarder die op fun x => { x with inbound := x.inbound ++ [p] } with
        dieFrames := s.dieFrames ++ [⟨0, p, die, op, some (src, seq), 0, false, false⟩] }

/-! ## Answers -/

/-- An answer wakes the crew that waits for it. -/
def State.wake (s : State) (k : Nat) : State := s.updCrew k fun c => if c.place == .resident then { c with stall := stNone } else c

/-- The answer of a sett's load: its slot goes on with it. -/
def State.loadAnswer (s : State) (k slot lane epoch : Nat) (bs : List Byte) (bad : List Nat) : State :=
  if (s.crew k).epoch = epoch && (s.crew k).place != .free then
    (s.updCrew k fun c => { c with sett := { c.sett with
      remote := c.sett.remote ++ [(slot, lane, bs)]
      remoteBad := if bad.isEmpty then c.sett.remoteBad else c.sett.remoteBad ++ [(slot, lane, bad)] } }).wake k
  else s

/-- A crew traps at the start of its next sett (R345, R466), for the first failure of several. -/
def State.oweTrap (s : State) (k : Nat) (cause : BitVec 8) (addr : Nat) : State :=
  s.updCrew k fun c => { c with pendTrap := if c.pendTrap.isNone then some (cause, BitVec.ofNat 64 addr) else c.pendTrap }

/-- The answer of an access at commit; a failure, for which no bytes stand, leaves its lane unwritten and a trap at the next sett (R35, R466). -/
def State.commitAnswer (s : State) (k slot lane : Nat) (bs : List Byte) (cause : BitVec 8) : State :=
  let c := s.crew k
  if c.place == .free || c.sett.phase != .effects then s
  else
    let addr := match c.sett.caps.find? fun p => p.slot == slot && p.lane == lane with
      | some p => p.loc.addr
      | none => 0
    let s := s.updCrew k fun c => { c with sett := { c.sett with remote := c.sett.remote ++ [(slot, lane, bs)] } }
    (if bs.isEmpty then s.oweTrap k cause addr else s).wake k

/-- A line that a plain load of a core has asked for enters the L1 with the core's own stores in it (R81, R139). One that may not, since another
answer or access of its line came in between, leaves the line out, so that no later hit gives an older value. -/
def State.keepAnswer (s : State) (core : Nat) (l : Line) (keep : Bool) : State :=
  let held := (s.core core).l1.any fun e => e.dev == l.dev && e.line == l.line
  let s' := s.dropLine core l.dev l.line
  if keep && l.bad.isEmpty && !held then
    let own := { l with bytes := ((List.range 128).zip l.bytes).map fun p => (s.ownByte core l.dev (l.line * 128 + p.1)).getD p.2 }
    s'.updCore core fun q => { q with l1 := keepLine q.l1 own }
  else s'

/-- A code line has come. -/
def State.codeAnswer (s : State) (k : Nat) (l : Line) : State :=
  (s.updCore (s.crew k).core fun q => { q with icache := keepLine q.icache l }).wake k

/-- An operation's line has come. -/
def State.opAnswer (s : State) (id : Nat) (l : Option Line) : State :=
  match l with
  | some l => if (s.eop id).live then s.updOp id fun o => { o with got := o.got ++ [l] } else s
  | none => s

/-- A bench element's access is answered: no bytes stand for a poisoned word. -/
def State.elemAnswer (s : State) (b e : Nat) (bs : List Byte) : State :=
  if (s.bench b).live then s.updElem b e fun t => { t with asked := false, answer := some bs } else s

/-- The open RDMA request of a number. -/
def State.rdmaOf (s : State) (id : Nat) : Option Rdma := s.rdmas.find? fun r => r.id == id

/-- An RDMA request goes on when no part of it is outstanding. -/
def State.rdmaAnswer (s : State) (id : Nat) (l : Option Line) : State :=
  let s := match l with
    | some l => { s with unitLines := s.unitLines ++ [(tagRdma id, l)] }
    | none => s
  if s.outstanding.any fun o => o.who == .rdma id then s
  else
    match s.rdmaOf id with
    | some r => if r.write then s.endRdma r (.rdmaAck r.part) else s.runRead r
    | none => s

/-- The line that a read asked for. -/
def lineOf (o : Outstanding) (bs : List Byte) (bad : List Nat) : Option Line :=
  match o.msg with
  | .read _ _ pa _ _ _ => some ⟨o.dev, pa / 128, bs, bad⟩
  | _ => none

/-- The line of a read of a whole line. -/
def wholeLine (o : Outstanding) (bs : List Byte) (bad : List Nat) : Option Line := if bs.length = 128 then lineOf o bs bad else none

/-- The answer of a sett's load or code line reaches its core. -/
def State.loadArrives (s : State) (k slot lane epoch : Nat) (keep : Bool) (o : Outstanding) (bs : List Byte) (bad : List Nat) : State :=
  match wholeLine o bs bad with
  | some l =>
    if slot = 63 then s.codeAnswer k l
    else if (s.crew k).epoch = epoch && (s.crew k).place != .free then
      ((s.keepAnswer (s.crew k).core l keep)).loadAnswer k slot lane epoch bs bad
    else s
  | none => s.loadAnswer k slot lane epoch bs bad

/-- An answered store settles; an atomic that found a poisoned word did nothing, and its crew traps (R91, R353). -/
def State.storeAnswer (s : State) (tags : List (Nat × Nat)) (pa : Nat) (bad : List Nat) : State :=
  (match tags, bad with
    | t :: _, _ :: _ => s.oweTrap t.1 cUncorrectable pa
    | _, _ => s).settleTags tags

/-- Who asked receives the answer (R464). -/
def State.settleAnswer (s : State) (o : Outstanding) (bs : List Byte) (bad : List Nat) : State :=
  match o.who with
  | .load k slot lane epoch _ keep => s.loadArrives k slot lane epoch keep o bs bad
  | .pref k core op keep =>
    (match lineOf o bs bad with
      | some l => s.keepAnswer core l keep
      | none => s).endPref k core op
  | .commit k slot lane _ => s.commitAnswer k slot lane (if bad.isEmpty then bs else []) cUncorrectable
  | .store tags _ _ _ pa => s.storeAnswer tags pa bad
  | .op id => s.opAnswer id (lineOf o bs bad)
  | .branch id _ => s.opAnswer id (lineOf o bs bad)
  | .token _ _ => s
  | .unit tag =>
    match lineOf o bs bad with
    | some l => { s with unitLines := s.unitLines ++ [(tag, l)] }
    | none => s
  | .bench b e => s.elemAnswer b e (if bad.isEmpty then bs else [])
  | .benchRecord b => if (s.bench b).live then s.endBench b else s
  | .rdma id => s.rdmaAnswer id (lineOf o bs bad)

/-- A request is no longer outstanding. -/
def State.dropRequest (s : State) (seq : Nat) : State := { s with outstanding := s.outstanding.filter fun o => o.seq != seq }

/-! ## Failures (R35, R466) -/

/-- A line that the link has lost: every word reads as poisoned. -/
def lostLine (o : Outstanding) : Option Line := lineOf o (List.replicate 128 0) (List.range 32)

/-- A store or atomic without return that has failed completes (R35, R351); one that the link lost leaves the fault record of R444. -/
def State.storeLost (s : State) (tags : List (Nat × Nat)) (part core ctx pa : Nat) (link : Bool) : State :=
  let k := if ctx = noCtx then (tags.headD (noCtx, 0)).1 else ctx
  let s := if tags.isEmpty || !link then s
    else s.emit (dieOf core) part (faultRec cUncorrectable (fgWrite + fgRemote) part (dieOf core) core unLink k
      0xFFFF 0 (BitVec.ofNat 64 pa))
  s.settleTags tags

/-- An operation's request has failed: the operation ends with the status of R170; a matrix operation, which has none, reads the line as poisoned;
a multicast's source ends every branch (R186). -/
def State.opLost (s : State) (id status : Nat) (o : Outstanding) : State :=
  let x := s.eop id
  if !x.live || x.stage == .done then s
  else if x.stage == .performed then s.updOp id fun x => { x with status := if x.status = 0 then status else x.status }
  else
    match x.kind with
    | .mma | .tld | .accNew | .accZero | .accLd | .accSt => s.opAnswer id (lostLine o)
    | .cond => (s.unreserve id).endPayload id status
    | .mc => if x.branches.isEmpty then s.finishOp id else s.failAll id status
    | .coll => (s.dropContribs x).endPayload id status
    | _ => s.endPayload id status

/-- A bench access has failed: the node sends a fault token, with the cause of a cancelled request. -/
def State.elemLost (s : State) (b e : Nat) : State :=
  if !(s.bench b).live then s
  else
    let (a, it, inv) := (s.bench b).parkedAt e
    (s.updElem b e fun t => { t with asked := false }).spallRaise b e spCancelled a 0 0 none it inv

/-- A sett's load has failed: the sett goes on without bytes for the lane and traps there (R348, R350), with the cause of a cancelled request; a line
of code at the sett that wants it. What was asked about poison alone is not known then. -/
def State.loadLost (s : State) (k slot lane epoch addr : Nat) (cause : BitVec 8) : State :=
  let c := s.crew k
  if c.place == .free || c.epoch ≠ epoch then s
  else if slot = 63 && c.sett.phase == .idle then (s.oweTrap k cause c.run.pc).wake k
  else if slot = 63 then s.raiseAt k ⟨cause, BitVec.ofNat 64 c.run.pc, c.sett.slot, 0, 0⟩
  else if cause == cUncorrectable || decide (lane ≥ 32) then s.loadAnswer k slot lane epoch [] []
  else s.raiseAt k ⟨cause, BitVec.ofNat 64 addr, slot, lane, 0⟩

/-- A branch's request has failed: the branch ends, and the others go on (R186). -/
def State.branchLost (s : State) (id b status : Nat) : State :=
  if (s.eop id).live then s.stopBranches id status (· == b) else s

/-- A request fails: it is cancelled at its home, or its destination has become unreachable (R466); a record stays in its sending slot (R467). -/
def State.failRequest (s : State) (cause : BitVec 8) (status : Nat) (o : Outstanding) : State :=
  let gone := s.dropRequest o.seq
  match o.who with
  | .load k slot lane epoch addr _ => gone.loadLost k slot lane epoch addr cause
  | .pref k core op _ => gone.endPref k core op
  | .commit k slot lane _ => gone.commitAnswer k slot lane [] cause
  | .store tags part core ctx pa => gone.storeLost tags part core ctx pa (status == ssLink)
  | .op id => gone.opLost id status o
  | .branch id b => gone.branchLost id b status
  | .token _ _ => s
  | .unit tag =>
    match lostLine o with
    | some l => { gone with unitLines := gone.unitLines ++ [(tag, l)] }
    | none => gone
  | .bench b e => gone.elemLost b e
  | .benchRecord b => if (s.bench b).live then gone.endBench b else gone
  | .rdma id =>
    match s.rdmaOf id with
    | some r => { gone with outstanding := gone.outstanding.filter fun o => o.who != RemoteWho.rdma id }.endRdma r (.nakAccess r.part)
    | none => gone

/-! ## Arrivals (R464) -/

/-- A response arrives; one that nobody waits for is acknowledged and dropped. -/
def State.response (s : State) (seq : Nat) (bs : List Byte) (bad : List Nat) : State :=
  match s.outstanding.find? fun o => o.seq == seq with
  | none => s
  | some o => ((s.dropRequest seq).tell o.dev (.acked s.dev seq)).settleAnswer o bs bad

/-- The home has cancelled a request (R35). -/
def State.refused (s : State) (seq : Nat) (cause : BitVec 8) : State :=
  match s.outstanding.find? fun o => o.seq == seq with
  | none => s
  | some o => (s.tell o.dev (.acked s.dev seq)).failRequest cause ssCancelled o

/-- A carder of another device has accepted a record: its sending slot is freed (R467). -/
def State.acceptedFar (s : State) (seq : Nat) : State :=
  match s.outstanding.find? fun o => o.seq == seq with
  | none => s
  | some o =>
    match o.who with
    | .token slot op => ((s.dropRequest seq).freeToken slot).settleTok op
    | _ => s

/-- The device a message comes from: a request and an acknowledgement name it, an answer comes from the device that was asked. -/
def State.msgFrom (s : State) : TolsalMsg → Option Nat
  | .read src _ _ _ _ _ | .write src _ _ _ _ _ | .atomic src _ _ _ _ _ _ _ _ | .token src _ _ _ _ _ _ _ _ _ _
  | .reserve src _ _ _ | .unreserve src _ _ _ _ | .coll src _ _ _ _ | .acked src _ => some src
  | .response seq _ _ | .failed seq _ | .tokenAccepted seq => (s.outstanding.find? fun o => o.seq == seq).map (·.dev)

/-- A member's share of a collective instance comes (R187): kept once, for an instance that is still to end here. -/
def State.landShare (s : State) (c : Contrib) : State :=
  let open' := decide (c.inst > s.collSeq.get (collKey c.part c.group)) ||
    s.ops.vals.any fun o => o.live && o.kind == .coll && o.part == c.part && o.tile == c.group && o.pos == c.inst
  let known := s.contribs.any fun x => x.part == c.part && x.group == c.group && x.inst == c.inst && x.dev == c.dev
  if open' && !known && ((s.part c.part).groups.get c.group).devs.contains c.dev then { s with contribs := s.contribs ++ [c] } else s

/-- What a frame does (R464). -/
def State.receive (s : State) (m : TolsalMsg) : State :=
  match m with
  | .read src seq _ _ _ _ | .write src seq _ _ _ _ | .atomic src seq _ _ _ _ _ _ _ | .reserve src seq _ _ | .unreserve src seq _ _ _ =>
    s.once src seq m
  | .response seq bytes bad => s.response seq bytes bad
  | .failed seq cause => s.refused seq cause
  | .token src seq h ep dieOp pri sum image bad level part => s.landToken src seq h ep dieOp pri sum image bad level part
  | .tokenAccepted seq => s.acceptedFar seq
  | .coll src part group inst words => s.landShare ⟨part, group, inst, src, words⟩
  | .acked src seq => { s with seen := s.seen.filter fun e => !(e.1 == src && e.2.1 == seq) }

/-- TOLSAL_FRAME_RECEIVE (R464, R467): a frame of a device to which a port is open. -/
def execTolsalFrameReceive (m : TolsalMsg) (s : State) : Out :=
  match s.msgFrom m with
  | some dev => if s.serving && s.linked dev then .next (s.receive m) else .next s
  | none => .next s

/-- TOLSAL_RESEND (R464): a lost frame is sent again. -/
def execTolsalResend (seq : Nat) (s : State) : Out :=
  match s.outstanding.find? fun o => o.seq == seq with
  | some o => if s.linked o.dev then .next (s.tell o.dev o.msg) else .next s
  | none => .next s

/-! ## Outages (R466) -/

/-- The requests outstanding to a device. -/
def State.toDev (s : State) (dev : Nat) : List Outstanding := s.outstanding.filter fun o => o.dev == dev

/-- Records that the failures may leave have room (R443). -/
def State.failRoom (s : State) (os : List Outstanding) : Bool := (List.range Config.dies).all fun d => s.recRoom d os.length

/-- Reservations that an unreachable device holds or waits for are given up (R180). -/
def State.dropFar (s : State) (dev : Nat) : State :=
  (s.reservations.filter fun r => r.2.1 == dev).foldl (fun s r => s.unreserveAt r.1 r.2.1 r.2.2) s

/-- DESTINATION_UNREACHABLE (R466): no open port has delivered a frame to a device for 2²¹ cycles. -/
def execDestinationUnreachable (dev : BitVec 4) (s : State) : Out :=
  let os := s.toDev dev.toNat
  if dev.toNat = s.dev || !s.failRoom os then .next s
  else .next (((os.foldl (fun s o => s.failRequest cUncorrectable ssLink o) s).dropFar dev.toNat).collUnreachable dev.toNat)

/-! ## Ports (R465, R475) -/

/-- Change a port. -/
def State.updPort (s : State) (n : Nat) (f : Port → Port) : State := { s with ports := s.ports.upd n f }

/-- PORT_OPEN (R465, R475): the peer's identity has the digest that DOMAIN gave; what waits for that device is sent again. -/
def execPortOpen (port : Nat) (digest : BitVec 256) (s : State) : Out :=
  match (s.ports.get port).peer with
  | some (d, want) =>
    if s.serving && !(s.ports.get port).isOpen && digest == want then
      let s := s.updPort port fun p => { p with isOpen := true, sakGen := p.sakGen + 1 }
      .next ((s.toDev d.toNat).foldl (fun s o => s.tell o.dev o.msg) s)
    else .next s
  | none => .next s

/-- PORT_CLOSE (R465). -/
def execPortClose (port : Nat) (s : State) : Out := .next (s.updPort port fun p => { p with isOpen := false })

/-- SAK_REKEY (R475): a new association key; no frame is lost. -/
def execSakRekey (port : Nat) (s : State) : Out :=
  .next (s.updPort port fun p => if p.isOpen then { p with sakGen := p.sakGen + 1 } else p)

end Sys2Proof.Machine
end

