-- ==== Sys2Proof/Machine/Boot.lean ====
section
/-!
DEFINITION. Sys2Proof/Machine/Boot.lean: start-up, the start counter, minimal mode, firmware images (R470, R476–R480), temperature and power
(R483, R433).
-/
namespace Sys2Proof.Machine

/-! ## The start counter (R479) -/

/-- Codes of the minimal-mode reasons (R480). -/
def reasonCode : BootReason → Nat
  | .signature => 1
  | .flash => 2
  | .hbm => 3
  | .die => 4
  | .link => 5
  | .watchdog => 6
  | .rollback => 7
  | .thermal => 8

/-- A record is written in the place of the one that is not current. -/
def Boot.writeRec (b : Boot) (count reason stage : Nat) : Boot :=
  let c := b.current
  let r : StartRec := ⟨c.seqno + 1, count, reason, stage, true⟩
  if b.useB then { b with recA := r } else { b with recB := r }

/-! ## Starts (R470, R476–R480) -/

/-- A stage's image is measured into M, with its entry in the log of at most 64 (R470). -/
def Boot.extend (b : Boot) (stage : Nat) : Boot :=
  let d := Config.stageDigest stage (if b.fetched.isEmpty then b.flash else some b.fetched)
  { b with
    measure := sha3 (bytes256 b.measure ++ Config.stageBytes stage ++ bytes256 d)
    log := if b.log.length < 64 then b.log ++ [(stage, d)] else b.log }

/-- What flash keeps: the records, the minimum version and the image (R477, R479). -/
def Boot.flashOnly (b : Boot) : Boot :=
  { (default : Boot) with recA := b.recA, recB := b.recB, svn := b.svn, flash := b.flash, kem := b.kem, kc := b.kc }

/-- A device whose units are all as before start-up: frames already sent stay sent, and no free value is taken twice. -/
def State.bare (s : State) (b : Boot) : State :=
  { (default : State) with
    free := s.free
    sent := s.sent
    domain := [0]
    dies := ⟨s.dies.cells.map fun (e : Nat × Die) => (e.1, ({ (default : Die) with temp := e.2.temp } : Die))⟩
    boot := b }

/-- What memory holds after a start: HBM is held by partition 0 under keys of this start (R473), so that its contents are values that nothing states
(log 3). -/
def startMemory (k : Nat) : Memory := Memory.empty.freshen 0 (granuleCount * 2 ^ 30) k

/-- A start from stage 0 (R479): minimal mode after three failed starts, else the count rises and the boot ROM runs. -/
def State.start (s : State) : State :=
  let b := { s.boot.flashOnly with powered := true, kem := s.boot.kem + 1, kc := Config.sealKey (s.boot.kem + 1), version := Config.flashVersion }
  let c := b.current
  let b := if c.count ≥ 3 then { b with minimal := true } else (b.writeRec (c.count + 1) c.reason c.stage).extend 0
  { s.bare b with mem := startMemory s.free, free := s.free + 1 }

/-- A start fails: its reason and stage are written, and the device starts again (R479). -/
def State.failStart (s : State) (r : BootReason) : State :=
  { s with boot := s.boot.writeRec s.boot.current.count (reasonCode r) s.boot.stage }.start

/-- Stage 4: the count is 0 again, the minimum version rises to that of the image, partition 0 and producer 0 exist (R476, R477, R449). -/
def State.succeed (s : State) : State :=
  let c := s.boot.current
  { s with
    boot := { s.boot.writeRec 0 c.reason c.stage with stage := 4, svn := max s.boot.svn s.boot.version }
    parts := Tbl.put Tbl.empty 0 State.resetPart0
    producers := Tbl.put Tbl.empty 0 State.resetProducer0 }

/-- The device starts and has not reached stage 4. -/
def State.starting (s : State) : Bool := s.boot.powered && !s.boot.minimal && decide (s.boot.stage < 4)

/-- POWER_ON_START (R476, R479). -/
def execPowerOnStart (s : State) : Out := if s.boot.powered then .next s else .next s.start

/-- The bytes that one IMAGE frame of the device asks for (R478). -/
def imageLen : Nat := 8192

/-- The ROM asks the host for an image (R478). -/
def State.fetchImage (s : State) (why : BootReason) : State :=
  { s with boot := { s.boot with fetching := some why, fetched := [] }, sent := s.sent ++ [.imageReq 0 imageLen] }

/-- Reasons that speak of a flash image: the ROM then fetches one from the host, once (R478). -/
def refetches : BootReason → Bool
  | .signature | .flash | .rollback => true
  | _ => false

/-- BOOT_STAGE_COMPLETE (R476–R479): the stage that runs is complete and the next, measured, runs; or it fails. -/
def execBootStageComplete (ok : Option BootReason) (s : State) : Out :=
  if !s.starting then .next s
  else
    match ok with
    | none =>
      if s.boot.fetching.isSome then .next s
      else if s.boot.stage = 3 then .next s.succeed
      else .next { s with boot := ({ s.boot with stage := s.boot.stage + 1 } : Boot).extend (s.boot.stage + 1) }
    | some r =>
      if refetches r && s.boot.fetching.isNone && s.boot.fetched.isEmpty then .next (s.fetchImage r) else .next (s.failStart r)

/-- BOOT_STAGE_WATCHDOG (R476): a stage has not finished within 2³³ cycles. -/
def execBootStageWatchdog (s : State) : Out := if s.starting then .next (s.failStart .watchdog) else .next s

/-- IMAGE_FETCH_TIMEOUT (R478): the host has not answered for 2³² cycles. -/
def execImageFetchTimeout (s : State) : Out :=
  match s.boot.fetching with
  | some why => if s.starting then .next (s.failStart why) else .next s
  | none => .next s

/-! ## Images (R477, R478, R480) -/

/-- Bytes of an image have come. -/
def State.addImage (s : State) (bs : List Byte) : State := { s with boot := { s.boot with fetched := s.boot.fetched ++ bs } }

/-- The next part of an image is asked for. -/
def State.askImage (s : State) : State := { s with sent := s.sent ++ [.imageReq s.boot.fetched.length imageLen] }

/-- A whole image that the ROM has checked while the device starts: it runs, or the start fails. -/
def State.startImage (s : State) (version : Option Nat) : State :=
  match version with
  | none => s.failStart .signature
  | some v =>
    if v < s.boot.svn then s.failStart .rollback
    else { s with boot := { s.boot with fetching := none, version := v } }

/-- The same in minimal mode: it is written to flash with a record of count 0 and the device restarts, or it is discarded (R480). -/
def State.flashImage (s : State) (version : Option Nat) : State :=
  let no := { s with boot := { s.boot with fetched := [] } }
  match version with
  | none => no
  | some v =>
    if v < s.boot.svn then no
    else
      let c := s.boot.current
      { s with boot := { s.boot.writeRec 0 c.reason c.stage with flash := some s.boot.fetched, fetched := [] } }.start

/-- IMAGE (R458, R478, R480): bytes at the offset that is wanted. -/
def execImage (off : Nat) (bytes : List Byte) (s : State) : Out :=
  let wanted := (s.starting && s.boot.fetching.isSome) || s.inMinimal
  if !wanted || off ≠ s.boot.fetched.length || bytes.isEmpty || decide (bytes.length > imageLen) then .next s.dropFrame
  else
    let s := s.addImage bytes
    match Config.imageCheck s.boot.fetched with
    | none => .next s.askImage
    | some v => .next (if s.boot.minimal then s.flashImage v else s.startImage v)

/-! ## RESTART (R480) -/

/-- Every die is below the restart threshold, 16 °C below the critical temperature (R483). -/
def State.cool (s : State) : Bool :=
  (List.range Config.dies).all fun d => decide ((s.die d).temp.toNat + 256 < Config.criticalTemp)

/-- RESTART (R458, R480). -/
def execRestart (a : Auth) (s : State) : Out :=
  if !(s.serving || s.inMinimal) || !s.authOk a then .next s.dropFrame
  else
    let s := s.accepted a
    if a.part ≠ 0 then .next (if s.boot.minimal then s.dropFrame else s.ack a.part a.ctr ackDenied)
    else if (if s.boot.minimal then !s.cool else s.tenants) then .next (s.ack 0 a.ctr ackBusy)
    else .next (s.ack 0 a.ctr ackOk).start

/-! ## Temperature and power (R483, R433) -/

/-- THERMAL_THROTTLE (R483): a die's temperature and the issue slots it removes; a new episode counts. -/
def execThermalThrottle (die : Nat) (temp : BitVec 16) (level : BitVec 8) (s : State) : Out :=
  if die ≥ Config.dies || !s.boot.powered then .next s
  else
    .next (s.updDie die fun d => { d with
      temp := temp
      throttle := level
      episodes := if d.throttle == 0 && level != 0 && d.episodes != 0xFFFF then d.episodes + 1 else d.episodes })

/-- THROTTLE_EPISODE_END (R483). -/
def execThrottleEpisodeEnd (die : Nat) (s : State) : Out := .next (s.updDie die fun d => { d with throttle := 0 })

/-- THERMAL_CRITICAL (R483): all partitions and keys are gone, the dies are held in reset, and the device is in minimal mode; the record
has the count unchanged. -/
def execThermalCritical (s : State) : Out :=
  if !s.boot.powered then .next s
  else
    let b := s.boot.writeRec s.boot.current.count (reasonCode .thermal) 4
    .next (s.bare { b with stage := 0, minimal := true, fetching := none, fetched := [] })

/-- Does a die hold a lent copy, or a received record that awaits confirmation (R433)? -/
def State.lendsAt (s : State) (die : Nat) : Bool :=
  s.lends.vals.any fun l => l.live && (l.job.die == die || dieOf l.thiefCore == die)

/-- CLUSTER_POWER_GATE (R433, R483): an idle cluster is gated, or a gated one is not any more. -/
def execClusterPowerGate (die cluster : Nat) (gate : Bool) (s : State) : Out :=
  let cores := (List.range 8).map fun i => die * Config.coresPerDie + cluster * 8 + i
  let busy := cores.any fun k => !(s.onCore k).isEmpty
  if die ≥ Config.dies || cluster ≥ 6 || (gate && (busy || s.lendsAt die)) then .next s
  else
    let bit : BitVec 16 := 1#16 <<< cluster
    .next (s.updDie die fun d => { d with gated := if gate then d.gated ||| bit else d.gated &&& ~~~bit })

/-- POWER_LOSS (R479): everything but flash is lost. -/
def execPowerLoss (s : State) : Out :=
  .next { (default : State) with
    free := s.free
    sent := s.sent
    boot := s.boot.flashOnly }

end Sys2Proof.Machine
end

