-- ==== Sys2Proof/Machine/Control.lean ====
section
/-!
DEFINITION. Sys2Proof/Machine/Control.lean: control transfer, OP 0x00–0x0A (R292–R303). A control instruction decides while its sett
executes, where its addresses are checked, and acts at the end of the commit.
-/
namespace Sys2Proof.Machine

/-- A format-J target (R292): counted in words from the header. -/
def jTarget (c : Crew) (t : BitVec 38) : DWord :=
  BitVec.ofInt 64 (((c.sett.pc : Int) + 8 * t.toInt) % (2 ^ 56 : Int))

/-- What a control slot decided is kept and the sett is ready to commit. -/
def keepCtl (k : Nat) (x : CtlCap) (s : State) : State :=
  s.updCrew k fun c => { c with stall := stNone, sett := { c.sett with ctl := x }.advance }

/-- A per-lane transfer while its sett executes (R294): guarded lanes go to `target`, the others to F. -/
def laneDecide (g : Guard) (target : Crew → Nat → DWord) (s : State) : State :=
  let c := s.me
  if c.popTrap then s.setMe (raiseExc c cProtection 0 0)
  else
    let on := c.guardMask g
    let dests := (lanesOf c.mask).map fun l => (l, (if on.getLsbD l then target c l else c.sett.fall).toNat)
    s.checkedGo s.cur (fun _ => false) (dests.map fun d => BitVec.ofNat 64 d.2) (keepCtl s.cur ⟨on, dests, 0⟩)

/-- A whole-path transfer to one address (R295). -/
def pathDecide (dest : Crew → DWord) (aux : Crew → DWord) (take : Crew → Word) (s : State) : State :=
  let c := s.me
  s.checkedGo s.cur (fun _ => false) [dest c] (keepCtl s.cur ⟨take c, [(0, (dest c).toNat)], aux c⟩)

/-- Lanes bound for an address. -/
def boundFor (dests : List (Nat × Nat)) (a : Nat) : Word := maskOf ((dests.filter fun d => d.2 == a).map (·.1))

/-- The paths of a per-lane transfer (R294): ascending addresses, the group at F last; the first runs. -/
def splitPaths (fall run : Nat) (dests : List (Nat × Nat)) : List Path :=
  let as := dests.foldl (fun l d => if d.2 = fall then l else insertAsc d.2 l) []
  let order := as ++ (if dests.any fun d => d.2 == fall then [fall] else [])
  match order with
  | [] => []
  | a :: r => ⟨a, boundFor dests a, none, run⟩ :: r.map fun b => ⟨b, boundFor dests b, none, 0⟩

/-- Commit of a per-lane transfer. -/
def laneCommit (s : State) : State :=
  s.updMe fun c => c.endSett (splitPaths c.sett.fall.toNat (c.run.run + 1) c.sett.ctl.dests)

/-- Commit of a whole-path transfer. -/
def pathCommit (s : State) : State := s.updMe fun c => c.goTo ((c.sett.ctl.dests.headD (0, 0)).2)

/-- BR (R294). -/
def execBr (g : Guard) (target : BitVec 38) (s : State) : Out :=
  match s.me.sett.phase with
  | .control => .next (laneCommit s)
  | _ => .next (laneDecide g (fun c _ => jTarget c target) s)

/-- BRX (R294). -/
def execBrx (g : Guard) (a : Src) (s : State) : Out :=
  match s.me.sett.phase with
  | .control => .next (laneCommit s)
  | _ => .next (laneDecide g (fun c l => src64 s c 0 a l) s)

/-- BRC.ANY (R292, R295). -/
def execBrcAny (g : Guard) (target : BitVec 38) (s : State) : Out :=
  match s.me.sett.phase with
  | .control => .next (pathCommit s)
  | _ => .next (pathDecide (fun c => if c.guardMask g != 0 then jTarget c target else c.sett.fall) (fun _ => 0) (fun c => c.guardMask g) s)

/-- BRC.ALL (R292, R295). -/
def execBrcAll (g : Guard) (target : BitVec 38) (s : State) : Out :=
  match s.me.sett.phase with
  | .control => .next (pathCommit s)
  | _ => .next (pathDecide (fun c => if c.guardMask g == c.mask then jTarget c target else c.sett.fall) (fun _ => 0) (fun c => c.guardMask g) s)

/-! ## Calls (R300–R303) -/

/-- A call while its sett executes: targets and return address are checked, then the depth of each calling lane (R301). -/
def callDecide (g : Guard) (target : Crew → Nat → DWord) (s : State) : State :=
  let c := s.me
  if c.popTrap then s.setMe (raiseExc c cProtection 0 0)
  else
    let on := c.guardMask g
    let dests := (lanesOf on).map fun l => (l, (target c l).toNat)
    let low := (dests.foldl (fun l d => insertAsc d.2 l) []).headD 0
    if (lanesOf on).any fun l => c.depth l ≥ 64 then
      s.setMe (raiseExc c cBounds (BitVec.ofNat 64 low) 0)
    else
      s.checkedGo s.cur (fun a => dests.any fun d => d.2 == a.toNat)
        (c.sett.fall :: dests.map fun d => BitVec.ofNat 64 d.2) (keepCtl s.cur ⟨on, dests, 0⟩)

/-- Commit of a call (R300, R301). -/
def Crew.callCommit (c : Crew) : Crew :=
  let x := c.sett.ctl
  if x.take == 0 then c.goTo c.sett.fall.toNat
  else
    match x.dests.foldl (fun l d => insertAsc d.2 l) [] with
    | [] => c.goTo c.sett.fall.toNat
    | t :: ts =>
      let g : CallGroup := ⟨c.nextGroup, c.sett.fall.toNat, c.mask, x.take, ts.map fun a => (a, boundFor x.dests a), c.mask &&& ~~~x.take⟩
      { c.endSett [⟨t, boundFor x.dests t, none, c.run.run + 1⟩] with
        groups := insertGroup g c.groups
        nextGroup := c.nextGroup + 1 }

/-- CALL (R301). -/
def execCall (g : Guard) (target : BitVec 38) (s : State) : Out :=
  match s.me.sett.phase with
  | .control => .next (s.updMe Crew.callCommit)
  | _ => .next (callDecide g (fun c _ => jTarget c target) s)

/-- CALLX (R301). -/
def execCallx (g : Guard) (a : Src) (s : State) : Out :=
  match s.me.sett.phase with
  | .control => .next (s.updMe Crew.callCommit)
  | _ => .next (callDecide g (fun c l => src64 s c 0 a l) s)

/-- A lane returns to the return set of its innermost group (R302): groups stand innermost first. -/
def returnLane : List CallGroup → Nat → List CallGroup
  | [], _ => []
  | g :: gs, l =>
    if g.inside.getLsbD l then { g with inside := g.inside &&& ~~~laneBit l, ret := g.ret ||| laneBit l } :: gs
    else g :: returnLane gs l

/-- The part of the running path that goes on at F when `m` leaves it. -/
def Crew.rest (c : Crew) (m : Word) : List Path :=
  let left := c.mask &&& ~~~m
  if left == 0 then [] else [{ c.run with pc := c.sett.fall.toNat, mask := left, run := c.run.run + 1 }]

/-- A path that has come to the head with 64 setts counted goes to the back (R204). -/
def Crew.turnAround (c : Crew) : Crew :=
  match c.paths with
  | p :: _ => if !c.inTrap && p.run ≥ 64 then { c with paths := rotate c.paths } else c
  | [] => c

/-- Commit of RET (R302). -/
def Crew.retCommit (c : Crew) : Crew :=
  let m := c.sett.ctl.take
  let run := c.run.run + 1
  let c := { c.endSett (c.rest m) with groups := (lanesOf m).foldl returnLane c.groups }
  (advanceGroups run (groupFuel c) c).turnAround

/-- RET (R302): a lane of depth 0 traps BAD_TARGET with address 0. -/
def execRet (g : Guard) (s : State) : Out :=
  let c := s.me
  match c.sett.phase with
  | .control => .next (s.updMe Crew.retCommit)
  | _ =>
    let on := c.guardMask g
    if (lanesOf on).any fun l => c.depth l == 0 then .next (s.setMe (raiseExc c cBadTarget 0 0))
    else
      .next (s.checkedGo s.cur (fun _ => false) (if c.mask &&& ~~~on == 0 then [] else [c.sett.fall])
        (keepCtl s.cur ⟨on, [], 0⟩))

/-- LOOP (R296): Sk is read at sett start, and its new value overrides any other write of the sett. -/
def execLoop (g : Guard) (k : BitVec 6) (target : BitVec 38) (s : State) : Out :=
  match s.me.sett.phase with
  | .control =>
    .next ((s.updMe fun c => if c.sett.ctl.take == 0 then c else c.applyWr (.s k.toNat c.sett.ctl.aux)) |> pathCommit)
  | _ =>
    .next (pathDecide
      (fun c => if c.guardMask g != 0 && c.sreg k.toNat - 1 != 0 then jTarget c target else c.sett.fall)
      (fun c => c.sreg k.toNat - 1) (fun c => c.guardMask g) s)

/-- JOIN (R297): the path moves to T and waits there with the mask that Sk held at sett start. -/
def execJoin (g : Guard) (k : BitVec 6) (target : BitVec 38) (s : State) : Out :=
  match s.me.sett.phase with
  | .control =>
    .next (s.updMe fun c =>
      let x := c.sett.ctl
      c.endSett [{ c.run with
        pc := (x.dests.headD (0, 0)).2, run := c.run.run + 1
        join := if x.take == 0 then c.run.join else some (x.aux.setWidth 32) }])
  | _ =>
    .next (pathDecide (fun c => if c.guardMask g != 0 then jTarget c target else c.sett.fall)
      (fun c => c.sreg k.toNat) (fun c => c.guardMask g) s)

/-- The quarter's next issue goes to the oldest ready other crew (R298). -/
def State.handOver (s : State) (k : Nat) : State :=
  let c := s.crew k
  match s.oldestReady c.core c.quarter (k + 1) with
  | some o => s.issueFrom o
  | none => s

/-- YIELD (R298): in a handler the path keeps the head and only the issue is handed over (R204). -/
def execYield (g : Guard) (s : State) : Out :=
  match s.me.sett.phase with
  | .control =>
    let c := s.me
    if c.sett.ctl.take == 0 then .next (pathCommit s)
    else
      let s' := s.updMe fun c =>
        let d := c.goTo c.sett.fall.toNat
        if c.inTrap then d
        else { d with paths := c.paths.tail ++ [{ c.run with pc := c.sett.fall.toNat, run := 0 }] }
      .next (s'.handOver s.cur)
  | _ => .next (pathDecide (fun c => c.sett.fall) (fun _ => 0) (fun c => c.guardMask g) s)

/-- The lanes that EXIT would end are the crew's last live lanes (R299). -/
def Crew.lastLanes (c : Crew) (m : Word) : Bool := m != 0 && c.live &&& ~~~m == 0

/-- Commit of EXIT (R299, R199): the last lanes wait for the operations of their own sett too, leave every barrier and end the crew. -/
def State.exitCommit (s : State) (k : Nat) : State :=
  let c := s.crew k
  let m := c.sett.ctl.take
  if c.lastLanes m then
    if !c.quiet || !s.endRoom k then s.updCrew k fun c => { c with stall := stWaitc }
    else (if c.member then s.leaveAll k else s).endCrew k false
  else
    s.updCrew k fun c =>
      let d := { c.endSett (c.rest m) with groups := c.groups }.endLanes m
      (advanceGroups (c.run.run + 1) (groupFuel d) d).turnAround

/-- EXIT (R299): the crew's last lanes hold the sett uncommitted until the counters are zero (R199, R201). -/
def execExit (g : Guard) (s : State) : Out :=
  let c := s.me
  match c.sett.phase with
  | .control => .next (s.exitCommit s.cur)
  | _ =>
    let on := c.guardMask g
    let wait := fun c : Crew => if c.lastLanes on then { c with sett := { c.sett with waits := c.sett.waits ++ [⟨c.sett.slot, .exit⟩] } } else c
    .next (s.checkedGo s.cur (fun _ => false) (if c.mask &&& ~~~on == 0 then [] else [c.sett.fall])
      fun s => keepCtl s.cur ⟨on, [], 0⟩ (s.updMe wait))

/-- NOP (R292): transient 0 and no event. -/
def execNop (g : Guard) (s : State) : Out := .next (valueSlot s g .trans false false fun _ _ => 0)

end Sys2Proof.Machine
end

