-- ==== Sys2Proof/Machine/Load.lean ====
section
/-!
DEFINITION. Sys2Proof/Machine/Load.lean: CONFIG and DELTA (R93, R95, R210, R216, R217, R420–R422, R429, R445): the loader's checks of operator
tables, carousel programs, bench images and carder spill tables.
-/
namespace Sys2Proof.Machine

/-! ## Region selectors (R415) -/

def selKind (c : Cmd) : Nat := bitsOf c.arg1 60 4
def selPatches (c : Cmd) : Nat := bitsOf c.arg1 48 12
def selDie (c : Cmd) : Nat := bitsOf c.arg1 32 2
def selHandle (c : Cmd) : Nat := bitsOf c.arg1 0 32

/-- A selector that R415 does not allow. -/
def selBad (c : Cmd) : Bool :=
  bitsOf c.arg1 34 14 != 0 || decide (selKind c > 3) || (selKind c != 2 && selHandle c != 0) || (selKind c == 2 && selDie c != 0) ||
  (if c.kind = 4 then selPatches c != 0 else selPatches c == 0 || selKind c == 3)

/-- Do two commands aim at one region? -/
def sameRegion (a b : Cmd) : Bool :=
  selKind a == selKind b && selDie a == selDie b && selHandle a == selHandle b && (selKind a != 2 || a.part == b.part)

/-- Benches whose image came from a handle of a partition, by number. -/
def State.benchesOf (s : State) (part h : Nat) : List Nat :=
  (s.benches.cells.filter fun e => e.2.live && e.2.region.present && e.2.part == part && e.2.handle == h).map (·.1)

/-- The regions that a command aims at. -/
def State.targetsOf (s : State) (c : Cmd) : List RegionSel :=
  match selKind c with
  | 0 => [.opTable (selDie c)]
  | 1 => [.carousel (selDie c)]
  | 2 => (s.benchesOf c.part (selHandle c)).map .bench
  | _ => []

/-- Must a command wait: an earlier one for its region is not over, or the region is frozen for a reload (R95, R422)? -/
def State.regionBusy (s : State) (k : Nat) : Bool :=
  let c := s.cmds.get k
  (s.cmds.cells.any fun e => decide (e.1 < k) && (e.2.kind == 2 || e.2.kind == 4) && (e.2.st == .taken || e.2.st == .running) &&
    sameRegion e.2 c) ||
  (s.targetsOf c).any fun r => (s.region r).frozen && !(s.region r).failed

/-- A loaded region: its contents with digest, backing address and seal (R93). -/
def State.newRegion (s : State) (c : Cmd) (digest : BitVec 256) (bs : List Byte) (core h : Nat) (die : Nat) (backing : DWord) : Region :=
  { (default : Region) with
    present := true
    bytes := bs
    digest := digest
    backing := backing
    part := c.part
    level := c.level
    sealTag := sealOf s.boot.kc digest (selKind c) die core h backing }

/-! ## Operator tables (R210) -/

/-- A field of an entry that must be zero is not, or HEIGHTM1 is out of range. -/
def entryBad (e : BitVec 256) : Bool :=
  bitsOf e 120 136 != 0 || bitsOf e 56 6 != 0 || bitsOf e 32 9 != 0 || (oeV e && decide (oeHeight e > 64))

/-- Entry of a table's bytes. -/
def entryAt (bs : List Byte) (op : Nat) : BitVec 256 := BitVec.ofNat 256 (leNat ((bs.drop (32 * op)).take 32))

/-- The copies of the valid entries' launch records (R210). -/
inductive CopiesR where
  | ok (t : Tbl (BitVec 4096))
  | wait (s : State)
  | bad (cause : BitVec 8)
  deriving DecidableEq, Repr

/-- Read the launch records of the entries from op on; LREC need not be aligned (R210 states no check; log 58). -/
def State.readCopies (s : State) (k : Nat) (bs : List Byte) : List Nat → CopiesR
  | [] => .ok Tbl.empty
  | op :: ops =>
    if !oeV (entryAt bs op) then s.readCopies k bs ops
    else
      match s.readCmd k (oeLrec (entryAt bs op)) 512 with
      | .wait s => .wait s
      | .bad cause => .bad cause
      | .ok r =>
        match s.readCopies k bs ops with
        | .ok t => .ok (t.put op (BitVec.ofNat 4096 (leNat r)))
        | x => x

/-- Entry j of a carousel program's bytes. -/
def programEntry (bs : List Byte) (j : Nat) : BitVec 256 := BitVec.ofNat 256 (leNat ((bs.drop (32 + 32 * j)).take 32))

/-- Number of entries of a carousel program's bytes. -/
def programLen (bs : List Byte) : Nat := leNat (bs.take 1) + 1

/-- The program that will be in effect with a table that loads now: its bytes, none when there is none (R216, R217). -/
def Die.programNext (d : Die) : List Byte :=
  match (d.pend.filter fun p => p.carousel).getLast? with
  | some p => p.region.bytes
  | none => if d.carousel.present then d.carousel.bytes else []

/-- The table that will be in effect with a program that loads now: its bytes and its copies. -/
def Die.tableNext (d : Die) : List Byte × Tbl (BitVec 4096) :=
  match (d.pend.filter fun p => !p.carousel).getLast? with
  | some p => (p.region.bytes, p.copies)
  | none => (d.opTable.bytes, d.copies)

/-- Does a launch record grant a destination of a carousel entry as a FIFO of its tile size (R216)? -/
def destGranted (r : BitVec 4096) (die : Nat) (e : BitVec 256) (k : Nat) : Bool :=
  let y := bitsOf e (192 + 16 * k + 2) 6
  let ag := bitsOf e (192 + 16 * k) 2
  (List.range 4).any fun j => grantOf r j == some (die, y) && mwMode (modeWord r j ag) == 2 && mwUnit (modeWord r j ag) == bitsOf e 64 16

/-- Every valid destination of an entry is granted. -/
def destsGranted (r : BitVec 4096) (die : Nat) (e : BitVec 256) : Bool :=
  (List.range 4).all fun k => !e.getLsbD (192 + 16 * k + 15) || destGranted r die e k

/-- A valid entry and its launch record break a rule of R210, beside the program `prog`. -/
def opBad (die op : Nat) (e : BitVec 256) (r : BitVec 4096) (prog : List Byte) : Bool :=
  let n := if prog.isEmpty then 0 else programLen prog
  ([3, 4, 5, 6, 7].any fun l => levDeclared r l) || decide (lrCrews r < (oeHeight e + 31) / 32) ||
  (!oePin e && decide (oeLayer e ≥ n)) || (lrError r die).isSome ||
  (List.range n).any fun j => ceOp (programEntry prog j) == die * 64 + op && !destsGranted r die (programEntry prog j)

/-- A table's bytes with their copies fail their load (R10, R210). -/
def tableBad (die : Nat) (bs : List Byte) (copies : Tbl (BitVec 4096)) (prog : List Byte) : Bool :=
  (List.range 64).any fun op => oeV (entryAt bs op) && opBad die op (entryAt bs op) (copies.get op) prog

/-- A replacement is accepted: it takes effect at the next layer boundary (R217). -/
def State.stagePend (s : State) (k die : Nat) (car : Bool) (r : Region) (copies : Tbl (BitVec 4096)) : State :=
  (s.updDie die fun d => { d with pend := d.pend ++ [⟨k, car, r, copies⟩] }).updCmd k fun c => { c with st := .running }

/-- An operator table's bytes are loaded for command k. -/
def State.loadTable (s : State) (k : Nat) (bs : List Byte) (backing : DWord) : State :=
  let c := s.cmds.get k
  let die := selDie c
  if (List.range 64).any fun op => entryBad (entryAt bs op) then s.finishCmd k csForm 0
  else
    match s.readCopies k bs (List.range 64) with
    | .wait s => s
    | .bad cause => s.faultCmd k cause
    | .ok copies =>
      if tableBad die bs copies (s.die die).programNext then s.finishCmd k csForm 0
      else s.stagePend k die false (s.newRegion c (sha3 bs) bs noCore 0 die backing) copies

/-! ## Carousel programs (R216) -/

/-- An entry breaks a rule of R216 by itself. -/
def programEntryBad (die : Nat) (e : BitVec 256) : Bool :=
  bitsOf e 160 32 != 0 || bitsOf e 80 48 != 0 || ceTiles e == 0 || bitsOf e 64 16 == 0 || decide (bitsOf e 64 16 > 32768) ||
  ceOp e / 64 != die || decide (ceTiles e * ceUnit e > 2 ^ 31) ||
  (List.range 4).any fun k => bitsOf e (192 + 16 * k + 8) 7 != 0 ||
    (e.getLsbD (192 + 16 * k + 15) && decide (bitsOf e (192 + 16 * k + 2) 6 ≥ 48))

/-- A program's bytes fail their load beside a table and its copies. -/
def programBad (die : Nat) (bs : List Byte) (table : List Byte) (copies : Tbl (BitVec 4096)) : Bool :=
  leNat ((bs.drop 1).take 31) != 0 ||
  (List.range (programLen bs)).any fun j =>
    let e := programEntry bs j
    programEntryBad die e || (oeV (entryAt table (ceOp e % 64)) && !destsGranted (copies.get (ceOp e % 64)) die e)

/-- A carousel program's bytes are loaded for command k. -/
def State.loadProgram (s : State) (k : Nat) (bs : List Byte) (backing : DWord) : State :=
  let c := s.cmds.get k
  let die := selDie c
  let t := (s.die die).tableNext
  if programBad die bs t.1 t.2 then s.finishCmd k csForm 0
  else s.stagePend k die true (s.newRegion c (sha3 bs) bs noCore 0 die backing) Tbl.empty

/-! ## Taking effect (R217, R66) -/

/-- An operator table takes effect: the launch records of its entries are read now (R210), beside the program that will be in effect; its grants are
made first; a rejected one leaves the table in effect and completes its command BUSY. Nothing while a record is still with another device. -/
def State.installTable (s : State) (die : Nat) (p : PendConfig) (prog : List Byte) : Option State :=
  let d := s.die die
  let gen := d.tableGen + 1
  match s.readCopies p.cmd p.region.bytes (List.range 64) with
  | .wait _ => none
  | .bad cause => some (s.faultCmd p.cmd cause)
  | .ok copies =>
    if tableBad die p.region.bytes copies prog then some (s.finishCmd p.cmd csForm 0)
    else
      match (validOps p.region).foldl (fun (acc : Option State) op =>
          acc.bind fun s => s.grantAll (tableGrantee die gen) (copies.get op)) (some s) with
      | none => some (s.finishCmd p.cmd csBusy 0)
      | some s =>
        let s := s.updDie die fun d => { d with
          opTable := p.region, copies := copies, tableGen := gen
          oldGens := if d.opTable.present then d.oldGens ++ [d.tableGen] else d.oldGens }
        let s := if (s.part p.region.part).swapped then s else s.restoreCarders p.region.part die
        some (((s.markHeld die).releaseTable die d.tableGen).finishCmd p.cmd csOk 0)

/-- A carousel program takes effect: it starts at its entry 0 (R217). One whose destinations the table in effect does not grant is rejected
(R216). -/
def State.installProgram (s : State) (die : Nat) (p : PendConfig) : State :=
  let d := s.die die
  if programBad die p.region.bytes d.opTable.bytes d.copies then s.finishCmd p.cmd csForm 0
  else (s.updDie die fun d => { d with carousel := p.region, standing := 0, rot := 0, last := 0 }).finishCmd p.cmd csOk 0

/-- A launch record that a table's entries wait for is asked of its device. -/
def State.askCopies (s : State) (p : PendConfig) : State :=
  match s.readCopies p.cmd p.region.bytes (List.range 64) with
  | .wait t => t
  | _ => s

/-- The region that a replacement is for. -/
def State.pendRegion (s : State) (die : Nat) (p : PendConfig) : Region := if p.carousel then (s.die die).carousel else (s.die die).opTable

/-- One replacement takes effect: a delta of a region that has failed in the meantime completes with DIGEST (R95). -/
def State.installOne (s : State) (die : Nat) (prog : List Byte) (p : PendConfig) : Option State :=
  if (s.cmds.get p.cmd).kind = 2 && (s.pendRegion die p).failed then some (s.finishCmd p.cmd csDigest 0)
  else if p.carousel then some (s.installProgram die p)
  else s.installTable die p prog

/-- CONFIG_TAKE_EFFECT (R217): at a layer boundary every replacement accepted before it takes effect, tables before programs; one for a region
that is frozen for a reload waits for its end (R95). -/
def execConfigTakeEffect (die : Nat) (s : State) : Out :=
  let d := s.die die
  if d.pass.isSome || !d.aside.isEmpty || d.pend.any fun p => (s.pendRegion die p).frozen && !(s.pendRegion die p).failed then .next s
  else
    let ps := (d.pend.filter fun p => !p.carousel) ++ d.pend.filter (·.carousel)
    match ps.foldl (fun (acc : Option State) p => acc.bind fun s => s.installOne die d.programNext p)
        (some (s.updDie die fun d => { d with pend := [] })) with
    | some s => .next s
    | none => .next ((d.pend.filter fun p => !p.carousel).foldl State.askCopies s)

/-! ## Carder spill tables (R429) -/

/-- An entry of a spill table breaks R429. -/
def spillBad (e : Nat) : Bool :=
  let b : BitVec 128 := BitVec.ofNat 128 e
  bitsOf b 72 56 != 0 || bitsOf b 56 8 != 0 || bitsOf b 0 12 != 0 ||
  (bitsOf b 64 8 != 0 && (decide (bitsOf b 64 8 < 4) || decide (bitsOf b 64 8 > 20)))

/-- Does a spill ring of a die hold an entry, or is a packet on its way to one? -/
def State.ringsHold (s : State) (die : Nat) : Bool :=
  s.carders.cells.any fun e => e.1 / 64 == die && (decide (e.2.spillHead < e.2.spillTail) || e.2.inbound.any fun p => p.spill)

/-- A spill table takes effect at once; its reference digest is kept (R93); each ring begins at its BASE. -/
def State.loadSpills (s : State) (k : Nat) (bs : List Byte) : State :=
  let c := s.cmds.get k
  let die := selDie c
  if (List.range 64).any fun op => spillBad (leNat ((bs.drop (16 * op)).take 16)) then s.finishCmd k csForm 0
  else if s.ringsHold die then s.finishCmd k csBusy 0
  else
    let s := s.updDie die fun d => { d with spills := bs, spillDigest := sha3 bs, spillPart := c.part, spillLevel := c.level }
    let cells := s.carders.cells.map fun (e : Nat × Carder) =>
      (e.1, if e.1 / 64 = die then { e.2 with spillHead := 0, spillTail := 0, ring := [] } else e.2)
    { s with carders := ⟨cells⟩ }.finishCmd k csOk 0

/-! ## Bench images (R420, R445) -/

/-- A bench takes another image of its handle: its region is loaded anew and it goes on from the state it stands in. -/
def State.reimage (s : State) (c : Cmd) (b : Nat) (img : List Byte) (backing : DWord) : State :=
  match routedOf img with
  | none => s
  | some r =>
    (s.updBench b fun x => { x with
      img := r
      region := s.newRegion c (imgDigest img) img x.core x.handle (dieOf x.core) backing }).unfreeze (.bench b)

/-- An image is installed under its handle; benches whose region has failed take it (R420, R445). -/
def State.installImage (s : State) (k : Nat) (img : List Byte) (backing : DWord) : State :=
  let c := s.cmds.get k
  let s := s.updPart c.part fun p => { p with images := p.images.put (selHandle c) ⟨true, img, backing, c.level, none⟩ }
  ((s.benchesOf c.part (selHandle c)).filter fun b => (s.bench b).region.failed).foldl (fun s b => s.reimage c b img backing) s

/-- The header of an image by itself: MAGIC, FORM, BODYLEN, reserved bits (R244). -/
def imgHeadOk (h : List Byte) : Bool :=
  imgHdr h 112 16 == 0xBE07 && decide (imgForm h ≤ 2) && imgHdr h 128 96 == 0 && imgHdr h 0 101 == 0 &&
  imgHdr h 224 32 == 160 * (2 * imgCrews h * imgWidth h)

/-- A bench image is loaded for command k: its header, then its records; the digest, then the checks of its chapter. -/
def State.loadImage (s : State) (k : Nat) : State :=
  let c := s.cmds.get k
  match s.readCmd k c.arg0.toNat 64 with
  | .wait s => s
  | .bad cause => s.faultCmd k cause
  | .ok h =>
    if !imgHeadOk h then s.finishCmd k csForm 0
    else
      match s.readCmd k (c.arg0.toNat + 64) (imgHdr h 224 32) with
      | .wait s => s
      | .bad cause => s.faultCmd k cause
      | .ok body =>
        let img := h ++ body
        if sha3 body != imgDigest img then s.finishCmd k csDigest 0
        else if !imageOk img (fun _ => 256) then s.finishCmd k csForm 0
        else (s.installImage k img c.arg0).finishCmd k csOk 0

/-! ## CONFIG (R420) -/

/-- A region of `n` bytes is read for command k and loaded. -/
def State.readRegion (s : State) (k n : Nat) (load : State → List Byte → State) : State :=
  match s.readCmd k (s.cmds.get k).arg0.toNat n with
  | .wait s => s
  | .bad cause => s.faultCmd k cause
  | .ok bs => load s bs

/-- CONFIG (R420). -/
def execConfig (cmd : Nat) (s : State) : Out :=
  let c := s.cmds.get cmd
  if c.st != .taken then .next s
  else if selBad c then .next (s.finishCmd cmd csForm 0)
  else if s.regionBusy cmd then .next s
  else
    match selKind c with
    | 0 => .next (s.readRegion cmd 2048 fun s bs => s.loadTable cmd bs c.arg0)
    | 1 => .next (s.readRegion cmd 32 fun s h => s.readRegion cmd (32 + 32 * programLen h) fun s bs => s.loadProgram cmd bs c.arg0)
    | 2 => .next (s.loadImage cmd)
    | _ => .next (s.readRegion cmd 1024 fun s bs => s.loadSpills cmd bs)

/-! ## DELTA (R421) -/

/-- A patch: offset, length, address of its bytes. -/
structure Patch where
  off : Nat
  len : Nat
  data : Nat
  deriving DecidableEq, Repr, Inhabited

/-- Patch i of a body; none when it breaks R421. -/
def patchAt (body : List Byte) (i size : Nat) : Option Patch :=
  let e : BitVec 128 := BitVec.ofNat 128 (leNat ((body.drop (64 + 16 * i)).take 16))
  let p : Patch := ⟨bitsOf e 0 32, bitsOf e 32 32, bitsOf e 64 56⟩
  if bitsOf e 120 8 ≠ 0 || p.len = 0 || p.len % 8 ≠ 0 || p.off % 8 ≠ 0 || p.off + p.len > size then none else some p

/-- A copy with bytes replaced. -/
def patchBytes (bs : List Byte) (off : Nat) (new : List Byte) : List Byte := bs.take off ++ new ++ bs.drop (off + new.length)

/-- What a patched copy comes to. -/
inductive PatchR where
  | ok (bs : List Byte)
  | wait (s : State)
  | bad (cause : BitVec 8)
  deriving DecidableEq, Repr

/-- The patches apply in order. -/
def State.applyPatches (s : State) (k : Nat) : List Patch → List Byte → PatchR
  | [], bs => .ok bs
  | p :: ps, bs =>
    match s.readCmd k p.data p.len with
    | .wait s => .wait s
    | .bad cause => .bad cause
    | .ok new => s.applyPatches k ps (patchBytes bs p.off new)

/-- The contents that a delta patches: an operator table, a program, or the element records of the handle's image (R93, R421). -/
def State.deltaBase (s : State) (c : Cmd) : Option (List Byte) :=
  match selKind c with
  | 2 =>
    let i := (s.part c.part).images.get (selHandle c)
    if i.present then some (imgBody i.bytes) else none
  | k =>
    let r := if k = 0 then (s.die (selDie c)).opTable else (s.die (selDie c)).carousel
    if r.present then some r.bytes else none

/-- The patched copy is taken: a table or program at the next layer boundary; an image once the handle's benches have drained. -/
def State.takePatched (s : State) (k : Nat) (bs : List Byte) : State :=
  let c := s.cmds.get k
  match selKind c with
  | 0 => s.loadTable k bs (s.die (selDie c)).opTable.backing
  | 1 => if bs.length = 32 + 32 * programLen bs then s.loadProgram k bs (s.die (selDie c)).carousel.backing else s.finishCmd k csForm 0
  | _ =>
    let old := ((s.part c.part).images.get (selHandle c)).bytes
    let img := old.take 32 ++ leBytes 32 (sha3 bs).toNat ++ bs
    if !imageOk img (fun _ => 256) then s.finishCmd k csForm 0
    else
      (s.updPart c.part fun p => { p with images := p.images.upd (selHandle c) fun i => { i with patched := some img } }).updCmd k
        fun c => { c with st := .running }

/-- The body is read and checked: BASEDIG against the region's digest, NEWDIG against the patched copy's. -/
def State.readDelta (s : State) (k : Nat) : State :=
  let c := s.cmds.get k
  match s.readCmd k c.arg0.toNat (64 + 16 * selPatches c) with
  | .wait s => s
  | .bad cause => s.faultCmd k cause
  | .ok body =>
    match s.deltaBase c with
    | none => s.finishCmd k csDigest 0
    | some base =>
      if (s.targetsOf c).any (fun r => (s.region r).failed) || (sha3 base).toNat ≠ leNat (body.take 32) then s.finishCmd k csDigest 0
      else
        match (List.range (selPatches c)).mapM fun i => patchAt body i base.length with
        | none => s.finishCmd k csForm 0
        | some ps =>
          match s.applyPatches k ps base with
          | .wait s => s
          | .bad cause => s.faultCmd k cause
          | .ok bs => if (sha3 bs).toNat ≠ leNat ((body.drop 32).take 32) then s.finishCmd k csDigest 0 else s.takePatched k bs

/-- Does a saved bench go on by itself: each of its crews is resident and no pre-emption waits? -/
def State.benchReturns (s : State) (b : Nat) : Bool :=
  let x := s.bench b
  x.st == .saved && x.entries.all fun e => (s.crew e.crew).place == .resident && !(s.crew e.crew).preempt

/-- A delta of a bench image goes on: every bench of the handle drains; then the image and theirs are replaced; then they run again. One whose
region has failed in the meantime ends the delta with DIGEST (R95). -/
def State.deltaBenches (s : State) (k : Nat) : State :=
  let c := s.cmds.get k
  let bs := s.benchesOf c.part (selHandle c)
  match ((s.part c.part).images.get (selHandle c)).patched with
  | some img =>
    if bs.any fun b => (s.bench b).region.failed then
      (s.updPart c.part fun p => { p with images := p.images.upd (selHandle c) fun i => { i with patched := none } }).finishCmd k csDigest 0
    else if bs.any fun b => (s.bench b).placed then bs.foldl (fun s b => s.drainBench b) s
    else
      let old := (s.part c.part).images.get (selHandle c)
      let s := s.updPart c.part fun p => { p with images := p.images.put (selHandle c) ⟨true, img, old.backing, old.level, none⟩ }
      bs.foldl (fun s b => s.reimage c b img old.backing) s
  | none => if bs.any s.benchReturns then s else s.finishCmd k csOk 0

/-- DELTA (R421). -/
def execDelta (cmd : Nat) (s : State) : Out :=
  let c := s.cmds.get cmd
  if c.kind = 2 && c.st == .running && selKind c = 2 then .next (s.deltaBenches cmd)
  else if c.st != .taken then .next s
  else if selBad c then .next (s.finishCmd cmd csForm 0)
  else if s.regionBusy cmd then .next s
  else .next (s.readDelta cmd)

end Sys2Proof.Machine
end

