-- ==== Sys2Proof/Machine/Parts.lean ====
section
/-!
DEFINITION. Sys2Proof/Machine/Parts.lean: pre-emption of crews (R446), RESUME (R448), and the partition commands (R97, R449–R453).
-/
namespace Sys2Proof.Machine

/-! ## Saving a crew (R446) -/

/-- The bench that holds a crew, once it has started. -/
def State.benchOfCrew (s : State) (k : Nat) : Option Nat :=
  (s.benches.cells.find? fun e => e.2.placed && e.2.entries.any fun n => n.crew == k).map (·.1)

/-- PREEMPT commands that wait for a crew. -/
def State.preemptsOf (s : State) (k : Nat) : List Nat :=
  (s.cmds.cells.filter fun e => e.2.st == .running && e.2.kind == 5 && bitsOf e.2.arg0 0 8 == 4 && bitsOf e.2.arg1 0 14 == k).map (·.1)

/-- A crew at a sett boundary, its uncommitted sett gone, is saved when there is room; with the shadow units full its PREEMPT is BUSY. -/
def State.saveStopped (s : State) (k : Nat) : State :=
  let c := s.crew k
  if s.shadowFits k then (if s.recRoom (dieOf c.core) 1 then s.saveCrew k else s)
  else if c.place == .halted || s.partOut c.part then s
  else (s.preemptsOf k).foldl (fun s m => s.finishCmd m csBusy 0) (s.updCrew k fun c => { c with preempt := false })

/-- CREW_PREEMPT_SAVE (R446): a sett in commit finishes first; a bench that holds the crew drains first; a halted crew that found no room
is tried again. -/
def execCrewPreemptSave (crew : Nat) (s : State) : Out :=
  let c := s.crew crew
  if c.place == .halted then .next (s.saveStopped crew)
  else if c.place != .resident || !c.preempt || c.sett.phase == .effects || c.sett.phase == .control then .next s
  else
    match s.benchOfCrew crew with
    | some b => .next (s.drainBench b)
    | none => .next ((s.discard crew).saveStopped crew)

/-! ## RESUME (R415, R448) -/

/-- A crew's saved context holds an uncorrectable word (R90). -/
def State.contextBad (s : State) (k : Nat) : Bool := (s.die (dieOf (s.crew k).core)).shadowBad.contains k

/-- Is a context waiting for placement? -/
def State.resuming (s : State) (k : Nat) : Bool :=
  s.dies.vals.any fun d => d.placeq.any fun r => match r with
    | .resumeCrew j _ => j == k
    | _ => false

/-- RESUME (R415, R426): the context enters placement at taking. -/
def execResume (cmd : Nat) (s : State) : Out :=
  let m := s.cmds.get cmd
  let k := bitsOf m.arg0 0 14
  let c := s.crew k
  if m.st != .taken then .next s
  else if bitsOf m.arg0 14 50 ≠ 0 || m.arg1 != 0 || (c.place != .saved && c.place != .halted) || (m.part ≠ c.part && m.part ≠ 0) ||
      s.resuming k then .next (s.finishCmd cmd csForm 0)
  else if s.contextBad k then .next (s.faultCmd cmd cUncorrectable)
  else if c.place == .halted then .next ((s.updCrew k fun c => { c with place := .resident }).finishCmd cmd csOk 0)
  else
    .next ((s.updDie (dieOf c.core) fun d => { d with placeq := d.placeq ++ [.resumeCrew k (some cmd)] }).updCmd cmd fun m =>
      { m with st := .running })

/-! ## Partition commands (R449) -/

/-- PART of a partition command. -/
def cmdPart (m : Cmd) : Nat := bitsOf m.arg0 8 4

/-- A partition command from another source than R449 allows, or with a reserved value; `owner`: partition 0's alone. -/
def partForm (m : Cmd) (owner : Bool) : Bool :=
  bitsOf m.arg0 12 52 ≠ 0 || !m.level || (m.part ≠ 0 && (owner || m.part ≠ cmdPart m))

/-- Clusters of a mask. -/
def clustersOf (m : BitVec 24) : List Nat := (List.range Config.clusters).filter fun c => m.getLsbD c

/-- Cores and yards of a mask's clusters. -/
def coresOf (m : BitVec 24) : List Nat := (List.range Config.cores).filter fun k => m.getLsbD (k / 8)
def yardsOf (m : BitVec 24) : List Nat := (List.range 192).filter fun y => m.getLsbD (y / 8)

/-- A core as it is given out: nothing in it but its cycle count. -/
def bareCore (k : Core) : Core := { (default : Core) with cyc := k.cyc }

/-- Clusters leave their partition: their cores and yards hold no configuration. -/
def State.bareClusters (s : State) (m : BitVec 24) : State :=
  { s with
    cores := ⟨s.cores.cells.map fun e => (e.1, if m.getLsbD (e.1 / 8) then bareCore e.2 else e.2)⟩
    yards := ⟨s.yards.cells.filter fun e => !m.getLsbD (e.1 / 8)⟩ }

/-- Every local memory and yard of clusters reads zero. -/
def State.zeroClusters (s : State) (m : BitVec 24) : State :=
  (clustersOf m).foldl (fun s c => (s.zeroRange (localAp (8 * c)) (8 * 0x40000)).zeroRange (yardAp (8 * c)) (8 * 0x200000)) (s.bareClusters m)

/-- Is a cluster of the mask assigned to a partition other than p? -/
def State.assigned (s : State) (p : Nat) (m : BitVec 24) : Bool :=
  s.parts.cells.any fun e => e.1 != p && e.2.present && e.2.clusters &&& m != 0

/-! ### CREATE (R450) -/

/-- A descriptor breaks R450 for partition p. -/
def descriptorBad (v p : Nat) : Bool :=
  let b : BitVec 512 := BitVec.ofNat 512 v
  let img := bitsOf b 256 256
  bitsOf b 24 64 != 0 || bitsOf b 108 148 != 0 || bitsOf b 88 8 == 0 || decide (bitsOf b 88 8 > 48) || producerBad img ||
  !(producerOf img).v || (producerOf img).part != p || !(producerOf img).sup

/-- Partition p as CREATE makes it: what the security block holds for it stands. -/
def Partition.create (x : Partition) (m : BitVec 24) (units : List Nat) : Partition :=
  { (default : Partition) with
    present := true
    clusters := m
    units := units
    grants := x.grants
    windows := x.windows
    qp := x.qp
    groups := x.groups
    keyed := x.keyed
    secret := x.secret
    ctrIn := x.ctrIn
    ctrOut := x.ctrOut }

/-- The shadow units that no partition holds (R97); CREATE takes the lowest of them (log 90). -/
def State.freeUnits (s : State) : List Nat :=
  (List.range 48).filter fun u => !s.parts.vals.any fun x => x.present && x.units.contains u

/-- PARTITION_CREATE (R449, R450). -/
def execPartitionCreate (cmd : Nat) (s : State) : Out :=
  let m := s.cmds.get cmd
  let p := cmdPart m
  if m.st != .taken then .next s
  else if partForm m true || m.arg1.toNat % 64 ≠ 0 || (!(s.part p).keyed && !(s.part p).present) then .next (s.finishCmd cmd csForm 0)
  else
    match s.readCmd cmd m.arg1.toNat 64 with
    | .wait s => .next s
    | .bad cause => .next (s.faultCmd cmd cause)
    | .ok bs =>
      let v := leNat bs
      let b : BitVec 512 := BitVec.ofNat 512 v
      let mask : BitVec 24 := b.extractLsb' 0 24
      if descriptorBad v p then .next (s.finishCmd cmd csForm 0)
      else if (s.part p).present || s.assigned p mask || decide (s.freeUnits.length < bitsOf b 88 8) then .next (s.finishCmd cmd csBusy 0)
      else
        .next ((((s.zeroClusters mask).updPart p fun x => x.create mask (s.freeUnits.take (bitsOf b 88 8))).updProd (bitsOf b 96 12) fun _ =>
          producerOf (bitsOf b 256 256)).finishCmd cmd csOk 0)

/-! ### PREEMPT (R446) -/

/-- PARTITION_PREEMPT (R446, R449): complete once the crew is saved, or has ended. -/
def execPartitionPreempt (cmd : Nat) (s : State) : Out :=
  let m := s.cmds.get cmd
  let k := bitsOf m.arg1 0 14
  let c := s.crew k
  if m.st == .running && m.kind = 5 then .next (if c.place == .saved || c.place == .free then s.finishCmd cmd csOk 0 else s)
  else if m.st != .taken then .next s
  else if partForm m false || bitsOf m.arg1 14 50 ≠ 0 || c.place == .free || c.part ≠ cmdPart m then .next (s.finishCmd cmd csForm 0)
  else if c.place == .saved then .next (s.finishCmd cmd csOk 0)
  else if !s.shadowFits k then .next (s.finishCmd cmd csBusy 0)
  else .next ((s.updCrew k fun c => { c with preempt := true }).updCmd cmd fun m => { m with st := .running })

/-! ### SWAPOUT (R451) -/

/-- Crews of a partition in a place. -/
def State.crewsIn (s : State) (p : Nat) (at' : CrewPlace) : List Nat :=
  (s.crews.cells.filter fun e => e.2.part == p && e.2.place == at').map (·.1)

/-- Bytes of a die that the contexts of a partition not yet saved would take. -/
def State.unsaved (s : State) (p die : Nat) : Nat :=
  ((s.crews.vals.filter fun c => c.part == p && (c.place == .resident || c.place == .halted) && dieOf c.core == die).map Crew.shadowBytes).sum +
  ((s.gangs.vals.filter fun g => g.live && !g.saved && g.part == p && dieOf g.core == die).map Gang.shadowBytes).sum

/-- Bytes of a die that a partition takes beside its crews and gangs: queues, bench entries and control state of its cores, and the token pool's
part; R96 gives the largest sizes, which bound an open value. -/
def State.swapBytes (s : State) (p die : Nat) : Nat :=
  let n := ((coresOf (s.part p).clusters).filter fun k => dieOf k == die).length
  min (Config.swapBytes die) (n * ((4 + 68 + 4) * 1024) + 2 ^ 20)

/-- Do a partition's contexts fit its shadow units on every die (R97)? -/
def State.contextsFit (s : State) (p : Nat) : Bool :=
  (List.range Config.dies).all fun d => decide (s.shadowUsed p d + s.unsaved p d + s.swapBytes p d ≤ (s.part p).units.length * 2 ^ 20)

/-- PARTITION_SWAPOUT (R451): taking stops, carders stand still, and every crew is pre-empted. -/
def execPartitionSwapout (cmd : Nat) (s : State) : Out :=
  let m := s.cmds.get cmd
  let p := cmdPart m
  let x := s.part p
  if m.st != .taken then .next s
  else if partForm m false || m.arg1 != 0 || !x.present then .next (s.finishCmd cmd csForm 0)
  else if x.swapped then .next (s.finishCmd cmd csOk 0)
  else if x.swapping.isSome || !s.contextsFit p then .next (s.finishCmd cmd csBusy 0)
  else
    let out := (s.crewsIn p .resident).filter fun k => !(s.crew k).preempt
    let s := (s.crewsIn p .resident).foldl (fun s k => s.updCrew k fun c => { c with preempt := true }) s
    .next ((s.updPart p fun x => { x with swapping := some cmd, outCrews := out }).updCmd cmd fun m => { m with st := .running })

/-- An operation that can do no more by itself: each event of an engine leaves the state as it is. -/
def State.opRests (s : State) (id : Nat) : Bool :=
  let o := s.eop id
  let same := fun (f : State → Out) => after f s == s
  same (execEngineAccept id) && same (execEngineOperationComplete id) && same (execCondCopyReserve id) &&
  same (execMatrixOperationExecute o.core id) && same (execMulticastTileRead id) &&
  ((List.range o.branches.length).all fun b => same (execMulticastTileDeliver id b)) && !s.opWaits id

/-- Is a region of a partition frozen for a reload that is under way (R95)? -/
def Region.reloading (r : Region) (p : Nat) : Bool := r.present && r.part == p && r.frozen && !r.failed

/-- Is everything of a partition saved or at rest (R451), and no region of it frozen for a reload (R95)? -/
def State.partStill (s : State) (p : Nat) : Bool :=
  let cs := (s.part p).clusters
  !(s.dies.vals.any fun d => d.opTable.reloading p || d.carousel.reloading p) &&
  (s.crewsIn p .resident).isEmpty && (s.crewsIn p .halted).isEmpty && !(s.benches.vals.any fun x => x.part == p && x.placed) &&
  (s.ops.cells.all fun e => e.2.part != p || s.opRests e.1) &&
  !(s.inflight.any fun r => cs.getLsbD (r.core / 8)) &&
  s.cores.cells.all fun e => !cs.getLsbD (e.1 / 8) || e.2.cb.isEmpty

/-- What the swap engine keeps of a core: no cache holds anything. -/
def Core.kept (k : Core) : Core := { k with l1 := [], cb := [], icache := [], sfu := Tbl.empty, pressed := none }

/-- SWAPOUT_SAVE_COMPLETE (R451): cores, carders and yards are in the shadow store and the save area, and the clusters are released. No rule places
the yard save area in HBM: its bytes stand in the partition's record, outside memory (log 90). -/
def execSwapoutSaveComplete (part : Nat) (s : State) : Out :=
  let x := s.part part
  match x.swapping with
  | none => .next s
  | some cmd =>
    if !s.partStill part then .next s
    else
      let ys := yardsOf x.clusters
      let s := s.updPart part fun x => { x with
        savedCores := (s.cores.cells.filter fun e => x.clusters.getLsbD (e.1 / 8)).map fun e => (e.1, e.2.kept)
        savedYards := ys.map fun y => (y, s.yards.get y, (rangeCells s.mem (yardAp y) 0x200000).map fun e => (e.1 - yardAp y, e.2))
        savedPoison := x.savedPoison ++ ys.map fun y => (2 ^ 32 + y, s.poisonOf (yardAp y) 0x200000)
        held := x.clusters
        clusters := 0
        swapped := true
        swapping := none }
      .next (((s.saveCarders part).bareClusters x.clusters).finishCmd cmd csOk 0)

/-! ### SWAPIN (R452) -/

/-- A yard's bytes and poison return. -/
def State.restoreYard (s : State) (p : Nat) (e : Nat × Yard × List (Nat × Byte)) : State :=
  let a := yardAp e.1
  let bad : List Nat := match (s.part p).savedPoison.find? fun q => q.1 == 2 ^ 32 + e.1 with
    | some q => q.2
    | none => []
  { s with
    mem := e.2.2.foldl (fun m (b : Nat × Byte) => m.write (a + b.1) b.2) s.mem
    poison := s.poison ++ bad.map (a / 4 + ·)
    yards := if e.2.1 = default then s.yards else s.yards.put e.1 e.2.1 }

/-- Carders, cores, yards, gangs and crews return to where they were. -/
def State.restorePart (s : State) (p : Nat) : State :=
  let x := s.part p
  let s := s.zeroClusters x.held
  let s := x.savedCores.foldl (fun (s : State) e => { s with cores := s.cores.put e.1 { e.2 with cyc := (s.core e.1).cyc } }) s
  let s := x.savedYards.foldl (fun s e => s.restoreYard p e) s
  let s := (List.range Config.dies).foldl (fun s d =>
    if (s.die d).opTable.present && (s.die d).opTable.part != p then s else s.restoreCarders p d) s
  let s := x.outCrews.foldl (fun s k =>
    let g := (s.crew k).gang
    let w := s.gang g
    let s := if w.saved then s.restoreGang g ⟨w.core, w.baseQ, w.localBase, []⟩ else s
    let c := s.crew k
    (s.wakeCluster c.core).seatCrew k c.core c.quarter c.rowBase) s
  s.updPart p fun x => { x with
    clusters := x.held, held := 0, swapped := false, outCrews := [], savedCores := [], savedYards := []
    savedPoison := x.savedPoison.filter fun q => decide (q.1 < 2 ^ 32) }

/-- PARTITION_SWAPIN (R452): every context returns to the core and quarter it left; one that reads an uncorrectable word stops before any
crew runs. -/
def execPartitionSwapin (cmd : Nat) (s : State) : Out :=
  let m := s.cmds.get cmd
  let p := cmdPart m
  let x := s.part p
  if m.st != .taken then .next s
  else if partForm m false || m.arg1 != 0 || !x.present then .next (s.finishCmd cmd csForm 0)
  else if x.swapping.isSome then .next (s.finishCmd cmd csBusy 0)
  else if !x.swapped then .next (s.finishCmd cmd csOk 0)
  else if s.assigned p x.held then .next (s.finishCmd cmd csBusy 0)
  else if x.outCrews.any s.contextBad then .next (s.faultCmd cmd cUncorrectable)
  else
    .next ((s.restorePart p).finishCmd cmd csOk 0)

/-! ### SCRUB -/

/-- Bytes of a core's local memory that no gang holds read zero. -/
def State.scrubLocal (s : State) (core : Nat) : State :=
  let a := localAp core
  let t := s.localTaken core []
  let free := fun (b : Nat) => decide (a ≤ b) && decide (b < a + 0x40000) && !(t.any fun r => decide (r.1 ≤ b - a) && decide (b - a < r.1 + r.2))
  let gaps : Segs := t.foldl (fun (f : Segs) r => f.cut (a + r.1) r.2) [(a, a + 0x40000, 0)]
  let fresh := gaps.foldl (fun (l : Segs) x => l.cut x.1 (x.2.1 - x.1)) s.mem.fresh
  { s with mem := ⟨s.mem.cells.filter fun e => !free e.1, fresh⟩, poison := s.poison.filter fun w => !free (4 * w) }

/-- Every local range, yard and tile of clusters that no gang holds reads zero. -/
def State.scrub (s : State) (m : BitVec 24) : State :=
  let s := (coresOf m).foldl (fun s c => s.scrubLocal c) s
  let s := (yardsOf m).foldl (fun s y => if (s.yards.get y).grants.isEmpty then s.zeroRange (yardAp y) 0x200000 else s) s
  { s with cores := ⟨s.cores.cells.map fun e =>
      (e.1, if m.getLsbD (e.1 / 8) then { e.2 with tiles := e.2.tiles.mapVals fun t => if t.gang.isNone then default else t } else e.2)⟩ }

/-- PARTITION_SCRUB (R449). -/
def execPartitionScrub (cmd : Nat) (s : State) : Out :=
  let m := s.cmds.get cmd
  let x := s.part (cmdPart m)
  if m.st != .taken then .next s
  else if partForm m false || m.arg1 != 0 || !x.present then .next (s.finishCmd cmd csForm 0)
  else .next ((s.scrub x.clusters).finishCmd cmd csOk 0)

/-! ### DESTROY (R453) -/

/-- Parked requests of a partition on a die, in the order in which they parked. -/
def Die.parkedOf (d : Die) (p : Nat) : List Nat :=
  let es := d.fq.cells.filter fun e => e.2.valid && e.2.part == p
  (es.foldl (fun l e => Cells.insert l e.2.order e.1) ([] : List (Nat × Nat))).map (·.2)

/-- Every parked request of a partition is cancelled, and operations that are over write their stamps. -/
def State.cancelAll (s : State) (p : Nat) : State :=
  let s := (List.range Config.dies).foldl (fun s d => ((s.die d).parkedOf p).foldl (fun s i =>
    (s.freeFqEntry d i).cancel ((s.die d).fq.get i)) s) s
  (s.ops.cells.filter fun e => e.2.part == p).foldl (fun s e => if (s.eop e.1).stage == .performed then s.advanceOp e.1 else s) s

/-- An untaken command is complete with CANCELLED: its slot is read for its target. One whose slot cannot be read has no record. -/
def State.cancelSlot (s : State) (n : Nat) (seq : Word) : State :=
  let p := s.producers.get n
  match s.readFor (tagProd n) p.part p.sup (p.rbase + 64 * (seq.toNat % 2 ^ p.rlog2)) 64 with
  | .ok bs =>
    if slotField (leNat bs) 0 32 ≠ seq.toNat then s
    else
      let id := s.nextCmd
      { s with cmds := s.cmds.put id (cmdOf n p (leNat bs)), nextCmd := id + 1 }.finishCmd id csCancelled 0
  | _ => s

/-- SEQ of the entries of a producer that are not taken: its intake, then its spill ring. -/
def State.untaken (s : State) (n : Nat) : List Word :=
  let p := s.producers.get n
  p.intake ++ (List.range (p.spillTail - p.spillHead)).filterMap fun i =>
    match s.readFor (tagProd n) p.part p.sup (p.spillVa (p.spillHead + i)) 8 with
    | .ok bs => some (BitVec.ofNat 32 (leNat bs / 2 ^ 32))
    | _ => none

/-- Untaken and running commands of a partition, and partition commands aimed at it, are complete with CANCELLED. -/
def State.cancelCmds (s : State) (p but : Nat) : State :=
  let s := (s.cmds.cells.filter fun e => e.1 != but && (e.2.st == .taken || e.2.st == .running) &&
      (e.2.part == p || (e.2.kind == 5 && cmdPart e.2 == p))).foldl (fun s e => s.finishCmd e.1 csCancelled 0) s
  (s.producers.cells.filter fun e => e.2.v && e.2.part == p).foldl (fun s e =>
    (s.untaken e.1).foldl (fun s q => s.cancelSlot e.1 q) s) s

/-- A die without what a partition had on it. -/
def Die.without (d : Die) (p : Nat) (gone : PlaceReq → Bool) : Die :=
  let own := fun (r : Region) => r.present && r.part == p
  { d with
    recs := d.recs.filter fun r => r.part != p
    fq := ⟨d.fq.cells.filter fun e => !(e.2.valid && e.2.part == p)⟩
    placeq := d.placeq.filter fun r => !gone r
    pend := d.pend.filter fun r => r.region.part != p
    opTable := if own d.opTable then default else d.opTable
    copies := if own d.opTable then Tbl.empty else d.copies
    oldGens := if own d.opTable then [] else d.oldGens
    pass := if own d.carousel then none else d.pass
    standing := if own d.carousel then 0 else d.standing
    carousel := if own d.carousel then default else d.carousel
    aside := if own d.carousel then [] else d.aside
    spills := if d.spillPart = p then [] else d.spills
    spillDigest := if d.spillPart = p then 0 else d.spillDigest }

/-- A carder without a partition's records. -/
def Carder.without (c : Carder) (p : Nat) (dead : Word → Bool) : Carder :=
  { c with
    inbound := c.inbound.filter fun q => q.part != p
    waiting := c.waiting.filter fun h => !dead h
    batt := c.batt.bind fun b => if b.rows.any fun r => dead r.handle then none else some b }

/-- A partition's contexts, tables, records and producers are gone. -/
def State.dropPart (s : State) (p : Nat) : State :=
  let dead := fun (h : Word) => s.tokLive h && (s.pool.get (tokKey h)).part == p
  let gone := fun (r : PlaceReq) => (s.wantOf 0 r).part == p
  let mine := fun (id : Nat) => (s.eop id).part == p
  let launches := (s.launches.cells.filter fun e => e.2.part == p).map (·.1)
  let s := launches.foldl (fun s l => s.releaseYards (false, l)) s
  let s := s.dies.cells.foldl (fun s e =>
    if e.2.opTable.present && e.2.opTable.part = p then
      (e.2.tableGen :: e.2.oldGens).foldl (fun s g => s.releaseYards (tableGrantee e.1 g)) s
    else s) s
  let crews := (s.crews.cells.filter fun e => e.2.part == p).map (·.1)
  let s := crews.foldl State.dropCrew s
  { s with
    dies := ⟨s.dies.cells.map fun e => (e.1, e.2.without p gone)⟩
    carders := s.carders.mapVals fun c => c.without p dead
    pool := s.pool.mapVals fun t => if t.used && t.part == p then { t with used := false, gen := nextGen t.genNow } else t
    lends := ⟨s.lends.cells.filter fun e => e.2.job.part != p⟩
    gangs := ⟨s.gangs.cells.filter fun e => e.2.part != p⟩
    launches := ⟨s.launches.cells.filter fun e => e.2.part != p⟩
    benches := ⟨s.benches.cells.filter fun e => e.2.part != p⟩
    walks := s.walks.filter fun w => w.part != p
    tlb := s.tlb.filter fun t => t.part != p
    reservations := s.reservations.filter fun r => !(r.2.1 == s.dev && mine r.2.2)
    queues := s.queues.mapVals fun q => q.filter fun id => !mine id
    ops := ⟨s.ops.cells.filter fun e => e.2.part != p⟩
    dieFrames := s.dieFrames.filter fun f => f.packet.part != p
    producers := s.producers.mapVals fun x => if x.part == p then default else x }

/-- PARTITION_DESTROY (R453). -/
def execPartitionDestroy (cmd : Nat) (s : State) : Out :=
  let m := s.cmds.get cmd
  let p := cmdPart m
  let x := s.part p
  if m.st != .taken then .next s
  else if partForm m true || m.arg1 != 0 || !x.present then .next (s.finishCmd cmd csForm 0)
  else
    let s := (coresOf x.clusters).foldl (fun s k => s.releaseCore k) s
    let s := (s.cancelAll p).cancelCmds p cmd
    let s := (s.dropPart p).bareClusters x.clusters
    .next ((s.updPart p fun x => { x with
      present := false, swapped := false, swapping := none, clusters := 0, held := 0, units := [], images := Tbl.empty
      windows := Tbl.empty, qp := default, groups := Tbl.empty, keyed := false, secret := 0, ctrIn := 0, ctrOut := 0
      savedLocal := [], savedPoison := [], savedYards := [], savedCores := [], savedCarders := [], outCrews := [] }).finishCmd cmd csOk 0)

end Sys2Proof.Machine
end

