-- ==== Sys2Proof/Machine/System.lean ====
section
/-!
DEFINITION. Sys2Proof/Machine/System.lean: trap and system instructions, OP 0xE7–0xEE (R401–R406, R440).
-/
namespace Sys2Proof.Machine

/-! ## TRAP and SVC (R402) -/

/-- TRAP or SVC while its sett executes: taken, it transfers nothing itself; guarded off, the path falls through. -/
def trapDecide (g : Guard) (s : State) : State :=
  let c := s.me
  if c.guardMask g == 0 then pathDecide (fun c => c.sett.fall) (fun _ => 0) (fun _ => 0) s
  else s.checkedGo s.cur (fun _ => false) [] (keepCtl s.cur ⟨c.guardMask g, [], 0⟩)

/-- The commit of TRAP or SVC: the trap is taken with the fall-through address saved (R402, R437). -/
def State.trapCommit (s : State) (k : Nat) (cause : BitVec 8) (code : BitVec 16) : State :=
  let c := s.crew k
  if c.sett.ctl.take == 0 then s.updCrew k fun c => c.goTo ((c.sett.ctl.dests.headD (0, 0)).2)
  else if s.trapReady k then
    let t := c.sett
    (s.updCrew k fun c => { c with sett := default, stall := stNone }).takeTrap k cause (code.setWidth 64) t.slot 0 0 t.fall.toNat
  else s.askVec k

/-- TRAP (R402). -/
def execTrap (g : Guard) (code : BitVec 16) (s : State) : Out :=
  match s.me.sett.phase with
  | .control => .next (s.trapCommit s.cur cBreak code)
  | _ => .next (trapDecide g s)

/-- SVC (R402). -/
def execSvc (g : Guard) (code : BitVec 16) (s : State) : Out :=
  match s.me.sett.phase with
  | .control => .next (s.trapCommit s.cur cSvc code)
  | _ => .next (trapDecide g s)

/-- TRET (R440): NEST, the mask and TR_PC are checked while the sett executes. -/
def execTret (g : Guard) (s : State) : Out :=
  let c := s.me
  match c.sett.phase with
  | .control =>
    if c.sett.ctl.take == 0 then .next (pathCommit s)
    else .next (s.updMe fun c =>
      { c with sett := default, stall := stNone }.tret c.sett.ctl.aux ((c.sett.ctl.dests.headD (0, 0)).2))
  | _ =>
    if c.guardMask g == 0 then .next (pathDecide (fun c => c.sett.fall) (fun _ => 0) (fun _ => 0) s)
    else if !nestBit c.trCause || c.mask != c.trCause.extractLsb' 32 32 then
      .next (s.setMe (raiseExc c cIllegalOp (BitVec.ofNat 64 (slotAddr c.sett c.sett.slot)) 0))
    else .next (pathDecide (fun c => c.trPc) (fun c => c.trCause) (fun c => c.guardMask g) s)

/-- HALT (R406): its sett commits; the crew stops at the fall-through address and is saved when there is room. -/
def execHalt (g : Guard) (s : State) : Out :=
  match s.me.sett.phase with
  | .control =>
    let c := s.me
    let s' := pathCommit s
    if c.sett.ctl.take == 0 then .next s'
    else .next ((s'.updMe fun c => { c with place := .halted }).trySave s.cur)
  | _ => .next (pathDecide (fun c => c.sett.fall) (fun _ => 0) (fun c => c.guardMask g) s)

/-! ## System registers (R403) -/

/-- SYSR (R403). -/
def execSysr (d : Dst) (g : Guard) (r : SysReg) (s : State) : Out :=
  .next (valueSlot s g d true false fun _ _ => s.sysRead s.cur r)

/-- SYSW at commit: SUBMIT releases at .device first (R411); XLAT_INV and PT_ROOT wait for an earlier invalidation. -/
def syswAct (r : SysReg) (v : DWord) (s : State) : State :=
  let k := s.cur
  let core := s.me.core
  if waitsInval r && s.invBusy then s.stallMe stWaitc
  else if r == .submit then
    let s := s.releaseAt core .device
    if s.coreBusy core || !s.submitRoom then s.stallMe stWaitc else (s.sysWrite k r v).land []
  else (s.sysWrite k r v).land []

/-- SYSW (R403). -/
def execSysw (g : Guard) (r : SysReg) (a : Src) (s : State) : Out :=
  .next (valueOnce g (fun _ => if waitsInval r then [.xlatBusy] else []) (fun c => uni64 s c 0 a g) (syswAct r) s)

/-! ## SURVEY and features (R404, R405) -/

/-- SURVEY (R404): checked while its sett executes, read at commit. -/
def execSurvey (o : Ops1) (s : State) : Out :=
  let c := s.me
  let a := uni64 s c 0 o.a o.g
  let go := valueOnce o.g (fun _ => []) (fun c => uni64 s c 0 o.a o.g) (fun v s =>
    let c := s.me
    let (s, w) := s.surveyVal (s.survey c.part c.level v)
    s.land (uniWrites c o.g o.d true w)) s
  if c.sett.phase == .effects || c.guardMask o.g == 0 || c.popTrap then .next go
  else
    match s.survey c.part c.level a with
    | .misaligned => .next (s.setMe (raiseExc c cAlign a 0))
    | .privilege => .next (s.setMe (raiseExc c cPrivilege a 0))
    | .refused => .next (s.setMe (raiseExc c cProtection a 0))
    | _ => .next go

/-- FEAT.TEST (R405). -/
def execFeatTest (o : Ops1) (s : State) : Out :=
  .next (valueSlot s o.g o.d false false fun c _ =>
    let m := uni64 s c 0 o.a o.g
    if m &&& ~~~Config.feat == 0 then 1 else 0)

/-- The context feature mask of a crew (R405). -/
def ctxFeat (s : State) (c : Crew) : DWord := (s.gang c.gang).featReq ||| 1

/-- FEAT.CTX (R405). -/
def execFeatCtx (d : Dst) (g : Guard) (s : State) : Out := .next (valueSlot s g d false false fun c _ => ctxFeat s c)

end Sys2Proof.Machine
end

