-- ==== Sys2Proof/Machine/Dispatch.lean ====
section
/-!
DEFINITION. Sys2Proof/Machine/Dispatch.lean: the step of each instruction and event, one arm for each constructor of Instr.
-/
namespace Sys2Proof.Machine

/-- What an instruction or event does to the device. -/
def exec (i : Instr) (s : State) : Host.Outcome State Fault Refusal :=
  match i with
  | .br g target => Sys2Proof.Machine.execBr g target s
  | .brcAny g target => Sys2Proof.Machine.execBrcAny g target s
  | .brcAll g target => Sys2Proof.Machine.execBrcAll g target s
  | .brx g a => Sys2Proof.Machine.execBrx g a s
  | .call g target => Sys2Proof.Machine.execCall g target s
  | .callx g a => Sys2Proof.Machine.execCallx g a s
  | .ret g => Sys2Proof.Machine.execRet g s
  | .loop g k target => Sys2Proof.Machine.execLoop g k target s
  | .join g k target => Sys2Proof.Machine.execJoin g k target s
  | .yield g => Sys2Proof.Machine.execYield g s
  | .exit g => Sys2Proof.Machine.execExit g s
  | .nop g => Sys2Proof.Machine.execNop g s
  | .iadd o t sat => Sys2Proof.Machine.execIadd o t sat s
  | .iadd3 o t sat => Sys2Proof.Machine.execIadd3 o t sat s
  | .isub o t sat => Sys2Proof.Machine.execIsub o t sat s
  | .imul o t sat => Sys2Proof.Machine.execImul o t sat s
  | .imulh o t => Sys2Proof.Machine.execImulh o t s
  | .imad o t sat => Sys2Proof.Machine.execImad o t sat s
  | .imadWide o t sat => Sys2Proof.Machine.execImadWide o t sat s
  | .imin o t => Sys2Proof.Machine.execImin o t s
  | .imax o t => Sys2Proof.Machine.execImax o t s
  | .iabs o t sat => Sys2Proof.Machine.execIabs o t sat s
  | .lea o t sh m => Sys2Proof.Machine.execLea o t sh m s
  | .shl o t => Sys2Proof.Machine.execShl o t s
  | .shr o t => Sys2Proof.Machine.execShr o t s
  | .sar o t => Sys2Proof.Machine.execSar o t s
  | .rol o t => Sys2Proof.Machine.execRol o t s
  | .ror o t => Sys2Proof.Machine.execRor o t s
  | .mov o => Sys2Proof.Machine.execMov o s
  | .movN64 o => Sys2Proof.Machine.execMovN64 o s
  | .movSpecial g a fpsr => Sys2Proof.Machine.execMovSpecial g a fpsr s
  | .movDWord g a w => Sys2Proof.Machine.execMovDWord g a w s
  | .movi d g t imm => Sys2Proof.Machine.execMovi d g t imm s
  | .sel o t => Sys2Proof.Machine.execSel o t s
  | .icmp o t c k => Sys2Proof.Machine.execIcmp o t c k s
  | .bfx o t => Sys2Proof.Machine.execBfx o t s
  | .bfi o t => Sys2Proof.Machine.execBfi o t s
  | .popc o t => Sys2Proof.Machine.execPopc o t s
  | .clz o t => Sys2Proof.Machine.execClz o t s
  | .ctz o t => Sys2Proof.Machine.execCtz o t s
  | .brev o t => Sys2Proof.Machine.execBrev o t s
  | .lop o t op => Sys2Proof.Machine.execLop o t op s
  | .iaddImm o t sat imm => Sys2Proof.Machine.execIaddImm o t sat imm s
  | .imulImm o t sat imm => Sys2Proof.Machine.execImulImm o t sat imm s
  | .lopImm o t op imm => Sys2Proof.Machine.execLopImm o t op imm s
  | .shiftImm o t op imm => Sys2Proof.Machine.execShiftImm o t op imm s
  | .icmpImm o t c imm => Sys2Proof.Machine.execIcmpImm o t c imm s
  | .iminmaxImm o t isMax imm => Sys2Proof.Machine.execIminmaxImm o t isMax imm s
  | .plop o lut => Sys2Proof.Machine.execPlop o lut s
  | .pmovPack d g => Sys2Proof.Machine.execPmovPack d g s
  | .pmovSet a m g => Sys2Proof.Machine.execPmovSet a m g s
  | .voteAll o => Sys2Proof.Machine.execVoteAll o s
  | .voteAny o => Sys2Proof.Machine.execVoteAny o s
  | .voteEq o => Sys2Proof.Machine.execVoteEq o s
  | .voteBallot o => Sys2Proof.Machine.execVoteBallot o s
  | .voteCount o => Sys2Proof.Machine.execVoteCount o s
  | .perm o => Sys2Proof.Machine.execPerm o s
  | .shfl o t m seg => Sys2Proof.Machine.execShfl o t m seg s
  | .bcastIdx o t => Sys2Proof.Machine.execBcastIdx o t s
  | .bcastFirst o t => Sys2Proof.Machine.execBcastFirst o t s
  | .cmpct o t => Sys2Proof.Machine.execCmpct o t s
  | .fadd o rm sat na nb => Sys2Proof.Machine.execFadd o rm sat na nb s
  | .fmul o rm sat na => Sys2Proof.Machine.execFmul o rm sat na s
  | .ffma o rm sat np nc => Sys2Proof.Machine.execFfma o rm sat np nc s
  | .fmin o nan => Sys2Proof.Machine.execFmin o nan s
  | .fmax o nan => Sys2Proof.Machine.execFmax o nan s
  | .fcmp o c k => Sys2Proof.Machine.execFcmp o c k s
  | .fclass o => Sys2Proof.Machine.execFclass o s
  | .fclassTest o => Sys2Proof.Machine.execFclassTest o s
  | .frnd o rm => Sys2Proof.Machine.execFrnd o rm s
  | .faddPacked o t rm sat na nb => Sys2Proof.Machine.execFaddPacked o t rm sat na nb s
  | .fmulPacked o t rm sat na => Sys2Proof.Machine.execFmulPacked o t rm sat na s
  | .ffmaPacked o t rm sat np nc => Sys2Proof.Machine.execFfmaPacked o t rm sat np nc s
  | .fminPacked o t nan => Sys2Proof.Machine.execFminPacked o t nan s
  | .fmaxPacked o t nan => Sys2Proof.Machine.execFmaxPacked o t nan s
  | .fcmpPacked o t c => Sys2Proof.Machine.execFcmpPacked o t c s
  | .cvt o dt st rm sat => Sys2Proof.Machine.execCvt o dt st rm sat s
  | .cvtPacked o f rm sat => Sys2Proof.Machine.execCvtPacked o f rm sat s
  | .mxpack o f l strict rm => Sys2Proof.Machine.execMxpack o f l strict rm s
  | .mxunpack o f l => Sys2Proof.Machine.execMxunpack o f l s
  | .dot4 o t rm sat => Sys2Proof.Machine.execDot4 o t rm sat s
  | .rcp o => Sys2Proof.Machine.execRcp o s
  | .rsq o => Sys2Proof.Machine.execRsq o s
  | .sqrt o => Sys2Proof.Machine.execSqrt o s
  | .exp2 o => Sys2Proof.Machine.execExp2 o s
  | .log2 o => Sys2Proof.Machine.execLog2 o s
  | .sin o => Sys2Proof.Machine.execSin o s
  | .cos o => Sys2Proof.Machine.execCos o s
  | .tanh o => Sys2Proof.Machine.execTanh o s
  | .sigm o => Sys2Proof.Machine.execSigm o s
  | .sfuResultReturn core quarter => Sys2Proof.Machine.execSfuResultReturn core quarter s
  | .red o op t seg => Sys2Proof.Machine.execRed o op t seg s
  | .scan o op t seg excl cin => Sys2Proof.Machine.execScan o op t seg excl cin s
  | .ldl m => Sys2Proof.Machine.execLdl m s
  | .ldg m => Sys2Proof.Machine.execLdg m s
  | .ldy m => Sys2Proof.Machine.execLdy m s
  | .ldkv m => Sys2Proof.Machine.execLdkv m s
  | .ldt m => Sys2Proof.Machine.execLdt m s
  | .stl m => Sys2Proof.Machine.execStl m s
  | .stg m => Sys2Proof.Machine.execStg m s
  | .sty m => Sys2Proof.Machine.execSty m s
  | .atomGlobal a => Sys2Proof.Machine.execAtomGlobal a s
  | .atomLocal a => Sys2Proof.Machine.execAtomLocal a s
  | .atomYard a => Sys2Proof.Machine.execAtomYard a s
  | .atomGlobalNoret a => Sys2Proof.Machine.execAtomGlobalNoret a s
  | .atomLocalNoret a => Sys2Proof.Machine.execAtomLocalNoret a s
  | .atomYardNoret a => Sys2Proof.Machine.execAtomYardNoret a s
  | .fence g scope => Sys2Proof.Machine.execFence g scope s
  | .fenceEng g scope => Sys2Proof.Machine.execFenceEng g scope s
  | .prefL1 base index off g scale => Sys2Proof.Machine.execPrefL1 base index off g scale s
  | .prefDc base index off g scale => Sys2Proof.Machine.execPrefDc base index off g scale s
  | .cwb a => Sys2Proof.Machine.execCwb a s
  | .cinv a => Sys2Proof.Machine.execCinv a s
  | .iinv a scope => Sys2Proof.Machine.execIinv a scope s
  | .fetchb g => Sys2Proof.Machine.execFetchb g s
  | .barArrive g k => Sys2Proof.Machine.execBarArrive g k s
  | .barWait g k => Sys2Proof.Machine.execBarWait g k s
  | .barSync g k => Sys2Proof.Machine.execBarSync g k s
  | .crewJoin g => Sys2Proof.Machine.execCrewJoin g s
  | .crewLeave d g => Sys2Proof.Machine.execCrewLeave d g s
  | .crewQuery d g => Sys2Proof.Machine.execCrewQuery d g s
  | .crewQueryGang d g => Sys2Proof.Machine.execCrewQueryGang d g s
  | .qpush g a n => Sys2Proof.Machine.execQpush g a n s
  | .qpop d g n => Sys2Proof.Machine.execQpop d g n s
  | .waitc g a p => Sys2Proof.Machine.execWaitc g a p s
  | .monArm g a sp scope k => Sys2Proof.Machine.execMonArm g a sp scope k s
  | .waitStamp d g v cmp k => Sys2Proof.Machine.execWaitStamp d g v cmp k s
  | .stampMonitorWake crew => Sys2Proof.Machine.execStampMonitorWake crew s
  | .stampPollTimer crew => Sys2Proof.Machine.execStampPollTimer crew s
  | .mma g ta tb ka kb acc oba obb c => Sys2Proof.Machine.execMma g ta tb ka kb acc oba obb c s
  | .accNew g acc => Sys2Proof.Machine.execAccNew g acc s
  | .accZero g acc => Sys2Proof.Machine.execAccZero g acc s
  | .accLd g acc da a => Sys2Proof.Machine.execAccLd g acc da a s
  | .accSt g acc da a rm sat => Sys2Proof.Machine.execAccSt g acc da a rm sat s
  | .accRd g acc p d => Sys2Proof.Machine.execAccRd g acc p d s
  | .tld g ob da a => Sys2Proof.Machine.execTld g ob da a s
  | .matrixOperationExecute core op => Sys2Proof.Machine.execMatrixOperationExecute core op s
  | .accTileDrainFree core tile => Sys2Proof.Machine.execAccTileDrainFree core tile s
  | .shapeMake g da sn e strict => Sys2Proof.Machine.execShapeMake g da sn e strict s
  | .copy g ds dd sn => Sys2Proof.Machine.execCopy g ds dd sn s
  | .copyCond g ds dd sn => Sys2Proof.Machine.execCopyCond g ds dd sn s
  | .copyMc g ds a => Sys2Proof.Machine.execCopyMc g ds a s
  | .copyArm g ds dd sn e slot => Sys2Proof.Machine.execCopyArm g ds dd sn e slot s
  | .copyDisarm g e slot => Sys2Proof.Machine.execCopyDisarm g e slot s
  | .coll g k op t ds dd sn => Sys2Proof.Machine.execColl g k op t ds dd sn s
  | .tokLoad d g f h sel => Sys2Proof.Machine.execTokLoad d g f h sel s
  | .tokHdr o => Sys2Proof.Machine.execTokHdr o s
  | .tokSend o => Sys2Proof.Machine.execTokSend o s
  | .tokRetire o => Sys2Proof.Machine.execTokRetire o s
  | .tokSpawn o => Sys2Proof.Machine.execTokSpawn o s
  | .benchEnter g sn => Sys2Proof.Machine.execBenchEnter g sn s
  | .benchExit o => Sys2Proof.Machine.execBenchExit o s
  | .benchState o => Sys2Proof.Machine.execBenchState o s
  | .steer o => Sys2Proof.Machine.execSteer o s
  | .merge o => Sys2Proof.Machine.execMerge o s
  | .gate o => Sys2Proof.Machine.execGate o s
  | .fwd o => Sys2Proof.Machine.execFwd o s
  | .trap g code => Sys2Proof.Machine.execTrap g code s
  | .tret g => Sys2Proof.Machine.execTret g s
  | .svc g code => Sys2Proof.Machine.execSvc g code s
  | .sysr d g r => Sys2Proof.Machine.execSysr d g r s
  | .sysw g r a => Sys2Proof.Machine.execSysw g r a s
  | .survey o => Sys2Proof.Machine.execSurvey o s
  | .featTest o => Sys2Proof.Machine.execFeatTest o s
  | .featCtx d g => Sys2Proof.Machine.execFeatCtx d g s
  | .halt g => Sys2Proof.Machine.execHalt g s
  | .settStart => Sys2Proof.Machine.execSettStart s
  | .settCommit => Sys2Proof.Machine.execSettCommit s
  | .quarterIssueSwitch crew => Sys2Proof.Machine.execQuarterIssueSwitch crew s
  | .trapEntry => Sys2Proof.Machine.execTrapEntry s
  | .walkComplete k => Sys2Proof.Machine.execWalkComplete k s
  | .faultRecordDeliver die => Sys2Proof.Machine.execFaultRecordDeliver die s
  | .fqResumeReplay die entry => Sys2Proof.Machine.execFqResumeReplay die entry s
  | .fqResumeCancel die entry => Sys2Proof.Machine.execFqResumeCancel die entry s
  | .xlatInvComplete => Sys2Proof.Machine.execXlatInvComplete s
  | .homeAccessPerform sel => Sys2Proof.Machine.execHomeAccessPerform sel s
  | .combiningBufferTimeout core line => Sys2Proof.Machine.execCombiningBufferTimeout core line s
  | .configReloadDone r => Sys2Proof.Machine.execConfigReloadDone r s
  | .yardRegionFill r => Sys2Proof.Machine.execYardRegionFill r s
  | .yardRegionConsume r => Sys2Proof.Machine.execYardRegionConsume r s
  | .engineAccept op => Sys2Proof.Machine.execEngineAccept op s
  | .engineOperationComplete op => Sys2Proof.Machine.execEngineOperationComplete op s
  | .condCopyReserve op => Sys2Proof.Machine.execCondCopyReserve op s
  | .templateFire core slot => Sys2Proof.Machine.execTemplateFire core slot s
  | .multicastTileRead op => Sys2Proof.Machine.execMulticastTileRead op s
  | .multicastTileDeliver op branch => Sys2Proof.Machine.execMulticastTileDeliver op branch s
  | .collectiveInstanceComplete op others => Sys2Proof.Machine.execCollectiveInstanceComplete op others s
  | .tokenAccept die op => Sys2Proof.Machine.execTokenAccept die op s
  | .tokenAcceptReturn slot => Sys2Proof.Machine.execTokenAcceptReturn slot s
  | .dieLinkResend k => Sys2Proof.Machine.execDieLinkResend k s
  | .carderSpillAccept die op => Sys2Proof.Machine.execCarderSpillAccept die op s
  | .battForm die op => Sys2Proof.Machine.execBattForm die op s
  | .carderTimeout die op => Sys2Proof.Machine.execCarderTimeout die op s
  | .battDispatch die op => Sys2Proof.Machine.execBattDispatch die op s
  | .carouselPassBegin die => Sys2Proof.Machine.execCarouselPassBegin die s
  | .carouselTileFill die => Sys2Proof.Machine.execCarouselTileFill die s
  | .configTakeEffect die => Sys2Proof.Machine.execConfigTakeEffect die s
  | .gangPlace die => Sys2Proof.Machine.execGangPlace die s
  | .reserveCrewAttach core => Sys2Proof.Machine.execReserveCrewAttach core s
  | .stealReceive lend => Sys2Proof.Machine.execStealReceive lend s
  | .stealAckDelivered lend => Sys2Proof.Machine.execStealAckDelivered lend s
  | .benchStart b => Sys2Proof.Machine.execBenchStart b s
  | .benchMap b => Sys2Proof.Machine.execBenchMap b s
  | .startTokenTake b elem => Sys2Proof.Machine.execStartTokenTake b elem s
  | .elementRuleFire b elem => Sys2Proof.Machine.execElementRuleFire b elem s
  | .isectStep b elem => Sys2Proof.Machine.execIsectStep b elem s
  | .reordStep b elem => Sys2Proof.Machine.execReordStep b elem s
  | .bufStep b elem => Sys2Proof.Machine.execBufStep b elem s
  | .rtreeStep b elem => Sys2Proof.Machine.execRtreeStep b elem s
  | .memStreamRead b elem => Sys2Proof.Machine.execMemStreamRead b elem s
  | .memRandomAccess b elem => Sys2Proof.Machine.execMemRandomAccess b elem s
  | .memOrderedUpdate b elem => Sys2Proof.Machine.execMemOrderedUpdate b elem s
  | .orderedRetire b => Sys2Proof.Machine.execOrderedRetire b s
  | .spallFaultSend b elem => Sys2Proof.Machine.execSpallFaultSend b elem s
  | .spallDeliver b => Sys2Proof.Machine.execSpallDeliver b s
  | .spallReply b => Sys2Proof.Machine.execSpallReply b s
  | .benchRetire b => Sys2Proof.Machine.execBenchRetire b s
  | .benchAbort b => Sys2Proof.Machine.execBenchAbort b s
  | .benchDrainComplete b => Sys2Proof.Machine.execBenchDrainComplete b s
  | .benchStoppingComplete b => Sys2Proof.Machine.execBenchStoppingComplete b s
  | .benchResume b => Sys2Proof.Machine.execBenchResume b s
  | .intakeSpillMove prod => Sys2Proof.Machine.execIntakeSpillMove prod s
  | .commandTake => Sys2Proof.Machine.execCommandTake s
  | .launch cmd => Sys2Proof.Machine.execLaunch cmd s
  | .delta cmd => Sys2Proof.Machine.execDelta cmd s
  | .stampwait cmd => Sys2Proof.Machine.execStampwait cmd s
  | .stampwaitEnd cmd => Sys2Proof.Machine.execStampwaitEnd cmd s
  | .config cmd => Sys2Proof.Machine.execConfig cmd s
  | .partitionCreate cmd => Sys2Proof.Machine.execPartitionCreate cmd s
  | .partitionSwapout cmd => Sys2Proof.Machine.execPartitionSwapout cmd s
  | .swapoutSaveComplete part => Sys2Proof.Machine.execSwapoutSaveComplete part s
  | .partitionSwapin cmd => Sys2Proof.Machine.execPartitionSwapin cmd s
  | .partitionPreempt cmd => Sys2Proof.Machine.execPartitionPreempt cmd s
  | .crewPreemptSave crew => Sys2Proof.Machine.execCrewPreemptSave crew s
  | .partitionDestroy cmd => Sys2Proof.Machine.execPartitionDestroy cmd s
  | .partitionScrub cmd => Sys2Proof.Machine.execPartitionScrub cmd s
  | .resume cmd => Sys2Proof.Machine.execResume cmd s
  | .producer cmd => Sys2Proof.Machine.execProducer cmd s
  | .commandNop cmd => Sys2Proof.Machine.execCommandNop cmd s
  | .commandComplete cmd => Sys2Proof.Machine.execCommandComplete cmd s
  | .launchComplete launch => Sys2Proof.Machine.execLaunchComplete launch s
  | .doorbell part words => Sys2Proof.Machine.execDoorbell part words s
  | .firmwareRestart => Sys2Proof.Machine.execFirmwareRestart s
  | .firmwareRestartEnd => Sys2Proof.Machine.execFirmwareRestartEnd s
  | .surveyreq a addrs => Sys2Proof.Machine.execSurveyreq a addrs s
  | .attestreq nonce => Sys2Proof.Machine.execAttestreq nonce s
  | .idreq => Sys2Proof.Machine.execIdreq s
  | .key part ciphertext => Sys2Proof.Machine.execKey part ciphertext s
  | .window a n entry => Sys2Proof.Machine.execWindow a n entry s
  | .qpset a localQp remoteQp mac ip ring => Sys2Proof.Machine.execQpset a localQp remoteQp mac ip ring s
  | .group a h devs => Sys2Proof.Machine.execGroup a h devs s
  | .grant a dev first count dest => Sys2Proof.Machine.execGrant a dev first count dest s
  | .domain a dev peers => Sys2Proof.Machine.execDomain a dev peers s
  | .image off bytes => Sys2Proof.Machine.execImage off bytes s
  | .restart a => Sys2Proof.Machine.execRestart a s
  | .rdmaWrite part key va bytes macsec => Sys2Proof.Machine.execRdmaWrite part key va bytes macsec s
  | .rdmaRead part key va n macsec => Sys2Proof.Machine.execRdmaRead part key va n macsec s
  | .roceInvalidRequest part => Sys2Proof.Machine.execRoceInvalidRequest part s
  | .cnpReceive part => Sys2Proof.Machine.execCnpReceive part s
  | .tolsalFrameReceive m => Sys2Proof.Machine.execTolsalFrameReceive m s
  | .tolsalResend seq => Sys2Proof.Machine.execTolsalResend seq s
  | .destinationUnreachable dev => Sys2Proof.Machine.execDestinationUnreachable dev s
  | .portOpen port digest => Sys2Proof.Machine.execPortOpen port digest s
  | .portClose port => Sys2Proof.Machine.execPortClose port s
  | .sakRekey port => Sys2Proof.Machine.execSakRekey port s
  | .powerOnStart => Sys2Proof.Machine.execPowerOnStart s
  | .bootStageComplete ok => Sys2Proof.Machine.execBootStageComplete ok s
  | .bootStageWatchdog => Sys2Proof.Machine.execBootStageWatchdog s
  | .imageFetchTimeout => Sys2Proof.Machine.execImageFetchTimeout s
  | .thermalThrottle die temp level => Sys2Proof.Machine.execThermalThrottle die temp level s
  | .throttleEpisodeEnd die => Sys2Proof.Machine.execThrottleEpisodeEnd die s
  | .thermalCritical => Sys2Proof.Machine.execThermalCritical s
  | .clusterPowerGate die cluster gate => Sys2Proof.Machine.execClusterPowerGate die cluster gate s
  | .powerLoss => Sys2Proof.Machine.execPowerLoss s
  | .dieReset die => Sys2Proof.Machine.execDieReset die s
  | .patrolScrub die => Sys2Proof.Machine.execPatrolScrub die s
  | .uncorrectableError site => Sys2Proof.Machine.execUncorrectableError site s
  | .configFreeze r => Sys2Proof.Machine.execConfigFreeze r s
  | .battStealGrant victim op thiefCore => Sys2Proof.Machine.execBattStealGrant victim op thiefCore s
  | .lendDisturbance lend victimReset => Sys2Proof.Machine.execLendDisturbance lend victimReset s
  | .localWatchdog crew => Sys2Proof.Machine.execLocalWatchdog crew s
  | .benchDrainTimeout b => Sys2Proof.Machine.execBenchDrainTimeout b s
  | .xlatInvPartition crew => Sys2Proof.Machine.execXlatInvPartition crew s
  | .xlatInvPage crew arg => Sys2Proof.Machine.execXlatInvPage crew arg s
  | .xlatInvKv crew handle => Sys2Proof.Machine.execXlatInvKv crew handle s
  | .xlatInvPrivate crew ctx => Sys2Proof.Machine.execXlatInvPrivate crew ctx s
  | .ptRootWrite crew v => Sys2Proof.Machine.execPtRootWrite crew v s
  | .privHwmWrite crew v => Sys2Proof.Machine.execPrivHwmWrite crew v s
  | .memerrWrite crew v => Sys2Proof.Machine.execMemerrWrite crew v s
  | .frReadWrite crew v => Sys2Proof.Machine.execFrReadWrite crew v s
  | .frRingWrite crew v => Sys2Proof.Machine.execFrRingWrite crew v s
  | .frStampWrite crew v => Sys2Proof.Machine.execFrStampWrite crew v s
  | .submitWrite crew v => Sys2Proof.Machine.execSubmitWrite crew v s
  | .systemRegisterWrite crew r v => Sys2Proof.Machine.execSystemRegisterWrite crew r v s

end Sys2Proof.Machine
end

