-- ==== Sys2Proof/Machine/Sched.lean ====
section
/-!
DEFINITION. Sys2Proof/Machine/Sched.lean: which instruction or event a step runs when the agenda names none. The crew in `cur` goes on with its
sett (R200). Between setts, or while that crew waits, the device's own units act; with none of them left a crew goes on, the quarters taking
turns and each quarter choosing by R206. Inputs, timers and errors come by the agenda alone.
-/
namespace Sys2Proof.Machine

/-! ## Poisoned registers (R90, R91) -/

/-- V registers a slot reads as data that its sources do not name: a store's data, an atomic's y (R351, R352). -/
def dataGroup : Instr → List Nat
  | .stl m | .stg m | .sty m => (List.range m.w.group).map (m.r.toNat + ·)
  | .atomGlobal a | .atomLocal a | .atomYard a | .atomGlobalNoret a | .atomLocalNoret a | .atomYardNoret a =>
    if a.op == .cas then (List.range (if a.ty.wide then 2 else 1)).map (a.r.toNat + ·) else []
  | _ => []

/-- The S registers of an instruction's operand block: of SHAPE, of an engine operation, of BENCH.ENTER. -/
def sBlock : Instr → List Nat
  | .shapeMake _ _ n _ _ | .copy _ _ _ n | .copyArm _ _ _ n _ _ => (List.range 4).map (n.toNat + ·)
  | .copyCond _ _ _ n => (List.range 7).map (n.toNat + ·)
  | .coll _ _ _ _ _ _ n => (List.range 3).map (n.toNat + ·)
  | .benchEnter _ n => (List.range 5).map (n.toNat + ·)
  | _ => []

/-- The D registers that an engine operation reads as records. -/
def dBlock : Instr → List Nat
  | .copy _ a b _ | .copyCond _ a b _ | .copyArm _ a b _ _ _ | .coll _ _ _ _ a b _ => [a.toNat, b.toNat]
  | .copyMc _ a _ | .accLd _ _ a _ | .accSt _ _ a _ _ _ | .tld _ _ a _ => [a.toNat]
  | _ => []

/-- The P registers a slot reads whole. -/
def pBlock : Instr → List Nat
  | .pmovPack _ _ => List.range 7
  | _ => []

/-- Does a slot read a poisoned register in a lane whose guard holds (R90, R91)? -/
def Crew.readsPoison (c : Crew) (i : Instr) : Bool :=
  let ls := lanesOf (c.guardMask i.guard)
  if c.poisonV.isEmpty && c.poisonS.isEmpty && c.poisonP.isEmpty && c.poisonD.isEmpty then false
  else
    c.poisonP.contains i.guard.pg.toNat ||
    (!ls.isEmpty &&
    ((i.srcs.any fun p => match p.1 with
      | .v n => ls.any fun l => c.poisonV.contains (n.toNat * 32 + l) || (p.2 && c.poisonV.contains ((n.toNat + 1) * 32 + l))
      | .s n => c.poisonS.contains n.toNat
      | .pred n => c.poisonP.contains n.toNat
      | .dword d w => c.poisonD.contains (4 * d.toNat + w.toNat)
      | _ => false) ||
     ((dataGroup i).any fun r => ls.any fun l => c.poisonV.contains (r * 32 + l)) ||
     (sBlock i).any c.poisonS.contains || (pBlock i).any c.poisonP.contains ||
     (dBlock i).any fun d => (List.range 4).any fun w => c.poisonD.contains (4 * d + w)))

/-! ## The crew in `cur` -/

/-- Does a slot read the transient of an SFU slot whose result has not returned (R338)? -/
def Sett.awaits (t : Sett) (i : Instr) : Bool :=
  i.srcs.any fun p => match p.1 with
    | .trans m => t.sfuPend.contains m.toNat
    | _ => false

/-- The slot that comes up: its instruction, or the exception it raises before it runs. -/
def State.slotNext (s : State) : Option Instr × State :=
  let c := s.me
  match decode (c.sett.words.getD c.sett.slot 0) with
  | .refused _ => (none, s.setMe (raiseExc c cIllegalOp (BitVec.ofNat 64 (slotAddr c.sett c.sett.slot)) 0))
  | .instr i =>
    if c.sett.phase == .exec && c.sett.awaits i then
      (none, s.setMe { c with stall := if c.sett.sfuWait.isEmpty then stOperand else stSfu })
    else if c.sett.phase == .exec && c.readsPoison i then (none, s.setMe (raiseExc c cUncorrectable 0 0))
    else (some i, s)

/-- What the crew in `cur` does next: start, execute, commit, take its trap. -/
def State.crewNext (s : State) : Option Instr × State :=
  let c := s.me
  let t := c.sett
  if t.exc.isSome then (some .trapEntry, s)
  else
    match t.phase with
    | .idle => (some .settStart, s)
    | .control => s.slotNext
    | _ =>
      if t.slot < t.nslots then s.slotNext else (some .settCommit, s)

/-- May a crew be asked: it is resident, no bench holds its quarter (R228), and a pre-emption waits for a commit's end only (R345)? -/
def State.mayIssue (s : State) (k : Nat) : Bool :=
  let c := s.crew k
  c.place == .resident && !s.benchQuarter c.core c.quarter &&
  (!c.preempt || c.sett.phase == .effects || c.sett.phase == .control)

/-- Does an instruction or event change the state? -/
def State.moves (s : State) (i : Instr) : Bool :=
  match exec i s with
  | .next t => t != s
  | .fault _ => true
  | .refused _ => false

/-- Crew k's next step, when it gets it further: its quarter then issues from it. -/
def State.crewTurn (s : State) (k : Nat) : Option (Option Instr × State) :=
  if !s.mayIssue k then none
  else
    let t := if s.cur = k then s else s.issueFrom k
    match (t.updCrew k fun c => { c with stall := stNone }).crewNext with
    | (some i, u) =>
      match exec i u with
      | .next v => if v == t then none else some (some i, u)
      | _ => some (some i, u)
    | (none, u) => if u == t then none else some (none, u)

/-- A crew's place among those of its quarter: PRIO = 1 first, then age (R206). -/
def State.rankIn (s : State) (k : Nat) : List Nat → List Nat
  | [] => [k]
  | j :: r => if s.older k j = k then k :: j :: r else j :: s.rankIn k r

/-- The crews of a quarter in the order in which they are asked: the one it issued from last, unless it has had 1,024 cycles; the others by
rank (R206). -/
def State.quarterOrder (s : State) (core q : Nat) : List Nat :=
  let ks := (s.quarterCrews core q).foldl (fun l k => s.rankIn k l) []
  let now := (s.core core).issue.get q
  let mine := ks.filter fun k => k + 1 == now
  let rest := ks.filter fun k => k + 1 != now
  if (s.core core).streak.get q ≥ 1024 then rest ++ mine else mine ++ rest

/-- Quarters that hold a resident crew, those after the one of `cur` first. -/
def State.quarters (s : State) : List (Nat × Nat) :=
  let here := s.me.core * 4 + s.me.quarter
  let qs := ((s.crews.vals.filter fun c => c.place == .resident).map fun c => c.core * 4 + c.quarter).foldl (fun l n => insertAsc n l) []
  ((qs.filter fun n => decide (n > here)) ++ qs.filter fun n => decide (n ≤ here)).map fun n => (n / 4, n % 4)

/-- The next crew that gets further. -/
def State.crewsNext (s : State) : Option (Option Instr × State) :=
  (s.quarters.flatMap fun q => s.quarterOrder q.1 q.2).findSome? s.crewTurn

/-! ## The device's own units -/

/-- Events of a ring with waiters. The streams of a line buffer come by the agenda alone. -/
def Ring.events (x : Ring) (r : RingSel) : List Instr :=
  (if x.fillers.isEmpty then [] else [.yardRegionFill r]) ++ if x.consumers.isEmpty then [] else [.yardRegionConsume r]

/-- Events of the memory system: invalidations, requests in flight, buffered lines, rings with waiters, frozen regions. -/
def State.memEvents (s : State) : List Instr :=
  (if s.invals.isEmpty then [] else [.xlatInvComplete]) ++
  (List.range s.inflight.length).map (fun i => .homeAccessPerform (.inflight i)) ++
  (List.range s.walks.length).map .walkComplete ++
  s.cores.cells.filterMap (fun e => e.2.cb.head?.map fun l => .combiningBufferTimeout e.1 l.line) ++
  s.yards.cells.flatMap (fun e => (List.range 4).flatMap fun a => (e.2.regions.get a).events (.yard e.1 a)) ++
  s.gangs.cells.flatMap fun e => e.2.obs.cells.flatMap fun o => o.2.events (.localOb e.1 o.1)

/-- Events of the engines of a core or die, and of its SFUs. -/
def State.engineEvents (s : State) : List Instr :=
  s.ops.cells.flatMap (fun e =>
    [.engineAccept e.1, .condCopyReserve e.1, .multicastTileRead e.1] ++
    (List.range e.2.branches.length).map (fun b => .multicastTileDeliver e.1 b) ++ [.engineOperationComplete e.1]) ++
  s.cores.cells.flatMap fun e =>
    (e.2.sfu.cells.map fun q => Instr.sfuResultReturn e.1 q.1) ++
    (e.2.templates.cells.map fun t => Instr.templateFire e.1 t.1) ++
    (e.2.tiles.cells.map fun t => Instr.accTileDrainFree e.1 t.1) ++ [.reserveCrewAttach e.1]

/-- Events of a die. -/
def State.dieEvents (s : State) : List Instr :=
  s.dies.cells.flatMap (fun e =>
    [.configTakeEffect e.1, .gangPlace e.1, .carouselPassBegin e.1, .carouselTileFill e.1, .faultRecordDeliver e.1,
      .configReloadDone (.opTable e.1), .configReloadDone (.carousel e.1)] ++
    e.2.fq.cells.flatMap fun f => [.fqResumeReplay e.1 f.1, .fqResumeCancel e.1 f.1]) ++
  s.carders.cells.flatMap (fun e =>
    [.tokenAccept (e.1 / 64) (e.1 % 64), .carderSpillAccept (e.1 / 64) (e.1 % 64), .battForm (e.1 / 64) (e.1 % 64),
      .battDispatch (e.1 / 64) (e.1 % 64)]) ++
  s.dieFrames.map (fun f => .tokenAcceptReturn f.slot) ++
  (List.range s.dieFrames.length).map .dieLinkResend ++
  s.lends.cells.flatMap fun e => [.stealReceive e.1, .stealAckDelivered e.1]

/-- Events of the benches. -/
def State.benchEvents (s : State) : List Instr :=
  s.benches.cells.flatMap fun e =>
    [.benchStart e.1, .benchMap e.1, .configReloadDone (.bench e.1)] ++
    ((List.range (imgCount e.2.img)).flatMap fun n =>
      [.startTokenTake e.1 n, .isectStep e.1 n, .reordStep e.1 n, .bufStep e.1 n, .rtreeStep e.1 n, .memStreamRead e.1 n,
        .memRandomAccess e.1 n, .memOrderedUpdate e.1 n, .elementRuleFire e.1 n, .spallFaultSend e.1 n]) ++
    [.orderedRetire e.1, .spallDeliver e.1, .spallReply e.1, .benchRetire e.1, .benchAbort e.1, .benchDrainComplete e.1,
      .benchStoppingComplete e.1, .benchResume e.1]

/-- Events of the front end and of pre-emption. -/
def State.frontEvents (s : State) : List Instr :=
  s.cmds.cells.flatMap (fun e =>
    ((kindInstr e.1 e.2).toList) ++ [.stampwaitEnd e.1, .commandComplete e.1]) ++
  (s.launches.cells.map fun e => Instr.launchComplete e.1) ++
  (s.producers.cells.map fun e => Instr.intakeSpillMove e.1) ++ [.commandTake] ++
  ((s.crews.cells.filter fun e => e.2.preempt || e.2.place == .halted).map fun e => Instr.crewPreemptSave e.1) ++
  (s.regs.filter (·.written)).map (fun r => .stampMonitorWake r.crew) ++
  (s.parts.cells.filter fun e => e.2.swapping.isSome).map fun e => Instr.swapoutSaveComplete e.1

/-- The first event of the device's units that changes the state. -/
def State.unitNext (s : State) : Option Instr :=
  (s.memEvents ++ s.engineEvents ++ s.dieEvents ++ s.benchEvents ++ s.frontEvents).find? s.moves

/-- With nothing else to do, a batt forms of the tokens that have waited long enough (R212). -/
def State.timerNext (s : State) : Option Instr :=
  (s.carders.cells.map fun e => Instr.carderTimeout (e.1 / 64) (e.1 % 64)).find? s.moves

/-- What a step does with an empty agenda. -/
def State.upNext (s : State) : Option Instr × State :=
  let c := s.me
  if s.mayIssue s.cur && c.stall == stNone && c.sett.phase != .idle then s.crewNext
  else
    match s.unitNext with
    | some i => (some i, s)
    | none =>
      match s.crewsNext with
      | some x => x
      | none => (s.timerNext, s)

end Sys2Proof.Machine
end

