-- ==== Sys2Proof/Machine/Step.lean ====
section
/-!
DEFINITION. Sys2Proof/Machine/Step.lean: one step of the device. The agenda names, as plain data, which unit or input steps next; with an empty
agenda the crew that executes goes on, or a unit of the device acts.
-/
namespace Sys2Proof.Machine

/-- One step. -/
def step (s : State) : Host.Outcome State Fault Refusal :=
  match s.agenda with
  | i :: rest => exec i { s with agenda := rest }
  | [] =>
    match s.upNext with
    | (some i, t) => exec i t
    | (none, t) => .next t

/-- The machine about to run one slot word: a resident crew of all lanes, in a sett of that one slot (log 8). -/
def State.withFetchWord (s : State) (_nbits w : Nat) : State :=
  let c : Crew := { (default : Crew) with
    place := .resident
    budget := 256
    paths := [⟨0, 0xFFFFFFFF, none, 0⟩]
    sett := { (default : Sett) with phase := .exec, nslots := 1, words := [BitVec.ofNat 64 w] } }
  { s with agenda := [], crews := s.crews.put s.cur c }

end Sys2Proof.Machine
end

