-- ==== Sys2Proof/Safety.lean ====
section
/-!
DEFINITION. Sys2Proof/Safety.lean: what a safe run is, and the words that statements about the machine are written in: what a slot of a sett does
to its crew, and what it leaves.
-/
namespace Sys2Proof.Machine

/-! ## Safe runs -/

/-- A step is safe when it gives a next state. -/
def StepSafe (s : State) : Prop := ∃ t, step s = .next t

/-- The invariant of the device's memory: strictly rising addresses, no listed byte equal to what an unlisted one reads as. -/
def MemOk (s : State) : Prop := s.mem.wf = true

/-- A run of n steps from s ends in t. -/
inductive Runs : Nat → State → State → Prop where
  | zero (s : State) : Runs 0 s s
  | step {n : Nat} {s t u : State} : Sys2Proof.Machine.step s = .next t → Runs n t u → Runs (n + 1) s u

/-! ## Slots of a sett (R200, R272) -/

/-- The lanes in which a slot of the executing crew acts: those of the running path whose guard holds, in increasing order (R272). -/
def State.on (s : State) (g : Guard) : List Nat := lanesOf (s.me.guardMask g)

/-- Source `pos` of the slot that executes, as lane l reads it at 32 bits or at 64 (R269). -/
def State.src (s : State) (pos : Nat) (a : Src) (wide : Bool) (l : Nat) : DWord := srcW s s.me pos a wide l

/-- The executing crew as it stands if the sett commits with the register writes it has staged so far (R200). -/
def State.landed (s : State) : Crew := s.me.applyWrs

/-- A slot has ended: the next slot of its phase comes up, and nothing of the device but the running sett's staged writes, transients, flags and
generators has changed. -/
structure SlotEnds (s t : State) : Prop where
  device : t = s.setMe { s.me with sett := t.me.sett }
  sett : t.me.sett = { s.me.sett with
    wr := t.me.sett.wr, trans := t.me.sett.trans, flags := t.me.sett.flags, flagSlot := t.me.sett.flagSlot, gens := t.me.sett.gens
    slot := s.me.sett.seek s.me.sett.phase (s.me.sett.slot + 1) }

/-- Word l of Vm after a slot whose lanes `ls` got the values v for destination d; `old` is what stood there (R269, R271). -/
def landV (d : Dst) (wide : Bool) (ls : List Nat) (v : Nat → DWord) (m l : Nat) (old : Word) : Word :=
  match d with
  | .v n =>
    if l ∈ ls ∧ wide = true ∧ m = n.toNat + 1 then (v l).extractLsb' 32 32
    else if l ∈ ls ∧ m = n.toNat then (v l).setWidth 32
    else old
  | _ => old

/-- Sm after it: an S destination takes the lowest lane's value (R271). -/
def landS (d : Dst) (wide sx : Bool) (ls : List Nat) (v : Nat → DWord) (m : Nat) (old : DWord) : DWord :=
  match d, ls with
  | .s n, l :: _ => if m = n.toNat then sForm wide sx (v l) else old
  | _, _ => old

/-- Bit l of Pm after it: bit 0 of the lane's value; P7 takes nothing (R271). -/
def landP (d : Dst) (ls : List Nat) (v : Nat → DWord) (m l : Nat) (old : Bool) : Bool :=
  match d with
  | .p n => if l ∈ ls ∧ n ≠ 7 ∧ m = n.toNat then (v l).getLsbD 0 else old
  | _ => old

/-- The transient of lane l where the slot acts: its result as the destination takes it, for S the lowest lane's, for P bit 0; elsewhere the
destination's value at sett start (R200, R272, R305). -/
def yieldOf (s : State) (d : Dst) (wide sx : Bool) (ls : List Nat) (v : Nat → DWord) (l : Nat) : DWord :=
  if l ∈ ls then
    match d with
    | .s _ => sForm wide sx (v (ls.headD l))
    | .p _ => if (v l).getLsbD 0 then 1 else 0
    | _ => sForm wide sx (v l)
  else dstStart s.me d wide l

/-- What a slot with destination d has written when its guarded lanes got the values v: the destination alone, in the lanes that act (R272). -/
structure Lands (s t : State) (g : Guard) (d : Dst) (wide sx : Bool) (v : Nat → DWord) : Prop where
  vector : ∀ m l, l < 32 → t.landed.vreg m l = landV d wide (s.on g) v m l (s.landed.vreg m l)
  uniform : ∀ m, t.landed.sreg m = landS d wide sx (s.on g) v m (s.landed.sreg m)
  predicate : ∀ m l, l < 32 → (t.landed.p.get m).getLsbD l = landP d (s.on g) v m l ((s.landed.p.get m).getLsbD l)
  record : ∀ k, t.landed.dword k = s.landed.dword k
  seed : t.landed.seed = s.landed.seed

/-- The transient a slot yields; other slots' transients stand. -/
structure Yields (s t : State) (g : Guard) (d : Dst) (wide sx : Bool) (v : Nat → DWord) : Prop where
  own : ∀ l, l < 32 → t.me.sett.trans.get (s.me.sett.slot * 32 + l) = yieldOf s d wide sx (s.on g) v l
  others : ∀ n, n / 32 ≠ s.me.sett.slot → t.me.sett.trans.get n = s.me.sett.trans.get n

/-- An instruction computes in its guarded lanes and touches nothing but its destination: lane l gets a value v with `P s l v`, no flag is
raised and no generator steps. -/
def Computes (i : Instr) (g : Guard) (d : Dst) (wide sx : Bool) (P : State → Nat → DWord → Prop) : Prop :=
  ∀ s, s.me.popTrap = false → ∃ t v, exec i s = .next t ∧ SlotEnds s t ∧ Lands s t g d wide sx v ∧ Yields s t g d wide sx v ∧
    t.me.sett.flags = s.me.sett.flags ∧ t.me.sett.gens = s.me.sett.gens ∧ ∀ l ∈ s.on g, P s l (v l)

/-- An instruction computes in its guarded lanes with flags and the lanes' generators: lane l, whose generator holds x, gets `F s l x`; the sett's
flags take every lane's (R108, R112). -/
def FloatComputes (i : Instr) (g : Guard) (d : Dst) (wide : Bool) (F : State → Nat → Word → LaneOut) : Prop :=
  ∀ s, s.me.popTrap = false → ∃ t, exec i s = .next t ∧ SlotEnds s t ∧
    Lands s t g d wide false (fun l => (F s l (s.me.sett.gens.get l)).val) ∧
    Yields s t g d wide false (fun l => (F s l (s.me.sett.gens.get l)).val) ∧
    (∀ b, t.me.sett.flags.getLsbD b = (s.me.sett.flags.getLsbD b || (s.on g).any fun l => (F s l (s.me.sett.gens.get l)).fl.getLsbD b)) ∧
    ∀ l, t.me.sett.gens.get l = if l ∈ s.on g then (F s l (s.me.sett.gens.get l)).gen else s.me.sett.gens.get l

/-- A slot raises an exception: the running sett's exception bit is set with a cause and a fault address, and nothing else changes (R200, R348). -/
def Raises (i : Instr) (s : State) (cause : BitVec 8) (addr : DWord) (lane : Nat) : Prop :=
  exec i s = .next (s.setMe { s.me with sett := { s.me.sett with exc := some ⟨cause, addr, s.me.sett.slot, lane, 0⟩ } })

/-- Only these tables and lists of the device may have changed; everything else stands. -/
def OnlyCrew (s t : State) (k : Nat) : Prop := t = { s with crews := s.crews.put k (t.crew k) }

end Sys2Proof.Machine
end

