-- ==== Sys2Proof/Certificates/Slice0/Obligations.lean ====
section
/-!
DEFINITION. Sys2Proof/Certificates/Slice0/Obligations.lean: the statements about the machine that are to be proved, by family, each with the rules of
the spec it formalises. The vocabulary of the first part is that of Sys2Proof/Safety.lean. A claim under `Claims` is part of the obligation that names it
at the end of the file.
-/

open Sys2Proof Sys2Proof.Machine

/-! ## Integer arithmetic, moves, bit fields (R304–R313) -/

namespace Sys2Proof.Machine

/-- Least value of an element of an integer type (R99, R304). -/
def typeMin (t : IntTy) : Int := if t.signed then -(2 ^ (intW t - 1) : Int) else 0
/-- Greatest value of an element (R99, R304). -/
def typeMax (t : IntTy) : Int := if t.signed then (2 ^ (intW t - 1) : Int) - 1 else (2 ^ intW t : Int) - 1

/-- R305 for a result v whose exact element results are x: without SAT each element is x(e) modulo 2^w read as the type; with SAT it is the
nearest value in the type's range. Nothing stands above the operand width. -/
def ElementsGet (t : IntTy) (sat : Bool) (v : DWord) (x : Nat → Int) : Prop :=
  v.toNat < 2 ^ (intW t * intN t) ∧ ∀ e, e < intN t →
    if sat then elemI t v e = max (typeMin t) (min (typeMax t) (x e))
    else typeMin t ≤ elemI t v e ∧ elemI t v e ≤ typeMax t ∧ ∃ k : Int, elemI t v e = x e + k * 2 ^ intW t

/-- Element e of source `pos` at the operand width of a type. -/
def State.el (s : State) (t : IntTy) (pos : Nat) (a : Src) (l e : Nat) : Int := elemI t (s.src pos a t.wide l) e

/-- An immediate as an element of a type (R262, R313). -/
def immEl (t : IntTy) (imm : BitVec 20) : Int := if t.signed then imm.toInt else imm.toInt % 2 ^ intW t

end Sys2Proof.Machine

/-- R306 with R304 and R305: IADD, IADD3, ISUB, IMUL, IMULH, IMAD, IMIN, IMAX and IABS give every element of their destination the exact result,
wrapped or saturated, in the lanes whose guard holds; nothing else changes, and no flag is raised. -/
def Claims.IntegerArithmetic : Prop :=
  ∀ (o1 : Ops1) (o2 : Ops2) (o3 : Ops3) (t : IntTy) (sat : Bool),
    Computes (.iadd o2 t sat) o2.g o2.d t.wide (intSx t) (fun s l v => ElementsGet t sat v fun e => s.el t 0 o2.a l e + s.el t 1 o2.b l e) ∧
    Computes (.iadd3 o3 t sat) o3.g o3.d t.wide (intSx t)
      (fun s l v => ElementsGet t sat v fun e => s.el t 0 o3.a l e + s.el t 1 o3.b l e + s.el t 2 o3.c l e) ∧
    Computes (.isub o2 t sat) o2.g o2.d t.wide (intSx t) (fun s l v => ElementsGet t sat v fun e => s.el t 0 o2.a l e - s.el t 1 o2.b l e) ∧
    Computes (.imul o2 t sat) o2.g o2.d t.wide (intSx t) (fun s l v => ElementsGet t sat v fun e => s.el t 0 o2.a l e * s.el t 1 o2.b l e) ∧
    Computes (.imulh o2 t) o2.g o2.d t.wide (intSx t)
      (fun s l v => ElementsGet t false v fun e => Int.fdiv (s.el t 0 o2.a l e * s.el t 1 o2.b l e) (2 ^ intW t)) ∧
    Computes (.imad o3 t sat) o3.g o3.d t.wide (intSx t)
      (fun s l v => ElementsGet t sat v fun e => s.el t 0 o3.a l e * s.el t 1 o3.b l e + s.el t 2 o3.c l e) ∧
    Computes (.imin o2 t) o2.g o2.d t.wide (intSx t) (fun s l v => ElementsGet t false v fun e => min (s.el t 0 o2.a l e) (s.el t 1 o2.b l e)) ∧
    Computes (.imax o2 t) o2.g o2.d t.wide (intSx t) (fun s l v => ElementsGet t false v fun e => max (s.el t 0 o2.a l e) (s.el t 1 o2.b l e)) ∧
    Computes (.iabs o1 t sat) o1.g o1.d t.wide (intSx t) (fun s l v => ElementsGet t sat v fun e => ((s.el t 0 o1.a l e).natAbs : Int))

/-- R307: IMAD.WIDE multiplies 32-bit a and b and adds a 64-bit c into a 64-bit result; LEA reads b plainly, or its low 32 bits zero- or
sign-extended, and wraps. R313: IADD, IMUL, IMIN and IMAX with an immediate do what their base forms do with the immediate for b. -/
def Claims.WideAndImmediate : Prop :=
  ∀ (o1 : Ops1) (o2 : Ops2) (o3 : Ops3) (t : IntTy) (sat isMax : Bool) (imm : BitVec 20) (sh : BitVec 3) (m : LeaMode),
    (t.is32 = true → Computes (.imadWide o3 t sat) o3.g o3.d true false (fun s l v => ElementsGet (widen t) sat v fun _ =>
      elemI t (s.src 0 o3.a false l) 0 * elemI t (s.src 1 o3.b false l) 0 + elemI (widen t) (s.src 2 o3.c true l) 0)) ∧
    (t.unsignedScalar = true → (t.wide = false → m = .plain) →
      Computes (.lea o2 t sh m) o2.g o2.d t.wide (intSx t) (fun s l v => ElementsGet t false v fun _ =>
        ((s.src 0 o2.a t.wide l).toNat : Int) + (2 : Int) ^ sh.toNat *
          (match m with
           | .plain => ((s.src 1 o2.b t.wide l).toNat : Int)
           | .zx => (((s.src 1 o2.b false l).setWidth 32).toNat : Int)
           | .sx => ((s.src 1 o2.b false l).setWidth 32).toInt))) ∧
    (t.scalar = true →
      Computes (.iaddImm o1 t sat imm) o1.g o1.d t.wide (intSx t) (fun s l v => ElementsGet t sat v fun e => s.el t 0 o1.a l e + immEl t imm) ∧
      Computes (.imulImm o1 t sat imm) o1.g o1.d t.wide (intSx t) (fun s l v => ElementsGet t sat v fun e => s.el t 0 o1.a l e * immEl t imm) ∧
      Computes (.iminmaxImm o1 t isMax imm) o1.g o1.d t.wide (intSx t) (fun s l v => ElementsGet t false v fun e =>
        if isMax then max (s.el t 0 o1.a l e) (immEl t imm) else min (s.el t 0 o1.a l e) (immEl t imm)))

/-- R308: MOV takes bits 31:0 of its source, MOV.N64 all 64; MOVI the immediate sign-extended to the operand width; SEL chooses by bit 0 of c. -/
def Claims.Moves : Prop :=
  ∀ (o1 : Ops1) (o3 : Ops3) (d : Dst) (g : Guard) (t : IntTy) (imm : BitVec 20),
    Computes (.mov o1) o1.g o1.d false false (fun s l v => v = s.src 0 o1.a false l) ∧
    Computes (.movN64 o1) o1.g o1.d true false (fun s l v => v = s.src 0 o1.a true l) ∧
    Computes (.movi d g t imm) g d t.wide (intSx t) (fun _ _ v => v = if t.wide then imm.signExtend 64 else (imm.signExtend 32).setWidth 64) ∧
    Computes (.sel o3 t) o3.g o3.d t.wide (intSx t) (fun s l v =>
      v = if (s.src 2 o3.c false l).getLsbD 0 then s.src 0 o3.a t.wide l else s.src 1 o3.b t.wide l)

/-- R278: the MOV forms that write $seed, $fpsr and D words. The value of the lowest guarded lane lands at commit; with no guarded lane nothing is
written. A write of $seed restarts every lane's generator (R107); the reserved bits of $fpsr read zero (R10, R111). No other register changes. -/
def Claims.SpecialMoves : Prop :=
  ∀ (g : Guard) (a : Src) (w : BitVec 6) (s : State), s.me.popTrap = false →
    (∃ t, exec (.movSpecial g a true) s = .next t ∧ SlotEnds s t ∧
      t.landed = { s.landed with fpsr := if s.on g = [] then s.landed.fpsr else s.src 0 a true ((s.on g).headD 0) &&& 0x1F1F, sett := t.me.sett }) ∧
    (∃ t, exec (.movSpecial g a false) s = .next t ∧ SlotEnds s t ∧
      t.landed = { s.landed with
        seed := if s.on g = [] then s.landed.seed else s.src 0 a true ((s.on g).headD 0)
        gens := t.landed.gens
        sett := t.me.sett } ∧
      (∀ l, l < 32 → t.landed.gens.get l = if s.on g = [] then s.landed.gens.get l else genInit (s.src 0 a true ((s.on g).headD 0)) l)) ∧
    (∃ t, exec (.movDWord g a w) s = .next t ∧ SlotEnds s t ∧
      t.landed = { s.landed with d := t.landed.d, sett := t.me.sett } ∧
      ∀ k, t.landed.dword k = if s.on g ≠ [] ∧ k = w.toNat then s.src 0 a true ((s.on g).headD 0) else s.landed.dword k)

namespace Sys2Proof.Machine

/-- Bit j of element e. -/
def elBit (t : IntTy) (x : DWord) (e j : Nat) : Bool := x.toNat.testBit (intW t * e + j)

/-- R309 on one element: a shifted or rotated by k. -/
def ShiftRule (t : IntTy) (op : ShiftOp) (v a : DWord) (k : Nat) (e : Nat) : Prop :=
  match op with
  | .shl => elemN t v e = if k ≥ intW t then 0 else elemN t a e * 2 ^ k % 2 ^ intW t
  | .shr => elemN t v e = if k ≥ intW t then 0 else elemN t a e / 2 ^ k
  | .sar => readInt (intW t) true (elemN t v e) = Int.fdiv (readInt (intW t) true (elemN t a e)) (2 ^ k)
  | .rol => ∀ j, j < intW t → elBit t v e ((j + k) % intW t) = elBit t a e j
  | .ror => ∀ j, j < intW t → elBit t v e j = elBit t a e ((j + k) % intW t)

end Sys2Proof.Machine

/-- R309 and R313: shifts and rotates by a count of each element (32 bits for a 64-bit type), or by an immediate within the width. -/
def Claims.Shifts : Prop :=
  ∀ (o1 : Ops1) (o2 : Ops2) (t : IntTy) (op : ShiftOp) (imm : BitVec 20), t.unsigned = true →
    (let P := fun (op : ShiftOp) (s : State) (l : Nat) (v : DWord) => v.toNat < 2 ^ (intW t * intN t) ∧ ∀ e, e < intN t →
      ShiftRule t op v (s.src 0 o2.a t.wide l) (if t.wide then (s.src 1 o2.b false l).toNat else elemN t (s.src 1 o2.b false l) e) e
    Computes (.shl o2 t) o2.g o2.d t.wide (intSx t) (P .shl) ∧ Computes (.shr o2 t) o2.g o2.d t.wide (intSx t) (P .shr) ∧
    Computes (.sar o2 t) o2.g o2.d t.wide (intSx t) (P .sar) ∧ Computes (.rol o2 t) o2.g o2.d t.wide (intSx t) (P .rol) ∧
    Computes (.ror o2 t) o2.g o2.d t.wide (intSx t) (P .ror)) ∧
    (t.scalar = true → imm.toNat < intW t → Computes (.shiftImm o1 t op imm) o1.g o1.d t.wide (intSx t) fun s l v =>
      v.toNat < 2 ^ intW t ∧ ShiftRule t op v (s.src 0 o1.a t.wide l) imm.toNat 0)

/-- R310 and R311, bit by bit: BFX, BFI, POPC, CLZ, CTZ, BREV, and LOP with a register or an immediate. -/
def Claims.BitFields : Prop :=
  ∀ (o1 : Ops1) (o2 : Ops2) (o3 : Ops3) (t : IntTy) (op : LopOp) (imm : BitVec 20), t.scalar = true →
    (let w := intW t
    let bit := fun (x : DWord) (j : Nat) => decide (j < w) && x.toNat.testBit j
    let logic := fun (a b : Bool) => match op with
      | .and => a && b
      | .or => a || b
      | .xor => a ^^ b
      | .andn => a && !b
      | .orn => a || !b
      | .xnor => !(a ^^ b)
      | .not => !a
    Computes (.bfx o2 t) o2.g o2.d t.wide (intSx t) (fun s l v =>
      let a := s.src 0 o2.a t.wide l
      let pos := (s.src 1 o2.b false l).toNat % 256
      let len := min ((s.src 1 o2.b false l).toNat / 256 % 256) w
      v.toNat < 2 ^ w ∧ ∀ j, j < w → v.toNat.testBit j =
        (decide (len ≠ 0) && if j < len then bit a (pos + j) else t.signed && bit a (pos + len - 1))) ∧
    Computes (.bfi o3 t) o3.g o3.d t.wide (intSx t) (fun s l v =>
      let pos := (s.src 1 o3.b false l).toNat % 256
      let len := min ((s.src 1 o3.b false l).toNat / 256 % 256) w
      v.toNat < 2 ^ w ∧ ∀ j, j < w → v.toNat.testBit j =
        if pos ≤ j ∧ j < pos + len then bit (s.src 0 o3.a t.wide l) (j - pos) else bit (s.src 2 o3.c t.wide l) j) ∧
    Computes (.popc o1 t) o1.g o1.d false false (fun s l v => v.toNat = ((List.range w).filter fun j => bit (s.src 0 o1.a t.wide l) j).length) ∧
    Computes (.clz o1 t) o1.g o1.d false false (fun s l v => v.toNat ≤ w ∧
      (∀ j, w - v.toNat ≤ j → bit (s.src 0 o1.a t.wide l) j = false) ∧
      (v.toNat < w → bit (s.src 0 o1.a t.wide l) (w - 1 - v.toNat) = true)) ∧
    Computes (.ctz o1 t) o1.g o1.d false false (fun s l v => v.toNat ≤ w ∧
      (∀ j, j < v.toNat → bit (s.src 0 o1.a t.wide l) j = false) ∧ (v.toNat < w → bit (s.src 0 o1.a t.wide l) v.toNat = true)) ∧
    Computes (.brev o1 t) o1.g o1.d t.wide (intSx t) (fun s l v =>
      v.toNat < 2 ^ w ∧ ∀ j, j < w → v.toNat.testBit (w - 1 - j) = bit (s.src 0 o1.a t.wide l) j) ∧
    Computes (.lop o2 t op) o2.g o2.d t.wide (intSx t) (fun s l v => v.toNat < 2 ^ w ∧ ∀ j, j < w →
      v.toNat.testBit j = logic (bit (s.src 0 o2.a t.wide l) j) (bit (s.src 1 o2.b t.wide l) j)) ∧
    Computes (.lopImm o1 t op imm) o1.g o1.d t.wide (intSx t) (fun s l v => v.toNat < 2 ^ w ∧ ∀ j, j < w →
      v.toNat.testBit j = logic (bit (s.src 0 o1.a t.wide l) j) ((imm.signExtend 64).toNat.testBit j)))

/-- R312 and R313: ICMP compares as the type, signed or unsigned, combines with bit 0 of c and gives 1 or 0. -/
def Claims.Comparison : Prop :=
  ∀ (o1 : Ops1) (o3 : Ops3) (t : IntTy) (c : Cond) (k : Comb) (imm : BitVec 20), t.scalar = true →
    (let holds := fun (a b : Int) => match c with
      | .eq => decide (a = b)
      | .ne => decide (a ≠ b)
      | .lt => decide (a < b)
      | .le => decide (a ≤ b)
      | .gt => decide (b < a)
      | .ge => decide (b ≤ a)
    Computes (.icmp o3 t c k) o3.g o3.d false false (fun s l v =>
      let r := holds (s.el t 0 o3.a l 0) (s.el t 1 o3.b l 0)
      let x := (s.src 2 o3.c false l).getLsbD 0
      v = if (match k with
        | .none => r
        | .and => r && x
        | .or => r || x
        | .xor => r ^^ x) then 1 else 0) ∧
    Computes (.icmpImm o1 t c imm) o1.g o1.d false false (fun s l v => v = if holds (s.el t 0 o1.a l 0) (immEl t imm) then 1 else 0))

/-! ## Predicates, votes, permutes (R314–R321) -/

/-- R314 and R315: PLOP looks three bits up in its table; PMOV.PACK gathers the lane's predicates, P7 as 1. -/
def Claims.PredicateValues : Prop :=
  ∀ (o3 : Ops3) (lut : BitVec 8) (d : Dst) (g : Guard),
    Computes (.plop o3 lut) o3.g o3.d false false (fun s l v =>
      let bit := fun (pos : Nat) (a : Src) => if (s.src pos a false l).getLsbD 0 then 1 else 0
      v.toNat = lut.toNat / 2 ^ (4 * bit 0 o3.a + 2 * bit 1 o3.b + bit 2 o3.c) % 2) ∧
    Computes (.pmovPack d g) g d false false (fun s l v => v.toNat < 256 ∧ ∀ i, i < 8 →
      v.getLsbD i = (decide (i = 7) || (s.me.p.get i).getLsbD l))

/-- R315: PMOV.SET writes bit i of a to Pi, for i below 7 with bit i of m set, in each guarded lane; no other predicate or register changes. -/
def Claims.PredicateSet : Prop :=
  ∀ (a m : Src) (g : Guard) (s : State), s.me.popTrap = false →
    ∃ t, exec (.pmovSet a m g) s = .next t ∧ SlotEnds s t ∧ t.landed = { s.landed with p := t.landed.p, sett := t.me.sett } ∧
      ∀ i l, l < 32 → (t.landed.p.get i).getLsbD l =
        if l ∈ s.on g ∧ i < 7 ∧ (s.src 1 m false l).getLsbD i then (s.src 0 a false l).getLsbD i else (s.landed.p.get i).getLsbD l

/-- R316: a vote gives every guarded lane one value, taken over the guarded lanes of the running path alone. -/
def Claims.Votes : Prop :=
  ∀ (o : Ops1),
    (let x := fun (s : State) (l : Nat) => (s.src 0 o.a false l).getLsbD 0
    Computes (.voteAll o) o.g o.d false false (fun s _ v => v = if ∀ l ∈ s.on o.g, x s l = true then 1 else 0) ∧
    Computes (.voteAny o) o.g o.d false false (fun s _ v => v = if ∃ l ∈ s.on o.g, x s l = true then 1 else 0) ∧
    Computes (.voteEq o) o.g o.d false false (fun s _ v =>
      v = if ∀ l ∈ s.on o.g, ∀ k ∈ s.on o.g, s.src 0 o.a false l = s.src 0 o.a false k then 1 else 0) ∧
    Computes (.voteBallot o) o.g o.d false false (fun s _ v =>
      v.toNat < 2 ^ 32 ∧ ∀ k, k < 32 → v.getLsbD k = (decide (k ∈ s.on o.g) && x s k)) ∧
    Computes (.voteCount o) o.g o.d false false (fun s _ v => v.toNat = ((s.on o.g).filter fun l => x s l).length))

/-- R317: OP 0x33, FN 0x00, MOD 0; byte j of PERM's result is the byte of a (0–3) and b (4–7) that nibble j of c selects, or its sign spread when bit 3 of the nibble is set. -/
def Claims.BytePermute : Prop :=
  ∀ (o : Ops3),
    bitsOf (encode (.perm o)) 56 8 = 0x33 ∧ bitsOf (encode (.perm o)) 50 6 = 0 ∧ bitsOf (encode (.perm o)) 0 6 = 0 ∧
    Computes (.perm o) o.g o.d false false fun s l v =>
      v.toNat < 2 ^ 32 ∧ ∀ j, j < 4 →
        let nib := (s.src 2 o.c false l).toNat / 2 ^ (4 * j) % 16
        let b := ((if nib % 8 < 4 then s.src 0 o.a false l else s.src 1 o.b false l).toNat / 2 ^ (8 * (nib % 4))) % 256
        v.toNat / 2 ^ (8 * j) % 256 = if nib < 8 then b else if b < 128 then 0 else 255

/-- R318–R321: SHFL, BCAST and CMPCT read another lane's source as it stood at sett start, whatever that lane's guard. -/
def Claims.Permutes : Prop :=
  ∀ (o1 : Ops1) (o2 : Ops2) (o3 : Ops3) (t : IntTy) (m : ShflMode) (seg : BitVec 3), seg.toNat ≤ 5 →
    Computes (.shfl o2 t m seg) o2.g o2.d t.wide false (fun s l v =>
      let w := 32 / 2 ^ seg.toNat
      let first := l - l % w
      let k := (s.src 1 o2.b false l).toNat % 32
      v = s.src 0 o2.a t.wide (match m with
        | .idx => first + k % w
        | .up => if first + k ≤ l then l - k else l
        | .down => if l + k < first + w then l + k else l
        | .xor => first + (l ^^^ k) % w)) ∧
    Computes (.bcastIdx o2 t) o2.g o2.d t.wide false (fun s _ v =>
      v = s.src 0 o2.a t.wide ((s.src 1 o2.b false ((s.on o2.g).headD 0)).toNat % 32)) ∧
    Computes (.bcastFirst o1 t) o1.g o1.d t.wide false (fun s _ v => v = s.src 0 o1.a t.wide ((s.on o1.g).headD 0)) ∧
    Computes (.cmpct o3 t) o3.g o3.d t.wide false (fun s l v =>
      let kept := (s.on o3.g).filter fun k => (s.src 1 o3.b false k).getLsbD 0
      let i := (s.on o3.g).idxOf l
      v = if h : i < kept.length then s.src 0 o3.a t.wide kept[i] else s.src 2 o3.c t.wide l)

/-! ## Floating point (R322–R341) -/

/-- R322–R328, R336: the FP32 instructions and DOT4, lane by lane: result, flags and generator come from the exact value rounded once. Sources are
read at 32 bits. -/
def Claims.FloatArithmetic : Prop :=
  ∀ (o1 : Ops1) (o2 : Ops2) (o3 : Ops3) (rm : Rnd) (sat n1 n2 nan : Bool) (c : FCond) (k : Comb) (dt : DotTy),
    (let x := fun (s : State) (pos : Nat) (a : Src) (l : Nat) => (s.src pos a false l).setWidth 32
    FloatComputes (.fadd o2 rm sat n1 n2) o2.g o2.d false (fun s l g => faddVal rm sat n1 n2 (x s 0 o2.a l) (x s 1 o2.b l) g) ∧
    FloatComputes (.fmul o2 rm sat n1) o2.g o2.d false (fun s l g => fmulVal rm sat n1 (x s 0 o2.a l) (x s 1 o2.b l) g) ∧
    FloatComputes (.ffma o3 rm sat n1 n2) o3.g o3.d false
      (fun s l g => ffmaVal rm sat n1 n2 (x s 0 o3.a l) (x s 1 o3.b l) (x s 2 o3.c l) g) ∧
    FloatComputes (.fmin o2 nan) o2.g o2.d false (fun s l g => fminmaxVal false nan (x s 0 o2.a l) (x s 1 o2.b l) g) ∧
    FloatComputes (.fmax o2 nan) o2.g o2.d false (fun s l g => fminmaxVal true nan (x s 0 o2.a l) (x s 1 o2.b l) g) ∧
    FloatComputes (.fcmp o3 c k) o3.g o3.d false (fun s l g => fcmpVal c k (x s 0 o3.a l) (x s 1 o3.b l) (x s 2 o3.c l) g) ∧
    FloatComputes (.fclass o1) o1.g o1.d false (fun s l g => fclassVal (x s 0 o1.a l) g) ∧
    FloatComputes (.fclassTest o2) o2.g o2.d false (fun s l g => fclassTestVal (x s 0 o2.a l) (x s 1 o2.b l) g) ∧
    FloatComputes (.frnd o1 rm) o1.g o1.d false (fun s l g => frndVal rm (x s 0 o1.a l) g) ∧
    FloatComputes (.dot4 o3 dt rm sat) o3.g o3.d false (fun s l g => dot4Val dt rm sat (x s 0 o3.a l) (x s 1 o3.b l) (x s 2 o3.c l) g))

/-- R329–R332: packed arithmetic, CVT and packed CVT, lane by lane. A packed instruction's inline constant fills both halves (R270). -/
def Claims.PackedAndConvert : Prop :=
  ∀ (o1 : Ops1) (o2 : Ops2) (o3 : Ops3) (t : PackTy) (rm : Rnd) (sat n1 n2 nan : Bool) (c : FCond) (dt st : ElemTy) (f : CvtP),
    (let x := fun (s : State) (pos : Nat) (a : Src) (l : Nat) => srcPacked s s.me t pos a l
    let y := fun (s : State) (pos : Nat) (a : Src) (l : Nat) => (s.src pos a false l).setWidth 32
    FloatComputes (.faddPacked o2 t rm sat n1 n2) o2.g o2.d false (fun s l g => faddPackedVal t rm sat n1 n2 (x s 0 o2.a l) (x s 1 o2.b l) g) ∧
    FloatComputes (.fmulPacked o2 t rm sat n1) o2.g o2.d false (fun s l g => fmulPackedVal t rm sat n1 (x s 0 o2.a l) (x s 1 o2.b l) g) ∧
    FloatComputes (.ffmaPacked o3 t rm sat n1 n2) o3.g o3.d false
      (fun s l g => ffmaPackedVal t rm sat n1 n2 (x s 0 o3.a l) (x s 1 o3.b l) (x s 2 o3.c l) g) ∧
    FloatComputes (.fminPacked o2 t nan) o2.g o2.d false (fun s l g => fminmaxPackedVal t false nan (x s 0 o2.a l) (x s 1 o2.b l) g) ∧
    FloatComputes (.fmaxPacked o2 t nan) o2.g o2.d false (fun s l g => fminmaxPackedVal t true nan (x s 0 o2.a l) (x s 1 o2.b l) g) ∧
    FloatComputes (.fcmpPacked o2 t c) o2.g o2.d false (fun s l g => fcmpPackedVal t c (x s 0 o2.a l) (x s 1 o2.b l) g) ∧
    FloatComputes (.cvt o1 dt st rm sat) o1.g o1.d dt.wide (fun s l g => cvtVal dt st rm sat (s.src 0 o1.a st.wide l) g) ∧
    FloatComputes (.cvtPacked o3 f rm sat) o3.g o3.d (!f.isPack)
      (fun s l g => cvtPackedVal f rm sat (y s 0 o3.a l) (y s 1 o3.b l) (y s 2 o3.c l) g))

/-- R329–R332 on values. A packed half with a NaN operand gives its format's canonical NaN, whatever the mode and the other half (FMIN and FMAX without .NAN
take the other operand), and compares as unordered. A conversion between integers is exact modulo 2^w, or the nearest value with SAT, and raises nothing. A
NaN converts to the canonical NaN of a float type, with NV for a signalling one, and to integer 0 with NV. The LO and HI packs leave the other half of c. -/
def Claims.PackedAndConvertValues : Prop :=
  ∀ (t : PackTy) (rm : Rnd) (sat n1 n2 isMax : Bool) (cd : FCond) (a b c g : Word) (e : Nat) (dt st : ElemTy) (x : DWord), e < 2 →
    (let nan := fun (w : Word) => (decodeF (packFmt t) (w.toNat / 2 ^ (16 * e) % 65536)).isNan
    let el := fun (r : LaneOut) => r.val.toNat / 2 ^ (16 * e) % 65536
    let canon : Nat := match t with
      | .f16x2 => 0x7E00
      | .b16x2 => 0x7FC0
    let v := decodeF (elemFmt st) (x.toNat % 2 ^ elemBits st)
    let y := cvtVal dt st rm sat x g
    (nan a = true ∨ nan b = true → el (faddPackedVal t rm sat n1 n2 a b g) = canon ∧ el (fmulPackedVal t rm sat n1 a b g) = canon ∧
      el (fminmaxPackedVal t isMax true a b g) = canon ∧
      (fcmpPackedVal t cd a b g).val.getLsbD e = (match cd with
        | .ne | .un => true
        | _ => false)) ∧
    (nan a = true ∨ nan b = true ∨ nan c = true → el (ffmaPackedVal t rm sat n1 n2 a b c g) = canon) ∧
    (nan a = true → nan b = false → el (fminmaxPackedVal t isMax false a b g) = b.toNat / 2 ^ (16 * e) % 65536 ∧
      el (fminmaxPackedVal t isMax false b a g) = b.toNat / 2 ^ (16 * e) % 65536) ∧
    (st.isInt = true → dt.isInt = true → y.fl = 0 ∧ y.gen = g ∧
      (let i := readInt (elemBits st) (elemSigned st) x.toNat
      let r := readInt (elemBits dt) (elemSigned dt) y.val.toNat
      let lo : Int := if elemSigned dt then -(2 ^ (elemBits dt - 1) : Int) else 0
      let hi : Int := if elemSigned dt then 2 ^ (elemBits dt - 1) - 1 else 2 ^ elemBits dt - 1
      lo ≤ r ∧ r ≤ hi ∧ if sat then r = max lo (min hi i) else ∃ k : Int, r = i + k * 2 ^ elemBits dt)) ∧
    (st.isInt = false → v.isNan = true →
      (dt.isInt = true → y = ⟨0, 1, g⟩) ∧
      (dt.isInt = false → y = ⟨BitVec.ofNat 64 (elemFmt dt).canon, if v.isSnan then 1 else 0, g⟩)) ∧
    (cvtPackedVal .toE4m3Lo rm sat a b c g).val.toNat / 65536 = c.toNat / 65536 ∧
    (cvtPackedVal .toE5m2Lo rm sat a b c g).val.toNat / 65536 = c.toNat / 65536 ∧
    (cvtPackedVal .toE4m3Hi rm sat a b c g).val.toNat % 65536 = c.toNat % 65536 ∧
    (cvtPackedVal .toE5m2Hi rm sat a b c g).val.toNat % 65536 = c.toNat % 65536)

/-- R102 and R322: an FP32 sum, product or fused sum with a NaN operand is the canonical NaN 0x7FC0_0000, whatever the mode; NV is raised exactly when
an operand is signalling (or, for a fused sum, the product is invalid); no generator steps (R108). -/
def Claims.CanonicalNaN : Prop :=
  ∀ (rm : Rnd) (sat n1 n2 : Bool) (a b c g : Word),
    (let nan := fun (w : Word) => (decodeF .f32 w.toNat).isNan
    let snan := fun (w : Word) => (decodeF .f32 w.toNat).isSnan
    (nan a = true ∨ nan b = true → faddVal rm sat n1 n2 a b g = ⟨0x7FC00000, if snan a || snan b then 1 else 0, g⟩) ∧
    (nan a = true ∨ nan b = true → fmulVal rm sat n1 a b g = ⟨0x7FC00000, if snan a || snan b then 1 else 0, g⟩) ∧
    (nan a = true ∨ nan b = true ∨ nan c = true → (ffmaVal rm sat n1 n2 a b c g).val = 0x7FC00000 ∧ (ffmaVal rm sat n1 n2 a b c g).gen = g))

/-- R333–R335, R339–R341: the instructions that join lanes write their destination and yield their transient like the others. The values of MXPACK,
RED and SCAN come from all guarded lanes together; MXUNPACK's from its block. -/
def Claims.CrossLane : Prop :=
  ∀ (o1 : Ops1) (o2 : Ops2) (f : MxFmt) (ly : MxLayout) (strict excl cin : Bool) (rm : Rnd) (op : RedOp) (t : RedTy) (seg : BitVec 3) (s : State),
    seg.toNat ≤ 5 →
    (let known := fun (rs : List (Nat × DWord)) (l : Nat) => (Cells.find rs l).getD 0
    (s.me.popTrap = false →
      (∃ u, exec (.mxpack o1 f ly strict rm) s = .next u ∧ SlotEnds s u ∧
        (let blk := fun b => mxpackBlock f ly strict rm (fun l => (s.src 0 o1.a false l).setWidth 32) s.me.sett.gens (s.me.guardMask o1.g) b
        Lands s u o1.g o1.d false false (known ((blk 0).1 ++ (blk 1).1)) ∧ Yields s u o1.g o1.d false false (known ((blk 0).1 ++ (blk 1).1)) ∧
        u.me.sett.flags = s.me.sett.flags ||| ((blk 0).2.1 ||| (blk 1).2.1))) ∧
      FloatComputes (.mxunpack o1 f ly) o1.g o1.d false (fun s l g =>
        let q := mxFind f ly (fun l => (s.src 0 o1.a false l).setWidth 32) l
        ⟨(mxUnpack f q.1 q.2).1.setWidth 64, (mxUnpack f q.1 q.2).2, g⟩) ∧
      (∃ u, exec (.red o1 op t seg) s = .next u ∧ SlotEnds s u ∧
        (let r := redLanes op t seg (s.src 0 o1.a t.wide) (s.on o1.g)
        Lands s u o1.g o1.d t.wide (intSx (redInt t)) (known r.1) ∧ Yields s u o1.g o1.d t.wide (intSx (redInt t)) (known r.1) ∧
        u.me.sett.flags = s.me.sett.flags ||| r.2 ∧ u.me.sett.gens = s.me.sett.gens))) ∧
    (s.me.popTrap = false →
      ∃ u, exec (.scan o2 op t seg excl cin) s = .next u ∧ SlotEnds s u ∧
        (let r := scanLanes op t seg excl cin (s.src 0 o2.a t.wide) (s.src 1 o2.b t.wide) (s.on o2.g)
        Lands s u o2.g o2.d t.wide (intSx (redInt t)) (known r.1) ∧ Yields s u o2.g o2.d t.wide (intSx (redInt t)) (known r.1) ∧
        u.me.sett.flags = s.me.sett.flags ||| r.2 ∧ u.me.sett.gens = s.me.sett.gens)))

/-- R340 and R341 on unsigned addition over one segment of 32 lanes: RED.ADD.N32 is the sum modulo 2³², and SCAN.ADD.N32 the running sum. -/
def Claims.ReduceAdds : Prop :=
  ∀ (x y : Nat → DWord) (ls : List Nat), ls.Nodup → ls.Pairwise (· < ·) → (∀ l ∈ ls, l < 32) → (∀ l, (x l).toNat < 2 ^ 32) →
    (∀ l ∈ ls, Cells.find (redLanes .add .n32 0 x ls).1 l = some (BitVec.ofNat 64 ((ls.map fun k => (x k).toNat).sum % 2 ^ 32))) ∧
    (∀ l ∈ ls, Cells.find (scanLanes .add .n32 0 false false x y ls).1 l =
      some (BitVec.ofNat 64 (((ls.filter fun k => k ≤ l).map fun k => (x k).toNat).sum % 2 ^ 32)))

/-- R337 and R338: an SFU slot that acts in a lane is one operation for its guarded lanes, carrying the sett's epoch. It enters its quarter's SFU, which holds
8, or waits for room with its sett; either way the sett goes on with its next slot. One that acts in no lane ends at once. -/
def Claims.SfuIssue : Prop :=
  ∀ (o : Ops1) (s : State), s.me.popTrap = false →
    ∀ p ∈ [(Instr.rcp o, SfuFn.rcp), (.rsq o, .rsq), (.sqrt o, .sqrt), (.exp2 o, .exp2), (.log2 o, .log2), (.sin o, .sin), (.cos o, .cos),
        (.tanh o, .tanh), (.sigm o, .sigm)],
      (let q := (s.cores.get s.me.core).sfu.get s.me.quarter
      let x := s.me.sett
      (s.on o.g ≠ [] → ∃ t op, exec p.1 s = .next t ∧ t = { s with cores := t.cores, crews := t.crews } ∧
        op.crew = s.cur ∧ op.epoch = s.me.epoch ∧ op.slot = x.slot ∧
        op.vals = (s.on o.g).map (fun l => (l, (sfuVal p.2 ((s.src 0 o.a false l).setWidth 32)).1)) ∧
        (∀ k, k ≠ s.cur → t.crews.get k = s.crews.get k) ∧
        t.me = { s.me with sett := { x with
          marks := x.marks.put x.slot x.wr.length, sfuPend := x.sfuPend ++ [x.slot], slot := x.seek x.phase (x.slot + 1), sfuWait := t.me.sett.sfuWait } } ∧
        (q.length < 8 → x.sfuWait = [] → t.me.sett.sfuWait = [] ∧ (∀ k, k ≠ s.me.core → t.cores.get k = s.cores.get k) ∧
          t.cores.get s.me.core = { s.cores.get s.me.core with sfu := (s.cores.get s.me.core).sfu.put s.me.quarter (q ++ [op]) }) ∧
        (8 ≤ q.length ∨ x.sfuWait ≠ [] → t.me.sett.sfuWait = x.sfuWait ++ [op] ∧ t.cores = s.cores)) ∧
      (s.on o.g = [] → ∃ t, exec p.1 s = .next t ∧ SlotEnds s t ∧ Lands s t o.g o.d false false (fun _ => 0)))

/-- R338: a returned SFU operation frees its entry, and one that waits takes the room; a result whose epoch is not that of its crew's running sett changes no
register, staged write or transient. -/
def Claims.SfuReturn : Prop :=
  ∀ (s : State) (core quarter : Nat) (op : SfuOp) (rest : List SfuOp), (s.core core).sfu.get quarter = op :: rest →
    (let waits := fun (e : Nat × Crew) => e.2.core = core ∧ e.2.quarter = quarter ∧ e.2.sett.sfuWait ≠ []
    ∃ t, exec (.sfuResultReturn core quarter) s = .next t ∧
      ((∀ e ∈ s.crews.cells, ¬ waits e) → (t.core core).sfu.get quarter = rest) ∧
      (rest.length < 8 → ∀ e ∈ s.crews.cells, waits e →
        ∃ p, (t.core core).sfu.get quarter = rest ++ [p] ∧ ∃ e ∈ s.crews.cells, waits e ∧ e.2.sett.sfuWait.head? = some p) ∧
      ((s.crew op.crew).epoch ≠ op.epoch → ∀ k, (t.crew k).sett = { (s.crew k).sett with sfuWait := (t.crew k).sett.sfuWait } ∧
        (t.crew k).v = (s.crew k).v ∧ (t.crew k).s = (s.crew k).s))

/-- R338 and R200: a result whose sett still executes and waits for it lands in its slot's place: the crew stands there as after that slot with those lane
results, and the slot is waited for no longer. -/
def Claims.SfuResult : Prop :=
  ∀ (s : State) (core quarter : Nat) (op : SfuOp) (rest : List SfuOp) (i : Instr) (d : Dst) (n : Nat),
    (s.core core).sfu.get quarter = op :: rest → (s.crew op.crew).core = core →
    (let c := s.crew op.crew
    c.epoch = op.epoch → c.sett.phase = .exec → op.slot ∈ c.sett.sfuPend →
    decode (c.sett.words.getD op.slot 0) = .instr i → i.dst = some (d, n) →
    ∃ t, exec (.sfuResultReturn core quarter) s = .next t ∧
      (let x := endLate { c with stall := 0 } op.slot d false false (op.vals.map fun r => (r.1, r.2.setWidth 64)) op.flags
      t.crew op.crew = { x with sett := { x.sett with sfuPend := c.sett.sfuPend.filter (· != op.slot), sfuWait := (t.crew op.crew).sett.sfuWait } }))

/-! ## Control transfer, traps and returns (R292–R303, R402, R406, R437–R440) -/

namespace Sys2Proof.Machine

/-- R293 over all addresses that lanes transfer to. -/
def State.passes (s : State) (call : DWord → Bool) (as : List DWord) : Prop :=
  ∀ a ∈ as, s.checkTarget s.cur s.me.level (call a) a = .ok

/-- A control slot has decided: nothing of the device changed but what the sett carries to its commit. -/
def Decides (s t : State) : Prop :=
  t = s.setMe { s.me with stall := 0, sett := Sett.advance { s.me.sett with ctl := t.me.sett.ctl } }

/-- The sett of t at the end of its commit: the control slot acts. Its other slots have written registers, queues and memory as they may. -/
structure AtControl (t u : State) : Prop where
  phase : u.me.sett.phase = .control
  decided : u.me.sett.ctl = t.me.sett.ctl
  fall : u.me.sett.fall = t.me.sett.fall
  paths : u.me.paths = t.me.paths
  groups : u.me.groups = t.me.groups

/-- The instruction decides at s, and at the end of the commit what it does is `P u v`. -/
def Transfers (i : Instr) (s : State) (P : State → State → Prop) : Prop :=
  ∃ t, exec i s = .next t ∧ Decides s t ∧ ∀ u, AtControl t u → ∃ v, exec i u = .next v ∧ P u v

/-- The sett ends with these paths in place of the running one (R203, R204); of the device nothing else changes. -/
def EndsWith (u v : State) (heads : List Path) : Prop := v = u.setMe (u.me.endSett heads)

/-- The group of paths of R294: the lanes of the running path, each at its destination; ascending addresses with `fall` last. -/
structure Splits (run : Path) (fall : Nat) (dest : Nat → Nat) (heads : List Path) : Prop where
  lanes : ∀ p ∈ heads, ∀ l, p.mask.getLsbD l = (run.mask.getLsbD l && dest l == p.pc)
  all : ∀ l, run.mask.getLsbD l = true → ∃ p ∈ heads, p.pc = dest l
  used : ∀ p ∈ heads, ∃ l, p.mask.getLsbD l = true
  order : heads.Pairwise fun p q => p.pc ≠ fall ∧ (q.pc = fall ∨ p.pc < q.pc)
  fresh : ∀ p ∈ heads, p.join = none

end Sys2Proof.Machine

/-- R294: BR and BRX send each lane of the running path to its target where the guard holds and to F elsewhere; at commit the groups take the running
path's place in ascending order, F's last, and every other path stands. Addresses pass R293 first. A reading of the model in it: log 28. -/
def Obligations.LaneBranches : Prop :=
  ∀ (g : Guard) (target : BitVec 38) (a : Src) (s : State), s.me.sett.phase = .exec → s.me.popTrap = false →
    ∀ p ∈ [(Instr.br g target, fun _ => jTarget s.me target), (.brx g a, fun l => s.src 0 a true l)],
      (let dest := fun l => if l ∈ s.on g then p.2 l else s.me.sett.fall
      s.passes (fun _ => false) ((lanesOf s.me.mask).map dest) →
      Transfers p.1 s fun u v => ∃ heads, EndsWith u v heads ∧ Splits s.me.run s.me.sett.fall.toNat (fun l => (dest l).toNat) heads)

/-- R295–R297: BRC, LOOP and JOIN move the whole running path; LOOP's register takes its old value less 1 at commit, over any other write, when the
guard holds in a lane, and is then no longer poisoned; JOIN leaves the path waiting with the mask its register held at sett start. -/
def Claims.PathBranches : Prop :=
  ∀ (g : Guard) (k : BitVec 6) (target : BitVec 38) (s : State), s.me.sett.phase = .exec →
    (let T := jTarget s.me target
    let F := s.me.sett.fall
    let n := s.me.sreg k.toNat - 1
    let go := fun (c : Crew) (tgt : DWord) => { c.run with pc := tgt.toNat, run := c.run.run + 1 }
    (let tgt := if s.on g ≠ [] then T else F
    s.passes (fun _ => false) [tgt] → Transfers (.brcAny g target) s fun u v => EndsWith u v [go u.me tgt]) ∧
    (let tgt := if s.on g = lanesOf s.me.mask then T else F
    s.passes (fun _ => false) [tgt] → Transfers (.brcAll g target) s fun u v => EndsWith u v [go u.me tgt]) ∧
    (let tgt := if s.on g ≠ [] ∧ n ≠ 0 then T else F
    s.passes (fun _ => false) [tgt] → Transfers (.loop g k target) s fun u v =>
        ∃ w, EndsWith w v [go u.me tgt] ∧ w = u.setMe { u.me with s := w.me.s, poisonS := w.me.poisonS } ∧
          (∀ m, w.me.sreg m = if s.on g ≠ [] ∧ m = k.toNat then n else u.me.sreg m) ∧
          ∀ m, m ∈ w.me.poisonS ↔ m ∈ u.me.poisonS ∧ ¬ (s.on g ≠ [] ∧ m = k.toNat)) ∧
    (let tgt := if s.on g ≠ [] then T else F
    s.passes (fun _ => false) [tgt] → Transfers (.join g k target) s fun u v =>
        EndsWith u v [{ go u.me tgt with join := if s.on g = [] then u.me.run.join else some ((s.me.sreg k.toNat).setWidth 32) }]))

/-- R298: YIELD goes on at F; with a lane's guard holding its path moves to the back of the list, except in a handler, and the quarter's next issue
goes to the oldest other ready crew. -/
def Claims.Yield : Prop :=
  ∀ (g : Guard) (s : State), s.me.sett.phase = .exec → s.passes (fun _ => false) [s.me.sett.fall] →
    Transfers (.yield g) s fun u v =>
      let F := s.me.sett.fall.toNat
      if s.on g = [] then EndsWith u v [{ u.me.run with pc := F, run := u.me.run.run + 1 }]
      else ∃ w : State, w.me.sett = default ∧ (w = u.setMe { u.me with paths := w.me.paths, sett := default, stall := 0 }) ∧
        w.me.paths = (if u.me.inTrap then { u.me.run with pc := F, run := u.me.run.run + 1 } :: u.me.paths.tail
          else u.me.paths.tail ++ [{ u.me.run with pc := F, run := 0 }]) ∧
        (match w.oldestReady u.me.core u.me.quarter (u.cur + 1) with
          | none => v = w
          | some o => v.cur = o ∧ (v.core (w.crew o).core).issue.get (w.crew o).quarter = o + 1 ∧ v.crews = w.crews)

/-- R300 and R301: CALL and CALLX. A lane of depth 64 traps BOUNDS with the lowest target. Otherwise, at commit, the lanes of the least target form the
path that runs, the other targets' lanes wait in the group's pending list in ascending order, and the lanes whose guard fails wait at F; a call of no
lane falls through and makes no group. -/
def Obligations.Calls : Prop :=
  ∀ (g : Guard) (target : BitVec 38) (a : Src) (s : State), s.me.sett.phase = .exec → s.me.popTrap = false →
    ∀ p ∈ [(Instr.call g target, fun _ => jTarget s.me target), (.callx g a, fun l => s.src 0 a true l)],
      (let F := s.me.sett.fall
      let low := fun (x : Nat) => (∃ l ∈ s.on g, (p.2 l).toNat = x) ∧ ∀ l ∈ s.on g, x ≤ (p.2 l).toNat
      ((∃ l ∈ s.on g, s.me.depth l ≥ 64) → ∃ x, low x.toNat ∧ Raises p.1 s cBounds x 0) ∧
      ((∀ l ∈ s.on g, s.me.depth l < 64) → s.passes (fun x => decide (∃ l ∈ s.on g, p.2 l = x)) (F :: (s.on g).map p.2) →
        Transfers p.1 s fun u v =>
          if s.on g = [] then EndsWith u v [{ u.me.run with pc := F.toNat, run := u.me.run.run + 1 }]
          else ∃ x m pend, low x ∧ (∀ l, m.getLsbD l = decide (l ∈ s.on g ∧ (p.2 l).toNat = x)) ∧
            (pend.Pairwise fun y z : Nat × Word => y.1 < z.1) ∧
            (∀ y, (∃ w, (y, w) ∈ pend) ↔ (∃ l ∈ s.on g, (p.2 l).toNat = y) ∧ y ≠ x) ∧
            (∀ y w, (y, w) ∈ pend → ∀ l, w.getLsbD l = decide (l ∈ s.on g ∧ (p.2 l).toNat = y)) ∧
            (let e := u.me.endSett [⟨x, m, none, u.me.run.run + 1⟩]
            let on := s.me.guardMask g
            v = u.setMe { e with
              groups := insertGroup ⟨u.me.nextGroup, F.toNat, u.me.mask, on, pend, u.me.mask &&& ~~~on⟩ u.me.groups
              nextGroup := u.me.nextGroup + 1 })))

/-- R302: RET in a lane of depth 0 traps BAD_TARGET with address 0. Otherwise, at commit, the returning lanes leave their path for the return set of
their innermost groups, the others go on at F, and groups none of whose members lies on a path advance; a path that comes up counts its setts on, and
goes to the back with 64 counted (R204). R299: EXIT of some but not all live lanes ends them at commit without waiting. -/
def Claims.ReturnAndExit : Prop :=
  ∀ (g : Guard) (s : State), s.me.sett.phase = .exec →
    (let on := s.me.guardMask g
    let left := if s.me.mask &&& ~~~on = 0 then [] else [s.me.sett.fall]
    let rest := fun (c : Crew) => if c.mask &&& ~~~on = 0 then [] else
      [{ c.run with pc := s.me.sett.fall.toNat, mask := c.mask &&& ~~~on, run := c.run.run + 1 }]
    ((∃ l ∈ s.on g, s.me.depth l = 0) → Raises (.ret g) s cBadTarget 0 0) ∧
    ((∀ l ∈ s.on g, s.me.depth l ≠ 0) → s.passes (fun _ => false) left → Transfers (.ret g) s fun u v =>
      ∃ c : Crew, v = u.setMe (advanceGroups (u.me.run.run + 1) (groupFuel c) c).turnAround ∧ c = { u.me.endSett (rest u.me) with groups := c.groups } ∧
        (∀ x ∈ c.groups, ∃ y ∈ u.me.groups, x = { y with inside := x.inside, ret := x.ret } ∧ ∀ l, l < 32 →
          (x.inside.getLsbD l = true → y.inside.getLsbD l = true) ∧
          (y.inside.getLsbD l = true → x.inside.getLsbD l = false → l ∈ s.on g ∧ x.ret.getLsbD l = true))) ∧
    (s.me.lastLanes on = false → s.passes (fun _ => false) left → Transfers (.exit g) s fun u v =>
      ∃ c : Crew, v = u.setMe (advanceGroups (u.me.run.run + 1) (groupFuel c) c).turnAround ∧
        c = Crew.endLanes { u.me.endSett (rest u.me) with groups := u.me.groups } on))

/-- R299, R199 and R201: EXIT of a crew's last live lanes holds its sett uncommitted until the counters are drained, waits at the end of its commit
for the operations of the sett itself, and then ends the crew, which leaves its gang. -/
def Claims.LastExit : Prop :=
  (∀ (g : Guard) (s : State), s.me.sett.phase = .exec → s.me.lastLanes (s.me.guardMask g) = true →
    s.passes (fun _ => false) (if s.me.mask &&& ~~~s.me.guardMask g = 0 then [] else [s.me.sett.fall]) →
    ∃ t, exec (.exit g) s = .next t ∧ t.me.sett.ctl.take = s.me.guardMask g ∧
      t = s.setMe { s.me with
        stall := 0, sett := Sett.advance { s.me.sett with ctl := t.me.sett.ctl, waits := s.me.sett.waits ++ [⟨s.me.sett.slot, .exit⟩] } } ∧
      ∀ (r : State) (slot : Nat), (r.tryWait r.cur ⟨slot, .exit⟩).2 = none ↔ r.me.quiet = true) ∧
  ∀ (g : Guard) (u : State), u.me.sett.phase = .control → u.me.lastLanes u.me.sett.ctl.take = true →
    ((u.me.quiet = false ∨ u.endRoom u.cur = false) → exec (.exit g) u = .next (u.setMe { u.me with stall := stWaitc })) ∧
    (u.me.quiet = true → u.endRoom u.cur = true →
      ∃ v, exec (.exit g) u = .next v ∧ v.crews.get u.cur = default ∧ (∀ r ∈ v.regs, r.crew ≠ u.cur) ∧ v.mem = u.mem)

/-- R402 and R437: TRAP and SVC commit, then the trap is taken: TR_PC gets the fall-through address, TR_ADDR the code, TR_CAUSE its fields, the level
becomes 1, a pending hold is saved, and the running path goes on at VEC. Guarded off in every lane they fall through. -/
def Claims.TrapAndSvc : Prop :=
  ∀ (g : Guard) (code : BitVec 16) (s : State), s.me.sett.phase = .exec →
    ∀ p ∈ [(Instr.trap g code, cBreak), (.svc g code, cSvc)],
      (s.on g = [] → s.passes (fun _ => false) [s.me.sett.fall] → Transfers p.1 s fun u v =>
        EndsWith u v [{ u.me.run with pc := s.me.sett.fall.toNat, run := u.me.run.run + 1 }]) ∧
      (s.on g ≠ [] → Transfers p.1 s fun u v =>
        u.trapReady u.cur = true → nestBit u.me.trCause = false → bitsOf (u.part u.me.part).trVec 0 56 ≠ 0 →
        (let vec := bitsOf (u.part u.me.part).trVec 0 56
        let holds := u.me.holds.filter fun h => !u.holdClear u.cur h
        let w := u.setMe { u.me with
          sett := default, stall := 0, trPc := BitVec.ofNat 64 (s.me.sett.fall.toNat % 2 ^ 56), trAddr := code.setWidth 64
          trCause := v.me.trCause, savedHolds := holds, holds := [], level := true }
        w.checkTarget u.cur true false (BitVec.ofNat 64 vec) = .ok →
          v = w.setMe { w.me with
            inTrap := true
            paths := match u.me.paths with
              | q :: r => { q with pc := vec, join := none } :: r
              | [] => [] } ∧
          v.me.trCause.extractLsb' 32 32 = u.me.mask ∧ bitsOf v.me.trCause 27 5 = 0 ∧ bitsOf v.me.trCause 22 5 = u.me.sett.slot % 32 ∧
          bitsOf v.me.trCause 17 5 = 0 ∧ v.me.trCause.getLsbD 16 = !holds.isEmpty ∧ v.me.trCause.getLsbD 15 = true ∧
          v.me.trCause.getLsbD 14 = u.me.level ∧ bitsOf v.me.trCause 8 6 = 0 ∧ bitsOf v.me.trCause 0 8 = p.2.toNat))

/-- R437: an exception of a sett is taken as a trap once the sett is discarded; its PC, address and cause are saved, and the path goes on at VEC at
level 1. R439: with NEST set or no VEC the crew stops where it raised the trap, and a record with flag DOUBLE is emitted. -/
def Claims.TrapEntry : Prop :=
  ∀ (s : State) (e : Exc), s.me.sett.exc = some e → s.me.sett.phase ≠ .idle → s.me.paths ≠ [] → s.trapReady s.cur = true →
    (let vec := bitsOf (s.part s.me.part).trVec 0 56
    ((nestBit s.me.trCause = true ∨ vec = 0) → ∃ t, exec .trapEntry s = .next t ∧ t.me.place = .halted ∧ t.me.sett = default ∧
      t.me.paths = s.me.paths ∧ t.me.trPc = s.me.trPc ∧ t.me.trCause = s.me.trCause ∧
      ((s.part s.me.part).present = true → ∃ r, (t.die (dieOf s.me.core)).recs = (s.die (dieOf s.me.core)).recs ++ [r] ∧ r.part = s.me.part ∧
        (r.bits.extractLsb' 88 8) = e.cause ∧ (r.bits.extractLsb' 192 64) = e.addr ∧ (r.bits.extractLsb' 96 8).toNat = fgDouble)) ∧
    (nestBit s.me.trCause = false → vec ≠ 0 → ∃ t, exec .trapEntry s = .next t ∧
      (let pc := BitVec.ofNat 64 (s.me.sett.pc % 2 ^ 56)
      t.me.trPc = pc ∧ t.me.trAddr = e.addr ∧ bitsOf t.me.trCause 0 8 = e.cause.toNat ∧ bitsOf t.me.trCause 17 5 = e.flags.toNat ∧
      bitsOf t.me.trCause 22 5 = e.slot % 32 ∧ bitsOf t.me.trCause 27 5 = e.lane % 32 ∧ t.me.trCause.getLsbD 15 = true ∧
      t.me.trCause.getLsbD 14 = s.me.level ∧ t.me.trCause.extractLsb' 32 32 = s.me.mask ∧ t.me.level = true ∧ t.me.sett = default ∧
      t.me.v = s.me.v ∧ t.me.s = s.me.s ∧ t.me.p = s.me.p ∧ t.me.d = s.me.d ∧ t.me.gens = s.me.gens ∧ t.me.fpsr = s.me.fpsr ∧ t.mem = s.mem ∧
      (t.me.place ≠ .halted → t.me.inTrap = true ∧ t.me.run.pc = vec))))

/-- R440: TRET raises ILLEGAL_OP unless NEST is set and the running path's mask is the saved one; it checks TR_PC under R293, and at commit restores
the level and a saved hold, clears NEST, and goes on at TR_PC. A reading of the model in it: log 20. -/
def Obligations.TrapReturn : Prop :=
  ∀ (g : Guard) (s : State), s.me.sett.phase = .exec →
    (s.on g = [] → s.passes (fun _ => false) [s.me.sett.fall] → Transfers (.tret g) s fun u v =>
      EndsWith u v [{ u.me.run with pc := s.me.sett.fall.toNat, run := u.me.run.run + 1 }]) ∧
    (s.on g ≠ [] → (nestBit s.me.trCause = false ∨ s.me.mask ≠ s.me.trCause.extractLsb' 32 32) →
      Raises (.tret g) s cIllegalOp (BitVec.ofNat 64 (slotAddr s.me.sett s.me.sett.slot)) 0) ∧
    (s.on g ≠ [] → nestBit s.me.trCause = true → s.me.mask = s.me.trCause.extractLsb' 32 32 → s.passes (fun _ => false) [s.me.trPc] →
      Transfers (.tret g) s fun u v =>
        let hold := s.me.trCause.getLsbD 16
        v = u.setMe { u.me with
          sett := default, stall := 0, level := s.me.trCause.getLsbD 14, inTrap := false
          holds := if hold then u.me.holds ++ u.me.savedHolds else u.me.holds
          savedHolds := if hold then [] else u.me.savedHolds
          trCause := v.me.trCause
          paths := match u.me.paths with
            | q :: r => { q with pc := s.me.trPc.toNat } :: r
            | [] => [] } ∧
        ∀ b, v.me.trCause.getLsbD b = (decide (b ≠ 15) && u.me.trCause.getLsbD b))

/-- R406 and R446: HALT goes on at F and stops there; it is saved to the shadow store, with a PREEMPT record, when the partition's units and the record
buffer have room, and stays resident and stopped otherwise. -/
def Claims.Halt : Prop :=
  ∀ (g : Guard) (s : State), s.me.sett.phase = .exec → s.passes (fun _ => false) [s.me.sett.fall] →
    Transfers (.halt g) s fun u v =>
      let head := { u.me.run with pc := s.me.sett.fall.toNat, run := u.me.run.run + 1 }
      if s.on g = [] then EndsWith u v [head]
      else
        let w := u.setMe { u.me.endSett [head] with place := .halted }
        (w.shadowFits u.cur = false ∨ w.recRoom (dieOf u.me.core) 1 = false → v = w) ∧
        (w.shadowFits u.cur = true → w.recRoom (dieOf u.me.core) 1 = true →
          v.me.place = .saved ∧ v.me.paths = (u.me.endSett [head]).paths ∧ v.me.v = u.me.v ∧ v.me.s = u.me.s ∧ v.me.p = u.me.p ∧ v.me.d = u.me.d)

/-! ## Loads, stores, atomics, fences (R346–R359, R137, R140, R153) -/

namespace Sys2Proof.Machine

/-- What a lane of a load names and its checks give (R346, R348). -/
def State.loadLoc (s : State) (sp : Space) (m : MemA) (l : Nat) : Res :=
  withFarPoison s s.me (memN m.w) l (withPoison s s.me (memN m.w) (resMem s s.me s.cur sp .load m l))

/-- An address lies within n bytes from pa. -/
def inRange (pa n a : Nat) : Prop := pa ≤ a ∧ a < pa + n

/-- What the executing slot captured lies on this device, the core holds nothing on its way to those lines, and no hold of its sett stands
(R79, R344). -/
structure State.CapsClear (s : State) (n : Nat) : Prop where
  here : ∀ p ∈ s.me.caps, p.loc.dev = s.dev ∧ s.holdsLines s.me.core p.loc.dev p.loc.pa n = false
  free : s.fenced = false

/-- The core holds nothing on its way to any home (R155). -/
def State.coreRests (s : State) : Prop := (s.core s.me.core).cb = [] ∧ s.coreBusy s.me.core = false

/-- The effects slot has landed: these register writes join the sett's in its slot's place (R200), and the next effectful slot comes up. -/
def LandsAs (s t : State) (wr : List Wr) : Prop :=
  t.me.sett = Sett.advance { s.me.sett.lateWrites s.me.sett.slot wr with remote := t.me.sett.remote } ∧ t.me.stall = 0 ∧
    t.me.v = s.me.v ∧ t.me.s = s.me.s ∧ t.me.p = s.me.p ∧ t.me.d = s.me.d ∧ t.me.paths = s.me.paths

/-- A slot has captured: its locations and operands stand in the sett, its place among the sett's writes is kept, and no register write, store or
byte of memory came with it. -/
def Captures (i : Instr) (s : State) (caps : List Cap) (waits : List WaitKind) : Prop :=
  ∃ t, exec i s = .next t ∧ t.mem = s.mem ∧ t.me = { s.me with
    stall := 0, sett := Sett.advance { s.me.sett.mark with caps := s.me.sett.caps ++ caps, waits := s.me.sett.waits ++ waits.map s.me.wait } }

end Sys2Proof.Machine

/-- R346, R348 and R350: a plain load reads in every guarded lane; the group from DST takes the value, sign-extended for I8 and I16, and no other
register, no flag and no byte of memory changes. The transient is bits 63:0 of what the group receives. -/
def Claims.PlainLoads : Prop :=
  ∀ (m : MemA) (s : State) (x : Nat → Loc) (bs : Nat → List Byte), m.ord = false → s.me.sett.phase = .exec → s.me.popTrap = false →
    ∀ p ∈ [(Instr.ldl m, Space.localMem), (.ldg m, .global), (.ldy m, .yard), (.ldkv m, .kv), (.ldt m, .token)],
      (∀ l ∈ s.on m.g, s.loadLoc p.2 m l = .ok (x l) ∧ s.loadBytes s.me s.me.sett.slot l (x l) (memN m.w) = some (bs l)) →
      ∃ t, exec p.1 s = .next t ∧ t.mem = s.mem ∧ t.me.sett.flags = s.me.sett.flags ∧ t.me.sett.gens = s.me.sett.gens ∧
        (∀ r l, l < 32 → t.landed.vreg r l =
          if l ∈ s.on m.g ∧ m.r.toNat ≤ r ∧ r < m.r.toNat + (memN m.w + 3) / 4 then
            BitVec.ofNat 32 (extendLoad m.w (bs l) / 2 ^ (32 * (r - m.r.toNat)))
          else s.landed.vreg r l) ∧
        t.landed.s = s.landed.s ∧ t.landed.p = s.landed.p ∧ t.landed.d = s.landed.d ∧ t.landed.fpsr = s.landed.fpsr ∧
        (∀ l, l < 32 → t.me.sett.trans.get (s.me.sett.slot * 32 + l) =
          if l ∈ s.on m.g then BitVec.ofNat 64 (extendLoad m.w (bs l)) else groupStart s.me m.r.toNat (memN m.w) l) ∧
        t.me = { s.me with stall := 0, sett := Sett.advance { s.me.sett with wr := t.me.sett.wr, trans := t.me.sett.trans } }

/-- R350, R98 and R139 for a location of this device: with an atomic of the core on its way to the line a load waits; otherwise the loaded bytes are, each, the one an earlier slot of the sett stores there, else the one the
core's combining buffer holds, else for a normal page the L1's, else the youngest the core has sent there, else the home's; the value reads them
little-endian. -/
def Claims.LoadedBytes : Prop :=
  ∀ (s : State) (slot lane n : Nat) (x : Loc), x.dev = s.dev → x.space ≠ .token →
    (s.rmwOpen s.me.core x.dev x.pa n = true → s.loadBytes s.me slot lane x n = none) ∧
    (s.rmwOpen s.me.core x.dev x.pa n = false → ∃ bs, s.loadBytes s.me slot lane x n = some bs ∧ bs.length = n ∧ ∀ i, i < n →
      bs.getD i 0 =
        match s.me.sett.ownByte slot x.dev (x.pa + i) with
        | some b => b
        | none =>
          let sent := (s.flightByte s.me.core s.dev (x.pa + i)).getD (s.mem.read (x.pa + i))
          match x.space with
          | .global | .kv =>
            let k := s.core s.me.core
            match k.cbByte s.dev (x.pa + i) with
            | some b => b
            | none => (if x.space = .global ∧ x.mtype = 0 then lineByte k.l1 s.dev (x.pa + i) else none).getD sent
          | _ => sent)

/-- R346 and R348: the range check comes first and raises PROTECTION, then alignment raises ALIGN, with the sum as the fault address; a local
address beyond the allocation (R50) and a yard address of a yard not granted (R51) raise PROTECTION. -/
def Claims.AddressChecks : Prop :=
  ∀ (s : State) (c : Crew) (a : Acc) (handle : Word) (sum : Int) (n : Nat), 0 < n → n ≤ 128 →
    (let w := BitVec.ofInt 64 sum
    (sum < 0 ∨ sum ≥ 2 ^ 56 → s.resGlobal c s.cur a sum n = .bad cProtection w) ∧
    (0 ≤ sum → sum < 2 ^ 56 → ¬ (n : Int) ∣ sum → s.resGlobal c s.cur a sum n = .bad cAlign w) ∧
    (sum < 0 ∨ sum ≥ 2 ^ 32 → s.resLocal c sum n = .bad cProtection w ∧ s.resYard c sum n = .bad cProtection w ∧
      s.resKv c handle sum n = .bad cProtection w) ∧
    (0 ≤ sum → sum < 2 ^ 32 → ¬ (n : Int) ∣ sum → s.resLocal c sum n = .bad cAlign w ∧ s.resYard c sum n = .bad cAlign w ∧
      s.resKv c handle sum n = .bad cAlign w) ∧
    (0 ≤ sum → sum < 2 ^ 32 → (n : Int) ∣ sum →
      s.resLocal c sum n = if sum + n > (s.gang c.gang).localSize then .bad cProtection w
        else .ok ⟨.localMem, sum.toNat, s.dev, localAp c.core + (s.gang c.gang).localBase + sum.toNat, 2⟩) ∧
    (sum < 0 ∨ sum + n > 128 → s.resToken handle sum n = .bad cProtection w) ∧
    (0 ≤ sum → sum + n ≤ 128 → ¬ (n : Int) ∣ sum → s.resToken handle sum n = .bad cAlign w) ∧
    (0 ≤ sum → sum + n ≤ 128 → (n : Int) ∣ sum → s.tokLive handle = false → s.resToken handle sum n = .bad cProtection w))

/-- R348: the lowest lane whose access fails gives the trap's cause, address and lane, for loads (but a KV miss, which parks), stores and atomics, once
the words of lower lanes that lie on other devices have come. -/
def Claims.AccessTraps : Prop :=
  ∀ (m : MemA) (a : AtomA) (s : State) (l : Nat) (cause : BitVec 8) (addr : DWord), s.me.sett.phase = .exec →
    (let lowest := fun (ls : List Nat) (r : Nat → Res) => l ∈ ls ∧ r l = .bad cause addr ∧ ∀ k ∈ ls, k < l → ∃ x, r k = .ok x
    (s.me.popTrap = false → m.ord = false → cause ≠ cKvMiss →
      ∀ p ∈ [(Instr.ldl m, Space.localMem), (.ldg m, .global), (.ldy m, .yard), (.ldkv m, .kv), (.ldt m, .token)],
        lowest (s.on m.g) (s.loadLoc p.2 m) →
        (∀ k ∈ s.on m.g, k < l → ∀ x, s.loadLoc p.2 m k = .ok x → (s.loadBytes s.me s.me.sett.slot k x (memN m.w)).isSome = true) →
        Raises p.1 s cause addr l) ∧
    (s.me.popTrap = false →
      ∀ p ∈ [(Instr.stl m, Space.localMem), (.stg m, .global), (.sty m, .yard)],
        lowest (s.on m.g) (fun k => resMem s s.me s.cur p.2 .store m k) → Raises p.1 s cause addr l) ∧
    (s.me.popTrap = false →
      ∀ p ∈ [(Instr.atomGlobal a, Space.global), (.atomLocal a, .localMem), (.atomYard a, .yard), (.atomGlobalNoret a, .global),
          (.atomLocalNoret a, .localMem), (.atomYardNoret a, .yard)],
        (let r := fun k => withFarPoison s s.me (atomN a.ty) (k + 32) (resAtom s s.me p.2 a k)
        lowest (s.on a.g) r →
        (∀ k ∈ s.on a.g, k < l → ∀ x, r k = .ok x → x.dev = s.dev ∨ (s.me.sett.answer s.me.sett.slot (k + 32)).isSome = true) →
        Raises p.1 s cause addr l)))

/-- R351 and R140: a plain store writes no byte while its sett executes: it keeps, per guarded lane, the low bytes of the data group, and its
transient is 0. Nothing but the staged stores of the sett changes. -/
def Obligations.PlainStores : Prop :=
  ∀ (m : MemA) (s : State) (x : Nat → Loc), m.ord = false → s.me.sett.phase = .exec → s.me.popTrap = false →
    ∀ p ∈ [(Instr.stl m, Space.localMem), (.stg m, .global), (.sty m, .yard)],
      (∀ l ∈ s.on m.g, resMem s s.me s.cur p.2 .store m l = .ok (x l)) →
      ∃ t, exec p.1 s = .next t ∧ t.mem = s.mem ∧
        t.me.sett.stores = s.me.sett.stores ++ (s.on m.g).map (fun l => ⟨s.me.sett.slot, l, x l, storeBytes s.me m.r.toNat (memN m.w) l⟩) ∧
        (∀ l, l < 32 → t.me.sett.trans.get (s.me.sett.slot * 32 + l) = 0) ∧
        t.me = { s.me with sett := Sett.advance { s.me.sett with
          stores := t.me.sett.stores, waits := t.me.sett.waits, trans := t.me.sett.trans, flagSlot := t.me.sett.flagSlot } } ∧
        (∀ l i, i < memN m.w → (storeBytes s.me m.r.toNat (memN m.w) l).getD i 0 =
          (s.me.vreg (m.r.toNat + i / 4) l).extractLsb' (8 * (i % 4)) 8)

/-- R346, R348, R351 and R352: while its sett executes an acquire load, a release store or an atomic only checks and captures each lane's location and,
for an atomic, its operands; one that reads words of another device has heard of their poison before. -/
def Claims.EffectfulAccessesCapture : Prop :=
  ∀ (m : MemA) (a : AtomA) (s : State) (x : Nat → Loc), s.me.sett.phase = .exec →
    (let slot := s.me.sett.slot
    (m.ord = true → s.me.popTrap = false →
      (∀ p ∈ [(Instr.ldl m, Space.localMem), (.ldg m, .global), (.ldy m, .yard)],
        (∀ l ∈ s.on m.g, withFarPoison s s.me (memN m.w) (l + 32) (withPoison s s.me (memN m.w) (resMem s s.me s.cur p.2 .load m l)) = .ok (x l) ∧
          ((x l).dev = s.dev ∨ (s.me.sett.answer slot (l + 32)).isSome = true)) →
        Captures p.1 s ((s.on m.g).map fun l => ⟨slot, l, x l, []⟩) []) ∧
      (∀ p ∈ [(Instr.stl m, Space.localMem), (.stg m, .global), (.sty m, .yard)],
        (∀ l ∈ s.on m.g, resMem s s.me s.cur p.2 .store m l = .ok (x l)) →
        Captures p.1 s ((s.on m.g).map fun l => ⟨slot, l, x l, []⟩) (if s.on m.g = [] then [] else [.cap .st]))) ∧
    (s.me.popTrap = false →
      ∀ p ∈ [(Instr.atomGlobal a, Space.global, false), (.atomLocal a, .localMem, false), (.atomYard a, .yard, false),
          (.atomGlobalNoret a, .global, true), (.atomLocalNoret a, .localMem, true), (.atomYardNoret a, .yard, true)],
        (∀ l ∈ s.on a.g, withFarPoison s s.me (atomN a.ty) (l + 32) (resAtom s s.me p.2.1 a l) = .ok (x l) ∧
          ((x l).dev = s.dev ∨ (s.me.sett.answer slot (l + 32)).isSome = true)) →
        Captures p.1 s ((s.on a.g).map fun l => ⟨slot, l, x l, atomArgs s s.me a l⟩) (if s.on a.g = [] ∨ p.2.2 = false then [] else [.cap .st])))

/-- R350 and R351 with ORD = 1, R133, R155: once what the core holds for its lines has performed, an acquire load reads each captured lane's bytes at
its home and changes no memory; for a scope wider than .core the core's L1 is gone. A release store leaves behind everything that the core holds; with
nothing else on its way it has written each lane's bytes at its home, the highest lane's where lanes meet (R137), and every other byte of memory
stands. -/
def Claims.AcquireAndRelease : Prop :=
  ∀ (m : MemA) (s : State), m.ord = true → s.me.sett.phase = .effects →
    (let n := memN m.w
    let caps := s.me.caps
    (s.CapsClear n → ∀ i ∈ [Instr.ldl m, .ldg m, .ldy m], ∃ t, exec i s = .next t ∧ t.mem = s.mem ∧
        LandsAs s t (caps.flatMap fun p => groupWrites m.r.toNat n p.lane (extendLoad m.w (s.mem.readList p.loc.pa n))) ∧
        (caps ≠ [] → Scope.wide m.scope = true → (t.core s.me.core).l1 = [])) ∧
    (s.fenced = false →
      ∀ i ∈ [Instr.stl m, .stg m, .sty m], ∃ t, exec i s = .next t ∧ LandsAs s t [] ∧ (caps ≠ [] → (t.core s.me.core).cb = []) ∧
        (s.coreRests → (∀ p ∈ caps, p.loc.dev = s.dev) →
        (∀ a, (∀ p ∈ caps, ¬ inRange p.loc.pa n a) → t.mem.read a = s.mem.read a) ∧
        (∀ pre p post, caps = pre ++ p :: post → ∀ j, j < n → (∀ q ∈ post, ¬ inRange q.loc.pa n (p.loc.pa + j)) →
          t.mem.read (p.loc.pa + j) = (storeBytes s.me m.r.toNat n p.lane).getD j 0))))

namespace Sys2Proof.Machine

/-- The lanes of an atomic performed one after the other, upward (R137): the state after them, and each lane's old value. -/
def atomRun (a : AtomA) : List Cap → State → State × List (Nat × Nat)
  | [], s => (s, [])
  | p :: ps, s =>
    let old := s.readVal p.loc.pa (atomN a.ty)
    let r := atomRun a ps (s.performRmw (atomRmw a p))
    (r.1, (p.lane, old) :: r.2)

end Sys2Proof.Machine

/-- R352, R353 and R137: at commit, with nothing of the core on its way, an atomic performs its captured lanes one after the other at their homes; the
form with return gives each lane the value it found, the form without return writes no register. Memory ends as the lanes leave it. The form without
return never waits for what is on its way: its lanes go behind it (R139, R155). -/
def Claims.AtomicsPerform : Prop :=
  ∀ (a : AtomA) (s : State), s.me.sett.phase = .effects → s.fenced = false →
    (∀ i ∈ [Instr.atomGlobalNoret a, .atomLocalNoret a, .atomYardNoret a], ∃ t, exec i s = .next t ∧ LandsAs s t []) ∧
    (s.coreRests → (∀ p ∈ s.me.caps, p.loc.dev = s.dev) → (∀ p ∈ s.me.caps, s.me.sett.answer p.slot p.lane = none) → (s.me.caps.map fun p => (p.slot, p.lane)).Nodup →
    (let r := atomRun a s.me.caps s
    (∀ i ∈ [Instr.atomGlobal a, .atomLocal a, .atomYard a], ∃ t, exec i s = .next t ∧ t.mem = r.1.mem ∧
      LandsAs s t (r.2.flatMap fun p => groupWrites a.r.toNat (atomN a.ty) p.1 p.2)) ∧
    (∀ i ∈ [Instr.atomGlobalNoret a, .atomLocalNoret a, .atomYardNoret a], ∃ t, exec i s = .next t ∧ t.mem = r.1.mem ∧ LandsAs s t [])))

/-- R352 and R153: one atomic on integers leaves its word with the operation's result of the old value and x (y for CAS), and no other byte changes. -/
def Claims.AtomicRule : Prop :=
  ∀ (s : State) (op : AtomOp) (t : AtomTy) (pa x y : Nat), op ≠ .addF32 → x < 2 ^ (8 * atomN t) → y < 2 ^ (8 * atomN t) →
    (let n := atomN t
    let old := s.readVal pa n
    let num := fun (v : Nat) => readInt (8 * n) (match t with
      | .i32 | .i64 => true
      | _ => false) v
    (s.rmwAt op (atomElem op t) pa x y).readVal pa n = (match op with
      | .add => (old + x) % 2 ^ (8 * n)
      | .min => if num x < num old then x else old
      | .max => if num old < num x then x else old
      | .and => old &&& x
      | .or => old ||| x
      | .xor => old ^^^ x
      | .xchg => x
      | .cas => if old = x then y else old
      | .addF32 => old) ∧
    ∀ a, ¬ inRange pa n a → (s.rmwAt op (atomElem op t) pa x y).mem.read a = s.mem.read a)

/-- R354, R143, R155 and R344: FENCE and FENCE.ENG wait before commit for the crew's counters; at commit, for a scope wider than .core, what the core
holds is sent and its L1 is gone, and holds stand for what their own sett issued and what is still on its way; registers stand, and memory where
nothing is on its way. -/
def Claims.Fences : Prop :=
  ∀ (g : Guard) (sc : Scope) (s : State),
    ∀ p ∈ [(Instr.fence g sc, false), (.fenceEng g sc, true)],
      (s.me.sett.phase = .exec → Captures p.1 s [] (if s.on g = [] then [] else [.fence p.2 (Scope.wide sc)])) ∧
      (s.me.sett.phase = .effects → s.on g = [] → ∃ t, exec p.1 s = .next t ∧ t.mem = s.mem ∧ LandsAs s t [] ∧ t.me.holds = s.me.holds) ∧
      (s.me.sett.phase = .effects → s.on g ≠ [] →
        ∃ t sent, exec p.1 s = .next t ∧ LandsAs s t [] ∧
          t.me.holds = s.me.holds ++ .ops .st (s.me.lastOn .st) :: ((if sent = [] then [] else [.sent sent]) ++ (if p.2 = true then
            [.ops .cp (s.me.lastOn .cp), .ops .mx (s.me.lastOn .mx), .ops .cl (s.me.lastOn .cl), .ops .tk (s.me.lastOn .tk), .fired] else [])) ∧
          (Scope.wide sc = true → (t.core s.me.core).l1 = [] ∧ (t.core s.me.core).cb = [] ∧
            ∀ r ∈ t.inflight, r.core = s.me.core → ∀ x ∈ r.tags, x ∈ sent) ∧
          (Scope.wide sc = false ∨ s.coreRests → sent = [] ∧ t.mem = s.mem) ∧ (Scope.wide sc = false → t.cores = s.cores))

/-- R355: PREF has transient 0, never traps on an address, and changes no register and no byte of memory. R358: FETCHB empties the crew's fetch
buffer. -/
def Claims.PrefetchAndFetchb : Prop :=
  ∀ (base index : Src) (off : BitVec 14) (g : Guard) (scale : BitVec 2) (s : State),
    (s.me.popTrap = false → ∀ i ∈ [Instr.prefL1 base index off g scale, .prefDc base index off g scale],
      ∃ t, exec i s = .next t ∧ t.mem = s.mem ∧ t.me.sett.wr = s.me.sett.wr ∧ t.me.sett.exc = s.me.sett.exc ∧ t.me.sett.stores = s.me.sett.stores ∧
        (∀ l, l < 32 → t.me.sett.trans.get (s.me.sett.slot * 32 + l) = 0) ∧ t = s.setMe { s.me with sett := t.me.sett }) ∧
    (s.me.sett.phase = .exec → Captures (.fetchb g) s [] []) ∧
    (s.me.sett.phase = .effects → ∃ t, exec (.fetchb g) s = .next t ∧ LandsAs s t [] ∧ t.mem = s.mem ∧
      t.me.fetch = if s.on g = [] then s.me.fetch else [])

/-- R344, R356 and R357: CWB, CINV and IINV capture the union of their guarded lanes' lines while the sett executes; a count above 65,536 raises BOUNDS. At
commit CINV drops those lines from the core's L1, as one complete ST operation; IINV drops them from the instruction caches of its scope, at once when
no CWB of the crew is on its way, else when the hold that it leaves has cleared; CWB sends the lines that the buffer holds. CWB and CINV change no
byte of memory. -/
def Claims.LineRanges : Prop :=
  ∀ (a : RangeA) (sc : Scope) (s : State),
    (s.me.sett.phase = .exec → s.me.popTrap = false →
      ∀ p ∈ [(Instr.cwb a, WaitKind.cap .st), (.cinv a, .cap .st), (.iinv a sc, .iinv)],
        (s.on a.g = [] → Captures p.1 s [] []) ∧
        (∀ ks, s.on a.g ≠ [] → rangeUnion s s.me s.cur a (s.on a.g) = (ks, none) →
          Captures p.1 s [⟨s.me.sett.slot, 0, noLoc, ks.map fun n => BitVec.ofNat 64 n⟩] [p.2]) ∧
        (∀ l r, s.on a.g = l :: r → 65536 < (s.src 1 a.n false l).toNat →
          Raises p.1 s cBounds (BitVec.ofInt 64 ((s.src 0 a.base true l).toNat + a.off.toInt)) l)) ∧
    (s.me.sett.phase = .effects → ∀ cap, s.me.caps = [cap] →
      (let keys := cap.args.map (·.toNat)
      (∃ t, exec (.cinv a) s = .next t ∧ LandsAs s t [] ∧ t.mem = s.mem ∧
        (t.core s.me.core).l1 = (s.core s.me.core).l1.filter fun e => !keys.contains (e.dev * 2 ^ 41 + e.line)) ∧
      (∃ t, exec (.iinv a sc) s = .next t ∧ LandsAs s t [] ∧
        let gone := fun (s t : State) => ∀ q, q ∈ iinvCores s.me.core sc →
          (t.core q).icache = (s.core q).icache.filter fun e => !keys.contains (e.dev * 2 ^ 41 + e.line)
        ((s.me.cwbs.any fun n => s.tagLive (s.cur, n)) = false → t.me.holds = s.me.holds ∧ t.mem = s.mem ∧ gone s t) ∧
        ((t.me.holds = s.me.holds ∧ gone s t) ∨ ∃ open' cores, open' ≠ [] ∧ cores = iinvCores s.me.core sc ∧
          t.me.holds = s.me.holds ++ [.iinv cores keys open'] ∧ ∀ u : State, gone u (u.endHold (.iinv cores keys open')) ∨ u.me.core ≠ s.me.core)) ∧
      (∃ t, exec (.cwb a) s = .next t ∧ LandsAs s t [] ∧ t.mem = s.mem ∧
        (t.core s.me.core).cb.all fun e => !keys.contains (e.dev * 2 ^ 41 + e.line))))

/-! ## Synchronisation (R145–R147, R171, R172, R361–R370) -/

namespace Sys2Proof.Machine

/-- A gang's barrier. -/
def State.bar (s : State) (g k : Nat) : Barrier := (s.gang g).bars.get k

end Sys2Proof.Machine

/-- R361, R362 and R219: while its sett executes a barrier instruction of a crew that is no member traps PROTECTION, and a member's keeps its wait. At
commit BAR.ARRIVE and BAR.SYNC arrive as R145 says: an arrival is counted, or held for the next phase when the crew has arrived in this one or joined
after it; the last one completes the phase. BAR.SYNC leaves its wait as a hold; BAR.WAIT changes nothing. -/
def Claims.Barriers : Prop :=
  ∀ (g : Guard) (k : BitVec 4) (s : State),
    (let n := k.toNat
    (s.me.sett.phase = .exec →
      ∀ p ∈ [(Instr.barArrive g k, WaitKind.barArrive n), (.barWait g k, .barWait n), (.barSync g k, .barArrive n)],
        (s.me.member = false → s.on g ≠ [] → Raises p.1 s cProtection 0 0) ∧
        (s.me.member = true ∨ s.on g = [] → Captures p.1 s [] (if s.on g = [] then [] else [p.2]))) ∧
    (s.me.sett.phase = .effects →
      (∃ t, exec (.barWait g k) s = .next t ∧ LandsAs s t [] ∧ t = s.setMe t.me ∧ t.me.bars = s.me.bars ∧ t.me.holds = s.me.holds) ∧
      (∀ p ∈ [(Instr.barArrive g k, false), (.barSync g k, true)],
        (s.on g = [] → ∃ t, exec p.1 s = .next t ∧ LandsAs s t [] ∧ t.gangs = s.gangs ∧ t.me.bars = s.me.bars ∧ t.me.holds = s.me.holds) ∧
        (s.on g ≠ [] → ((s.bar s.me.gang n).arrived : Int) < (s.bar s.me.gang n).members →
          (let b := s.bar s.me.gang n
          let c := s.me.bars.get n
          let late := c.first > b.phase ∨ c.arrivedIn = some b.phase
          ∃ t, exec p.1 s = .next t ∧ LandsAs s t [] ∧ t.mem = s.mem ∧ (∀ m, m ≠ n → t.bar s.me.gang m = s.bar s.me.gang m) ∧
            (late → t.bar s.me.gang n = { b with held := b.held + 1 } ∧ t.me.bars.get n = { c with holds := true }) ∧
            (¬ late → (b.arrived : Int) + 1 < b.members → t.bar s.me.gang n = { b with arrived := b.arrived + 1 }) ∧
            (¬ late → (b.arrived : Int) + 1 = b.members → b.held = 0 →
              t.bar s.me.gang n = { phase := b.phase + 1, members := b.members + b.delta, delta := 0, arrived := 0, held := 0 }) ∧
            (¬ late → c.holds = false → (t.me.bars.get n).arrivedIn = some b.phase) ∧
            (p.2 = false → t.me.holds = s.me.holds) ∧
            (p.2 = true → t.me.holds = s.me.holds ++ [.bar n b.phase (decide late)]))))))

/-- R363 and R146: CREW.JOIN of a member traps PROTECTION; at commit it makes the crew a member of every barrier from the phase after the one in
progress. R364 and R220: CREW.LEAVE of the only member writes 1 to d and changes nothing else; otherwise the crew ends, and its $crew value returns to
the gang's reserve. -/
def Claims.JoinAndLeave : Prop :=
  ∀ (g : Guard) (d : Dst) (s : State),
    (s.me.sett.phase = .exec →
      (s.me.member = true → s.on g ≠ [] → Raises (.crewJoin g) s cProtection 0 0) ∧
      (s.me.member = false ∨ s.on g = [] → Captures (.crewJoin g) s [] []) ∧
      Captures (.crewLeave d g) s [] (if s.on g = [] then [] else [.leave])) ∧
    (s.me.sett.phase = .effects →
      (s.on g = [] → (∃ t, exec (.crewJoin g) s = .next t ∧ LandsAs s t [] ∧ t.gangs = s.gangs ∧ t.me.member = s.me.member) ∧
        ∃ t, exec (.crewLeave d g) s = .next t ∧ LandsAs s t [] ∧ t.gangs = s.gangs) ∧
      (s.on g ≠ [] →
        (∃ t, exec (.crewJoin g) s = .next t ∧ LandsAs s t [] ∧ t.mem = s.mem ∧ t.me.member = true ∧ ∀ k, k < 16 →
          t.me.bars.get k = { first := (s.bar s.me.gang k).phase + 1, arrivedIn := none, holds := false } ∧
          t.bar s.me.gang k = { s.bar s.me.gang k with delta := (s.bar s.me.gang k).delta + 1 }) ∧
        (s.me.member = true → s.memberCount s.me.gang = 1 →
          ∃ t, exec (.crewLeave d g) s = .next t ∧ LandsAs s t (uniWrites s.me g d false 1) ∧ t = s.setMe t.me) ∧
        ((s.me.member = false ∨ s.memberCount s.me.gang ≠ 1) → s.endRoom s.cur = true →
          ∃ t, exec (.crewLeave d g) s = .next t ∧ t.mem = s.mem ∧ t.crew s.cur = default ∧
            ((t.gang s.me.gang).crews.cells ≠ [] → s.me.idx ∈ (t.gang s.me.gang).reserve))))

/-- R365: CREW.QUERY gives $press, CREW.QUERY.GANG the gang's word, field by field. -/
def Claims.CrewQueries : Prop :=
  ∀ (d : Dst) (g : Guard),
    Computes (.crewQuery d g) g d false false (fun s _ v => v = pressWord (s.core s.me.core)) ∧
    Computes (.crewQueryGang d g) g d false false (fun s _ v =>
      let gang := s.gang s.me.gang
      let members := ((gang.crews.vals).filter fun k => (s.crew k).member).length
      v.toNat < 2 ^ 32 ∧ v.getLsbD 31 = s.me.member ∧ bitsOf v 22 9 = 0 ∧ bitsOf v 16 6 = gang.reserve.length % 64 ∧ bitsOf v 14 2 = 0 ∧
      bitsOf v 8 6 = (gang.crews.vals.length - members) % 64 ∧ bitsOf v 6 2 = 0 ∧ bitsOf v 0 6 = members % 64)

/-- R367 and R274: QPUSH reads its value at sett start and its entry joins those the sett pushes; QPOP's reserved entry lands in d, as 64 bits.
R368: WAITC waits before commit for a counter at or below its threshold, and for nothing at a threshold of the cap or above. -/
def Claims.QueuesAndWaitc : Prop :=
  ∀ (g : Guard) (a : Src) (n : BitVec 4) (d : Dst) (p : Path6) (s : State),
    (let slot := s.me.sett.slot
    (s.me.sett.phase = .exec → s.me.popTrap = false →
      (s.on g = [] → Captures (.qpush g a n) s [] [] ∧ Captures (.waitc g a p) s [] []) ∧
      (s.on g ≠ [] → Captures (.qpush g a n) s [⟨slot, 0, noLoc, [s.src 0 a true ((s.on g).headD 0)]⟩] [] ∧
        (let v := s.src 0 a false ((s.on g).headD 0)
        Captures (.waitc g a p) s [⟨slot, 0, noLoc, [v]⟩] (if pathCap p ≤ v.toNat then [] else [.waitc p v.toNat]))) ∧
      Captures (.qpop d g n) s [] []) ∧
    (s.me.sett.phase = .effects →
      (∀ c, s.me.caps = [c] → ∃ t, exec (.qpush g a n) s = .next t ∧ t = s.setMe { s.me with
        stall := 0, sett := Sett.advance { s.me.sett with pushed := s.me.sett.pushed ++ [(n.toNat, c.args.headD 0)] } }) ∧
      (s.me.caps = [] → ∃ t, exec (.qpush g a n) s = .next t ∧ LandsAs s t [] ∧ t = s.setMe t.me) ∧
      (∃ t, exec (.qpop d g n) s = .next t ∧ t = s.setMe t.me ∧
        LandsAs s t (uniWrites s.me g d true (s.me.sett.pops.get (slot * 4 + 3)))) ∧
      (∃ t, exec (.waitc g a p) s = .next t ∧ t = s.setMe t.me ∧ LandsAs s t [])))

/-- R369: MON.ARM checks its address as a load of 8 bytes and at commit sets the monitor and drops the crew's registration. R370 and R172: WAIT.STAMP on
an unarmed monitor traps PROTECTION; otherwise it waits before commit on the stamp's word and writes the observed word to d, as an acquire at the
monitor's scope. -/
def Claims.Monitors : Prop :=
  ∀ (g : Guard) (a v : Src) (sp : Space3) (sc : Scope) (k : BitVec 2) (d : Dst) (cmp : StampCmp) (s : State),
    (let slot := s.me.sett.slot
    let addr := s.src 0 a true ((s.on g).headD 0)
    let m := s.me.mons.get k.toNat
    (s.me.sett.phase = .exec → s.me.popTrap = false →
      (s.on g = [] → Captures (.monArm g a sp sc k) s [] [] ∧ Captures (.waitStamp d g v cmp k) s [] []) ∧
      (s.on g ≠ [] →
        (∀ cause x, monCheck s s.me sp addr = .bad cause x → Raises (.monArm g a sp sc k) s cause x 0) ∧
        (∀ x, monCheck s s.me sp addr = .ok x → Captures (.monArm g a sp sc k) s [⟨slot, 0, noLoc, [addr]⟩] []) ∧
        (m.armed = false → Raises (.waitStamp d g v cmp k) s cProtection 0 0) ∧
        (∀ x, m.armed = true → monLoc s s.me m = .ok x → Captures (.waitStamp d g v cmp k) s [⟨slot, 0, x, [BitVec.ofNat 64 m.scope]⟩]
          [.stamp k.toNat cmp (bitsOf (s.src 0 v true ((s.on g).headD 0)) 0 56) x]))) ∧
    (s.me.sett.phase = .effects →
      (s.me.caps = [] → (∃ t, exec (.monArm g a sp sc k) s = .next t ∧ LandsAs s t [] ∧ t.regs = s.regs) ∧
        ∃ t, exec (.waitStamp d g v cmp k) s = .next t ∧ LandsAs s t [] ∧ t.cores = s.cores) ∧
      (∀ c, s.me.caps = [c] →
        (∃ t, exec (.monArm g a sp sc k) s = .next t ∧ LandsAs s t [] ∧ t.mem = s.mem ∧ t.regs = s.regs.filter (fun r => r.crew != s.cur) ∧
          t.me.mons.get k.toNat = { armed := true, space := spaceNo sp, scope := (Scope.code sc).toNat
                                    addr := if sp = .global then c.args.headD 0 else ((c.args.headD 0).setWidth 32).setWidth 64 } ∧
          ∀ j, j ≠ k.toNat → t.me.mons.get j = s.me.mons.get j) ∧
        (∃ t, exec (.waitStamp d g v cmp k) s = .next t ∧ LandsAs s t (uniWrites s.me g d true (s.me.sett.stValue.get slot)) ∧ t.mem = s.mem ∧
          (3 ≤ (c.args.headD 0).toNat → (t.core s.me.core).l1 = [])))))

namespace Sys2Proof.Machine

/-- Every slot of crew k's sett has run and nothing keeps it from its commit but its conditions (R200, R112, R293, R338). -/
structure State.SettRan (s : State) (k : Nat) : Prop where
  phase : (s.crew k).sett.phase = .exec
  atEnd : (s.crew k).sett.nslots ≤ (s.crew k).sett.slot
  clear : (s.crew k).sett.exc = none
  returned : (s.crew k).sett.sfuPend = []
  flags : (s.crew k).fpTrap = none
  falls : (s.crew k).sett.ctlInstr = none → s.checkTarget k (s.crew k).level false (s.crew k).sett.fall = .ok

end Sys2Proof.Machine

/-- R171 and R172: a waiter whose registered stamp was written, or whose poll comes round, reads the stamp again: its sett commits when the comparison
holds or the status is not OK, and otherwise the waiter is registered (while its home has room) and stays where it is. -/
def Claims.StampWaits : Prop :=
  ∀ (s : State) (k slot mon v : Nat) (cmp : StampCmp) (x : Loc), s.SettRan k → (s.crew k).sett.waits = [⟨slot, .stamp mon cmp v x⟩] →
    x.dev = s.dev → s.holdsLines (s.crew k).core x.dev x.pa 8 = false → ((s.crew k).inTrap = true ∨ (s.crew k).otherReady = false) →
    (let w := s.read64 x.pa
    ∀ i ∈ (if s.regs.any fun r => r.crew == k then (if s.regs.any fun r => r.crew == k && r.written then [Instr.stampMonitorWake k] else [])
        else [.stampPollTimer k]),
      ∃ t, exec i s = .next t ∧
        ((bitsOf w 56 8 ≠ 0 ∨ stampHolds cmp (bitsOf w 0 56) v = true) →
          (t.crew k).sett.phase = .effects ∧ (t.crew k).stall = 0 ∧ (t.crew k).sett.stValue.get slot = w) ∧
        (bitsOf w 56 8 = 0 → stampHolds cmp (bitsOf w 0 56) v = false →
          (t.crew k).sett.phase = .exec ∧ (t.crew k).stall = stStamp ∧ t.mem = s.mem ∧
          ((s.regs.filter fun r => !(r.crew == k && r.pa == x.pa) && r.home == homeOf x.pa).length < 64 →
            ∃ r ∈ t.regs, r.crew = k ∧ r.pa = x.pa ∧ r.written = false)))

/-! ## Engine issue, tiles, templates, shapes (R165, R174, R177, R181, R374–R388) -/

namespace Sys2Proof.Machine

/-- The core holds nothing on its way: a release at its engine issue performs at once (R139, R155). -/
def State.coreClear (s : State) : Prop := (s.core s.me.core).cb = [] ∧ s.coreBusy s.me.core = false

/-- At commit an engine issue puts one operation at the end of its queue, with the crew's context; a counted one counts. No register, tile or byte
of memory changes. -/
def Enqueues (i : Instr) (s : State) (u : EngUnit) (path : Option Path6) (P : State → EngineOp → Prop) : Prop :=
  ∃ t o, exec i s = .next t ∧ LandsAs s t [] ∧ t.mem = s.mem ∧ t.nextOp = s.nextOp + 1 ∧ t.ops.get s.nextOp = o ∧
    (∀ n, n ≠ s.nextOp → t.ops.get n = s.ops.get n) ∧
    t.queues.get (engKey s.me.core u) = s.queues.get (engKey s.me.core u) ++ [s.nextOp] ∧
    (∀ p, path ≠ some p → t.me.counter p = s.me.counter p) ∧
    (∀ p, path = some p → (s.me.ctr.get (pathNo p)).done ≤ (s.me.ctr.get (pathNo p)).issued → t.me.counter p = s.me.counter p + 1) ∧
    o.live = true ∧ o.stage = .issued ∧ o.crew = s.cur ∧ o.gang = s.me.gang ∧ o.core = s.me.core ∧ o.part = s.me.part ∧ o.level = s.me.level ∧
    o.path = path ∧ opEngine o.kind = u ∧ P t o

/-- The tile an operation on accumulator name n goes to: the one its name is bound to, which `fresh` replaces by one chosen later (R375, R377). -/
def tileOf (s t : State) (fresh : Bool) (n : Nat) (o : EngineOp) : Prop :=
  (t.gang s.me.gang).acc.get n = some o.tile ∧
  o.tile = (match (s.gang s.me.gang).acc.get n with
    | some x => if fresh then tilesPerCore + s.nextOp else x
    | none => tilesPerCore + s.nextOp)

end Sys2Proof.Machine

/-- R371, R372, R380, R381, R385 and R388 while the sett executes: an engine issue checks its operands and keeps what it needs; it then waits for room
in its engine's queue (R374) and, when counted, below its counter's cap (R174). A failing check raises its own cause. -/
def Claims.EngineIssueChecks : Prop :=
  ∀ (g : Guard) (n : BitVec 3) (oa ob da db : BitVec 4) (sn : BitVec 6) (ta tb : ElemTy) (ka kb sat : Bool) (a : Src) (rm : Rnd) (ck : CollKind)
    (co : CollOp) (s : State), s.me.sett.phase = .exec → s.me.popTrap = false → s.on g ≠ [] →
    (let slot := s.me.sett.slot
    let x := s.src 0 a true ((s.on g).headD 0)
    let keeps := fun (i : Instr) (args : List DWord) (u : EngUnit) (p : Option Path6) =>
      Captures i s [⟨slot, 0, noLoc, args⟩] (.engine u :: (match p with
        | some q => [.cap q]
        | none => []))
    let copyStamp := targetBad (s.me.sreg (sn.toNat + 2)) 8 true
    (∀ i ∈ [Instr.accNew g n, .accZero g n], keeps i [] .matrix none) ∧
    (let kd := bitsOf x 0 16
    let fits := fun (t : ElemTy) (o : BitVec 4) => ∃ u, s.obUnit s.me.gang o.toNat = some u ∧ mmaBytes (ElemTy.code t).toNat kd ≤ u
    let ok := kd % 16 = 0 ∧ 16 ≤ kd ∧ kd ≤ 4096 ∧ bitsOf x 16 48 = 0 ∧ fits ta oa ∧ fits tb ob
    (ok → keeps (.mma g ta tb ka kb n oa ob a) [x] .matrix (some .mx)) ∧
    (¬ ok → Raises (.mma g ta tb ka kb n oa ob a) s cShape 0 0)) ∧
    (∀ p ∈ [(Instr.accLd g n da a, some [0x10, 0x06, 0x02, 0x11, 0x12]), (.accSt g n da a rm sat, some [0x10, 0x06, 0x02, 0x11, 0x12, 0x13, 0x14]),
        (.tld g oa da a, none)], ∀ tab, s.tableOf s.me (s.me.drec da.toNat) = .ok tab →
      (let r := s.me.drec da.toNat
      let y := shapeOf r tab
      let form := match p.2 with
        | some ts => y.boxes = [64, 64] ∧ y.etype ∈ ts
        | none => ∃ u, s.obUnit s.me.gang oa.toNat = some u ∧ y.tileBytes ≤ u
      (shapeStatus r tab ≠ 0 → Raises p.1 s cShape (BitVec.ofNat 64 (shapeStatus r tab)) 0) ∧
      (shapeStatus r tab = 0 → ¬ form → Raises p.1 s cShape 0 0) ∧
      (shapeStatus r tab = 0 → form → y.outside x = true → Raises p.1 s cBounds 0 0) ∧
      (shapeStatus r tab = 0 → form → y.outside x = false → keeps p.1 (x :: tab.map fun b => b.setWidth 64) .matrix (some .mx)))) ∧
    (copyStamp = none → keeps (.copy g da db sn) [] .copy (some .cp)) ∧
    (copyStamp = none → verBad (s.me.sreg (sn.toNat + 4)) = none → keeps (.copyCond g da db sn) [] .copy (some .cp)) ∧
    (∀ e, copyStamp = some e → ∀ i ∈ [Instr.copy g da db sn, .copyCond g da db sn], Raises i s e.1 e.2 0) ∧
    (∀ e, copyStamp = none → verBad (s.me.sreg (sn.toNat + 4)) = some e → Raises (.copyCond g da db sn) s e.1 e.2 0) ∧
    ((2 ^ 56 ≤ x.toNat → Raises (.copyMc g da a) s cProtection x 0) ∧ (x.toNat < 2 ^ 56 → x.toNat % 64 ≠ 0 → Raises (.copyMc g da a) s cAlign x 0) ∧
      (x.toNat < 2 ^ 56 → x.toNat % 64 = 0 → keeps (.copyMc g da a) [x] .copy (some .cp))) ∧
    (let grp := s.collGroup s.me.part (bitsOf (s.me.sreg sn.toNat) 0 16)
    let st := targetBad (s.me.sreg (sn.toNat + 1)) 8 false
    (grp = none → Raises (.coll g ck co ta da db sn) s cProtection 0 0) ∧
    (∀ devs, grp = some devs → (if ck = .bcast ∧ bitsOf (s.me.sreg sn.toNat) 16 4 ≥ devs.length then Raises (.coll g ck co ta da db sn) s cProtection 0 0
      else match st with
        | some e => Raises (.coll g ck co ta da db sn) s e.1 e.2 0
        | none => keeps (.coll g ck co ta da db sn) [] .coll (some .cl)))))

/-- R165, R166, R174, R375–R380, R385–R388 at commit: each engine issue enters one operation, which holds its operands as they stood. ACC.NEW and
ACC.ZERO count on no path. -/
def Claims.EngineIssueCommits : Prop :=
  ∀ (g : Guard) (n : BitVec 3) (oa ob da db : BitVec 4) (sn : BitVec 6) (ta tb : ElemTy) (ka kb sat : Bool) (a : Src) (rm : Rnd) (ck : CollKind)
    (co : CollOp) (s : State) (cap : Cap), s.me.sett.phase = .effects → s.me.caps = [cap] → s.coreClear →
    (let r := fun (i : Nat) => s.me.sreg (sn.toNat + i)
    let code := fun (t : ElemTy) => (ElemTy.code t).toNat
    Enqueues (.accNew g n) s .matrix none (fun t o => o.kind = .accNew ∧ tileOf s t true n.toNat o) ∧
    Enqueues (.accZero g n) s .matrix none (fun t o => o.kind = .accZero ∧ tileOf s t false n.toNat o) ∧
    Enqueues (.mma g ta tb ka kb n oa ob a) s .matrix (some .mx) (fun t o => o.kind = .mma ∧ tileOf s t false n.toNat o ∧ o.ta = code ta ∧
      o.tb = code tb ∧ o.ka = ka ∧ o.kb = kb ∧ o.oba = oa.toNat ∧ o.obb = ob.toNat ∧ o.kd = bitsOf (cap.args.headD 0) 0 16) ∧
    Enqueues (.accLd g n da a) s .matrix (some .mx) (fun t o => o.kind = .accLd ∧ tileOf s t false n.toNat o ∧ o.recS = s.me.drec da.toNat ∧
      o.orgS = cap.args.headD 0) ∧
    Enqueues (.accSt g n da a rm sat) s .matrix (some .mx) (fun t o => o.kind = .accSt ∧ tileOf s t false n.toNat o ∧ o.recS = s.me.drec da.toNat ∧
      o.orgS = cap.args.headD 0 ∧ rmOf o.rm = rm ∧ o.sat = sat) ∧
    Enqueues (.tld g oa da a) s .matrix (some .mx) (fun _ o => o.kind = .tld ∧ o.oba = oa.toNat ∧ o.recS = s.me.drec da.toNat ∧
      o.orgS = cap.args.headD 0) ∧
    (∀ p ∈ [(Instr.copy g da db sn, OpKind.copy), (.copyCond g da db sn, .cond)], Enqueues p.1 s .copy (some .cp) (fun _ o =>
      o.kind = p.2 ∧ o.recS = s.me.drec da.toNat ∧ o.recD = s.me.drec db.toNat ∧ o.orgS = r 0 ∧ o.orgD = r 1 ∧ o.stamp = r 2 ∧ o.value = r 3 ∧
      (p.2 = .cond → o.ver = r 4 ∧ o.expect = r 5 ∧ o.next = r 6))) ∧
    Enqueues (.copyMc g da a) s .copy (some .cp) (fun _ o => o.kind = .mc ∧ o.recS = s.me.drec da.toNat ∧ o.args = cap.args) ∧
    Enqueues (.coll g ck co ta da db sn) s .coll (some .cl) (fun _ o => o.kind = .coll ∧ o.recS = s.me.drec da.toNat ∧ o.recD = s.me.drec db.toNat ∧
      o.tile = bitsOf (r 0) 0 16 ∧ o.rm = bitsOf (r 0) 16 4 ∧ o.oba = kindCode ck ∧ o.obb = collOpCode co ∧ o.ta = code ta ∧ o.stamp = r 1 ∧
      o.value = r 2))

/-- R386 and R183: COPY.ARM and COPY.DISARM at commit: the status says whether the slot or the queue is another gang's; status 0 fills the slot with
its firing count at 0, or disarms it. R384: SHAPE.MAKE writes Da only for a valid record and its status to e. R383: ACC.RD reads the word of the
tile bound at sett start. A reading of the model in it: log 39. -/
def Obligations.TemplatesShapesAndReads : Prop :=
  ∀ (g : Guard) (da db : BitVec 4) (sn : BitVec 6) (e : Dst) (slot : BitVec 4) (n : BitVec 3) (p : Src) (strict : Bool) (s : State),
    (let c := s.me
    let k := slot.toNat
    let core := s.core c.core
    (c.sett.phase = .exec → s.on g ≠ [] →
      (targetBad (c.sreg (sn.toNat + 2)) 8 false = none → Captures (.copyArm g da db sn e slot) s [] []) ∧
      (∀ x, targetBad (c.sreg (sn.toNat + 2)) 8 false = some x → Raises (.copyArm g da db sn e slot) s x.1 x.2 0) ∧
      Captures (.copyDisarm g e slot) s [] []) ∧
    (c.sett.phase = .effects → s.on g ≠ [] →
      (let w := c.sreg (sn.toNat + 3)
      let q := bitsOf w 60 4
      let st := if (core.templates.get k).armed = true ∧ (core.templates.get k).gang ≠ c.gang then 1
        else if (∃ t ∈ core.templates.vals, t.armed = true ∧ t.queue = q ∧ t.gang ≠ c.gang) ∨ s.qinQueue c.core q = true then 2 else 0
      ∃ t, exec (.copyArm g da db sn e slot) s = .next t ∧ LandsAs s t (uniWrites c g e false (BitVec.ofNat 64 st)) ∧ t.mem = s.mem ∧
        (st ≠ 0 → t.cores = s.cores) ∧
        (st = 0 → (t.core c.core).templates.get k = {
          armed := true, gang := c.gang, crew := s.cur, level := c.level, src := c.drec da.toNat, dst := c.drec db.toNat, sstep := c.sreg sn.toNat
          dstep := c.sreg (sn.toNat + 1), target := c.sreg (sn.toNat + 2), base := bitsOf w 0 56, fired := 0, stamped := 0, queue := q })) ∧
      (let held := (core.templates.get k).armed = true ∧ (core.templates.get k).gang ≠ c.gang
      ∃ t, exec (.copyDisarm g e slot) s = .next t ∧ t.mem = s.mem ∧
        (held → LandsAs s t (uniWrites c g e false 1) ∧ t.cores = s.cores) ∧
        (¬ held → LandsAs s t (uniWrites c g e false 0) ∧ ((t.core c.core).templates.get k).armed = false))) ∧
    (s.on g ≠ [] → ∀ tab, s.tableOf c (c.blockRec sn.toNat) = .ok tab →
      (let st := shapeStatus (c.blockRec sn.toNat) tab
      (strict = true → st ≠ 0 → Raises (.shapeMake g da sn e strict) s cShape (BitVec.ofNat 64 st) 0) ∧
      ((strict = false ∨ st = 0) → ∃ t, exec (.shapeMake g da sn e strict) s = .next t ∧ t.mem = s.mem ∧
        t.me.sett.wr = s.me.sett.wr ++ (if st = 0 then (List.range 4).map fun w => Wr.d (4 * da.toNat + w) (c.sreg (sn.toNat + w)) else []) ++
          uniWrites c g e false (BitVec.ofNat 64 st)))) ∧
    (c.popTrap = false →
      (let pos := fun (l : Nat) => bitsOf (s.src 0 p false l) 0 6 * 64 + bitsOf (s.src 0 p false l) 6 6
      (∀ x, (s.gang c.gang).acc.get n.toNat = some x → s.tileBusy c.core x = false → (∀ l ∈ s.on g, pos l ∉ (core.tiles.get x).poison) →
        ∃ t, exec (.accRd g n p e) s = .next t ∧
          Lands s t g e false false (fun l => ((core.tiles.get x).words.get (pos l)).setWidth 64) ∧ t.mem = s.mem ∧ t.me.sett.exc = s.me.sett.exc) ∧
      ((s.gang c.gang).acc.get n.toNat = none → ∃ t, exec (.accRd g n p e) s = .next t ∧ Lands s t g e false false (fun _ => 0) ∧
        t.me.sett.exc = s.me.sett.exc))))

/-! ## Token instructions (R390–R396) -/

namespace Sys2Proof.Machine

/-- The bits of a record's field, right-aligned (R208, R391). -/
def recBits (b : BitVec 1024) (hi lo : Nat) : Nat := b.toNat / 2 ^ lo % 2 ^ (hi + 1 - lo)

end Sys2Proof.Machine

/-- R391, R392 and R52: TOK.LOAD gives each guarded lane its record's field, right-aligned and zero-extended; a handle that fails R52 traps PROTECTION.
TOK.HDR gives the row header of the gang, 0 for a row it does not have. -/
def Claims.TokenReads : Prop :=
  ∀ (d : Dst) (g : Guard) (f : TokField) (h sel : Src) (o : Ops1),
    (∀ s : State, s.me.popTrap = false →
      (let hd := fun (l : Nat) => (s.src 0 h false l).setWidth 32
      ((∀ l ∈ s.on g, s.tokLive (hd l) = true ∧ (s.pool.get (tokKey (hd l))).poison = []) →
        ∃ t, exec (.tokLoad d g f h sel) s = .next t ∧ SlotEnds s t ∧
          (let v := fun (l : Nat) =>
            let b := s.tok (hd l)
            BitVec.ofNat 64 (match f with
              | .kind => recBits b 23 22
              | .pos => recBits b 183 160
              | .sslot => recBits b 541 528
              | .chunk => recBits b 523 512
              | .mflags => recBits b 527 524
              | .parent => recBits b 255 224
              | .kvh => recBits b 159 128
              | .nextop => recBits b 31 24
              | .epoch => recBits b 223 192
              | .topk => recBits b 511 496
              | .temp => recBits b 447 416
              | .topp => recBits b 415 384
              | .sseed => recBits b 479 448
              | .lentHeld => recBits b 15 14
              | .uflags => recBits b 7 0
              | .seqid => recBits b 127 64
              | .hidden => recBits b 311 256
              | .feat => recBits b 383 320
              | .summary => recBits b 639 576
              | .user =>
                let w := (s.src 1 sel true l).toNat % 8
                if w < 6 then recBits b (640 + 64 * w + 63) (640 + 64 * w) else 0)
          Lands s t g d f.wide false v ∧ Yields s t g d f.wide false v)) ∧
      (∀ l, l ∈ s.on g → s.tokLive (hd l) = false → (∀ k ∈ s.on g, k < l → s.tokLive (hd k) = true ∧ (s.pool.get (tokKey (hd k))).poison = []) →
        Raises (.tokLoad d g f h sel) s cProtection ((hd l).setWidth 64) l))) ∧
    Computes (.tokHdr o) o.g o.d true false (fun s l v =>
      let rows := (s.gang s.me.gang).rows
      v = match rows[(s.src 0 o.a false l).toNat % 64]? with
        | some r => r.hdr
        | none => 0)

namespace Sys2Proof.Machine

/-- A handle and, where one is named, a control word pass R52 and R393. -/
def State.tokOk (s : State) (h : Word) (ctl : Option Word) : Prop :=
  s.tokLive h = true ∧ ∀ c, ctl = some c → bitsOf c 17 15 = 0 ∧ bitsOf c 8 4 ∈ s.domain

end Sys2Proof.Machine

/-- R394–R396 while the sett executes: TOK.SEND, TOK.RETIRE and TOK.SPAWN check handle and control word, handle first, and keep their operands. At
commit TOK.RETIRE frees an unreleased row, whose generation advances, and gives 0, or 3 for anything else; TOK.SEND and TOK.SPAWN are one TK
operation: a lane whose handle is no unreleased row gets 3, and a pool without a free record gives TOK.SPAWN the status 4 and handle 0. -/
def Claims.TokenSends : Prop :=
  ∀ (o1 : Ops1) (o3 : Ops3) (s : State),
    (let h := fun (l : Nat) => (s.src 0 o3.a false l).setWidth 32
    let ctl := fun (l : Nat) => (s.src 2 o3.c false l).setWidth 32
    (s.me.sett.phase = .exec →
      (s.me.popTrap = false → (∀ l ∈ s.on o3.g, s.tokOk (h l) (some (ctl l))) →
        ∃ t, exec (.tokSend o3) s = .next t ∧ t.mem = s.mem ∧ t.me.sett.caps = s.me.sett.caps ++ (s.on o3.g).map (fun l =>
          ⟨s.me.sett.slot, l, ⟨.token, 0, s.dev, tokKey (h l), 2⟩, [s.src 0 o3.a true l, s.src 1 o3.b true l, s.src 2 o3.c true l]⟩)) ∧
      (s.me.popTrap = false → ∀ l ∈ s.on o3.g, (∀ k ∈ s.on o3.g, k < l → s.tokOk (h k) (some (ctl k))) →
        (s.tokLive (h l) = false → Raises (.tokSend o3) s cProtection ((h l).setWidth 64) l) ∧
        (s.tokLive (h l) = true → ¬ s.tokOk (h l) (some (ctl l)) → Raises (.tokSend o3) s cProtection ((ctl l).setWidth 64) l)) ∧
      (s.me.popTrap = false → (∀ l ∈ s.on o1.g, s.tokLive ((s.src 0 o1.a false l).setWidth 32) = true) →
        ∃ t, exec (.tokRetire o1) s = .next t ∧ t.mem = s.mem ∧ t.me.sett.caps.map (fun c => (c.slot, c.lane)) =
          s.me.sett.caps.map (fun c => (c.slot, c.lane)) ++ (s.on o1.g).map fun l => (s.me.sett.slot, l)) ∧
      (s.me.popTrap = false → ∀ l r, s.on o3.g = l :: r → (s.src 0 o3.a true l).toNat < 2 ^ 56 → (s.src 0 o3.a true l).toNat % 128 ≠ 0 →
        Raises (.tokSpawn o3) s cAlign (s.src 0 o3.a true l) l) ∧
      (s.me.popTrap = false → ∀ (x : Nat → Loc) (bs : Nat → List Byte),
        (∀ l ∈ s.on o3.g, s.withCtl (ctl l) (withFarPoison s s.me 128 l (withPoison s s.me 128 (s.resGlobal s.me s.cur .load (s.src 0 o3.a true l).toNat 128))) = .ok (x l) ∧
          s.loadBytes s.me s.me.sett.slot l (x l) 128 = some (bs l)) →
        ∃ t, exec (.tokSpawn o3) s = .next t ∧ t.mem = s.mem ∧ t.me.sett.caps = s.me.sett.caps ++ (s.on o3.g).map (fun l =>
          ⟨s.me.sett.slot, l, x l, s.src 1 o3.b true l :: s.src 2 o3.c true l :: (List.range 16).map (lineWord (bs l))⟩))) ∧
    (s.me.sett.phase = .effects → ∀ cap, s.me.caps = [cap] →
      (let k := (cap.args.getD 0 0).setWidth 32
      let row := ∃ r ∈ (s.gang s.me.gang).rows, r.handle = k ∧ r.released = false
      let slot := s.pool.get (tokKey k)
      (∃ t, exec (.tokRetire o1) s = .next t ∧ t.mem = s.mem ∧
        (row → LandsAs s t (dstWrites o1.d false false [(cap.lane, 0)]) ∧ (t.pool.get (tokKey k)).used = false ∧
          (t.pool.get (tokKey k)).gen = (if slot.genNow ≥ 15 then 1 else slot.genNow + 1) ∧
          (∀ r ∈ (t.gang s.me.gang).rows, r.handle = k → r.released = true)) ∧
        (¬ row → LandsAs s t (dstWrites o1.d false false [(cap.lane, 3)]) ∧ t.pool = s.pool)) ∧
      (s.coreClear → ¬ row → ∃ t, exec (.tokSend o3) s = .next t ∧ t.mem = s.mem ∧ t.pool = s.pool ∧
        LandsAs s t (dstWrites o3.d false false [(cap.lane, 3)])) ∧
      (s.coreClear → s.freeSlot (dieOf s.me.core) = none → ∃ t, exec (.tokSpawn o3) s = .next t ∧ t.mem = s.mem ∧ t.pool = s.pool ∧
        LandsAs s t (dstWrites o3.d true false [(cap.lane, BitVec.ofNat 64 (4 * 2 ^ 32))])) ∧
      (s.coreClear → row → ctlDev ((cap.args.getD 2 0).setWidth 32) = s.dev →
        s.placeAt (ctlOpn ((cap.args.getD 2 0).setWidth 32) / 64) (ctlOpn ((cap.args.getD 2 0).setWidth 32) % 64)
          (tokKey k / poolSlots != ctlOpn ((cap.args.getD 2 0).setWidth 32) / 64) = none →
        ∃ t, exec (.tokSend o3) s = .next t ∧ t.pool = s.pool ∧ t.gangs = s.gangs ∧ LandsAs s t (dstWrites o3.d false false [(cap.lane, 2)])) ∧
      (∀ spill, s.coreClear → row → ctlDev ((cap.args.getD 2 0).setWidth 32) = s.dev →
        s.placeAt (ctlOpn ((cap.args.getD 2 0).setWidth 32) / 64) (ctlOpn ((cap.args.getD 2 0).setWidth 32) % 64)
          (tokKey k / poolSlots != ctlOpn ((cap.args.getD 2 0).setWidth 32) / 64) = some spill →
        ∃ t, exec (.tokSend o3) s = .next t ∧ LandsAs s t (dstWrites o3.d false false [(cap.lane, if spill then 1 else 0)]) ∧
          (∀ r ∈ (t.gang s.me.gang).rows, r.handle = k → r.released = true) ∧
          (t.pool.get (tokKey k)).bits = (sendEdits ((cap.args.getD 2 0).setWidth 32) slot).bits) ∧
      (∀ i spill, s.coreClear → s.freeSlot (dieOf s.me.core) = some i →
        (let c := (cap.args.getD 1 0).setWidth 32
        ctlDev c = s.dev → ctlOpn c / 64 = dieOf s.me.core → s.placeAt (ctlOpn c / 64) (ctlOpn c % 64) false = some spill →
        (let hd := s.handleOf (dieOf s.me.core) i
        ∃ t, exec (.tokSpawn o3) s = .next t ∧ t.mem = s.mem ∧
          LandsAs s t (dstWrites o3.d true false [(cap.lane, BitVec.ofNat 64 ((if spill then 2 ^ 32 else 0) + hd.toNat))]) ∧
          (t.pool.get (dieOf s.me.core * poolSlots + i)).used = true ∧ rcHandle (t.pool.get (dieOf s.me.core * poolSlots + i)).bits = hd))))))

/-! ## System registers and survey (R34–R39, R49, R91, R401–R411, R436, R443, R481) -/

namespace Sys2Proof.Machine

/-- What a system register reads after crew k wrote v to it (R10, R34, R39, R48, R49, R91, R403, R436, R443): reserved bits read zero, read-only
registers keep their value, and values a register does not take are ignored. -/
def State.readsAfter (s : State) (k : Nat) (r : SysReg) (v : DWord) : DWord :=
  let old := s.sysRead k r
  let c := s.crew k
  match r with
  | .xlatInv | .fqResume | .submit => 0
  | .xlatStat | .privLimit | .carPeriod | .submitSt => old
  | .kvdescBase => if bitsOf v 56 8 > 24 then old else v &&& 0xFF00FFFFFFFFFFE0
  | .ptRoot => if paDev (pteAddr v) = s.dev then v &&& 0x000FFFFFFFFFFF01 else old
  | .privRoot => v &&& 0x0000FFFFFFFFFF00
  | .privHwm => BitVec.ofNat 64 (min (bitsOf v 0 17) (bitsOf c.privLimit 0 17))
  | .memerr => 0
  | .trPc | .trVec => v &&& 0x00FFFFFFFFFFFFFF
  | .trCause => v &&& 0xFFFFFFFFFFFFC0FF
  | .trAddr | .trS0 | .trS1 => v
  | .wdog => v &&& 0x00000000FFFFFFFF
  | .frRing => if bitsOf v 59 5 = 0 ∨ (4 ≤ bitsOf v 59 5 ∧ bitsOf v 59 5 ≤ 16) then v &&& 0xF8FFFFFFFFFFF000 else old
  | .frStamp => v &&& 0x00FFFFFFFFFFFFF8
  | .frRead => if v.toNat < old.toNat ∨ (s.part c.part).frSeq < v.toNat then old else v

end Sys2Proof.Machine

/-- R403, R10: SYSR gives every guarded lane the register's 64 bits. SYSW reads its value at sett start and at commit the register takes what R436 and
its fellows let it take; nothing is stored to memory but what SUBMIT reports. R405: FEAT.TEST and FEAT.CTX. -/
def Claims.SystemRegisters : Prop :=
  (∀ (d : Dst) (g : Guard) (r : SysReg), Computes (.sysr d g r) g d true false (fun s _ v => v = s.sysRead s.cur r)) ∧
  (∀ (o : Ops1) (d : Dst) (g : Guard),
    Computes (.featTest o) o.g o.d false false (fun s _ v =>
      v = if (s.src 0 o.a true ((s.on o.g).headD 0)) &&& ~~~Config.feat = 0 then 1 else 0) ∧
    Computes (.featCtx d g) g d false false (fun s _ v => v = (s.gang s.me.gang).featReq ||| 1)) ∧
  (∀ (g : Guard) (r : SysReg) (a : Src) (s : State),
    (s.me.sett.phase = .exec → s.me.popTrap = false → s.on g ≠ [] →
      Captures (.sysw g r a) s [⟨s.me.sett.slot, 0, noLoc, [s.src 0 a true ((s.on g).headD 0)]⟩]
        (if r = .xlatInv ∨ r = .ptRoot then [.xlatBusy] else [])) ∧
    (s.me.sett.phase = .effects → ∀ cap, s.me.caps = [cap] → r ≠ .submit →
      (if (r = .xlatInv ∨ r = .ptRoot) ∧ s.invBusy = true then exec (.sysw g r a) s = .next (s.setMe { s.me with stall := stWaitc })
      else ∃ t, exec (.sysw g r a) s = .next t ∧ LandsAs s t [] ∧ t.mem = s.mem ∧
        t.sysRead s.cur r = s.readsAfter s.cur r (cap.args.headD 0))))

/-- The same effects as steps of their own (R37–R39, R49, R91, R411, R436, R443): a write by a resident supervisor crew leaves the register as R403
says; XLAT_INV puts an invalidation of its kind at the end of those in progress. -/
def Claims.RegisterWriteSteps : Prop :=
  ∀ (s : State) (k : Nat) (v : DWord) (r : SysReg) (arg : BitVec 56) (handle : BitVec 32) (ctx : BitVec 14), s.supervisor k = true →
    (let part := (s.crew k).part
    (s.invBusy = false →
      (∀ p ∈ [(Instr.xlatInvPartition k, 0, 0), (.xlatInvPage k arg, 1, arg.toNat), (.xlatInvKv k handle, 2, handle.toNat),
          (.xlatInvPrivate k ctx, 3, ctx.toNat)],
        ∃ t, exec p.1 s = .next t ∧ t.invals = s.invals ++ [⟨part, p.2.1, p.2.2, none⟩] ∧ t.mem = s.mem ∧ t.crews = s.crews ∧ t.tlb = s.tlb) ∧
      ∃ t, exec (.ptRootWrite k v) s = .next t ∧ t.mem = s.mem ∧ t.sysRead k .ptRoot = s.readsAfter k .ptRoot v ∧
        (paDev (pteAddr v) = s.dev → t.invals = s.invals ++ [⟨part, 0, 0, none⟩])) ∧
    (s.invBusy = true → ∀ i ∈ [Instr.xlatInvPartition k, .xlatInvPage k arg, .xlatInvKv k handle, .xlatInvPrivate k ctx, .ptRootWrite k v],
      exec i s = .next s) ∧
    (∀ p ∈ [(Instr.privHwmWrite k v, SysReg.privHwm), (.memerrWrite k v, .memerr), (.frReadWrite k v, .frRead), (.frRingWrite k v, .frRing),
        (.frStampWrite k v, .frStamp)],
      ∃ t, exec p.1 s = .next t ∧ t.mem = s.mem ∧ t.sysRead k p.2 = s.readsAfter k p.2 v) ∧
    (r ≠ .xlatInv → r ≠ .ptRoot → r ≠ .submit → ∃ t, exec (.systemRegisterWrite k r v) s = .next t ∧ t.mem = s.mem ∧
      t.sysRead k r = s.readsAfter k r v))

/-- R409–R411: SUBMIT is decided at once and its code and SEQ stand in SUBMIT_ST: BADPROD for a producer that is not the partition's device producer, DUP
and GAP by SEQ against NEXTSEQ modulo 2³², ACCEPTED, which advances NEXTSEQ, when the spill ring is empty and the intake ring has room. -/
def Claims.Submission : Prop :=
  ∀ (s : State) (k : Nat) (v : DWord), (s.crew k).place = .resident → s.submitRoom = true →
    (let n := bitsOf v 0 12
    let p := s.producers.get n
    let seq := v.extractLsb' 32 32
    let ahead := (seq - p.nextSeq).toNat
    ∃ t, exec (.submitWrite k v) s = .next t ∧
      (∀ j, j ≠ k → t.crew j = s.crew j) ∧ t.crew k = { s.crew k with submitSt := (t.crew k).submitSt } ∧
      bitsOf (t.crew k).submitSt 0 32 = seq.toNat ∧ bitsOf (t.crew k).submitSt 32 24 = 0 ∧
      (let code := bitsOf (t.crew k).submitSt 56 8
      let mine := p.v = true ∧ p.part = (s.crew k).part ∧ p.devp = true
      (¬ mine → code = 6 ∧ t.producers = s.producers ∧ t.mem = s.mem) ∧
      (mine → 2 ^ 31 ≤ ahead → code = 4 ∧ t.producers = s.producers) ∧
      (mine → 0 < ahead → ahead < 2 ^ 31 → code = 5 ∧ t.producers = s.producers) ∧
      (mine → ahead = 0 → p.spillHead = p.spillTail → p.intake.length < 16 →
        code = 1 ∧ t.producers.get n = { p with nextSeq := p.nextSeq + 1, intake := p.intake ++ [seq] }) ∧
      (mine → ahead = 0 → (p.spillHead ≠ p.spillTail ∨ 16 ≤ p.intake.length) → p.splog2 = 0 → code = 3 ∧ t.producers = s.producers)))

/-- R404, R481 and R482: SURVEY checks its address while the sett executes and writes what it reads at commit: a misaligned address, an area of the
supervisor's and an object of another partition trap; $device's status area, which every partition may read, gives BOOTST and THERM. -/
def Claims.Surveys : Prop :=
  ∀ (o : Ops1) (s : State),
    (let a := s.src 0 o.a true ((s.on o.g).headD 0)
    (s.me.sett.phase = .exec → s.me.popTrap = false → s.on o.g ≠ [] →
      (a.toNat % 8 ≠ 0 → Raises (.survey o) s cAlign a 0) ∧
      (s.survey s.me.part s.me.level a = .privilege → Raises (.survey o) s cPrivilege a 0) ∧
      (s.survey s.me.part s.me.level a = .refused → Raises (.survey o) s cProtection a 0) ∧
      (∀ w, s.survey s.me.part s.me.level a = .word w → Captures (.survey o) s [⟨s.me.sett.slot, 0, noLoc, [a]⟩] [])) ∧
    (s.me.sett.phase = .effects → ∀ cap w, s.me.caps = [cap] → s.survey s.me.part s.me.level (cap.args.headD 0) = .word w →
      ∃ t, exec (.survey o) s = .next t ∧ LandsAs s t (uniWrites s.me o.g o.d true w) ∧ t = s.setMe t.me) ∧
    (∀ p b, bitsOf b 60 4 = 9 → bitsOf b 57 3 = 4 → bitsOf b 43 14 = 0 →
      (bitsOf b 0 43 = 0 → s.survey p false b = .word s.boot.word) ∧
      (∀ d, d < 4 → bitsOf b 0 43 = 8 * (d + 1) → s.survey p false b = .word (s.die d).therm)) ∧
    (∀ p b, p ≠ 0 → b.toNat % 8 = 0 → bitsOf b 60 4 = 0 → bitsOf b 57 3 = 0 → (s.crew (bitsOf b 43 14)).place ≠ .free →
      (s.crew (bitsOf b 43 14)).part ≠ p → s.survey p true b = .refused))

/-! ## The memory system, its errors and its fault queue (R33–R38, R67, R72, R79, R85, R89–R95, R355, R441, R443) -/

namespace Sys2Proof.Machine

/-- The byte that a list of writes leaves at an address, when it writes it. -/
def lastWrite (bs : List (Nat × Byte)) (a : Nat) : Option Byte := (bs.reverse.find? fun b => b.1 == a).map (·.2)

end Sys2Proof.Machine

/-- R85, R79, R91 and R153: the next request of a core performs at its home: of a write each address holds the last byte written to it and every other
byte of memory stands; words written whole lose their poison; registered waiters of touched stamp words are marked. An atomic's word takes the
operation's result. A buffered line that has waited goes on its way
with the whole buffer, as one request (R140), and no memory changes. Readings of the model in it: log 4, 22. -/
def Obligations.HomesAndBuffers : Prop :=
  ∀ (s : State),
    (∀ k r, s.inflight[k]? = some r → s.mayPerform r = true → (∀ q ∈ s.inflight.take k, q.core ≠ r.core) → r.dev = s.dev →
      ((∃ b ∈ r.bytes, isBacked b.1 = false) → exec (.homeAccessPerform (.inflight k)) s = .fault .unbacked) ∧
      (∀ w, r.rmw = some w → r.bytes = [] → ∃ t, exec (.homeAccessPerform (.inflight k)) s = .next t ∧ t.inflight = s.inflight.eraseIdx k ∧
        t.mem = (s.rmwAt w.op w.ty w.pa w.x w.y).mem) ∧
      (r.rmw = none → (∀ b ∈ r.bytes, isBacked b.1 = true) → ∃ t, exec (.homeAccessPerform (.inflight k)) s = .next t ∧ t.inflight = s.inflight.eraseIdx k ∧
        (∀ a, t.mem.read a = (lastWrite r.bytes a).getD (s.mem.read a)) ∧
        (∀ w, w ∈ t.poison ↔ w ∈ s.poison ∧ ¬ ∀ i, i < 4 → ∃ b ∈ r.bytes, b.1 = 4 * w + i) ∧
        t.cores = s.cores ∧ t.yards = s.yards ∧ ∀ q ∈ t.regs, ∃ p ∈ s.regs, q = { p with written := q.written } ∧
          (q.written = true ↔ p.written = true ∨ (p.dev = s.dev ∧ ∃ b ∈ r.bytes, p.pa ≤ b.1 ∧ b.1 < p.pa + 8)))) ∧
    (∀ core line, (∃ e ∈ (s.core core).cb, e.line = line) → ∃ t r, exec (.combiningBufferTimeout core line) s = .next t ∧
      t.inflight = s.inflight ++ [r] ∧ r.core = core ∧ r.dev = s.dev ∧ r.bytes = (s.core core).cb.flatMap (·.bytes) ∧
      t.mem = s.mem ∧ t.crews = s.crews ∧ t.core core = { s.core core with cb := [] } ∧ ∀ k, k ≠ core → t.core k = s.core k)

/-- R38, R28 and R355: an invalidation with nothing of its partition under way drops the matching entries and ends; one that meets a request which was
translated before it and has not performed stays (R38). A prefetch's walk ends with its LD
operation complete; memory and registers stand. R89 and R92: patrol counts a corrected error, up to the count's limit, and changes no value. R90: an
uncorrectable word is poisoned where it lies and counted; a clean line is dropped instead. -/
def Claims.InvalidationsWalksErrors : Prop :=
  ∀ (s : State),
    (∀ i rest, s.invals = i :: rest → s.inflight = [] → s.translatedOpen i.part = false → i.ack = none →
      (∀ e ∈ s.crews.cells, e.2.part = i.part → e.2.sett.phase = .idle) → (∀ o ∈ s.ops.vals, o.part = i.part → o.kind ≠ .cond) →
      exec .xlatInvComplete s = .next { s with tlb := s.tlb.filter fun e => !i.hits e, invals := rest }) ∧
    (∀ i rest o, s.invals = i :: rest → o ∈ s.outstanding → (∃ src q pa n lv, o.msg = .read src q pa n lv i.part) →
      (∀ e ∈ s.crews.cells, e.2.part = i.part → (s.core e.2.core).cb = []) → s.inflight = [] → exec .xlatInvComplete s = .next s) ∧
    (∀ k w, s.walks[k]? = some w → ∃ t, exec (.walkComplete k) s = .next t ∧ t.walks = s.walks.eraseIdx k ∧ t.mem = s.mem ∧
      t.crews = (s.completeOn w.crew .ld w.op).crews) ∧
    (∀ die, die < 4 → exec (.patrolScrub die) s =
      .next (s.updDie die fun d => { d with corrected := min (d.corrected + 1) 0xFFFFFFFF })) ∧
    (exec (.patrolScrub 4) s = .next { s with hubErrs := s.hubErrs + (if s.hubErrs.toNat % 2 ^ 32 = 2 ^ 32 - 1 then 0 else 1) }) ∧
    (∀ w, isBacked (4 * w) = true → ∃ t, exec (.uncorrectableError (.memory w)) s = .next t ∧ t.mem = s.mem ∧ (∀ v, v ∈ t.poison ↔ v = w ∨ v ∈ s.poison) ∧
      (t.die (dieOfAddr (4 * w))).uncorr = min ((s.die (dieOfAddr (4 * w))).uncorr + 1) 0xFFFF) ∧
    (∀ core line, (∃ e ∈ (s.core core).l1, e.line = line) → ∃ t, exec (.uncorrectableError (.l1 core line)) s = .next t ∧ t.mem = s.mem ∧
      t.poison = s.poison ∧ (t.core core).l1 = (s.core core).l1.filter (fun e => e.line != line)) ∧
    (∀ k reg lane, (s.crew k).place = .resident → reg < (s.crew k).budget → lane < 32 → ∃ t, exec (.uncorrectableError (.vreg k reg lane)) s = .next t ∧
      t.mem = s.mem ∧ (∀ v, v ∈ (t.crew k).poisonV ↔ v = reg * 32 + lane ∨ v ∈ (s.crew k).poisonV) ∧ (t.crew k).v = (s.crew k).v)

/-- R93–R95 and R445: an uncorrectable word of a configuration region freezes it and counts it. Once its backing copy is read again, the region goes on
and a RECOVERED record is left when copy, digest and seal agree; otherwise it stays frozen as failed, with a record. -/
def Claims.ConfigurationRegions : Prop :=
  ∀ (s : State) (r : RegionSel), s.regionHeld r = true →
    (let die := (s.regionName r).1
    let x := s.region r
    (∃ t, exec (.configFreeze r) s = .next t ∧ (t.region r).frozen = true ∧ (t.region r).bytes = x.bytes ∧ t.mem = s.mem ∧
      (t.die die).uncorr = min ((s.die die).uncorr + 1) 0xFFFF) ∧
    (x.frozen = true → x.failed = false → s.recRoom die 1 = true →
      (let g := s.unitGather (tagReload r) x.part x.level x.backing.toNat x.bytes.length
      g.bad = none → g.need = [] →
        (g.poisoned = false → s.sealed r = true → regionDigest r g.table = x.digest →
          ∃ t, exec (.configReloadDone r) s = .next t ∧ (t.region r).frozen = false ∧ (t.region r).bytes = x.bytes ∧ t.mem = s.mem ∧
            (t.die die).reloads = min ((s.die die).reloads + 1) 0xFFFF) ∧
        ((g.poisoned = true ∨ s.sealed r = false ∨ regionDigest r g.table ≠ x.digest) →
          ∃ t, exec (.configReloadDone r) s = .next t ∧ (t.region r).frozen = true ∧ (t.region r).failed = true ∧ t.mem = s.mem))))

/-- R67, R68, R72 and R379: the first waiting fill of a ring proceeds when its buffer is empty: the buffer becomes full and the fill index advances. The
first waiting consume proceeds when its buffer is full and leaves it empty unless it is kept (R381). -/
def Claims.Rings : Prop :=
  ∀ (s : State) (id : Nat) (r : RingSel) (geo : RingGeo),
    (let o := s.eop id
    let x := s.ring r
    id < 2 ^ 56 → tgSpc o.stamp = 3 → o.live = true → o.stage = .accepted → (s.gang o.gang).live = true → (s.gang o.gang).saved = false → s.matrixHeld id = false →
    s.ringGeo r = some geo →
      (o.kind = .tld → s.obRing o.gang o.oba = some r → x.fillers.head? = some (opWaiter id) → x.canFill = true →
        (let g := s.gatherBox o.got (shapeOf o.recS o.tabS).flat (s.engLoc o (shapeOf o.recS o.tabS) .load) o.orgS
        g.bad = none → g.need = [] → ∃ t, exec (.yardRegionFill r) s = .next t ∧ (t.ring r).full = x.full ++ [x.fill] ∧
          (t.ring r).fill = (x.fill + 1) % geo.n ∧ (t.ring r).read = x.read ∧ (t.ring r).consumers = x.consumers)) ∧
      (o.kind = .mma → s.obRing o.gang o.oba = some r → s.obRing o.gang o.obb = some r → o.tile < tilesPerCore →
        x.consumers.head? = some (opWaiter id) → x.canRead = true → ∃ t, exec (.yardRegionConsume r) s = .next t ∧
          (t.ring r).full = (if o.ka = true ∧ o.kb = true then x.full else x.full.filter fun i => i != x.read) ∧
          (t.ring r).read = (if o.ka = true ∧ o.kb = true then x.read else (x.read + 1) % geo.n) ∧ (t.ring r).fill = x.fill ∧
          t.mem = s.mem))

/-- R443: the first record that may go is written to its partition's ring at its place, with its number, and then counted; a write that does not
translate leaves it where it is, and the partition's records wait. R34 and R35: FQ_RESUME replays a parked request of a KV load: translated, its slot executes
again; a page still absent parks it again, with a new record; or cancels it, which traps KV_MISS. R441: the watchdog discards the sett and takes LOCAL_WATCHDOG at the head path. -/
def Claims.RecordsAndParkedRequests : Prop :=
  ∀ (s : State) (die : Nat),
    (∀ r u, s.nextRec die = some r → s.writeRec r = .ok u →
      ∃ t, exec (.faultRecordDeliver die) s = .next t ∧ t.mem = u.mem ∧ (t.part r.part).frSeq = (u.part r.part).frSeq + 1 ∧
        (t.die die).recs = (u.die die).recs.erase r) ∧
    (∀ r pa mt, s.nextRec die = some r → (s.part r.part).frStamp = 0 →
      (let p := s.part r.part
      let va := bitsOf p.frRing 12 44 * 4096 + 32 * (p.frSeq % 2 ^ bitsOf p.frRing 59 5)
      p.frSeq < 2 ^ 64 → s.unitXlat r.part true .store va = .ok s.dev pa mt →
        ∃ t, exec (.faultRecordDeliver die) s = .next t ∧ t.readVal pa 32 = r.bits.toNat / 2 ^ 64 * 2 ^ 64 + p.frSeq ∧
          ∀ a, ¬ inRange pa 32 a → t.mem.read a = s.mem.read a)) ∧
    (∀ r c, s.nextRec die = some r → s.writeRec r = .error c → ∃ t, exec (.faultRecordDeliver die) s = .next t ∧ t.mem = s.mem ∧
      (t.part r.part).frBlocked = true ∧ (t.part r.part).frSeq = (s.part r.part).frSeq ∧ (t.die die).recs.length = (s.die die).recs.length) ∧
    (∀ entry k slot lane epoch,
      (let e := (s.die die).fq.get entry
      e.valid = true → (s.die die).fqTurn e = true → e.who = .ldkv k slot lane epoch → (s.crew k).place ≠ .free → (s.crew k).epoch = epoch →
        (e.act = 1 → s.recRoom die 1 = true →
          (∀ d pa mt, s.kvXlat e.part die e.aux e.addr.toNat false = .ok d pa mt →
            ∃ t, exec (.fqResumeReplay die entry) s = .next t ∧ ((t.die die).fq.get entry).valid = false ∧ t.mem = s.mem ∧
              t.crew k = { s.crew k with stall := 0, sett := { (s.crew k).sett with kvParked := none } }) ∧
          (s.kvXlat e.part die e.aux e.addr.toNat false = .bad cKvMiss → entry < 1024 → (s.part e.part).present = true →
            ∃ t i, exec (.fqResumeReplay die entry) s = .next t ∧ t.mem = s.mem ∧ (t.die die).recs.length = (s.die die).recs.length + 1 ∧
              ((t.die die).fq.get i).valid = true ∧ ((t.die die).fq.get i).who = e.who ∧ ((t.die die).fq.get i).act = 0 ∧
              (t.crew k).sett.kvParked = (s.crew k).sett.kvParked.map fun p => (p.1, i))) ∧
        (e.act = 2 → ∃ t, exec (.fqResumeCancel die entry) s = .next t ∧ ((t.die die).fq.get entry).valid = false ∧ t.mem = s.mem ∧
          t.crew k = { s.crew k with stall := 0, sett := { (s.crew k).sett with kvParked := none, exc := some ⟨cKvMiss, e.addr, slot, lane, 0⟩ } }))) ∧
    (∀ k,
      (let c := s.crew k
      let part := s.part c.part
      (bitsOf part.wdog 0 32 = 0 → exec (.localWatchdog k) s = .next s) ∧
      (bitsOf part.wdog 0 32 ≠ 0 → c.place = .resident → c.inBench = false → c.sett.phase = .idle ∨ c.sett.phase = .exec → c.paths ≠ [] →
        s.trapReady k = true → nestBit c.trCause = false → bitsOf part.trVec 0 56 ≠ 0 → ∃ t, exec (.localWatchdog k) s = .next t ∧ t.mem = s.mem ∧
          bitsOf (t.crew k).trCause 0 8 = cWatchdog.toNat ∧ (t.crew k).trPc = BitVec.ofNat 64 (c.run.pc % 2 ^ 56) ∧ (t.crew k).level = true ∧
          ((t.crew k).place = .resident → (t.crew k).run.pc = bitsOf part.trVec 0 56))))

/-! ## Setts and issue (R112, R200–R206, R259, R274, R281, R293, R401) -/

namespace Sys2Proof.Machine

/-- The executing crew may start its next sett: no hold of it stands (R200). -/
structure State.MayStart (s : State) : Prop where
  place : s.me.place = .resident
  phase : s.me.sett.phase = .idle
  wanted : s.me.preempt = false
  quarter : s.benchQuarter s.me.core s.me.quarter = false
  holds : ∀ h ∈ s.me.holds, s.holdClear s.cur h = true

/-- The executing crew once its holds have ended, with the path list that runs next. -/
def State.atStart (s : State) (ps : List Path) : State := (s.me.holds.foldl State.endHold s).updMe fun c => { c with holds := [], paths := ps }

/-- The sett at the head path's PC has come, header and slot words. -/
structure State.Fetched (s : State) (ps : List Path) (hd : DWord) (words : List DWord) : Prop where
  pick : s.me.pick = some ps
  head : (s.atStart ps).fetchWord s.cur s.me.level (ps.headD default).pc = .word hd
  slots : (s.atStart ps).fetchAll s.cur s.me.level (ps.headD default).pc ((ps.headD default).pc + 8)
    ((Header.ofWord hd).nm1.toNat + 1) = (words, none)

end Sys2Proof.Machine

/-- SETT_START (R200, R203, R259, R281, R401). The sett of the path that runs next begins: words that are no header, a header outside its ranges, a sett
that needs more rows than the crew has, a slot that decodes to nothing and a privileged slot at level 0 raise their exceptions; otherwise its first
slot comes up, with a new epoch, once its queues hold enough entries to pop and places to push, and else it waits with reason CHANNEL. A trap owed
from the commit before is raised at it. No register and no memory changes. -/
def Claims.SettStarts : Prop :=
  ∀ (s : State) (ps : List Path) (hd : DWord) (words : List DWord), s.MayStart →
    (let c := s.me
    let h := Header.ofWord hd
    let n := h.nm1.toNat + 1
    let pc := (ps.headD default).pc
    let ds := slotInstrs h.lit 0 words
    let starts := fun (P : State → Prop) => ∃ t, exec .settStart s = .next t ∧ t.mem = s.mem ∧
      t.me = { c with sett := t.me.sett, holds := [], paths := ps, stall := t.me.stall, fetch := t.me.fetch, epoch := t.me.epoch, pendTrap := none } ∧
      P t
    let raises := fun (cause : BitVec 8) (addr slot : Nat) => starts fun t => t.me.sett.phase = .exec ∧ t.me.sett.pc = pc ∧
      t.me.sett.exc = some ⟨cause, BitVec.ofNat 64 addr, slot, 0, 0⟩
    (∀ cause addr, c.pick = some ps → c.pendTrap = some (cause, addr) → starts fun t => t.me.sett.exc = some ⟨cause, addr, 0, 0, 0⟩) ∧
    (s.Fetched ps hd words → c.pendTrap = none →
      (isHeader hd = false → raises cBadTarget pc 0) ∧
      (isHeader hd = true →
        (h.resv ≠ 0 → raises cIllegalOp pc 0) ∧
        (h.resv = 0 → bitsOf h.lit n 32 ≠ 0 → raises cIllegalOp pc 0) ∧
        (h.resv = 0 → bitsOf h.lit n 32 = 0 → 8 * (h.budm1.toNat + 1) > c.budget → raises cBudget pc 0) ∧
        (checkHeader h c.budget words = none →
          (∀ m, m < n → checkSlots c.level c.budget ds 0 (ds.take m) = none →
            ((∃ e, ds[m]? = some (some (.refused e))) → raises cIllegalOp (pc + 8 * (m + 1)) m) ∧
            (∀ i, ds[m]? = some (some (.instr i)) → slotIllegal ds m i = false → i.features &&& ~~~Config.feat = 0 → i.privileged = true → c.level = false →
              raises cPrivilege (pc + 8 * (m + 1)) m)) ∧
          (checkSlots c.level c.budget ds 0 ds = none → settPops ds = [] → settPushes ds = [] → (∀ q, q < 16 →
              (let e := (s.core c.core).queues.get q
              e.entries.length + e.popRes + e.pushRes ≤ 32)) →
            starts fun t => t.me.sett.phase = .exec ∧ t.me.sett.pc = pc ∧ t.me.sett.nslots = n ∧ t.me.sett.lit = h.lit ∧ t.me.sett.words = words ∧
              t.me.sett.exc = none ∧ t.me.sett.wr = [] ∧ t.me.sett.slot = t.me.sett.seek .exec 0 ∧ t.me.epoch = c.epoch + 1 ∧ t.me.stall = 0) ∧
          (checkSlots c.level c.budget ds 0 ds = none → c.inTrap = true →
            (∃ q, q < 16 ∧ ((settPops ds).filter fun p => p.2.2 == q && !s.boundQueue c.core q).length > ((s.core c.core).queues.get q).entries.length) →
            starts fun t => t.me.sett.phase = .idle ∧ t.me.stall = stChannel)))))

/-- SETT_COMMIT (R200, R112, R293, R338, R343). A sett waits for its SFU results. A sett of slots alone whose slots have run goes on to its effectful
slots when it raised nothing; a raised flag
whose enable bit is set discards it instead; a fall-through address that is no header raises BAD_TARGET. Once the effectful slots have run, the staged
writes land, the popped entries are gone, and the path goes on at the fall-through address. Readings of the model in it: log 19, 26. -/
def Obligations.SettCommits : Prop :=
  ∀ (s : State) (p : Path) (r : List Path), s.me.paths = p :: r →
    (let t := s.me.sett
    let F := t.fall
    t.exc = none → t.nslots ≤ t.slot → t.ctlInstr = none →
    (t.phase = .exec → t.sfuPend = [] → s.passes (fun _ => false) [F] →
      (∀ e, s.me.fpTrap = some e → exec .settCommit s = .next (s.setMe { s.me with stall := 0, sett := { t with exc := some e } })) ∧
      (s.me.fpTrap = none → t.waits = [] → t.stores = [] → t.caps = [] → ∃ u, exec .settCommit s = .next u ∧
        u = { s.setMe { s.me with stall := 0, sett := { t with phase := .effects, slot := u.me.sett.slot } } with queueWaits := u.queueWaits } ∧
        u.me.sett.slot = t.seek .effects 0)) ∧
    (t.phase = .exec → t.sfuPend ≠ [] → ∃ why, exec .settCommit s = .next (s.setMe { s.me with stall := why }) ∧ (why = stOperand ∨ why = stSfu)) ∧
    (t.phase = .exec → t.sfuPend = [] → bitsOf F 56 8 ≠ 0 ∨ bitsOf F 0 3 ≠ 0 →
      exec .settCommit s = .next (s.setMe { s.me with stall := 0, sett := { t with exc := some ⟨cBadTarget, F, 0, 0, 0⟩ } })) ∧
    (t.phase = .effects → ∃ u, exec .settCommit s = .next u ∧ u.mem = s.mem ∧
      u.me = { s.landed with sett := default, stall := 0, paths := u.me.paths, poisonP := u.me.poisonP } ∧
      (p.run < 63 ∨ s.me.inTrap = true → u.me.paths = { p with pc := F.toNat, run := p.run + 1 } :: r) ∧
      (63 ≤ p.run → s.me.inTrap = false → u.me.paths = r ++ [{ p with pc := F.toNat, run := 0 }]) ∧
      ∀ k, k ≠ s.cur → u.crew k = s.crew k))

/-- R206: a quarter leaves the crew that it issued from when that crew is not ready, or has had 1,024 cycles and stands between two setts; it goes over to
the crew that comes first of those ready: PRIO = 1 before PRIO = 0, then the older. Nothing but its issue changes. R228:
while a bench holds a crew's quarter, that crew starts no sett. -/
def Claims.QuarterIssue : Prop :=
  ∀ (s : State) (k : Nat),
    (let c := s.crew k
    let now := (s.core c.core).issue.get c.quarter
    let leaves := now = 0 ∨ s.ready (now - 1) = false ∨ (1024 ≤ (s.core c.core).streak.get c.quarter ∧ (s.crew (now - 1)).sett.phase = .idle)
    (¬ leaves → now ≠ k + 1 → exec (.quarterIssueSwitch k) s = .next s) ∧
    (c.place = .resident → leaves → s.oldestReady c.core c.quarter now = some k →
      ∃ t, exec (.quarterIssueSwitch k) s = .next t ∧ t.cur = k ∧ (t.core c.core).issue.get c.quarter = k + 1 ∧ t.crews = s.crews ∧ t.mem = s.mem ∧
        ∀ j, s.ready j = true → (s.crew j).place = .resident → (s.crew j).core = c.core → (s.crew j).quarter = c.quarter →
          j + 1 ≠ now → j ∈ s.crews.keys →
          ((s.crew j).prio = true → c.prio = true) ∧ ((s.crew j).prio = c.prio → c.age ≤ (s.crew j).age)) ∧
    (c.place ≠ .resident → exec (.quarterIssueSwitch k) s = .next s) ∧
    (s.cur = k → c.place = .resident → c.sett.phase = .idle → c.preempt = false → s.benchQuarter c.core c.quarter = true →
      exec .settStart s = .next (s.setMe { c with stall := stBench })))

/-- NOP yields zero and writes nothing (R303). R274 and R367: a slot that pops a queue bound to a template or a running bench's QIN traps PROTECTION,
whatever its guard. -/
def Claims.NopAndBoundQueues : Prop :=
  ∀ (g : Guard) (s : State),
    (∃ t, exec (.nop g) s = .next t ∧ (s.me.popTrap = false → SlotEnds s t ∧ t.landed = { s.landed with sett := t.me.sett } ∧
      ∀ l, l < 32 → l ∈ s.on g → t.me.sett.trans.get (s.me.sett.slot * 32 + l) = 0)) ∧
    (s.me.popTrap = true ↔ s.me.sett.slot ∈ s.me.sett.popBad) ∧
    (∀ o t sat, s.me.popTrap = true → Raises (.iadd o t sat) s cProtection 0 0) ∧
    (∀ d k, s.me.popTrap = true → s.me.sett.phase = .exec → Raises (.qpop d g k) s cProtection 0 0)

/-! ## The machine as a whole -/

/-- R11, R18, R449 and R476: after start-up partition 0 exists and holds no cluster, its producer 0 is a host producer with SUP = 1, $device reads 0 in a
domain of one, start-up stands at stage 4, and no crew, gang, launch, command, engine operation or bench runs. That every byte of memory reads zero is the
model's choice (log 1). Readings of the model in it: log 1, 9. -/
def Obligations.ResetState : Prop :=
  let s := State.reset
  (s.part 0).present = true ∧ (s.part 0).clusters = 0 ∧ (∀ n, n ≠ 0 → (s.part n).present = false) ∧
  (s.producers.get 0).v = true ∧ (s.producers.get 0).sup = true ∧ (s.producers.get 0).devp = false ∧ (s.producers.get 0).part = 0 ∧
  (∀ n, n ≠ 0 → (s.producers.get n).v = false) ∧ s.dev = 0 ∧ s.domain = [0] ∧ s.boot.stage = 4 ∧ s.boot.powered = true ∧
  (∀ k, (s.crew k).place = .free) ∧ (∀ g, (s.gang g).live = false) ∧ s.launches.cells = [] ∧ s.cmds.cells = [] ∧ s.ops.cells = [] ∧
  s.benches.cells = [] ∧ (∀ die, (s.die die).opTable.present = false ∧ (s.die die).uncorr = 0 ∧ (s.die die).corrected = 0) ∧
  (∀ a, s.mem.read a = 0) ∧ MemOk s

/-- R261–R268 and the examples of the listings: these words are the instructions they stand for. -/
def Obligations.DecodeWords : Prop :=
  let g : Guard := ⟨7, false⟩
  decode 0x1000010014000380 = .instr (.iadd ⟨.v 1, .v 0, .trans 0, g⟩ .n32 false) ∧
  decode 0x4380 = .instr (.br g 4) ∧
  decode 0x1F47010080300380 = .instr (.icmp ⟨.p 1, .v 2, .v 3, .v 0, g⟩ .i32 .lt .none) ∧
  decode 0x4200060080301080 = .instr (.ffma ⟨.v 6, .v 2, .v 3, .v 4, ⟨1, false⟩⟩ .rne false false false) ∧
  decode 0x7910020040000383 = .instr (.red ⟨.v 2, .v 1, g⟩ .add .f32 3) ∧
  decode 0x91405409C00043AC = .instr (.stg ⟨.n32, 5, .s 2, .const 0, 0x10, g, .device, true, 0⟩) ∧
  decode 0xB200000000000383 = .instr (.barSync g 3) ∧
  decode 0xC04C0080A0C00393 = .instr (.mma g .e4m3 .e4m3 false false 1 0 1 (.s 6)) ∧
  decode 0xEB00004140144380 = .instr (.sysw g .submit (.s 5)) ∧
  decode 0xE800000000000380 = .instr (.tret g) ∧
  decode 0xFF00000000000380 = .refused .reservedOp ∧ decode 0x1000010014000381 = .refused .reservedField

/-- A step runs the decoded instruction: with nothing on the agenda, the executing crew within a sett and its slot's word decoding to i, a step is i's. -/
def Obligations.StepRunsDecoded : Prop :=
  ∀ (s : State) (i : Instr),
    (let c := s.me
    let t := c.sett
    s.agenda = [] → s.mayIssue s.cur = true → c.stall = 0 → t.exc = none → t.slot < t.nslots →
      decode (t.words.getD t.slot 0) = .instr i →
      (t.phase = .exec → t.awaits i = false → c.readsPoison i = false → step s = exec i s) ∧
      (t.phase = .effects ∨ t.phase = .control → step s = exec i s))

/-- Decoding the word that encodes a well-formed slot instruction gives it back: no bit of an operand is dropped and no two instructions share a word. -/
def Obligations.EncodeDecode : Prop :=
  ∀ i : Instr, i.isWord = true → i.wf = true → decode (encode i) = .instr i

/-- Every step keeps the memory in its canonical form. -/
def Obligations.MemoryCanonical : Prop := ∀ s t : State, MemOk s → step s = .next t → MemOk t

/-! ## Engines at work (R119–R123, R166–R170, R174–R189, R375–R382) -/

namespace Sys2Proof.Machine

/-- Engine operation `id` becomes what P says; the other operations, memory and the crews stand. -/
def OpBecomes (i : Instr) (s : State) (id : Nat) (P : EngineOp → Prop) : Prop :=
  ∃ t, exec i s = .next t ∧ t.mem = s.mem ∧ t.crews = s.crews ∧ P (t.ops.get id) ∧ ∀ j, j ≠ id → t.ops.get j = s.ops.get j

/-- An event writes these bytes of memory, the last write to an address standing, and no others. -/
def Writes (s t : State) (bs : List (Nat × Byte)) : Prop := ∀ a, t.mem.read a = (lastWrite bs a).getD (s.mem.read a)

/-- A gather found every value, none poisoned or not. -/
def Gather.came (g : Gather) : Prop := g.bad = none ∧ g.need = []

/-- A scatter translated whole, to homes of this device. -/
def Scatter.lands (w : Scatter) (s : State) : Prop := w.bad = none ∧ w.need = [] ∧ ∀ b ∈ w.bytes, b.1 = s.dev

/-- The elements of a box whose in-bounds elements are whole bytes, each at addresses of its own. -/
structure Shape.Apart (x : Shape) (o : DWord) : Prop where
  plain : x.mx = false
  whole : ∀ q, q < x.count → x.elemIn o q = true → (x.elemBytes o q).2 = 0 ∧ x.w = 8 * (x.elemBytes o q).1.length ∧ (x.elemBytes o q).1.Nodup
  apart : ∀ p q, p < x.count → q < x.count → p ≠ q → x.elemIn o p = true → x.elemIn o q = true → ∀ a ∈ (x.elemBytes o p).1, a ∉ (x.elemBytes o q).1

end Sys2Proof.Machine

/-- R166 and R177: an engine accepts the first operation of its queue that is not accepted. A copy's records are checked in the order of R177: each by
R129, their boxes and types, their bounds policies, and two boxes of one space that share a byte; a failing check ends the operation with the status of
R170 and no data moves; otherwise every element event of the box is to come. Nothing else of the device changes. -/
def Claims.EngineAcceptance : Prop :=
  ∀ (s : State) (id : Nat),
    (let o := s.eop id
    let ends := fun n => OpBecomes (.engineAccept id) s id fun p => p.stage = .performed ∧ p.status = n ∧ p.live = true
    o.live = true → o.stage = .issued → s.firstIssued id = true → s.opAway o = false →
      (o.kind ∈ [OpKind.mma, .tld, .accNew, .accZero, .accLd, .accSt, .tokSend] →
        OpBecomes (.engineAccept id) s id fun p => p = { o with accepted := true, stage := .accepted }) ∧
      (o.kind ∈ [OpKind.copy, .cond, .fired] → (s.engTable o o.recS).came → (s.engTable o o.recD).came →
        (let gx := s.engTable o o.recS
        let gy := s.engTable o o.recD
        let x := shapeOf o.recS gx.table
        let y := shapeOf o.recD gy.table
        let sx := shapeStatus o.recS gx.table
        let sy := shapeStatus o.recD gy.table
        (gx.poisoned = true → ends 5) ∧
        (gx.poisoned = false → sx ≠ 0 → ends (0x10 + sx)) ∧
        (gx.poisoned = false → sx = 0 → gy.poisoned = true → ends 5) ∧
        (gx.poisoned = false → sx = 0 → gy.poisoned = false → sy ≠ 0 → ends (0x10 + sy)) ∧
        (gx.poisoned = false → sx = 0 → gy.poisoned = false → sy = 0 →
          ((x.boxes ≠ y.boxes ∨ x.etype ≠ y.etype) → ends 0x15) ∧
          (x.boxes = y.boxes → x.etype = y.etype →
            ((x.outside o.orgS = true ∨ y.outside o.orgD = true) → ends 1) ∧
            (x.outside o.orgS = false → y.outside o.orgD = false → x.space = y.space → x.kvh = y.kvh →
              (∃ a, a ∈ x.touched o.orgS ∧ a ∈ y.touched o.orgD) → ends 2) ∧
            (s.checkPair o x y o.orgS o.orgD 0 0 = 0 → OpBecomes (.engineAccept id) s id fun p =>
              p = { o with accepted := true, stage := .accepted, tabS := gx.table, tabD := gy.table, left := List.range x.events }))))))

namespace Sys2Proof.Machine

/-- What the element event q of an accepted copy does, when no request it needs is parked: its value goes to its place and no other byte changes; a
poisoned source leaves its destination unwritten and the status POISON (R178); a request that does not translate parks alone (R33). `rest` is what
remains to be done. -/
def State.CopyEvent (s : State) (id : Nat) (i : Instr) (q : Nat) (rest : List Nat) : Prop :=
  let o := s.eop id
  let x := shapeOf o.recS o.tabS
  let y := shapeOf o.recD o.tabD
  (∀ v, s.copySource o q = .val v →
    (let w := s.resolveBits o.got (s.engLoc o y .store) (y.scatterOne o.orgD [] q v)
    w.lands s → ∃ t, exec i s = .next t ∧ Writes s t (w.bytes.map (·.2)) ∧ t.crews = s.crews ∧
      t.eop id = { o with left := rest, got := (t.eop id).got })) ∧
  (s.copySource o q = .poison → OpBecomes i s id fun p => p = { o with left := rest, status := 5 }) ∧
  (∀ cause a n, s.copySource o q = .bad cause a → (s.die (dieOf o.core)).freeFq = some n → s.recRoom (dieOf o.core) 1 = true →
    ∃ t, exec i s = .next t ∧ t.mem = s.mem ∧ t.eop id = { o with held := reqKey x.space false a.toNat :: o.held } ∧
      ((t.die (dieOf o.core)).fq.get n).valid = true ∧ ((t.die (dieOf o.core)).fq.get n).cause = cause ∧ ((t.die (dieOf o.core)).fq.get n).addr = a)

end Sys2Proof.Machine

/-- R126, R127, R167 and R178: an accepted copy performs its element events one by one, those behind a parked request after the others, each as
`CopyEvent` says, and ends, when none is left, with the status that they left. Where the elements of a box are whole bytes that stand apart, each byte
of an element goes to its own address. -/
def Claims.CopiesPerform : Prop :=
  ∀ (s : State) (id : Nat),
    (let o := s.eop id
    o.live = true → o.kind = .copy ∨ o.kind = .fired → o.stage = .accepted → s.opAway o = false →
      ∀ i ∈ [Instr.engineOperationComplete id, .homeAccessPerform (.engine id)],
        (o.left = [] → OpBecomes i s id fun p => p = { o with stage := .performed }) ∧
        (∀ pre q post, o.left = pre ++ q :: post → (∀ p ∈ pre, ∃ r ∈ o.requests p, r ∈ o.held) → (∀ r ∈ o.requests q, r ∉ o.held) →
          s.CopyEvent id i q (o.left.erase q))) ∧
    (∀ (y : Shape) (o : DWord) (vals : List (Option Nat)), y.Apart o →
      (∀ q v j a, q < y.count → y.elemIn o q = true → vals[q]? = some (some v) → (y.elemBytes o q).1[j]? = some a →
        Cells.find (y.scatter o vals) a = some (255, v % 2 ^ y.w / 2 ^ (8 * j) % 256)) ∧
      (∀ a, (∀ q v, q < y.count → y.elemIn o q = true → vals[q]? = some (some v) → a ∉ (y.elemBytes o q).1) → Cells.find (y.scatter o vals) a = none))

/-- R166–R170 and R174: an operation whose payload is over writes its stamp, 8 bytes of status and VALUE, and is then complete: it leaves its queue, and
its counter falls when those before it are complete. One whose target names nothing writes no memory. -/
def Claims.OperationsEnd : Prop :=
  ∀ (s : State) (id : Nat),
    (let o := s.eop id
    o.live = true → o.kind ≠ .mc → o.kind ≠ .tokSend → o.stage = .performed → s.opAway o = false → s.stampTurn id = true → s.opWaits id = false →
      (let ended := fun t => t.ops.get id = default ∧ id ∉ t.queues.get o.key ∧ (∀ j, j ≠ id → j ∈ s.queues.get o.key → j ∈ t.queues.get o.key) ∧
        ∀ p, o.path = some p → (s.crew o.crew).place ≠ .free → ((s.crew o.crew).ctr.get (pathNo p)).late = [] →
          o.seq = ((s.crew o.crew).ctr.get (pathNo p)).done + 1 →
          ((t.crew o.crew).ctr.get (pathNo p)) = { (s.crew o.crew).ctr.get (pathNo p) with done := o.seq }
      (tgSpc o.stamp = 3 → ∃ t, exec (.engineOperationComplete id) s = .next t ∧ t.mem = s.mem ∧ ended t) ∧
      (∀ x, tgSpc o.stamp ≠ 3 → s.targetLoc o.part o.crew o.gang o.core o.level o.stamp = .ok x → x.dev = s.dev →
        ∃ t, exec (.engineOperationComplete id) s = .next t ∧ ended t ∧
          t.readVal x.pa 8 = o.status % 256 * 2 ^ 56 + bitsOf o.value 0 56 ∧ ∀ a, ¬ inRange x.pa 8 a → t.mem.read a = s.mem.read a)))

/-- R179 and R180: a conditional copy reads its box, then reserves its version word at its home behind earlier ones, by a request to it when that is
another device; with the reservation first it compares once: a version that is not the one expected ends it with status CONDFAIL and no write, and the
expected one lets the box perform, element by element; then the next version is written and the reservation given up. -/
def Claims.ConditionalCopies : Prop :=
  ∀ (s : State) (id : Nat) (v : Loc),
    (let o := s.eop id
    let x := shapeOf o.recS o.tabS
    let g := s.gatherBox o.got x (s.engLoc o x .load) o.orgS
    let i := Instr.condCopyReserve id
    let free := fun (t : State) => t.reservations = s.reservations.filter fun r => r != (v.pa, s.dev, id)
    let held := fun (t : State) => (t.eop id).stage = .blocked ∧ (t.eop id).reserved = true ∧ (t.eop id).locs = [v] ∧
      ((t.eop id).branches.headD default).staged = [(packTile x g.vals).1] ∧ ((t.eop id).branches.headD default).stagedBad = [(packTile x g.vals).2]
    o.live = true → o.kind = .cond →
      (o.stage = .accepted → g.came → s.targetLoc o.part o.crew o.gang o.core o.level o.ver = .ok v →
        ∃ t, exec i s = .next t ∧ t.mem = s.mem ∧ held t ∧
          (v.dev = s.dev → t.reservations = s.reservations ++ [(v.pa, s.dev, id)]) ∧
          (v.dev ≠ s.dev → t.reservations = s.reservations ∧ ∃ m, t.outstanding = s.outstanding ++ [m] ∧ m.dev = v.dev ∧
            m.msg = .reserve s.dev s.nextSeq v.pa o.part)) ∧
      (o.stage = .blocked → o.reserved = true → o.locs = [v] → v.dev = s.dev → o.got = [] → s.poisonedIn v.pa 8 = none → v.pa % 4 = 0 →
        (s.reservedFirst id = false → exec i s = .next s) ∧
        (s.reservedFirst id = true →
          (s.readVal v.pa 8 ≠ o.expect.toNat → ∃ t, exec i s = .next t ∧ t.mem = s.mem ∧ free t ∧
            (t.eop id).stage = .performed ∧ (t.eop id).status = 3) ∧
          (s.readVal v.pa 8 = o.expect.toNat → OpBecomes i s id fun p => p = { o with stage := .started }))) ∧
      (o.stage = .started → o.reserved = true → o.locs = [v] → v.dev = s.dev →
        (∀ pre q post, o.left = pre ++ q :: post → (∀ p ∈ pre, ∃ r ∈ o.requests p, r ∈ o.held) → (∀ r ∈ o.requests q, r ∉ o.held) →
          s.CopyEvent id i q (o.left.erase q)) ∧
        (o.left = [] → s.opWaits id = false →
          ∃ t, exec i s = .next t ∧ free t ∧ (t.eop id).stage = .performed ∧ (t.eop id).status = o.status ∧
            (o.status ≠ 0 → t.mem = s.mem) ∧
            (o.status = 0 → t.readVal v.pa 8 = o.next.toNat ∧ ∀ a, ¬ inRange v.pa 8 a → t.mem.read a = s.mem.read a))))

/-- R181–R183: an armed template whose queue holds a token takes it and issues one uncounted copy, its bases moved by the token's two steps and its VALUE one
past the firings before it; with eight outstanding, no token or no room nothing happens. -/
def Claims.TemplatesFire : Prop :=
  ∀ (s : State) (core slot : Nat),
    (let c := s.core core
    let u := c.templates.get slot
    let q := c.queues.get u.queue
    let room := (s.firedOpen core slot).length < 8 ∧ (s.queues.get (engKey core .copy)).length < 32
    (q.entries = [] ∨ u.armed = false ∨ ¬ room → exec (.templateFire core slot) s = .next s) ∧
    (∀ n w rest, q.entries = (n, w) :: rest → u.armed = true → room →
      ∃ t o, exec (.templateFire core slot) s = .next t ∧ t.ops.get s.nextOp = o ∧ t.nextOp = s.nextOp + 1 ∧ t.mem = s.mem ∧ t.crews = s.crews ∧
        (∀ j, j ≠ s.nextOp → t.ops.get j = s.ops.get j) ∧
        t.queues.get (engKey core .copy) = s.queues.get (engKey core .copy) ++ [s.nextOp] ∧
        ((t.core core).queues.get u.queue).entries = rest ∧ ((t.core core).templates.get slot).fired = u.fired + 1 ∧
        o.live = true ∧ o.kind = .fired ∧ o.stage = .issued ∧ o.path = none ∧ o.gang = u.gang ∧ o.level = u.level ∧ o.stamp = u.target ∧
        o.value.toNat = (u.base + u.fired + 1) % 2 ^ 56 ∧ o.orgS = 0 ∧ o.orgD = 0 ∧
        bitsOf o.recS 0 56 = (bitsOf u.src 0 56 + w.toNat % 2 ^ 32 * u.sstep.toNat) % 2 ^ 56 ∧ bitsOf o.recS 56 200 = bitsOf u.src 56 200 ∧
        bitsOf o.recD 0 56 = (bitsOf u.dst 0 56 + w.toNat / 2 ^ 32 * u.dstep.toNat) % 2 ^ 56 ∧ bitsOf o.recD 56 200 = bitsOf u.dst 56 200))

/-- R185 and R186: a multicast reads its next tile when no branch that goes on lags by more than its slack, and every such branch holds the tile; a branch
delivers its oldest tile where its record places it, moved by one step for each delivered before, or into its ring's empty buffer. When every branch is
over and stamped the copy is complete. -/
def Claims.Multicasts : Prop :=
  ∀ (s : State) (id k : Nat),
    (let o := s.eop id
    let going := fun (b : Branch) => b.delivered < o.n ∧ b.ended = false
    let b := o.branches.getD k default
    o.live = true → o.kind = .mc → o.stage = .accepted → o.accepted = true →
      (let x := (shapeOf o.recS o.tabS).move (o.pos * o.expect.toNat)
      let g := s.gatherBox o.got x (s.engLoc o x .load) o.orgS
      (∃ b ∈ o.branches, going b) → o.pos < o.n → g.came →
        ((∃ b ∈ o.branches, going b ∧ o.pos - b.delivered > b.slack) → exec (.multicastTileRead id) s = .next s) ∧
        ((∀ b ∈ o.branches, going b → o.pos - b.delivered ≤ b.slack) → ∃ t, exec (.multicastTileRead id) s = .next t ∧ t.mem = s.mem ∧
          t.crews = s.crews ∧ (t.eop id).pos = o.pos + 1 ∧ (t.eop id).branches.length = o.branches.length ∧
          ∀ (j : Nat) (b : Branch), o.branches[j]? = some b → going b → ∃ b' : Branch, (t.eop id).branches[j]? = some b' ∧ b'.staged = b.staged ++ [(packTile x g.vals).1] ∧
            b'.delivered = b.delivered)) ∧
      (∀ bs rest bad rest', k < o.branches.length → going b → b.parked = false → b.staged = bs :: rest → b.stagedBad = bad :: rest' →
        (let y := (shapeOf b.shape b.tab).move (b.delivered * b.dstep.toNat)
        let w := s.resolveBits o.got (s.engLoc o y .store) (y.scatter b.origin (unpackTile (shapeOf o.recS o.tabS) bs bad))
        b.yd = false → w.lands s → ∃ t, exec (.multicastTileDeliver id k) s = .next t ∧ Writes s t (w.bytes.map (·.2)) ∧
          ((t.eop id).branches.getD k default).delivered = b.delivered + 1 ∧ ((t.eop id).branches.getD k default).staged = rest) ∧
        (∀ r geo, b.yd = true → bad = [] → s.branchRing o b = some (r, geo) → s.ringGeo r = some geo → (s.ring r).owned (branchWaiter id k) < b.window →
          (s.ring r).fillers.head? = some (branchWaiter id k) → (s.ring r).canFill = true →
          ∃ t, exec (.multicastTileDeliver id k) s = .next t ∧ Writes s t (bytesAt (geo.pa + (s.ring r).fill * geo.unit) bs) ∧
            (t.ring r).full = (s.ring r).full ++ [(s.ring r).fill] ∧ ((t.eop id).branches.getD k default).delivered = b.delivered + 1)) ∧
      (s.opAway o = false → s.opWaits id = false → (∀ b ∈ o.branches, b.stamped = true ∧ ¬ going b) → ∃ t, exec (.engineOperationComplete id) s = .next t ∧
        t.mem = s.mem ∧ t.ops.get id = default))

/-- R187–R189: each COLL takes the next instance number of its group at its acceptance; its share, the word that the members compare and then its
elements, goes to every other member. The instance completes when every member's share is there: a lost member ends it with LINK, members that do not
agree in kind, operation, type or count with MISMATCH, both without a write; otherwise the member writes its part of the result. An integer sum is the
sum of all members modulo 2^32, whatever their order. A reading of the model in it: log 40. -/
def Obligations.Collectives : Prop :=
  ∀ (s : State) (id : Nat) (lost : List Nat) (devs : List Nat),
    (let o := s.eop id
    let x := shapeOf o.recS o.tabS
    let y := shapeOf o.recD o.tabD
    let g := s.gatherBox o.got x (s.engLoc o x .load) 0
    let rank := devs.findIdx (· == s.dev)
    let i := Instr.collectiveInstanceComplete id lost
    let share := fun q => s.contribOf o (devs.getD q 0)
    let other := fun q => q < devs.length ∧ q ≠ rank
    let inst := s.collSeq.get (collKey o.part o.tile) + 1
    o.live = true → o.kind = .coll → s.collGroup o.part o.tile = some devs → s.opAway o = false →
      (o.stage = .issued → s.firstIssued id = true → o.pos = 0 → ∃ t, exec (.engineAccept id) s = .next t ∧ (t.eop id).pos = inst ∧
        t.collSeq.get (collKey o.part o.tile) = inst ∧ t.mem = s.mem) ∧
      (o.stage = .accepted → g.came → ∃ t, exec (.engineOperationComplete id) s = .next t ∧ t.mem = s.mem ∧ (t.eop id).stage = .started ∧
        ((t.eop id).branches.headD default).staged = [(packTile x g.vals).1] ∧
        t.sent = s.sent ++ ((devs.filter (· != s.dev)).map fun d =>
          .tolsal d (.coll s.dev o.part o.tile o.pos (collHeader o x.count :: g.vals.map fun v => BitVec.ofNat 64 (v.getD 0))))) ∧
      (o.stage = .started →
        ((∃ q, other q ∧ share q = none ∧ q ∉ lost) → exec i s = .next s) ∧
        ((∀ q, other q → share q = none → q ∈ lost) → (∃ q, other q ∧ share q = none) → OpBecomes i s id fun p => p.stage = .performed ∧ p.status = 7) ∧
        ((∀ q, other q → ∃ m, share q = some m) →
          ((∃ q m, other q ∧ share q = some m ∧ (m.headD 0 ≠ collHeader o x.count ∨ m.length ≠ x.events + 1)) →
            OpBecomes i s id fun p => p.stage = .performed ∧ p.status = 6) ∧
          ((∀ q m, other q → share q = some m → m.headD 0 = collHeader o x.count ∧ m.length = x.events + 1) →
            (let b := o.branches.headD default
            let bad := b.stagedBad.headD []
            let members := (List.range devs.length).map fun q =>
              if q = rank then unpackTile x (b.staged.headD []) bad else ((share q).getD []).tail.map fun v => some (v.toNat % 2 ^ x.w)
            let w := s.resolveBits o.got (s.engLoc o y .store) (y.scatter 0 (collResult o.oba o.obb o.ta o.rm rank x.count y.count members))
            w.lands s → ∃ t, exec i s = .next t ∧ Writes s t (w.bytes.map (·.2)) ∧ (t.eop id).stage = .performed ∧
              (t.eop id).status = if bad = [] then 0 else 5))))) ∧
    (∀ (members : List (List (Option Nat))) (vs : List Nat) (e : Nat), members ≠ [] → members.length ≤ 16 → (∀ v ∈ vs, v < 2 ^ 32) →
      members.map (fun m => m.getD e none) = vs.map some → collReduce 0x02 0 members e = some (vs.sum % 2 ^ 32))

/-- R119, R123 and R375–R382: a matrix operation performs on the tile its name is bound to. ACC.ZERO leaves zeros; MMA of integer types adds to word (m, j)
the sum of the products of row m of its first operand and row j of its second, modulo 2^32; ACC.LD leaves the box's words; ACC.ST writes the words to the
box. An operation whose name has no tile takes a free one. A draining tile that nothing names is free. A reading of the model in it: log 41. -/
def Obligations.MatrixOperations : Prop :=
  ∀ (s : State) (id : Nat),
    (let o := s.eop id
    let x := (shapeOf o.recS o.tabS).flat
    let tile := (s.core o.core).tiles.get o.tile
    let i := Instr.matrixOperationExecute o.core id
    let ended := fun (t : State) => t.ops.get id = default
    let after := fun (t : State) => (t.core o.core).tiles.get o.tile
    (o.live = true → o.stage = .accepted → (s.gang o.gang).live = true → (s.gang o.gang).saved = false → s.matrixHeld id = false →
     tgSpc o.stamp = 3 → s.opWaits id = false → o.tile < 16 →
      (o.kind = .accZero → ∃ t, exec i s = .next t ∧ ended t ∧ t.mem = s.mem ∧ (∀ w, (after t).words.get w = 0) ∧ (after t).poison = [] ∧
        ∀ k, k ≠ o.tile → (t.core o.core).tiles.get k = (s.core o.core).tiles.get k) ∧
      (o.kind = .accNew → ∃ t, exec i s = .next t ∧ ended t ∧ t.mem = s.mem ∧ after t = tile) ∧
      (∀ ra rb ga gb, o.kind = .mma → ra ≠ rb → s.obRing o.gang o.oba = some ra → s.obRing o.gang o.obb = some rb → s.ringGeo ra = some ga →
        s.ringGeo rb = some gb → (s.ring ra).consumers.head? = some (opWaiter id) → (s.ring rb).consumers.head? = some (opWaiter id) →
        (s.ring ra).canRead = true → (s.ring rb).canRead = true → (s.ring ra).spans.get (s.ring ra).read = 0 → (s.ring rb).spans.get (s.ring rb).read = 0 →
        o.ta ∈ [0x00, 0x04] → o.tb ∈ [0x00, 0x04] → o.kd % 16 = 0 → s.poison = [] → tile.poison = [] →
        (let elem := fun (g : RingGeo) (r : Ring) (t row k : Nat) => readInt 8 (t == 0x04) (s.mem.read (g.pa + r.read * g.unit + row * o.kd + k)).toNat
        ∃ t, exec i s = .next t ∧ ended t ∧ t.mem = s.mem ∧ ∀ m j, m < 64 → j < 64 →
          (after t).words.get (64 * m + j) = tile.words.get (64 * m + j) +
            BitVec.ofInt 32 ((List.range o.kd).map fun k => elem ga (s.ring ra) o.ta m k * elem gb (s.ring rb) o.tb j k).sum)) ∧
      (let g := s.gatherBox o.got x (s.engLoc o x .load) o.orgS
      o.kind = .accLd → g.came → ∃ t, exec i s = .next t ∧ ended t ∧ t.mem = s.mem ∧
        ∀ w v, w < 4096 → g.vals[w]? = some (some v) → (after t).words.get w = accLoad x.etype v) ∧
      (let w := s.resolveBits o.got (s.engLoc o x .store) (x.scatter o.orgS ((List.range 4096).map fun n => some (accStore x.etype (rmOf o.rm) o.sat
        (tile.words.get n))))
      o.kind = .accSt → tile.poison = [] → w.lands s → ∃ t, exec i s = .next t ∧ ended t ∧ Writes s t (w.bytes.map (·.2)) ∧ after t = tile)) ∧
    (∀ n, o.live = true → o.kind = .accZero → o.stage = .accepted → (s.gang o.gang).live = true → (s.gang o.gang).saved = false →
      s.matrixHeld id = false → o.tile = 16 + id → (s.core o.core).freeTile = some n → (s.gang o.gang).acc.get 0 = some o.tile →
      ∃ t, exec i s = .next t ∧ (t.gang o.gang).acc.get 0 = some n ∧ ((t.core o.core).tiles.get n).gang = some o.gang ∧
        ((t.core o.core).tiles.get n).words.cells = [])) ∧
    (∀ core k, (let v := (s.core core).tiles.get k
      v.draining = true → v.gang.isSome = true → (s.tileBusy core k = false → ∃ t, exec (.accTileDrainFree core k) s = .next t ∧ t.mem = s.mem ∧
          (t.core core).tiles.get k = default ∧ ∀ j, j ≠ k → (t.core core).tiles.get j = (s.core core).tiles.get j) ∧
        (s.tileBusy core k = true → exec (.accTileDrainFree core k) s = .next s)))

/-! ## Carders, carousel, replacement (R66, R191, R209–R217, R429, R430) -/

namespace Sys2Proof.Machine

/-- Only these bits of a record may have changed: bit 14 and bits 639:576. -/
def RecordKept (a b : BitVec 1024) : Prop := ∀ n, n < 1024 → n ≠ 14 → (n < 576 ∨ 640 ≤ n) → b.getLsbD n = a.getLsbD n

end Sys2Proof.Machine

/-- R209, R211, R212 and R430: a carder with room accepts the first record at its port: SUMMARY is written, HELD says whether the operator's entry is
invalid, the rest of the record stands, and the token waits last. A record from another die takes a free slot there and carries that slot's handle; its
acceptance then frees the slot it came from, with its generation one up. A packet bound for the spill ring is written at the ring's tail, and the ring's
head is accepted when there is room. With 4,096 tokens waiting nothing is accepted. A lost frame between dies is sent again. Readings of the model in it: log 43, 44. -/
def Obligations.TokensAccepted : Prop :=
  ∀ (s : State) (die op : Nat) (p : Packet) (r : List Packet),
    (let c := s.carder die op
    let v := oeV (s.opEntry die op)
    let waits := fun (t : State) (h : Word) => (t.carder die op).waiting = c.waiting ++ [h]
    let marks := fun (t : State) (h : Word) (a : BitVec 1024) (sum : DWord) => recGet (t.tok h) 576 64 = sum.toNat ∧
      (t.tok h).getLsbD 14 = !v ∧ RecordKept a (t.tok h)
    (s.carderOut die = false → c.sendParked = false → c.inbound = p :: r →
      (p.spill = false → c.waiting.length ≥ 4096 → exec (.tokenAccept die op) s = .next s) ∧
      (p.spill = false → c.waiting.length < 4096 → p.fromDie = none → p.src = none →
        ∃ t, exec (.tokenAccept die op) s = .next t ∧ t.mem = s.mem ∧ waits t p.handle ∧ (t.carder die op).inbound = r ∧
          marks t p.handle (s.tok p.handle) p.summary ∧ ∀ k, k ≠ tokKey p.handle → t.pool.get k = s.pool.get k) ∧
      (∀ d i, p.spill = false → c.waiting.length < 4096 → p.fromDie = some d → p.src = none → s.dev < 16 → die < 4 →
        (s.pool.get (die * 32768 + i)).genNow < 16 → (∀ f ∈ s.dieFrames, f.lost = false) → s.freeSlot die = some i → i < 32768 →
        ∃ t h, exec (.tokenAccept die op) s = .next t ∧ t.mem = s.mem ∧ waits t h ∧ tokKey h = die * 32768 + i ∧ rcHandle (t.tok h) = h ∧
          (t.pool.get (tokKey h)).used = true ∧ (t.pool.get (tokKey h)).part = p.part ∧ bitsOf (rcEpoch (t.tok h)) 0 32 = bitsOf (rcEpoch p.image) 0 32 ∧
          rcPos (t.tok h) = rcPos p.image ∧ recGet (t.tok h) 576 64 = p.summary.toNat) ∧
      (∀ pa mt, p.spill = true → p.fromDie = none → p.src = none → s.unitXlat (s.die die).spillPart p.level .store (s.spillVa die op c.spillTail) = .ok s.dev pa mt →
        ∃ t, exec (.tokenAccept die op) s = .next t ∧ (t.carder die op).inbound = r ∧ (t.carder die op).spillTail = c.spillTail + 1 ∧
          (t.carder die op).waiting = c.waiting ∧ t.readVal pa 8 = p.summary.toNat ∧ t.readVal (pa + 8) 4 = p.handle.toNat ∧
          ∀ a, ¬ inRange pa 16 a → t.mem.read a = s.mem.read a)) ∧
    (s.carderOut die = false → c.parked = false → c.spillHead < c.spillTail → c.waiting.length < 4096 →
      (let g := s.readSpill die op
      let h := BitVec.ofNat 32 (leNat g.table / 2 ^ 64)
      g.came → g.poisoned = false → s.tokLive h = true → ∃ t, exec (.carderSpillAccept die op) s = .next t ∧ waits t h ∧
        (t.carder die op).spillHead = c.spillHead + 1 ∧ (t.carder die op).spillTail = c.spillTail ∧ t.mem = s.mem ∧
        marks t h (s.tok h) (BitVec.ofNat 64 (leNat g.table)))) ∧
    (∀ f ∈ s.dieFrames, f.src = none → f.accepted = true → (s.pool.get f.slot).genNow < 16 → ∃ t, exec (.tokenAcceptReturn f.slot) s = .next t ∧
      (t.pool.get f.slot).used = false ∧
      (t.pool.get f.slot).gen = (if (s.pool.get f.slot).genNow = 15 then 1 else (s.pool.get f.slot).genNow + 1) ∧ f ∉ t.dieFrames ∧ t.mem = s.mem) ∧
    (∀ k, exec (.dieLinkResend k) s = .next { s with dieFrames := s.dieFrames.modify k fun f => { f with lost := false } }))

/-- R212–R214: a batt forms of the oldest tokens, at most HEIGHT of them, when HEIGHT wait, or the oldest has waited out a TIMEOUT that is not 0. Its rows
carry each record's attention header: KIND, SSLOT, POS, the row of a parent in the batt or 0xFF, MFLAGS and CHUNK. A batt that is pinned, or whose pass
has begun, is dispatched with the table's partition and the copy of its launch record. -/
def Claims.BattsFormAndGo : Prop :=
  ∀ (s : State) (die op : Nat),
    (let c := s.carder die op
    let e := s.opEntry die op
    let n := bitsOf e 41 7 + 1
    let hs := c.waiting.take n
    s.carderRuns die op = true →
      (∀ p ∈ [(Instr.battForm die op, decide (c.waiting.length ≥ n)), (.carderTimeout die op, decide (bitsOf e 0 32 ≠ 0))],
        c.batt = none → c.waiting ≠ [] →
          (p.2 = false → exec p.1 s = .next s) ∧
          (p.2 = true → ∃ t b, exec p.1 s = .next t ∧ (t.carder die op).batt = some b ∧ (t.carder die op).waiting = c.waiting.drop n ∧ t.mem = s.mem ∧
            t.pool = s.pool ∧ b.rows.map (·.handle) = hs ∧ (∀ w ∈ b.rows, w.released = false) ∧
            ∀ w ∈ b.rows, (s.pool.get (tokKey w.handle)).poison = [] →
              (let k := s.tok w.handle
              let x := w.hdr
              bitsOf x 62 2 = recGet k 22 2 ∧ bitsOf x 48 14 = recGet k 528 14 ∧ bitsOf x 24 24 = recGet k 160 24 ∧ bitsOf x 12 4 = recGet k 524 4 ∧
              bitsOf x 0 12 = recGet k 512 12 ∧
              (rcParent k = 0 ∨ rcParent k ∉ hs → bitsOf x 16 8 = 0xFF) ∧
              (rcParent k ≠ 0 → rcParent k ∈ hs → hs[bitsOf x 16 8]? = some (rcParent k))))) ∧
      (∀ b, c.batt = some b →
        (oePin e = false → c.boarding = false → exec (.battDispatch die op) s = .next s) ∧
        (oePin e = true ∨ c.boarding = true → ∃ t, exec (.battDispatch die op) s = .next t ∧ (t.carder die op).batt = none ∧ t.mem = s.mem ∧
          (t.die die).placeq = (s.die die).placeq ++ [.batt ⟨die, op, (s.die die).tableGen, (s.die die).opTable.part, (s.die die).copies.get op, b.rows⟩])))

/-- R191, R210, R214, R216 and R217: the carousel takes up a pass whose parked read has gone through, or begins a pass of the next entry for which a batt
waits and whose read is not parked; with none it idles. A tile under way is read and written to a destination with room; with the first tile of the pass
the batts of that layer board it; with its last destination the next tile comes up, and with the last tile the pass ends and the next entry stands, past
the last with one more rotation. A read that does not translate parks, and the carousel goes on with the next entry. Between passes a carousel program
that the table grants takes effect at its entry 0, and an operator table, its launch records read and its grants made, with a new generation; their
commands complete, with FORM where they fail their check. -/
def Claims.CarouselPasses : Prop :=
  ∀ (s : State) (die : Nat),
    (let d := s.die die
    let n := s.carCount die
    let free := d.carousel.present = true ∧ d.carousel.frozen = false ∧ d.pass = none ∧ s.carderOut die = false
    let parked := ∀ p ∈ d.aside, p.parked = true
    let comes := fun k => s.entryWaits die ((d.standing + k) % n) = true ∧ ∀ p ∈ d.aside, p.entry ≠ (d.standing + k) % n
    (∀ p, free → d.aside = [p] → p.parked = false → ∃ t, exec (.carouselPassBegin die) s = .next t ∧ (t.die die).pass = some p ∧ (t.die die).aside = [] ∧
      (t.die die).standing = d.standing ∧ t.mem = s.mem) ∧
    (free → d.pend = [] → parked → (∀ k, k < n → ¬ comes k) → exec (.carouselPassBegin die) s = .next s) ∧
    (∀ k, free → d.pend = [] → parked → k < n → comes k → (∀ j, j < k → ¬ comes j) →
      ∃ t p, exec (.carouselPassBegin die) s = .next t ∧ (t.die die).pass = some p ∧ p.entry = (d.standing + k) % n ∧ p.tile = 0 ∧ p.begun = false ∧
        t.mem = s.mem ∧ t.carders = s.carders) ∧
    (∀ p cause a i, d.pass = some p → p.loaded = false → s.carderOut die = false → (s.readTile die p).bad = some (cause, a) → d.freeFq = some i →
      s.recRoom die 1 = true → ∃ t, exec (.carouselTileFill die) s = .next t ∧ (t.die die).pass = none ∧
        (t.die die).aside = d.aside ++ [{ p with parked := true, passed := true }] ∧ ((t.die die).fq.get i).cause = cause ∧ t.mem = s.mem) ∧
    (∀ p k r geo, d.pass = some p → p.parked = false → p.loaded = false → p.given = [] → p.lost = [] → s.carderOut die = false →
      carDests die (s.carEntry die p.entry) = [(k, r)] → s.ringGeo r = some geo → (s.ring r).fillers = [] → (s.ring r).canFill = true →
      (let e := s.carEntry die p.entry
      let g := s.unitGather (tagCarousel die) d.carousel.part d.carousel.level (ceBase e + p.tile * ceUnit e) (ceUnit e)
      g.came → g.poisoned = false → ∃ t, exec (.carouselTileFill die) s = .next t ∧
        Writes s t (bytesAt (geo.pa + (s.ring r).fill * geo.unit) g.table) ∧ (t.ring r).full = (s.ring r).full ++ [(s.ring r).fill] ∧
        (p.begun = false → ∀ op, op < 64 → s.waitsToBoard die op p.entry = true → (t.carder die op).boarding = true) ∧
        (p.tile + 1 < ceTiles e → ∃ q, (t.die die).pass = some q ∧ q.entry = p.entry ∧ q.tile = p.tile + 1) ∧
        (ceTiles e ≤ p.tile + 1 → (t.die die).pass = none ∧ (p.passed = false → p.entry + 1 < n → (t.die die).standing = p.entry + 1 ∧ (t.die die).rot = d.rot) ∧
          (p.passed = false → p.entry + 1 = n → (t.die die).standing = 0 ∧ (t.die die).rot = d.rot + 1)))) ∧
    (d.pass.isSome = true → exec (.configTakeEffect die) s = .next s) ∧
    (∀ p, d.pass = none → d.aside = [] → d.pend = [p] → (s.pendRegion die p).frozen = false → (s.pendRegion die p).failed = false →
      (p.carousel = true → programBad die p.region.bytes d.opTable.bytes d.copies = true → ∃ t, exec (.configTakeEffect die) s = .next t ∧
        (t.die die).carousel = d.carousel ∧ (t.die die).pend = [] ∧ (t.cmds.get p.cmd).st = .finished ∧ (t.cmds.get p.cmd).status = csForm ∧ t.mem = s.mem) ∧
      (p.carousel = true → programBad die p.region.bytes d.opTable.bytes d.copies = false → ∃ t, exec (.configTakeEffect die) s = .next t ∧ (t.die die).carousel = p.region ∧ (t.die die).standing = 0 ∧
        (t.die die).rot = 0 ∧ (t.die die).pend = [] ∧ (t.cmds.get p.cmd).st = .finished ∧ (t.cmds.get p.cmd).status = 0 ∧ t.mem = s.mem) ∧
      (∀ copies, p.carousel = false → (s.updDie die fun d => { d with pend := [] }).readCopies p.cmd p.region.bytes (List.range 64) = .ok copies →
        tableBad die p.region.bytes copies d.programNext = false → (∀ op j, op ∈ validOps p.region → j < 4 → grantOf (copies.get op) j = none) →
        ∃ t, exec (.configTakeEffect die) s = .next t ∧ (t.die die).opTable = p.region ∧ (t.die die).copies = copies ∧
          (t.die die).tableGen = d.tableGen + 1 ∧ (t.die die).pend = [] ∧ (t.cmds.get p.cmd).st = .finished ∧ (t.cmds.get p.cmd).status = 0 ∧
          t.mem = s.mem)))

/-! ## Placement, stealing, dies (R194–R196, R214, R215, R219, R426–R433, R483) -/

/-- R194–R196, R214, R215, R426 and R427: the placer starts the crews of a gang that fits: each with its arguments, budget, level and private root, its path
of 32 lanes at the record's entry, its registers zero but S0; a dispatched gang's lanes hold the views of their rows. Then the request is no longer waiting.
No byte of memory changes outside the gang's local range, whose contents are undefined from then on (R63). -/
def Claims.Placement : Prop :=
  ∀ (s : State) (die : Nat) (r : PlaceReq) (f : Fit), s.nextPlace die = some (r, f) → s.crews.keys.length + f.crews.length ≤ 16384 →
    (f.crews.map (·.1)).Nodup →
    ∀ part lrec level index,
    (match r with
     | .launchGang l i => part = (s.launches.get l).part ∧ lrec = (s.launches.get l).lrec ∧ level = (s.launches.get l).level ∧ index = i
     | .batt job => part = job.part ∧ lrec = job.lrec ∧ level = false ∧ index = 0
     | .resumeCrew _ _ => False) →
    ∃ t, exec (.gangPlace die) s = .next t ∧ (t.die die).placeq = (s.die die).placeq.erase r ∧
      (∀ a, ¬ inRange (localAp f.core + f.localBase) (bitsOf lrec 27 9 * 1024) a → t.mem.read a = s.mem.read a) ∧
      (let w := t.gang s.nextGang
      w.live = true ∧ w.part = part ∧ w.lrec = lrec ∧ w.index = index ∧ w.core = f.core ∧ w.baseQ = f.baseQ ∧ w.localBase = f.localBase ∧
      w.reserve = (List.range (bitsOf lrec 41 5)).map (bitsOf lrec 46 5 + 1 + ·) ∧
      (∀ b, b < 16 → (w.bars.get b).members = bitsOf lrec 46 5 + 1 ∧ (w.bars.get b).phase = 0 ∧ (w.bars.get b).arrived = 0) ∧
      (∀ x ∈ f.crews,
        (let k := w.crews.get x.1
        let c := t.crew k
        k ∉ s.crews.keys ∧ c.place = .resident ∧ c.part = part ∧ c.gang = s.nextGang ∧ c.idx = x.1 ∧ c.core = f.core ∧ c.quarter = x.2.1 ∧
        c.rowBase = x.2.2 ∧ c.budget = 8 * (bitsOf lrec 36 5 + 1) ∧ c.prio = lrec.getLsbD 26 ∧ c.level = level ∧ c.member = true ∧
        c.paths = [⟨bitsOf lrec 64 56, BitVec.allOnes 32, none, 0⟩] ∧ (∀ m, c.sreg m = if m = 0 then lrec.extractLsb' 192 64 else 0) ∧
        (∀ m l, c.vreg m l = 0) ∧ (∀ m, c.p.get m = 0) ∧ (∀ m, c.dword m = 0) ∧ c.fpsr = 0 ∧ c.seed = 0 ∧
        c.privRoot.toNat = (bitsOf lrec 328 40 * 256 + (index * 32 + x.1) * (bitsOf lrec 368 16 * 256)) % 2 ^ 48 ∧
        c.privHwm.toNat = bitsOf lrec 384 17 ∧ c.privLimit.toNat = bitsOf lrec 401 17 ∧ c.sett.phase = .idle ∧ c.holds = [] ∧
        (∀ job, r = .batt job → ∀ l q, l < 32 → x.1 < 32 → job.rows[x.1 * 32 + l]? = some q →
          c.t.get (2 * 32 + l) = q.handle ∧ c.t.get (0 * 32 + l) = q.hdr.setWidth 32 ∧ c.t.get (1 * 32 + l) = q.hdr.extractLsb' 32 32 ∧
          (4 ∉ (s.pool.get (tokKey q.handle)).poison → c.t.get (3 * 32 + l) = (s.tok q.handle).extractLsb' 128 32) ∧
          (c.t.get (7 * 32 + l)).getLsbD 31 = true)))) ∧
      ∀ k ∈ s.crews.keys, t.crew k = s.crew k

/-- R428: a head request that fits no core of its die presses the core where the fewest crews must go, and that number. R219: a core that is not pressed
offers room to the lowest reserve crew that fits, once nothing of the die can be placed: it starts at the record's join entry, a member of no barrier. -/
def Claims.PressureAndReserve : Prop :=
  ∀ (s : State) (die core : Nat),
    (∀ r rest c n, s.placeOrder die = r :: rest → s.nextPlace die = none → s.pressFor (s.wantOf die r) = some (c, n) → s.bestFit (s.wantOf die r) = none →
      ∃ t, exec (.gangPlace die) s = .next t ∧ (t.core c).pressed = some n ∧ t.crews = s.crews ∧ t.mem = s.mem) ∧
    ((s.core core).pressed.isSome = true ∨ (s.nextPlace (dieOf core)).isSome = true → exec (.reserveCrewAttach core) s = .next s) ∧
    (∀ g c q row, (s.core core).pressed = none → s.nextPlace (dieOf core) = none → s.crews.keys.length < 16384 → (s.gang g).core = core →
      ((s.gangs.cells.filter fun e => e.2.core == core).findSome? fun e => (s.reserveOf e.1).map fun x => (e.1, x)) = some (g, c, q, row) →
      ∃ t, exec (.reserveCrewAttach core) s = .next t ∧ t.mem = s.mem ∧ c ∉ (t.gang g).reserve ∧
        (let k := (t.gang g).crews.get c
        k ∉ s.crews.keys ∧ (t.crew k).place = .resident ∧ (t.crew k).idx = c ∧ (t.crew k).quarter = q ∧ (t.crew k).rowBase = row ∧
        (t.crew k).core = core ∧ (t.crew k).member = false ∧
        (t.crew k).paths = [⟨bitsOf (s.gang g).lrec 128 56, BitVec.allOnes 32, none, 0⟩]))

/-- R431–R433: a batt lent to an idle core of another die is marked LENT at its records and leaves the victim's queue; the thief's copies have new slots and
EPOCH e + 1; once the victim has the acknowledgement its copies are freed and the thief places the gang. A lend that is disturbed before is undone: the
victim's copies are no longer lent, at EPOCH e + 2, and the batt waits on the victim again; when the victim is reset the thief places the gang. -/
def Claims.Lending : Prop :=
  ∀ (s : State) (j : BattJob) (row : Row),
    (let l := s.lends
    let lent := fun (t : State) (h : Word) (b : Bool) (n : Nat) => (t.tok h).getLsbD 15 = b ∧ rcEpoch (t.tok h) = rcEpoch (s.tok h) + BitVec.ofNat 32 n
    j.rows = [row] →
    (∀ victim core, dieOf core ≠ victim → core < Config.cores → s.onCore core = [] → s.oldestSteal victim core = some j → l.cells = [] →
      ∃ t, exec (.battStealGrant victim j.op core) s = .next t ∧ t.mem = s.mem ∧ lent t row.handle true 0 ∧
        (t.die victim).placeq = (s.die victim).placeq.erase (.batt j) ∧ t.lends.get 0 = ⟨true, j, core, 0, [rcEpoch (s.tok row.handle)], []⟩) ∧
    (∀ k core e i, l.get k = ⟨true, j, core, 0, [e], []⟩ → dieOf core < 4 → s.dev < 16 → s.freeSlot (dieOf core) = some i → i < 32768 →
      (s.pool.get (dieOf core * 32768 + i)).genNow < 16 →
      ∃ t h, exec (.stealReceive k) s = .next t ∧ t.mem = s.mem ∧ (t.lends.get k).stage = 1 ∧ (t.lends.get k).newRows = [{ row with handle := h }] ∧
        tokKey h = dieOf core * 32768 + i ∧ rcEpoch (t.tok h) = e + 1 ∧ (t.tok h).getLsbD 15 = false ∧ rcHandle (t.tok h) = h) ∧
    (∀ k core e new, l.get k = ⟨true, j, core, 1, [e], [new]⟩ →
      (∃ t, exec (.stealAckDelivered k) s = .next t ∧ t.mem = s.mem ∧ (t.lends.get k).live = false ∧
        (t.die (dieOf core)).placeq = (s.die (dieOf core)).placeq ++ [.batt { j with rows := [new] }] ∧
        (s.tokLive row.handle = true → (s.tok row.handle).getLsbD 15 = true → rcEpoch (s.tok row.handle) = e →
          (t.pool.get (tokKey row.handle)).used = false)) ∧
      (tokKey new.handle ≠ tokKey row.handle → ∃ t, exec (.lendDisturbance k false) s = .next t ∧ t.mem = s.mem ∧ (t.lends.get k).live = false ∧
        (t.die j.die).placeq = (s.die j.die).placeq ++ [.batt j] ∧ (t.tok row.handle).getLsbD 15 = false ∧ rcEpoch (t.tok row.handle) = e + 2 ∧
        (t.pool.get (tokKey new.handle)).used = false) ∧
      (∃ t, exec (.lendDisturbance k true) s = .next t ∧ t.mem = s.mem ∧ (t.lends.get k).live = false ∧
        (t.die (dieOf core)).placeq = (s.die (dieOf core)).placeq ++ [.batt { j with rows := [new] }])))

/-- R11, R209, R433 and R483: a reset die's units are as at start-up and no crew is on its cores, while memory keeps its bytes and other dies their crews.
An idle cluster that no lend touches is gated, and a gated one is not any more; a throttle is a die's, counts its episodes and ends. -/
def Claims.DiesAndPower : Prop :=
  ∀ (s : State) (die cluster : Nat), die < 4 →
    ((∀ e ∈ s.lends.cells, dieOf e.2.thiefCore ≠ die ∧ e.2.job.die ≠ die) → ∃ t, exec (.dieReset die) s = .next t ∧ t.mem = s.mem ∧ t.poison = s.poison ∧
      t.dies.get die = default ∧ (∀ e ∈ t.crews.cells, dieOf e.2.core ≠ die) ∧ (∀ e ∈ s.crews.cells, dieOf e.2.core ≠ die → e ∈ t.crews.cells) ∧
      (∀ core, dieOf core = die → t.core core = default) ∧ ∀ k, k / 32768 = die → (t.pool.get k).used = false) ∧
    (cluster < 6 → (∀ i, i < 8 → s.onCore (die * 48 + cluster * 8 + i) = []) → s.lendsAt die = false →
      ∃ t, exec (.clusterPowerGate die cluster true) s = .next t ∧ t.mem = s.mem ∧ t.crews = s.crews ∧ ((t.die die).gated).getLsbD cluster = true ∧
        ∀ n, n ≠ cluster → (t.die die).gated.getLsbD n = (s.die die).gated.getLsbD n) ∧
    (cluster < 6 → ∃ t, exec (.clusterPowerGate die cluster false) s = .next t ∧ t.mem = s.mem ∧ t.crews = s.crews ∧
      (t.die die).gated.getLsbD cluster = false) ∧
    (∀ temp level, s.boot.powered = true → ∃ t, exec (.thermalThrottle die temp level) s = .next t ∧ t.mem = s.mem ∧ t.crews = s.crews ∧
      (t.die die).temp = temp ∧ (t.die die).throttle = level ∧ (t.die die).episodes =
        if (s.die die).throttle = 0 ∧ level ≠ 0 ∧ (s.die die).episodes ≠ 0xFFFF then (s.die die).episodes + 1 else (s.die die).episodes) ∧
    (∃ t, exec (.throttleEpisodeEnd die) s = .next t ∧ t.mem = s.mem ∧ t.crews = s.crews ∧ (t.die die).throttle = 0)

/-! ## Benches (R223–R255, R398–R400) -/

namespace Sys2Proof.Machine

/-- Entries that the pushes `outs` of element e put into input channel c of element e' (R226, R244). -/
def Bench.sent2 (x : Bench) (e e' c : Nat) (outs : List (Nat × Ent)) : List Ent :=
  (outs.filter fun p => arcV (imgArc x.img e p.1) && arcKind (imgArc x.img e p.1) == 0 && arcElem x.img (imgArc x.img e p.1) == e' &&
    arcCh (imgArc x.img e p.1) == c).map (·.2)

/-- Element e of bench b pushes to output channels, along their arcs, and then pops heads of its own channels; nothing of memory changes. -/
structure Flows (s t : State) (b e : Nat) (outs : List (Nat × Ent)) (pops : List Nat) : Prop where
  channels : ∀ e' c, (t.bench b).chan e' c =
    ((s.bench b).chan e' c ++ (s.bench b).sent2 e e' c outs).drop (if e' = e then pops.count c else 0)
  queues : ∀ n, ((t.core (s.bench b).core).queues.get n).entries.map (·.2) = ((s.core (s.bench b).core).queues.get n).entries.map (·.2) ++
    (outs.filter fun p => arcV (imgArc (s.bench b).img e p.1) && arcKind (imgArc (s.bench b).img e p.1) == 1 &&
      arcQueue (imgArc (s.bench b).img e p.1) == n).map fun p => p.2.val.setWidth 64
  others : ∀ k, k ≠ b → t.bench k = s.bench k

/-- A beat of a firing of rule i ends: `v` goes to the outputs `outs`, the channels of DEQ are popped; with the last beat the predicates change as the
rule says, else the next beat comes up (R233). `p`: the predicates as the action left them. -/
structure BeatEnds (s t : State) (b e i beat : Nat) (outs : Nat → Bool) (v : Word) (p : Byte) : Prop where
  flows : Flows s t b e (((List.range 4).filter outs).map fun o =>
      (o, ⟨v, s.outTag b e (imgRule (s.bench b).img e i), (s.bench b).iterOf e (imgRule (s.bench b).img e i),
        (s.bench b).ruleInv e (imgRule (s.bench b).img e i)⟩))
    ((s.bench b).beatPops e (imgRule (s.bench b).img e i))
  next : beat + 1 < (imgRule (s.bench b).img e i).depth → ((t.bench b).elem e).firing = some (i, beat + 1) ∧ ((t.bench b).elem e).preds = p
  last : (imgRule (s.bench b).img e i).depth ≤ beat + 1 → ((t.bench b).elem e).firing = none ∧
    ((t.bench b).elem e).preds = (p &&& ~~~(imgRule (s.bench b).img e i).pwmask) ||| ((imgRule (s.bench b).img e i).pnew &&& (imgRule (s.bench b).img e i).pwmask)

/-- What a core has stored has reached its homes: nothing is in its combining buffer or on its way. -/
def State.coreSent (s : State) (core : Nat) : Prop := (s.core core).cb = [] ∧ s.coreBusy core = false

/-- Element e may take a step of its kind, and takes no core queue's entries. -/
structure Bench.Steps (x : Bench) (e kind : Nat) : Prop where
  may : x.mayStep e kind = true
  noQueue : ewQinv (x.word e) = false

/-- Element e faults: its token waits to be sent, and it fires nothing (R249). -/
def Faults (s t : State) (b e cause addr : Nat) : Prop :=
  ((t.bench b).elem e).faulted = true ∧ t.mem = s.mem ∧ ∃ k, ((t.bench b).elem e).sendTok = some k ∧ bitsOf k.bits 40 8 = cause ∧
    bitsOf k.bits 64 64 = addr % 2 ^ 64 ∧ k.elem = e

end Sys2Proof.Machine

/-- R227, R398 and R399: BENCH.ENTER checks its target while the sett executes; at commit the crew waits for its group with its five operands, refused when
one of them is out of range, and is held. BENCH.EXIT of a running bench makes it drain; 1 says there is none, 2 that it does not run. BENCH.STATE gives
the state's code. -/
def Claims.BenchInstructions : Prop :=
  ∀ (g : Guard) (sn : BitVec 6) (o : Ops1) (s : State),
    (let c := s.me
    let ops := (List.range 5).map fun i => c.sreg (sn.toNat + i)
    (c.sett.phase = .exec → s.on g ≠ [] →
      (∀ e, targetBad (c.sreg (sn.toNat + 3)) 16 false = some e → Raises (.benchEnter g sn) s e.1 e.2 0) ∧
      (targetBad (c.sreg (sn.toNat + 3)) 16 false = none → Captures (.benchEnter g sn) s [⟨c.sett.slot, 0, noLoc, ops⟩] [])) ∧
    (c.sett.phase = .exec → c.popTrap = false → s.on o.g ≠ [] →
      Captures (.benchExit o) s [⟨c.sett.slot, 0, noLoc, [((s.src 0 o.a false ((s.on o.g).headD 0)).setWidth 32).setWidth 64]⟩] []) ∧
    (∀ cap, c.sett.phase = .effects → c.caps = [cap] →
      (s.coreClear → ∃ t, exec (.benchEnter g sn) s = .next t ∧ LandsAs s t [] ∧ t.mem = s.mem ∧ t.me.holds = c.holds ++ [.bench s.nextBench] ∧
        (let x := t.bench s.nextBench
        x.live = true ∧ x.st = .none ∧ x.gang = c.gang ∧ x.core = c.core ∧ x.part = c.part ∧ x.entries = [⟨s.cur, cap.args, c.level⟩] ∧
        x.first = bitsOf (cap.args.getD 2 0) 0 5 ∧ x.fin = if s.enterRefused c cap.args = true then some (benchRecord 3 0 0) else none)) ∧
      (let v := fun n => uniWrites c o.g o.d false (BitVec.ofNat 64 n)
      let k := bitsOf (cap.args.getD 0 0) 0 5
      (s.benchAt c.gang k = none → ∃ t, exec (.benchExit o) s = .next t ∧ LandsAs s t (v 1) ∧ t.benches = s.benches ∧ t.mem = s.mem) ∧
      (∀ b, s.benchAt c.gang k = some b →
        ((s.bench b).st = .running → ∃ t, exec (.benchExit o) s = .next t ∧ LandsAs s t (v 0) ∧ t.bench b = { s.bench b with st := .draining, exiting := true } ∧
          t.mem = s.mem) ∧
        ((s.bench b).st ∈ [BenchSt.draining, .stopping, .saved, .aborting] → ∃ t, exec (.benchExit o) s = .next t ∧ LandsAs s t (v 2) ∧
          t.benches = s.benches ∧ t.mem = s.mem)))) ∧
    Computes (.benchState o) o.g o.d false false (fun s _ v => v =
      match s.benchAt s.me.gang (bitsOf ((s.src 0 o.a false ((s.on o.g).headD 0)).setWidth 32 : Word) 0 5) with
      | some b => BitVec.ofNat 64 (match (s.bench b).st with
        | .none => 0
        | .running => 2
        | .frozen => 4
        | .draining => 5
        | .stopping => 6
        | .saved => 7
        | .aborting => 9)
      | none => 0))

/-- R227, R228, R240, R245, R246 and R506: crews whose operands disagree, or that are not on one core, are all refused, with the level of their group; an
image whose digest does not match is refused; a group whose image passes starts at the smallest offset with its elements as their words say. A canonical
image runs in the form the mapper gives it, once its crews are together, or is MAPFAIL, or refused when the budgets of its crews do not hold it. R247: the
injector gives source after source the next invocation's number. -/
def Claims.BenchesStart : Prop :=
  ∀ (s : State) (b : Nat),
    (let x := s.bench b
    (∀ group, x.live = true → x.st = .none → x.fin = none → x.region.present = false → s.groupOf b = some group → b ∈ group →
      s.quartersRest (group.flatMap fun i => (s.bench i).entries.map (·.crew)) = true →
      (let entries := group.flatMap fun i => (s.bench i).entries
      let core := (s.crew (entries.headD default).crew).core
      ((∃ e ∈ entries, e.ops ≠ x.ops ∨ (s.crew e.crew).core ≠ core) → ∃ t, exec (.benchStart b) s = .next t ∧ t.mem = s.mem ∧
        ∀ i ∈ group, (t.bench i).fin = some (benchRecord 3 0 0) ∧ ((t.bench i).level = true ↔ ∀ e ∈ entries, e.level = true)) ∧
      (entries ≠ [] → (∀ e ∈ entries, e.ops = x.ops) → (∀ e ∈ entries, (s.crew e.crew).core = core) →
       (entries.map fun e => (s.crew e.crew).quarter).Nodup →
        (sha3 (imgBody x.img) ≠ imgDigest x.img → ∃ t, exec (.benchStart b) s = .next t ∧ t.mem = s.mem ∧ (t.bench b).fin = some (benchRecord 3 0 0)) ∧
        (sha3 (imgBody x.img) = imgDigest x.img → imageOk x.img (fun i => (s.crew (entries.getD i default).crew).budget) = true → imgForm x.img = 0 →
         (∀ e ∈ s.benches.cells, e.2.placed = true → e.2.core ≠ core) →
          ∃ t, exec (.benchStart b) s = .next t ∧ t.mem = s.mem ∧ (t.bench b).st = .running ∧ (t.bench b).off = 0 ∧ (t.bench b).base = 0 ∧
            (t.bench b).core = core ∧ (t.bench b).entries = entries ∧
            ∀ e ∈ imgElems x.img, ((t.bench b).elem e).preds = ewPinit (x.word e) ∧ ∀ c, (t.bench b).chan e c =
              if c = 3 ∧ ewOseed (x.word e) = true then [⟨0, 0, 0, 0⟩] else [])))) ∧
    (x.live = true → x.st = .none → x.fin = none → x.region.present = true → imgForm x.img = 1 → s.quartersRest (x.entries.map (·.crew)) = true →
      (Config.mapImage x.img = none → ∃ t, exec (.benchMap b) s = .next t ∧ t.mem = s.mem ∧ (t.bench b).fin = some (benchRecord 5 0 0)) ∧
      (∀ r, Config.mapImage x.img = some r → imageOk r (fun _ => 256) = true → imgForm r ≠ 1 → imgCrews r = imgCrews x.img →
        s.together (x.entries.map (·.crew)) = true →
        (imageOk r (s.budgetOf x) = false → ∃ t, exec (.benchMap b) s = .next t ∧ t.mem = s.mem ∧ (t.bench b).fin = some (benchRecord 3 0 0) ∧
          (sha3 x.img, r) ∈ t.mapCache) ∧
        (imageOk r (s.budgetOf x) = true → (∀ e ∈ s.benches.cells, e.2.placed = true → e.2.core ≠ (s.crew (x.entries.headD default).crew).core) →
        ∃ t, exec (.benchMap b) s = .next t ∧ t.mem = s.mem ∧ (t.bench b).st = .running ∧ (t.bench b).img = r ∧ (sha3 x.img, r) ∈ t.mapCache))) ∧
    (∀ e, x.live = true → x.st = .running → e ∈ x.sources → (x.elem e).took = x.injected → x.injected < x.count →
      (x.chan e (ewSch (x.word e))).length < 32 → x.g5 = false → ∃ t, exec (.startTokenTake b e) s = .next t ∧ t.mem = s.mem ∧
        ((t.bench b).elem e).took = x.injected + 1 ∧
        (t.bench b).chan e (ewSch (x.word e)) = x.chan e (ewSch (x.word e)) ++ [⟨BitVec.ofNat 32 x.injected, 0, BitVec.ofNat 6 x.injected, x.injected⟩]))

/-- R232–R234 and R400: a PLAIN element fires its ready rule of highest priority, one beat at a time: an addition of two channel heads yields their sum to
OUT and pops DEQ. STEER, MERGE, GATE and FWD, in a firing, yield as R400 says; in a sett each is ILLEGAL_OP. -/
def Claims.ElementRules : Prop :=
  ∀ (s : State) (b e i : Nat) (d : Dst) (c0 c1 c2 : BitVec 4),
    (let x := s.bench b
    let t := x.elem e
    let r := imgRule x.img e i
    let g : Guard := ⟨7, false⟩
    let h := fun (c : BitVec 4) => ((x.chan e c.toNat).headD default).val
    let k := x.crewOf e
    (x.serves = true → e < imgCount x.img → ewKind (x.word e) = 0 → t.held = false → s.fire = none → ewQinv (x.word e) = false → t.firing = none →
      (s.bestRule b e = none → exec (.elementRuleFire b e) s = .next s) ∧
      (s.bestRule b e = some i → (∀ o, o < 4 → r.out o = true → s.space b e o ≠ 0) → (s.crew k).poisonS = [] → (s.crew k).poisonV = [] → x.lane e < 32 →
        r.action = some (.iadd ⟨.trans, .pop c0, .pop c1, g⟩ .n32 false) → (s.crew k).place = .resident → ∃ u, exec (.elementRuleFire b e) s = .next u ∧
          u.mem = s.mem ∧ BeatEnds s u b e i 0 r.out (h c0 + h c1) t.preds)) ∧
    (∀ beat, s.fire = some ⟨b, e, i, beat⟩ → x.lane e < 32 → (∀ n, d ≠ .p n) →
      (let yields := fun (j : Instr) (outs : Nat → Bool) (v : Word) => r.action = some j → ∃ u, exec j s = .next u ∧ u.fire = none ∧ u.mem = s.mem ∧
        BeatEnds s u b e i beat outs v t.preds ∧ ∀ n, d = .v n → (u.crew k).vreg n.toNat (x.lane e) = v
      yields (.fwd ⟨d, .pop c0, g⟩) r.out (h c0) ∧
      yields (.gate ⟨d, .pop c0, .pop c1, g⟩) (fun o => r.out o && (h c1).getLsbD 0) (h c0) ∧
      yields (.steer ⟨d, .pop c0, .pop c1, g⟩) (fun o => r.out o && !(h c1).getLsbD 2 && o == (h c1).toNat % 4) (h c0) ∧
      yields (.merge ⟨d, .pop c0, .pop c1, .pop c2, g⟩) r.out (if (h c2).getLsbD 0 then h c1 else h c0))) ∧
    (∀ o1 o2 o3, s.fire = none → ∀ j ∈ [Instr.fwd o1, .gate o2, .steer o2, .merge o3],
      Raises j s cIllegalOp (BitVec.ofNat 64 (slotAddr s.me.sett s.me.sett.slot)) 0))

/-- R238–R241: ISECT pairs equal coordinates and drops the lesser; REORD fills a block and emits the other in its order; BUF holds entries in order, behind one
another; RTREE combines two heads of one tag. -/
def Claims.ElementKinds : Prop :=
  ∀ (s : State) (b e : Nat),
    (let x := s.bench b
    let t := x.elem e
    let room := fun o => s.space b e o > 0
    (∀ a ar c cr u ur v vr, x.Steps e 1 → x.chan e 0 = a :: ar → x.chan e 1 = c :: cr → x.chan e 2 = u :: ur → x.chan e 3 = v :: vr →
      a.tag = 0 → c.tag = 0 → u.tag = 0 → v.tag = 0 → (∀ w, t.lastA = some w → w.toNat < a.val.toNat) → (∀ w, t.lastB = some w → w.toNat < c.val.toNat) →
      (a.val = c.val → (∀ o, o < 3 → room o) → ∃ z, exec (.isectStep b e) s = .next z ∧ z.mem = s.mem ∧
        Flows s z b e [(0, ⟨a.val, 0, a.iter, a.inv⟩), (1, ⟨u.val, 0, a.iter, a.inv⟩), (2, ⟨v.val, 0, a.iter, a.inv⟩)] [0, 1, 2, 3] ∧
        ((z.bench b).elem e).lastA = some a.val ∧ ((z.bench b).elem e).lastB = some c.val) ∧
      (a.val.toNat < c.val.toNat → ∃ z, exec (.isectStep b e) s = .next z ∧ z.mem = s.mem ∧ Flows s z b e [] [0, 2] ∧
        ((z.bench b).elem e).lastA = some a.val) ∧
      (c.val.toNat < a.val.toNat → ∃ z, exec (.isectStep b e) s = .next z ∧ z.mem = s.mem ∧ Flows s z b e [] [1, 3] ∧
        ((z.bench b).elem e).lastB = some c.val)) ∧
    (∀ v r, x.Steps e 2 → t.emit = [] → t.fill.length + 1 < reordB (x.word e) → x.chan e 0 = v :: r → v.tag = 0 → ∃ z, exec (.reordStep b e) s = .next z ∧
      z.mem = s.mem ∧ ((z.bench b).elem e).fill = t.fill ++ [v] ∧ (z.bench b).chan e 0 = r ∧
      (z.crew (x.crewOf e)).vreg ((if t.flip then reordB (x.word e) else 0) + t.fill.length) (x.lane e) = v.val) ∧
    (x.Steps e 2 → x.chan e 0 = [] → t.emit ≠ [] → t.fill = [] → room 0 → t.emitPos + 1 < reordB (x.word e) → x.sent2 e e 0 [(0, default)] = [] →
      ∃ z, exec (.reordStep b e) s = .next z ∧ z.mem = s.mem ∧ ((z.bench b).elem e).emitPos = t.emitPos + 1 ∧
        Flows s z b e [(0, t.emit.getD (reordIndex (x.word e) t.emitPos) default)] []) ∧
    (∀ v r, x.Steps e 3 → t.buf = [] → x.chan e 0 = v :: r → ∃ z, exec (.bufStep b e) s = .next z ∧ z.mem = s.mem ∧ ((z.bench b).elem e).buf = [v] ∧
      (z.bench b).chan e 0 = r) ∧
    (∀ v r, x.Steps e 3 → t.buf = v :: r → x.chan e 0 = [] → room 0 → x.sent2 e e 0 [(0, v)] = [] → ∃ z, exec (.bufStep b e) s = .next z ∧ z.mem = s.mem ∧
      ((z.bench b).elem e).buf = r ∧ Flows s z b e [(0, v)] []) ∧
    (∀ a ar c cr, x.Steps e 5 → x.chan e 0 = a :: ar → x.chan e 1 = c :: cr →
      (a.tag ≠ c.tag → x.g5 = false → ∃ z, exec (.rtreeStep b e) s = .next z ∧ Faults s z b e 5 a.val.toNat) ∧
      (a.tag = c.tag → room 0 → ∃ z v, exec (.rtreeStep b e) s = .next z ∧ z.mem = s.mem ∧ Flows s z b e [(0, ⟨v, a.tag, a.iter, a.inv⟩)] [0, 1] ∧
        (a.tag ≠ 0 → v = a.val) ∧ (a.tag = 0 → ewParam (x.word e) 0 4 = 1 → v = a.val + c.val) ∧
        (a.tag = 0 → ewParam (x.word e) 0 4 = 4 → v.toInt = max a.val.toInt c.val.toInt) ∧
        (a.tag = 0 → ewParam (x.word e) 0 4 = 5 → v.toInt = min a.val.toInt c.val.toInt))))

/-- R76–R78, R242, R243 and R252: a streaming node takes a start token, waits until every source has taken it, then reads its pattern entry by entry, and its DONE follows the last; an access outside its region, or
misaligned, faults. A random or ordered node's access performs at its home, its value goes to O0 and its ordering entry to O3, and its heads go. Requests
of a G5 bench perform from the ordered retire unit, and an iteration with none left retires. -/
def Claims.MemoryNodes : Prop :=
  ∀ (s : State) (b e : Nat),
    (let x := s.bench b
    let t := x.elem e
    let m := x.mem e
    let n := memBytes m
    let it : BitVec 6 := BitVec.ofNat 6 t.read
    let at' := fun (a : Nat) (l : Loc) => s.memLoc b e a = .ok l ∧ l.dev = s.dev ∧ s.coreSent x.core ∧ (mbDir m ≠ 1 → s.poisonedIn l.pa n = none) ∧ t.answer = none
    (x.Steps e 4 → mbClass m = 0 → x.g5 = false →
      (∀ v r, t.strTok = none → x.chan e (ewSch (x.word e)) = v :: r → ∃ z, exec (.memStreamRead b e) s = .next z ∧ z.mem = s.mem ∧
        Flows s z b e [] [ewSch (x.word e)] ∧ ((z.bench b).elem e).strTok = some v.val.toNat ∧ ((z.bench b).elem e).strPos = 0) ∧
      (∀ k, t.strTok = some k → x.injected ≤ t.inv → exec (.memStreamRead b e) s = .next s) ∧
      (∀ k, t.strTok = some k → t.inv < x.injected → s.space b e 0 > 0 → t.markDue = false →
        (let a := streamAddr m k t.strPos
        (mbCount0 m * mbCount1 m ≤ t.strPos → ∃ z, exec (.memStreamRead b e) s = .next z ∧ z.mem = s.mem ∧ Flows s z b e [(0, ⟨0, 3, it, t.inv⟩)] [] ∧
          ((z.bench b).elem e).strTok = none) ∧
        (t.strPos < mbCount0 m * mbCount1 m → t.answer = none → a < mbBase m ∨ mbBase m + mbSize m < a + n →
          ∃ z, exec (.memStreamRead b e) s = .next z ∧ Faults s z b e 1 a) ∧
        (∀ l, t.strPos < mbCount0 m * mbCount1 m → at' a l → mbDir m = 0 → mbTagw m = false → ∃ z, exec (.memStreamRead b e) s = .next z ∧ z.mem = s.mem ∧
          Flows s z b e [(0, ⟨memWord m (s.readVal l.pa n), 0, it, t.inv⟩)] [] ∧ ((z.bench b).elem e).strPos = t.strPos + 1)))) ∧
    (∀ p ∈ [(Instr.memRandomAccess b e, 1), (.memOrderedUpdate b e, 2)], x.Steps e 4 → mbClass m = p.2 → x.g5 = false →
      (let h := fun c => (x.chan e c).headD default
      let a := mbBase m + (h 0).val.toNat
      let cs := operandChs m
      (∀ c ∈ cs, x.chan e c ≠ [] ∧ (h c).tag = 0) → (x.chained e = true → x.chan e 3 ≠ []) → s.space b e 0 > 0 → s.space b e 3 > 0 →
        (t.answer = none → mbBase m + mbSize m < a + n → ∃ z, exec p.1 s = .next z ∧ Faults s z b e 1 a) ∧
        (∀ l, at' a l → ∃ z, exec p.1 s = .next z ∧
          Flows s z b e ((if mbDir m = 1 then [] else [(0, ⟨memWord m (s.readVal l.pa n), 0, (h 0).iter, (h 0).inv⟩)]) ++ [(3, ⟨0, 0, (h 0).iter, (h 0).inv⟩)])
            (cs ++ if x.chained e = true then [3] else []) ∧
          (mbDir m = 0 → z.mem = s.mem) ∧ (mbDir m ≤ 1 → ∀ y, ¬ inRange l.pa n y → z.mem.read y = s.mem.read y) ∧
          (mbDir m = 1 → z.readVal l.pa n = (h 1).val.toNat % 2 ^ (8 * n)) ∧
          (2 ≤ mbDir m → z.mem = (s.rmwAt ((mbAop m).getD .add) (memElem m) l.pa ((h 1).val.toNat % 2 ^ (8 * n)) ((h 2).val.toNat % 2 ^ (8 * n))).mem)))) ∧
    (x.serves = true → x.g5 = true → x.g5Fault = none → x.exits ≠ [] → (∀ k ∈ x.exits, x.retired < (x.elem k).sends) → (∀ q ∈ x.retireQ, q.iter ≠ x.retired) →
      ∃ z, exec (.orderedRetire b) s = .next z ∧ z.mem = s.mem ∧ z.bench b = { x with retired := x.retired + 1 }) ∧
    (∀ q l, x.serves = true → x.g5 = true → x.g5Fault = none → x.retireQ.find? x.mayRetire = some q → q.elem = e → at' q.addr l → mbDir m = 1 →
      s.space b e 3 > 0 → ∃ z, exec (.orderedRetire b) s = .next z ∧ z.readVal l.pa n = q.x.toNat % 2 ^ (8 * n) ∧ q ∉ (z.bench b).retireQ ∧
        ∀ y, ¬ inRange l.pa n y → z.mem.read y = s.mem.read y))

/-- R249–R251: a faulting element's token enters the spall net, or begins an abort where no handler is; its four words reach the handler in order; a SKIP
answers the oldest fault without a value, a REPAIR with one, an ABORT makes the bench abort with it. -/
def Claims.SpallNet : Prop :=
  ∀ (s : State) (b e : Nat),
    (let x := s.bench b
    x.serves = true →
      (∀ k, (x.elem e).sendTok = some k →
        (x.handler = none → ∃ z, exec (.spallFaultSend b e) s = .next z ∧ z.mem = s.mem ∧ (z.bench b).st = .aborting ∧ (z.bench b).abortTok = some k) ∧
        (x.handler ≠ none → x.spall.length < 16 → ∃ z, exec (.spallFaultSend b e) s = .next z ∧ z.mem = s.mem ∧ (z.bench b).spall = x.spall ++ [k] ∧
          ((z.bench b).elem e).sendTok = none) ∧
        (x.handler ≠ none → 16 ≤ x.spall.length → exec (.spallFaultSend b e) s = .next s)) ∧
      (∀ k r h, x.spall = k :: r → x.handler = some h → (x.chan h 0).length < 32 → ∃ z, exec (.spallDeliver b) s = .next z ∧ z.mem = s.mem ∧
        (z.bench b).chan h 0 = x.chan h 0 ++ [⟨BitVec.ofNat 32 (bitsOf k.bits (32 * x.given) 32), 0, 0, bitsOf k.bits 48 16⟩] ∧
        (x.given = 3 → (z.bench b).spall = r ∧ (z.bench b).awaiting = x.awaiting ++ [k] ∧ (z.bench b).given = 0) ∧
        (x.given ≠ 3 → (z.bench b).spall = x.spall ∧ (z.bench b).given = x.given + 1)) ∧
      (∀ k r c cs, x.awaiting = k :: r → x.replies = c :: cs → (∀ o ∈ x.answerOuts k, s.space b k.elem o ≠ 0) →
        (2 ≤ bitsOf c 30 2 → ∃ z, exec (.spallReply b) s = .next z ∧ z.mem = s.mem ∧ (z.bench b).st = .aborting ∧ (z.bench b).abortTok = some k) ∧
        (bitsOf c 30 2 = 0 → cs = [] → exec (.spallReply b) s = .next s) ∧
        (∀ pops, bitsOf c 30 2 = 1 → k.pops = some pops → ∃ z, exec (.spallReply b) s = .next z ∧ z.mem = s.mem ∧ Flows s z b k.elem [] pops ∧
          (z.bench b).awaiting = r ∧ (z.bench b).replies = cs ∧ ((z.bench b).elem k.elem).faulted = false) ∧
        (∀ v vs, bitsOf c 30 2 = 0 → cs = v :: vs → k.pops = none → ewKind (x.word k.elem) = 4 → mbClass (x.mem k.elem) = 1 → mbDir (x.mem k.elem) = 0 →
          (∀ o, o < 4 → arcV (imgArc x.img k.elem o) = true → arcKind (imgArc x.img k.elem o) ≠ 2) →
          ∃ z, exec (.spallReply b) s = .next z ∧ z.mem = s.mem ∧ (z.bench b).awaiting = r ∧ (z.bench b).replies = vs ∧
            (let h := (x.chan k.elem 0).headD default
            Flows s z b k.elem [(0, ⟨v, 0, h.iter, h.inv⟩), (3, ⟨0, 0, h.iter, h.inv⟩)]
              (0 :: if x.chained k.elem = true then [3] else [])))))

/-- R93, R247, R248 and R251–R255: a bench whose last invocation is complete writes its record, once what its core has stored has performed if RSCOPE is wider
than .core, OK with the count, and is gone, and its crews' columns with it; one that aborts writes FAULT, and without NOTRAP its crews owe BENCH_FAULT; a
drained one stops, or is saved with its channels clear when it was pre-empted; a drain that takes too long stops; a stopping one is saved when its firings
are over. A saved one goes on where an offset is free, with its elements' lanes as they were; one whose image fails its digest is frozen there. Readings of the model in it: log 54, 56. -/
def Obligations.BenchesEnd : Prop :=
  ∀ (s : State) (b : Nat),
    (let x := s.bench b
    let k := (x.entries.headD default).crew
    let core := if x.st = .none then (s.crew k).core else x.core
    let writes := fun (i : Instr) (r : BitVec 128) => ∀ l, s.targetLoc x.part k x.gang core x.level x.target = .ok l → l.dev = s.dev →
      (imgWide x.img = true → s.coreSent core) →
      ∃ z, exec i s = .next z ∧ (z.bench b).live = false ∧ z.readVal l.pa 16 = r.toNat ∧ (∀ a, ¬ inRange l.pa 16 a → z.mem.read a = s.mem.read a) ∧
        (bitsOf r 56 8 = 2 → x.notrap = false → ∀ e ∈ x.entries, (z.crew e.crew).pendTrap = some (cBenchFault, BitVec.ofNat 64 (bitsOf r 64 64))) ∧
        (bitsOf r 56 8 ≠ 2 → z.crews = s.crews)
    x.live = true →
      (x.fin = none → x.parked = false → x.sent = false → x.st = .running → x.count ≤ x.completed → x.settled = true →
        writes (.benchRetire b) (BitVec.ofNat 128 (x.completed % 2 ^ 32))) ∧
      (∀ r, x.fin = some r → x.parked = false → x.sent = false → (∀ e ∈ x.entries, (s.crew e.crew).place = .resident) → writes (.benchRetire b) r) ∧
      (∀ u, x.st = .aborting → x.fin = none → x.still = true → x.settled = true → x.abortTok = some u →
        writes (.benchAbort b) (BitVec.ofNat 128 (bitsOf u.bits 64 64 * 2 ^ 64 + 2 * 2 ^ 56 + bitsOf u.bits 40 8 * 2 ^ 48 + bitsOf u.bits 37 3 * 2 ^ 45 +
          bitsOf u.bits 33 4 * 2 ^ 41 + bitsOf u.bits 30 3 * 2 ^ 38 + x.completed % 2 ^ 32))) ∧
      (x.st = .draining → x.fin = none → x.partly = false → x.injected ≤ x.completed → x.settled = true →
        (x.preempted = true → exec (.benchDrainComplete b) s = .next { s with benches := s.benches.put b { x with st := .saved, elems := x.cleared } }) ∧
        (x.preempted = false → writes (.benchDrainComplete b) (BitVec.ofNat 128 (1 * 2 ^ 56 + x.completed % 2 ^ 32)))) ∧
      (x.st = .draining → x.fin = none → x.preempted = true →
        exec (.benchDrainTimeout b) s = .next { s with benches := s.benches.put b { x with st := .stopping } }) ∧
      (x.st = .stopping → x.still = true → (∀ t ∈ x.elems.vals, t.asked = false) →
        exec (.benchStoppingComplete b) s = .next { s with benches := s.benches.put b { x with st := .saved } }) ∧
      (∀ o, x.st = .saved → (s.imageOf x).patched = none → s.quartersRest (x.entries.map (·.crew)) = true →
        (x.entries.map fun e => (s.crew e.crew).quarter).Nodup → x.entries ≠ [] →
        (∀ e ∈ x.entries, (s.crew e.crew).core = (s.crew k).core ∧ (s.crew e.crew).preempt = false) → s.freeOffset b = some o →
        (let back := fun (st : BenchSt) => ∃ z, exec (.benchResume b) s = .next z ∧ z.mem = s.mem ∧ (z.bench b).st = st ∧ (z.bench b).off = o ∧
          (z.bench b).base = x.base ∧ (z.bench b).core = (s.crew k).core ∧ (z.bench b).elems = x.elems
        let digest := sha3 (imgBody (s.restoredImage x))
        (x.region.failed = true → back .frozen) ∧
        (x.region.failed = false → digest ≠ x.region.digest → s.recRoom (dieOf (s.crew k).core) 1 = true → back .frozen) ∧
        (x.region.failed = false → digest = x.region.digest →
          back (if x.prior = .aborting then .aborting else if x.exiting then .draining else .running)))))

/-! ## The front end: taking, commands, configuration (R210, R216, R407–R429) -/

namespace Sys2Proof.Machine

/-- A command of the device is over with a status and a detail; other commands stand (R423). -/
structure Over (s t : State) (k status detail : Nat) : Prop where
  command : t.cmds.get k = { s.cmds.get k with st := .finished, status := status, detail := detail }
  others : ∀ j, j ≠ k → t.cmds.get j = s.cmds.get j

/-- The same, with nothing else of the device changed. -/
structure OnlyOver (s t : State) (k status detail : Nat) : Prop extends Over s t k status detail where
  device : t = { s with cmds := t.cmds }

/-- A command has begun and is not over. -/
structure Begun (s t : State) (k : Nat) : Prop where
  command : ∃ l, t.cmds.get k = { s.cmds.get k with st := .running, launch := l }
  others : ∀ j, j ≠ k → t.cmds.get j = s.cmds.get j

/-- The bytes of a slot, or of another structure of the front end, come: they translate at its producer's level, lie on this device and are sound. -/
def State.comes (s : State) (tag part : Nat) (level : Bool) (va : Nat) (bs : List Byte) : Prop := s.readFor tag part level va bs.length = .ok bs

end Sys2Proof.Machine

/-- R413: the merge order takes from an eligible producer of the group it serves: of the high class unless none of that class is eligible or 16 high
ones have been counted past an eligible normal one. -/
def Claims.MergeOrder : Prop :=
  ∀ (s : State) (g n : Nat) (m : Merge), s.nextProducer = some (g, n, m) →
    (let can := fun (hi : Bool) (k : Nat) (p : Producer) => (k, p) ∈ s.producers.cells ∧ p.v = true ∧ p.intake ≠ [] ∧ p.waiting = none ∧
      s.partOut p.part = false ∧ s.restarting = false ∧ p.group = g ∧ p.pri = hi
    ∃ hi p, can hi n p ∧
      (hi = true → ((∀ k q, ¬ can false k q) ∧ m.highRun = (s.merges.get g).highRun ∨
        (∃ k q, can false k q) ∧ (s.merges.get g).highRun < 16 ∧ m.highRun = (s.merges.get g).highRun + 1)) ∧
      (hi = false → m.highRun = 0 ∧ ((∀ k q, ¬ can true k q) ∨ (s.merges.get g).highRun ≥ 16)) ∧
      -- of the class, the number that follows the last one served, cyclically
      (if hi then m.nextHigh else m.nextNorm) = (n + 1) % 4096 ∧
      ∀ k q, can hi k q → (let next := if hi then (s.merges.get g).nextHigh else (s.merges.get g).nextNorm
        (n + 4096 - next) % 4096 ≤ (k + 4096 - next) % 4096))

/-- R412, R416–R418: taking reads the slot of the producer the merge order names and removes its intake entry. A slot with another SEQ is reported as
SLOTSEQ and runs nothing; a form R415 does not allow completes with FORM; any other becomes a command whose first effect is next. Nothing is taken in a
firmware restart. The head of a spill ring moves into an intake with room, and its SEQ is the ring entry's. -/
def Claims.CommandsTaken : Prop :=
  ∀ (s : State),
    (∀ g n m bs, s.nextProducer = some (g, n, m) → s.recRoom 0 1 = true →
      (let p := s.producers.get n
      let seq := p.intake.headD 0
      let v := leNat bs
      let c := cmdOf n p v
      bs.length = 64 → s.comes (tagProd n) p.part p.sup (p.rbase + 64 * (seq.toNat % 2 ^ p.rlog2)) bs →
        ∃ t, exec .commandTake s = .next t ∧ t.producers.get n = { p with intake := p.intake.tail } ∧
          (∀ j, j ≠ n → t.producers.get j = s.producers.get j) ∧ t.merges = s.merges.put g m ∧ t.nextGroup = (g + 1) % 16 ∧
          (v % 2 ^ 32 ≠ seq.toNat → t.cmds = s.cmds ∧ t.agenda = s.agenda ∧ (p.staddr = 0 → t.mem = s.mem) ∧
            ∀ pa mt, p.staddr ≠ 0 → p.hostst = false → s.unitXlat p.part p.sup .store p.staddr = .ok s.dev pa mt →
              t.readVal pa 8 = 7 * 2 ^ 56 + (16 - p.intake.tail.length) * 2 ^ 32 + seq.toNat) ∧
          (v % 2 ^ 32 ≠ seq.toNat → p.staddr ≠ 0 → p.hostst = true → (s.part p.part).qp.set = true → t.mem = s.mem ∧ t.sent = s.sent ++
            [.hostWrite p.part (BitVec.ofNat 64 p.staddr) none (leBytes 8 (7 * 2 ^ 56 + (16 - p.intake.tail.length) * 2 ^ 32 + seq.toNat))]) ∧
          (v % 2 ^ 32 = seq.toNat → t.mem = s.mem ∧ t.nextCmd = s.nextCmd + 1 ∧ (∀ j, j ≠ s.nextCmd → t.cmds.get j = s.cmds.get j) ∧
            c.kind = slotField v 56 8 ∧ c.seq = seq ∧ c.part = p.part ∧ c.level = p.sup ∧ c.prod = n ∧
            (match kindInstr s.nextCmd c, slotBad v with
              | some i, false => t.agenda = i :: s.agenda ∧ t.cmds.get s.nextCmd = c
              | _, _ => t.agenda = s.agenda ∧ t.cmds.get s.nextCmd = { c with st := .finished, status := 0x21 })))) ∧
    (s.restarting = true → exec .commandTake s = .next s) ∧
    exec .firmwareRestart s = .next { s with restarting := true } ∧ exec .firmwareRestartEnd s = .next { s with restarting := false } ∧
    ∀ n bs, (let p := s.producers.get n
      p.v = true → p.blocked = false → p.spillHead < p.spillTail → p.intake.length < 16 → s.recRoom 0 1 = true → bs.length = 8 →
        s.comes (tagProd n) p.part p.sup (p.spbase + 8 * (p.spillHead % 2 ^ p.splog2)) bs →
        ∃ t, exec (.intakeSpillMove n) s = .next t ∧ t.mem = s.mem ∧ (∀ j, j ≠ n → t.producers.get j = s.producers.get j) ∧
          t.producers.get n = { p with intake := p.intake ++ [BitVec.ofNat 32 (leNat bs / 2 ^ 32)], spillHead := p.spillHead + 1 })

/-- R415, R419 and R423: NOP completes on taking. PRODUCER writes the entry of its image (R407) unless the producer it names holds an entry, then BUSY; from
a producer without SUP it is FORM. STAMPWAIT ends when its stamp holds, or with STAMP on a STATUS other than OK, and until then no later command of its
producer is taken. -/
def Claims.FrontCommands : Prop :=
  ∀ (s : State) (k : Nat),
    (let c := s.cmds.get k
    let put := fun (t : State) (n : Nat) (p : Producer) => t.mem = s.mem ∧ t.producers.get n = p ∧ ∀ j, j ≠ n → t.producers.get j = s.producers.get j
    let waited := fun (t : State) (w : DWord) =>
      if stampDone (waitCmp c) (bitsOf c.arg1 0 56) w then put t c.prod { s.producers.get c.prod with waiting := none } ∧
        (bitsOf w 56 8 = 0 → Over s t k 0 0) ∧ (bitsOf w 56 8 ≠ 0 → Over s t k 0x25 (bitsOf w 56 8))
      else put t c.prod { s.producers.get c.prod with waiting := some k } ∧ t.cmds.get k = { c with st := .running }
    (c.st = .taken →
      (∃ t, exec (.commandNop k) s = .next t ∧ OnlyOver s t k (if c.arg0 = 0 ∧ c.arg1 = 0 then 0 else 0x21) 0) ∧
      (c.level = false → ∃ t, exec (.producer k) s = .next t ∧ OnlyOver s t k 0x21 0) ∧
      (∀ bs, bs.length = 32 → c.level = true → bitsOf c.arg1 12 52 = 0 → s.comes (tagCmd k) c.part c.level c.arg0.toNat bs →
        (let n := bitsOf c.arg1 0 12
        let p := producerOf (leNat bs)
        let old := s.producers.get n
        (p.part ≠ c.part → ∃ t, exec (.producer k) s = .next t ∧ OnlyOver s t k 0x21 0) ∧
        (producerBad (leNat bs) = false → p.part = c.part → (old.v = true → old.part = c.part) →
          (old.intake ≠ [] ∨ old.spillHead < old.spillTail → ∃ t, exec (.producer k) s = .next t ∧ OnlyOver s t k 0x24 0) ∧
          (old.intake = [] → old.spillTail ≤ old.spillHead → ∃ t, exec (.producer k) s = .next t ∧ put t n p ∧ Over s t k 0 0)))) ∧
      ∀ bs, bs.length = 8 → waitBad c = false → s.comes (tagCmd k) c.part c.level (tgAddr c.arg0) bs →
        ∃ t, exec (.stampwait k) s = .next t ∧ waited t (BitVec.ofNat 64 (leNat bs))) ∧
    ∀ bs, bs.length = 8 → c.st = .running → c.kind = 3 → (s.producers.get c.prod).waiting = some k →
      s.comes (tagCmd k) c.part c.level (tgAddr c.arg0) bs → ∃ t, exec (.stampwaitEnd k) s = .next t ∧ waited t (BitVec.ofNat 64 (leNat bs)))

/-- R423 and R425: a finished command's record is written whole at its target as the producer's level sees it, with no target nothing is; then, with EVENT,
the event frame leaves. A target that does not translate is not written. -/
def Claims.CommandsComplete : Prop :=
  ∀ (s : State) (k : Nat),
    (let c := s.cmds.get k
    let rec16 : Nat := c.seq.toNat * 2 ^ 96 + c.detail * 2 ^ 88 + c.kind * 2 ^ 80 + c.prod * 2 ^ 64 + c.status * 2 ^ 56 + bitsOf c.cvalue 0 56
    c.st = .finished → s.recRoom 0 1 = true → c.detail < 256 → c.kind < 256 → c.prod < 4096 → c.status < 256 → (s.part c.part).qp.set = false →
      (tgSpc c.ctarget = 3 → ∃ t, exec (.commandComplete k) s = .next t ∧ t.mem = s.mem ∧ t.cmds.get k = default ∧
        t.sent = s.sent ++ (if c.event then [.event c.part (leBytes 16 rec16)] else [])) ∧
      (∀ pa mt, tgSpc c.ctarget ≠ 3 → s.unitXlat c.part c.level .store (tgAddr c.ctarget) = .ok s.dev pa mt →
        ∃ t, exec (.commandComplete k) s = .next t ∧ Writes s t (bytesAt pa (leBytes 16 rec16)) ∧ t.cmds.get k = default ∧
          (∀ j, j ≠ k → t.cmds.get j = s.cmds.get j) ∧ t.sent = s.sent ++ (if c.event then [.event c.part (leBytes 16 rec16)] else [])) ∧
      (∀ cause, tgSpc c.ctarget ≠ 3 → s.unitXlat c.part c.level .store (tgAddr c.ctarget) = .bad cause →
        ∃ t, exec (.commandComplete k) s = .next t ∧ t.mem = s.mem ∧ t.cmds.get k = default ∧
          t.sent = s.sent ++ (if c.event then [.event c.part (leBytes 16 rec16)] else [])))

/-- R193, R415, R424 and R426: a launch record that meets a condition of R193 is a launch error with that condition's place in the list, the last when a
yard grant is rejected, and no gang starts. Any other launch has its yards granted and its gangs wait for placement, in $gang order, on the die chosen. It
completes once every gang has ended and no firing of its templates is left. -/
def Claims.Launches : Prop :=
  ∀ (s : State) (k : Nat),
    (let c := s.cmds.get k
    (∀ bs, bs.length = 512 → c.st = .taken → c.arg1 = 0 → c.arg0.toNat % 256 = 0 → s.comes (tagCmd k) c.part c.level c.arg0.toNat bs →
      (let r : BitVec 4096 := BitVec.ofNat 4096 (leNat bs)
      let die := s.launchDie c.part r
      (∀ e, lrError r die = some e → ∃ t, exec (.launch k) s = .next t ∧ OnlyOver s t k 0x20 e) ∧
      (lrError r die = none → s.grantAll (false, s.nextLaunch) r = none → ∃ t, exec (.launch k) s = .next t ∧ OnlyOver s t k 0x20 9) ∧
      ∀ u, lrError r die = none → s.grantAll (false, s.nextLaunch) r = some u →
        ∃ t, exec (.launch k) s = .next t ∧ Begun s t k ∧ (t.cmds.get k).launch = s.nextLaunch ∧ t.mem = s.mem ∧ t.yards = u.yards ∧
          t.nextLaunch = s.nextLaunch + 1 ∧ (t.launches.get s.nextLaunch).live = true ∧ (t.launches.get s.nextLaunch).lrec = r ∧
          (t.launches.get s.nextLaunch).gangsLeft = gangCount r ∧ (∀ l, l ≠ s.nextLaunch → t.launches.get l = s.launches.get l) ∧
          (t.die die).placeq = (s.die die).placeq ++ (List.range (gangCount r)).map (PlaceReq.launchGang s.nextLaunch) ∧
          ∀ d, d ≠ die → t.die d = s.die d)) ∧
    ∀ l, (let x := s.launches.get l
      x.live = true → x.gangsLeft = 0 → (∀ e ∈ s.ops.cells, e.2.live = true → e.2.launch ≠ some l) →
        ∃ t, exec (.launchComplete l) s = .next t ∧ Over s t x.cmd 0 0 ∧ (t.launches.get l).live = false ∧ t.mem = s.mem))

/-- R210, R216, R420 and R429: an operator table or carousel program whose image passes its chapter's checks waits for the next layer boundary, else FORM; a
spill table takes effect at once unless a ring of the die holds an entry, then BUSY; a bench image whose digest and checks stand is installed under its
handle. R95, R421, R422: a delta whose BASEDIG is the region's digest and whose NEWDIG is the patched copy's takes that copy, else DIGEST; one aimed at a bench
image replaces it once no bench of the handle holds columns, unless one's region has failed, then DIGEST, and completes when none of them has still to
return. -/
def Claims.ConfigAndDelta : Prop :=
  ∀ (s : State) (k : Nat),
    (let c := s.cmds.get k
    let die := selDie c
    let staged := fun (t : State) (car : Bool) (bs : List Byte) => (t.cmds.get k).st = .running ∧ t.mem = s.mem ∧
      ∃ p, (t.die die).pend = (s.die die).pend ++ [p] ∧ p.cmd = k ∧ p.carousel = car ∧ p.region.bytes = bs ∧ p.region.digest = sha3 bs ∧
        p.region.part = c.part ∧ p.region.level = c.level
    (c.st = .taken → selBad c = false → s.regionBusy k = false →
      (∀ bs copies, selKind c = 0 → c.kind = 4 → bs.length = 2048 → s.comes (tagCmd k) c.part c.level c.arg0.toNat bs →
        (∀ op, op < 64 → entryBad (entryAt bs op) = false) → s.readCopies k bs (List.range 64) = .ok copies →
        tableBad die bs copies (s.die die).programNext = false → ∃ t, exec (.config k) s = .next t ∧ staged t false bs) ∧
      (∀ h bs, selKind c = 1 → c.kind = 4 → h.length = 32 → bs.length = 32 + 32 * programLen h → s.comes (tagCmd k) c.part c.level c.arg0.toNat h →
        s.comes (tagCmd k) c.part c.level c.arg0.toNat bs →
        (programBad die bs (s.die die).tableNext.1 (s.die die).tableNext.2 = false → ∃ t, exec (.config k) s = .next t ∧ staged t true bs) ∧
        (programBad die bs (s.die die).tableNext.1 (s.die die).tableNext.2 = true → ∃ t, exec (.config k) s = .next t ∧ OnlyOver s t k 0x21 0)) ∧
      (∀ h body, selKind c = 2 → c.kind = 4 → h.length = 64 → imgHeadOk h = true → body.length = imgHdr h 224 32 →
        s.comes (tagCmd k) c.part c.level c.arg0.toNat h → s.comes (tagCmd k) c.part c.level (c.arg0.toNat + 64) body →
        (sha3 body ≠ imgDigest (h ++ body) → ∃ t, exec (.config k) s = .next t ∧ OnlyOver s t k 0x23 0) ∧
        (sha3 body = imgDigest (h ++ body) → imageOk (h ++ body) (fun _ => 256) = true → ∃ t, exec (.config k) s = .next t ∧ Over s t k 0 0 ∧
          ((t.part c.part).images.get (selHandle c)).present = true ∧ ((t.part c.part).images.get (selHandle c)).bytes = h ++ body ∧ t.mem = s.mem)) ∧
      (∀ bs, selKind c = 3 → c.kind = 4 → bs.length = 1024 → s.comes (tagCmd k) c.part c.level c.arg0.toNat bs →
        (∀ op, op < 64 → spillBad (leNat ((bs.drop (16 * op)).take 16)) = false) →
        (s.ringsHold die = true → ∃ t, exec (.config k) s = .next t ∧ OnlyOver s t k 0x24 0) ∧
        (s.ringsHold die = false → ∃ t, exec (.config k) s = .next t ∧ Over s t k 0 0 ∧ (t.die die).spills = bs ∧ (t.die die).spillDigest = sha3 bs ∧ (t.die die).spillPart = c.part ∧
          (t.die die).spillLevel = c.level ∧ t.mem = s.mem)) ∧
      (∀ body base, selKind c < 3 → c.kind = 2 → s.deltaBase c = some base → (∀ r ∈ s.targetsOf c, (s.region r).failed = false) →
        body.length = 64 + 16 * selPatches c → s.comes (tagCmd k) c.part c.level c.arg0.toNat body →
        ((sha3 base).toNat ≠ leNat (body.take 32) → ∃ t, exec (.delta k) s = .next t ∧ OnlyOver s t k 0x23 0) ∧
        ∀ ps bs, (sha3 base).toNat = leNat (body.take 32) → ((List.range (selPatches c)).mapM fun i => patchAt body i base.length) = some ps →
          s.applyPatches k ps base = .ok bs →
          ((sha3 bs).toNat ≠ leNat ((body.drop 32).take 32) → ∃ t, exec (.delta k) s = .next t ∧ OnlyOver s t k 0x23 0) ∧
          ((sha3 bs).toNat = leNat ((body.drop 32).take 32) → selKind c = 1 → bs.length = 32 + 32 * programLen bs →
            programBad die bs (s.die die).tableNext.1 (s.die die).tableNext.2 = false → ∃ t, exec (.delta k) s = .next t ∧ staged t true bs))) ∧
    (c.kind = 2 → c.st = .running → selKind c = 2 →
      (let im := (s.part c.part).images.get (selHandle c)
      (im.patched ≠ none → (∃ b ∈ s.benchesOf c.part (selHandle c), (s.bench b).region.failed = true) →
        ∃ t, exec (.delta k) s = .next t ∧ t.mem = s.mem ∧ Over s t k 0x23 0 ∧ ((t.part c.part).images.get (selHandle c)) = { im with patched := none }) ∧
      (∀ img, im.patched = some img → (∀ b ∈ s.benchesOf c.part (selHandle c), (s.bench b).placed = false ∧ (s.bench b).region.failed = false) →
        ∃ t, exec (.delta k) s = .next t ∧ t.mem = s.mem ∧ ((t.part c.part).images.get (selHandle c)).bytes = img ∧
          ((t.part c.part).images.get (selHandle c)).patched = none) ∧
      (im.patched = none → (∀ b ∈ s.benchesOf c.part (selHandle c), s.benchReturns b = false) →
        ∃ t, exec (.delta k) s = .next t ∧ OnlyOver s t k 0 0))))

/-! ## Pre-emption and partitions (R97, R446–R453) -/

/-- R446 and R448: a crew that is to be pre-empted stops at its sett boundary, its sett that has not committed is gone, and with room it is saved whole and
leaves its quarter; in a bench the bench drains first. PREEMPT completes once the crew is saved, BUSY when the shadow units are full. RESUME of a saved
context waits for placement on its die. -/
def Claims.CrewsSavedAndResumed : Prop :=
  ∀ (s : State),
    (∀ k, (let u := s.discard k
      (s.crew k).place = .resident → (s.crew k).preempt = true → (s.crew k).sett.phase ≠ .effects → (s.crew k).sett.phase ≠ .control →
        (∀ b, s.benchOfCrew k = some b → exec (.crewPreemptSave k) s = .next (s.drainBench b)) ∧
        (s.benchOfCrew k = none → u.shadowFits k = true → u.recRoom (dieOf (u.crew k).core) 1 = true →
          ∃ t, exec (.crewPreemptSave k) s = .next t ∧
            t.crew k = { u.crew k with place := .saved, preempt := false, stall := stNone, fetch := [] } ∧
            (∀ j, j ≠ k → t.crew j = s.crew j) ∧ (u.lastResident k = false → t.mem = s.mem) ∧ ∀ r ∈ t.regs, r.crew ≠ k))) ∧
    ∀ k, (let m := s.cmds.get k
      let c := s.crew (bitsOf m.arg1 0 14)
      let j := bitsOf m.arg0 0 14
      (m.kind = 5 → m.st = .running → c.place = .saved → ∃ t, exec (.partitionPreempt k) s = .next t ∧ OnlyOver s t k 0 0) ∧
      (m.st = .taken → bitsOf m.arg0 12 52 = 0 → m.level = true → (m.part = 0 ∨ m.part = cmdPart m) → bitsOf m.arg1 14 50 = 0 → c.part = cmdPart m →
        c.place = .resident →
        (s.shadowFits (bitsOf m.arg1 0 14) = false → ∃ t, exec (.partitionPreempt k) s = .next t ∧ OnlyOver s t k 0x24 0) ∧
        (s.shadowFits (bitsOf m.arg1 0 14) = true → ∃ t, exec (.partitionPreempt k) s = .next t ∧ Begun s t k ∧
          t.crew (bitsOf m.arg1 0 14) = { c with preempt := true } ∧ (∀ j, j ≠ bitsOf m.arg1 0 14 → t.crew j = s.crew j) ∧ t.mem = s.mem)) ∧
      (m.st = .taken → bitsOf m.arg0 14 50 = 0 → m.arg1 = 0 → (m.part = 0 ∨ m.part = (s.crew j).part) → s.resuming j = false →
        s.contextBad j = false →
        ((s.crew j).place = .saved → ∃ t, exec (.resume k) s = .next t ∧ Begun s t k ∧ t.mem = s.mem ∧ t.crews = s.crews ∧
          (t.die (dieOf (s.crew j).core)).placeq = (s.die (dieOf (s.crew j).core)).placeq ++ [.resumeCrew j (some k)]) ∧
        ((s.crew j).place = .halted → ∃ t, exec (.resume k) s = .next t ∧ Over s t k 0 0 ∧ t.mem = s.mem ∧
          t.crew j = { s.crew j with place := .resident })))

/-- R449 and R450: CREATE, of partition 0 alone and of a keyed partition that does not exist, with free clusters and shadow units, zeroes every local
memory and yard of its clusters and nothing else, and writes the first producer; else BUSY. SCRUB zeroes what no gang holds in PART's clusters.
R453: DESTROY leaves nothing of the partition's: crews, producers, clusters, shadow units; its commands are cancelled. -/
def Claims.PartitionsMadeAndEnded : Prop :=
  ∀ (s : State) (k : Nat),
    (let m := s.cmds.get k
    let p := cmdPart m
    let x := s.part p
    let apertures := fun (mask : BitVec 24) (a : Nat) => ∃ c, c < 24 ∧ mask.getLsbD c = true ∧
      (inRange (localAp (8 * c)) 0x200000 a ∨ inRange (yardAp (8 * c)) 0x1000000 a)
    m.st = .taken → bitsOf m.arg0 12 52 = 0 → m.level = true →
      (∀ bs, bs.length = 64 → m.part = 0 → m.arg1.toNat % 64 = 0 → x.keyed = true → s.comes (tagCmd k) m.part m.level m.arg1.toNat bs →
        descriptorBad (leNat bs) p = false →
        (let b : BitVec 512 := BitVec.ofNat 512 (leNat bs)
        let mask : BitVec 24 := b.extractLsb' 0 24
        (x.present = true ∨ s.assigned p mask = true ∨ s.freeUnits.length < bitsOf b 88 8 →
          ∃ t, exec (.partitionCreate k) s = .next t ∧ OnlyOver s t k 0x24 0) ∧
        (x.present = false → s.assigned p mask = false → bitsOf b 88 8 ≤ s.freeUnits.length →
          ∃ t, exec (.partitionCreate k) s = .next t ∧ Over s t k 0 0 ∧ (t.part p).present = true ∧ (t.part p).clusters = mask ∧
            (t.part p).units.length = bitsOf b 88 8 ∧ (∀ u ∈ (t.part p).units, u < 48 ∧ ∀ q, q ≠ p → (s.part q).present = true → u ∉ (s.part q).units) ∧
            (∀ q, q ≠ p → t.part q = s.part q) ∧
            t.producers.get (bitsOf b 96 12) = producerOf (bitsOf b 256 256) ∧
            (∀ n, n ≠ bitsOf b 96 12 → t.producers.get n = s.producers.get n) ∧
            ∀ a, (apertures mask a → t.mem.read a = 0) ∧ (¬ apertures mask a → t.mem.read a = s.mem.read a)))) ∧
      ((m.part = 0 ∨ m.part = p) → m.arg1 = 0 → x.present = true →
        ∃ t, exec (.partitionScrub k) s = .next t ∧ Over s t k 0 0 ∧ t.crews = s.crews ∧ t.gangs = s.gangs ∧
          (∀ a, ¬ apertures x.clusters a → t.mem.read a = s.mem.read a) ∧
          (∀ y, y < 192 → x.clusters.getLsbD (y / 8) = true → (s.yards.get y).grants = [] → ∀ a, inRange (yardAp y) 0x200000 a → t.mem.read a = 0) ∧
          ∀ c, c < 192 → x.clusters.getLsbD (c / 8) = true → ∀ i, i < 0x40000 →
            ((∀ r ∈ s.localTaken c [], ¬ inRange r.1 r.2 i) → t.mem.read (localAp c + i) = 0) ∧
            ((∃ r ∈ s.localTaken c [], inRange r.1 r.2 i) → t.mem.read (localAp c + i) = s.mem.read (localAp c + i))) ∧
      (m.part = 0 → m.arg1 = 0 → x.present = true →
        ∃ t, exec (.partitionDestroy k) s = .next t ∧ (t.cmds.get k).st = .finished ∧ (t.cmds.get k).status = 0 ∧ (t.part p).present = false ∧
          (t.part p).clusters = 0 ∧ (t.part p).units = [] ∧ (t.part p).keyed = false ∧ (∀ j, (t.crew j).part = p → (t.crew j).place = .free) ∧
          (∀ n, (t.producers.get n).part = p → (t.producers.get n).v = false) ∧
          ∀ j, j ≠ k → j < s.nextCmd → ((s.cmds.get j).st = .taken ∨ (s.cmds.get j).st = .running) → (s.cmds.get j).part = p →
            (t.cmds.get j).st = .finished ∧ (t.cmds.get j).status = 0x26))

/-- R451 and R452: SWAPOUT, when the contexts fit, pre-empts every resident crew of the partition; once all is still, the clusters are released, with what
they held kept, and the command is over. SWAPIN gives the clusters back and seats every crew on the core and quarter it left; BUSY when one of the clusters is
another partition's, and FAULT 0x28 when a context holds an uncorrectable word. -/
def Claims.PartitionsSwapped : Prop :=
  ∀ (s : State),
    (∀ k, (let m := s.cmds.get k
      let p := cmdPart m
      let x := s.part p
      m.st = .taken → bitsOf m.arg0 12 52 = 0 → m.level = true → (m.part = 0 ∨ m.part = p) → m.arg1 = 0 → x.present = true → x.swapping = none →
        (x.swapped = false →
          (s.contextsFit p = false → ∃ t, exec (.partitionSwapout k) s = .next t ∧ OnlyOver s t k 0x24 0) ∧
          (s.contextsFit p = true → ∃ t, exec (.partitionSwapout k) s = .next t ∧ Begun s t k ∧ (t.part p).swapping = some k ∧ t.mem = s.mem ∧
            (∀ j, (s.crew j).part = p → (s.crew j).place = .resident → t.crew j = { s.crew j with preempt := true }) ∧
            ∀ j, j ∉ s.crewsIn p .resident → t.crew j = s.crew j)) ∧
        (x.swapped = true →
          (s.assigned p x.held = true → ∃ t, exec (.partitionSwapin k) s = .next t ∧ OnlyOver s t k 0x24 0) ∧
          (s.assigned p x.held = false → (∃ j ∈ x.outCrews, s.contextBad j = true) → ∃ t, exec (.partitionSwapin k) s = .next t ∧ OnlyOver s t k 0x22 0x28) ∧
          (s.assigned p x.held = false → (∀ j ∈ x.outCrews, s.contextBad j = false) → ∃ t, exec (.partitionSwapin k) s = .next t ∧ Over s t k 0 0 ∧
            (t.part p).swapped = false ∧ (t.part p).clusters = x.held ∧ (t.part p).held = 0 ∧
            (∀ j ∈ x.outCrews, (t.crew j).place = .resident ∧ (t.crew j).core = (s.crew j).core ∧ (t.crew j).quarter = (s.crew j).quarter) ∧
            ∀ j, j ∉ x.outCrews → t.crew j = s.crew j)))) ∧
    ∀ p k, (s.part p).swapping = some k → s.partStill p = true →
      ∃ t, exec (.swapoutSaveComplete p) s = .next t ∧ Over s t k 0 0 ∧ (t.part p).swapped = true ∧ (t.part p).swapping = none ∧
        (t.part p).held = (s.part p).clusters ∧ (t.part p).clusters = 0 ∧ t.crews = s.crews ∧ t.mem = s.mem ∧ ∀ q, q ≠ p → t.part q = s.part q

/-! ## The host port (R40, R457–R463, R468–R474) -/

namespace Sys2Proof.Machine

/-- A request of the host port is accepted: start-up is over, its partition is keyed, its tag verifies and its CTR is above the last (R459). -/
def State.accepts (s : State) (a : Auth) : Prop := s.serving = true ∧ a.part < 16 ∧ (s.part a.part).keyed = true ∧ a.tagOk = true ∧ (s.part a.part).ctrIn < a.ctr

/-- An accepted request is answered: its CTR is the last, and an ACK frame with the partition's next CTR ends what the device has sent. -/
structure Answered (s t : State) (a : Auth) (status : Nat) : Prop where
  last : (t.part a.part).ctrIn = a.ctr
  next : (t.part a.part).ctrOut = (s.part a.part).ctrOut + 1
  frame : t.sent = s.sent ++ [.ack a.part status a.ctr ((s.part a.part).ctrOut + 1)]

/-- The same, with nothing else of the device changed. -/
structure OnlyAnswered (s t : State) (a : Auth) (status : Nat) : Prop extends Answered s t a status where
  device : t = { s with parts := t.parts, sent := t.sent }
  others : ∀ q, q ≠ a.part → t.part q = s.part q
  own : t.part a.part = { s.part a.part with ctrIn := a.ctr, ctrOut := (s.part a.part).ctrOut + 1 }

/-- A frame is dropped and counted (R458). -/
def Dropped (i : Instr) (s : State) : Prop :=
  s.boot.powered = true → exec i s = .next { s with boot := { s.boot with dropped := s.boot.dropped + 1 } }

end Sys2Proof.Machine

/-- R459: of every authenticated request, one that the device does not accept is dropped and counted; one that only partition 0 may make is answered
DENIED to another. -/
def Claims.RequestsAuthenticated : Prop :=
  ∀ (s : State) (a : Auth) (n first count : Nat) (e mac ip addrs dest dev peers devs ring) (q r : BitVec 24),
    (¬ s.accepts a → ∀ i ∈ [Instr.window a n e, .qpset a q r mac ip ring, .group a n devs, .grant a n first count dest, .domain a dev peers], Dropped i s) ∧
    (s.serving = true → ¬ s.accepts a → Dropped (.surveyreq a addrs) s ∧ Dropped (.restart a) s) ∧
    (s.accepts a → a.part ≠ 0 → ∀ i ∈ [Instr.grant a n first count dest, .domain a dev peers], ∃ t, exec i s = .next t ∧ OnlyAnswered s t a ackDenied)

/-- R408 and R458: a doorbell's words are decided in order. SURVEYREQ is answered with a value for each address; IDREQ and ATTESTREQ with the device's
identity and a report that takes in the nonce; KEY keys an unkeyed partition. R480: RESTART of partition 0 with no tenant starts the device anew. -/
def Claims.HostFrames : Prop :=
  ∀ (s : State), s.serving = true →
    (∀ part words, words ≠ [] → words.length ≤ 32 → s.recRoom 0 (2 * words.length) = true →
      exec (.doorbell part words) s = .next (words.foldl (fun s w => (s.submit w part false).1) s)) ∧
    (∀ (a : Auth) addrs, s.accepts a → addrs ≠ [] → addrs.length ≤ 64 → ∃ t vs, exec (.surveyreq a addrs) s = .next t ∧ t.mem = s.mem ∧
      vs.length = addrs.length ∧ (t.part a.part).ctrIn = a.ctr ∧ t.sent = s.sent ++ [.surveyRsp a.part vs ((s.part a.part).ctrOut + 1)]) ∧
    (exec .idreq s = .next { s with sent := s.sent ++ [.idRsp Config.idKey Config.idCert] }) ∧
    (∀ nonce, (let r := Config.reportBytes (s.reportFields nonce)
      ∃ t g, exec (.attestreq nonce) s = .next t ∧ t.mem = s.mem ∧ t.parts = s.parts ∧ t.sent = s.sent ++ [.attestRsp r (Config.idSign g (sha3 r))])) ∧
    (∀ p cipher, p < 16 → cipher.length = 1088 →
      ((s.part p).keyed = false → ∃ t, exec (.key p cipher) s = .next t ∧ (t.part p).keyed = true ∧
        (t.part p).secret = Config.kemSecret s.boot.kem cipher ∧ (t.part p).ctrIn = 0 ∧ (t.part p).ctrOut = 1 ∧
        t.sent = s.sent ++ [.ack p ackOk 0 1] ∧ t.mem = s.mem ∧ ∀ q, q ≠ p → t.part q = s.part q) ∧
      ((s.part p).keyed = true → ∃ t, exec (.key p cipher) s = .next t ∧ (t.part p).secret = (s.part p).secret ∧
        t.sent = s.sent ++ [.ack p ackDenied 0 ((s.part p).ctrOut + 1)] ∧ t.mem = s.mem)) ∧
    (∀ (a : Auth), s.accepts a → a.part = 0 →
      (s.tenants = true → ∃ t, exec (.restart a) s = .next t ∧ OnlyAnswered s t a ackBusy) ∧
      (s.tenants = false → ∃ t, exec (.restart a) s = .next t ∧ t.sent = s.sent ++ [.ack 0 ackOk a.ctr ((s.part 0).ctrOut + 1)] ∧
        t.crews.cells = [] ∧ t.parts.cells = [] ∧ t.boot.powered = true ∧ t.boot.stage = 0))

/-- R461, R463, R465, R468 and R474: WINDOW, QPSET, GROUP, GRANT and DOMAIN write their tables and are answered OK; granules that a partition receives read
zero before the answer; a grant that names a granule another holds is FORM; one to none takes the granules back, whose
bytes then read as under other keys (R473), and no other byte changes; a group with a collective under way or a domain with tenants BUSY. -/
def Claims.AuthorityTables : Prop :=
  ∀ (s : State) (a : Auth), s.accepts a →
    (∀ n e, n < 64 → bitsOf e 4 4 = 0 → (e.getLsbD 0 = true → bitsOf e 40 32 ≠ 0) → s.rdmaOpen a.part = [] →
      ∃ t, exec (.window a n e) s = .next t ∧ Answered s t a ackOk ∧ (t.part a.part).windows.get n = e ∧ t.mem = s.mem ∧
        (∀ m, m ≠ n → (t.part a.part).windows.get m = (s.part a.part).windows.get m) ∧ ∀ q, q ≠ a.part → t.part q = s.part q) ∧
    (∀ l r mac ip, ∃ t, exec (.qpset a l r mac ip none) s = .next t ∧ Answered s t a ackOk ∧ (t.part a.part).qp.set = true ∧
      (t.part a.part).qp.ringSet = false ∧ t.mem = s.mem ∧ ∀ q, q ≠ a.part → t.part q = s.part q) ∧
    (∀ h devs, h < 256 → 2 ≤ devs.length → devs.length ≤ 16 → (∀ d ∈ devs, d < 16) →
      (s.groupBusy a.part h = true → ∃ t, exec (.group a h devs) s = .next t ∧ OnlyAnswered s t a ackBusy) ∧
      (s.groupBusy a.part h = false → ∃ t, exec (.group a h devs) s = .next t ∧ Answered s t a ackOk ∧
        (t.part a.part).groups.get h = ⟨true, devs⟩ ∧ t.mem = s.mem ∧ ∀ q, q ≠ a.part → t.part q = s.part q)) ∧
    (a.part = 0 → ∀ dev first count p, dev < 16 → first + count ≤ 768 → 0 < p → p < 16 →
      ((∃ i, i < count ∧ (s.holder dev (first + i)).isSome = true) → ∃ t, exec (.grant a dev first count (some p)) s = .next t ∧ OnlyAnswered s t a ackForm) ∧
      ((∀ i, i < count → s.holder dev (first + i) = none) → ∃ t, exec (.grant a dev first count (some p)) s = .next t ∧ Answered s t a ackOk ∧
        (t.part p).grants = (s.part p).grants ++ (List.range count).map (fun i => (dev, first + i)) ∧
        ∀ b, (dev = s.dev → inRange (first * 2 ^ 30) (count * 2 ^ 30) b → t.mem.read b = 0) ∧
          (dev ≠ s.dev ∨ ¬ inRange (first * 2 ^ 30) (count * 2 ^ 30) b → t.mem.read b = s.mem.read b))) ∧
    (a.part = 0 → ∀ dev first count, dev < 16 → first + count ≤ 768 → ∃ t, exec (.grant a dev first count none) s = .next t ∧
      (∀ b, dev ≠ s.dev ∨ ¬ inRange (first * 2 ^ 30) (count * 2 ^ 30) b ∨ s.holder dev (b / 2 ^ 30) = none → t.mem.read b = s.mem.read b) ∧
      ∀ e ∈ t.parts.cells, e.1 ≠ 0 → ∀ i, i < count → (dev, first + i) ∉ e.2.grants) ∧
    (a.part = 0 → ∀ dev (peers : List (Option (BitVec 4 × BitVec 256))), peers.length = 16 →
      (s.tenants = true → ∃ t, exec (.domain a dev peers) s = .next t ∧ OnlyAnswered s t a ackBusy) ∧
      (s.tenants = false → ∃ t, exec (.domain a dev peers) s = .next t ∧ Answered s t a ackOk ∧ t.dev = dev.toNat ∧ t.mem = s.mem ∧
        ∀ n, n < 16 → (t.ports.get n).peer = (peers[n]?).join))

/-- R461–R463: an RDMA request that no valid window admits, or a byte of which does not translate, is answered with a NAK and does nothing; an admitted
write is plain and acknowledged when every byte has performed; an admitted read is answered with the bytes. Any other operation is an invalid request, and a congestion frame
lowers the requester rate. -/
def Claims.RemoteMemory : Prop :=
  ∀ (s : State), s.serving = true →
    (∀ p key va bs m,
      (s.rdmaAdmits p key va.toNat bs.length true m = false ∨ s.rdmaMapped p true va.toNat bs.length = false →
        exec (.rdmaWrite p key va bs m) s = .next { s with sent := s.sent ++ [.nakAccess p] }) ∧
      (s.rdmaAdmits p key va.toNat bs.length true m = true → s.rdmaMapped p true va.toNat bs.length = true →
        (let places := s.rdmaPlaces p va.toNat bs
        (∀ x ∈ places, x.1 = s.dev) → (∀ o ∈ s.outstanding, o.who ≠ .rdma s.nextRdma) → (∀ w ∈ s.windowAcks, s.nextRdma ∉ w.2.2 ∧ w.2.2 ≠ []) →
          ∃ t, exec (.rdmaWrite p key va bs m) s = .next t ∧ Writes s t (places.map fun x => (x.2.1, x.2.2)) ∧
            t.sent = s.sent ++ [.rdmaAck p] ∧ t.crews = s.crews ∧ t.parts = s.parts))) ∧
    (∀ p key va n m,
      (s.rdmaAdmits p key va.toNat n false m = false ∨ s.rdmaMapped p false va.toNat n = false →
        exec (.rdmaRead p key va n m) s = .next { s with sent := s.sent ++ [.nakAccess p] }) ∧
      (s.rdmaAdmits p key va.toNat n false m = true → s.rdmaMapped p false va.toNat n = true →
        (let g := s.unitGather (tagRdma s.nextRdma) p false va.toNat n
        g.came → g.poisoned = false → (∀ w ∈ s.windowAcks, s.nextRdma ∉ w.2.2 ∧ w.2.2 ≠ []) →
          ∃ t, exec (.rdmaRead p key va n m) s = .next t ∧ t.mem = s.mem ∧ t.sent = s.sent ++ [.rdmaData p g.table] ∧ t.crews = s.crews ∧
            t.parts = s.parts))) ∧
    (∀ p, exec (.roceInvalidRequest p) s = .next { s with sent := s.sent ++ [.nakInvalid p] }) ∧
    (∀ p, (s.part p).qp.set = true → ∃ t, exec (.cnpReceive p) s = .next t ∧ (t.part p).qp.rateDrops = (s.part p).qp.rateDrops + 1 ∧
      t.mem = s.mem ∧ t.sent = s.sent ∧ ∀ q, q ≠ p → t.part q = s.part q)

/-! ## The Tolsal link (R18, R464–R467, R475) -/

/-- R464: a request of another device performs once at its home, and its answer is kept until it is acknowledged; one that comes again is answered again and
does nothing. A read is answered with the bytes that stand there; a write's bytes land; an atomic is the operation of R353 on the element, answered with what
stood there. A home that does not serve the place parks the request, unanswered (R20, R87). R467: a record's acceptance frees its sending slot. A lost frame is sent again. -/
def Claims.LinkRequests : Prop :=
  ∀ (s : State) (src seq : Nat),
    (let kept := fun (t : State) (bs : List Byte) (bad : List Nat) => t.seen = s.seen ++ [(src, seq, .response seq bs bad)] ∧
      t.sent = s.sent ++ [.tolsal src (.response seq bs bad)] ∧ t.crews = s.crews ∧ t.outstanding = s.outstanding
    (s.serving = true → s.linked src = true →
      (∀ m, s.seenOf src seq = some m → ∀ pa n level part bs op ty x y,
        ∀ i ∈ [TolsalMsg.read src seq pa n level part, .write src seq pa bs level part, .atomic src seq pa op ty x y level part],
          exec (.tolsalFrameReceive i) s = .next { s with sent := s.sent ++ [.tolsal src m] }) ∧
      (s.seenOf src seq = none → s.holdsRequest src seq = false → ∀ pa level part,
        (∀ n, (s.serves part pa n = true → ∃ t, exec (.tolsalFrameReceive (.read src seq pa n level part)) s = .next t ∧ t.mem = s.mem ∧
            kept t (s.mem.readList pa n) (s.badWords pa n)) ∧
          (∀ i, s.serves part pa n = false → (s.die (dieOfAddr pa % 4)).freeFq = some i → s.recRoom (dieOfAddr pa % 4) 1 = true →
            ∃ t, exec (.tolsalFrameReceive (.read src seq pa n level part)) s = .next t ∧ t.mem = s.mem ∧ t.sent = s.sent ∧ t.seen = s.seen ∧
              (let f := (t.die (dieOfAddr pa % 4)).fq.get i
              f.valid = true ∧ f.cause = cProtection ∧ f.addr = BitVec.ofNat 64 pa ∧
                f.who = .remote src seq (.read src seq pa n level part)))) ∧
        (∀ bs, s.serves part pa bs.length = true → ∃ t, exec (.tolsalFrameReceive (.write src seq pa bs level part)) s = .next t ∧
          Writes s t (bytesAt pa bs) ∧ kept t [] []) ∧
        ∀ op ty x y, (let n := elemBits ty / 8
          s.serves part pa n = true → s.badWords pa n = [] →
            ∃ t, exec (.tolsalFrameReceive (.atomic src seq pa op ty x y level part)) s = .next t ∧
              t.mem = (match rmwNew op ty (s.readVal pa n) x.toNat y.toNat with
                | some v => s.mem.writeList pa (leBytes n v)
                | none => s.mem) ∧
              kept t (s.mem.readList pa n) [])) ∧
      exec (.tolsalFrameReceive (.acked src seq)) s = .next { s with seen := s.seen.filter fun e => !(e.1 == src && e.2.1 == seq) }) ∧
    (∀ o, s.serving = true → s.linked o.dev = true → (s.outstanding.find? fun o => o.seq == seq) = some o →
      (∀ bs bad tag a b pa n l p, o.who = .unit tag → o.msg = .read a b pa n l p →
        ∃ t, exec (.tolsalFrameReceive (.response seq bs bad)) s = .next t ∧ t.outstanding = (s.outstanding.filter fun o => o.seq != seq) ∧
          t.unitLines = s.unitLines ++ [(tag, ⟨o.dev, pa / 128, bs, bad⟩)] ∧ t.sent = s.sent ++ [.tolsal o.dev (.acked s.dev seq)] ∧ t.mem = s.mem) ∧
      (∀ slot op, o.who = .token slot op →
        ∃ t, exec (.tolsalFrameReceive (.tokenAccepted seq)) s = .next t ∧ t.outstanding = (s.outstanding.filter fun o => o.seq != seq) ∧
          (t.pool.get slot).used = false ∧ (t.pool.get slot).gen = nextGen (s.pool.get slot).genNow ∧ t.mem = s.mem)) ∧
    (∀ o, (s.outstanding.find? fun o => o.seq == seq) = some o → s.linked o.dev = true →
      exec (.tolsalResend seq) s = .next { s with sent := s.sent ++ [.tolsal o.dev o.msg] }))

/-- R466, R467: when a device becomes unreachable its requests fail: a sett's load goes on without its bytes, which is UNCORRECTABLE where it
executes, a unit's line is lost, and a token
record stays in its slot. R465 and R475: a port opens toward a peer whose identity has the digest given, with a new association key, and what waits for that
device is sent again. -/
def Claims.PortsAndOutages : Prop :=
  ∀ (s : State),
    (∀ (dev : BitVec 4), dev.toNat ≠ s.dev → s.failRoom (s.toDev dev.toNat) = true → (∀ r ∈ s.reservations, r.2.1 ≠ dev.toNat) →
     (∀ e ∈ s.ops.cells, e.2.live = true → e.2.kind ≠ .coll) →
      ((∀ o ∈ s.toDev dev.toNat, ∃ slot op, o.who = .token slot op) → exec (.destinationUnreachable dev) s = .next s) ∧
      (∀ o, s.toDev dev.toNat = [o] →
        (∀ k slot lane epoch addr keep, o.who = .load k slot lane epoch addr keep → slot < 63 → (s.crew k).epoch = epoch → (s.crew k).place ≠ .free →
          ∃ t, exec (.destinationUnreachable dev) s = .next t ∧ t.mem = s.mem ∧
            (t.crew k).sett = { (s.crew k).sett with remote := (s.crew k).sett.remote ++ [(slot, lane, [])] } ∧
            t.outstanding = (s.outstanding.filter fun x => x.seq != o.seq) ∧ ∀ j, j ≠ k → t.crew j = s.crew j) ∧
        (∀ tag a b pa n l p, o.who = .unit tag → o.msg = .read a b pa n l p →
          ∃ t, exec (.destinationUnreachable dev) s = .next t ∧ t.mem = s.mem ∧ t.outstanding = (s.outstanding.filter fun x => x.seq != o.seq) ∧
            t.unitLines = s.unitLines ++ [(tag, ⟨o.dev, pa / 128, List.replicate 128 0, List.range 32⟩)]))) ∧
    ∀ (port : Nat) (d : BitVec 4) (want : BitVec 256), (s.ports.get port).peer = some (d, want) →
      (let only := fun (t : State) => t.mem = s.mem ∧ t.crews = s.crews ∧ ∀ n, n ≠ port → t.ports.get n = s.ports.get n
      (∀ digest, s.serving = true → (s.ports.get port).isOpen = false →
        (digest ≠ want → exec (.portOpen port digest) s = .next s) ∧
        (digest = want → ∃ t, exec (.portOpen port digest) s = .next t ∧ only t ∧
          t.ports.get port = ⟨true, some (d, want), (s.ports.get port).sakGen + 1⟩ ∧
          t.sent = s.sent ++ (s.toDev d.toNat).map fun o => .tolsal o.dev o.msg)) ∧
      (∃ t, exec (.portClose port) s = .next t ∧ only t ∧ t.sent = s.sent ∧ t.ports.get port = { s.ports.get port with isOpen := false }) ∧
      ((s.ports.get port).isOpen = true → ∃ t, exec (.sakRekey port) s = .next t ∧ only t ∧ t.sent = s.sent ∧
        t.ports.get port = { s.ports.get port with sakGen := (s.ports.get port).sakGen + 1 }))

/-! ## Start-up (R470, R476–R480, R483) -/

namespace Sys2Proof.Machine

/-- A new current record of the start counter, with a sequence number one higher; the older record stands (R479). -/
structure Recorded (b c : Boot) (count reason stage : Nat) : Prop where
  now : c.current = ⟨b.current.seqno + 1, count, reason, stage, true⟩
  older : c.recA = b.recA ∨ c.recB = b.recB

/-- A start from stage 0 after the boot state b (R479): minimal mode after three failed starts, else the count is one higher. -/
structure Started (b : Boot) (s t : State) : Prop where
  powered : t.boot.powered = true
  stage : t.boot.stage = 0
  minimal : t.boot.minimal = decide (3 ≤ b.current.count)
  record : if b.current.count < 3 then Recorded b t.boot (b.current.count + 1) b.current.reason b.current.stage else t.boot.current = b.current
  kept : t.boot.svn = b.svn ∧ t.boot.flash = b.flash
  bare : t.crews.cells = [] ∧ t.parts.cells = [] ∧ t.producers.cells = [] ∧ t.mem = startMemory s.free ∧ t.free = s.free + 1 ∧ t.sent = s.sent

end Sys2Proof.Machine

/-- R476–R480 and R483: a device that is powered on starts; each stage that completes is measured and the next runs, and at stage 4 the count is 0, the
minimum version is that of the image, and partition 0 with producer 0 exists. A stage that fails, or does not end in time, or whose image is not fetched in
time, writes its reason and its stage, and the device starts again; an image that flash lacks is asked for from the host. An IMAGE frame brings the bytes that
are wanted. At the critical temperature everything is lost and the device is in minimal mode; a loss of power leaves flash alone. Readings of the model in it: log 1, 14, 68, 69. -/
def Obligations.StartUp : Prop :=
  ∀ (s : State),
    (let b := s.boot
    let fails := fun (i : Instr) (r : BootReason) => ∃ t c, exec i s = .next t ∧ Recorded b c b.current.count (reasonCode r) b.stage ∧
      c.svn = b.svn ∧ c.flash = b.flash ∧ Started c s t
    (b.powered = false → ∃ t, exec .powerOnStart s = .next t ∧ Started b s t) ∧
    (b.powered = true → b.minimal = false → b.stage < 4 →
      (b.fetching = none → b.stage < 3 → ∃ t m l, exec (.bootStageComplete none) s = .next t ∧
        t = { s with boot := { b with stage := b.stage + 1, measure := m, log := l } } ∧
        (b.log.length < 64 → ∃ d, l = b.log ++ [(b.stage + 1, d)] ∧
          m = sha3 (bytes256 b.measure ++ Config.stageBytes (b.stage + 1) ++ bytes256 d))) ∧
      (b.fetching = none → b.stage = 3 → ∃ t, exec (.bootStageComplete none) s = .next t ∧
        Recorded b t.boot 0 b.current.reason b.current.stage ∧ t.boot.stage = 4 ∧ t.boot.svn = max b.svn b.version ∧
        (t.part 0).present = true ∧ (t.producers.get 0).v = true ∧ (t.producers.get 0).sup = true ∧ t.mem = s.mem) ∧
      (∀ r, r ≠ .signature → r ≠ .flash → r ≠ .rollback → fails (.bootStageComplete (some r)) r) ∧
      (∀ r, r = .signature ∨ r = .flash ∨ r = .rollback → b.fetching = none → b.fetched = [] →
        exec (.bootStageComplete (some r)) s = .next { s with boot := { b with fetching := some r }, sent := s.sent ++ [.imageReq 0 8192] }) ∧
      fails .bootStageWatchdog .watchdog ∧
      (∀ r, b.fetching = some r → fails .imageFetchTimeout r ∧
        ∀ bytes, bytes ≠ [] → bytes.length ≤ 8192 →
          (Config.imageCheck (b.fetched ++ bytes) = none → ∃ t, exec (.image b.fetched.length bytes) s = .next t ∧
            t = { s with boot := { b with fetched := b.fetched ++ bytes }, sent := s.sent ++ [.imageReq (b.fetched ++ bytes).length 8192] }) ∧
          (∀ v, Config.imageCheck (b.fetched ++ bytes) = some (some v) → b.svn ≤ v → ∃ t, exec (.image b.fetched.length bytes) s = .next t ∧
            t = { s with boot := { b with fetched := b.fetched ++ bytes, fetching := none, version := v } }))) ∧
    (b.powered = true → ∃ t, exec .thermalCritical s = .next t ∧ Recorded b t.boot b.current.count 8 4 ∧ t.boot.minimal = true ∧
      t.boot.powered = true ∧ t.crews.cells = [] ∧ t.parts.cells = [] ∧ t.mem = Memory.empty) ∧
    ∃ t, exec .powerLoss s = .next t ∧ t.boot.powered = false ∧ t.boot.recA = b.recA ∧ t.boot.recB = b.recB ∧ t.boot.svn = b.svn ∧
      t.boot.flash = b.flash ∧ t.crews.cells = [] ∧ t.parts.cells = [] ∧ t.mem = Memory.empty)

/-! ## The obligations that join several of these -/

/-- Integer arithmetic, wide and immediate forms, with their frame: `Claims.IntegerArithmetic`, `Claims.WideAndImmediate`. -/
def Obligations.IntegerArithmetic : Prop :=
  Claims.IntegerArithmetic ∧ Claims.WideAndImmediate

/-- MOV, MOVI, SEL and the moves to special registers: `Claims.Moves`, `Claims.SpecialMoves`. -/
def Obligations.Moves : Prop :=
  Claims.Moves ∧ Claims.SpecialMoves

/-- Shifts, rotates, bit fields, counts and logic: `Claims.Shifts`, `Claims.BitFields`. -/
def Obligations.ShiftsAndBitFields : Prop :=
  Claims.Shifts ∧ Claims.BitFields

/-- Comparison and predicate instructions: `Claims.Comparison`, `Claims.PredicateValues`, `Claims.PredicateSet`. -/
def Obligations.ComparisonAndPredicates : Prop :=
  Claims.Comparison ∧ Claims.PredicateValues ∧ Claims.PredicateSet

/-- Votes, the byte permute and the lane permutes: `Claims.Votes`, `Claims.BytePermute`, `Claims.Permutes`. -/
def Obligations.VotesAndPermutes : Prop :=
  Claims.Votes ∧ Claims.BytePermute ∧ Claims.Permutes

/-- FP32 arithmetic: results, flags, generators, NaN: `Claims.FloatArithmetic`, `Claims.CanonicalNaN`. -/
def Obligations.FloatArithmetic : Prop :=
  Claims.FloatArithmetic ∧ Claims.CanonicalNaN

/-- Packed arithmetic and conversions: `Claims.PackedAndConvert`, `Claims.PackedAndConvertValues`. -/
def Obligations.PackedAndConvert : Prop :=
  Claims.PackedAndConvert ∧ Claims.PackedAndConvertValues

/-- Blocks, reductions and scans over lanes: `Claims.CrossLane`, `Claims.ReduceAdds`. -/
def Obligations.CrossLane : Prop :=
  Claims.CrossLane ∧ Claims.ReduceAdds

/-- SFU operations issue, return and land: `Claims.SfuIssue`, `Claims.SfuReturn`, `Claims.SfuResult`. A reading of the model in it: log 70. -/
def Obligations.SfuOperations : Prop :=
  Claims.SfuIssue ∧ Claims.SfuReturn ∧ Claims.SfuResult

/-- BRC, LOOP, JOIN and YIELD move the whole path: `Claims.PathBranches`, `Claims.Yield`. A reading of the model in it: log 28. -/
def Obligations.PathBranches : Prop :=
  Claims.PathBranches ∧ Claims.Yield

/-- RET, EXIT of some lanes, EXIT of the last: `Claims.ReturnAndExit`, `Claims.LastExit`. A reading of the model in it: log 25. -/
def Obligations.ReturnAndExit : Prop :=
  Claims.ReturnAndExit ∧ Claims.LastExit

/-- TRAP, SVC, taking a trap, double traps, HALT: `Claims.TrapAndSvc`, `Claims.TrapEntry`, `Claims.Halt`. Readings of the model in it: log 19, 20, 35. -/
def Obligations.Traps : Prop :=
  Claims.TrapAndSvc ∧ Claims.TrapEntry ∧ Claims.Halt

/-- Plain loads and the bytes they read: `Claims.PlainLoads`, `Claims.LoadedBytes`. Readings of the model in it: log 21, 33, 73, 79. -/
def Obligations.PlainLoads : Prop :=
  Claims.PlainLoads ∧ Claims.LoadedBytes

/-- Address checks of the memory spaces and the traps of accesses: `Claims.AddressChecks`, `Claims.AccessTraps`. Readings of the model in it: log 21, 32. -/
def Obligations.AccessTraps : Prop :=
  Claims.AddressChecks ∧ Claims.AccessTraps

/-- Accesses that perform at commit: `Claims.EffectfulAccessesCapture`, `Claims.AcquireAndRelease`. Readings of the model in it: log 21, 26. -/
def Obligations.CommitAccesses : Prop :=
  Claims.EffectfulAccessesCapture ∧ Claims.AcquireAndRelease

/-- Atomics at their homes and the atomic operations: `Claims.AtomicsPerform`, `Claims.AtomicRule`. -/
def Obligations.Atomics : Prop :=
  Claims.AtomicsPerform ∧ Claims.AtomicRule

/-- Fences, prefetch, FETCHB, CWB, CINV, IINV: `Claims.Fences`, `Claims.PrefetchAndFetchb`, `Claims.LineRanges`. Readings of the model in it: log 25, 29. -/
def Obligations.FencesAndLines : Prop :=
  Claims.Fences ∧ Claims.PrefetchAndFetchb ∧ Claims.LineRanges

/-- Gang barriers, CREW.JOIN and CREW.LEAVE: `Claims.Barriers`, `Claims.JoinAndLeave`. A reading of the model in it: log 26. -/
def Obligations.Barriers : Prop :=
  Claims.Barriers ∧ Claims.JoinAndLeave

/-- Channel queues, WAITC, NOP: `Claims.QueuesAndWaitc`, `Claims.NopAndBoundQueues`. A reading of the model in it: log 26. -/
def Obligations.QueuesAndWaits : Prop :=
  Claims.QueuesAndWaitc ∧ Claims.NopAndBoundQueues

/-- Monitors and stamp waits: `Claims.Monitors`, `Claims.StampWaits`. A reading of the model in it: log 78. -/
def Obligations.StampWaits : Prop :=
  Claims.Monitors ∧ Claims.StampWaits

/-- Engine instructions: checks and issue: `Claims.EngineIssueChecks`, `Claims.EngineIssueCommits`. Readings of the model in it: log 25, 41. -/
def Obligations.EngineIssue : Prop :=
  Claims.EngineIssueChecks ∧ Claims.EngineIssueCommits

/-- Token records: load, store, send, spawn, free: `Claims.TokenReads`, `Claims.TokenSends`. A reading of the model in it: log 42. -/
def Obligations.Tokens : Prop :=
  Claims.TokenReads ∧ Claims.TokenSends

/-- System registers, by instruction and as steps; queries of the gang: `Claims.SystemRegisters`, `Claims.RegisterWriteSteps`, `Claims.CrewQueries`. A reading of the model in it: log 30. -/
def Obligations.SystemRegisters : Prop :=
  Claims.SystemRegisters ∧ Claims.RegisterWriteSteps ∧ Claims.CrewQueries

/-- Submission and survey: `Claims.Submission`, `Claims.Surveys`. A reading of the model in it: log 34. -/
def Obligations.SubmissionAndSurvey : Prop :=
  Claims.Submission ∧ Claims.Surveys

/-- Invalidations, walks, memory errors, configuration regions: `Claims.InvalidationsWalksErrors`, `Claims.ConfigurationRegions`. Readings of the model in it: log 30, 71. -/
def Obligations.ErrorsAndInvalidations : Prop :=
  Claims.InvalidationsWalksErrors ∧ Claims.ConfigurationRegions

/-- Channel bits, yard regions, fault records, parked requests: `Claims.Rings`, `Claims.RecordsAndParkedRequests`. Readings of the model in it: log 24, 75, 77. -/
def Obligations.FaultRecords : Prop :=
  Claims.Rings ∧ Claims.RecordsAndParkedRequests

/-- A sett starts; a quarter's issue: `Claims.SettStarts`, `Claims.QuarterIssue`. Readings of the model in it: log 4, 27. -/
def Obligations.SettIssue : Prop :=
  Claims.SettStarts ∧ Claims.QuarterIssue

/-- Engine operations are accepted and end: `Claims.EngineAcceptance`, `Claims.OperationsEnd`. A reading of the model in it: log 36. -/
def Obligations.EngineAcceptance : Prop :=
  Claims.EngineAcceptance ∧ Claims.OperationsEnd

/-- Copies and conditional copies: `Claims.CopiesPerform`, `Claims.ConditionalCopies`. Readings of the model in it: log 36, 37. -/
def Obligations.Copies : Prop :=
  Claims.CopiesPerform ∧ Claims.ConditionalCopies

/-- Copy templates fire; multicasts: `Claims.TemplatesFire`, `Claims.Multicasts`. Readings of the model in it: log 38, 39. -/
def Obligations.TemplatesFire : Prop :=
  Claims.TemplatesFire ∧ Claims.Multicasts

/-- Batts form and go; the carousel's passes; replacements: `Claims.BattsFormAndGo`, `Claims.CarouselPasses`. Readings of the model in it: log 3, 43. -/
def Obligations.BattsAndCarousel : Prop :=
  Claims.BattsFormAndGo ∧ Claims.CarouselPasses

/-- Placement, pressure and reserve crews: `Claims.Placement`, `Claims.PressureAndReserve`. Readings of the model in it: log 2, 46, 47. -/
def Obligations.Placement : Prop :=
  Claims.Placement ∧ Claims.PressureAndReserve

/-- Lent records; dies, clusters and temperature: `Claims.Lending`, `Claims.DiesAndPower`. Readings of the model in it: log 48, 49. -/
def Obligations.Lending : Prop :=
  Claims.Lending ∧ Claims.DiesAndPower

/-- Bench instructions and the start of a bench: `Claims.BenchInstructions`, `Claims.BenchesStart`. A reading of the model in it: log 51. -/
def Obligations.BenchInstructions : Prop :=
  Claims.BenchInstructions ∧ Claims.BenchesStart

/-- Element rules fire; kinds of elements: `Claims.ElementRules`, `Claims.ElementKinds`. Readings of the model in it: log 52, 53. -/
def Obligations.ElementRules : Prop :=
  Claims.ElementRules ∧ Claims.ElementKinds

/-- Memory nodes of a bench and the spall net: `Claims.MemoryNodes`, `Claims.SpallNet`. Readings of the model in it: log 53, 54, 55. -/
def Obligations.BenchMemory : Prop :=
  Claims.MemoryNodes ∧ Claims.SpallNet

/-- The merge order, taking a command, spill moves, firmware restart: `Claims.MergeOrder`, `Claims.CommandsTaken`. A reading of the model in it: log 58. -/
def Obligations.CommandsTaken : Prop :=
  Claims.MergeOrder ∧ Claims.CommandsTaken

/-- NOP, PRODUCER, STAMPWAIT and completion records: `Claims.FrontCommands`, `Claims.CommandsComplete`. A reading of the model in it: log 58. -/
def Obligations.FrontCommands : Prop :=
  Claims.FrontCommands ∧ Claims.CommandsComplete

/-- Launches; CONFIG and DELTA: `Claims.Launches`, `Claims.ConfigAndDelta`. Readings of the model in it: log 15, 18, 59. -/
def Obligations.LaunchesAndRegions : Prop :=
  Claims.Launches ∧ Claims.ConfigAndDelta

/-- Pre-emption, RESUME and the partition commands: `Claims.CrewsSavedAndResumed`, `Claims.PartitionsMadeAndEnded`, `Claims.PartitionsSwapped`. Readings of the model in it: log 35, 60, 61, 62. -/
def Obligations.CrewsAndPartitions : Prop :=
  Claims.CrewsSavedAndResumed ∧ Claims.PartitionsMadeAndEnded ∧ Claims.PartitionsSwapped

/-- Authenticated requests and the frames of the host port: `Claims.RequestsAuthenticated`, `Claims.HostFrames`. A reading of the model in it: log 14. -/
def Obligations.HostRequests : Prop :=
  Claims.RequestsAuthenticated ∧ Claims.HostFrames

/-- Windows, groups, grants, the domain; RDMA: `Claims.AuthorityTables`, `Claims.RemoteMemory`. Readings of the model in it: log 63, 64. -/
def Obligations.AuthorityAndRdma : Prop :=
  Claims.AuthorityTables ∧ Claims.RemoteMemory

/-- Requests and outages on the Tolsal link; ports: `Claims.LinkRequests`, `Claims.PortsAndOutages`. Readings of the model in it: log 65, 66, 67. -/
def Obligations.Links : Prop :=
  Claims.LinkRequests ∧ Claims.PortsAndOutages
end

