-- ==== Sys2Proof/Laws/Store.lean ====
section
/-!
SUPPORT. Sys2Proof/Laws/Store.lean: what a table or the memory reads after a write, and that every memory operation keeps the canonical form.
-/
namespace Sys2Proof.Machine

/-! ## Cells -/

@[simp] theorem Cells.find_insert_same {α : Type} (l : List (Nat × α)) (k : Nat) (v : α) :
    Cells.find (Cells.insert l k v) k = some v := by
  induction l with
  | nil => simp [Cells.insert, Cells.find]
  | cons c r ih =>
    obtain ⟨j, w⟩ := c
    simp only [Cells.insert]
    split
    · simp [Cells.find]
    · split
      · simp [Cells.find]
      · next h1 h2 => simp [Cells.find, ih, Ne.symm h2]

theorem Cells.find_insert_other {α : Type} (l : List (Nat × α)) {j k : Nat} (v : α) (h : j ≠ k) :
    Cells.find (Cells.insert l k v) j = Cells.find l j := by
  induction l with
  | nil => simp [Cells.insert, Cells.find, Ne.symm h]
  | cons c r ih =>
    obtain ⟨i, w⟩ := c
    simp only [Cells.insert]
    split
    · simp [Cells.find, Ne.symm h]
    · split
      · next h2 => subst h2; simp [Cells.find, Ne.symm h]
      · simp only [Cells.find, ih]

@[simp] theorem Cells.find_erase_same {α : Type} (l : List (Nat × α)) (k : Nat) : Cells.find (Cells.erase l k) k = none := by
  induction l with
  | nil => rfl
  | cons c r ih =>
    obtain ⟨j, w⟩ := c
    simp only [Cells.erase]
    split
    · exact ih
    · next h => simp [Cells.find, h, ih]

theorem Cells.find_erase_other {α : Type} (l : List (Nat × α)) {j k : Nat} (h : j ≠ k) :
    Cells.find (Cells.erase l k) j = Cells.find l j := by
  induction l with
  | nil => rfl
  | cons c r ih =>
    obtain ⟨i, w⟩ := c
    simp only [Cells.erase]
    split
    · next h2 => subst h2; simp [Cells.find, Ne.symm h, ih]
    · simp only [Cells.find, ih]

/-! ## Tables -/

@[simp] theorem Tbl.get_empty {α : Type} [Inhabited α] (k : Nat) : (Tbl.empty : Tbl α).get k = default := rfl

theorem Tbl.get_put {α : Type} [Inhabited α] (t : Tbl α) (j k : Nat) (v : α) :
    (t.put k v).get j = if j = k then v else t.get j := by
  by_cases h : j = k
  · subst h; simp [Tbl.get, Tbl.put]
  · simp [Tbl.get, Tbl.put, Cells.find_insert_other, h]

@[simp] theorem Tbl.get_put_same {α : Type} [Inhabited α] (t : Tbl α) (k : Nat) (v : α) : (t.put k v).get k = v := by
  simp [Tbl.get_put]

theorem Tbl.get_putc {α : Type} [Inhabited α] [DecidableEq α] (t : Tbl α) (j k : Nat) (v : α) :
    (t.putc k v).get j = if j = k then v else t.get j := by
  by_cases h : j = k <;> by_cases h2 : v = default <;>
    simp [Tbl.get, Tbl.putc, Cells.find_insert_other, Cells.find_erase_other, h, h2]

@[simp] theorem Tbl.get_putc_same {α : Type} [Inhabited α] [DecidableEq α] (t : Tbl α) (k : Nat) (v : α) :
    (t.putc k v).get k = v := by simp [Tbl.get_putc]

theorem Tbl.get_upd {α : Type} [Inhabited α] (t : Tbl α) (j k : Nat) (f : α → α) :
    (t.upd k f).get j = if j = k then f (t.get k) else t.get j := Tbl.get_put t j k _

@[simp] theorem Tbl.get_upd_same {α : Type} [Inhabited α] (t : Tbl α) (k : Nat) (f : α → α) :
    (t.upd k f).get k = f (t.get k) := by simp [Tbl.get_upd]

theorem Tbl.get_drop {α : Type} [Inhabited α] (t : Tbl α) (j k : Nat) :
    (t.drop k).get j = if j = k then default else t.get j := by
  by_cases h : j = k
  · subst h; simp [Tbl.get, Tbl.drop]
  · simp [Tbl.get, Tbl.drop, Cells.find_erase_other, h]

/-- A map over the values reaches every key whose default it keeps. -/
theorem Tbl.get_mapVals {α : Type} [Inhabited α] (t : Tbl α) (f : α → α) (h : f default = default) (k : Nat) :
    (t.mapVals f).get k = f (t.get k) := by
  obtain ⟨l⟩ := t
  simp only [Tbl.get, Tbl.mapVals]
  induction l with
  | nil => simp [Cells.find, h]
  | cons c r ih =>
    obtain ⟨j, w⟩ := c
    by_cases hj : j = k <;> simp_all [Cells.find]

/-! ## Memory -/

/-- An address of a cut is in no range; every other is where it was. -/
theorem Segs.at?_cut (l : Segs) (a n x : Nat) : (l.cut a n).at? x = if a ≤ x ∧ x < a + n then none else l.at? x := by
  induction l with
  | nil => simp [Segs.cut, Segs.at?]
  | cons s r ih =>
    obtain ⟨b, e, k⟩ := s
    have hp : ∀ (b e : Nat) (r : Segs), (Segs.piece b e k ++ r).at? x = if b ≤ x ∧ x < e then some k else r.at? x := by
      intro b e r
      unfold Segs.piece
      by_cases h : b < e
      · rw [if_pos h]; rfl
      · rw [if_neg h, if_neg (by omega)]; rfl
    simp only [Segs.cut, hp, ih, Segs.at?]
    by_cases h : a ≤ x ∧ x < a + n
    · rw [if_neg (by omega), if_neg (by omega), if_pos h, if_pos h]
    · rw [if_neg h, if_neg h]
      by_cases h2 : b ≤ x ∧ x < e
      · rw [if_pos h2]
        by_cases h3 : b ≤ x ∧ x < min e a
        · rw [if_pos h3]
        · rw [if_neg h3, if_pos (by omega)]
      · rw [if_neg (by omega), if_neg (by omega), if_neg h2]

theorem Memory.unlisted_none {m : Memory} {a : Nat} (h : m.fresh.at? a = none) : m.unlisted a = Memory.unwritten := by
  unfold Memory.unlisted
  rw [h]

theorem Memory.unlisted_congr {m k : Memory} {a : Nat} (h : m.fresh.at? a = k.fresh.at? a) : m.unlisted a = k.unlisted a := by
  unfold Memory.unlisted
  rw [h]

theorem Memory.read_congr {m k : Memory} {a : Nat} (h : Cells.find m.cells a = Cells.find k.cells a) (hf : m.fresh.at? a = k.fresh.at? a) :
    m.read a = k.read a := by
  unfold Memory.read
  rw [h, Memory.unlisted_congr hf]

theorem Memory.read_write (m : Memory) (a b : Nat) (x : Byte) : (m.write a x).read b = if b = a then x else m.read b := by
  by_cases h : b = a
  · subst h
    rw [if_pos rfl]
    unfold Memory.read
    by_cases h2 : x = Memory.unwritten
    · simp only [Memory.write, if_pos h2, Cells.find_erase_same]
      rw [Memory.unlisted_none (by simp [Segs.at?_cut]), h2]
    · simp only [Memory.write, if_neg h2, Cells.find_insert_same]
  · rw [if_neg h]
    refine Memory.read_congr ?_ (by rw [Memory.write, Segs.at?_cut, if_neg (by omega)])
    by_cases h2 : x = Memory.unwritten
    · simp only [Memory.write, if_pos h2, Cells.find_erase_other _ h]
    · simp only [Memory.write, if_neg h2, Cells.find_insert_other _ _ h]

@[simp] theorem Memory.read_write_same (m : Memory) (a : Nat) (x : Byte) : (m.write a x).read a = x := by
  simp [Memory.read_write]

theorem Memory.read_writeList_other (bs : List Byte) (m : Memory) (a b : Nat) (h : b < a ∨ a + bs.length ≤ b) :
    (m.writeList a bs).read b = m.read b := by
  induction bs generalizing m a with
  | nil => rfl
  | cons x r ih =>
    simp only [Memory.writeList, List.length_cons] at *
    rw [ih _ _ (by omega), Memory.read_write, if_neg (by omega)]

/-- A fold of byte writes leaves every address it does not name. -/
theorem Memory.read_foldl_other (bs : List (Nat × Byte)) (m : Memory) (a : Nat) (h : ∀ b ∈ bs, b.1 ≠ a) :
    (bs.foldl (fun m b => m.write b.1 b.2) m).read a = m.read a := by
  induction bs generalizing m with
  | nil => rfl
  | cons x r ih =>
    simp only [List.foldl_cons]
    rw [ih _ fun b hb => h b (List.mem_cons_of_mem _ hb), Memory.read_write, if_neg (Ne.symm (h x List.mem_cons_self))]

/-! ## The canonical form -/

theorem Cells.rising_cons {α : Type} (c : Nat × α) (l : List (Nat × α)) :
    Cells.rising (c :: l) = true ↔ (∀ d ∈ l, c.1 < d.1) ∧ Cells.rising l = true := by
  induction l generalizing c with
  | nil => simp [Cells.rising]
  | cons d r ih =>
    obtain ⟨i, v⟩ := c
    obtain ⟨j, w⟩ := d
    simp only [Cells.rising, Bool.and_eq_true, decide_eq_true_eq, List.mem_cons, forall_eq_or_imp]
    constructor
    · rintro ⟨h1, h2⟩
      exact ⟨⟨h1, fun e he => Nat.lt_trans h1 (((ih (j, w)).1 h2).1 e he)⟩, h2⟩
    · rintro ⟨⟨h1, -⟩, h2⟩
      exact ⟨h1, h2⟩

theorem Cells.mem_insert {α : Type} {l : List (Nat × α)} {k : Nat} {v : α} {d : Nat × α} (h : d ∈ Cells.insert l k v) :
    d = (k, v) ∨ d ∈ l := by
  induction l with
  | nil => simpa [Cells.insert] using h
  | cons c r ih =>
    obtain ⟨j, w⟩ := c
    simp only [Cells.insert] at h
    split at h
    · simpa using h
    · split at h
      · simp only [List.mem_cons] at *; exact h.imp id .inr
      · simp only [List.mem_cons] at *
        rcases h with h | h
        · exact .inr (.inl h)
        · exact (ih h).imp id .inr

theorem Cells.mem_erase {α : Type} {l : List (Nat × α)} {k : Nat} {d : Nat × α} (h : d ∈ Cells.erase l k) : d ∈ l := by
  induction l with
  | nil => simp [Cells.erase] at h
  | cons c r ih =>
    obtain ⟨j, w⟩ := c
    simp only [Cells.erase] at h
    split at h
    · exact List.mem_cons_of_mem _ (ih h)
    · simp only [List.mem_cons] at *
      rcases h with h | h
      · exact .inl h
      · exact .inr (ih h)

theorem Cells.rising_insert {α : Type} (l : List (Nat × α)) (k : Nat) (v : α) (h : Cells.rising l = true) :
    Cells.rising (Cells.insert l k v) = true := by
  induction l with
  | nil => rfl
  | cons c r ih =>
    obtain ⟨j, w⟩ := c
    rw [Cells.rising_cons] at h
    simp only [Cells.insert]
    split
    · next h1 =>
      rw [Cells.rising_cons, Cells.rising_cons]
      exact ⟨by simpa using ⟨h1, fun a b hd => Nat.lt_trans h1 (h.1 (a, b) hd)⟩, h.1, h.2⟩
    · split
      · next h2 =>
        subst h2
        rw [Cells.rising_cons]
        exact ⟨h.1, h.2⟩
      · next h1 h2 =>
        rw [Cells.rising_cons]
        refine ⟨fun d hd => ?_, ih h.2⟩
        rcases Cells.mem_insert hd with rfl | hd
        · simp only; omega
        · exact h.1 d hd

theorem Cells.rising_erase {α : Type} (l : List (Nat × α)) (k : Nat) (h : Cells.rising l = true) :
    Cells.rising (Cells.erase l k) = true := by
  induction l with
  | nil => rfl
  | cons c r ih =>
    obtain ⟨j, w⟩ := c
    rw [Cells.rising_cons] at h
    simp only [Cells.erase]
    split
    · exact ih h.2
    · rw [Cells.rising_cons]
      exact ⟨fun d hd => h.1 d (Cells.mem_erase hd), ih h.2⟩

theorem Cells.rising_filter {α : Type} (l : List (Nat × α)) (p : Nat × α → Bool) (h : Cells.rising l = true) :
    Cells.rising (l.filter p) = true := by
  induction l with
  | nil => rfl
  | cons c r ih =>
    rw [Cells.rising_cons] at h
    simp only [List.filter_cons]
    split
    · rw [Cells.rising_cons]
      exact ⟨fun d hd => h.1 d (List.mem_filter.1 hd).1, ih h.2⟩
    · exact ih h.2

/-! ## Ranges -/

theorem Segs.wf_cons (b e k : Nat) (r : Segs) : Segs.wf ((b, e, k) :: r) = true ↔ b < e ∧ (∀ x ∈ r, e ≤ x.1) ∧ Segs.wf r = true := by
  simp only [Segs.wf, Bool.and_eq_true, decide_eq_true_eq, List.all_eq_true, and_assoc]

theorem Segs.mem_piece {b e k : Nat} {y : Nat × Nat × Nat} (h : y ∈ Segs.piece b e k) : y = (b, e, k) ∧ b < e := by
  unfold Segs.piece at h
  split at h
  · exact ⟨List.mem_singleton.1 h, ‹_›⟩
  · cases h

theorem Segs.wf_piece {b e k : Nat} {r : Segs} (h : Segs.wf r = true) (hr : ∀ x ∈ r, e ≤ x.1) : Segs.wf (Segs.piece b e k ++ r) = true := by
  unfold Segs.piece
  split
  · exact (Segs.wf_cons _ _ _ _).2 ⟨‹_›, hr, h⟩
  · exact h

/-- What is left of a range stays within it, before the cut or after it. -/
theorem Segs.mem_cut {l : Segs} {a n : Nat} {y : Nat × Nat × Nat} (h : y ∈ l.cut a n) :
    (∃ x ∈ l, x.1 ≤ y.1 ∧ y.2.1 ≤ x.2.1) ∧ (y.2.1 ≤ a ∨ a + n ≤ y.1) := by
  induction l with
  | nil => cases h
  | cons s r ih =>
    obtain ⟨b, e, k⟩ := s
    simp only [Segs.cut, List.mem_append] at h
    rcases h with h | h | h
    · obtain ⟨rfl, hl⟩ := Segs.mem_piece h
      exact ⟨⟨_, List.mem_cons_self, Nat.le_refl _, Nat.min_le_left _ _⟩, .inl (Nat.min_le_right _ _)⟩
    · obtain ⟨rfl, hl⟩ := Segs.mem_piece h
      exact ⟨⟨_, List.mem_cons_self, Nat.le_max_left _ _, Nat.le_refl _⟩, .inr (Nat.le_max_right _ _)⟩
    · obtain ⟨⟨x, hx, h1⟩, h2⟩ := ih h
      exact ⟨⟨x, List.mem_cons_of_mem _ hx, h1⟩, h2⟩

theorem Segs.wf_cut (l : Segs) (a n : Nat) (h : Segs.wf l = true) : Segs.wf (l.cut a n) = true := by
  induction l with
  | nil => rfl
  | cons s r ih =>
    obtain ⟨b, e, k⟩ := s
    rw [Segs.wf_cons] at h
    have hr : ∀ y ∈ Segs.cut r a n, e ≤ y.1 := fun y hy => by
      obtain ⟨⟨x, hx, h1, _⟩, _⟩ := Segs.mem_cut hy
      have := h.2.1 x hx
      omega
    refine Segs.wf_piece (Segs.wf_piece (ih h.2.2) hr) fun y hy => ?_
    rcases List.mem_append.1 hy with hy | hy
    · obtain ⟨rfl, _⟩ := Segs.mem_piece hy
      simp only
      omega
    · have := hr y hy
      omega

theorem Segs.mem_add {l : Segs} {b e k : Nat} {y : Nat × Nat × Nat} (h : y ∈ l.add b e k) : y = (b, e, k) ∨ y ∈ l := by
  induction l with
  | nil => exact .inl (List.mem_singleton.1 h)
  | cons s r ih =>
    simp only [Segs.add] at h
    split at h
    · simpa using h
    · rcases List.mem_cons.1 h with h | h
      · exact .inr (h ▸ List.mem_cons_self)
      · exact (ih h).imp id (List.mem_cons_of_mem _)

theorem Segs.wf_add (l : Segs) (b e k : Nat) (hb : b < e) (h : Segs.wf l = true) (hd : ∀ y ∈ l, y.2.1 ≤ b ∨ e ≤ y.1) :
    Segs.wf (l.add b e k) = true := by
  induction l with
  | nil => exact (Segs.wf_cons _ _ _ _).2 ⟨hb, (fun _ hx => by cases hx), rfl⟩
  | cons s r ih =>
    obtain ⟨b', e', k'⟩ := s
    have h' := (Segs.wf_cons _ _ _ _).1 h
    simp only [Segs.add]
    split
    · next he =>
      refine (Segs.wf_cons _ _ _ _).2 ⟨hb, fun x hx => ?_, h⟩
      rcases List.mem_cons.1 hx with rfl | hx
      · exact he
      · have h1 := h'.2.1 x hx
        have h2 := h'.1
        omega
    · next he =>
      refine (Segs.wf_cons _ _ _ _).2 ⟨h'.1, fun x hx => ?_, ih h'.2.2 fun y hy => hd y (List.mem_cons_of_mem _ hy)⟩
      rcases Segs.mem_add hx with rfl | hx
      · have := hd _ List.mem_cons_self
        simp only at *
        omega
      · exact h'.2.1 x hx

/-- What a put range changes. -/
theorem Segs.at?_add (l : Segs) (b e k x : Nat) (hd : ∀ y ∈ l, y.2.1 ≤ b ∨ e ≤ y.1) :
    (l.add b e k).at? x = if b ≤ x ∧ x < e then some k else l.at? x := by
  induction l with
  | nil => rfl
  | cons s r ih =>
    obtain ⟨b', e', k'⟩ := s
    simp only [Segs.add]
    split
    · rfl
    · have h1 := hd _ List.mem_cons_self
      simp only [Segs.at?, ih fun y hy => hd y (List.mem_cons_of_mem _ hy)] at *
      by_cases h : b ≤ x ∧ x < e
      · rw [if_pos h, if_pos h, if_neg (by omega)]
      · rw [if_neg h, if_neg h]

/-! ## The canonical form of memory -/

/-- The canonical form in parts. -/
theorem Memory.wf_iff (m : Memory) : m.wf = true ↔
    Cells.rising m.cells = true ∧ (∀ c ∈ m.cells, c.2 ≠ Memory.unwritten ∧ m.fresh.at? c.1 = none) ∧ m.fresh.wf = true := by
  simp [Memory.wf, List.all_eq_true, and_assoc]

theorem Memory.wf_empty : Memory.empty.wf = true := rfl

/-- A write keeps the canonical form. -/
theorem Memory.wf_write (m : Memory) (a : Nat) (x : Byte) (h : m.wf = true) : (m.write a x).wf = true := by
  rw [Memory.wf_iff] at h ⊢
  have hc : ∀ c ∈ m.cells, c.2 ≠ Memory.unwritten ∧ (m.fresh.cut a 1).at? c.1 = none := fun c hc => by
    refine ⟨(h.2.1 c hc).1, ?_⟩
    rw [Segs.at?_cut, (h.2.1 c hc).2, ite_self]
  by_cases hx : x = Memory.unwritten
  · simp only [Memory.write, if_pos hx]
    exact ⟨Cells.rising_erase _ _ h.1, fun c hm => hc c (Cells.mem_erase hm), Segs.wf_cut _ _ _ h.2.2⟩
  · simp only [Memory.write, if_neg hx]
    refine ⟨Cells.rising_insert _ _ _ h.1, fun c hm => ?_, Segs.wf_cut _ _ _ h.2.2⟩
    rcases Cells.mem_insert hm with rfl | hm
    · exact ⟨hx, by rw [Segs.at?_cut, if_pos (by simp)]⟩
    · exact hc c hm

/-- So does a list of writes. -/
theorem Memory.wf_writeList (bs : List Byte) (m : Memory) (a : Nat) (h : m.wf = true) : (m.writeList a bs).wf = true := by
  induction bs generalizing m a with
  | nil => exact h
  | cons x r ih => exact ih _ _ (Memory.wf_write _ _ _ h)

/-- So does a fold of writes at chosen addresses. -/
theorem Memory.wf_foldl {α : Type} (f : α → Nat) (g : α → Byte) (bs : List α) (m : Memory) (h : m.wf = true) :
    (bs.foldl (fun m b => m.write (f b) (g b)) m).wf = true := by
  induction bs generalizing m with
  | nil => exact h
  | cons x r ih => exact ih _ (Memory.wf_write _ _ _ h)

/-- So does the removal of cells, and of ranges. -/
theorem Memory.wf_filter (m : Memory) (p : Host.Cell → Bool) (f : Segs) (h : m.wf = true) (hf : f.wf = true)
    (ha : ∀ a, m.fresh.at? a = none → f.at? a = none) : (Memory.mk (m.cells.filter p) f).wf = true := by
  rw [Memory.wf_iff] at h ⊢
  refine ⟨Cells.rising_filter _ _ h.1, fun c hc => ?_, hf⟩
  have := h.2.1 c (List.mem_filter.1 hc).1
  exact ⟨this.1, ha _ this.2⟩

/-- So does zeroing a range. -/
theorem Memory.wf_zero (m : Memory) (a n : Nat) (h : m.wf = true) : (m.zero a n).wf = true :=
  Memory.wf_filter _ _ _ h (Segs.wf_cut _ _ _ ((Memory.wf_iff m).1 h).2.2) fun x hx => by rw [Segs.at?_cut, hx, ite_self]

/-- So does an allocation of local memory. -/
theorem Memory.wf_freshen (m : Memory) (a n k : Nat) (h : m.wf = true) : (m.freshen a n k).wf = true := by
  unfold Memory.freshen
  split
  · exact h
  · next hn =>
    have hz := (Memory.wf_iff _).1 (Memory.wf_zero m a n h)
    have hd : ∀ y ∈ (m.zero a n).fresh, y.2.1 ≤ a ∨ a + n ≤ y.1 := fun y hy => (Segs.mem_cut hy).2
    rw [Memory.wf_iff]
    refine ⟨hz.1, fun c hc => ⟨(hz.2.1 c hc).1, ?_⟩, Segs.wf_add _ _ _ _ (by omega) hz.2.2 hd⟩
    rw [Segs.at?_add _ _ _ _ _ hd, (hz.2.1 c hc).2, if_neg]
    have := (List.mem_filter.1 hc).2
    simp at this
    omega

end Sys2Proof.Machine
end

