-- ==== Sys2Proof/Laws/Memory.lean ====
section
/-!
SUPPORT. Sys2Proof/Laws/Memory.lean: what each operation over the device's memory does to its bytes and that it keeps the canonical form:
performing writes, zeroing a range, restoring a gang or a yard, scrubbing. Little-endian values of byte lists (R9).
-/
namespace Sys2Proof.Machine

/-! ## Byte lists (R9) -/

@[simp] theorem leBytes_length (n v : Nat) : (leBytes n v).length = n := by
  induction n generalizing v with
  | zero => rfl
  | succ n ih => simp [leBytes, ih]

theorem leNat_leBytes (n v : Nat) : leNat (leBytes n v) = v % 256 ^ n := by
  induction n generalizing v with
  | zero => simp [leBytes, leNat, Nat.mod_one]
  | succ n ih =>
    simp only [leBytes, leNat, ih, BitVec.toNat_ofNat]
    rw [show (2 : Nat) ^ 8 = 256 from rfl, show 256 ^ (n + 1) = 256 * 256 ^ n by rw [Nat.pow_succ, Nat.mul_comm], Nat.mod_mul]

/-- All the bytes of a value of n bytes. -/
theorem leNat_width (n : Nat) (x : BitVec (8 * n)) : leNat (leBytes n x.toNat) = x.toNat := by
  rw [leNat_leBytes, show 256 ^ n = 2 ^ (8 * n) from (Nat.pow_mul 2 8 n).symm, Nat.mod_eq_of_lt x.isLt]

@[simp] theorem readList_length (m : Memory) (a n : Nat) : (m.readList a n).length = n := by
  induction n generalizing a with
  | zero => rfl
  | succ n ih => simp [Memory.readList, ih]

theorem readList_congr (m k : Memory) (a n : Nat) (h : ∀ b, a ≤ b → b < a + n → m.read b = k.read b) : m.readList a n = k.readList a n := by
  induction n generalizing a with
  | zero => rfl
  | succ n ih =>
    simp only [Memory.readList]
    rw [h a (by omega) (by omega), ih _ fun b h1 h2 => h b (by omega) (by omega)]

theorem readList_take (m : Memory) (a n k : Nat) (h : k ≤ n) : (m.readList a n).take k = m.readList a k := by
  induction n generalizing a k with
  | zero => rw [Nat.le_zero.1 h]; rfl
  | succ n ih =>
    cases k with
    | zero => rfl
    | succ k => simp [Memory.readList, ih (a + 1) k (by omega)]

theorem readList_drop (m : Memory) (a n k : Nat) : (m.readList a n).drop k = m.readList (a + k) (n - k) := by
  induction n generalizing a k with
  | zero => simp [Memory.readList]
  | succ n ih =>
    cases k with
    | zero => rfl
    | succ k => simp [Memory.readList, ih (a + 1) k, Nat.add_comm, Nat.add_left_comm]

theorem readList_empty (a n : Nat) : Memory.empty.readList a n = List.replicate n 0 := by
  induction n generalizing a with
  | zero => rfl
  | succ n ih => simp only [Memory.readList, ih, List.replicate_succ]; rfl

theorem leNat_replicate (n : Nat) : leNat (List.replicate n 0) = 0 := by
  induction n with
  | zero => rfl
  | succ n ih =>
    have h : leNat (0 :: List.replicate n 0) = 0 + 256 * leNat (List.replicate n 0) := rfl
    rw [List.replicate_succ, h, ih]

/-- Bytes that were written are read back. -/
@[simp] theorem readList_writeList (bs : List Byte) (m : Memory) (a : Nat) : (m.writeList a bs).readList a bs.length = bs := by
  induction bs generalizing m a with
  | nil => rfl
  | cons x r ih =>
    simp only [Memory.writeList, Memory.readList, List.length_cons, ih]
    rw [Memory.read_writeList_other _ _ _ _ (by omega), Memory.read_write_same]

/-- Bytes at consecutive addresses, written one by one, are written as a list. -/
theorem foldl_bytesAt (bs : List Byte) (m : Memory) (a : Nat) :
    (bytesAt a bs).foldl (fun m b => m.write b.1 b.2) m = m.writeList a bs := by
  induction bs generalizing m a with
  | nil => rfl
  | cons x r ih => exact ih _ _

/-! ## Zeroed ranges -/

theorem Cells.find_filter {α : Type} (l : List (Nat × α)) (p : Nat → Bool) (k : Nat) :
    Cells.find (l.filter fun e => p e.1) k = if p k = true then Cells.find l k else none := by
  induction l with
  | nil => simp [Cells.find]
  | cons c r ih =>
    obtain ⟨j, v⟩ := c
    by_cases hj : j = k
    · subst hj; by_cases hp : p j = true <;> simp [hp, Cells.find, ih]
    · by_cases hp : p j = true <;> simp [hp, Cells.find, ih, hj]

/-- A zeroed range reads zero; every other address reads as before. -/
theorem Memory.read_zero (m : Memory) (a n b : Nat) : (m.zero a n).read b = if a ≤ b ∧ b < a + n then 0 else m.read b := by
  have hf : Cells.find (m.zero a n).cells b = if a ≤ b ∧ b < a + n then none else Cells.find m.cells b := by
    unfold Memory.zero
    rw [Cells.find_filter m.cells (fun e => !(decide (a ≤ e) && decide (e < a + n))) b]
    by_cases h : a ≤ b ∧ b < a + n
    · rw [if_neg (by simp [h.1, h.2]), if_pos h]
    · rw [if_pos (by simp; omega), if_neg h]
  by_cases h : a ≤ b ∧ b < a + n
  · rw [if_pos h] at hf ⊢
    unfold Memory.read
    rw [hf]
    exact Memory.unlisted_none (by rw [Memory.zero, Segs.at?_cut, if_pos h])
  · rw [if_neg h] at hf ⊢
    exact Memory.read_congr hf (by rw [Memory.zero, Segs.at?_cut, if_neg h])

/-- Outside the range that a gang is given every address reads as before. -/
theorem Memory.read_freshen_other (m : Memory) (a n k b : Nat) (h : b < a ∨ a + n ≤ b) : (m.freshen a n k).read b = m.read b := by
  unfold Memory.freshen
  split
  · rfl
  · have hz : (m.zero a n).read b = m.read b := by rw [Memory.read_zero, if_neg (by omega)]
    rw [← hz]
    exact Memory.read_congr rfl (by
      rw [Segs.at?_add (m.zero a n).fresh _ _ _ _ (fun y hy => (Segs.mem_cut hy).2), if_neg (by omega)])

/-! ## The canonical form (every operation that writes memory keeps it) -/

theorem perform_memOk (s : State) (bs : List (Nat × Byte)) (h : s.mem.wf = true) : (s.perform bs).mem.wf = true :=
  Memory.wf_foldl (α := Nat × Byte) (fun b => b.1) (fun b => b.2) bs s.mem h

theorem zeroRange_memOk (s : State) (a n : Nat) (h : s.mem.wf = true) : (s.zeroRange a n).mem.wf = true := Memory.wf_zero _ _ _ h

theorem restoreYard_memOk (s : State) (p : Nat) (e : Nat × Yard × List (Nat × Byte)) (h : s.mem.wf = true) : (s.restoreYard p e).mem.wf = true :=
  Memory.wf_foldl (fun b : Nat × Byte => yardAp e.1 + b.1) (fun b => b.2) e.2.2 s.mem h

theorem scrubLocal_memOk (s : State) (core : Nat) (h : s.mem.wf = true) : (s.scrubLocal core).mem.wf = true := by
  have hf : ∀ (l f : Segs), f.wf = true → (l.foldl (fun (f : Segs) x => f.cut x.1 (x.2.1 - x.1)) f).wf = true ∧
      ∀ x, f.at? x = none → Segs.at? (l.foldl (fun (f : Segs) x => f.cut x.1 (x.2.1 - x.1)) f) x = none := by
    intro l
    induction l with
    | nil => exact fun f h => ⟨h, fun _ h => h⟩
    | cons i r ih =>
      intro f h
      have := ih _ (Segs.wf_cut f i.1 (i.2.1 - i.1) h)
      exact ⟨this.1, fun x hx => this.2 x (by rw [Segs.at?_cut, hx, ite_self])⟩
  have hs := hf ((s.localTaken core []).foldl (fun (f : Segs) r => f.cut (localAp core + r.1) r.2) [(localAp core, localAp core + 0x40000, 0)])
    s.mem.fresh ((Memory.wf_iff _).1 h).2.2
  exact Memory.wf_filter _ _ _ h hs.1 hs.2

/-- A fold whose steps leave memory alone. -/
theorem foldl_mem {α : Type} (f : State → α → State) (h : ∀ s a, (f s a).mem = s.mem) (l : List α) (s : State) : (l.foldl f s).mem = s.mem := by
  induction l generalizing s with
  | nil => rfl
  | cons a r ih => rw [List.foldl_cons, ih, h]

/-- A fold whose steps keep the canonical form. -/
theorem foldl_memOk {α : Type} (f : State → α → State) (h : ∀ s a, s.mem.wf = true → (f s a).mem.wf = true) (l : List α) (s : State)
    (hs : s.mem.wf = true) : (l.foldl f s).mem.wf = true := by
  induction l generalizing s with
  | nil => exact hs
  | cons a r ih => exact ih _ (h _ _ hs)

/-- A saved gang's return writes its local bytes, gives it back what was undefined, and does nothing else to memory. -/
theorem restoreGang_mem (s : State) (g : Nat) (f : Fit) :
    (let saved : List (Nat × Byte) × Segs := match (s.part (s.gang g).part).savedLocal.find? fun e => e.1 == g with
      | some e => e.2
      | none => ([], [])
    (s.restoreGang g f).mem =
      saved.2.foldl (fun m (x : Nat × Nat × Nat) => m.freshen (localAp f.core + f.localBase + x.1) (x.2.1 - x.1) x.2.2)
        (saved.1.foldl (fun m (b : Nat × Byte) => m.write (localAp f.core + f.localBase + b.1) b.2)
          (s.mem.zero (localAp f.core + f.localBase) (s.gang g).localSize))) := by
  intro saved
  change State.mem (List.foldl _ _ _) = _
  rw [foldl_mem, foldl_mem]
  · rfl
  · intro k e
    split <;> rfl
  · exact fun _ _ => rfl

theorem restoreGang_memOk (s : State) (g : Nat) (f : Fit) (h : s.mem.wf = true) : (s.restoreGang g f).mem.wf = true := by
  have hf : ∀ (l : Segs) (a : Nat) (m : Memory), m.wf = true →
      (l.foldl (fun m (x : Nat × Nat × Nat) => m.freshen (a + x.1) (x.2.1 - x.1) x.2.2) m).wf = true := by
    intro l a
    induction l with
    | nil => exact fun _ h => h
    | cons x r ih => exact fun m h => ih _ (Memory.wf_freshen _ _ _ _ h)
  rw [restoreGang_mem]
  exact hf _ _ _ (Memory.wf_foldl (fun b : Nat × Byte => localAp f.core + f.localBase + b.1) (fun b => b.2) _ _ (Memory.wf_zero _ _ _ h))

/-- Giving up cached lines leaves memory as it is. -/
theorem dropL1_mem (s : State) (core : Nat) : (s.dropL1 core).mem = s.mem := by
  unfold State.dropL1 State.unkeep
  split <;> rfl

theorem startCrew_mem (s : State) (g c q row : Nat) (reserve : Bool) : (s.startCrew g c q row reserve).mem = s.mem := dropL1_mem _ _

/-- A new gang's range holds nothing yet (R63); no other byte of memory changes. -/
theorem newGang_memOk (s : State) (w : Gang) (f : Fit) (h : s.mem.wf = true) : (s.newGang w f).mem.wf = true := by
  change (State.mem (List.foldl _ _ _)).wf = true
  rw [foldl_mem]
  · exact Memory.wf_freshen _ _ _ _ h
  · exact fun _ _ => startCrew_mem ..

theorem zeroClusters_memOk (s : State) (m : BitVec 24) (h : s.mem.wf = true) : (s.zeroClusters m).mem.wf = true :=
  foldl_memOk _ (fun _ _ h => zeroRange_memOk _ _ _ (zeroRange_memOk _ _ _ h)) _ _ h

theorem scrub_memOk (s : State) (m : BitVec 24) (h : s.mem.wf = true) : (s.scrub m).mem.wf = true := by
  refine foldl_memOk _ (fun _ _ h => ?_) _ _ (foldl_memOk _ (fun _ _ h => scrubLocal_memOk _ _ h) _ _ h)
  split
  · exact zeroRange_memOk _ _ _ h
  · exact h

theorem reset_memOk : State.reset.mem.wf = true := rfl

end Sys2Proof.Machine
end

