-- ==== Sys2Proof/Laws/State.lean ====
section
/-!
SUPPORT. Sys2Proof/Laws/State.lean: what each update of a part of State leaves and writes: one lemma for each field and update.
-/
namespace Sys2Proof.Machine

/-! ## What an update writes -/

theorem State.get_crew (s : State) (j k : Nat) (f : Crew → Crew) :
    (s.updCrew k f).crew j = if j = k then f (s.crew k) else s.crew j := Tbl.get_upd _ _ _ _
theorem State.get_gang (s : State) (j k : Nat) (f : Gang → Gang) :
    (s.updGang k f).gang j = if j = k then f (s.gang k) else s.gang j := Tbl.get_upd _ _ _ _
theorem State.get_core (s : State) (j k : Nat) (f : Core → Core) :
    (s.updCore k f).core j = if j = k then f (s.core k) else s.core j := Tbl.get_upd _ _ _ _
theorem State.get_die (s : State) (j k : Nat) (f : Die → Die) :
    (s.updDie k f).die j = if j = k then f (s.die k) else s.die j := Tbl.get_upd _ _ _ _
theorem State.get_part (s : State) (j k : Nat) (f : Partition → Partition) :
    (s.updPart k f).part j = if j = k then f (s.part k) else s.part j := Tbl.get_upd _ _ _ _
theorem State.get_eop (s : State) (j k : Nat) (f : EngineOp → EngineOp) :
    (s.updOp k f).eop j = if j = k then f (s.eop k) else s.eop j := Tbl.get_upd _ _ _ _
theorem State.get_bench (s : State) (j k : Nat) (f : Bench → Bench) :
    (s.updBench k f).bench j = if j = k then f (s.bench k) else s.bench j := Tbl.get_upd _ _ _ _

@[simp] theorem State.me_setMe (s : State) (c : Crew) : (s.setMe c).me = c := Tbl.get_put_same _ _ _

theorem State.crew_setMe (s : State) (c : Crew) (k : Nat) : (s.setMe c).crew k = if k = s.cur then c else s.crew k :=
  Tbl.get_put _ _ _ _

/-! ## What an update leaves -/

@[simp] theorem State.setMe_agenda (s : State) (c : Crew) : (s.setMe c).agenda = s.agenda := rfl
@[simp] theorem State.setMe_free (s : State) (c : Crew) : (s.setMe c).free = s.free := rfl
@[simp] theorem State.setMe_cur (s : State) (c : Crew) : (s.setMe c).cur = s.cur := rfl
@[simp] theorem State.setMe_mem (s : State) (c : Crew) : (s.setMe c).mem = s.mem := rfl
@[simp] theorem State.setMe_poison (s : State) (c : Crew) : (s.setMe c).poison = s.poison := rfl
@[simp] theorem State.setMe_inflight (s : State) (c : Crew) : (s.setMe c).inflight = s.inflight := rfl
@[simp] theorem State.setMe_regs (s : State) (c : Crew) : (s.setMe c).regs = s.regs := rfl
@[simp] theorem State.setMe_tlb (s : State) (c : Crew) : (s.setMe c).tlb = s.tlb := rfl
@[simp] theorem State.setMe_invals (s : State) (c : Crew) : (s.setMe c).invals = s.invals := rfl
@[simp] theorem State.setMe_walks (s : State) (c : Crew) : (s.setMe c).walks = s.walks := rfl
@[simp] theorem State.setMe_epochs (s : State) (c : Crew) : (s.setMe c).epochs = s.epochs := rfl
@[simp] theorem State.setMe_gangs (s : State) (c : Crew) : (s.setMe c).gangs = s.gangs := rfl
@[simp] theorem State.setMe_nextGang (s : State) (c : Crew) : (s.setMe c).nextGang = s.nextGang := rfl
@[simp] theorem State.setMe_launches (s : State) (c : Crew) : (s.setMe c).launches = s.launches := rfl
@[simp] theorem State.setMe_nextLaunch (s : State) (c : Crew) : (s.setMe c).nextLaunch = s.nextLaunch := rfl
@[simp] theorem State.setMe_cores (s : State) (c : Crew) : (s.setMe c).cores = s.cores := rfl
@[simp] theorem State.setMe_yards (s : State) (c : Crew) : (s.setMe c).yards = s.yards := rfl
@[simp] theorem State.setMe_dies (s : State) (c : Crew) : (s.setMe c).dies = s.dies := rfl
@[simp] theorem State.setMe_pool (s : State) (c : Crew) : (s.setMe c).pool = s.pool := rfl
@[simp] theorem State.setMe_carders (s : State) (c : Crew) : (s.setMe c).carders = s.carders := rfl
@[simp] theorem State.setMe_lends (s : State) (c : Crew) : (s.setMe c).lends = s.lends := rfl
@[simp] theorem State.setMe_ops (s : State) (c : Crew) : (s.setMe c).ops = s.ops := rfl
@[simp] theorem State.setMe_nextOp (s : State) (c : Crew) : (s.setMe c).nextOp = s.nextOp := rfl
@[simp] theorem State.setMe_queues (s : State) (c : Crew) : (s.setMe c).queues = s.queues := rfl
@[simp] theorem State.setMe_queueWaits (s : State) (c : Crew) : (s.setMe c).queueWaits = s.queueWaits := rfl
@[simp] theorem State.setMe_reservations (s : State) (c : Crew) : (s.setMe c).reservations = s.reservations := rfl
@[simp] theorem State.setMe_collSeq (s : State) (c : Crew) : (s.setMe c).collSeq = s.collSeq := rfl
@[simp] theorem State.setMe_contribs (s : State) (c : Crew) : (s.setMe c).contribs = s.contribs := rfl
@[simp] theorem State.setMe_benches (s : State) (c : Crew) : (s.setMe c).benches = s.benches := rfl
@[simp] theorem State.setMe_nextBench (s : State) (c : Crew) : (s.setMe c).nextBench = s.nextBench := rfl
@[simp] theorem State.setMe_mapCache (s : State) (c : Crew) : (s.setMe c).mapCache = s.mapCache := rfl
@[simp] theorem State.setMe_fire (s : State) (c : Crew) : (s.setMe c).fire = s.fire := rfl
@[simp] theorem State.setMe_producers (s : State) (c : Crew) : (s.setMe c).producers = s.producers := rfl
@[simp] theorem State.setMe_merges (s : State) (c : Crew) : (s.setMe c).merges = s.merges := rfl
@[simp] theorem State.setMe_nextGroup (s : State) (c : Crew) : (s.setMe c).nextGroup = s.nextGroup := rfl
@[simp] theorem State.setMe_cmds (s : State) (c : Crew) : (s.setMe c).cmds = s.cmds := rfl
@[simp] theorem State.setMe_nextCmd (s : State) (c : Crew) : (s.setMe c).nextCmd = s.nextCmd := rfl
@[simp] theorem State.setMe_restarting (s : State) (c : Crew) : (s.setMe c).restarting = s.restarting := rfl
@[simp] theorem State.setMe_parts (s : State) (c : Crew) : (s.setMe c).parts = s.parts := rfl
@[simp] theorem State.setMe_dev (s : State) (c : Crew) : (s.setMe c).dev = s.dev := rfl
@[simp] theorem State.setMe_domain (s : State) (c : Crew) : (s.setMe c).domain = s.domain := rfl
@[simp] theorem State.setMe_ports (s : State) (c : Crew) : (s.setMe c).ports = s.ports := rfl
@[simp] theorem State.setMe_outstanding (s : State) (c : Crew) : (s.setMe c).outstanding = s.outstanding := rfl
@[simp] theorem State.setMe_nextSeq (s : State) (c : Crew) : (s.setMe c).nextSeq = s.nextSeq := rfl
@[simp] theorem State.setMe_seen (s : State) (c : Crew) : (s.setMe c).seen = s.seen := rfl
@[simp] theorem State.setMe_rdmas (s : State) (c : Crew) : (s.setMe c).rdmas = s.rdmas := rfl
@[simp] theorem State.setMe_nextRdma (s : State) (c : Crew) : (s.setMe c).nextRdma = s.nextRdma := rfl
@[simp] theorem State.setMe_windowAcks (s : State) (c : Crew) : (s.setMe c).windowAcks = s.windowAcks := rfl
@[simp] theorem State.setMe_unitLines (s : State) (c : Crew) : (s.setMe c).unitLines = s.unitLines := rfl
@[simp] theorem State.setMe_dieFrames (s : State) (c : Crew) : (s.setMe c).dieFrames = s.dieFrames := rfl
@[simp] theorem State.setMe_tokSeen (s : State) (c : Crew) : (s.setMe c).tokSeen = s.tokSeen := rfl
@[simp] theorem State.setMe_hubErrs (s : State) (c : Crew) : (s.setMe c).hubErrs = s.hubErrs := rfl
@[simp] theorem State.setMe_sent (s : State) (c : Crew) : (s.setMe c).sent = s.sent := rfl
@[simp] theorem State.setMe_boot (s : State) (c : Crew) : (s.setMe c).boot = s.boot := rfl

@[simp] theorem State.updCrew_agenda (s : State) (k : Nat) (f : Crew → Crew) : (s.updCrew k f).agenda = s.agenda := rfl
@[simp] theorem State.updCrew_free (s : State) (k : Nat) (f : Crew → Crew) : (s.updCrew k f).free = s.free := rfl
@[simp] theorem State.updCrew_cur (s : State) (k : Nat) (f : Crew → Crew) : (s.updCrew k f).cur = s.cur := rfl
@[simp] theorem State.updCrew_mem (s : State) (k : Nat) (f : Crew → Crew) : (s.updCrew k f).mem = s.mem := rfl
@[simp] theorem State.updCrew_poison (s : State) (k : Nat) (f : Crew → Crew) : (s.updCrew k f).poison = s.poison := rfl
@[simp] theorem State.updCrew_inflight (s : State) (k : Nat) (f : Crew → Crew) : (s.updCrew k f).inflight = s.inflight := rfl
@[simp] theorem State.updCrew_regs (s : State) (k : Nat) (f : Crew → Crew) : (s.updCrew k f).regs = s.regs := rfl
@[simp] theorem State.updCrew_tlb (s : State) (k : Nat) (f : Crew → Crew) : (s.updCrew k f).tlb = s.tlb := rfl
@[simp] theorem State.updCrew_invals (s : State) (k : Nat) (f : Crew → Crew) : (s.updCrew k f).invals = s.invals := rfl
@[simp] theorem State.updCrew_walks (s : State) (k : Nat) (f : Crew → Crew) : (s.updCrew k f).walks = s.walks := rfl
@[simp] theorem State.updCrew_epochs (s : State) (k : Nat) (f : Crew → Crew) : (s.updCrew k f).epochs = s.epochs := rfl
@[simp] theorem State.updCrew_gangs (s : State) (k : Nat) (f : Crew → Crew) : (s.updCrew k f).gangs = s.gangs := rfl
@[simp] theorem State.updCrew_nextGang (s : State) (k : Nat) (f : Crew → Crew) : (s.updCrew k f).nextGang = s.nextGang := rfl
@[simp] theorem State.updCrew_launches (s : State) (k : Nat) (f : Crew → Crew) : (s.updCrew k f).launches = s.launches := rfl
@[simp] theorem State.updCrew_nextLaunch (s : State) (k : Nat) (f : Crew → Crew) : (s.updCrew k f).nextLaunch = s.nextLaunch := rfl
@[simp] theorem State.updCrew_cores (s : State) (k : Nat) (f : Crew → Crew) : (s.updCrew k f).cores = s.cores := rfl
@[simp] theorem State.updCrew_yards (s : State) (k : Nat) (f : Crew → Crew) : (s.updCrew k f).yards = s.yards := rfl
@[simp] theorem State.updCrew_dies (s : State) (k : Nat) (f : Crew → Crew) : (s.updCrew k f).dies = s.dies := rfl
@[simp] theorem State.updCrew_pool (s : State) (k : Nat) (f : Crew → Crew) : (s.updCrew k f).pool = s.pool := rfl
@[simp] theorem State.updCrew_carders (s : State) (k : Nat) (f : Crew → Crew) : (s.updCrew k f).carders = s.carders := rfl
@[simp] theorem State.updCrew_lends (s : State) (k : Nat) (f : Crew → Crew) : (s.updCrew k f).lends = s.lends := rfl
@[simp] theorem State.updCrew_ops (s : State) (k : Nat) (f : Crew → Crew) : (s.updCrew k f).ops = s.ops := rfl
@[simp] theorem State.updCrew_nextOp (s : State) (k : Nat) (f : Crew → Crew) : (s.updCrew k f).nextOp = s.nextOp := rfl
@[simp] theorem State.updCrew_queues (s : State) (k : Nat) (f : Crew → Crew) : (s.updCrew k f).queues = s.queues := rfl
@[simp] theorem State.updCrew_queueWaits (s : State) (k : Nat) (f : Crew → Crew) : (s.updCrew k f).queueWaits = s.queueWaits := rfl
@[simp] theorem State.updCrew_reservations (s : State) (k : Nat) (f : Crew → Crew) : (s.updCrew k f).reservations = s.reservations := rfl
@[simp] theorem State.updCrew_collSeq (s : State) (k : Nat) (f : Crew → Crew) : (s.updCrew k f).collSeq = s.collSeq := rfl
@[simp] theorem State.updCrew_contribs (s : State) (k : Nat) (f : Crew → Crew) : (s.updCrew k f).contribs = s.contribs := rfl
@[simp] theorem State.updCrew_benches (s : State) (k : Nat) (f : Crew → Crew) : (s.updCrew k f).benches = s.benches := rfl
@[simp] theorem State.updCrew_nextBench (s : State) (k : Nat) (f : Crew → Crew) : (s.updCrew k f).nextBench = s.nextBench := rfl
@[simp] theorem State.updCrew_mapCache (s : State) (k : Nat) (f : Crew → Crew) : (s.updCrew k f).mapCache = s.mapCache := rfl
@[simp] theorem State.updCrew_fire (s : State) (k : Nat) (f : Crew → Crew) : (s.updCrew k f).fire = s.fire := rfl
@[simp] theorem State.updCrew_producers (s : State) (k : Nat) (f : Crew → Crew) : (s.updCrew k f).producers = s.producers := rfl
@[simp] theorem State.updCrew_merges (s : State) (k : Nat) (f : Crew → Crew) : (s.updCrew k f).merges = s.merges := rfl
@[simp] theorem State.updCrew_nextGroup (s : State) (k : Nat) (f : Crew → Crew) : (s.updCrew k f).nextGroup = s.nextGroup := rfl
@[simp] theorem State.updCrew_cmds (s : State) (k : Nat) (f : Crew → Crew) : (s.updCrew k f).cmds = s.cmds := rfl
@[simp] theorem State.updCrew_nextCmd (s : State) (k : Nat) (f : Crew → Crew) : (s.updCrew k f).nextCmd = s.nextCmd := rfl
@[simp] theorem State.updCrew_restarting (s : State) (k : Nat) (f : Crew → Crew) : (s.updCrew k f).restarting = s.restarting := rfl
@[simp] theorem State.updCrew_parts (s : State) (k : Nat) (f : Crew → Crew) : (s.updCrew k f).parts = s.parts := rfl
@[simp] theorem State.updCrew_dev (s : State) (k : Nat) (f : Crew → Crew) : (s.updCrew k f).dev = s.dev := rfl
@[simp] theorem State.updCrew_domain (s : State) (k : Nat) (f : Crew → Crew) : (s.updCrew k f).domain = s.domain := rfl
@[simp] theorem State.updCrew_ports (s : State) (k : Nat) (f : Crew → Crew) : (s.updCrew k f).ports = s.ports := rfl
@[simp] theorem State.updCrew_outstanding (s : State) (k : Nat) (f : Crew → Crew) : (s.updCrew k f).outstanding = s.outstanding := rfl
@[simp] theorem State.updCrew_nextSeq (s : State) (k : Nat) (f : Crew → Crew) : (s.updCrew k f).nextSeq = s.nextSeq := rfl
@[simp] theorem State.updCrew_seen (s : State) (k : Nat) (f : Crew → Crew) : (s.updCrew k f).seen = s.seen := rfl
@[simp] theorem State.updCrew_rdmas (s : State) (k : Nat) (f : Crew → Crew) : (s.updCrew k f).rdmas = s.rdmas := rfl
@[simp] theorem State.updCrew_nextRdma (s : State) (k : Nat) (f : Crew → Crew) : (s.updCrew k f).nextRdma = s.nextRdma := rfl
@[simp] theorem State.updCrew_windowAcks (s : State) (k : Nat) (f : Crew → Crew) : (s.updCrew k f).windowAcks = s.windowAcks := rfl
@[simp] theorem State.updCrew_unitLines (s : State) (k : Nat) (f : Crew → Crew) : (s.updCrew k f).unitLines = s.unitLines := rfl
@[simp] theorem State.updCrew_dieFrames (s : State) (k : Nat) (f : Crew → Crew) : (s.updCrew k f).dieFrames = s.dieFrames := rfl
@[simp] theorem State.updCrew_tokSeen (s : State) (k : Nat) (f : Crew → Crew) : (s.updCrew k f).tokSeen = s.tokSeen := rfl
@[simp] theorem State.updCrew_hubErrs (s : State) (k : Nat) (f : Crew → Crew) : (s.updCrew k f).hubErrs = s.hubErrs := rfl
@[simp] theorem State.updCrew_sent (s : State) (k : Nat) (f : Crew → Crew) : (s.updCrew k f).sent = s.sent := rfl
@[simp] theorem State.updCrew_boot (s : State) (k : Nat) (f : Crew → Crew) : (s.updCrew k f).boot = s.boot := rfl

@[simp] theorem State.updGang_agenda (s : State) (k : Nat) (f : Gang → Gang) : (s.updGang k f).agenda = s.agenda := rfl
@[simp] theorem State.updGang_free (s : State) (k : Nat) (f : Gang → Gang) : (s.updGang k f).free = s.free := rfl
@[simp] theorem State.updGang_cur (s : State) (k : Nat) (f : Gang → Gang) : (s.updGang k f).cur = s.cur := rfl
@[simp] theorem State.updGang_mem (s : State) (k : Nat) (f : Gang → Gang) : (s.updGang k f).mem = s.mem := rfl
@[simp] theorem State.updGang_poison (s : State) (k : Nat) (f : Gang → Gang) : (s.updGang k f).poison = s.poison := rfl
@[simp] theorem State.updGang_inflight (s : State) (k : Nat) (f : Gang → Gang) : (s.updGang k f).inflight = s.inflight := rfl
@[simp] theorem State.updGang_regs (s : State) (k : Nat) (f : Gang → Gang) : (s.updGang k f).regs = s.regs := rfl
@[simp] theorem State.updGang_tlb (s : State) (k : Nat) (f : Gang → Gang) : (s.updGang k f).tlb = s.tlb := rfl
@[simp] theorem State.updGang_invals (s : State) (k : Nat) (f : Gang → Gang) : (s.updGang k f).invals = s.invals := rfl
@[simp] theorem State.updGang_walks (s : State) (k : Nat) (f : Gang → Gang) : (s.updGang k f).walks = s.walks := rfl
@[simp] theorem State.updGang_crews (s : State) (k : Nat) (f : Gang → Gang) : (s.updGang k f).crews = s.crews := rfl
@[simp] theorem State.updGang_epochs (s : State) (k : Nat) (f : Gang → Gang) : (s.updGang k f).epochs = s.epochs := rfl
@[simp] theorem State.updGang_nextGang (s : State) (k : Nat) (f : Gang → Gang) : (s.updGang k f).nextGang = s.nextGang := rfl
@[simp] theorem State.updGang_launches (s : State) (k : Nat) (f : Gang → Gang) : (s.updGang k f).launches = s.launches := rfl
@[simp] theorem State.updGang_nextLaunch (s : State) (k : Nat) (f : Gang → Gang) : (s.updGang k f).nextLaunch = s.nextLaunch := rfl
@[simp] theorem State.updGang_cores (s : State) (k : Nat) (f : Gang → Gang) : (s.updGang k f).cores = s.cores := rfl
@[simp] theorem State.updGang_yards (s : State) (k : Nat) (f : Gang → Gang) : (s.updGang k f).yards = s.yards := rfl
@[simp] theorem State.updGang_dies (s : State) (k : Nat) (f : Gang → Gang) : (s.updGang k f).dies = s.dies := rfl
@[simp] theorem State.updGang_pool (s : State) (k : Nat) (f : Gang → Gang) : (s.updGang k f).pool = s.pool := rfl
@[simp] theorem State.updGang_carders (s : State) (k : Nat) (f : Gang → Gang) : (s.updGang k f).carders = s.carders := rfl
@[simp] theorem State.updGang_lends (s : State) (k : Nat) (f : Gang → Gang) : (s.updGang k f).lends = s.lends := rfl
@[simp] theorem State.updGang_ops (s : State) (k : Nat) (f : Gang → Gang) : (s.updGang k f).ops = s.ops := rfl
@[simp] theorem State.updGang_nextOp (s : State) (k : Nat) (f : Gang → Gang) : (s.updGang k f).nextOp = s.nextOp := rfl
@[simp] theorem State.updGang_queues (s : State) (k : Nat) (f : Gang → Gang) : (s.updGang k f).queues = s.queues := rfl
@[simp] theorem State.updGang_queueWaits (s : State) (k : Nat) (f : Gang → Gang) : (s.updGang k f).queueWaits = s.queueWaits := rfl
@[simp] theorem State.updGang_reservations (s : State) (k : Nat) (f : Gang → Gang) : (s.updGang k f).reservations = s.reservations := rfl
@[simp] theorem State.updGang_collSeq (s : State) (k : Nat) (f : Gang → Gang) : (s.updGang k f).collSeq = s.collSeq := rfl
@[simp] theorem State.updGang_contribs (s : State) (k : Nat) (f : Gang → Gang) : (s.updGang k f).contribs = s.contribs := rfl
@[simp] theorem State.updGang_benches (s : State) (k : Nat) (f : Gang → Gang) : (s.updGang k f).benches = s.benches := rfl
@[simp] theorem State.updGang_nextBench (s : State) (k : Nat) (f : Gang → Gang) : (s.updGang k f).nextBench = s.nextBench := rfl
@[simp] theorem State.updGang_mapCache (s : State) (k : Nat) (f : Gang → Gang) : (s.updGang k f).mapCache = s.mapCache := rfl
@[simp] theorem State.updGang_fire (s : State) (k : Nat) (f : Gang → Gang) : (s.updGang k f).fire = s.fire := rfl
@[simp] theorem State.updGang_producers (s : State) (k : Nat) (f : Gang → Gang) : (s.updGang k f).producers = s.producers := rfl
@[simp] theorem State.updGang_merges (s : State) (k : Nat) (f : Gang → Gang) : (s.updGang k f).merges = s.merges := rfl
@[simp] theorem State.updGang_nextGroup (s : State) (k : Nat) (f : Gang → Gang) : (s.updGang k f).nextGroup = s.nextGroup := rfl
@[simp] theorem State.updGang_cmds (s : State) (k : Nat) (f : Gang → Gang) : (s.updGang k f).cmds = s.cmds := rfl
@[simp] theorem State.updGang_nextCmd (s : State) (k : Nat) (f : Gang → Gang) : (s.updGang k f).nextCmd = s.nextCmd := rfl
@[simp] theorem State.updGang_restarting (s : State) (k : Nat) (f : Gang → Gang) : (s.updGang k f).restarting = s.restarting := rfl
@[simp] theorem State.updGang_parts (s : State) (k : Nat) (f : Gang → Gang) : (s.updGang k f).parts = s.parts := rfl
@[simp] theorem State.updGang_dev (s : State) (k : Nat) (f : Gang → Gang) : (s.updGang k f).dev = s.dev := rfl
@[simp] theorem State.updGang_domain (s : State) (k : Nat) (f : Gang → Gang) : (s.updGang k f).domain = s.domain := rfl
@[simp] theorem State.updGang_ports (s : State) (k : Nat) (f : Gang → Gang) : (s.updGang k f).ports = s.ports := rfl
@[simp] theorem State.updGang_outstanding (s : State) (k : Nat) (f : Gang → Gang) : (s.updGang k f).outstanding = s.outstanding := rfl
@[simp] theorem State.updGang_nextSeq (s : State) (k : Nat) (f : Gang → Gang) : (s.updGang k f).nextSeq = s.nextSeq := rfl
@[simp] theorem State.updGang_seen (s : State) (k : Nat) (f : Gang → Gang) : (s.updGang k f).seen = s.seen := rfl
@[simp] theorem State.updGang_rdmas (s : State) (k : Nat) (f : Gang → Gang) : (s.updGang k f).rdmas = s.rdmas := rfl
@[simp] theorem State.updGang_nextRdma (s : State) (k : Nat) (f : Gang → Gang) : (s.updGang k f).nextRdma = s.nextRdma := rfl
@[simp] theorem State.updGang_windowAcks (s : State) (k : Nat) (f : Gang → Gang) : (s.updGang k f).windowAcks = s.windowAcks := rfl
@[simp] theorem State.updGang_unitLines (s : State) (k : Nat) (f : Gang → Gang) : (s.updGang k f).unitLines = s.unitLines := rfl
@[simp] theorem State.updGang_dieFrames (s : State) (k : Nat) (f : Gang → Gang) : (s.updGang k f).dieFrames = s.dieFrames := rfl
@[simp] theorem State.updGang_tokSeen (s : State) (k : Nat) (f : Gang → Gang) : (s.updGang k f).tokSeen = s.tokSeen := rfl
@[simp] theorem State.updGang_hubErrs (s : State) (k : Nat) (f : Gang → Gang) : (s.updGang k f).hubErrs = s.hubErrs := rfl
@[simp] theorem State.updGang_sent (s : State) (k : Nat) (f : Gang → Gang) : (s.updGang k f).sent = s.sent := rfl
@[simp] theorem State.updGang_boot (s : State) (k : Nat) (f : Gang → Gang) : (s.updGang k f).boot = s.boot := rfl

@[simp] theorem State.updCore_agenda (s : State) (k : Nat) (f : Core → Core) : (s.updCore k f).agenda = s.agenda := rfl
@[simp] theorem State.updCore_free (s : State) (k : Nat) (f : Core → Core) : (s.updCore k f).free = s.free := rfl
@[simp] theorem State.updCore_cur (s : State) (k : Nat) (f : Core → Core) : (s.updCore k f).cur = s.cur := rfl
@[simp] theorem State.updCore_mem (s : State) (k : Nat) (f : Core → Core) : (s.updCore k f).mem = s.mem := rfl
@[simp] theorem State.updCore_poison (s : State) (k : Nat) (f : Core → Core) : (s.updCore k f).poison = s.poison := rfl
@[simp] theorem State.updCore_inflight (s : State) (k : Nat) (f : Core → Core) : (s.updCore k f).inflight = s.inflight := rfl
@[simp] theorem State.updCore_regs (s : State) (k : Nat) (f : Core → Core) : (s.updCore k f).regs = s.regs := rfl
@[simp] theorem State.updCore_tlb (s : State) (k : Nat) (f : Core → Core) : (s.updCore k f).tlb = s.tlb := rfl
@[simp] theorem State.updCore_invals (s : State) (k : Nat) (f : Core → Core) : (s.updCore k f).invals = s.invals := rfl
@[simp] theorem State.updCore_walks (s : State) (k : Nat) (f : Core → Core) : (s.updCore k f).walks = s.walks := rfl
@[simp] theorem State.updCore_crews (s : State) (k : Nat) (f : Core → Core) : (s.updCore k f).crews = s.crews := rfl
@[simp] theorem State.updCore_epochs (s : State) (k : Nat) (f : Core → Core) : (s.updCore k f).epochs = s.epochs := rfl
@[simp] theorem State.updCore_gangs (s : State) (k : Nat) (f : Core → Core) : (s.updCore k f).gangs = s.gangs := rfl
@[simp] theorem State.updCore_nextGang (s : State) (k : Nat) (f : Core → Core) : (s.updCore k f).nextGang = s.nextGang := rfl
@[simp] theorem State.updCore_launches (s : State) (k : Nat) (f : Core → Core) : (s.updCore k f).launches = s.launches := rfl
@[simp] theorem State.updCore_nextLaunch (s : State) (k : Nat) (f : Core → Core) : (s.updCore k f).nextLaunch = s.nextLaunch := rfl
@[simp] theorem State.updCore_yards (s : State) (k : Nat) (f : Core → Core) : (s.updCore k f).yards = s.yards := rfl
@[simp] theorem State.updCore_dies (s : State) (k : Nat) (f : Core → Core) : (s.updCore k f).dies = s.dies := rfl
@[simp] theorem State.updCore_pool (s : State) (k : Nat) (f : Core → Core) : (s.updCore k f).pool = s.pool := rfl
@[simp] theorem State.updCore_carders (s : State) (k : Nat) (f : Core → Core) : (s.updCore k f).carders = s.carders := rfl
@[simp] theorem State.updCore_lends (s : State) (k : Nat) (f : Core → Core) : (s.updCore k f).lends = s.lends := rfl
@[simp] theorem State.updCore_ops (s : State) (k : Nat) (f : Core → Core) : (s.updCore k f).ops = s.ops := rfl
@[simp] theorem State.updCore_nextOp (s : State) (k : Nat) (f : Core → Core) : (s.updCore k f).nextOp = s.nextOp := rfl
@[simp] theorem State.updCore_queues (s : State) (k : Nat) (f : Core → Core) : (s.updCore k f).queues = s.queues := rfl
@[simp] theorem State.updCore_queueWaits (s : State) (k : Nat) (f : Core → Core) : (s.updCore k f).queueWaits = s.queueWaits := rfl
@[simp] theorem State.updCore_reservations (s : State) (k : Nat) (f : Core → Core) : (s.updCore k f).reservations = s.reservations := rfl
@[simp] theorem State.updCore_collSeq (s : State) (k : Nat) (f : Core → Core) : (s.updCore k f).collSeq = s.collSeq := rfl
@[simp] theorem State.updCore_contribs (s : State) (k : Nat) (f : Core → Core) : (s.updCore k f).contribs = s.contribs := rfl
@[simp] theorem State.updCore_benches (s : State) (k : Nat) (f : Core → Core) : (s.updCore k f).benches = s.benches := rfl
@[simp] theorem State.updCore_nextBench (s : State) (k : Nat) (f : Core → Core) : (s.updCore k f).nextBench = s.nextBench := rfl
@[simp] theorem State.updCore_mapCache (s : State) (k : Nat) (f : Core → Core) : (s.updCore k f).mapCache = s.mapCache := rfl
@[simp] theorem State.updCore_fire (s : State) (k : Nat) (f : Core → Core) : (s.updCore k f).fire = s.fire := rfl
@[simp] theorem State.updCore_producers (s : State) (k : Nat) (f : Core → Core) : (s.updCore k f).producers = s.producers := rfl
@[simp] theorem State.updCore_merges (s : State) (k : Nat) (f : Core → Core) : (s.updCore k f).merges = s.merges := rfl
@[simp] theorem State.updCore_nextGroup (s : State) (k : Nat) (f : Core → Core) : (s.updCore k f).nextGroup = s.nextGroup := rfl
@[simp] theorem State.updCore_cmds (s : State) (k : Nat) (f : Core → Core) : (s.updCore k f).cmds = s.cmds := rfl
@[simp] theorem State.updCore_nextCmd (s : State) (k : Nat) (f : Core → Core) : (s.updCore k f).nextCmd = s.nextCmd := rfl
@[simp] theorem State.updCore_restarting (s : State) (k : Nat) (f : Core → Core) : (s.updCore k f).restarting = s.restarting := rfl
@[simp] theorem State.updCore_parts (s : State) (k : Nat) (f : Core → Core) : (s.updCore k f).parts = s.parts := rfl
@[simp] theorem State.updCore_dev (s : State) (k : Nat) (f : Core → Core) : (s.updCore k f).dev = s.dev := rfl
@[simp] theorem State.updCore_domain (s : State) (k : Nat) (f : Core → Core) : (s.updCore k f).domain = s.domain := rfl
@[simp] theorem State.updCore_ports (s : State) (k : Nat) (f : Core → Core) : (s.updCore k f).ports = s.ports := rfl
@[simp] theorem State.updCore_outstanding (s : State) (k : Nat) (f : Core → Core) : (s.updCore k f).outstanding = s.outstanding := rfl
@[simp] theorem State.updCore_nextSeq (s : State) (k : Nat) (f : Core → Core) : (s.updCore k f).nextSeq = s.nextSeq := rfl
@[simp] theorem State.updCore_seen (s : State) (k : Nat) (f : Core → Core) : (s.updCore k f).seen = s.seen := rfl
@[simp] theorem State.updCore_rdmas (s : State) (k : Nat) (f : Core → Core) : (s.updCore k f).rdmas = s.rdmas := rfl
@[simp] theorem State.updCore_nextRdma (s : State) (k : Nat) (f : Core → Core) : (s.updCore k f).nextRdma = s.nextRdma := rfl
@[simp] theorem State.updCore_windowAcks (s : State) (k : Nat) (f : Core → Core) : (s.updCore k f).windowAcks = s.windowAcks := rfl
@[simp] theorem State.updCore_unitLines (s : State) (k : Nat) (f : Core → Core) : (s.updCore k f).unitLines = s.unitLines := rfl
@[simp] theorem State.updCore_dieFrames (s : State) (k : Nat) (f : Core → Core) : (s.updCore k f).dieFrames = s.dieFrames := rfl
@[simp] theorem State.updCore_tokSeen (s : State) (k : Nat) (f : Core → Core) : (s.updCore k f).tokSeen = s.tokSeen := rfl
@[simp] theorem State.updCore_hubErrs (s : State) (k : Nat) (f : Core → Core) : (s.updCore k f).hubErrs = s.hubErrs := rfl
@[simp] theorem State.updCore_sent (s : State) (k : Nat) (f : Core → Core) : (s.updCore k f).sent = s.sent := rfl
@[simp] theorem State.updCore_boot (s : State) (k : Nat) (f : Core → Core) : (s.updCore k f).boot = s.boot := rfl

@[simp] theorem State.updDie_agenda (s : State) (k : Nat) (f : Die → Die) : (s.updDie k f).agenda = s.agenda := rfl
@[simp] theorem State.updDie_free (s : State) (k : Nat) (f : Die → Die) : (s.updDie k f).free = s.free := rfl
@[simp] theorem State.updDie_cur (s : State) (k : Nat) (f : Die → Die) : (s.updDie k f).cur = s.cur := rfl
@[simp] theorem State.updDie_mem (s : State) (k : Nat) (f : Die → Die) : (s.updDie k f).mem = s.mem := rfl
@[simp] theorem State.updDie_poison (s : State) (k : Nat) (f : Die → Die) : (s.updDie k f).poison = s.poison := rfl
@[simp] theorem State.updDie_inflight (s : State) (k : Nat) (f : Die → Die) : (s.updDie k f).inflight = s.inflight := rfl
@[simp] theorem State.updDie_regs (s : State) (k : Nat) (f : Die → Die) : (s.updDie k f).regs = s.regs := rfl
@[simp] theorem State.updDie_tlb (s : State) (k : Nat) (f : Die → Die) : (s.updDie k f).tlb = s.tlb := rfl
@[simp] theorem State.updDie_invals (s : State) (k : Nat) (f : Die → Die) : (s.updDie k f).invals = s.invals := rfl
@[simp] theorem State.updDie_walks (s : State) (k : Nat) (f : Die → Die) : (s.updDie k f).walks = s.walks := rfl
@[simp] theorem State.updDie_crews (s : State) (k : Nat) (f : Die → Die) : (s.updDie k f).crews = s.crews := rfl
@[simp] theorem State.updDie_epochs (s : State) (k : Nat) (f : Die → Die) : (s.updDie k f).epochs = s.epochs := rfl
@[simp] theorem State.updDie_gangs (s : State) (k : Nat) (f : Die → Die) : (s.updDie k f).gangs = s.gangs := rfl
@[simp] theorem State.updDie_nextGang (s : State) (k : Nat) (f : Die → Die) : (s.updDie k f).nextGang = s.nextGang := rfl
@[simp] theorem State.updDie_launches (s : State) (k : Nat) (f : Die → Die) : (s.updDie k f).launches = s.launches := rfl
@[simp] theorem State.updDie_nextLaunch (s : State) (k : Nat) (f : Die → Die) : (s.updDie k f).nextLaunch = s.nextLaunch := rfl
@[simp] theorem State.updDie_cores (s : State) (k : Nat) (f : Die → Die) : (s.updDie k f).cores = s.cores := rfl
@[simp] theorem State.updDie_yards (s : State) (k : Nat) (f : Die → Die) : (s.updDie k f).yards = s.yards := rfl
@[simp] theorem State.updDie_pool (s : State) (k : Nat) (f : Die → Die) : (s.updDie k f).pool = s.pool := rfl
@[simp] theorem State.updDie_carders (s : State) (k : Nat) (f : Die → Die) : (s.updDie k f).carders = s.carders := rfl
@[simp] theorem State.updDie_lends (s : State) (k : Nat) (f : Die → Die) : (s.updDie k f).lends = s.lends := rfl
@[simp] theorem State.updDie_ops (s : State) (k : Nat) (f : Die → Die) : (s.updDie k f).ops = s.ops := rfl
@[simp] theorem State.updDie_nextOp (s : State) (k : Nat) (f : Die → Die) : (s.updDie k f).nextOp = s.nextOp := rfl
@[simp] theorem State.updDie_queues (s : State) (k : Nat) (f : Die → Die) : (s.updDie k f).queues = s.queues := rfl
@[simp] theorem State.updDie_queueWaits (s : State) (k : Nat) (f : Die → Die) : (s.updDie k f).queueWaits = s.queueWaits := rfl
@[simp] theorem State.updDie_reservations (s : State) (k : Nat) (f : Die → Die) : (s.updDie k f).reservations = s.reservations := rfl
@[simp] theorem State.updDie_collSeq (s : State) (k : Nat) (f : Die → Die) : (s.updDie k f).collSeq = s.collSeq := rfl
@[simp] theorem State.updDie_contribs (s : State) (k : Nat) (f : Die → Die) : (s.updDie k f).contribs = s.contribs := rfl
@[simp] theorem State.updDie_benches (s : State) (k : Nat) (f : Die → Die) : (s.updDie k f).benches = s.benches := rfl
@[simp] theorem State.updDie_nextBench (s : State) (k : Nat) (f : Die → Die) : (s.updDie k f).nextBench = s.nextBench := rfl
@[simp] theorem State.updDie_mapCache (s : State) (k : Nat) (f : Die → Die) : (s.updDie k f).mapCache = s.mapCache := rfl
@[simp] theorem State.updDie_fire (s : State) (k : Nat) (f : Die → Die) : (s.updDie k f).fire = s.fire := rfl
@[simp] theorem State.updDie_producers (s : State) (k : Nat) (f : Die → Die) : (s.updDie k f).producers = s.producers := rfl
@[simp] theorem State.updDie_merges (s : State) (k : Nat) (f : Die → Die) : (s.updDie k f).merges = s.merges := rfl
@[simp] theorem State.updDie_nextGroup (s : State) (k : Nat) (f : Die → Die) : (s.updDie k f).nextGroup = s.nextGroup := rfl
@[simp] theorem State.updDie_cmds (s : State) (k : Nat) (f : Die → Die) : (s.updDie k f).cmds = s.cmds := rfl
@[simp] theorem State.updDie_nextCmd (s : State) (k : Nat) (f : Die → Die) : (s.updDie k f).nextCmd = s.nextCmd := rfl
@[simp] theorem State.updDie_restarting (s : State) (k : Nat) (f : Die → Die) : (s.updDie k f).restarting = s.restarting := rfl
@[simp] theorem State.updDie_parts (s : State) (k : Nat) (f : Die → Die) : (s.updDie k f).parts = s.parts := rfl
@[simp] theorem State.updDie_dev (s : State) (k : Nat) (f : Die → Die) : (s.updDie k f).dev = s.dev := rfl
@[simp] theorem State.updDie_domain (s : State) (k : Nat) (f : Die → Die) : (s.updDie k f).domain = s.domain := rfl
@[simp] theorem State.updDie_ports (s : State) (k : Nat) (f : Die → Die) : (s.updDie k f).ports = s.ports := rfl
@[simp] theorem State.updDie_outstanding (s : State) (k : Nat) (f : Die → Die) : (s.updDie k f).outstanding = s.outstanding := rfl
@[simp] theorem State.updDie_nextSeq (s : State) (k : Nat) (f : Die → Die) : (s.updDie k f).nextSeq = s.nextSeq := rfl
@[simp] theorem State.updDie_seen (s : State) (k : Nat) (f : Die → Die) : (s.updDie k f).seen = s.seen := rfl
@[simp] theorem State.updDie_rdmas (s : State) (k : Nat) (f : Die → Die) : (s.updDie k f).rdmas = s.rdmas := rfl
@[simp] theorem State.updDie_nextRdma (s : State) (k : Nat) (f : Die → Die) : (s.updDie k f).nextRdma = s.nextRdma := rfl
@[simp] theorem State.updDie_windowAcks (s : State) (k : Nat) (f : Die → Die) : (s.updDie k f).windowAcks = s.windowAcks := rfl
@[simp] theorem State.updDie_unitLines (s : State) (k : Nat) (f : Die → Die) : (s.updDie k f).unitLines = s.unitLines := rfl
@[simp] theorem State.updDie_dieFrames (s : State) (k : Nat) (f : Die → Die) : (s.updDie k f).dieFrames = s.dieFrames := rfl
@[simp] theorem State.updDie_tokSeen (s : State) (k : Nat) (f : Die → Die) : (s.updDie k f).tokSeen = s.tokSeen := rfl
@[simp] theorem State.updDie_hubErrs (s : State) (k : Nat) (f : Die → Die) : (s.updDie k f).hubErrs = s.hubErrs := rfl
@[simp] theorem State.updDie_sent (s : State) (k : Nat) (f : Die → Die) : (s.updDie k f).sent = s.sent := rfl
@[simp] theorem State.updDie_boot (s : State) (k : Nat) (f : Die → Die) : (s.updDie k f).boot = s.boot := rfl

@[simp] theorem State.updPart_agenda (s : State) (k : Nat) (f : Partition → Partition) : (s.updPart k f).agenda = s.agenda := rfl
@[simp] theorem State.updPart_free (s : State) (k : Nat) (f : Partition → Partition) : (s.updPart k f).free = s.free := rfl
@[simp] theorem State.updPart_cur (s : State) (k : Nat) (f : Partition → Partition) : (s.updPart k f).cur = s.cur := rfl
@[simp] theorem State.updPart_mem (s : State) (k : Nat) (f : Partition → Partition) : (s.updPart k f).mem = s.mem := rfl
@[simp] theorem State.updPart_poison (s : State) (k : Nat) (f : Partition → Partition) : (s.updPart k f).poison = s.poison := rfl
@[simp] theorem State.updPart_inflight (s : State) (k : Nat) (f : Partition → Partition) : (s.updPart k f).inflight = s.inflight := rfl
@[simp] theorem State.updPart_regs (s : State) (k : Nat) (f : Partition → Partition) : (s.updPart k f).regs = s.regs := rfl
@[simp] theorem State.updPart_tlb (s : State) (k : Nat) (f : Partition → Partition) : (s.updPart k f).tlb = s.tlb := rfl
@[simp] theorem State.updPart_invals (s : State) (k : Nat) (f : Partition → Partition) : (s.updPart k f).invals = s.invals := rfl
@[simp] theorem State.updPart_walks (s : State) (k : Nat) (f : Partition → Partition) : (s.updPart k f).walks = s.walks := rfl
@[simp] theorem State.updPart_crews (s : State) (k : Nat) (f : Partition → Partition) : (s.updPart k f).crews = s.crews := rfl
@[simp] theorem State.updPart_epochs (s : State) (k : Nat) (f : Partition → Partition) : (s.updPart k f).epochs = s.epochs := rfl
@[simp] theorem State.updPart_gangs (s : State) (k : Nat) (f : Partition → Partition) : (s.updPart k f).gangs = s.gangs := rfl
@[simp] theorem State.updPart_nextGang (s : State) (k : Nat) (f : Partition → Partition) : (s.updPart k f).nextGang = s.nextGang := rfl
@[simp] theorem State.updPart_launches (s : State) (k : Nat) (f : Partition → Partition) : (s.updPart k f).launches = s.launches := rfl
@[simp] theorem State.updPart_nextLaunch (s : State) (k : Nat) (f : Partition → Partition) : (s.updPart k f).nextLaunch = s.nextLaunch := rfl
@[simp] theorem State.updPart_cores (s : State) (k : Nat) (f : Partition → Partition) : (s.updPart k f).cores = s.cores := rfl
@[simp] theorem State.updPart_yards (s : State) (k : Nat) (f : Partition → Partition) : (s.updPart k f).yards = s.yards := rfl
@[simp] theorem State.updPart_dies (s : State) (k : Nat) (f : Partition → Partition) : (s.updPart k f).dies = s.dies := rfl
@[simp] theorem State.updPart_pool (s : State) (k : Nat) (f : Partition → Partition) : (s.updPart k f).pool = s.pool := rfl
@[simp] theorem State.updPart_carders (s : State) (k : Nat) (f : Partition → Partition) : (s.updPart k f).carders = s.carders := rfl
@[simp] theorem State.updPart_lends (s : State) (k : Nat) (f : Partition → Partition) : (s.updPart k f).lends = s.lends := rfl
@[simp] theorem State.updPart_ops (s : State) (k : Nat) (f : Partition → Partition) : (s.updPart k f).ops = s.ops := rfl
@[simp] theorem State.updPart_nextOp (s : State) (k : Nat) (f : Partition → Partition) : (s.updPart k f).nextOp = s.nextOp := rfl
@[simp] theorem State.updPart_queues (s : State) (k : Nat) (f : Partition → Partition) : (s.updPart k f).queues = s.queues := rfl
@[simp] theorem State.updPart_queueWaits (s : State) (k : Nat) (f : Partition → Partition) : (s.updPart k f).queueWaits = s.queueWaits := rfl
@[simp] theorem State.updPart_reservations (s : State) (k : Nat) (f : Partition → Partition) : (s.updPart k f).reservations = s.reservations := rfl
@[simp] theorem State.updPart_collSeq (s : State) (k : Nat) (f : Partition → Partition) : (s.updPart k f).collSeq = s.collSeq := rfl
@[simp] theorem State.updPart_contribs (s : State) (k : Nat) (f : Partition → Partition) : (s.updPart k f).contribs = s.contribs := rfl
@[simp] theorem State.updPart_benches (s : State) (k : Nat) (f : Partition → Partition) : (s.updPart k f).benches = s.benches := rfl
@[simp] theorem State.updPart_nextBench (s : State) (k : Nat) (f : Partition → Partition) : (s.updPart k f).nextBench = s.nextBench := rfl
@[simp] theorem State.updPart_mapCache (s : State) (k : Nat) (f : Partition → Partition) : (s.updPart k f).mapCache = s.mapCache := rfl
@[simp] theorem State.updPart_fire (s : State) (k : Nat) (f : Partition → Partition) : (s.updPart k f).fire = s.fire := rfl
@[simp] theorem State.updPart_producers (s : State) (k : Nat) (f : Partition → Partition) : (s.updPart k f).producers = s.producers := rfl
@[simp] theorem State.updPart_merges (s : State) (k : Nat) (f : Partition → Partition) : (s.updPart k f).merges = s.merges := rfl
@[simp] theorem State.updPart_nextGroup (s : State) (k : Nat) (f : Partition → Partition) : (s.updPart k f).nextGroup = s.nextGroup := rfl
@[simp] theorem State.updPart_cmds (s : State) (k : Nat) (f : Partition → Partition) : (s.updPart k f).cmds = s.cmds := rfl
@[simp] theorem State.updPart_nextCmd (s : State) (k : Nat) (f : Partition → Partition) : (s.updPart k f).nextCmd = s.nextCmd := rfl
@[simp] theorem State.updPart_restarting (s : State) (k : Nat) (f : Partition → Partition) : (s.updPart k f).restarting = s.restarting := rfl
@[simp] theorem State.updPart_dev (s : State) (k : Nat) (f : Partition → Partition) : (s.updPart k f).dev = s.dev := rfl
@[simp] theorem State.updPart_domain (s : State) (k : Nat) (f : Partition → Partition) : (s.updPart k f).domain = s.domain := rfl
@[simp] theorem State.updPart_ports (s : State) (k : Nat) (f : Partition → Partition) : (s.updPart k f).ports = s.ports := rfl
@[simp] theorem State.updPart_outstanding (s : State) (k : Nat) (f : Partition → Partition) : (s.updPart k f).outstanding = s.outstanding := rfl
@[simp] theorem State.updPart_nextSeq (s : State) (k : Nat) (f : Partition → Partition) : (s.updPart k f).nextSeq = s.nextSeq := rfl
@[simp] theorem State.updPart_seen (s : State) (k : Nat) (f : Partition → Partition) : (s.updPart k f).seen = s.seen := rfl
@[simp] theorem State.updPart_rdmas (s : State) (k : Nat) (f : Partition → Partition) : (s.updPart k f).rdmas = s.rdmas := rfl
@[simp] theorem State.updPart_nextRdma (s : State) (k : Nat) (f : Partition → Partition) : (s.updPart k f).nextRdma = s.nextRdma := rfl
@[simp] theorem State.updPart_windowAcks (s : State) (k : Nat) (f : Partition → Partition) : (s.updPart k f).windowAcks = s.windowAcks := rfl
@[simp] theorem State.updPart_unitLines (s : State) (k : Nat) (f : Partition → Partition) : (s.updPart k f).unitLines = s.unitLines := rfl
@[simp] theorem State.updPart_dieFrames (s : State) (k : Nat) (f : Partition → Partition) : (s.updPart k f).dieFrames = s.dieFrames := rfl
@[simp] theorem State.updPart_tokSeen (s : State) (k : Nat) (f : Partition → Partition) : (s.updPart k f).tokSeen = s.tokSeen := rfl
@[simp] theorem State.updPart_hubErrs (s : State) (k : Nat) (f : Partition → Partition) : (s.updPart k f).hubErrs = s.hubErrs := rfl
@[simp] theorem State.updPart_sent (s : State) (k : Nat) (f : Partition → Partition) : (s.updPart k f).sent = s.sent := rfl
@[simp] theorem State.updPart_boot (s : State) (k : Nat) (f : Partition → Partition) : (s.updPart k f).boot = s.boot := rfl

@[simp] theorem State.updOp_agenda (s : State) (k : Nat) (f : EngineOp → EngineOp) : (s.updOp k f).agenda = s.agenda := rfl
@[simp] theorem State.updOp_free (s : State) (k : Nat) (f : EngineOp → EngineOp) : (s.updOp k f).free = s.free := rfl
@[simp] theorem State.updOp_cur (s : State) (k : Nat) (f : EngineOp → EngineOp) : (s.updOp k f).cur = s.cur := rfl
@[simp] theorem State.updOp_mem (s : State) (k : Nat) (f : EngineOp → EngineOp) : (s.updOp k f).mem = s.mem := rfl
@[simp] theorem State.updOp_poison (s : State) (k : Nat) (f : EngineOp → EngineOp) : (s.updOp k f).poison = s.poison := rfl
@[simp] theorem State.updOp_inflight (s : State) (k : Nat) (f : EngineOp → EngineOp) : (s.updOp k f).inflight = s.inflight := rfl
@[simp] theorem State.updOp_regs (s : State) (k : Nat) (f : EngineOp → EngineOp) : (s.updOp k f).regs = s.regs := rfl
@[simp] theorem State.updOp_tlb (s : State) (k : Nat) (f : EngineOp → EngineOp) : (s.updOp k f).tlb = s.tlb := rfl
@[simp] theorem State.updOp_invals (s : State) (k : Nat) (f : EngineOp → EngineOp) : (s.updOp k f).invals = s.invals := rfl
@[simp] theorem State.updOp_walks (s : State) (k : Nat) (f : EngineOp → EngineOp) : (s.updOp k f).walks = s.walks := rfl
@[simp] theorem State.updOp_crews (s : State) (k : Nat) (f : EngineOp → EngineOp) : (s.updOp k f).crews = s.crews := rfl
@[simp] theorem State.updOp_epochs (s : State) (k : Nat) (f : EngineOp → EngineOp) : (s.updOp k f).epochs = s.epochs := rfl
@[simp] theorem State.updOp_gangs (s : State) (k : Nat) (f : EngineOp → EngineOp) : (s.updOp k f).gangs = s.gangs := rfl
@[simp] theorem State.updOp_nextGang (s : State) (k : Nat) (f : EngineOp → EngineOp) : (s.updOp k f).nextGang = s.nextGang := rfl
@[simp] theorem State.updOp_launches (s : State) (k : Nat) (f : EngineOp → EngineOp) : (s.updOp k f).launches = s.launches := rfl
@[simp] theorem State.updOp_nextLaunch (s : State) (k : Nat) (f : EngineOp → EngineOp) : (s.updOp k f).nextLaunch = s.nextLaunch := rfl
@[simp] theorem State.updOp_cores (s : State) (k : Nat) (f : EngineOp → EngineOp) : (s.updOp k f).cores = s.cores := rfl
@[simp] theorem State.updOp_yards (s : State) (k : Nat) (f : EngineOp → EngineOp) : (s.updOp k f).yards = s.yards := rfl
@[simp] theorem State.updOp_dies (s : State) (k : Nat) (f : EngineOp → EngineOp) : (s.updOp k f).dies = s.dies := rfl
@[simp] theorem State.updOp_pool (s : State) (k : Nat) (f : EngineOp → EngineOp) : (s.updOp k f).pool = s.pool := rfl
@[simp] theorem State.updOp_carders (s : State) (k : Nat) (f : EngineOp → EngineOp) : (s.updOp k f).carders = s.carders := rfl
@[simp] theorem State.updOp_lends (s : State) (k : Nat) (f : EngineOp → EngineOp) : (s.updOp k f).lends = s.lends := rfl
@[simp] theorem State.updOp_nextOp (s : State) (k : Nat) (f : EngineOp → EngineOp) : (s.updOp k f).nextOp = s.nextOp := rfl
@[simp] theorem State.updOp_queues (s : State) (k : Nat) (f : EngineOp → EngineOp) : (s.updOp k f).queues = s.queues := rfl
@[simp] theorem State.updOp_queueWaits (s : State) (k : Nat) (f : EngineOp → EngineOp) : (s.updOp k f).queueWaits = s.queueWaits := rfl
@[simp] theorem State.updOp_reservations (s : State) (k : Nat) (f : EngineOp → EngineOp) : (s.updOp k f).reservations = s.reservations := rfl
@[simp] theorem State.updOp_collSeq (s : State) (k : Nat) (f : EngineOp → EngineOp) : (s.updOp k f).collSeq = s.collSeq := rfl
@[simp] theorem State.updOp_contribs (s : State) (k : Nat) (f : EngineOp → EngineOp) : (s.updOp k f).contribs = s.contribs := rfl
@[simp] theorem State.updOp_benches (s : State) (k : Nat) (f : EngineOp → EngineOp) : (s.updOp k f).benches = s.benches := rfl
@[simp] theorem State.updOp_nextBench (s : State) (k : Nat) (f : EngineOp → EngineOp) : (s.updOp k f).nextBench = s.nextBench := rfl
@[simp] theorem State.updOp_mapCache (s : State) (k : Nat) (f : EngineOp → EngineOp) : (s.updOp k f).mapCache = s.mapCache := rfl
@[simp] theorem State.updOp_fire (s : State) (k : Nat) (f : EngineOp → EngineOp) : (s.updOp k f).fire = s.fire := rfl
@[simp] theorem State.updOp_producers (s : State) (k : Nat) (f : EngineOp → EngineOp) : (s.updOp k f).producers = s.producers := rfl
@[simp] theorem State.updOp_merges (s : State) (k : Nat) (f : EngineOp → EngineOp) : (s.updOp k f).merges = s.merges := rfl
@[simp] theorem State.updOp_nextGroup (s : State) (k : Nat) (f : EngineOp → EngineOp) : (s.updOp k f).nextGroup = s.nextGroup := rfl
@[simp] theorem State.updOp_cmds (s : State) (k : Nat) (f : EngineOp → EngineOp) : (s.updOp k f).cmds = s.cmds := rfl
@[simp] theorem State.updOp_nextCmd (s : State) (k : Nat) (f : EngineOp → EngineOp) : (s.updOp k f).nextCmd = s.nextCmd := rfl
@[simp] theorem State.updOp_restarting (s : State) (k : Nat) (f : EngineOp → EngineOp) : (s.updOp k f).restarting = s.restarting := rfl
@[simp] theorem State.updOp_parts (s : State) (k : Nat) (f : EngineOp → EngineOp) : (s.updOp k f).parts = s.parts := rfl
@[simp] theorem State.updOp_dev (s : State) (k : Nat) (f : EngineOp → EngineOp) : (s.updOp k f).dev = s.dev := rfl
@[simp] theorem State.updOp_domain (s : State) (k : Nat) (f : EngineOp → EngineOp) : (s.updOp k f).domain = s.domain := rfl
@[simp] theorem State.updOp_ports (s : State) (k : Nat) (f : EngineOp → EngineOp) : (s.updOp k f).ports = s.ports := rfl
@[simp] theorem State.updOp_outstanding (s : State) (k : Nat) (f : EngineOp → EngineOp) : (s.updOp k f).outstanding = s.outstanding := rfl
@[simp] theorem State.updOp_nextSeq (s : State) (k : Nat) (f : EngineOp → EngineOp) : (s.updOp k f).nextSeq = s.nextSeq := rfl
@[simp] theorem State.updOp_seen (s : State) (k : Nat) (f : EngineOp → EngineOp) : (s.updOp k f).seen = s.seen := rfl
@[simp] theorem State.updOp_rdmas (s : State) (k : Nat) (f : EngineOp → EngineOp) : (s.updOp k f).rdmas = s.rdmas := rfl
@[simp] theorem State.updOp_nextRdma (s : State) (k : Nat) (f : EngineOp → EngineOp) : (s.updOp k f).nextRdma = s.nextRdma := rfl
@[simp] theorem State.updOp_windowAcks (s : State) (k : Nat) (f : EngineOp → EngineOp) : (s.updOp k f).windowAcks = s.windowAcks := rfl
@[simp] theorem State.updOp_unitLines (s : State) (k : Nat) (f : EngineOp → EngineOp) : (s.updOp k f).unitLines = s.unitLines := rfl
@[simp] theorem State.updOp_dieFrames (s : State) (k : Nat) (f : EngineOp → EngineOp) : (s.updOp k f).dieFrames = s.dieFrames := rfl
@[simp] theorem State.updOp_tokSeen (s : State) (k : Nat) (f : EngineOp → EngineOp) : (s.updOp k f).tokSeen = s.tokSeen := rfl
@[simp] theorem State.updOp_hubErrs (s : State) (k : Nat) (f : EngineOp → EngineOp) : (s.updOp k f).hubErrs = s.hubErrs := rfl
@[simp] theorem State.updOp_sent (s : State) (k : Nat) (f : EngineOp → EngineOp) : (s.updOp k f).sent = s.sent := rfl
@[simp] theorem State.updOp_boot (s : State) (k : Nat) (f : EngineOp → EngineOp) : (s.updOp k f).boot = s.boot := rfl

@[simp] theorem State.updBench_agenda (s : State) (k : Nat) (f : Bench → Bench) : (s.updBench k f).agenda = s.agenda := rfl
@[simp] theorem State.updBench_free (s : State) (k : Nat) (f : Bench → Bench) : (s.updBench k f).free = s.free := rfl
@[simp] theorem State.updBench_cur (s : State) (k : Nat) (f : Bench → Bench) : (s.updBench k f).cur = s.cur := rfl
@[simp] theorem State.updBench_mem (s : State) (k : Nat) (f : Bench → Bench) : (s.updBench k f).mem = s.mem := rfl
@[simp] theorem State.updBench_poison (s : State) (k : Nat) (f : Bench → Bench) : (s.updBench k f).poison = s.poison := rfl
@[simp] theorem State.updBench_inflight (s : State) (k : Nat) (f : Bench → Bench) : (s.updBench k f).inflight = s.inflight := rfl
@[simp] theorem State.updBench_regs (s : State) (k : Nat) (f : Bench → Bench) : (s.updBench k f).regs = s.regs := rfl
@[simp] theorem State.updBench_tlb (s : State) (k : Nat) (f : Bench → Bench) : (s.updBench k f).tlb = s.tlb := rfl
@[simp] theorem State.updBench_invals (s : State) (k : Nat) (f : Bench → Bench) : (s.updBench k f).invals = s.invals := rfl
@[simp] theorem State.updBench_walks (s : State) (k : Nat) (f : Bench → Bench) : (s.updBench k f).walks = s.walks := rfl
@[simp] theorem State.updBench_crews (s : State) (k : Nat) (f : Bench → Bench) : (s.updBench k f).crews = s.crews := rfl
@[simp] theorem State.updBench_epochs (s : State) (k : Nat) (f : Bench → Bench) : (s.updBench k f).epochs = s.epochs := rfl
@[simp] theorem State.updBench_gangs (s : State) (k : Nat) (f : Bench → Bench) : (s.updBench k f).gangs = s.gangs := rfl
@[simp] theorem State.updBench_nextGang (s : State) (k : Nat) (f : Bench → Bench) : (s.updBench k f).nextGang = s.nextGang := rfl
@[simp] theorem State.updBench_launches (s : State) (k : Nat) (f : Bench → Bench) : (s.updBench k f).launches = s.launches := rfl
@[simp] theorem State.updBench_nextLaunch (s : State) (k : Nat) (f : Bench → Bench) : (s.updBench k f).nextLaunch = s.nextLaunch := rfl
@[simp] theorem State.updBench_cores (s : State) (k : Nat) (f : Bench → Bench) : (s.updBench k f).cores = s.cores := rfl
@[simp] theorem State.updBench_yards (s : State) (k : Nat) (f : Bench → Bench) : (s.updBench k f).yards = s.yards := rfl
@[simp] theorem State.updBench_dies (s : State) (k : Nat) (f : Bench → Bench) : (s.updBench k f).dies = s.dies := rfl
@[simp] theorem State.updBench_pool (s : State) (k : Nat) (f : Bench → Bench) : (s.updBench k f).pool = s.pool := rfl
@[simp] theorem State.updBench_carders (s : State) (k : Nat) (f : Bench → Bench) : (s.updBench k f).carders = s.carders := rfl
@[simp] theorem State.updBench_lends (s : State) (k : Nat) (f : Bench → Bench) : (s.updBench k f).lends = s.lends := rfl
@[simp] theorem State.updBench_ops (s : State) (k : Nat) (f : Bench → Bench) : (s.updBench k f).ops = s.ops := rfl
@[simp] theorem State.updBench_nextOp (s : State) (k : Nat) (f : Bench → Bench) : (s.updBench k f).nextOp = s.nextOp := rfl
@[simp] theorem State.updBench_queues (s : State) (k : Nat) (f : Bench → Bench) : (s.updBench k f).queues = s.queues := rfl
@[simp] theorem State.updBench_queueWaits (s : State) (k : Nat) (f : Bench → Bench) : (s.updBench k f).queueWaits = s.queueWaits := rfl
@[simp] theorem State.updBench_reservations (s : State) (k : Nat) (f : Bench → Bench) : (s.updBench k f).reservations = s.reservations := rfl
@[simp] theorem State.updBench_collSeq (s : State) (k : Nat) (f : Bench → Bench) : (s.updBench k f).collSeq = s.collSeq := rfl
@[simp] theorem State.updBench_contribs (s : State) (k : Nat) (f : Bench → Bench) : (s.updBench k f).contribs = s.contribs := rfl
@[simp] theorem State.updBench_nextBench (s : State) (k : Nat) (f : Bench → Bench) : (s.updBench k f).nextBench = s.nextBench := rfl
@[simp] theorem State.updBench_mapCache (s : State) (k : Nat) (f : Bench → Bench) : (s.updBench k f).mapCache = s.mapCache := rfl
@[simp] theorem State.updBench_fire (s : State) (k : Nat) (f : Bench → Bench) : (s.updBench k f).fire = s.fire := rfl
@[simp] theorem State.updBench_producers (s : State) (k : Nat) (f : Bench → Bench) : (s.updBench k f).producers = s.producers := rfl
@[simp] theorem State.updBench_merges (s : State) (k : Nat) (f : Bench → Bench) : (s.updBench k f).merges = s.merges := rfl
@[simp] theorem State.updBench_nextGroup (s : State) (k : Nat) (f : Bench → Bench) : (s.updBench k f).nextGroup = s.nextGroup := rfl
@[simp] theorem State.updBench_cmds (s : State) (k : Nat) (f : Bench → Bench) : (s.updBench k f).cmds = s.cmds := rfl
@[simp] theorem State.updBench_nextCmd (s : State) (k : Nat) (f : Bench → Bench) : (s.updBench k f).nextCmd = s.nextCmd := rfl
@[simp] theorem State.updBench_restarting (s : State) (k : Nat) (f : Bench → Bench) : (s.updBench k f).restarting = s.restarting := rfl
@[simp] theorem State.updBench_parts (s : State) (k : Nat) (f : Bench → Bench) : (s.updBench k f).parts = s.parts := rfl
@[simp] theorem State.updBench_dev (s : State) (k : Nat) (f : Bench → Bench) : (s.updBench k f).dev = s.dev := rfl
@[simp] theorem State.updBench_domain (s : State) (k : Nat) (f : Bench → Bench) : (s.updBench k f).domain = s.domain := rfl
@[simp] theorem State.updBench_ports (s : State) (k : Nat) (f : Bench → Bench) : (s.updBench k f).ports = s.ports := rfl
@[simp] theorem State.updBench_outstanding (s : State) (k : Nat) (f : Bench → Bench) : (s.updBench k f).outstanding = s.outstanding := rfl
@[simp] theorem State.updBench_nextSeq (s : State) (k : Nat) (f : Bench → Bench) : (s.updBench k f).nextSeq = s.nextSeq := rfl
@[simp] theorem State.updBench_seen (s : State) (k : Nat) (f : Bench → Bench) : (s.updBench k f).seen = s.seen := rfl
@[simp] theorem State.updBench_rdmas (s : State) (k : Nat) (f : Bench → Bench) : (s.updBench k f).rdmas = s.rdmas := rfl
@[simp] theorem State.updBench_nextRdma (s : State) (k : Nat) (f : Bench → Bench) : (s.updBench k f).nextRdma = s.nextRdma := rfl
@[simp] theorem State.updBench_windowAcks (s : State) (k : Nat) (f : Bench → Bench) : (s.updBench k f).windowAcks = s.windowAcks := rfl
@[simp] theorem State.updBench_unitLines (s : State) (k : Nat) (f : Bench → Bench) : (s.updBench k f).unitLines = s.unitLines := rfl
@[simp] theorem State.updBench_dieFrames (s : State) (k : Nat) (f : Bench → Bench) : (s.updBench k f).dieFrames = s.dieFrames := rfl
@[simp] theorem State.updBench_tokSeen (s : State) (k : Nat) (f : Bench → Bench) : (s.updBench k f).tokSeen = s.tokSeen := rfl
@[simp] theorem State.updBench_hubErrs (s : State) (k : Nat) (f : Bench → Bench) : (s.updBench k f).hubErrs = s.hubErrs := rfl
@[simp] theorem State.updBench_sent (s : State) (k : Nat) (f : Bench → Bench) : (s.updBench k f).sent = s.sent := rfl
@[simp] theorem State.updBench_boot (s : State) (k : Nat) (f : Bench → Bench) : (s.updBench k f).boot = s.boot := rfl

@[simp] theorem State.updElem_agenda (s : State) (b e : Nat) (f : Elem → Elem) : (s.updElem b e f).agenda = s.agenda := rfl
@[simp] theorem State.updElem_free (s : State) (b e : Nat) (f : Elem → Elem) : (s.updElem b e f).free = s.free := rfl
@[simp] theorem State.updElem_cur (s : State) (b e : Nat) (f : Elem → Elem) : (s.updElem b e f).cur = s.cur := rfl
@[simp] theorem State.updElem_mem (s : State) (b e : Nat) (f : Elem → Elem) : (s.updElem b e f).mem = s.mem := rfl
@[simp] theorem State.updElem_poison (s : State) (b e : Nat) (f : Elem → Elem) : (s.updElem b e f).poison = s.poison := rfl
@[simp] theorem State.updElem_inflight (s : State) (b e : Nat) (f : Elem → Elem) : (s.updElem b e f).inflight = s.inflight := rfl
@[simp] theorem State.updElem_regs (s : State) (b e : Nat) (f : Elem → Elem) : (s.updElem b e f).regs = s.regs := rfl
@[simp] theorem State.updElem_tlb (s : State) (b e : Nat) (f : Elem → Elem) : (s.updElem b e f).tlb = s.tlb := rfl
@[simp] theorem State.updElem_invals (s : State) (b e : Nat) (f : Elem → Elem) : (s.updElem b e f).invals = s.invals := rfl
@[simp] theorem State.updElem_walks (s : State) (b e : Nat) (f : Elem → Elem) : (s.updElem b e f).walks = s.walks := rfl
@[simp] theorem State.updElem_crews (s : State) (b e : Nat) (f : Elem → Elem) : (s.updElem b e f).crews = s.crews := rfl
@[simp] theorem State.updElem_epochs (s : State) (b e : Nat) (f : Elem → Elem) : (s.updElem b e f).epochs = s.epochs := rfl
@[simp] theorem State.updElem_gangs (s : State) (b e : Nat) (f : Elem → Elem) : (s.updElem b e f).gangs = s.gangs := rfl
@[simp] theorem State.updElem_nextGang (s : State) (b e : Nat) (f : Elem → Elem) : (s.updElem b e f).nextGang = s.nextGang := rfl
@[simp] theorem State.updElem_launches (s : State) (b e : Nat) (f : Elem → Elem) : (s.updElem b e f).launches = s.launches := rfl
@[simp] theorem State.updElem_nextLaunch (s : State) (b e : Nat) (f : Elem → Elem) : (s.updElem b e f).nextLaunch = s.nextLaunch := rfl
@[simp] theorem State.updElem_cores (s : State) (b e : Nat) (f : Elem → Elem) : (s.updElem b e f).cores = s.cores := rfl
@[simp] theorem State.updElem_yards (s : State) (b e : Nat) (f : Elem → Elem) : (s.updElem b e f).yards = s.yards := rfl
@[simp] theorem State.updElem_dies (s : State) (b e : Nat) (f : Elem → Elem) : (s.updElem b e f).dies = s.dies := rfl
@[simp] theorem State.updElem_pool (s : State) (b e : Nat) (f : Elem → Elem) : (s.updElem b e f).pool = s.pool := rfl
@[simp] theorem State.updElem_carders (s : State) (b e : Nat) (f : Elem → Elem) : (s.updElem b e f).carders = s.carders := rfl
@[simp] theorem State.updElem_lends (s : State) (b e : Nat) (f : Elem → Elem) : (s.updElem b e f).lends = s.lends := rfl
@[simp] theorem State.updElem_ops (s : State) (b e : Nat) (f : Elem → Elem) : (s.updElem b e f).ops = s.ops := rfl
@[simp] theorem State.updElem_nextOp (s : State) (b e : Nat) (f : Elem → Elem) : (s.updElem b e f).nextOp = s.nextOp := rfl
@[simp] theorem State.updElem_queues (s : State) (b e : Nat) (f : Elem → Elem) : (s.updElem b e f).queues = s.queues := rfl
@[simp] theorem State.updElem_queueWaits (s : State) (b e : Nat) (f : Elem → Elem) : (s.updElem b e f).queueWaits = s.queueWaits := rfl
@[simp] theorem State.updElem_reservations (s : State) (b e : Nat) (f : Elem → Elem) : (s.updElem b e f).reservations = s.reservations := rfl
@[simp] theorem State.updElem_collSeq (s : State) (b e : Nat) (f : Elem → Elem) : (s.updElem b e f).collSeq = s.collSeq := rfl
@[simp] theorem State.updElem_contribs (s : State) (b e : Nat) (f : Elem → Elem) : (s.updElem b e f).contribs = s.contribs := rfl
@[simp] theorem State.updElem_nextBench (s : State) (b e : Nat) (f : Elem → Elem) : (s.updElem b e f).nextBench = s.nextBench := rfl
@[simp] theorem State.updElem_mapCache (s : State) (b e : Nat) (f : Elem → Elem) : (s.updElem b e f).mapCache = s.mapCache := rfl
@[simp] theorem State.updElem_fire (s : State) (b e : Nat) (f : Elem → Elem) : (s.updElem b e f).fire = s.fire := rfl
@[simp] theorem State.updElem_producers (s : State) (b e : Nat) (f : Elem → Elem) : (s.updElem b e f).producers = s.producers := rfl
@[simp] theorem State.updElem_merges (s : State) (b e : Nat) (f : Elem → Elem) : (s.updElem b e f).merges = s.merges := rfl
@[simp] theorem State.updElem_nextGroup (s : State) (b e : Nat) (f : Elem → Elem) : (s.updElem b e f).nextGroup = s.nextGroup := rfl
@[simp] theorem State.updElem_cmds (s : State) (b e : Nat) (f : Elem → Elem) : (s.updElem b e f).cmds = s.cmds := rfl
@[simp] theorem State.updElem_nextCmd (s : State) (b e : Nat) (f : Elem → Elem) : (s.updElem b e f).nextCmd = s.nextCmd := rfl
@[simp] theorem State.updElem_restarting (s : State) (b e : Nat) (f : Elem → Elem) : (s.updElem b e f).restarting = s.restarting := rfl
@[simp] theorem State.updElem_parts (s : State) (b e : Nat) (f : Elem → Elem) : (s.updElem b e f).parts = s.parts := rfl
@[simp] theorem State.updElem_dev (s : State) (b e : Nat) (f : Elem → Elem) : (s.updElem b e f).dev = s.dev := rfl
@[simp] theorem State.updElem_domain (s : State) (b e : Nat) (f : Elem → Elem) : (s.updElem b e f).domain = s.domain := rfl
@[simp] theorem State.updElem_ports (s : State) (b e : Nat) (f : Elem → Elem) : (s.updElem b e f).ports = s.ports := rfl
@[simp] theorem State.updElem_outstanding (s : State) (b e : Nat) (f : Elem → Elem) : (s.updElem b e f).outstanding = s.outstanding := rfl
@[simp] theorem State.updElem_nextSeq (s : State) (b e : Nat) (f : Elem → Elem) : (s.updElem b e f).nextSeq = s.nextSeq := rfl
@[simp] theorem State.updElem_seen (s : State) (b e : Nat) (f : Elem → Elem) : (s.updElem b e f).seen = s.seen := rfl
@[simp] theorem State.updElem_rdmas (s : State) (b e : Nat) (f : Elem → Elem) : (s.updElem b e f).rdmas = s.rdmas := rfl
@[simp] theorem State.updElem_nextRdma (s : State) (b e : Nat) (f : Elem → Elem) : (s.updElem b e f).nextRdma = s.nextRdma := rfl
@[simp] theorem State.updElem_windowAcks (s : State) (b e : Nat) (f : Elem → Elem) : (s.updElem b e f).windowAcks = s.windowAcks := rfl
@[simp] theorem State.updElem_unitLines (s : State) (b e : Nat) (f : Elem → Elem) : (s.updElem b e f).unitLines = s.unitLines := rfl
@[simp] theorem State.updElem_dieFrames (s : State) (b e : Nat) (f : Elem → Elem) : (s.updElem b e f).dieFrames = s.dieFrames := rfl
@[simp] theorem State.updElem_tokSeen (s : State) (b e : Nat) (f : Elem → Elem) : (s.updElem b e f).tokSeen = s.tokSeen := rfl
@[simp] theorem State.updElem_hubErrs (s : State) (b e : Nat) (f : Elem → Elem) : (s.updElem b e f).hubErrs = s.hubErrs := rfl
@[simp] theorem State.updElem_sent (s : State) (b e : Nat) (f : Elem → Elem) : (s.updElem b e f).sent = s.sent := rfl
@[simp] theorem State.updElem_boot (s : State) (b e : Nat) (f : Elem → Elem) : (s.updElem b e f).boot = s.boot := rfl

@[simp] theorem State.updCmd_agenda (s : State) (k : Nat) (f : Cmd → Cmd) : (s.updCmd k f).agenda = s.agenda := rfl
@[simp] theorem State.updCmd_free (s : State) (k : Nat) (f : Cmd → Cmd) : (s.updCmd k f).free = s.free := rfl
@[simp] theorem State.updCmd_cur (s : State) (k : Nat) (f : Cmd → Cmd) : (s.updCmd k f).cur = s.cur := rfl
@[simp] theorem State.updCmd_mem (s : State) (k : Nat) (f : Cmd → Cmd) : (s.updCmd k f).mem = s.mem := rfl
@[simp] theorem State.updCmd_poison (s : State) (k : Nat) (f : Cmd → Cmd) : (s.updCmd k f).poison = s.poison := rfl
@[simp] theorem State.updCmd_inflight (s : State) (k : Nat) (f : Cmd → Cmd) : (s.updCmd k f).inflight = s.inflight := rfl
@[simp] theorem State.updCmd_regs (s : State) (k : Nat) (f : Cmd → Cmd) : (s.updCmd k f).regs = s.regs := rfl
@[simp] theorem State.updCmd_tlb (s : State) (k : Nat) (f : Cmd → Cmd) : (s.updCmd k f).tlb = s.tlb := rfl
@[simp] theorem State.updCmd_invals (s : State) (k : Nat) (f : Cmd → Cmd) : (s.updCmd k f).invals = s.invals := rfl
@[simp] theorem State.updCmd_walks (s : State) (k : Nat) (f : Cmd → Cmd) : (s.updCmd k f).walks = s.walks := rfl
@[simp] theorem State.updCmd_crews (s : State) (k : Nat) (f : Cmd → Cmd) : (s.updCmd k f).crews = s.crews := rfl
@[simp] theorem State.updCmd_epochs (s : State) (k : Nat) (f : Cmd → Cmd) : (s.updCmd k f).epochs = s.epochs := rfl
@[simp] theorem State.updCmd_gangs (s : State) (k : Nat) (f : Cmd → Cmd) : (s.updCmd k f).gangs = s.gangs := rfl
@[simp] theorem State.updCmd_nextGang (s : State) (k : Nat) (f : Cmd → Cmd) : (s.updCmd k f).nextGang = s.nextGang := rfl
@[simp] theorem State.updCmd_launches (s : State) (k : Nat) (f : Cmd → Cmd) : (s.updCmd k f).launches = s.launches := rfl
@[simp] theorem State.updCmd_nextLaunch (s : State) (k : Nat) (f : Cmd → Cmd) : (s.updCmd k f).nextLaunch = s.nextLaunch := rfl
@[simp] theorem State.updCmd_cores (s : State) (k : Nat) (f : Cmd → Cmd) : (s.updCmd k f).cores = s.cores := rfl
@[simp] theorem State.updCmd_yards (s : State) (k : Nat) (f : Cmd → Cmd) : (s.updCmd k f).yards = s.yards := rfl
@[simp] theorem State.updCmd_dies (s : State) (k : Nat) (f : Cmd → Cmd) : (s.updCmd k f).dies = s.dies := rfl
@[simp] theorem State.updCmd_pool (s : State) (k : Nat) (f : Cmd → Cmd) : (s.updCmd k f).pool = s.pool := rfl
@[simp] theorem State.updCmd_carders (s : State) (k : Nat) (f : Cmd → Cmd) : (s.updCmd k f).carders = s.carders := rfl
@[simp] theorem State.updCmd_lends (s : State) (k : Nat) (f : Cmd → Cmd) : (s.updCmd k f).lends = s.lends := rfl
@[simp] theorem State.updCmd_ops (s : State) (k : Nat) (f : Cmd → Cmd) : (s.updCmd k f).ops = s.ops := rfl
@[simp] theorem State.updCmd_nextOp (s : State) (k : Nat) (f : Cmd → Cmd) : (s.updCmd k f).nextOp = s.nextOp := rfl
@[simp] theorem State.updCmd_queues (s : State) (k : Nat) (f : Cmd → Cmd) : (s.updCmd k f).queues = s.queues := rfl
@[simp] theorem State.updCmd_queueWaits (s : State) (k : Nat) (f : Cmd → Cmd) : (s.updCmd k f).queueWaits = s.queueWaits := rfl
@[simp] theorem State.updCmd_reservations (s : State) (k : Nat) (f : Cmd → Cmd) : (s.updCmd k f).reservations = s.reservations := rfl
@[simp] theorem State.updCmd_collSeq (s : State) (k : Nat) (f : Cmd → Cmd) : (s.updCmd k f).collSeq = s.collSeq := rfl
@[simp] theorem State.updCmd_contribs (s : State) (k : Nat) (f : Cmd → Cmd) : (s.updCmd k f).contribs = s.contribs := rfl
@[simp] theorem State.updCmd_benches (s : State) (k : Nat) (f : Cmd → Cmd) : (s.updCmd k f).benches = s.benches := rfl
@[simp] theorem State.updCmd_nextBench (s : State) (k : Nat) (f : Cmd → Cmd) : (s.updCmd k f).nextBench = s.nextBench := rfl
@[simp] theorem State.updCmd_mapCache (s : State) (k : Nat) (f : Cmd → Cmd) : (s.updCmd k f).mapCache = s.mapCache := rfl
@[simp] theorem State.updCmd_fire (s : State) (k : Nat) (f : Cmd → Cmd) : (s.updCmd k f).fire = s.fire := rfl
@[simp] theorem State.updCmd_producers (s : State) (k : Nat) (f : Cmd → Cmd) : (s.updCmd k f).producers = s.producers := rfl
@[simp] theorem State.updCmd_merges (s : State) (k : Nat) (f : Cmd → Cmd) : (s.updCmd k f).merges = s.merges := rfl
@[simp] theorem State.updCmd_nextGroup (s : State) (k : Nat) (f : Cmd → Cmd) : (s.updCmd k f).nextGroup = s.nextGroup := rfl
@[simp] theorem State.updCmd_nextCmd (s : State) (k : Nat) (f : Cmd → Cmd) : (s.updCmd k f).nextCmd = s.nextCmd := rfl
@[simp] theorem State.updCmd_restarting (s : State) (k : Nat) (f : Cmd → Cmd) : (s.updCmd k f).restarting = s.restarting := rfl
@[simp] theorem State.updCmd_parts (s : State) (k : Nat) (f : Cmd → Cmd) : (s.updCmd k f).parts = s.parts := rfl
@[simp] theorem State.updCmd_dev (s : State) (k : Nat) (f : Cmd → Cmd) : (s.updCmd k f).dev = s.dev := rfl
@[simp] theorem State.updCmd_domain (s : State) (k : Nat) (f : Cmd → Cmd) : (s.updCmd k f).domain = s.domain := rfl
@[simp] theorem State.updCmd_ports (s : State) (k : Nat) (f : Cmd → Cmd) : (s.updCmd k f).ports = s.ports := rfl
@[simp] theorem State.updCmd_outstanding (s : State) (k : Nat) (f : Cmd → Cmd) : (s.updCmd k f).outstanding = s.outstanding := rfl
@[simp] theorem State.updCmd_nextSeq (s : State) (k : Nat) (f : Cmd → Cmd) : (s.updCmd k f).nextSeq = s.nextSeq := rfl
@[simp] theorem State.updCmd_seen (s : State) (k : Nat) (f : Cmd → Cmd) : (s.updCmd k f).seen = s.seen := rfl
@[simp] theorem State.updCmd_rdmas (s : State) (k : Nat) (f : Cmd → Cmd) : (s.updCmd k f).rdmas = s.rdmas := rfl
@[simp] theorem State.updCmd_nextRdma (s : State) (k : Nat) (f : Cmd → Cmd) : (s.updCmd k f).nextRdma = s.nextRdma := rfl
@[simp] theorem State.updCmd_windowAcks (s : State) (k : Nat) (f : Cmd → Cmd) : (s.updCmd k f).windowAcks = s.windowAcks := rfl
@[simp] theorem State.updCmd_unitLines (s : State) (k : Nat) (f : Cmd → Cmd) : (s.updCmd k f).unitLines = s.unitLines := rfl
@[simp] theorem State.updCmd_dieFrames (s : State) (k : Nat) (f : Cmd → Cmd) : (s.updCmd k f).dieFrames = s.dieFrames := rfl
@[simp] theorem State.updCmd_tokSeen (s : State) (k : Nat) (f : Cmd → Cmd) : (s.updCmd k f).tokSeen = s.tokSeen := rfl
@[simp] theorem State.updCmd_hubErrs (s : State) (k : Nat) (f : Cmd → Cmd) : (s.updCmd k f).hubErrs = s.hubErrs := rfl
@[simp] theorem State.updCmd_sent (s : State) (k : Nat) (f : Cmd → Cmd) : (s.updCmd k f).sent = s.sent := rfl
@[simp] theorem State.updCmd_boot (s : State) (k : Nat) (f : Cmd → Cmd) : (s.updCmd k f).boot = s.boot := rfl

@[simp] theorem State.updProd_agenda (s : State) (k : Nat) (f : Producer → Producer) : (s.updProd k f).agenda = s.agenda := rfl
@[simp] theorem State.updProd_free (s : State) (k : Nat) (f : Producer → Producer) : (s.updProd k f).free = s.free := rfl
@[simp] theorem State.updProd_cur (s : State) (k : Nat) (f : Producer → Producer) : (s.updProd k f).cur = s.cur := rfl
@[simp] theorem State.updProd_mem (s : State) (k : Nat) (f : Producer → Producer) : (s.updProd k f).mem = s.mem := rfl
@[simp] theorem State.updProd_poison (s : State) (k : Nat) (f : Producer → Producer) : (s.updProd k f).poison = s.poison := rfl
@[simp] theorem State.updProd_inflight (s : State) (k : Nat) (f : Producer → Producer) : (s.updProd k f).inflight = s.inflight := rfl
@[simp] theorem State.updProd_regs (s : State) (k : Nat) (f : Producer → Producer) : (s.updProd k f).regs = s.regs := rfl
@[simp] theorem State.updProd_tlb (s : State) (k : Nat) (f : Producer → Producer) : (s.updProd k f).tlb = s.tlb := rfl
@[simp] theorem State.updProd_invals (s : State) (k : Nat) (f : Producer → Producer) : (s.updProd k f).invals = s.invals := rfl
@[simp] theorem State.updProd_walks (s : State) (k : Nat) (f : Producer → Producer) : (s.updProd k f).walks = s.walks := rfl
@[simp] theorem State.updProd_crews (s : State) (k : Nat) (f : Producer → Producer) : (s.updProd k f).crews = s.crews := rfl
@[simp] theorem State.updProd_epochs (s : State) (k : Nat) (f : Producer → Producer) : (s.updProd k f).epochs = s.epochs := rfl
@[simp] theorem State.updProd_gangs (s : State) (k : Nat) (f : Producer → Producer) : (s.updProd k f).gangs = s.gangs := rfl
@[simp] theorem State.updProd_nextGang (s : State) (k : Nat) (f : Producer → Producer) : (s.updProd k f).nextGang = s.nextGang := rfl
@[simp] theorem State.updProd_launches (s : State) (k : Nat) (f : Producer → Producer) : (s.updProd k f).launches = s.launches := rfl
@[simp] theorem State.updProd_nextLaunch (s : State) (k : Nat) (f : Producer → Producer) : (s.updProd k f).nextLaunch = s.nextLaunch := rfl
@[simp] theorem State.updProd_cores (s : State) (k : Nat) (f : Producer → Producer) : (s.updProd k f).cores = s.cores := rfl
@[simp] theorem State.updProd_yards (s : State) (k : Nat) (f : Producer → Producer) : (s.updProd k f).yards = s.yards := rfl
@[simp] theorem State.updProd_dies (s : State) (k : Nat) (f : Producer → Producer) : (s.updProd k f).dies = s.dies := rfl
@[simp] theorem State.updProd_pool (s : State) (k : Nat) (f : Producer → Producer) : (s.updProd k f).pool = s.pool := rfl
@[simp] theorem State.updProd_carders (s : State) (k : Nat) (f : Producer → Producer) : (s.updProd k f).carders = s.carders := rfl
@[simp] theorem State.updProd_lends (s : State) (k : Nat) (f : Producer → Producer) : (s.updProd k f).lends = s.lends := rfl
@[simp] theorem State.updProd_ops (s : State) (k : Nat) (f : Producer → Producer) : (s.updProd k f).ops = s.ops := rfl
@[simp] theorem State.updProd_nextOp (s : State) (k : Nat) (f : Producer → Producer) : (s.updProd k f).nextOp = s.nextOp := rfl
@[simp] theorem State.updProd_queues (s : State) (k : Nat) (f : Producer → Producer) : (s.updProd k f).queues = s.queues := rfl
@[simp] theorem State.updProd_queueWaits (s : State) (k : Nat) (f : Producer → Producer) : (s.updProd k f).queueWaits = s.queueWaits := rfl
@[simp] theorem State.updProd_reservations (s : State) (k : Nat) (f : Producer → Producer) : (s.updProd k f).reservations = s.reservations := rfl
@[simp] theorem State.updProd_collSeq (s : State) (k : Nat) (f : Producer → Producer) : (s.updProd k f).collSeq = s.collSeq := rfl
@[simp] theorem State.updProd_contribs (s : State) (k : Nat) (f : Producer → Producer) : (s.updProd k f).contribs = s.contribs := rfl
@[simp] theorem State.updProd_benches (s : State) (k : Nat) (f : Producer → Producer) : (s.updProd k f).benches = s.benches := rfl
@[simp] theorem State.updProd_nextBench (s : State) (k : Nat) (f : Producer → Producer) : (s.updProd k f).nextBench = s.nextBench := rfl
@[simp] theorem State.updProd_mapCache (s : State) (k : Nat) (f : Producer → Producer) : (s.updProd k f).mapCache = s.mapCache := rfl
@[simp] theorem State.updProd_fire (s : State) (k : Nat) (f : Producer → Producer) : (s.updProd k f).fire = s.fire := rfl
@[simp] theorem State.updProd_merges (s : State) (k : Nat) (f : Producer → Producer) : (s.updProd k f).merges = s.merges := rfl
@[simp] theorem State.updProd_nextGroup (s : State) (k : Nat) (f : Producer → Producer) : (s.updProd k f).nextGroup = s.nextGroup := rfl
@[simp] theorem State.updProd_cmds (s : State) (k : Nat) (f : Producer → Producer) : (s.updProd k f).cmds = s.cmds := rfl
@[simp] theorem State.updProd_nextCmd (s : State) (k : Nat) (f : Producer → Producer) : (s.updProd k f).nextCmd = s.nextCmd := rfl
@[simp] theorem State.updProd_restarting (s : State) (k : Nat) (f : Producer → Producer) : (s.updProd k f).restarting = s.restarting := rfl
@[simp] theorem State.updProd_parts (s : State) (k : Nat) (f : Producer → Producer) : (s.updProd k f).parts = s.parts := rfl
@[simp] theorem State.updProd_dev (s : State) (k : Nat) (f : Producer → Producer) : (s.updProd k f).dev = s.dev := rfl
@[simp] theorem State.updProd_domain (s : State) (k : Nat) (f : Producer → Producer) : (s.updProd k f).domain = s.domain := rfl
@[simp] theorem State.updProd_ports (s : State) (k : Nat) (f : Producer → Producer) : (s.updProd k f).ports = s.ports := rfl
@[simp] theorem State.updProd_outstanding (s : State) (k : Nat) (f : Producer → Producer) : (s.updProd k f).outstanding = s.outstanding := rfl
@[simp] theorem State.updProd_nextSeq (s : State) (k : Nat) (f : Producer → Producer) : (s.updProd k f).nextSeq = s.nextSeq := rfl
@[simp] theorem State.updProd_seen (s : State) (k : Nat) (f : Producer → Producer) : (s.updProd k f).seen = s.seen := rfl
@[simp] theorem State.updProd_rdmas (s : State) (k : Nat) (f : Producer → Producer) : (s.updProd k f).rdmas = s.rdmas := rfl
@[simp] theorem State.updProd_nextRdma (s : State) (k : Nat) (f : Producer → Producer) : (s.updProd k f).nextRdma = s.nextRdma := rfl
@[simp] theorem State.updProd_windowAcks (s : State) (k : Nat) (f : Producer → Producer) : (s.updProd k f).windowAcks = s.windowAcks := rfl
@[simp] theorem State.updProd_unitLines (s : State) (k : Nat) (f : Producer → Producer) : (s.updProd k f).unitLines = s.unitLines := rfl
@[simp] theorem State.updProd_dieFrames (s : State) (k : Nat) (f : Producer → Producer) : (s.updProd k f).dieFrames = s.dieFrames := rfl
@[simp] theorem State.updProd_tokSeen (s : State) (k : Nat) (f : Producer → Producer) : (s.updProd k f).tokSeen = s.tokSeen := rfl
@[simp] theorem State.updProd_hubErrs (s : State) (k : Nat) (f : Producer → Producer) : (s.updProd k f).hubErrs = s.hubErrs := rfl
@[simp] theorem State.updProd_sent (s : State) (k : Nat) (f : Producer → Producer) : (s.updProd k f).sent = s.sent := rfl
@[simp] theorem State.updProd_boot (s : State) (k : Nat) (f : Producer → Producer) : (s.updProd k f).boot = s.boot := rfl

@[simp] theorem State.updTok_agenda (s : State) (k : Nat) (f : TokSlot → TokSlot) : (s.updTok k f).agenda = s.agenda := rfl
@[simp] theorem State.updTok_free (s : State) (k : Nat) (f : TokSlot → TokSlot) : (s.updTok k f).free = s.free := rfl
@[simp] theorem State.updTok_cur (s : State) (k : Nat) (f : TokSlot → TokSlot) : (s.updTok k f).cur = s.cur := rfl
@[simp] theorem State.updTok_mem (s : State) (k : Nat) (f : TokSlot → TokSlot) : (s.updTok k f).mem = s.mem := rfl
@[simp] theorem State.updTok_poison (s : State) (k : Nat) (f : TokSlot → TokSlot) : (s.updTok k f).poison = s.poison := rfl
@[simp] theorem State.updTok_inflight (s : State) (k : Nat) (f : TokSlot → TokSlot) : (s.updTok k f).inflight = s.inflight := rfl
@[simp] theorem State.updTok_regs (s : State) (k : Nat) (f : TokSlot → TokSlot) : (s.updTok k f).regs = s.regs := rfl
@[simp] theorem State.updTok_tlb (s : State) (k : Nat) (f : TokSlot → TokSlot) : (s.updTok k f).tlb = s.tlb := rfl
@[simp] theorem State.updTok_invals (s : State) (k : Nat) (f : TokSlot → TokSlot) : (s.updTok k f).invals = s.invals := rfl
@[simp] theorem State.updTok_walks (s : State) (k : Nat) (f : TokSlot → TokSlot) : (s.updTok k f).walks = s.walks := rfl
@[simp] theorem State.updTok_crews (s : State) (k : Nat) (f : TokSlot → TokSlot) : (s.updTok k f).crews = s.crews := rfl
@[simp] theorem State.updTok_epochs (s : State) (k : Nat) (f : TokSlot → TokSlot) : (s.updTok k f).epochs = s.epochs := rfl
@[simp] theorem State.updTok_gangs (s : State) (k : Nat) (f : TokSlot → TokSlot) : (s.updTok k f).gangs = s.gangs := rfl
@[simp] theorem State.updTok_nextGang (s : State) (k : Nat) (f : TokSlot → TokSlot) : (s.updTok k f).nextGang = s.nextGang := rfl
@[simp] theorem State.updTok_launches (s : State) (k : Nat) (f : TokSlot → TokSlot) : (s.updTok k f).launches = s.launches := rfl
@[simp] theorem State.updTok_nextLaunch (s : State) (k : Nat) (f : TokSlot → TokSlot) : (s.updTok k f).nextLaunch = s.nextLaunch := rfl
@[simp] theorem State.updTok_cores (s : State) (k : Nat) (f : TokSlot → TokSlot) : (s.updTok k f).cores = s.cores := rfl
@[simp] theorem State.updTok_yards (s : State) (k : Nat) (f : TokSlot → TokSlot) : (s.updTok k f).yards = s.yards := rfl
@[simp] theorem State.updTok_dies (s : State) (k : Nat) (f : TokSlot → TokSlot) : (s.updTok k f).dies = s.dies := rfl
@[simp] theorem State.updTok_carders (s : State) (k : Nat) (f : TokSlot → TokSlot) : (s.updTok k f).carders = s.carders := rfl
@[simp] theorem State.updTok_lends (s : State) (k : Nat) (f : TokSlot → TokSlot) : (s.updTok k f).lends = s.lends := rfl
@[simp] theorem State.updTok_ops (s : State) (k : Nat) (f : TokSlot → TokSlot) : (s.updTok k f).ops = s.ops := rfl
@[simp] theorem State.updTok_nextOp (s : State) (k : Nat) (f : TokSlot → TokSlot) : (s.updTok k f).nextOp = s.nextOp := rfl
@[simp] theorem State.updTok_queues (s : State) (k : Nat) (f : TokSlot → TokSlot) : (s.updTok k f).queues = s.queues := rfl
@[simp] theorem State.updTok_queueWaits (s : State) (k : Nat) (f : TokSlot → TokSlot) : (s.updTok k f).queueWaits = s.queueWaits := rfl
@[simp] theorem State.updTok_reservations (s : State) (k : Nat) (f : TokSlot → TokSlot) : (s.updTok k f).reservations = s.reservations := rfl
@[simp] theorem State.updTok_collSeq (s : State) (k : Nat) (f : TokSlot → TokSlot) : (s.updTok k f).collSeq = s.collSeq := rfl
@[simp] theorem State.updTok_contribs (s : State) (k : Nat) (f : TokSlot → TokSlot) : (s.updTok k f).contribs = s.contribs := rfl
@[simp] theorem State.updTok_benches (s : State) (k : Nat) (f : TokSlot → TokSlot) : (s.updTok k f).benches = s.benches := rfl
@[simp] theorem State.updTok_nextBench (s : State) (k : Nat) (f : TokSlot → TokSlot) : (s.updTok k f).nextBench = s.nextBench := rfl
@[simp] theorem State.updTok_mapCache (s : State) (k : Nat) (f : TokSlot → TokSlot) : (s.updTok k f).mapCache = s.mapCache := rfl
@[simp] theorem State.updTok_fire (s : State) (k : Nat) (f : TokSlot → TokSlot) : (s.updTok k f).fire = s.fire := rfl
@[simp] theorem State.updTok_producers (s : State) (k : Nat) (f : TokSlot → TokSlot) : (s.updTok k f).producers = s.producers := rfl
@[simp] theorem State.updTok_merges (s : State) (k : Nat) (f : TokSlot → TokSlot) : (s.updTok k f).merges = s.merges := rfl
@[simp] theorem State.updTok_nextGroup (s : State) (k : Nat) (f : TokSlot → TokSlot) : (s.updTok k f).nextGroup = s.nextGroup := rfl
@[simp] theorem State.updTok_cmds (s : State) (k : Nat) (f : TokSlot → TokSlot) : (s.updTok k f).cmds = s.cmds := rfl
@[simp] theorem State.updTok_nextCmd (s : State) (k : Nat) (f : TokSlot → TokSlot) : (s.updTok k f).nextCmd = s.nextCmd := rfl
@[simp] theorem State.updTok_restarting (s : State) (k : Nat) (f : TokSlot → TokSlot) : (s.updTok k f).restarting = s.restarting := rfl
@[simp] theorem State.updTok_parts (s : State) (k : Nat) (f : TokSlot → TokSlot) : (s.updTok k f).parts = s.parts := rfl
@[simp] theorem State.updTok_dev (s : State) (k : Nat) (f : TokSlot → TokSlot) : (s.updTok k f).dev = s.dev := rfl
@[simp] theorem State.updTok_domain (s : State) (k : Nat) (f : TokSlot → TokSlot) : (s.updTok k f).domain = s.domain := rfl
@[simp] theorem State.updTok_ports (s : State) (k : Nat) (f : TokSlot → TokSlot) : (s.updTok k f).ports = s.ports := rfl
@[simp] theorem State.updTok_outstanding (s : State) (k : Nat) (f : TokSlot → TokSlot) : (s.updTok k f).outstanding = s.outstanding := rfl
@[simp] theorem State.updTok_nextSeq (s : State) (k : Nat) (f : TokSlot → TokSlot) : (s.updTok k f).nextSeq = s.nextSeq := rfl
@[simp] theorem State.updTok_seen (s : State) (k : Nat) (f : TokSlot → TokSlot) : (s.updTok k f).seen = s.seen := rfl
@[simp] theorem State.updTok_rdmas (s : State) (k : Nat) (f : TokSlot → TokSlot) : (s.updTok k f).rdmas = s.rdmas := rfl
@[simp] theorem State.updTok_nextRdma (s : State) (k : Nat) (f : TokSlot → TokSlot) : (s.updTok k f).nextRdma = s.nextRdma := rfl
@[simp] theorem State.updTok_windowAcks (s : State) (k : Nat) (f : TokSlot → TokSlot) : (s.updTok k f).windowAcks = s.windowAcks := rfl
@[simp] theorem State.updTok_unitLines (s : State) (k : Nat) (f : TokSlot → TokSlot) : (s.updTok k f).unitLines = s.unitLines := rfl
@[simp] theorem State.updTok_dieFrames (s : State) (k : Nat) (f : TokSlot → TokSlot) : (s.updTok k f).dieFrames = s.dieFrames := rfl
@[simp] theorem State.updTok_tokSeen (s : State) (k : Nat) (f : TokSlot → TokSlot) : (s.updTok k f).tokSeen = s.tokSeen := rfl
@[simp] theorem State.updTok_hubErrs (s : State) (k : Nat) (f : TokSlot → TokSlot) : (s.updTok k f).hubErrs = s.hubErrs := rfl
@[simp] theorem State.updTok_sent (s : State) (k : Nat) (f : TokSlot → TokSlot) : (s.updTok k f).sent = s.sent := rfl
@[simp] theorem State.updTok_boot (s : State) (k : Nat) (f : TokSlot → TokSlot) : (s.updTok k f).boot = s.boot := rfl

@[simp] theorem State.updCarder_agenda (s : State) (d o : Nat) (f : Carder → Carder) : (s.updCarder d o f).agenda = s.agenda := rfl
@[simp] theorem State.updCarder_free (s : State) (d o : Nat) (f : Carder → Carder) : (s.updCarder d o f).free = s.free := rfl
@[simp] theorem State.updCarder_cur (s : State) (d o : Nat) (f : Carder → Carder) : (s.updCarder d o f).cur = s.cur := rfl
@[simp] theorem State.updCarder_mem (s : State) (d o : Nat) (f : Carder → Carder) : (s.updCarder d o f).mem = s.mem := rfl
@[simp] theorem State.updCarder_poison (s : State) (d o : Nat) (f : Carder → Carder) : (s.updCarder d o f).poison = s.poison := rfl
@[simp] theorem State.updCarder_inflight (s : State) (d o : Nat) (f : Carder → Carder) : (s.updCarder d o f).inflight = s.inflight := rfl
@[simp] theorem State.updCarder_regs (s : State) (d o : Nat) (f : Carder → Carder) : (s.updCarder d o f).regs = s.regs := rfl
@[simp] theorem State.updCarder_tlb (s : State) (d o : Nat) (f : Carder → Carder) : (s.updCarder d o f).tlb = s.tlb := rfl
@[simp] theorem State.updCarder_invals (s : State) (d o : Nat) (f : Carder → Carder) : (s.updCarder d o f).invals = s.invals := rfl
@[simp] theorem State.updCarder_walks (s : State) (d o : Nat) (f : Carder → Carder) : (s.updCarder d o f).walks = s.walks := rfl
@[simp] theorem State.updCarder_crews (s : State) (d o : Nat) (f : Carder → Carder) : (s.updCarder d o f).crews = s.crews := rfl
@[simp] theorem State.updCarder_epochs (s : State) (d o : Nat) (f : Carder → Carder) : (s.updCarder d o f).epochs = s.epochs := rfl
@[simp] theorem State.updCarder_gangs (s : State) (d o : Nat) (f : Carder → Carder) : (s.updCarder d o f).gangs = s.gangs := rfl
@[simp] theorem State.updCarder_nextGang (s : State) (d o : Nat) (f : Carder → Carder) : (s.updCarder d o f).nextGang = s.nextGang := rfl
@[simp] theorem State.updCarder_launches (s : State) (d o : Nat) (f : Carder → Carder) : (s.updCarder d o f).launches = s.launches := rfl
@[simp] theorem State.updCarder_nextLaunch (s : State) (d o : Nat) (f : Carder → Carder) : (s.updCarder d o f).nextLaunch = s.nextLaunch := rfl
@[simp] theorem State.updCarder_cores (s : State) (d o : Nat) (f : Carder → Carder) : (s.updCarder d o f).cores = s.cores := rfl
@[simp] theorem State.updCarder_yards (s : State) (d o : Nat) (f : Carder → Carder) : (s.updCarder d o f).yards = s.yards := rfl
@[simp] theorem State.updCarder_dies (s : State) (d o : Nat) (f : Carder → Carder) : (s.updCarder d o f).dies = s.dies := rfl
@[simp] theorem State.updCarder_pool (s : State) (d o : Nat) (f : Carder → Carder) : (s.updCarder d o f).pool = s.pool := rfl
@[simp] theorem State.updCarder_lends (s : State) (d o : Nat) (f : Carder → Carder) : (s.updCarder d o f).lends = s.lends := rfl
@[simp] theorem State.updCarder_ops (s : State) (d o : Nat) (f : Carder → Carder) : (s.updCarder d o f).ops = s.ops := rfl
@[simp] theorem State.updCarder_nextOp (s : State) (d o : Nat) (f : Carder → Carder) : (s.updCarder d o f).nextOp = s.nextOp := rfl
@[simp] theorem State.updCarder_queues (s : State) (d o : Nat) (f : Carder → Carder) : (s.updCarder d o f).queues = s.queues := rfl
@[simp] theorem State.updCarder_queueWaits (s : State) (d o : Nat) (f : Carder → Carder) : (s.updCarder d o f).queueWaits = s.queueWaits := rfl
@[simp] theorem State.updCarder_reservations (s : State) (d o : Nat) (f : Carder → Carder) : (s.updCarder d o f).reservations = s.reservations := rfl
@[simp] theorem State.updCarder_collSeq (s : State) (d o : Nat) (f : Carder → Carder) : (s.updCarder d o f).collSeq = s.collSeq := rfl
@[simp] theorem State.updCarder_contribs (s : State) (d o : Nat) (f : Carder → Carder) : (s.updCarder d o f).contribs = s.contribs := rfl
@[simp] theorem State.updCarder_benches (s : State) (d o : Nat) (f : Carder → Carder) : (s.updCarder d o f).benches = s.benches := rfl
@[simp] theorem State.updCarder_nextBench (s : State) (d o : Nat) (f : Carder → Carder) : (s.updCarder d o f).nextBench = s.nextBench := rfl
@[simp] theorem State.updCarder_mapCache (s : State) (d o : Nat) (f : Carder → Carder) : (s.updCarder d o f).mapCache = s.mapCache := rfl
@[simp] theorem State.updCarder_fire (s : State) (d o : Nat) (f : Carder → Carder) : (s.updCarder d o f).fire = s.fire := rfl
@[simp] theorem State.updCarder_producers (s : State) (d o : Nat) (f : Carder → Carder) : (s.updCarder d o f).producers = s.producers := rfl
@[simp] theorem State.updCarder_merges (s : State) (d o : Nat) (f : Carder → Carder) : (s.updCarder d o f).merges = s.merges := rfl
@[simp] theorem State.updCarder_nextGroup (s : State) (d o : Nat) (f : Carder → Carder) : (s.updCarder d o f).nextGroup = s.nextGroup := rfl
@[simp] theorem State.updCarder_cmds (s : State) (d o : Nat) (f : Carder → Carder) : (s.updCarder d o f).cmds = s.cmds := rfl
@[simp] theorem State.updCarder_nextCmd (s : State) (d o : Nat) (f : Carder → Carder) : (s.updCarder d o f).nextCmd = s.nextCmd := rfl
@[simp] theorem State.updCarder_restarting (s : State) (d o : Nat) (f : Carder → Carder) : (s.updCarder d o f).restarting = s.restarting := rfl
@[simp] theorem State.updCarder_parts (s : State) (d o : Nat) (f : Carder → Carder) : (s.updCarder d o f).parts = s.parts := rfl
@[simp] theorem State.updCarder_dev (s : State) (d o : Nat) (f : Carder → Carder) : (s.updCarder d o f).dev = s.dev := rfl
@[simp] theorem State.updCarder_domain (s : State) (d o : Nat) (f : Carder → Carder) : (s.updCarder d o f).domain = s.domain := rfl
@[simp] theorem State.updCarder_ports (s : State) (d o : Nat) (f : Carder → Carder) : (s.updCarder d o f).ports = s.ports := rfl
@[simp] theorem State.updCarder_outstanding (s : State) (d o : Nat) (f : Carder → Carder) : (s.updCarder d o f).outstanding = s.outstanding := rfl
@[simp] theorem State.updCarder_nextSeq (s : State) (d o : Nat) (f : Carder → Carder) : (s.updCarder d o f).nextSeq = s.nextSeq := rfl
@[simp] theorem State.updCarder_seen (s : State) (d o : Nat) (f : Carder → Carder) : (s.updCarder d o f).seen = s.seen := rfl
@[simp] theorem State.updCarder_rdmas (s : State) (d o : Nat) (f : Carder → Carder) : (s.updCarder d o f).rdmas = s.rdmas := rfl
@[simp] theorem State.updCarder_nextRdma (s : State) (d o : Nat) (f : Carder → Carder) : (s.updCarder d o f).nextRdma = s.nextRdma := rfl
@[simp] theorem State.updCarder_windowAcks (s : State) (d o : Nat) (f : Carder → Carder) : (s.updCarder d o f).windowAcks = s.windowAcks := rfl
@[simp] theorem State.updCarder_unitLines (s : State) (d o : Nat) (f : Carder → Carder) : (s.updCarder d o f).unitLines = s.unitLines := rfl
@[simp] theorem State.updCarder_dieFrames (s : State) (d o : Nat) (f : Carder → Carder) : (s.updCarder d o f).dieFrames = s.dieFrames := rfl
@[simp] theorem State.updCarder_tokSeen (s : State) (d o : Nat) (f : Carder → Carder) : (s.updCarder d o f).tokSeen = s.tokSeen := rfl
@[simp] theorem State.updCarder_hubErrs (s : State) (d o : Nat) (f : Carder → Carder) : (s.updCarder d o f).hubErrs = s.hubErrs := rfl
@[simp] theorem State.updCarder_sent (s : State) (d o : Nat) (f : Carder → Carder) : (s.updCarder d o f).sent = s.sent := rfl
@[simp] theorem State.updCarder_boot (s : State) (d o : Nat) (f : Carder → Carder) : (s.updCarder d o f).boot = s.boot := rfl

@[simp] theorem State.updPort_agenda (s : State) (k : Nat) (f : Port → Port) : (s.updPort k f).agenda = s.agenda := rfl
@[simp] theorem State.updPort_free (s : State) (k : Nat) (f : Port → Port) : (s.updPort k f).free = s.free := rfl
@[simp] theorem State.updPort_cur (s : State) (k : Nat) (f : Port → Port) : (s.updPort k f).cur = s.cur := rfl
@[simp] theorem State.updPort_mem (s : State) (k : Nat) (f : Port → Port) : (s.updPort k f).mem = s.mem := rfl
@[simp] theorem State.updPort_poison (s : State) (k : Nat) (f : Port → Port) : (s.updPort k f).poison = s.poison := rfl
@[simp] theorem State.updPort_inflight (s : State) (k : Nat) (f : Port → Port) : (s.updPort k f).inflight = s.inflight := rfl
@[simp] theorem State.updPort_regs (s : State) (k : Nat) (f : Port → Port) : (s.updPort k f).regs = s.regs := rfl
@[simp] theorem State.updPort_tlb (s : State) (k : Nat) (f : Port → Port) : (s.updPort k f).tlb = s.tlb := rfl
@[simp] theorem State.updPort_invals (s : State) (k : Nat) (f : Port → Port) : (s.updPort k f).invals = s.invals := rfl
@[simp] theorem State.updPort_walks (s : State) (k : Nat) (f : Port → Port) : (s.updPort k f).walks = s.walks := rfl
@[simp] theorem State.updPort_crews (s : State) (k : Nat) (f : Port → Port) : (s.updPort k f).crews = s.crews := rfl
@[simp] theorem State.updPort_epochs (s : State) (k : Nat) (f : Port → Port) : (s.updPort k f).epochs = s.epochs := rfl
@[simp] theorem State.updPort_gangs (s : State) (k : Nat) (f : Port → Port) : (s.updPort k f).gangs = s.gangs := rfl
@[simp] theorem State.updPort_nextGang (s : State) (k : Nat) (f : Port → Port) : (s.updPort k f).nextGang = s.nextGang := rfl
@[simp] theorem State.updPort_launches (s : State) (k : Nat) (f : Port → Port) : (s.updPort k f).launches = s.launches := rfl
@[simp] theorem State.updPort_nextLaunch (s : State) (k : Nat) (f : Port → Port) : (s.updPort k f).nextLaunch = s.nextLaunch := rfl
@[simp] theorem State.updPort_cores (s : State) (k : Nat) (f : Port → Port) : (s.updPort k f).cores = s.cores := rfl
@[simp] theorem State.updPort_yards (s : State) (k : Nat) (f : Port → Port) : (s.updPort k f).yards = s.yards := rfl
@[simp] theorem State.updPort_dies (s : State) (k : Nat) (f : Port → Port) : (s.updPort k f).dies = s.dies := rfl
@[simp] theorem State.updPort_pool (s : State) (k : Nat) (f : Port → Port) : (s.updPort k f).pool = s.pool := rfl
@[simp] theorem State.updPort_carders (s : State) (k : Nat) (f : Port → Port) : (s.updPort k f).carders = s.carders := rfl
@[simp] theorem State.updPort_lends (s : State) (k : Nat) (f : Port → Port) : (s.updPort k f).lends = s.lends := rfl
@[simp] theorem State.updPort_ops (s : State) (k : Nat) (f : Port → Port) : (s.updPort k f).ops = s.ops := rfl
@[simp] theorem State.updPort_nextOp (s : State) (k : Nat) (f : Port → Port) : (s.updPort k f).nextOp = s.nextOp := rfl
@[simp] theorem State.updPort_queues (s : State) (k : Nat) (f : Port → Port) : (s.updPort k f).queues = s.queues := rfl
@[simp] theorem State.updPort_queueWaits (s : State) (k : Nat) (f : Port → Port) : (s.updPort k f).queueWaits = s.queueWaits := rfl
@[simp] theorem State.updPort_reservations (s : State) (k : Nat) (f : Port → Port) : (s.updPort k f).reservations = s.reservations := rfl
@[simp] theorem State.updPort_collSeq (s : State) (k : Nat) (f : Port → Port) : (s.updPort k f).collSeq = s.collSeq := rfl
@[simp] theorem State.updPort_contribs (s : State) (k : Nat) (f : Port → Port) : (s.updPort k f).contribs = s.contribs := rfl
@[simp] theorem State.updPort_benches (s : State) (k : Nat) (f : Port → Port) : (s.updPort k f).benches = s.benches := rfl
@[simp] theorem State.updPort_nextBench (s : State) (k : Nat) (f : Port → Port) : (s.updPort k f).nextBench = s.nextBench := rfl
@[simp] theorem State.updPort_mapCache (s : State) (k : Nat) (f : Port → Port) : (s.updPort k f).mapCache = s.mapCache := rfl
@[simp] theorem State.updPort_fire (s : State) (k : Nat) (f : Port → Port) : (s.updPort k f).fire = s.fire := rfl
@[simp] theorem State.updPort_producers (s : State) (k : Nat) (f : Port → Port) : (s.updPort k f).producers = s.producers := rfl
@[simp] theorem State.updPort_merges (s : State) (k : Nat) (f : Port → Port) : (s.updPort k f).merges = s.merges := rfl
@[simp] theorem State.updPort_nextGroup (s : State) (k : Nat) (f : Port → Port) : (s.updPort k f).nextGroup = s.nextGroup := rfl
@[simp] theorem State.updPort_cmds (s : State) (k : Nat) (f : Port → Port) : (s.updPort k f).cmds = s.cmds := rfl
@[simp] theorem State.updPort_nextCmd (s : State) (k : Nat) (f : Port → Port) : (s.updPort k f).nextCmd = s.nextCmd := rfl
@[simp] theorem State.updPort_restarting (s : State) (k : Nat) (f : Port → Port) : (s.updPort k f).restarting = s.restarting := rfl
@[simp] theorem State.updPort_parts (s : State) (k : Nat) (f : Port → Port) : (s.updPort k f).parts = s.parts := rfl
@[simp] theorem State.updPort_dev (s : State) (k : Nat) (f : Port → Port) : (s.updPort k f).dev = s.dev := rfl
@[simp] theorem State.updPort_domain (s : State) (k : Nat) (f : Port → Port) : (s.updPort k f).domain = s.domain := rfl
@[simp] theorem State.updPort_outstanding (s : State) (k : Nat) (f : Port → Port) : (s.updPort k f).outstanding = s.outstanding := rfl
@[simp] theorem State.updPort_nextSeq (s : State) (k : Nat) (f : Port → Port) : (s.updPort k f).nextSeq = s.nextSeq := rfl
@[simp] theorem State.updPort_seen (s : State) (k : Nat) (f : Port → Port) : (s.updPort k f).seen = s.seen := rfl
@[simp] theorem State.updPort_rdmas (s : State) (k : Nat) (f : Port → Port) : (s.updPort k f).rdmas = s.rdmas := rfl
@[simp] theorem State.updPort_nextRdma (s : State) (k : Nat) (f : Port → Port) : (s.updPort k f).nextRdma = s.nextRdma := rfl
@[simp] theorem State.updPort_windowAcks (s : State) (k : Nat) (f : Port → Port) : (s.updPort k f).windowAcks = s.windowAcks := rfl
@[simp] theorem State.updPort_unitLines (s : State) (k : Nat) (f : Port → Port) : (s.updPort k f).unitLines = s.unitLines := rfl
@[simp] theorem State.updPort_dieFrames (s : State) (k : Nat) (f : Port → Port) : (s.updPort k f).dieFrames = s.dieFrames := rfl
@[simp] theorem State.updPort_tokSeen (s : State) (k : Nat) (f : Port → Port) : (s.updPort k f).tokSeen = s.tokSeen := rfl
@[simp] theorem State.updPort_hubErrs (s : State) (k : Nat) (f : Port → Port) : (s.updPort k f).hubErrs = s.hubErrs := rfl
@[simp] theorem State.updPort_sent (s : State) (k : Nat) (f : Port → Port) : (s.updPort k f).sent = s.sent := rfl
@[simp] theorem State.updPort_boot (s : State) (k : Nat) (f : Port → Port) : (s.updPort k f).boot = s.boot := rfl

@[simp] theorem State.bumpFree_agenda (s : State) : (s.bumpFree).agenda = s.agenda := rfl
@[simp] theorem State.bumpFree_cur (s : State) : (s.bumpFree).cur = s.cur := rfl
@[simp] theorem State.bumpFree_mem (s : State) : (s.bumpFree).mem = s.mem := rfl
@[simp] theorem State.bumpFree_poison (s : State) : (s.bumpFree).poison = s.poison := rfl
@[simp] theorem State.bumpFree_inflight (s : State) : (s.bumpFree).inflight = s.inflight := rfl
@[simp] theorem State.bumpFree_regs (s : State) : (s.bumpFree).regs = s.regs := rfl
@[simp] theorem State.bumpFree_tlb (s : State) : (s.bumpFree).tlb = s.tlb := rfl
@[simp] theorem State.bumpFree_invals (s : State) : (s.bumpFree).invals = s.invals := rfl
@[simp] theorem State.bumpFree_walks (s : State) : (s.bumpFree).walks = s.walks := rfl
@[simp] theorem State.bumpFree_crews (s : State) : (s.bumpFree).crews = s.crews := rfl
@[simp] theorem State.bumpFree_epochs (s : State) : (s.bumpFree).epochs = s.epochs := rfl
@[simp] theorem State.bumpFree_gangs (s : State) : (s.bumpFree).gangs = s.gangs := rfl
@[simp] theorem State.bumpFree_nextGang (s : State) : (s.bumpFree).nextGang = s.nextGang := rfl
@[simp] theorem State.bumpFree_launches (s : State) : (s.bumpFree).launches = s.launches := rfl
@[simp] theorem State.bumpFree_nextLaunch (s : State) : (s.bumpFree).nextLaunch = s.nextLaunch := rfl
@[simp] theorem State.bumpFree_cores (s : State) : (s.bumpFree).cores = s.cores := rfl
@[simp] theorem State.bumpFree_yards (s : State) : (s.bumpFree).yards = s.yards := rfl
@[simp] theorem State.bumpFree_dies (s : State) : (s.bumpFree).dies = s.dies := rfl
@[simp] theorem State.bumpFree_pool (s : State) : (s.bumpFree).pool = s.pool := rfl
@[simp] theorem State.bumpFree_carders (s : State) : (s.bumpFree).carders = s.carders := rfl
@[simp] theorem State.bumpFree_lends (s : State) : (s.bumpFree).lends = s.lends := rfl
@[simp] theorem State.bumpFree_ops (s : State) : (s.bumpFree).ops = s.ops := rfl
@[simp] theorem State.bumpFree_nextOp (s : State) : (s.bumpFree).nextOp = s.nextOp := rfl
@[simp] theorem State.bumpFree_queues (s : State) : (s.bumpFree).queues = s.queues := rfl
@[simp] theorem State.bumpFree_queueWaits (s : State) : (s.bumpFree).queueWaits = s.queueWaits := rfl
@[simp] theorem State.bumpFree_reservations (s : State) : (s.bumpFree).reservations = s.reservations := rfl
@[simp] theorem State.bumpFree_collSeq (s : State) : (s.bumpFree).collSeq = s.collSeq := rfl
@[simp] theorem State.bumpFree_contribs (s : State) : (s.bumpFree).contribs = s.contribs := rfl
@[simp] theorem State.bumpFree_benches (s : State) : (s.bumpFree).benches = s.benches := rfl
@[simp] theorem State.bumpFree_nextBench (s : State) : (s.bumpFree).nextBench = s.nextBench := rfl
@[simp] theorem State.bumpFree_mapCache (s : State) : (s.bumpFree).mapCache = s.mapCache := rfl
@[simp] theorem State.bumpFree_fire (s : State) : (s.bumpFree).fire = s.fire := rfl
@[simp] theorem State.bumpFree_producers (s : State) : (s.bumpFree).producers = s.producers := rfl
@[simp] theorem State.bumpFree_merges (s : State) : (s.bumpFree).merges = s.merges := rfl
@[simp] theorem State.bumpFree_nextGroup (s : State) : (s.bumpFree).nextGroup = s.nextGroup := rfl
@[simp] theorem State.bumpFree_cmds (s : State) : (s.bumpFree).cmds = s.cmds := rfl
@[simp] theorem State.bumpFree_nextCmd (s : State) : (s.bumpFree).nextCmd = s.nextCmd := rfl
@[simp] theorem State.bumpFree_restarting (s : State) : (s.bumpFree).restarting = s.restarting := rfl
@[simp] theorem State.bumpFree_parts (s : State) : (s.bumpFree).parts = s.parts := rfl
@[simp] theorem State.bumpFree_dev (s : State) : (s.bumpFree).dev = s.dev := rfl
@[simp] theorem State.bumpFree_domain (s : State) : (s.bumpFree).domain = s.domain := rfl
@[simp] theorem State.bumpFree_ports (s : State) : (s.bumpFree).ports = s.ports := rfl
@[simp] theorem State.bumpFree_outstanding (s : State) : (s.bumpFree).outstanding = s.outstanding := rfl
@[simp] theorem State.bumpFree_nextSeq (s : State) : (s.bumpFree).nextSeq = s.nextSeq := rfl
@[simp] theorem State.bumpFree_seen (s : State) : (s.bumpFree).seen = s.seen := rfl
@[simp] theorem State.bumpFree_rdmas (s : State) : (s.bumpFree).rdmas = s.rdmas := rfl
@[simp] theorem State.bumpFree_nextRdma (s : State) : (s.bumpFree).nextRdma = s.nextRdma := rfl
@[simp] theorem State.bumpFree_windowAcks (s : State) : (s.bumpFree).windowAcks = s.windowAcks := rfl
@[simp] theorem State.bumpFree_unitLines (s : State) : (s.bumpFree).unitLines = s.unitLines := rfl
@[simp] theorem State.bumpFree_dieFrames (s : State) : (s.bumpFree).dieFrames = s.dieFrames := rfl
@[simp] theorem State.bumpFree_tokSeen (s : State) : (s.bumpFree).tokSeen = s.tokSeen := rfl
@[simp] theorem State.bumpFree_hubErrs (s : State) : (s.bumpFree).hubErrs = s.hubErrs := rfl
@[simp] theorem State.bumpFree_sent (s : State) : (s.bumpFree).sent = s.sent := rfl
@[simp] theorem State.bumpFree_boot (s : State) : (s.bumpFree).boot = s.boot := rfl

end Sys2Proof.Machine
end

