-- ==== Sys2Proof/Laws/Slots.lean ====
section
/-!
SUPPORT. Sys2Proof/Laws/Slots.lean: what the operations that every slot shares do: register writes at commit, transients, lane results, and the end of
a slot.
-/
namespace Sys2Proof.Machine

/-! ## Lanes -/

theorem mem_lanesOf {m : Word} {l : Nat} : l ∈ lanesOf m ↔ l < 32 ∧ m.getLsbD l = true := by simp [lanesOf]

theorem lanesOf_nodup (m : Word) : (lanesOf m).Nodup := List.Pairwise.filter _ List.nodup_range

theorem on_lt {s : State} {g : Guard} {l : Nat} (h : l ∈ s.on g) : l < 32 := (mem_lanesOf.1 h).1

/-- What a list of lane results holds for a lane. -/
theorem Cells.find_map {α : Type} (ls : List Nat) (v : Nat → α) (l : Nat) :
    Cells.find (ls.map fun l => (l, v l)) l = if l ∈ ls then some (v l) else none := by
  induction ls with
  | nil => simp [Cells.find]
  | cons k r ih =>
    by_cases h : k = l
    · simp [Cells.find, h]
    · simp [Cells.find, h, ih, Ne.symm h]

/-- The results, flags and generators of a slot's lanes: each lane by itself. -/
theorem runLanes_fst (f : Nat → Word → LaneOut) (ls : List Nat) (h : ls.Nodup) (gens : Tbl Word) :
    (runLanes f gens ls).1 = ls.map fun l => (l, (f l (gens.get l)).val) := by
  induction ls generalizing gens with
  | nil => rfl
  | cons k r ih =>
    obtain ⟨hk, hr⟩ := List.nodup_cons.1 h
    simp only [runLanes, List.map_cons, ih hr, List.cons.injEq, true_and]
    refine List.map_congr_left fun l hl => ?_
    split
    · rfl
    · rw [Tbl.get_putc, if_neg (fun e : l = k => hk (e ▸ hl))]

theorem runLanes_flags (f : Nat → Word → LaneOut) (ls : List Nat) (h : ls.Nodup) (gens : Tbl Word) (b : Nat) :
    (runLanes f gens ls).2.1.getLsbD b = ls.any fun l => (f l (gens.get l)).fl.getLsbD b := by
  induction ls generalizing gens with
  | nil => simp [runLanes]
  | cons k r ih =>
    obtain ⟨hk, hr⟩ := List.nodup_cons.1 h
    simp only [runLanes, BitVec.getLsbD_or, ih hr, List.any_cons]
    congr 1
    rw [Bool.eq_iff_iff, List.any_eq_true, List.any_eq_true]
    refine exists_congr fun l => and_congr_right fun hl => ?_
    split
    · rfl
    · rw [Tbl.get_putc, if_neg (fun e : l = k => hk (e ▸ hl))]

theorem runLanes_gens (f : Nat → Word → LaneOut) (ls : List Nat) (h : ls.Nodup) (gens : Tbl Word) (l : Nat) :
    (runLanes f gens ls).2.2.get l = if l ∈ ls then (f l (gens.get l)).gen else gens.get l := by
  induction ls generalizing gens with
  | nil => simp [runLanes]
  | cons k r ih =>
    obtain ⟨hk, hr⟩ := List.nodup_cons.1 h
    simp only [runLanes, ih hr, List.mem_cons]
    by_cases hl : l = k
    · subst hl
      simp only [hk, if_false, true_or, if_true]
      split
      · next e => rw [e]
      · rw [Tbl.get_putc_same]
    · have e : (if (f k (gens.get k)).gen = gens.get k then gens else gens.putc k (f k (gens.get k)).gen).get l = gens.get l := by
        split
        · rfl
        · rw [Tbl.get_putc, if_neg hl]
      simp only [hl, false_or, e]

/-! ## Register writes at commit -/

/-- Two crews agree on every register but V. -/
theorem applyWr_v (c : Crew) (r l : Nat) (x : Word) (m k : Nat) (hl : l < 32) (hk : k < 32) :
    (c.applyWr (.v r l x)).vreg m k = if m = r ∧ k = l then x else c.vreg m k := by
  simp only [Crew.applyWr, Crew.vreg, Tbl.get_putc]
  by_cases h : m = r ∧ k = l
  · simp [h]
  · rw [if_neg h, if_neg (by omega)]

theorem applyWr_p (c : Crew) (n l : Nat) (b : Bool) (m k : Nat) (hl : l < 32) (hk : k < 32) :
    ((c.applyWr (.p n l b)).p.get m).getLsbD k = if m = n ∧ k = l then b else (c.p.get m).getLsbD k := by
  simp only [Crew.applyWr, Tbl.get_putc]
  by_cases h : m = n
  · subst h
    have e : (laneBit l).getLsbD k = decide (k = l) := by
      simp only [laneBit, BitVec.getLsbD_shiftLeft, BitVec.getLsbD_one]
      rw [Bool.eq_iff_iff]; simp; omega
    have h1 : ((c.p.get m) ||| laneBit l).getLsbD k = (((c.p.get m).getLsbD k) || decide (k = l)) := by rw [BitVec.getLsbD_or, e]
    have h2 : ((c.p.get m) &&& ~~~laneBit l).getLsbD k = (((c.p.get m).getLsbD k) && !decide (k = l)) := by
      rw [BitVec.getLsbD_and, BitVec.getLsbD_not, e]; simp [hk]
    cases b
    · simp only [Bool.false_eq_true, if_false, if_true, h2, true_and]; by_cases hkl : k = l <;> simp only [hkl, if_true, if_false] <;> simp
    · simp only [if_true, h1, true_and]; by_cases hkl : k = l <;> simp only [hkl, if_true, if_false] <;> simp
  · simp [h]

/-- What a staged write leaves: each kind touches its own registers. -/
theorem applyWr_frame (c : Crew) (w : Wr) :
    ((∀ r l x, w ≠ .v r l x) → (c.applyWr w).v = c.v) ∧ ((∀ n x, w ≠ .s n x) → (c.applyWr w).s = c.s) ∧
    ((∀ n l b, w ≠ .p n l b) → (c.applyWr w).p = c.p) ∧ ((∀ i x, w ≠ .d i x) → (c.applyWr w).d = c.d) ∧
    ((∀ x, w ≠ .seed x) → (c.applyWr w).seed = c.seed) := by
  cases w <;> simp [Crew.applyWr]

/-- A slot's V writes. -/
theorem land_v (ls : List Nat) (h : ls.Nodup) (hb : ∀ l ∈ ls, l < 32) (n : BitVec 8) (wide sx : Bool) (v : Nat → DWord) (c : Crew) (m l : Nat)
    (hl : l < 32) :
    ((dstWrites (.v n) wide sx (ls.map fun l => (l, v l))).foldl Crew.applyWr c).vreg m l =
      if l ∈ ls ∧ wide = true ∧ m = n.toNat + 1 then (v l).extractLsb' 32 32
      else if l ∈ ls ∧ m = n.toNat then (v l).setWidth 32
      else c.vreg m l := by
  induction ls generalizing c with
  | nil => simp [dstWrites]
  | cons k r ih =>
    obtain ⟨hk, hr⟩ := List.nodup_cons.1 h
    have hk32 := hb k List.mem_cons_self
    have ih' := fun c => ih hr (fun l hl => hb l (List.mem_cons_of_mem _ hl)) c
    simp only [dstWrites, List.map_cons, List.flatMap_cons, List.foldl_append] at ih' ⊢
    rw [ih']
    have base : (List.foldl Crew.applyWr c (if wide = true then [Wr.v n.toNat k ((v k).setWidth 32),
        Wr.v (n.toNat + 1) k ((v k).extractLsb' 32 32)] else [Wr.v n.toNat k ((v k).setWidth 32)])).vreg m l =
        if l = k ∧ wide = true ∧ m = n.toNat + 1 then (v k).extractLsb' 32 32
        else if l = k ∧ m = n.toNat then (v k).setWidth 32 else c.vreg m l := by
      cases wide <;> simp only [Bool.false_eq_true, if_false, if_true, List.foldl_cons, List.foldl_nil, applyWr_v _ _ _ _ _ _ hk32 hl,
        false_and, true_and, and_false] <;>
        by_cases h1 : l = k <;> by_cases h2 : m = n.toNat + 1 <;> by_cases h3 : m = n.toNat <;> simp [h1, h2, h3]
    rw [base]
    by_cases h1 : l = k
    · subst h1; simp [hk]
    · simp [h1, List.mem_cons]

/-- A slot's P writes. -/
theorem land_p (ls : List Nat) (h : ls.Nodup) (hb : ∀ l ∈ ls, l < 32) (n : BitVec 3) (wide sx : Bool) (v : Nat → DWord) (c : Crew) (m l : Nat)
    (hl : l < 32) :
    (((dstWrites (.p n) wide sx (ls.map fun l => (l, v l))).foldl Crew.applyWr c).p.get m).getLsbD l =
      if l ∈ ls ∧ n ≠ 7 ∧ m = n.toNat then (v l).getLsbD 0 else (c.p.get m).getLsbD l := by
  by_cases h7 : n = 7
  · simp [dstWrites, h7]
  · simp only [dstWrites, h7, if_false]
    induction ls generalizing c with
    | nil => simp
    | cons k r ih =>
      obtain ⟨hk, hr⟩ := List.nodup_cons.1 h
      have hk32 := hb k List.mem_cons_self
      have ih' := fun c => ih hr (fun l hl => hb l (List.mem_cons_of_mem _ hl)) c
      simp only [List.map_cons, List.foldl_cons, ih', applyWr_p _ _ _ _ _ _ hk32 hl]
      by_cases h1 : l = k
      · subst h1; by_cases h2 : m = n.toNat <;> simp only [hk, h2, h7, List.mem_cons, true_or, and_true, and_false,
          if_true, if_false, ne_eq, not_false_eq_true]
      · by_cases h2 : m = n.toNat <;> simp [h1, h2, List.mem_cons]

/-- What the writes of a destination leave. -/
theorem dstWrites_frame (d : Dst) (wide sx : Bool) (rs : List (Nat × DWord)) (c : Crew) :
    let c' := (dstWrites d wide sx rs).foldl Crew.applyWr c
    ((∀ n, d ≠ .v n) → c'.v = c.v) ∧ ((∀ n, d ≠ .s n) → c'.s = c.s) ∧ ((∀ n, d ≠ .p n) → c'.p = c.p) ∧ c'.d = c.d ∧ c'.seed = c.seed := by
  have fold : ∀ (ws : List Wr) (c : Crew),
      ((∀ w ∈ ws, ∀ r l x, w ≠ .v r l x) → (ws.foldl Crew.applyWr c).v = c.v) ∧
      ((∀ w ∈ ws, ∀ n x, w ≠ .s n x) → (ws.foldl Crew.applyWr c).s = c.s) ∧
      ((∀ w ∈ ws, ∀ n l b, w ≠ .p n l b) → (ws.foldl Crew.applyWr c).p = c.p) ∧
      ((∀ w ∈ ws, ∀ i x, w ≠ .d i x) → (ws.foldl Crew.applyWr c).d = c.d) ∧
      ((∀ w ∈ ws, ∀ x, w ≠ .seed x) → (ws.foldl Crew.applyWr c).seed = c.seed) := by
    intro ws
    induction ws with
    | nil => intro c; simp
    | cons w r ih =>
      intro c
      obtain ⟨i1, i2, i3, i4, i5⟩ := ih (c.applyWr w)
      obtain ⟨f1, f2, f3, f4, f5⟩ := applyWr_frame c w
      simp only [List.foldl_cons, List.forall_mem_cons]
      exact ⟨fun h => (i1 h.2).trans (f1 h.1), fun h => (i2 h.2).trans (f2 h.1), fun h => (i3 h.2).trans (f3 h.1),
        fun h => (i4 h.2).trans (f4 h.1), fun h => (i5 h.2).trans (f5 h.1)⟩
  obtain ⟨h1, h2, h3, h4, h5⟩ := fold (dstWrites d wide sx rs) c
  have kinds : ∀ w ∈ dstWrites d wide sx rs, (∃ n r l x, d = .v n ∧ w = .v r l x) ∨ (∃ n m x, d = .s n ∧ w = .s m x) ∨
      (∃ n m l b, d = .p n ∧ w = .p m l b) := by
    intro w hw
    cases d with
    | v n =>
      simp only [dstWrites, List.mem_flatMap] at hw
      obtain ⟨r, -, hr⟩ := hw
      split at hr <;> simp only [List.mem_cons, List.not_mem_nil, or_false] at hr
      · rcases hr with rfl | rfl <;> exact .inl ⟨_, _, _, _, rfl, rfl⟩
      · subst hr; exact .inl ⟨_, _, _, _, rfl, rfl⟩
    | trans => simp [dstWrites] at hw
    | s n =>
      cases rs with
      | nil => simp [dstWrites] at hw
      | cons r rs => simp only [dstWrites, List.mem_singleton] at hw; subst hw; exact .inr (.inl ⟨_, _, _, rfl, rfl⟩)
    | p n =>
      simp only [dstWrites] at hw
      split at hw
      · simp at hw
      · simp only [List.mem_map] at hw
        obtain ⟨r, -, rfl⟩ := hw
        exact .inr (.inr ⟨_, _, _, _, rfl, rfl⟩)
  refine ⟨fun h => h1 fun w hw r l x e => ?_, fun h => h2 fun w hw n x e => ?_, fun h => h3 fun w hw n l b e => ?_,
    h4 fun w hw i x e => ?_, h5 fun w hw x e => ?_⟩ <;>
    rcases kinds w hw with ⟨_, _, _, _, hd, hw'⟩ | ⟨_, _, _, hd, hw'⟩ | ⟨_, _, _, _, hd, hw'⟩ <;> first
      | exact absurd hd (h _)
      | (rw [hw'] at e; cases e)

/-! ## Transients -/

theorem putTrans_get (t : Tbl DWord) (slot : Nat) (f : Nat → DWord) (k : Nat) :
    (putTrans t slot f).get k = if k / 32 = slot then f (k % 32) else t.get k := by
  have fold : ∀ (ls : List Nat) (t : Tbl DWord), (∀ l ∈ ls, l < 32) →
      (ls.foldl (fun t l => t.putc (slot * 32 + l) (f l)) t).get k = if k / 32 = slot ∧ k % 32 ∈ ls then f (k % 32) else t.get k := by
    intro ls
    induction ls with
    | nil => intro t _; simp
    | cons l r ih =>
      intro t hb
      have hl := hb l List.mem_cons_self
      simp only [List.foldl_cons, ih _ (fun l hl => hb l (List.mem_cons_of_mem _ hl)), Tbl.get_putc, List.mem_cons]
      by_cases h1 : k / 32 = slot ∧ k % 32 ∈ r
      · simp [h1]
      · by_cases h2 : k = slot * 32 + l
        · have h3 : k / 32 = slot ∧ k % 32 = l := by omega
          rw [if_neg h1, if_pos h2, if_pos ⟨h3.1, .inl h3.2⟩, h3.2]
        · have : ¬(k / 32 = slot ∧ k % 32 = l) := by omega
          rw [if_neg h1, if_neg h2, if_neg fun h => h.2.elim (fun e => this ⟨h.1, e⟩) fun e => h1 ⟨h.1, e⟩]
  rw [putTrans, fold _ _ (by simp)]
  have : k % 32 ∈ List.range 32 := List.mem_range.2 (Nat.mod_lt _ (by decide))
  simp [this]

/-! ## The end of a slot -/

theorem endSlot_ends (s : State) (d : Dst) (wide sx : Bool) (rs : List (Nat × DWord)) (fl : Flags5) (gens : Tbl Word) :
    SlotEnds s (s.setMe (endSlot s.me d wide sx rs fl gens)) :=
  ⟨by simp [endSlot], by simp only [State.me_setMe]; rfl⟩

/-- The crew that a state lands, after a slot that ended. -/
theorem endSlot_landed (s : State) (d : Dst) (wide sx : Bool) (rs : List (Nat × DWord)) (fl : Flags5) (gens : Tbl Word) :
    ∃ c0 : Crew, (s.setMe (endSlot s.me d wide sx rs fl gens)).landed = (dstWrites d wide sx rs).foldl Crew.applyWr c0 ∧
      c0.v = s.landed.v ∧ c0.s = s.landed.s ∧ c0.p = s.landed.p ∧ c0.d = s.landed.d ∧ c0.seed = s.landed.seed := by
  have agree : ∀ (ws : List Wr) (a b : Crew), a.v = b.v → a.s = b.s → a.p = b.p → a.d = b.d → a.seed = b.seed →
      let a' := ws.foldl Crew.applyWr a
      let b' := ws.foldl Crew.applyWr b
      a'.v = b'.v ∧ a'.s = b'.s ∧ a'.p = b'.p ∧ a'.d = b'.d ∧ a'.seed = b'.seed := by
    intro ws
    induction ws with
    | nil => intro a b h1 h2 h3 h4 h5; exact ⟨h1, h2, h3, h4, h5⟩
    | cons w r ih =>
      intro a b h1 h2 h3 h4 h5
      simp only [List.foldl_cons]
      exact ih _ _ (by cases w <;> simp [Crew.applyWr, h1]) (by cases w <;> simp [Crew.applyWr, h2])
        (by cases w <;> simp [Crew.applyWr, h3]) (by cases w <;> simp [Crew.applyWr, h4]) (by cases w <;> simp [Crew.applyWr, h5])
  refine ⟨s.me.sett.wr.foldl Crew.applyWr { endSlot s.me d wide sx rs fl gens with
      fpsr := orFlags s.me.fpsr (s.me.sett.flags ||| fl), gens := gens }, ?_, ?_⟩
  · simp [State.landed, Crew.applyWrs, endSlot, Sett.advance, List.foldl_append]
  · have h := agree s.me.sett.wr
      { endSlot s.me d wide sx rs fl gens with fpsr := orFlags s.me.fpsr (s.me.sett.flags ||| fl), gens := gens }
      { s.me with fpsr := orFlags s.me.fpsr s.me.sett.flags, gens := s.me.sett.gens } rfl rfl rfl rfl rfl
    exact h

theorem endSlot_lands (s : State) (g : Guard) (d : Dst) (wide sx : Bool) (v : Nat → DWord) (fl : Flags5) (gens : Tbl Word) :
    Lands s (s.setMe (endSlot s.me d wide sx ((s.on g).map fun l => (l, v l)) fl gens)) g d wide sx v := by
  obtain ⟨c0, h, hv, hs, hp, hd, hseed⟩ := endSlot_landed s d wide sx ((s.on g).map fun l => (l, v l)) fl gens
  have nd : (s.on g).Nodup := lanesOf_nodup _
  have lt : ∀ l ∈ s.on g, l < 32 := fun l => on_lt
  obtain ⟨f1, f2, f3, f4, f5⟩ := dstWrites_frame d wide sx ((s.on g).map fun l => (l, v l)) c0
  refine ⟨fun m l hl => ?_, fun m => ?_, fun m l hl => ?_, fun k => ?_, ?_⟩
  · rw [h]
    cases d with
    | v n => rw [land_v _ nd lt n wide sx v c0 m l hl]; simp only [landV, Crew.vreg, hv]
    | trans | s _ | p _ => simp only [landV, Crew.vreg, f1 (by simp), hv]
  · rw [h]
    cases d with
    | s n =>
      cases e : s.on g with
      | nil => simp [landS, dstWrites, Crew.sreg, hs]
      | cons l r =>
        simp only [landS, List.map_cons, dstWrites, List.foldl_cons, List.foldl_nil, Crew.applyWr, Crew.sreg, Tbl.get_putc, hs]
    | v _ | trans | p _ => simp only [landS, Crew.sreg, f2 (by simp), hs]
  · rw [h]
    cases d with
    | p n => rw [land_p _ nd lt n wide sx v c0 m l hl]; simp only [landP, hp]
    | v _ | trans | s _ => simp only [landP, f3 (by simp), hp]
  · rw [h]; simp only [Crew.dword, f4, hd]
  · rw [h]; simp only [f5, hseed]

theorem endSlot_yields (s : State) (g : Guard) (d : Dst) (wide sx : Bool) (v : Nat → DWord) (fl : Flags5) (gens : Tbl Word) :
    Yields s (s.setMe (endSlot s.me d wide sx ((s.on g).map fun l => (l, v l)) fl gens)) g d wide sx v := by
  refine ⟨fun l hl => ?_, fun n hn => ?_⟩
  · simp only [State.me_setMe, endSlot, Sett.advance, putTrans_get]
    rw [if_pos (by omega), show (s.me.sett.slot * 32 + l) % 32 = l by omega]
    have head : (((s.on g).map fun l => (l, v l)).headD (l, v l)).2 = v ((s.on g).headD l) := by cases s.on g <;> rfl
    simp only [yieldOf, transVal, Cells.find_map]
    by_cases hm : l ∈ s.on g
    · cases d <;> simp only [hm, if_true, head]
    · simp only [hm, if_false]
  · simp only [State.me_setMe, endSlot, Sett.advance, putTrans_get]
    rw [if_neg hn]

/-- What a slot that computes lane by lane does (R272, R108, R112). -/
theorem laneSlot_spec (s : State) (g : Guard) (d : Dst) (wide sx : Bool) (f : Crew → Nat → Word → LaneOut) (h : s.me.popTrap = false) :
    let v := fun l => (f s.me l (s.me.sett.gens.get l)).val
    let t := laneSlot s g d wide sx f
    SlotEnds s t ∧ Lands s t g d wide sx v ∧ Yields s t g d wide sx v ∧
    (∀ b, t.me.sett.flags.getLsbD b =
      (s.me.sett.flags.getLsbD b || (s.on g).any fun l => (f s.me l (s.me.sett.gens.get l)).fl.getLsbD b)) ∧
    ∀ l, t.me.sett.gens.get l = if l ∈ s.on g then (f s.me l (s.me.sett.gens.get l)).gen else s.me.sett.gens.get l := by
  have nd := lanesOf_nodup (s.me.guardMask g)
  have e : laneSlot s g d wide sx f = s.setMe (endSlot s.me d wide sx
      ((s.on g).map fun l => (l, (f s.me l (s.me.sett.gens.get l)).val)) (runLanes (f s.me) s.me.sett.gens (s.on g)).2.1
      (runLanes (f s.me) s.me.sett.gens (s.on g)).2.2) := by
    simp only [laneSlot, h, Bool.false_eq_true, if_false]
    have e1 : (s.on g).map (fun l => (l, (f s.me l (s.me.sett.gens.get l)).val)) =
        (runLanes (f s.me) s.me.sett.gens (s.on g)).1 := (runLanes_fst _ _ nd _).symm
    rw [e1]; rfl
  simp only [e]
  refine ⟨endSlot_ends .., endSlot_lands .., endSlot_yields .., fun b => ?_, fun l => ?_⟩
  · simp only [State.me_setMe, endSlot, Sett.advance, BitVec.getLsbD_or]
    rw [show s.on g = lanesOf (s.me.guardMask g) from rfl, runLanes_flags _ _ nd]
  · simp only [State.me_setMe, endSlot, Sett.advance]
    exact runLanes_gens _ _ nd _ _

/-- Lanes that step no generator leave them all. -/
theorem runLanes_still (f : Nat → DWord) (ls : List Nat) (gens : Tbl Word) :
    (runLanes (fun l gen => ⟨f l, 0, gen⟩) gens ls).2 = (0, gens) := by
  induction ls with
  | nil => rfl
  | cons k r ih => simp only [runLanes, if_true, ih]; rfl

/-- What a slot without flags does. -/
theorem valueSlot_spec (s : State) (g : Guard) (d : Dst) (wide sx : Bool) (f : Crew → Nat → DWord) (h : s.me.popTrap = false) :
    let t := valueSlot s g d wide sx f
    SlotEnds s t ∧ Lands s t g d wide sx (f s.me) ∧ Yields s t g d wide sx (f s.me) ∧ t.me.sett.flags = s.me.sett.flags ∧
    t.me.sett.gens = s.me.sett.gens := by
  obtain ⟨h1, h2, h3, -, -⟩ := laneSlot_spec s g d wide sx (fun c l gen => ⟨f c l, 0, gen⟩) h
  refine ⟨h1, h2, h3, ?_, ?_⟩
  · simp only [valueSlot, laneSlot, h, Bool.false_eq_true, if_false, State.me_setMe, endSlot, Sett.advance, runLanes_still]
    exact BitVec.or_zero
  · simp only [valueSlot, laneSlot, h, Bool.false_eq_true, if_false, State.me_setMe, endSlot, Sett.advance, runLanes_still]

end Sys2Proof.Machine
end

