-- ==== Sys2Proof/Laws/Unit.lean ====
section
/-!
SUPPORT. Sys2Proof/Laws/Unit.lean: what a unit's read of memory of this device gives, and translation in linear mode within the first GiB.
-/
namespace Sys2Proof.Machine

/-- In linear mode (R39) the first GiB of the device's HBM stands at its own addresses, for the partition that holds it. -/
theorem unitXlat_linear (s : State) (p va : Nat) (level : Bool) (a : Acc) (ha : va < 2 ^ 30)
    (hr : ((s.part p).ptRoot).getLsbD 0 = false) (hd : s.domain.contains 0 = true) (hh : s.holds p 0 0 = true) :
    s.unitXlat p level a va = .ok 0 va 0 := by
  have h1 : paLocal va = va := Nat.mod_eq_of_lt (by omega)
  have h2 : isAperture va = false := by simp [isAperture, isYardAp, isLocalAp]; omega
  have hl : linearLeaf va = (BitVec.ofNat 64 (2 ^ 63 + 2 ^ 62 + 2 ^ 55 + 2 ^ 54 + 2 ^ 53), 30) := by
    unfold linearLeaf
    rw [h1, h2, show va / 2 ^ 30 = 0 by omega]
    rfl
  have hk : s.leafOk p (BitVec.ofNat 64 (2 ^ 63 + 2 ^ 62 + 2 ^ 55 + 2 ^ 54 + 2 ^ 53)) 30 = true := by
    have e1 : pteAddr (BitVec.ofNat 64 (2 ^ 63 + 2 ^ 62 + 2 ^ 55 + 2 ^ 54 + 2 ^ 53)) = 0 := by decide
    have e2 : bitsOf (BitVec.ofNat 64 (2 ^ 63 + 2 ^ 62 + 2 ^ 55 + 2 ^ 54 + 2 ^ 53)) 59 3 = 0 ∧
      bitsOf (BitVec.ofNat 64 (2 ^ 63 + 2 ^ 62 + 2 ^ 55 + 2 ^ 54 + 2 ^ 53)) 0 8 = 0 ∧
      pteMtype (BitVec.ofNat 64 (2 ^ 63 + 2 ^ 62 + 2 ^ 55 + 2 ^ 54 + 2 ^ 53)) = 0 := by decide
    have e3 : paDev 0 = 0 ∧ isHbm (paLocal 0) = true ∧ granuleOf (paLocal 0) = 0 := by decide
    unfold State.leafOk
    simp only [e1, e2.1, e2.2.1, e2.2.2, e3.1, e3.2.1, e3.2.2, hh, hd]
    rw [if_pos trivial]
    rfl
  have hw : s.leafOf p noCtx va = .ok (BitVec.ofNat 64 (2 ^ 63 + 2 ^ 62 + 2 ^ 55 + 2 ^ 54 + 2 ^ 53)) 30 := by
    unfold State.leafOf State.tlbFind State.walkGlobal privBase
    simp only [hr, hl, hk]
    rw [if_neg (by omega), if_neg (by simp), if_neg (by omega)]
    rfl
  unfold State.unitXlat State.xlat
  rw [if_neg (by omega), hw]
  have e4 : leafAllows (BitVec.ofNat 64 (2 ^ 63 + 2 ^ 62 + 2 ^ 55 + 2 ^ 54 + 2 ^ 53)) a level = true := by
    cases a <;> cases level <;> decide
  have e5 : pteAddr (BitVec.ofNat 64 (2 ^ 63 + 2 ^ 62 + 2 ^ 55 + 2 ^ 54 + 2 ^ 53)) + va % 2 ^ 30 = va := by
    rw [Nat.mod_eq_of_lt ha, show pteAddr (BitVec.ofNat 64 (2 ^ 63 + 2 ^ 62 + 2 ^ 55 + 2 ^ 54 + 2 ^ 53)) = 0 by decide, Nat.zero_add]
  simp only [e4, e5, h1, h2, show paDev va = 0 by unfold paDev; omega]
  rfl

/-- A byte that translates to this device and is sound is the byte at its home. -/
theorem readAddrs_here (s : State) (got : List Line) (p va pa mt : Nat) (level : Bool) (hx : s.unitXlat p level .load va = .ok s.dev pa mt)
    (hp : s.poison = []) (hg : got = []) : s.readAddrs got (s.unitLoc p level) [va] = .val (s.mem.read pa).toNat := by
  simp [State.readAddrs, State.unitLoc, hx, firstBad, goodLocs, State.engByte, hp, hg, linePoison, leNat]

theorem gather_vals (f : Nat → Nat) (l : List Nat) : gather (l.map fun i => ElemR.val (f i)) = ⟨l.map fun i => some (f i), none, []⟩ := by
  induction l with
  | nil => rfl
  | cons a r ih => simp [gather, ih]

theorem readList_range (m : Memory) (a n : Nat) : (List.range n).map (fun i => m.read (a + i)) = m.readList a n := by
  induction n generalizing a with
  | zero => rfl
  | succ n ih =>
    rw [List.range_succ_eq_map, List.map_cons, List.map_map, Memory.readList, ← ih (a + 1)]
    simp [Function.comp_def, Nat.add_comm, Nat.add_left_comm]

/-- A unit's read of n bytes that lie at consecutive addresses of this device, none of them poisoned, gives those bytes. -/
theorem readFor_here (s : State) (tag p va n pa : Nat) (mt : Nat → Nat) (level : Bool)
    (hx : ∀ i, i < n → s.unitXlat p level .load (va + i) = .ok s.dev (pa + i) (mt i)) (hp : s.poison = []) (hl : s.unitLines = []) :
    s.readFor tag p level va n = .ok (s.mem.readList pa n) := by
  have hg : s.unitGather tag p level va n = ⟨(List.range n).map fun i => some (s.mem.read (pa + i)).toNat, none, []⟩ := by
    unfold State.unitGather
    rw [show ((List.range n).map fun i => s.readAddrs (s.linesOf tag) (s.unitLoc p level) [va + i]) =
      (List.range n).map fun i => ElemR.val (s.mem.read (pa + i)).toNat from List.map_congr_left fun i hi =>
        readAddrs_here s _ p _ _ _ level (hx i (List.mem_range.1 hi)) hp (by simp [State.linesOf, hl])]
    exact gather_vals _ _
  unfold State.readFor
  rw [hg]
  have hq : Gather.poisoned ⟨(List.range n).map fun i => some (s.mem.read (pa + i)).toNat, none, []⟩ = false := by
    simp [Gather.poisoned]
  have ht : Gather.table ⟨(List.range n).map fun i => some (s.mem.read (pa + i)).toNat, none, []⟩ = s.mem.readList pa n := by
    rw [← readList_range]
    simp [Gather.table]
  simp only [hq, ht]
  rfl

end Sys2Proof.Machine
end

