-- ==== Sys2Proof/Tests/Slice0.lean ====
section
/-!
SUPPORT. Sys2Proof/Tests/Slice0.lean: tests and witnesses. The smoke test of WellFormed, words written out field by field from the
specification's formats (R257–R271), small tests of single steps, and for every obligation that has hypotheses a concrete state and operands
that meet them.
-/

namespace Sys2Proof.Tests
open Sys2Proof.Machine
set_option Elab.async false

/-- The guard of unguarded code (R272). -/
abbrev gd : Guard := ⟨7, false⟩

/-! ## WellFormed: an ill-formed term for each check -/

theorem test_wf_accepts : Instr.wf (.iadd ⟨.v 2, .v 4, .const 0, gd⟩ .n64 true) = true := by decide
theorem test_wf_odd_pair_source : Instr.wf (.iadd ⟨.v 2, .v 3, .const 0, gd⟩ .n64 false) = false := by decide
theorem test_wf_odd_pair_destination : Instr.wf (.iadd3 ⟨.v 1, .v 2, .v 2, .v 2, gd⟩ .i64 false) = false := by decide
theorem test_wf_target_pair : Instr.wf (.brx gd (.v 1)) = false := by decide
theorem test_wf_mulh_type : Instr.wf (.imulh ⟨.v 0, .v 2, .v 2, gd⟩ .n16x2) = false := by decide
theorem test_wf_wide_type : Instr.wf (.imadWide ⟨.v 0, .v 2, .v 2, .v 4, gd⟩ .n64 false) = false := by decide
theorem test_wf_abs_unsigned : Instr.wf (.iabs ⟨.v 0, .v 1, gd⟩ .n32 false) = false := by decide
theorem test_wf_lea_signed : Instr.wf (.lea ⟨.v 0, .v 2, .v 2, gd⟩ .i32 0 .plain) = false := by decide
theorem test_wf_lea_extend : Instr.wf (.lea ⟨.v 0, .v 2, .v 2, gd⟩ .n32 0 .zx) = false := by decide
theorem test_wf_shift_type : Instr.wf (.shl ⟨.v 0, .v 2, .v 2, gd⟩ .i32) = false := by decide
theorem test_wf_special_pair : Instr.wf (.movSpecial gd (.v 1) true) = false := by decide
theorem test_wf_movi_type : Instr.wf (.movi (.v 0) gd .n8x4 1) = false := by decide
theorem test_wf_sel_type : Instr.wf (.sel ⟨.v 0, .v 1, .v 2, .v 3, gd⟩ .i32) = false := by decide
theorem test_wf_icmp_unused : Instr.wf (.icmp ⟨.p 0, .v 1, .v 2, .v 3, gd⟩ .i32 .lt .none) = false := by decide
theorem test_wf_icmp_type : Instr.wf (.icmp ⟨.p 0, .v 1, .v 2, .v 0, gd⟩ .n16x2 .lt .none) = false := by decide
theorem test_wf_bfx_type : Instr.wf (.bfx ⟨.v 0, .v 1, .v 2, gd⟩ .n8x4) = false := by decide
theorem test_wf_bfi_type : Instr.wf (.bfi ⟨.v 0, .v 1, .v 2, .v 3, gd⟩ .i32) = false := by decide
theorem test_wf_popc_type : Instr.wf (.popc ⟨.v 0, .v 1, gd⟩ .i64) = false := by decide
theorem test_wf_brev_type : Instr.wf (.brev ⟨.v 0, .v 2, gd⟩ .i32) = false := by decide
theorem test_wf_lop_not : Instr.wf (.lop ⟨.v 0, .v 1, .v 2, gd⟩ .n32 .not) = false := by decide
theorem test_wf_lop_imm_not : Instr.wf (.lopImm ⟨.v 0, .v 1, gd⟩ .n32 .not 1) = false := by decide
theorem test_wf_shift_count : Instr.wf (.shiftImm ⟨.v 0, .v 1, gd⟩ .n32 .shl 32) = false := by decide
theorem test_wf_imm_type : Instr.wf (.iaddImm ⟨.v 0, .v 1, gd⟩ .n16x2 false 1) = false := by decide
theorem test_wf_shfl_segment : Instr.wf (.shfl ⟨.v 0, .v 1, .v 2, gd⟩ .n32 .idx 6) = false := by decide
theorem test_wf_cmpct_type : Instr.wf (.cmpct ⟨.v 0, .v 1, .v 2, .v 3, gd⟩ .i32) = false := by decide
theorem test_wf_fcmp_unused : Instr.wf (.fcmp ⟨.p 0, .v 1, .v 2, .v 3, gd⟩ .lt .none) = false := by decide
theorem test_wf_cvt_mx : Instr.wf (.cvt ⟨.v 0, .v 1, gd⟩ .mx4 .f32 .rne false) = false := by decide
theorem test_wf_cvt_int_rounding : Instr.wf (.cvt ⟨.v 0, .v 1, gd⟩ .i32 .n8 .rz false) = false := by decide
theorem test_wf_pack_unused : Instr.wf (.cvtPacked ⟨.v 0, .v 1, .v 2, .v 3, gd⟩ .toF16x2 .rne false) = false := by decide
theorem test_wf_unpack_sat : Instr.wf (.cvtPacked ⟨.v 0, .v 1, .v 0, .v 0, gd⟩ .fromF16x2 .rne true) = false := by decide
theorem test_wf_dot_rounding : Instr.wf (.dot4 ⟨.v 0, .v 1, .v 2, .v 3, gd⟩ .i8x4 .rz false) = false := by decide
theorem test_wf_dot_sat : Instr.wf (.dot4 ⟨.v 0, .v 1, .v 2, .v 3, gd⟩ .e4m3x4 .rne true) = false := by decide
theorem test_wf_red_bitwise : Instr.wf (.red ⟨.v 0, .v 1, gd⟩ .xor .f32 0) = false := by decide
theorem test_wf_red_segment : Instr.wf (.red ⟨.v 0, .v 1, gd⟩ .add .n32 7) = false := by decide
theorem test_wf_scan_unused : Instr.wf (.scan ⟨.v 0, .v 1, .v 2, gd⟩ .add .n32 0 false false) = false := by decide
theorem test_wf_load_group : Instr.wf (.ldl ⟨.n64, 3, .v 0, .const 0, 0, gd, .crew, false, 0⟩) = false := by decide
theorem test_wf_load_group4 : Instr.wf (.ldl ⟨.n128, 2, .v 0, .const 0, 0, gd, .crew, false, 0⟩) = false := by decide
theorem test_wf_global_base : Instr.wf (.ldg ⟨.n32, 3, .v 1, .const 0, 0, gd, .crew, false, 0⟩) = false := by decide
theorem test_wf_scope_plain : Instr.wf (.ldg ⟨.n32, 3, .v 0, .const 0, 0, gd, .device, false, 0⟩) = false := by decide
theorem test_wf_order_wide : Instr.wf (.ldg ⟨.n128, 4, .v 0, .const 0, 0, gd, .device, true, 0⟩) = false := by decide
theorem test_wf_order_token : Instr.wf (.ldt ⟨.n32, 3, .v 0, .const 0, 0, gd, .device, true, 0⟩) = false := by decide
theorem test_wf_store_width : Instr.wf (.stg ⟨.i16, 3, .v 0, .const 0, 0, gd, .crew, false, 0⟩) = false := by decide
theorem test_wf_atom_scope : Instr.wf (.atomLocal ⟨.add, .n32, 1, .v 0, .v 1, 0, gd, .device, false⟩) = false := by decide
theorem test_wf_atom_pair : Instr.wf (.atomLocal ⟨.add, .n64, 1, .v 0, .v 2, 0, gd, .crew, false⟩) = false := by decide
theorem test_wf_atom_addf32 : Instr.wf (.atomLocal ⟨.addF32, .i32, 1, .v 0, .v 2, 0, gd, .crew, false⟩) = false := by decide
theorem test_wf_atom_unused : Instr.wf (.atomLocalNoret ⟨.add, .n32, 1, .v 0, .v 2, 0, gd, .crew, false⟩) = false := by decide
theorem test_wf_range_base : Instr.wf (.cwb ⟨.v 1, .const 0, 0, gd⟩) = false := by decide
theorem test_wf_iinv_scope : Instr.wf (.iinv ⟨.v 0, .const 0, 0, gd⟩ .system) = false := by decide
theorem test_wf_leave_destination : Instr.wf (.crewLeave .trans gd) = false := by decide
theorem test_wf_pop_destination : Instr.wf (.qpop (.v 1) gd 0) = false := by decide
theorem test_wf_push_source : Instr.wf (.qpush gd (.v 1) 0) = false := by decide
theorem test_wf_monitor_source : Instr.wf (.monArm gd (.v 1) .global .device 0) = false := by decide
theorem test_wf_stamp_destination : Instr.wf (.waitStamp (.p 0) gd (.v 0) .eq 0) = false := by decide
theorem test_wf_mma_mixed : Instr.wf (.mma gd .e4m3 .i8 false false 0 0 1 (.s 0)) = false := by decide
theorem test_wf_acc_source : Instr.wf (.accLd gd 0 0 (.v 1)) = false := by decide
theorem test_wf_acc_rounding : Instr.wf (.accSt gd 0 0 (.v 0) .sr false) = false := by decide
theorem test_wf_acc_destination : Instr.wf (.accRd gd 0 (.const 0) (.p 1)) = false := by decide
theorem test_wf_shape_block : Instr.wf (.shapeMake gd 0 61 (.v 0) false) = false := by decide
theorem test_wf_copy_block : Instr.wf (.copy gd 0 1 61) = false := by decide
theorem test_wf_cond_block : Instr.wf (.copyCond gd 0 1 58) = false := by decide
theorem test_wf_arm_destination : Instr.wf (.copyArm gd 0 1 0 (.p 1) 0) = false := by decide
theorem test_wf_coll_type : Instr.wf (.coll gd .allred .sum .e4m3 0 1 0) = false := by decide
theorem test_wf_coll_op : Instr.wf (.coll gd .bcast .max .f32 0 1 0) = false := by decide
theorem test_wf_token_field : Instr.wf (.tokLoad (.p 0) gd .seqid (.v 0) (.v 0)) = false := by decide
theorem test_wf_token_unused : Instr.wf (.tokLoad (.v 0) gd .seqid (.v 0) (.v 1)) = false := by decide
theorem test_wf_header_destination : Instr.wf (.tokHdr ⟨.v 1, .v 0, gd⟩) = false := by decide
theorem test_wf_send_summary : Instr.wf (.tokSend ⟨.v 0, .v 0, .v 1, .v 0, gd⟩) = false := by decide
theorem test_wf_spawn_destination : Instr.wf (.tokSpawn ⟨.trans, .v 0, .v 0, .v 0, gd⟩) = false := by decide
theorem test_wf_bench_block : Instr.wf (.benchEnter gd 60) = false := by decide
theorem test_wf_bench_destination : Instr.wf (.benchExit ⟨.trans, .v 0, gd⟩) = false := by decide
theorem test_wf_read_write_only : Instr.wf (.sysr (.v 0) gd .submit) = false := by decide
theorem test_wf_write_read_only : Instr.wf (.sysw gd .privLimit (.v 0)) = false := by decide
theorem test_wf_survey_destination : Instr.wf (.survey ⟨.v 1, .v 0, gd⟩) = false := by decide
theorem test_wf_feature_source : Instr.wf (.featTest ⟨.p 0, .v 1, gd⟩) = false := by decide
theorem test_wf_decoder_refuses : decode (encode (.iadd ⟨.v 2, .v 3, .const 0, gd⟩ .n64 false)) = .refused .illFormed := by decide

/-! ## Words written out from the formats -/

/-- Formats A and B: OP, FN, DK, DST, then SRC1 to SRC3 or SRC1 and IMM, PG, PN, MOD (R262). -/
def wordA (op : BitVec 8) (fn : BitVec 6) (dk : BitVec 2) (dst : BitVec 8) (s1 s2 s3 : BitVec 10) (pg : BitVec 3) (pn : BitVec 1) (mod : BitVec 6) :
    BitVec 64 := op ++ fn ++ dk ++ dst ++ s1 ++ s2 ++ s3 ++ pg ++ pn ++ mod
/-- Format M (R263). -/
def wordM (op : BitVec 8) (fn : BitVec 4) (dst : BitVec 8) (base index : BitVec 10) (off : BitVec 14) (pg : BitVec 3) (pn : BitVec 1) (sc : BitVec 3)
    (ord : BitVec 1) (scale : BitVec 2) : BitVec 64 := op ++ fn ++ dst ++ base ++ index ++ off ++ pg ++ pn ++ sc ++ ord ++ scale
/-- Format X (R264). -/
def wordX (op : BitVec 8) (fn : BitVec 6) (da db : BitVec 4) (acc : BitVec 3) (oba obb : BitVec 4) (a b : BitVec 10) (pg : BitVec 3) (pn : BitVec 1)
    (mod : BitVec 6) : BitVec 64 := op ++ fn ++ da ++ db ++ acc ++ oba ++ obb ++ a ++ b ++ 0#1 ++ pg ++ pn ++ mod
/-- Format J (R265). -/
def wordJ (op : BitVec 8) (fn : BitVec 6) (target : BitVec 38) (pg : BitVec 3) (pn : BitVec 1) (mod : BitVec 6) : BitVec 64 :=
  op ++ fn ++ target ++ 0#2 ++ pg ++ pn ++ mod
/-- Format Y (R266). -/
def wordY (op : BitVec 8) (fn : BitVec 6) (dk : BitVec 2) (dst : BitVec 8) (s1 : BitVec 10) (reg : BitVec 16) (pg : BitVec 3) (pn : BitVec 1)
    (mod : BitVec 6) : BitVec 64 := op ++ fn ++ dk ++ dst ++ s1 ++ reg ++ 0#4 ++ pg ++ pn ++ mod

-- R292: control.
theorem test_word_br : decode (wordJ 0x00 0 (-8) 1 0 0) = .instr (.br ⟨1, false⟩ (-8)) := by decide
theorem test_word_loop : decode (wordJ 0x06 0 5 7 0 9) = .instr (.loop gd 9 5) := by decide
theorem test_word_callx : decode (wordA 0x04 0 0 0 0b0100000011 0 0 7 1 0) = .instr (.callx ⟨7, true⟩ (.s 3)) := by decide
-- R306–R313: integer instructions. IADD3.I16X2.SAT V9, V1, ^2, S3; ROR.N64 V8, V6 by count V5; IMIN.N32 by an immediate.
theorem test_word_iadd3 : decode (wordA 0x11 0b000101 0 9 0b0000000001 0b0101000010 0b0100000011 7 0 0b000100) =
    .instr (.iadd3 ⟨.v 9, .v 1, .trans 2, .s 3, gd⟩ .i16x2 true) := by decide
theorem test_word_ror : decode (wordA 0x1B 0b001010 0 8 6 5 0 7 0 0) = .instr (.ror ⟨.v 8, .v 6, .v 5, gd⟩ .n64) := by decide
theorem test_word_iminImm : decode ((0x2C#8) ++ 0b000000#6 ++ 0b00#2 ++ 4#8 ++ 3#10 ++ (0xFFFFF#20) ++ 7#3 ++ 0#1 ++ 0#6) =
    .instr (.iminmaxImm ⟨.v 4, .v 3, gd⟩ .n32 false (-1)) := by decide
theorem test_word_lop : decode (wordA 0x26 0b011000 0 4 3 2 0 7 0 0) = .instr (.lop ⟨.v 4, .v 3, .v 2, gd⟩ .n32 .andn) := by decide
-- R314–R319: predicates, votes, permutes. The majority example of R314.
theorem test_word_plop : decode (wordA 0x30 0x3A 0b11 1 0b1001001010 0b1001001011 0b1001001100 7 0 0) =
    .instr (.plop ⟨.p 1, .pred 2, .pred 3, .pred 4, gd⟩ 0xE8) := by decide
theorem test_word_ballot : decode (wordA 0x32 0x03 0b10 5 0b1001001001 0 0 7 0 0) = .instr (.voteBallot ⟨.s 5, .pred 1, gd⟩) := by decide
theorem test_word_shfl : decode (wordA 0x34 0b010000 0 5 1 2 0 7 0 2) = .instr (.shfl ⟨.v 5, .v 1, .v 2, gd⟩ .n32 .down 2) := by decide
-- R324–R339: floating point. FADD.F32.RU.SAT.NB; packed FCMP; CVT.B16.F32; DOT4.E5M2X4; SFU; SCAN.MAX.I32.W16.EXCL.CIN.
theorem test_word_fadd : decode (wordA 0x40 0 0 1 2 3 0 7 0 0b010110) = .instr (.fadd ⟨.v 1, .v 2, .v 3, gd⟩ .ru true false true) := by decide
theorem test_word_fcmpPacked : decode (wordA 0x55 0b010001 0b11 2 1 2 0 7 0 0) = .instr (.fcmpPacked ⟨.p 2, .v 1, .v 2, gd⟩ .b16x2 .lt) := by decide
theorem test_word_cvt : decode (wordA 0x60 0 0 1 2 0 (0b10010#5 ++ 0b10000#5) 7 0 0b001000) =
    .instr (.cvt ⟨.v 1, .v 2, gd⟩ .b16 .f32 .rz false) := by decide
theorem test_word_dot4 : decode (wordA 0x64 1 0 1 2 3 4 7 0 0) = .instr (.dot4 ⟨.v 1, .v 2, .v 3, .v 4, gd⟩ .e5m2x4 .rne false) := by decide
theorem test_word_tanh : decode (wordA 0x77 0 0 1 2 0 0 7 0 0) = .instr (.tanh ⟨.v 1, .v 2, gd⟩) := by decide
theorem test_word_scan : decode (wordA 0x7A 0b010001 0 1 2 3 0 7 0 0b011001) =
    .instr (.scan ⟨.v 1, .v 2, .v 3, gd⟩ .max .i32 1 true true) := by decide
-- R263, R347–R356: memory. LDL.N64 V4, [V2 + S1*4 - 8]; STY.REL.gang; ATOM.L.CAS.N64; FENCE.system; IINV.device.
theorem test_word_ldl : decode (wordM 0x80 5 4 2 0b0100000001 (-8) 7 0 0 0 2) =
    .instr (.ldl ⟨.n64, 4, .v 2, .s 1, -8, gd, .crew, false, 2⟩) := by decide
theorem test_word_sty : decode (wordM 0x92 2 4 2 0b0111000000 12 7 0 1 1 0) =
    .instr (.sty ⟨.n16, 4, .v 2, .const 0, 12, gd, .gang, true, 0⟩) := by decide
theorem test_word_cas : decode (wordM 0xA1 8 6 2 4 0 7 0 3 1 2) = .instr (.atomLocal ⟨.cas, .n64, 6, .v 2, .v 4, 0, gd, .cluster, true⟩) := by decide
theorem test_word_fence : decode (wordM 0xA6 0 0 0 0 0 7 0 7 1 0) = .instr (.fence gd .system) := by decide
theorem test_word_iinv : decode (wordM 0xAA 0 0 0b0100000010 0b0111000001 0 7 0 5 1 0) =
    .instr (.iinv ⟨.s 2, .const 1, 0, gd⟩ .device) := by decide
-- R360: synchronisation.
theorem test_word_monArm : decode (wordA 0xB9 1 0 0 3 0 0 7 0 0b010011) = .instr (.monArm gd (.v 3) .localMem .core 3) := by decide
theorem test_word_waitc : decode (wordA 0xB8 0 0 0 0b0111000000 0 0 7 0 3) = .instr (.waitc gd (.const 0) .mx) := by decide
-- R380, R385, R388: engines. MMA.B16.MX4.KB A2, OB3, OB5, S1; COPY.ARM D1, D2, S8, V7, CT4; COLL.BCAST.SUM.F16 D3, D4, S8.
theorem test_word_mma : decode (wordX 0xC0 0b010010 0 0 2 3 5 0b0100000001 0 7 0 0b111100) =
    .instr (.mma gd .b16 .mx4 false true 2 3 5 (.s 1)) := by decide
theorem test_word_copyArm : decode (wordX 0xD2 0 1 2 0 0 0 0b0100001000 7 7 0 4) = .instr (.copyArm gd 1 2 8 (.v 7) 4) := by decide
theorem test_word_coll : decode (wordX 0xD5 0b000011 3 4 0 0 0 0b0100001000 0 7 0 0x11) = .instr (.coll gd .bcast .sum .f16 3 4 8) := by decide
-- R390: tokens. TOK.LOAD USER word by V3; TOK.SEND.
theorem test_word_tokUser : decode (wordA 0xD6 0x14 0b10 5 2 3 0 7 0 0) = .instr (.tokLoad (.s 5) gd .user (.v 2) (.v 3)) := by decide
theorem test_word_tokSend : decode (wordA 0xD8 0 0 7 2 4 3 7 0 0) = .instr (.tokSend ⟨.v 7, .v 2, .v 4, .v 3, gd⟩) := by decide
-- R398, R400, R401: bench and system. STEER is a bench action; in a sett its word traps (R280).
theorem test_word_benchEnter : decode (wordX 0xE0 0 0 0 0 0 0 0b0100000010 0 7 0 0) = .instr (.benchEnter gd 2) := by decide
theorem test_word_steer : decode (wordA 0xE3 0 0b01 0 1 0 2 7 0 0) = .instr (.steer ⟨.trans, .v 1, .v 2, gd⟩) := by decide
theorem test_word_trap : decode (wordY 0xE7 0 0 0 0 0x1234 7 0 0) = .instr (.trap gd 0x1234) := by decide
theorem test_word_sysr : decode (wordY 0xEA 0 0b10 9 0 0x0061 7 0 0) = .instr (.sysr (.s 9) gd .trCause) := by decide
-- Reserved encodings name no instruction: a reserved OP, IT, source and destination field, a nonzero unused field.
theorem test_word_reserved_op : decode (wordA 0x0B 0 0 0 0 0 0 7 0 0) = .refused .reservedOp := by decide
theorem test_word_reserved_source : decode (wordA 0x10 0 0 1 0b0101100000 0 0 7 0 0) ≠ .instr (.iadd ⟨.v 1, .trans 0, .v 0, gd⟩ .n32 false) := by decide
theorem test_word_reserved_destination : decode (wordA 0x10 0 0b01 1 0 0 0 7 0 0) ≠ .instr (.iadd ⟨.trans, .v 0, .v 0, gd⟩ .n32 false) := by decide
theorem test_word_unused_source : decode (wordA 0x1C 0 0 1 2 3 0 7 0 0) ≠ .instr (.mov ⟨.v 1, .v 2, gd⟩) := by decide

/-! ## Witnesses: a state and operands that meet the hypotheses of each statement -/

/-- A sett of one slot at 0x1000 in its execution phase; it falls through to 0x1010. -/
def settA : Sett := { (default : Sett) with phase := .exec, pc := 0x1000, nslots := 1 }
/-- A resident crew of partition 0 with all lanes on one path. -/
def crewA : Crew := { (default : Crew) with place := .resident, budget := 64, paths := [⟨0x1000, 0xFFFFFFFF, none, 0⟩], sett := settA }
/-- A device whose memory holds the sett header of one slot at 0x1000 and 0x1010, and a function header at 0x1020. -/
def devA : State := { State.reset with mem := ⟨[(0x1007, 0xF0), (0x1017, 0xF0), (0x1025, 0x20), (0x1027, 0xF0)], []⟩ }
/-- It with the crew, changed as said, executing. -/
def on (f : Crew → Crew) : State := { devA with crews := devA.crews.put 0 (f crewA) }
def inSett (f : Sett → Sett) : State := on fun c => { c with sett := f c.sett }

/-- The guard of P1, and its lanes 0 to 2 (R272). -/
abbrev g1 : Guard := ⟨1, false⟩
def onP1 : State := on fun c => { c with p := c.p.put 1 7 }

theorem witness_Computes : (on id).me.popTrap = false ∧ (on id).on gd = List.range 32 ∧ onP1.on g1 = [0, 1, 2] := by decide
theorem witness_popped : (inSett fun t => { t with popBad := [0] }).me.popTrap = true := by decide
theorem witness_WideAndImmediate : IntTy.is32 .i32 = true ∧ IntTy.unsignedScalar .n32 = true ∧ (IntTy.wide .n32 = false → LeaMode.plain = .plain) ∧
    IntTy.unsignedScalar .n64 = true ∧ (IntTy.wide .n64 = false → LeaMode.sx = .plain) ∧ IntTy.scalar .i64 = true := by decide
theorem witness_Shifts : IntTy.unsigned .n16x2 = true ∧ IntTy.scalar .n32 = true ∧ (31 : BitVec 20).toNat < intW .n32 := by decide
theorem witness_BitFields : IntTy.scalar .i64 = true := by decide
theorem witness_Permutes : (5 : BitVec 3).toNat ≤ 5 := by decide
theorem witness_PackedAndConvertValues : 1 < 2 ∧ (decodeF (packFmt .f16x2) ((0x7E010000#32).toNat / 2 ^ (16 * 1) % 65536)).isNan = true ∧
    (decodeF (packFmt .f16x2) ((0x3C000000#32).toNat / 2 ^ (16 * 1) % 65536)).isNan = false ∧ ElemTy.n32.isInt = true ∧ ElemTy.f32.isInt = false ∧
    (decodeF (elemFmt .f32) ((0x7F800001#64).toNat % 2 ^ elemBits .f32)).isNan = true := by decide
theorem witness_CanonicalNaN : (decodeF .f32 (0x7F800001#32).toNat).isNan = true ∧ (decodeF .f32 (0x7F800001#32).toNat).isSnan = true ∧
    (decodeF .f32 (0x7FC00000#32).toNat).isNan = true ∧ (decodeF .f32 (0x7FC00000#32).toNat).isSnan = false := by decide
theorem witness_ReduceAdds : [0, 3, 31].Nodup ∧ [0, 3, 31].Pairwise (· < ·) ∧ (∀ l ∈ [0, 3, 31], l < 32) ∧
    (0xFFFFFFFF#64).toNat < 2 ^ 32 := by decide

/-- An SFU operation of slot 0 that has returned nothing yet. -/
def sfuA : SfuOp := ⟨0, 0, 0, [(0, 5)], 0⟩
def withSfu (ops : List SfuOp) (f : Sett → Sett) : State :=
  { inSett f with cores := State.reset.cores.put 0 { State.reset.core 0 with sfu := (State.reset.core 0).sfu.put 0 ops } }
theorem witness_SfuIssue : (on id).me.popTrap = false ∧ (on id).me.sett.sfuWait = [] ∧ (on id).on gd ≠ [] ∧
    ((on id).cores.get (on id).me.core).sfu.get (on id).me.quarter = [] ∧ (on id).on ⟨7, true⟩ = [] ∧
    8 ≤ (((withSfu (List.replicate 8 sfuA) id).cores.get 0).sfu.get 0).length := by decide
theorem witness_SfuResult :
    (let s := withSfu [sfuA] fun t => { t with sfuPend := [0], words := [0x7000010080000380] }
    (s.core 0).sfu.get 0 = [sfuA] ∧ (s.crew 0).core = 0 ∧ (s.crew 0).epoch = sfuA.epoch ∧ (s.crew 0).sett.phase = .exec ∧
    sfuA.slot ∈ (s.crew 0).sett.sfuPend ∧
    decode ((s.crew 0).sett.words.getD sfuA.slot 0) = .instr (.rcp ⟨.v 1, .v 2, gd⟩) ∧
    (Instr.rcp ⟨.v 1, .v 2, gd⟩).dst = some (.v 1, 1)) := by decide

/-! Control transfer: the sett falls through to a header; a branch of +4 goes to a function header. -/

theorem at_self (s : State) (h : s.me.sett.phase = .control) : AtControl s s := ⟨h, rfl, rfl, rfl, rfl⟩

theorem passes_of {s : State} {call : DWord → Bool} {as : List DWord}
    (h : (as.all fun a => decide (s.checkTarget s.cur s.me.level (call a) a = .ok)) = true) : s.passes call as :=
  fun a ha => of_decide_eq_true (List.all_eq_true.1 h a ha)

/-- The addresses that the fall-through and a target of +4 words name pass R293; the second also as a call's. -/
theorem witness_passes : (on id).me.sett.phase = .exec ∧ (on id).me.sett.fall = 0x1010 ∧ jTarget (on id).me 4 = 0x1020 ∧
    (on id).passes (fun _ => false) [(on id).me.sett.fall] ∧ (on id).passes (fun _ => false) [jTarget (on id).me 4] ∧
    (on id).passes (fun x => x == 0x1020) ((on id).me.sett.fall :: ((on id).on gd).map fun _ => 0x1020) ∧
    (on id).passes (fun _ => false) ((lanesOf (on id).me.mask).map fun l => if l ∈ (on id).on gd then 0x1020 else 0x1010) :=
  ⟨by decide, by decide, by decide, passes_of (by decide +kernel), passes_of (by decide +kernel), passes_of (by decide +kernel),
    passes_of (by decide +kernel)⟩

/-- A control slot's commit: the state itself, in the control phase, is one that stands at the slot. -/
theorem witness_AtControl : AtControl (on id) (inSett fun t => { t with phase := .control }) := ⟨rfl, rfl, rfl, rfl, rfl⟩

def groupA : CallGroup := ⟨0, 0x1010, 0xFFFFFFFF, 0xFFFFFFFF, [], 0⟩
theorem witness_Calls : (∃ l ∈ (on fun c => { c with groups := List.replicate 64 groupA }).on gd,
      (on fun c => { c with groups := List.replicate 64 groupA }).me.depth l ≥ 64) ∧
    (∀ l ∈ (on fun c => { c with groups := List.replicate 63 groupA }).on gd,
      (on fun c => { c with groups := List.replicate 63 groupA }).me.depth l < 64) := by decide +kernel
theorem witness_ReturnAndExit : (∃ l ∈ (on id).on gd, (on id).me.depth l = 0) ∧
    (∀ l ∈ (on fun c => { c with groups := [groupA] }).on gd, (on fun c => { c with groups := [groupA] }).me.depth l ≠ 0) ∧
    (on id).me.mask &&& ~~~((on id).me.guardMask gd) = 0 ∧ onP1.me.mask &&& ~~~(onP1.me.guardMask g1) ≠ 0 ∧
    onP1.me.lastLanes (onP1.me.guardMask g1) = false := by decide +kernel
def leaving (f : Crew → Crew) : State :=
  on fun c => f { c with sett := { c.sett with phase := .control, ctl := ⟨0xFFFFFFFF, [], 0⟩ } }
theorem witness_LastExit : (leaving id).me.sett.phase = .control ∧ (leaving id).me.lastLanes (leaving id).me.sett.ctl.take = true ∧
    (leaving id).me.quiet = true ∧ (leaving id).endRoom (leaving id).cur = true ∧
    (leaving fun c => { c with ctr := c.ctr.put 0 ⟨1, 0, []⟩ }).me.quiet = false := by decide +kernel

/-- Partition 0's trap vector at the function header. -/
def vectored (s : State) : State := { s with parts := s.parts.put 0 { s.part 0 with trVec := 0x1020 } }
theorem witness_TrapAndSvc : (on id).on ⟨7, true⟩ = [] ∧ (on id).on gd ≠ [] ∧
    (let u := vectored (inSett fun t => { t with phase := .control })
    u.trapReady u.cur = true ∧ nestBit u.me.trCause = false ∧ bitsOf (u.part u.me.part).trVec 0 56 ≠ 0 ∧
    u.checkTarget u.cur true false (BitVec.ofNat 64 (bitsOf (u.part u.me.part).trVec 0 56)) = .ok) := by decide +kernel
def raising (f : Crew → Crew) : State := on fun c => f { c with sett := { c.sett with exc := some ⟨cAlign, 0x55, 0, 3, 0⟩ } }
theorem witness_TrapEntry : (raising id).me.sett.exc = some ⟨cAlign, 0x55, 0, 3, 0⟩ ∧ (raising id).me.sett.phase ≠ .idle ∧
    (raising id).me.paths ≠ [] ∧ (raising id).trapReady (raising id).cur = true ∧
    bitsOf ((raising id).part (raising id).me.part).trVec 0 56 = 0 ∧ ((raising id).part (raising id).me.part).present = true ∧
    nestBit (raising fun c => { c with trCause := 0x8000 }).me.trCause = true ∧
    (let s := vectored (raising id)
    s.trapReady s.cur = true ∧ nestBit s.me.trCause = false ∧ bitsOf (s.part s.me.part).trVec 0 56 ≠ 0) := by decide +kernel
def nested : State := on fun c => { c with trCause := 0xFFFFFFFF00008000, trPc := 0x1000 }
theorem witness_TrapReturn : (on id).on ⟨7, true⟩ = [] ∧ nestBit (on id).me.trCause = false ∧ nested.on gd ≠ [] ∧ nestBit nested.me.trCause = true ∧
    nested.me.mask = nested.me.trCause.extractLsb' 32 32 ∧ nested.passes (fun _ => false) [nested.me.trPc] ∧
    (on fun c => { c with trCause := 0x8000 }).me.mask ≠ (on fun c => { c with trCause := 0x8000 }).me.trCause.extractLsb' 32 32 :=
  ⟨by decide, by decide, by decide, by decide, by decide, passes_of (by decide +kernel), by decide⟩
/-- Partition 0 with n shadow units. -/
def shadowed (n : Nat) (s : State) : State := { s with parts := s.parts.put 0 { s.part 0 with units := List.range n } }
theorem witness_Halt : (on id).on gd ≠ [] ∧ (on id).on ⟨7, true⟩ = [] ∧ (on id).recRoom 0 1 = true := by decide +kernel
theorem witness_Halt_stays : (on id).shadowFits 0 = false := by decide +kernel
theorem witness_Halt_saved : (shadowed 1 (on id)).shadowFits 0 = true := by decide +kernel

/-! Memory: a gang of 4 KiB of local memory and yard 0, a cached KV page, a live token record. -/

def gangA : Gang := { (default : Gang) with live := true, lrec := BitVec.ofNat 4096 (2 ^ 2111 + 4 * 2 ^ 27) }
/-- Crew 0 with lanes 0 to 2 under P1, S2 an address, S3 a KV and token handle, S4 a word of 64 bits. -/
def memState (f : Sett → Sett) : State :=
  { on fun c => { c with
      p := c.p.put 1 7
      s := ((c.s.put 2 0x80).put 3 0x01000000).put 4 5
      sett := f c.sett } with
    gangs := (default : Tbl Gang).put 0 gangA
    tlb := [⟨kvPlace 0, 0, 1, 0x01000000, 0, 13, 0x2000⟩] }
/-- A 4-byte access at the address, or by the handle, in a base register. -/
def accA (base : BitVec 6) (ord : Bool) (sc : Scope) : MemA := ⟨.n32, 5, .s base, .const 0, 0, g1, sc, ord, 0⟩
def isLoc : Res → Bool
  | .ok x => x.dev == 0
  | .bad _ _ => false
def locOf : Res → Loc
  | .ok x => x
  | .bad _ _ => noLoc
theorem locOf_of {r : Res} (h : isLoc r = true) : r = .ok (locOf r) := by
  cases r with
  | ok x => rfl
  | bad c a => cases h

/-- All lanes of every space's load find their bytes. -/
theorem witness_PlainLoads : (accA 2 false .crew).ord = false ∧ (memState id).me.sett.phase = .exec ∧ (memState id).me.popTrap = false ∧
    ∀ p ∈ [(Space.localMem, 2), (.global, 2), (.yard, 2), (.kv, 3), (.token, 3)], ∀ l ∈ (memState id).on g1,
      (memState id).loadLoc p.1 (accA p.2 false .crew) l = .ok (locOf ((memState id).loadLoc p.1 (accA p.2 false .crew) l)) ∧
      ((memState id).loadBytes (memState id).me (memState id).me.sett.slot l (locOf ((memState id).loadLoc p.1 (accA p.2 false .crew) l)) 4).isSome =
        true := by decide +kernel
theorem witness_LoadedBytes : (⟨.global, 0x80, 0, 0x80, 0⟩ : Loc).dev = (memState id).dev ∧ (⟨.global, 0x80, 0, 0x80, 0⟩ : Loc).space ≠ .token := by
  decide
theorem witness_AddressChecks : 0 < 4 ∧ 4 ≤ 128 ∧ (-1 : Int) < 0 ∧ (2 ^ 56 : Int) ≥ 2 ^ 56 ∧ (0 : Int) ≤ 2 ^ 56 - 1 ∧ (2 ^ 56 - 1 : Int) < 2 ^ 56 ∧
    ¬ ((4 : Nat) : Int) ∣ 2 ^ 56 - 1 ∧ (2 ^ 32 : Int) ≥ 2 ^ 32 ∧ (2 ^ 32 - 1 : Int) < 2 ^ 32 ∧ ¬ ((4 : Nat) : Int) ∣ 2 ^ 32 - 1 ∧
    ((4 : Nat) : Int) ∣ 2 ^ 32 - 4 ∧ (125 : Int) + (4 : Nat) > 128 ∧ (124 : Int) + (4 : Nat) ≤ 128 ∧ ((4 : Nat) : Int) ∣ 124 ∧
    ¬ ((4 : Nat) : Int) ∣ 123 ∧ (123 : Int) + (4 : Nat) ≤ 128 ∧ State.reset.tokLive 0 = false := by decide
/-- Lane 0's access fails: a misaligned address. -/
theorem witness_AccessTraps :
    (∀ p ∈ [(Space.localMem, 2, cAlign), (.global, 2, cAlign), (.yard, 2, cAlign), (.kv, 3, cAlign), (.token, 3, cAlign)],
      0 ∈ (memState id).on g1 ∧
      ∃ a, (memState id).loadLoc p.1 { accA p.2.1 false .crew with off := 2 } 0 = .bad p.2.2 a ∧ p.2.2 ≠ cKvMiss) ∧
    (∀ p ∈ [Space.localMem, .global, .yard],
      resMem (memState id) (memState id).me 0 p .store { accA 2 false .crew with off := 2 } 0 = .bad cAlign 0x82 ∧
      resAtom (memState id) (memState id).me p ⟨.add, .n32, 5, .s 2, .const 1, 2, g1, .crew, false⟩ 0 = .bad cAlign 0x82) := by
  refine ⟨?_, by decide +kernel⟩
  intro p hp
  simp only [List.mem_cons, List.not_mem_nil, or_false] at hp
  rcases hp with rfl | rfl | rfl | rfl | rfl <;> exact ⟨by decide +kernel, _, rfl, by decide⟩
theorem witness_stores : ∀ p ∈ [Space.localMem, .global, .yard], ∀ l ∈ (memState id).on g1,
    resMem (memState id) (memState id).me (memState id).cur p .store (accA 2 false .crew) l =
      .ok (locOf (resMem (memState id) (memState id).me 0 p .store (accA 2 false .crew) l)) ∧
    resMem (memState id) (memState id).me (memState id).cur p .store (accA 2 true .device) l =
      .ok (locOf (resMem (memState id) (memState id).me 0 p .store (accA 2 true .device) l)) ∧
    withPoison (memState id) (memState id).me 4 (resMem (memState id) (memState id).me (memState id).cur p .load (accA 2 true .device) l) =
      .ok (locOf (resMem (memState id) (memState id).me 0 p .load (accA 2 true .device) l)) ∧
    resAtom (memState id) (memState id).me p ⟨.add, .n32, 5, .s 2, .const 1, 0, g1, .crew, false⟩ l =
      .ok (locOf (resAtom (memState id) (memState id).me p ⟨.add, .n32, 5, .s 2, .const 1, 0, g1, .crew, false⟩ l)) := by decide +kernel

/-- An effectful slot at its commit with one location captured. -/
def capA : Cap := ⟨0, 0, ⟨.global, 0x80, 0, 0x80, 0⟩, [1]⟩
def effects (cs : List Cap) : State := memState fun t => { t with phase := .effects, caps := cs }
theorem witness_CapsClear : (effects [capA]).me.sett.phase = .effects ∧ (effects [capA]).me.caps = [capA] ∧
    (∀ p ∈ (effects [capA]).me.caps, p.loc.dev = (effects [capA]).dev ∧
      (effects [capA]).holdsLines (effects [capA]).me.core p.loc.dev p.loc.pa 4 = false) ∧
    Scope.wide .device = true ∧ ((effects [capA]).core (effects [capA]).me.core).cb = [] ∧
    (effects [capA]).coreBusy (effects [capA]).me.core = false ∧ (effects []).me.caps = [] ∧
    (∀ p ∈ (effects [capA]).me.caps, (effects [capA]).me.sett.answer p.slot p.lane = none) ∧
    ((effects [capA]).me.caps.map fun p => (p.slot, p.lane)).Nodup ∧ (effects [capA]).fenced = false := by decide +kernel
theorem witness_AtomicRule : AtomOp.cas ≠ .addF32 ∧ 2 ^ 32 - 1 < 2 ^ (8 * atomN .n32) ∧ 2 ^ 64 - 1 < 2 ^ (8 * atomN .i64) := by decide
theorem witness_LineRanges : (memState id).on g1 ≠ [] ∧ (memState id).on ⟨7, true⟩ = [] ∧
    rangeUnion (memState id) (memState id).me (memState id).cur ⟨.s 2, .const 2, 0, g1⟩ ((memState id).on g1) = ([1, 2], none) ∧
    (memState id).on g1 = 0 :: [1, 2] ∧ 65536 < ((memState id).src 1 (.const 0x2E) false 0).toNat ∧
    ((effects [capA]).me.cwbs.any fun n => (effects [capA]).tagLive ((effects [capA]).cur, n)) = false := by decide +kernel

/-! Barriers: four members, of which two have arrived, or three. -/

def barred (f : Crew → Crew) (arrived : Nat) : State :=
  { on fun c => f { c with member := true, sett := { c.sett with phase := .effects } } with
    gangs := (default : Tbl Gang).put 0 { gangA with
      bars := (default : Tbl Barrier).put 3 ⟨5, 4, 0, arrived, 0⟩, crews := ((default : Tbl Nat).put 0 0).put 1 1, live := true } }
theorem witness_Barriers : (on id).me.member = false ∧ (on id).on gd ≠ [] ∧ (barred id 2).me.member = true ∧ (barred id 2).me.sett.phase = .effects ∧
    (((barred id 2).bar 0 3).arrived : Int) + 1 < ((barred id 2).bar 0 3).members ∧
    (((barred id 3).bar 0 3).arrived : Int) + 1 = ((barred id 3).bar 0 3).members ∧ ((barred id 3).bar 0 3).held = 0 ∧
    ¬ (((barred id 2).me.bars.get 3).first > ((barred id 2).bar 0 3).phase) ∧ ((barred id 2).me.bars.get 3).arrivedIn = none ∧
    ((barred (fun c => { c with bars := c.bars.put 3 ⟨6, none, false⟩ }) 2).me.bars.get 3).first > ((barred id 2).bar 0 3).phase ∧
    ((barred id 2).me.bars.get 3).holds = false := by decide +kernel
theorem witness_JoinAndLeave : (barred id 2).memberCount (barred id 2).me.gang = 1 ∧ (barred id 2).endRoom (barred id 2).cur = true ∧
    (barred (fun c => { c with member := false }) 2).me.member = false := by decide +kernel

/-! Queues, counters and monitors. -/

theorem witness_QueuesAndWaitc : (memState id).me.popTrap = false ∧ pathCap .st ≤ ((memState id).src 0 (.const 0x2B) false 0).toNat ∧
    ¬ pathCap .st ≤ ((memState id).src 0 (.const 0) false 0).toNat := by decide
def monitored (phase : Phase) : State :=
  { memState fun t => { t with phase := phase } with
    crews := (memState id).crews.put 0 { (memState fun t => { t with phase := phase }).me with mons := (default : Tbl Monitor).put 1 ⟨true, 0, 0x80, 5⟩ } }
theorem witness_Monitors : monCheck (memState id) (memState id).me .global 0x81 = .bad cAlign 0x81 ∧
    isLoc (monCheck (memState id) (memState id).me .global 0x80) = true ∧ ((memState id).me.mons.get 0).armed = false ∧
    ((monitored .exec).me.mons.get 1).armed = true ∧ isLoc (monLoc (monitored .exec) (monitored .exec).me ((monitored .exec).me.mons.get 1)) = true ∧
    3 ≤ (([5] : List DWord).headD 0).toNat := by decide +kernel

/-- A sett whose only slot has run and waits for a stamp at 0x80. -/
def waiting (regs : List Registration) : State :=
  { on fun c => { c with sett := { c.sett with slot := 1, waits := [⟨0, .stamp 0 .ge 1 ⟨.global, 0x80, 0, 0x80, 0⟩⟩] } } with regs := regs }
theorem witness_StampWaits : (waiting []).SettRan 0 ∧ ((waiting []).crew 0).sett.waits = [⟨0, .stamp 0 .ge 1 ⟨.global, 0x80, 0, 0x80, 0⟩⟩] ∧
    (waiting []).holdsLines ((waiting []).crew 0).core 0 0x80 8 = false ∧ ((waiting []).crew 0).otherReady = false ∧
    ((waiting []).regs.any fun r => r.crew == 0) = false ∧
    ((waiting [⟨0, 0, 0x80, 0, true⟩]).regs.any fun r => r.crew == 0 && r.written) = true ∧
    bitsOf ((waiting []).read64 0x80) 56 8 = 0 ∧ stampHolds .ge (bitsOf ((waiting []).read64 0x80) 0 56) 1 = false ∧
    stampHolds .ge 1 1 = true :=
  ⟨⟨by decide, by decide, by decide, by decide, by decide +kernel, fun _ => by decide +kernel⟩, by decide, by decide +kernel, by decide, by decide, by decide,
    by decide +kernel, by decide +kernel, by decide⟩

/-! Engines: operand buffer 0 of 1,024 bytes, D0 a record of 64 × 64 FP32 values, D1 one of 32 × 32 E4M3 values, D2 a record with a reserved SPACE,
S8 to S14 an operand block without a stamp, S20 one whose stamp is misaligned; S16 the origin (0, 0), S17 the origin (1, 0), S18 a depth of 16. -/

def gangE : Gang := { gangA with lrec := gangA.lrec ||| BitVec.ofNat 4096 ((2 ^ 63 + 16 * 2 ^ 32) * 2 ^ 1024) }
def engState (f : Sett → Sett) : State :=
  { on fun c => { c with
      s := ((((((c.s.put 9 0).put 10 (3 * 2 ^ 56)).put 12 0x80).put 17 1).put 18 16).put 22 4).put 24 0x0000000000000007
      d := (((((((((c.d.put 0 0x1000000000010000).put 1 0x0000004000400040).put 2 0x0000004000000100).put 3 0x1000000000000000).put
        4 0x1300000000010000).put 5 0x0000002000200020).put 6 0x0000002000000020).put 7 0x1000000000000000).put 8 0x8000000000000000)
      sett := f c.sett } with
    gangs := (default : Tbl Gang).put 0 gangE }
theorem tableOf_none (s : State) (c : Crew) (r : Rec256) (h : (recField r || !needsTable r) = true) : s.tableOf c r = .ok [] := by
  simp [State.tableOf, h]
theorem witness_EngineIssueChecks_mma : (engState id).me.sett.phase = .exec ∧ (engState id).me.popTrap = false ∧ (engState id).on gd ≠ [] ∧
    (engState id).obUnit (engState id).me.gang 0 = some 1024 ∧ mmaBytes (ElemTy.code .e4m3).toNat 16 ≤ 1024 ∧
    (engState id).src 0 (.s 18) true 0 = 16 ∧ (engState id).obUnit (engState id).me.gang 1 = none := by decide +kernel
theorem witness_EngineIssueChecks_moves :
    (∀ d ∈ [0, 1, 2], (engState id).tableOf (engState id).me ((engState id).me.drec d) = .ok []) ∧
    shapeStatus ((engState id).me.drec 0) [] = 0 ∧ (shapeOf ((engState id).me.drec 0) []).boxes = [64, 64] ∧
    (shapeOf ((engState id).me.drec 0) []).etype = 0x10 ∧ shapeStatus ((engState id).me.drec 1) [] = 0 ∧
    (shapeOf ((engState id).me.drec 1) []).tileBytes ≤ 1024 ∧ (shapeOf ((engState id).me.drec 1) []).boxes ≠ [64, 64] ∧
    shapeStatus ((engState id).me.drec 2) [] ≠ 0 ∧ (shapeOf ((engState id).me.drec 0) []).outside ((engState id).src 0 (.s 16) true 0) = false ∧
    (shapeOf ((engState id).me.drec 0) []).outside ((engState id).src 0 (.s 17) true 0) = true := by
  refine ⟨?_, by decide +kernel⟩
  intro d hd
  simp only [List.mem_cons, List.not_mem_nil, or_false] at hd
  rcases hd with rfl | rfl | rfl <;> exact tableOf_none _ _ _ (by decide +kernel)
theorem witness_EngineIssueChecks_targets : targetBad ((engState id).me.sreg (8 + 2)) 8 true = none ∧ verBad ((engState id).me.sreg (8 + 4)) = none ∧
    targetBad ((engState id).me.sreg (20 + 2)) 8 true = some (cAlign, 4) ∧ verBad ((engState id).me.sreg (20 + 4)) = some (cAlign, 7) ∧
    verBad ((engState id).me.sreg (6 + 4)) = some (cProtection, 0) ∧ targetBad ((engState id).me.sreg (6 + 2)) 8 true = none ∧
    ((engState id).src 0 (.s 10) true 0).toNat ≥ 2 ^ 56 ∧
    ((engState id).src 0 (.s 17) true 0).toNat < 2 ^ 56 ∧ ((engState id).src 0 (.s 17) true 0).toNat % 64 ≠ 0 ∧
    ((engState id).src 0 (.s 12) true 0).toNat % 64 = 0 := by decide +kernel
/-- Partition 0 with the device group 7 of devices 0 and 1. -/
def grouped (s : State) : State := { s with parts := s.parts.put 0 { s.part 0 with groups := (s.part 0).groups.put 7 { (default : CollGroup) with present := true, devs := [0, 1] } } }
theorem witness_EngineIssueChecks_coll : (engState id).collGroup 0 0 = none ∧ (grouped (engState id)).collGroup 0 (bitsOf ((engState id).me.sreg 24) 0 16) = some [0, 1] ∧
    targetBad ((engState id).me.sreg 25) 8 false = none ∧ bitsOf ((engState id).me.sreg 24) 16 4 < [0, 1].length := by decide +kernel
theorem witness_EngineIssueCommits : (effects [capA]).me.sett.phase = .effects ∧ (effects [capA]).me.caps = [capA] ∧ (effects [capA]).coreClear :=
  ⟨by decide, by decide, by decide, by decide⟩
def tiled (busy : Bool) : State :=
  { engState id with
    gangs := (default : Tbl Gang).put 0 { gangE with acc := gangE.acc.put 2 (some 3) }
    ops := if busy then (default : Tbl EngineOp).put 9 { (default : EngineOp) with live := true, kind := .accZero, tile := 3 } else default }
theorem witness_TemplatesShapesAndReads :
    (let s := engState fun t => { t with phase := .effects }
    s.me.sett.phase = .effects ∧ s.on gd ≠ []) ∧
    targetBad ((engState id).me.sreg (9 + 2)) 8 false = none ∧ targetBad ((engState id).me.sreg (8 + 2)) 8 false = some (cProtection, 0) ∧
    ((tiled false).gang (tiled false).me.gang).acc.get 2 = some 3 ∧ (tiled false).tileBusy (tiled false).me.core 3 = false ∧
    (((tiled false).core 0).tiles.get 3).poison = [] ∧ ((tiled false).gang (tiled false).me.gang).acc.get 1 = none ∧
    (tiled true).tileBusy (tiled true).me.core 3 = true := by decide +kernel
/-- Operand blocks that hold a valid record (D0's words) and an invalid one. -/
theorem witness_ShapeMake :
    (let s := on fun c => { c with s := (((c.s.put 0 0x1000000000010000).put 1 0x0000004000400040).put 2 0x0000004000000100).put 3 0x1000000000000000 }
    s.tableOf s.me (s.me.blockRec 0) = .ok [] ∧ shapeStatus (s.me.blockRec 0) [] = 0) ∧
    (let s := on fun c => { c with s := c.s.put 0 0x8000000000000000 }
    s.tableOf s.me (s.me.blockRec 0) = .ok [] ∧ shapeStatus (s.me.blockRec 0) [] ≠ 0) :=
  ⟨⟨tableOf_none _ _ _ (by decide +kernel), by decide +kernel⟩, ⟨tableOf_none _ _ _ (by decide +kernel), by decide +kernel⟩⟩

/-! Tokens: records at slots 0 and 1 of die 0; the gang's one row is the first. -/

def recA : TokSlot := ⟨true, 1, 0, 5, []⟩
def tokState (f : Sett → Sett) : State :=
  { memState f with
    pool := ((default : Tbl TokSlot).put 0 recA).put 1 recA
    gangs := (default : Tbl Gang).put 0 { gangA with rows := [⟨0x01000000, 7, false, 0, 0, 0⟩] } }
def capTok (h ctl : DWord) : Cap := ⟨0, 0, noLoc, [h, 0, ctl]⟩
def tokEffects (c : Cap) : State := tokState fun t => { t with phase := .effects, caps := [c] }
def tokRow (s : State) (c : Cap) : Bool := (s.gang s.me.gang).rows.any fun r => r.handle == (c.args.getD 0 0).setWidth 32 && !r.released
theorem witness_TokenReads : (∀ l ∈ (tokState id).on g1, (tokState id).tokLive (((tokState id).src 0 (.s 3) false l).setWidth 32) = true ∧
      ((tokState id).pool.get (tokKey (((tokState id).src 0 (.s 3) false l).setWidth 32))).poison = []) ∧
    0 ∈ (tokState id).on g1 ∧ (tokState id).tokLive (((tokState id).src 0 (.s 2) false 0).setWidth 32) = false := by decide +kernel
theorem witness_TokenSends : (∀ l ∈ (tokState id).on g1, (tokState id).tokOk (((tokState id).src 0 (.s 3) false l).setWidth 32)
      (some (((tokState id).src 2 (.const 2) false l).setWidth 32))) ∧
    (tokState id).tokLive (((tokState id).src 0 (.const 0) false 0).setWidth 32) = false ∧
    ¬ (tokState id).tokOk (((tokState id).src 0 (.s 3) false 0).setWidth 32) (some (((tokState id).src 2 (.const 0x21) false 0).setWidth 32)) := by
  refine ⟨fun l hl => ⟨?_, ?_⟩, by decide +kernel, fun h => absurd (h.2 _ rfl).1 (by decide +kernel)⟩
  · revert l; decide +kernel
  · intro c hc; cases hc; revert l; decide +kernel
theorem witness_TokSpawn : (tokState id).on g1 = 0 :: [1, 2] ∧ ((tokState id).src 0 (.s 4) true 0).toNat < 2 ^ 56 ∧
    ((tokState id).src 0 (.s 4) true 0).toNat % 128 ≠ 0 ∧
    ∀ l ∈ (tokState id).on g1,
      (let r := (tokState id).withCtl (((tokState id).src 2 (.const 2) false l).setWidth 32)
        (withPoison (tokState id) (tokState id).me 128 ((tokState id).resGlobal (tokState id).me 0 .load ((tokState id).src 0 (.s 2) true l).toNat 128))
      r = .ok (locOf r) ∧ ((tokState id).loadBytes (tokState id).me 0 l (locOf r) 128).isSome = true) := by decide +kernel
theorem witness_TokenCommits :
    (let s := tokEffects (capTok 0x01000000 2)
    s.me.sett.phase = .effects ∧ s.me.caps = [capTok 0x01000000 2] ∧ tokRow s (capTok 0x01000000 2) = true ∧
    (s.core s.me.core).cb = [] ∧ s.coreBusy s.me.core = false ∧ ctlDev 2 = s.dev ∧ s.placeAt (ctlOpn 2 / 64) (ctlOpn 2 % 64) false = some false ∧
    s.freeSlot (dieOf s.me.core) = some 2) ∧
    tokRow (tokEffects (capTok 0x01000001 2)) (capTok 0x01000001 2) = false := by decide +kernel
/-- Carders whose partition's operator table is swapped out take nothing. -/
def swappedOut : State :=
  { tokEffects (capTok 0x01000000 2) with
    dies := (default : Tbl Die).put 0 { (default : Die) with opTable := { (default : Region) with present := true, part := 1 } }
    parts := State.reset.parts.put 1 { (default : Partition) with swapped := true } }
theorem witness_TokenFull : swappedOut.placeAt (ctlOpn 2 / 64) (ctlOpn 2 % 64) (tokKey 0x01000000 / poolSlots != ctlOpn 2 / 64) = none := by
  decide +kernel
/-- A pool with its first n records in use. -/
def poolOf (n : Nat) : Tbl TokSlot := ⟨(List.range n).map fun i => (i, recA)⟩
theorem find_all {α : Type} [Inhabited α] (v : α) (l : List Nat) (k : Nat) (h : k ∈ l) : Cells.find (l.map fun i => (i, v)) k = some v := by
  induction l with
  | nil => cases h
  | cons a r ih =>
    simp only [List.map_cons, Cells.find]
    split
    · rfl
    · exact ih (by simpa [Ne.symm (by assumption : ¬ a = k)] using h)
theorem firstNat_none (p : Nat → Bool) (n i : Nat) (h : ∀ j, j < i + n → p j = false) : firstNat p n i = none := by
  induction n generalizing i with
  | zero => rfl
  | succ n ih =>
    have : p i = false := h i (by omega)
    simp only [firstNat, this, Bool.false_eq_true, if_false]
    exact ih (i + 1) fun j hj => h j (by omega)
theorem poolOf_get (n i : Nat) (h : i < n) : (poolOf n).get i = recA := by
  simp [Tbl.get, poolOf, find_all recA (List.range n) i (by simpa using h)]
theorem witness_TokenSlotsGone (s : State) (n : Nat) (h : poolSlots ≤ n) : { s with pool := poolOf n }.freeSlot 0 = none := by
  refine firstNat_none _ _ _ fun j hj => ?_
  have := poolOf_get n (0 * poolSlots + j) (by omega)
  simp only [this]
  rfl

/-! System registers, submission, survey. -/

def inval (s : State) : State := { s with invals := [⟨0, 0, 0, none⟩] }
theorem witness_SystemRegisters : (on id).me.popTrap = false ∧ SysReg.trPc ≠ .submit ∧ (effects [capA]).me.caps = [capA] ∧
    (effects [capA]).invBusy = false ∧ (inval (effects [capA])).invBusy = true := by decide
theorem witness_RegisterWriteSteps : (on fun c => { c with level := true }).supervisor 0 = true ∧ (on fun c => { c with level := true }).invBusy = false ∧
    (inval (on fun c => { c with level := true })).supervisor 0 = true ∧ (inval (on fun c => { c with level := true })).invBusy = true ∧
    paDev (pteAddr 0x1001) = State.reset.dev := by decide +kernel
/-- Producer 3 is partition 0's device producer and expects SEQ 7. -/
def producerA (f : Producer → Producer) : State :=
  { on id with producers := State.reset.producers.put 3 (f { (default : Producer) with v := true, devp := true, nextSeq := 7 }) }
theorem witness_Submission : ((producerA id).crew 0).place = .resident ∧ (producerA id).submitRoom = true ∧
    ((producerA id).producers.get 3).v = true ∧ ((producerA id).producers.get 3).part = ((producerA id).crew 0).part ∧
    ((producerA id).producers.get 3).devp = true ∧ ((producerA id).producers.get 3).spillHead = ((producerA id).producers.get 3).spillTail ∧
    ((producerA id).producers.get 3).intake.length < 16 ∧ ((producerA id).producers.get 2).v = false ∧
    2 ^ 31 ≤ ((6 : Word) - 7).toNat ∧ 0 < ((8 : Word) - 7).toNat ∧ ((8 : Word) - 7).toNat < 2 ^ 31 ∧ ((7 : Word) - 7).toNat = 0 ∧
    16 ≤ ((producerA fun p => { p with intake := List.replicate 16 0 }).producers.get 3).intake.length ∧
    ((producerA fun p => { p with intake := List.replicate 16 0 }).producers.get 3).splog2 = 0 := by decide +kernel
theorem witness_Surveys : (on id).on gd ≠ [] ∧ (0x0000000000000004 : DWord).toNat % 8 ≠ 0 ∧ (on id).survey 0 false 0x8000000000000000 = .privilege ∧
    bitsOf (0x9800000000000000 : DWord) 60 4 = 9 ∧
    bitsOf (0x9800000000000000 : DWord) 57 3 = 4 ∧ bitsOf (0x9800000000000020 : DWord) 0 43 = 8 * (3 + 1) ∧ ((on id).crew 0).place ≠ .free ∧
    ((on id).crew 0).part ≠ 1 ∧ (on id).survey 1 true 0 = .refused := by decide +kernel
theorem witness_Surveys_word : (on id).survey 0 false 0x9800000000000000 = .word (on id).boot.word ∧
    (effects [⟨0, 0, noLoc, [0x9800000000000008]⟩]).survey 0 false 0x9800000000000008 =
      .word ((effects [⟨0, 0, noLoc, [0x9800000000000008]⟩]).die 0).therm := ⟨rfl, rfl⟩

/-! The memory system. -/

def reqA (a : Nat) : HomeReq := { (default : HomeReq) with core := 0, bytes := [(a, 7)] }
theorem witness_HomesAndBuffers :
    (let s : State := { State.reset with inflight := [reqA 0x80] }
    s.inflight[0]? = some (reqA 0x80) ∧ s.mayPerform (reqA 0x80) = true ∧ s.inflight.take 0 = [] ∧ (reqA 0x80).dev = s.dev ∧
    (∀ b ∈ (reqA 0x80).bytes, isBacked b.1 = true) ∧ ∃ b ∈ (reqA (2 ^ 44)).bytes, isBacked b.1 = false) ∧
    (let s : State := { State.reset with cores := (default : Tbl Core).put 0 { (default : Core) with cb := [{ (default : CbLine) with line := 5 }] } }
    ∃ e ∈ (s.core 0).cb, e.line = 5) := by decide +kernel
theorem witness_InvalidationsWalksErrors :
    (let s : State := { on fun c => { c with part := 1 } with invals := [⟨0, 0, 0, none⟩], walks := [default] }
    s.invals = ⟨0, 0, 0, none⟩ :: [] ∧ s.inflight = [] ∧ s.translatedOpen 0 = false ∧
    (∀ e ∈ s.crews.cells, e.2.part = 0 → e.2.sett.phase = .idle) ∧ s.walks[0]? = some default) ∧
    isBacked (4 * 0x20) = true ∧
    (let s : State := { State.reset with cores := (default : Tbl Core).put 0 { (default : Core) with l1 := [{ (default : Line) with line := 5 }] } }
    ∃ e ∈ (s.core 0).l1, e.line = 5) ∧
    ((on id).crew 0).place = .resident ∧ 63 < ((on id).crew 0).budget := by decide +kernel

/-- An operator table that is frozen, as its digest and its seal say. -/
def frozenA (bs : List Byte) : State :=
  let x : Region := { (default : Region) with
    present := true, frozen := true, bytes := bs, digest := regionDigest (.opTable 0) []
    sealTag := sealOf State.reset.boot.kc (regionDigest (.opTable 0) []) 0 0 noCore 0 0 }
  { State.reset with dies := (default : Tbl Die).put 0 { (default : Die) with opTable := x }, poison := if bs = [] then [] else [0] }
theorem witness_ConfigurationRegions : (frozenA []).regionHeld (.opTable 0) = true ∧ ((frozenA []).region (.opTable 0)).frozen = true ∧
    ((frozenA []).region (.opTable 0)).failed = false ∧ (frozenA []).recRoom 0 1 = true :=
  ⟨rfl, rfl, rfl, rfl⟩
theorem witness_ConfigReload :
    (let g := (frozenA []).unitGather (tagReload (.opTable 0)) 0 false 0 0
    g.bad = none ∧ g.need = [] ∧ g.poisoned = false ∧ g.table = []) ∧
    (let g := (frozenA [1]).unitGather (tagReload (.opTable 0)) 0 false 0 1
    g.bad = none ∧ g.need = [] ∧ g.poisoned = true) := by decide +kernel
theorem witness_ConfigSealed : (frozenA []).sealed (.opTable 0) = true := beq_self_eq_true _
theorem witness_ConfigDigest : regionDigest (.opTable 0) [] = ((frozenA []).region (.opTable 0)).digest := rfl

/-- A fill and a consume that wait on operand buffer 0 of the gang, a ring of one buffer; each is the only operation. -/
def ringState (o : EngineOp) (x : Ring) : State :=
  { engState id with
    gangs := (default : Tbl Gang).put 0 { gangE with obs := (default : Tbl Ring).put 0 x }
    ops := (default : Tbl EngineOp).put 9 o }
def fillA : EngineOp := { (default : EngineOp) with
  live := true, kind := .tld, stage := .accepted, stamp := tgNone
  recS := 0x1000000000000000#64 ++ 0x0000002000000020#64 ++ 0x0000002000200020#64 ++ 0x1300000000010000#64 }
def consumeA : EngineOp := { (default : EngineOp) with live := true, kind := .mma, stage := .accepted, stamp := tgNone, tile := 3 }
theorem witness_Rings_fill :
    (let s := ringState fillA { (default : Ring) with fillers := [opWaiter 9] }
    let o := s.eop 9
    let x := s.ring (.localOb 0 0)
    9 < 2 ^ 56 ∧ tgSpc o.stamp = 3 ∧ o.live = true ∧ o.stage = .accepted ∧ (s.gang o.gang).live = true ∧ (s.gang o.gang).saved = false ∧
    s.matrixHeld 9 = false ∧ (s.ringGeo (.localOb 0 0)).isSome = true ∧ o.kind = .tld ∧ s.obRing o.gang o.oba = some (.localOb 0 0) ∧
    x.fillers.head? = some (opWaiter 9) ∧ x.canFill = true) := by decide +kernel
theorem witness_Rings_gather :
    (let s := ringState { fillA with recS := 0x1000000000000000#64 ++ 0x0000001000000010#64 ++ 0x0000001000010010#64 ++ 0x1300000000010000#64 } default
    let o := s.eop 9
    let g := s.gatherBox o.got (shapeOf o.recS o.tabS) (s.engLoc o (shapeOf o.recS o.tabS) .load) o.orgS
    g.bad = none ∧ g.need = []) := by decide +kernel
theorem witness_Rings_consume :
    (let s := ringState consumeA { (default : Ring) with consumers := [opWaiter 9], full := [0] }
    let o := s.eop 9
    let x := s.ring (.localOb 0 0)
    tgSpc o.stamp = 3 ∧ s.matrixHeld 9 = false ∧ (s.ringGeo (.localOb 0 0)).isSome = true ∧ o.kind = .mma ∧
    s.obRing o.gang o.oba = some (.localOb 0 0) ∧ s.obRing o.gang o.obb = some (.localOb 0 0) ∧ o.tile < tilesPerCore ∧
    x.consumers.head? = some (opWaiter 9) ∧ x.canRead = true) := by decide +kernel

/-- A record of partition 0 waits on die 0; its ring lies at page `ring`. -/
def recWaiting (ring : DWord) : State :=
  { State.reset with
    dies := (default : Tbl Die).put 0 { (default : Die) with recs := [⟨0, 5 * 2 ^ 64, false⟩] }
    parts := State.reset.parts.put 0 { State.reset.part 0 with frRing := ring } }
theorem witness_RecordDelivered :
    (let s := recWaiting 0x2000000000001000
    s.nextRec 0 = some ⟨0, 5 * 2 ^ 64, false⟩ ∧ (s.part 0).frStamp = 0 ∧ (s.part 0).frSeq < 2 ^ 64 ∧
    bitsOf (s.part 0).frRing 12 44 * 4096 + 32 * ((s.part 0).frSeq % 2 ^ bitsOf (s.part 0).frRing 59 5) = 0x1000 ∧
    s.unitXlat 0 true .store 0x1000 = .ok s.dev 0x1000 0) := by decide +kernel
def wrote : Except (BitVec 8) State → Bool
  | .ok _ => true
  | .error _ => false
theorem witness_RecordWritten : wrote ((recWaiting 0x2000000000001000).writeRec ⟨0, 5 * 2 ^ 64, false⟩) = true := by decide +kernel
theorem witness_RecordFails : (recWaiting 0x20F0000000001000).nextRec 0 = some ⟨0, 5 * 2 ^ 64, false⟩ ∧
    wrote ((recWaiting 0x20F0000000001000).writeRec ⟨0, 5 * 2 ^ 64, false⟩) = false := by decide +kernel
/-- A parked KV load of crew 0 that the supervisor acts on. -/
def parkedKv (act : Nat) : State :=
  { on id with dies := (default : Tbl Die).put 0 { (default : Die) with
      fq := (default : Tbl FqEntry).put 4 ⟨true, 0, cKvMiss, 0, 0, .ldkv 0 0 3 0, 0, 0, 0, false, false, false, 0, act⟩ } }
theorem witness_Parked : ∀ act ∈ [1, 2],
    (let s := parkedKv act
    let e := (s.die 0).fq.get 4
    e.valid = true ∧ (s.die 0).fqTurn e = true ∧ e.who = .ldkv 0 0 3 0 ∧ (s.crew 0).place ≠ .free ∧ (s.crew 0).epoch = 0 ∧ e.act = act) := by
  decide +kernel
theorem witness_Watchdog : bitsOf ((on id).part 0).wdog 0 32 = 0 ∧
    (let s := vectored (on id)
    let s : State := { s with parts := s.parts.put 0 { s.part 0 with wdog := 9 } }
    bitsOf (s.part (s.crew 0).part).wdog 0 32 ≠ 0 ∧ (s.crew 0).place = .resident ∧ (s.crew 0).inBench = false ∧ (s.crew 0).sett.phase = .exec ∧
    (s.crew 0).paths ≠ [] ∧ s.trapReady 0 = true ∧ nestBit (s.crew 0).trCause = false ∧ bitsOf (s.part (s.crew 0).part).trVec 0 56 ≠ 0) := by
  decide +kernel

/-! Setts: code at several addresses, each the header of one slot and its slot word unless said otherwise. -/

def cells64 (a w : Nat) : List Host.Cell := ((List.range 8).map fun i => (a + i, BitVec.ofNat 8 (w / 256 ^ i))).filter fun c => c.2 != 0
/-- 0x1000: a word that is no header. 0x2000: reserved bit 32. 0x3000: LITMASK bit 1. 0x4000: budget 256. 0x5000: a reserved OP. 0x6000: TRET.
0x7000: IADD. 0x8000: QPOP. -/
def codeA : Memory := ⟨cells64 0x1000 0x0A00000000000380 ++ cells64 0x2000 0xF000000100000000 ++ cells64 0x2008 0x0A00000000000380 ++
  cells64 0x3000 0xF000000000000002 ++ cells64 0x3008 0x0A00000000000380 ++ cells64 0x4000 0xF007C00000000000 ++ cells64 0x4008 0x0A00000000000380 ++
  cells64 0x5000 0xF000000000000000 ++ cells64 0x5008 0xFF00000000000380 ++ cells64 0x6000 0xF000000000000000 ++ cells64 0x6008 0xE800000000000380 ++
  cells64 0x7000 0xF000000000000000 ++ cells64 0x7008 0x1000010010000380 ++ cells64 0x8000 0xF000000000000000 ++ cells64 0x8008 0xB700000000000380, []⟩
def pathAt (pc : Nat) : Path := ⟨pc, 0xFFFFFFFF, none, 0⟩
def startAt (pc : Nat) (f : Crew → Crew) : State :=
  { on fun c => f { c with sett := default, paths := [pathAt pc] } with mem := codeA }
theorem mayStart (pc : Nat) : (startAt pc id).MayStart := ⟨rfl, rfl, rfl, rfl, fun _ h => nomatch h⟩
/-- The header and slot word fetched at an address. -/
def fetches (pc : Nat) (f : Crew → Crew) (hd w : DWord) : Bool :=
  let s := startAt pc f
  let t := s.atStart [pathAt pc]
  s.me.pick == some [pathAt pc] && t.fetchWord s.cur s.me.level pc == .word hd &&
    t.fetchAll s.cur s.me.level pc (pc + 8) 1 == ([w], none)
theorem witness_SettStarts : fetches 0x1000 id 0x0A00000000000380 0 = true ∧ fetches 0x2000 id 0xF000000100000000 0x0A00000000000380 = true ∧
    fetches 0x3000 id 0xF000000000000002 0x0A00000000000380 = true ∧ fetches 0x4000 id 0xF007C00000000000 0x0A00000000000380 = true ∧
    fetches 0x5000 id 0xF000000000000000 0xFF00000000000380 = true ∧ fetches 0x6000 id 0xF000000000000000 0xE800000000000380 = true ∧
    fetches 0x7000 id 0xF000000000000000 0x1000010010000380 = true ∧
    fetches 0x8000 (fun c => { c with inTrap := true }) 0xF000000000000000 0xB700000000000380 = true ∧
    (startAt 0x1000 id).me.pendTrap = none := by decide +kernel
theorem witness_SettStarts_fetched : (startAt 0x7000 id).Fetched [pathAt 0x7000] 0xF000000000000000 [0x1000010010000380] := by
  have h : fetches 0x7000 id 0xF000000000000000 0x1000010010000380 = true := by decide +kernel
  simp only [fetches, Bool.and_eq_true, beq_iff_eq] at h
  exact ⟨h.1.1, h.1.2, h.2⟩
theorem witness_SettStarts_checks : isHeader 0x0A00000000000380 = false ∧ isHeader 0xF000000100000000 = true ∧
    (Header.ofWord 0xF000000100000000).resv ≠ 0 ∧ (Header.ofWord 0xF000000000000002).resv = 0 ∧
    bitsOf (Header.ofWord 0xF000000000000002).lit ((Header.ofWord 0xF000000000000002).nm1.toNat + 1) 32 ≠ 0 ∧
    bitsOf (Header.ofWord 0xF007C00000000000).lit 1 32 = 0 ∧ 8 * ((Header.ofWord 0xF007C00000000000).budm1.toNat + 1) > 64 ∧
    checkHeader (Header.ofWord 0xF000000000000000) 64 [0x1000010010000380] = none ∧
    (slotInstrs 0 0 [0xFF00000000000380])[0]? = some (some (.refused .reservedOp)) ∧
    (slotInstrs 0 0 [0xE800000000000380])[0]? = some (some (.instr (.tret gd))) ∧
    slotIllegal (slotInstrs 0 0 [0xE800000000000380]) 0 (.tret gd) = false ∧ (Instr.tret gd).features &&& ~~~Config.feat = 0 ∧
    (Instr.tret gd).privileged = true ∧
    (let ds := slotInstrs 0 0 [0x1000010010000380]
    checkSlots false 64 ds 0 ds = none ∧ settPops ds = [] ∧ settPushes ds = []) ∧
    (let ds := slotInstrs 0 0 [0xB700000000000380]
    checkSlots false 64 ds 0 ds = none ∧
    ((settPops ds).filter fun p => p.2.2 == 0 && !(startAt 0x8000 id).boundQueue 0 0).length > (((startAt 0x8000 id).core 0).queues.get 0).entries.length) := by
  decide +kernel
theorem witness_SettStarts_owed : (startAt 0x1000 fun c => { c with pendTrap := some (cUncorrectable, 0x80) }).me.pick = some [pathAt 0x1000] ∧
    (startAt 0x1000 fun c => { c with pendTrap := some (cUncorrectable, 0x80) }).me.pendTrap = some (cUncorrectable, 0x80) := by decide

/-- A sett of one slot that has run; its fall-through is 0x1010. -/
def ranSett (phase : Phase) (pc : Nat) (fl : BitVec 5) (run : Nat) : State :=
  on fun c => { c with
    fpsr := 0x1F00, paths := [⟨0x1000, 0xFFFFFFFF, none, run⟩], sett := { c.sett with phase := phase, slot := 1, pc := pc, words := [0x0A00000000000380], flags := fl } }
theorem witness_SettCommits :
    (let s := ranSett .exec 0x1000 0 0
    s.me.paths = pathAt 0x1000 :: [] ∧ s.me.sett.exc = none ∧ s.me.sett.nslots ≤ s.me.sett.slot ∧ s.me.sett.ctlInstr = none ∧ s.me.fpTrap = none ∧
    s.me.sett.waits = [] ∧ s.me.sett.stores = [] ∧ s.me.sett.caps = [] ∧ s.me.sett.sfuPend = []) ∧
    (inSett fun t => { t with sfuPend := [0], slot := t.nslots }).me.sett.sfuPend ≠ [] ∧
    (ranSett .exec 0x1000 2 0).me.fpTrap = some ⟨cFpException, 0, 0, 0, 2⟩ ∧ bitsOf (ranSett .exec 0x1004 0 0).me.sett.fall 0 3 ≠ 0 ∧
    (ranSett .effects 0x1000 0 62).me.run.run < 63 ∧ 63 ≤ (ranSett .effects 0x1000 0 63).me.run.run ∧
    (ranSett .effects 0x1000 0 63).me.inTrap = false := by decide
theorem witness_SettCommits_passes : (ranSett .exec 0x1000 0 0).passes (fun _ => false) [(ranSett .exec 0x1000 0 0).me.sett.fall] :=
  passes_of (by decide +kernel)
theorem witness_QuarterIssue : ((startAt 0x7000 id).crew 0).place = .resident ∧
    ((startAt 0x7000 id).core 0).issue.get 0 = 0 ∧ (startAt 0x7000 id).oldestReady 0 0 0 = some 0 ∧ (startAt 0x7000 id).ready 0 = true ∧
    (let s := { startAt 0x7000 id with cores := (default : Tbl Core).put 0 { (default : Core) with issue := (default : Tbl Nat).put 0 1 } }
    (s.core 0).issue.get 0 = 1 ∧ s.ready 0 = true ∧ (s.core 0).streak.get 0 < 1024 ∧ (s.core (s.crew 3).core).issue.get (s.crew 3).quarter ≠ 3 + 1) ∧
    (State.reset.crew 0).place ≠ .resident := by decide +kernel
theorem witness_NopAndBoundQueues : (inSett fun t => { t with popBad := [0] }).on gd ≠ [] ∧ (inSett fun t => { t with popBad := [0] }).me.popTrap = true := by
  decide
theorem witness_StepRunsDecoded : ∀ ph ∈ [Phase.exec, .effects, .control],
    (let s := inSett fun t => { t with phase := ph, words := [0x1000010010000380] }
    s.agenda = [] ∧ s.mayIssue s.cur = true ∧ s.me.stall = 0 ∧ s.me.sett.exc = none ∧ s.me.sett.slot < s.me.sett.nslots ∧ s.me.sett.awaits (.iadd ⟨.v 1, .v 0, .s 0, gd⟩ .n32 false) = false ∧
    decode (s.me.sett.words.getD s.me.sett.slot 0) = .instr (.iadd ⟨.v 1, .v 0, .s 0, gd⟩ .n32 false) ∧
    s.me.readsPoison (.iadd ⟨.v 1, .v 0, .s 0, gd⟩ .n32 false) = false) := by decide +kernel
theorem witness_EncodeDecode : (Instr.iadd ⟨.v 2, .v 4, .const 0, gd⟩ .n64 true).isWord = true ∧ Instr.wf (.iadd ⟨.v 2, .v 4, .const 0, gd⟩ .n64 true) = true := by
  decide
theorem witness_MemoryCanonical : MemOk State.reset ∧ MemOk (startAt 0x7000 id) := ⟨by unfold MemOk; decide, by unfold MemOk; decide +kernel⟩
def isNext : Host.Outcome State Fault Refusal → Bool
  | .next _ => true
  | _ => false
theorem next_of {o : Host.Outcome State Fault Refusal} (h : isNext o = true) : ∃ t, o = .next t := by
  cases o with
  | next t => exact ⟨t, rfl⟩
  | fault f => cases h
  | refused r => cases h
theorem witness_MemoryCanonical_step : ∃ t, step (State.reset.withFetchWord 64 0x1000010010000380) = .next t := next_of (by decide +kernel)

/-! Engine operations: number 9, of crew 0; boxes of 16 E4M3 values. -/

def recOf (b : DWord) : Rec256 := 0x1000000000000000#64 ++ 0x0000001000000010#64 ++ 0x0000001000100001#64 ++ (0x1300000000000000 ||| b)
def opA (k : OpKind) (st : OpStage) : EngineOp :=
  { (default : EngineOp) with live := true, kind := k, stage := st, recS := recOf 0x10000, recD := recOf 0x20000, stamp := tgNone }
def opState (o : EngineOp) : State :=
  { on id with
    gangs := (default : Tbl Gang).put 0 gangA
    ops := (default : Tbl EngineOp).put 9 o
    queues := (default : Tbl (List Nat)).put o.key [9] }
def poisoned (ws : List Nat) (s : State) : State := { s with poison := ws }
theorem witness_EngineAcceptance_issue : ∀ k ∈ [OpKind.mma, .copy],
    (let s := opState (opA k .issued)
    (s.eop 9).live = true ∧ (s.eop 9).stage = .issued ∧ s.firstIssued 9 = true ∧ s.opAway (s.eop 9) = false) := by decide +kernel
theorem witness_EngineAcceptance :
    (let s := opState (opA .copy .issued)
    let o := s.eop 9
    (s.engTable o o.recS).bad = none ∧ (s.engTable o o.recS).need = [] ∧ (s.engTable o o.recS).poisoned = false ∧
    shapeStatus o.recS (s.engTable o o.recS).table = 0 ∧ shapeStatus o.recD (s.engTable o o.recD).table = 0 ∧
    (let x := shapeOf o.recS []
    let y := shapeOf o.recD []
    x.boxes = y.boxes ∧ x.etype = y.etype ∧ x.outside o.orgS = false ∧ y.outside o.orgD = false ∧ x.space = y.space ∧ x.kvh = y.kvh ∧
    s.checkPair o x y o.orgS o.orgD 0 0 = 0 ∧ x.outside 1 = true ∧ (shapeOf (recOf 0x10008) []).touched 0 ≠ [] ∧
    (0x10008 ∈ x.touched 0 ∧ 0x10008 ∈ (shapeOf (recOf 0x10008) []).touched 0))) ∧
    (shapeOf (recOf 0 ^^^ 0x1#256 <<< 56) []).etype ≠ (shapeOf (recOf 0) []).etype ∧ shapeStatus (0x8000000000000000#64 ++ 0#192) [] ≠ 0 := by
  decide +kernel
/-- A record with a table, a word of which is poisoned. -/
theorem witness_EngineAcceptance_poison :
    (let s := poisoned [0x2000] (opState { opA .copy .issued with recS := 0x2000000000000080#64 ++ 0x0000001000000010#64 ++ 0x0000001000100001#64 ++ 0x1300000000010000#64 })
    let o := s.eop 9
    (s.engTable o o.recS).bad = none ∧ (s.engTable o o.recS).need = [] ∧ (s.engTable o o.recS).poisoned = true) := by decide +kernel
def landing (w : Scatter) (s : State) : Bool := w.bad.isNone && w.need.isEmpty && w.bytes.all fun b => b.1 == s.dev
theorem lands_of {w : Scatter} {s : State} (h : landing w s = true) : w.lands s := by
  simp only [landing, Bool.and_eq_true, Option.isNone_iff_eq_none, List.isEmpty_iff, List.all_eq_true, beq_iff_eq] at h
  exact ⟨h.1.1, h.1.2, h.2⟩
/-- Operation `k` under way: elements 3 and 4 are left, and the page of element 3 has a parked request. -/
def copying (k : OpKind) (parked : Bool) : EngineOp :=
  { opA k .accepted with left := [3, 4], held := if parked then [reqKey 0 false 0x20003] else [] }
def srcVal (r : ElemR) : Option Nat := match r with | .val v => some v | _ => none
theorem witness_CopiesPerform : ∀ k ∈ [OpKind.copy, .fired],
    (let s := opState (copying k false)
    let o := s.eop 9
    let y := shapeOf o.recD o.tabD
    o.live = true ∧ o.kind = k ∧ o.stage = .accepted ∧ s.opAway o = false ∧ (opState (opA k .accepted)).eop 9 = opA k .accepted ∧
    (∀ r ∈ o.requests 3, r ∉ o.held) ∧ srcVal (s.copySource o 3) = some 0 ∧
    landing (s.resolveBits o.got (s.engLoc o y .store) (y.scatterOne o.orgD [] 3 0)) s = true) := by
  decide +kernel
/-- Element 4 goes on behind the parked request of element 3 where their pages differ. -/
theorem witness_CopiesPerform_behind :
    (let s := opState { copying .copy false with recS := recOf 0xFFFFC, held := [reqKey 0 false 0xFFFFF] }
    let o := s.eop 9
    (∀ p ∈ [3], ((o.requests p).any fun r => o.held.contains r) = true) ∧ (∀ r ∈ o.requests 4, r ∉ o.held) ∧
    srcVal (s.copySource o 4) = some 0) := by
  decide +kernel
theorem witness_CopiesPerform_poison :
    (let s := poisoned [0x4000] (opState (copying .copy false))
    (match s.copySource (s.eop 9) 3 with | .poison => true | _ => false) = true) := by decide +kernel
theorem witness_CopiesPerform_parks :
    (let s := opState { copying .copy false with recS := recOf 0xF0000000000000 }
    let o := s.eop 9
    (match s.copySource o 3 with | .bad .. => true | _ => false) = true ∧ (s.die (dieOf o.core)).freeFq = some 0 ∧
    s.recRoom (dieOf o.core) 1 = true) := by decide +kernel
theorem witness_Apart : (shapeOf (recOf 0x20000) []).Apart 0 := by
  refine ⟨by decide +kernel, ?_, ?_⟩
  · have h : ∀ q, q < 16 → (shapeOf (recOf 0x20000) []).elemIn 0 q = true → ((shapeOf (recOf 0x20000) []).elemBytes 0 q).2 = 0 ∧
      (shapeOf (recOf 0x20000) []).w = 8 * ((shapeOf (recOf 0x20000) []).elemBytes 0 q).1.length ∧
      ((shapeOf (recOf 0x20000) []).elemBytes 0 q).1.Nodup := by decide +kernel
    have c : (shapeOf (recOf 0x20000) []).count = 16 := by decide +kernel
    rw [c]; exact h
  · have h : ∀ p, p < 16 → ∀ q, q < 16 → p ≠ q → (((shapeOf (recOf 0x20000) []).elemBytes 0 p).1.all fun a =>
      !((shapeOf (recOf 0x20000) []).elemBytes 0 q).1.contains a) = true := by decide +kernel
    have c : (shapeOf (recOf 0x20000) []).count = 16 := by decide +kernel
    rw [c]
    intro p q hp hq n _ _ a ha
    have := List.all_eq_true.1 (h p hp q hq n) a ha
    simpa using this
theorem witness_OperationsEnd :
    (let s := opState (opA .copy .performed)
    (s.eop 9).live = true ∧ (s.eop 9).kind ≠ .mc ∧ (s.eop 9).kind ≠ .tokSend ∧ (s.eop 9).stage = .performed ∧ s.opAway (s.eop 9) = false ∧
    s.stampTurn 9 = true ∧ s.opWaits 9 = false ∧ tgSpc (s.eop 9).stamp = 3) ∧
    (let s := opState { opA .copy .performed with stamp := 0x80 }
    tgSpc (s.eop 9).stamp ≠ 3 ∧ isLoc (s.targetLoc 0 0 0 0 false (s.eop 9).stamp) = true) := by decide +kernel
def verLoc : Loc := ⟨.global, 0x80, 0, 0x80, 0⟩
def condA (st : OpStage) (x : DWord) : EngineOp :=
  { opA .cond st with ver := 0x80, expect := x, locs := [verLoc], reserved := st != .accepted, branches := [default] }
def reservedBy (n : Nat) (s : State) : State := { s with reservations := [(0x80, 0, n)] }
theorem witness_ConditionalCopies_reserves :
    (let s := opState (condA .accepted 0)
    let o := s.eop 9
    let g := s.gatherBox o.got (shapeOf o.recS o.tabS) (s.engLoc o (shapeOf o.recS o.tabS) .load) o.orgS
    o.live = true ∧ o.kind = .cond ∧ g.bad = none ∧ g.need = [] ∧ isLoc (s.targetLoc o.part o.crew o.gang o.core o.level o.ver) = true) := by
  decide +kernel
theorem witness_ConditionalCopies_compares :
    (let s := reservedBy 9 (opState (condA .blocked 0))
    let o := s.eop 9
    o.stage = .blocked ∧ o.reserved = true ∧ o.locs = [verLoc] ∧ verLoc.dev = s.dev ∧ o.got = [] ∧ s.poisonedIn verLoc.pa 8 = none ∧
    verLoc.pa % 4 = 0 ∧ s.reservedFirst 9 = true ∧ s.readVal verLoc.pa 8 = o.expect.toNat) ∧
    (reservedBy 3 (opState (condA .blocked 0))).reservedFirst 9 = false ∧
    (reservedBy 9 (opState (condA .blocked 7))).readVal verLoc.pa 8 ≠ ((reservedBy 9 (opState (condA .blocked 7))).eop 9).expect.toNat := by
  decide +kernel
theorem witness_ConditionalCopies_performs :
    (let s := reservedBy 9 (opState { condA .started 0 with left := [3, 4] })
    let o := s.eop 9
    let y := shapeOf o.recD o.tabD
    o.stage = .started ∧ o.reserved = true ∧ o.locs = [verLoc] ∧ o.left = [] ++ 3 :: [4] ∧ (∀ r ∈ o.requests 3, r ∉ o.held) ∧
    srcVal (s.copySource o 3) = some 0 ∧ landing (s.resolveBits o.got (s.engLoc o y .store) (y.scatterOne o.orgD [] 3 0)) s = true) ∧
    ((opState (condA .started 0)).eop 9).left = [] ∧ (opState (condA .started 0)).opWaits 9 = false := by decide +kernel
/-- Core 0's template 2, armed on queue 5, which holds a token. -/
def templated (q : List (Nat × DWord)) : State :=
  { on id with cores := (default : Tbl Core).put 0 { (default : Core) with
      templates := (default : Tbl Template).put 2 { (default : Template) with armed := true, queue := 5 }
      queues := (default : Tbl Queue).put 5 { (default : Queue) with entries := q } } }
theorem witness_TemplatesFire : (((templated [(3, 1)]).core 0).queues.get 5).entries = (3, 1) :: [] ∧
    (((templated [(3, 1)]).core 0).templates.get 2).armed = true ∧ ((templated [(3, 1)]).firedOpen 0 2).length < 8 ∧
    ((templated [(3, 1)]).queues.get (engKey 0 .copy)).length < 32 ∧ (((templated []).core 0).queues.get 5).entries = [] ∧
    (((templated []).core 0).templates.get 1).armed = false := by decide +kernel
def branchA (n : Nat) : Branch := { (default : Branch) with
  shape := recOf 0x20000, stamp := tgNone, delivered := n, slack := 1, staged := [List.replicate 16 5], stagedBad := [[]] }
def mcA (pos : Nat) (b : Branch) : EngineOp := { opA .mc .accepted with accepted := true, n := 4, pos := pos, branches := [b] }
theorem witness_Multicasts :
    (let s := opState (mcA 1 (branchA 0))
    let o := s.eop 9
    let b := o.branches.getD 0 default
    o.accepted = true ∧ (∃ b ∈ o.branches, b.delivered < o.n ∧ b.ended = false) ∧ o.pos < o.n ∧
    (∀ b ∈ o.branches, b.delivered < o.n → o.pos - b.delivered ≤ b.slack) ∧ b.parked = false ∧ b.staged = List.replicate 16 5 :: [] ∧
    b.stagedBad = [] :: [] ∧ b.yd = false ∧
    landing (s.resolveBits o.got (s.engLoc o ((shapeOf b.shape b.tab).move (b.delivered * b.dstep.toNat)) .store)
      (((shapeOf b.shape b.tab).move (b.delivered * b.dstep.toNat)).scatter b.origin (unpackTile (shapeOf o.recS o.tabS) (List.replicate 16 5) []))) s = true) ∧
    (∃ b ∈ (mcA 2 (branchA 0)).branches, b.delivered < (mcA 2 (branchA 0)).n ∧ b.ended = false ∧ (mcA 2 (branchA 0)).pos - b.delivered > b.slack) ∧
    (∀ b ∈ (mcA 4 { branchA 4 with stamped := true }).branches, b.stamped = true ∧ ¬ (b.delivered < 4 ∧ b.ended = false)) ∧
    (opState (mcA 4 { branchA 4 with stamped := true })).opAway (mcA 4 { branchA 4 with stamped := true }) = false ∧
    (opState (mcA 4 { branchA 4 with stamped := true })).opWaits 9 = false := by decide +kernel
/-- A branch whose destination is address generator 0 of yard 0, a FIFO of the gang's. -/
def fifoState : State :=
  { opState (mcA 1 { branchA 0 with yd := true, window := 2 }) with
    yards := (default : Tbl Yard).put 0 { (default : Yard) with
      configured := true, modes := [0x8000000100020000, 0, 0, 0]
      regions := (default : Tbl Ring).put 0 { (default : Ring) with fillers := [branchWaiter 9 0] } } }
theorem witness_Multicasts_fifo :
    (let s := fifoState
    let o := s.eop 9
    let b := o.branches.getD 0 default
    b.yd = true ∧ s.branchRing o b = some (.yard 0 0, ⟨yardAp 0, 64, 2⟩) ∧ s.ringGeo (.yard 0 0) = some ⟨yardAp 0, 64, 2⟩ ∧
    (s.ring (.yard 0 0)).owned (branchWaiter 9 0) < b.window ∧ (s.ring (.yard 0 0)).fillers.head? = some (branchWaiter 9 0) ∧
    (s.ring (.yard 0 0)).canFill = true) := by decide +kernel
/-- A collective of devices 0 and 1, at a stage, and device 1's share of its instance 1. -/
def collA (st : OpStage) (got : Bool) : State :=
  let o := { opA .coll st with tile := 7, ta := 0x13, pos := if st = .issued then 0 else 1, branches := [{ (default : Branch) with staged := [List.replicate 16 0], stagedBad := [[]] }] }
  let s := grouped (opState o)
  { s with contribs := if got then [⟨o.part, 7, 1, 1, collHeader o 16 :: List.replicate 16 0⟩] else [] }
theorem witness_Collectives_issued :
    (let s := collA .issued false
    let o := s.eop 9
    o.live = true ∧ o.kind = .coll ∧ s.collGroup o.part o.tile = some [0, 1] ∧ s.opAway o = false ∧ s.firstIssued 9 = true ∧ o.pos = 0) := by decide +kernel
theorem witness_Collectives_shares :
    (let s := collA .accepted false
    let o := s.eop 9
    let g := s.gatherBox o.got (shapeOf o.recS o.tabS) (s.engLoc o (shapeOf o.recS o.tabS) .load) 0
    s.opAway o = false ∧ g.bad = none ∧ g.need = []) := by decide +kernel
theorem witness_Collectives_ends :
    (let s := collA .started true
    let o := s.eop 9
    let x := shapeOf o.recS o.tabS
    let y := shapeOf o.recD o.tabD
    (s.collGroup o.part o.tile) = some [0, 1] ∧ s.contribOf o 1 = some (collHeader o x.count :: List.replicate 16 0) ∧
    (collHeader o x.count :: List.replicate 16 (0 : DWord)).length = x.events + 1 ∧
    landing (s.resolveBits o.got (s.engLoc o y .store) (y.scatter 0 (collResult o.oba o.obb o.ta o.rm 0 x.count y.count
      [unpackTile x (List.replicate 16 0) [], (List.replicate 16 (0 : DWord)).map fun v => some (v.toNat % 2 ^ x.w)]))) s = true) ∧
    (collA .started false).contribOf ((collA .started false).eop 9) 1 = none := by decide +kernel
theorem witness_Collectives_sum : [[some 3], [some 5]] ≠ [] ∧ [[some 3], [some 5]].length ≤ 16 ∧ (∀ v ∈ [3, 5], v < 2 ^ 32) ∧
    ([[some 3], [some 5]] : List (List (Option Nat))).map (fun m => m.getD 0 none) = [3, 5].map some := by decide

/-! Matrix operations: operation 9 first on its two operand buffers. -/

def gangM : Gang := { gangE with
  lrec := gangE.lrec ||| BitVec.ofNat 4096 ((2 ^ 63 + 16 * 2 ^ 32 + 16) * 2 ^ 1088), acc := (default : Tbl (Option Nat)).put 0 (some 25)
  obs := ((default : Tbl Ring).put 0 { (default : Ring) with full := [0], consumers := [opWaiter 9] }).put 1
    { (default : Ring) with full := [0], consumers := [opWaiter 9] } }
def matState (o : EngineOp) : State := { opState o with gangs := (default : Tbl Gang).put 0 gangM }
def matA (k : OpKind) : EngineOp := { opA k .accepted with tile := 3, ta := 4, obb := 1, kd := 16 }
theorem witness_MatrixOperations : ∀ k ∈ [OpKind.accZero, .accNew, .mma, .accLd, .accSt],
    (let s := matState (matA k)
    let o := s.eop 9
    o.live = true ∧ o.stage = .accepted ∧ (s.gang o.gang).live = true ∧ (s.gang o.gang).saved = false ∧ s.matrixHeld 9 = false ∧
    tgSpc o.stamp = 3 ∧ s.opWaits 9 = false ∧ o.tile < 16) := by decide +kernel
theorem witness_MatrixOperations_mma :
    (let s := matState (matA .mma)
    let o := s.eop 9
    let ra : RingSel := .localOb 0 0
    let rb : RingSel := .localOb 0 1
    ra ≠ rb ∧ s.obRing o.gang o.oba = some ra ∧ s.obRing o.gang o.obb = some rb ∧ (s.ringGeo ra).isSome = true ∧ (s.ringGeo rb).isSome = true ∧
    (s.ring ra).consumers.head? = some (opWaiter 9) ∧ (s.ring rb).consumers.head? = some (opWaiter 9) ∧ (s.ring ra).canRead = true ∧
    (s.ring rb).canRead = true ∧ (s.ring ra).spans.get (s.ring ra).read = 0 ∧ (s.ring rb).spans.get (s.ring rb).read = 0 ∧
    o.ta ∈ [0x00, 0x04] ∧ o.tb ∈ [0x00, 0x04] ∧ o.kd % 16 = 0 ∧ s.poison = [] ∧ ((s.core o.core).tiles.get o.tile).poison = []) := by decide +kernel
theorem witness_MatrixOperations_store :
    (let s := matState (matA .accSt)
    let o := s.eop 9
    let x := (shapeOf o.recS o.tabS).flat
    landing (s.resolveBits o.got (s.engLoc o x .store) (x.scatter o.orgS ((List.range 4096).map fun n =>
      some (accStore x.etype (rmOf o.rm) o.sat (((s.core o.core).tiles.get o.tile).words.get n))))) s = true) := by decide +kernel
theorem witness_MatrixOperations_bind :
    (let s := matState { matA .accZero with tile := 25 }
    let o := s.eop 9
    o.tile = 16 + 9 ∧ (s.core o.core).freeTile = some 0 ∧ (s.gang o.gang).acc.get 0 = some o.tile) ∧
    (let s : State := { tiled true with cores := (default : Tbl Core).put 0 { (default : Core) with
      tiles := ((default : Tbl Tile).put 3 { (default : Tile) with draining := true, gang := some 0 }).put 4 { (default : Tile) with draining := true, gang := some 0 } } }
    ((s.core 0).tiles.get 3).draining = true ∧ ((s.core 0).tiles.get 3).gang.isSome = true ∧ s.tileBusy 0 3 = true ∧ s.tileBusy 0 4 = false) := by
  decide +kernel

/-! Carders and the carousel of die 0: operator 0, whose entry is valid with a HEIGHT of 1 and a TIMEOUT of 5. -/

def entryA : Nat := 2 ^ 63 + 5
def packetA : Packet := { (default : Packet) with handle := 0x01000000 }
def tableA (entry : Nat) : Region := { (default : Region) with present := true, bytes := leBytes 32 entry }
def carState (c : Carder) (d : Die → Die) : State :=
  { tokState id with
    carders := (default : Tbl Carder).put 0 c
    dies := (default : Tbl Die).put 0 (d { (default : Die) with opTable := tableA entryA, spills := leBytes 16 (3 * 2 ^ 64 + 0x40000) }) }
theorem witness_TokensAccepted :
    (let s := carState { (default : Carder) with inbound := [packetA] } id
    let c := s.carder 0 0
    s.carderOut 0 = false ∧ c.sendParked = false ∧ c.inbound = packetA :: [] ∧ packetA.spill = false ∧ c.waiting.length < 4096 ∧
    packetA.fromDie = none ∧ packetA.src = none ∧ (s.pool.get (0 * 32768 + 2)).genNow < 16 ∧ (∀ f ∈ s.dieFrames, f.lost = false) ∧
    s.freeSlot 0 = some 2 ∧ s.dev < 16) := by decide +kernel
theorem witness_TokensAccepted_full (l : List Word) (h : 4096 ≤ l.length) :
    ((carState { (default : Carder) with waiting := l } id).carder 0 0).waiting.length ≥ 4096 := by
  show l.length ≥ 4096; exact h
theorem witness_TokensAccepted_full_length (n : Nat) : n ≤ (List.replicate n (0 : Word)).length := by simp
theorem witness_TokensAccepted_spill :
    (let s := carState { (default : Carder) with inbound := [{ packetA with spill := true }], spillTail := 2 } id
    s.unitXlat (s.die 0).spillPart false .store (s.spillVa 0 0 (s.carder 0 0).spillTail) = .ok s.dev 0x40020 0) ∧
    (let s : State := { carState { (default : Carder) with spillTail := 1 } id with mem := ⟨cells64 0x40008 0x01000000, []⟩ }
    let g := s.readSpill 0 0
    (s.carder 0 0).parked = false ∧ (s.carder 0 0).spillHead < (s.carder 0 0).spillTail ∧ g.bad = none ∧ g.need = [] ∧ g.poisoned = false ∧
    s.tokLive (BitVec.ofNat 32 (leNat g.table / 2 ^ 64)) = true) ∧
    (let s : State := { tokState id with dieFrames := [⟨1, packetA, 2, 0, none, 0x01000000, false, true⟩] }
    ∃ f ∈ s.dieFrames, f.src = none ∧ f.accepted = true ∧ (s.pool.get f.slot).genNow < 16) := by decide +kernel
theorem witness_BattsFormAndGo :
    (let s := carState { (default : Carder) with waiting := [0x01000000] } id
    let c := s.carder 0 0
    s.carderRuns 0 0 = true ∧ c.batt = none ∧ c.waiting ≠ [] ∧ bitsOf (s.opEntry 0 0) 41 7 + 1 = 1 ∧ bitsOf (s.opEntry 0 0) 0 32 ≠ 0 ∧
    (s.pool.get (tokKey 0x01000000)).poison = [] ∧ oePin (s.opEntry 0 0) = false ∧ rcParent (s.tok 0x01000000) = 0) ∧
    ((carState { (default : Carder) with batt := some ⟨[⟨0x01000000, 7, false, 0, 0, 0⟩]⟩, boarding := true } id).carder 0 0).boarding = true ∧
    (let s := carState { (default : Carder) with waiting := [0x01000000] } fun d => { d with opTable := tableA (entryA + 2 ^ 41 - 5) }
    bitsOf (s.opEntry 0 0) 41 7 + 1 = 2 ∧ bitsOf (s.opEntry 0 0) 0 32 = 0) := by decide +kernel
/-- A carousel program of one entry with n tiles of 64 bytes to address generator 0 of yard 0. -/
def programA (n : Nat) : Region :=
  { (default : Region) with present := true, bytes := leBytes 32 0 ++ leBytes 32 (2 ^ 207 + n * 2 ^ 128 + 2 ^ 64 + 0x10000) }
def carouselState (n : Nat) (batt : Option Batt) (pass : Option Pass) (aside : List Pass := []) : State :=
  { carState { (default : Carder) with batt := batt } fun d => { d with carousel := programA n, pass := pass, aside := aside } with
    yards := (default : Tbl Yard).put 0 { (default : Yard) with configured := true, modes := [0x8000000100020000, 0, 0, 0] } }
theorem witness_CarouselPasses :
    (let s := carouselState 1 (some ⟨[]⟩) none
    let d := s.die 0
    d.carousel.present = true ∧ d.carousel.frozen = false ∧ d.pass = none ∧ d.pend = [] ∧ d.aside = [] ∧ s.carderOut 0 = false ∧ s.carCount 0 = 1 ∧
    s.entryWaits 0 0 = true ∧ s.waitsToBoard 0 0 0 = true) ∧
    (∀ k, k < (carouselState 1 none none).carCount 0 → (carouselState 1 none none).entryWaits 0 ((((carouselState 1 none none).die 0).standing + k) % 1) = false) ∧
    (∀ n ∈ [1, 2],
      (let s := carouselState n none (some default)
      let p : Pass := default
      let e := s.carEntry 0 p.entry
      let r : RingSel := .yard 0 0
      (s.die 0).pass = some p ∧ p.parked = false ∧ p.loaded = false ∧ p.given = [] ∧ p.lost = [] ∧ s.carderOut 0 = false ∧
      carDests 0 e = [(0, r)] ∧ s.ringGeo r = some ⟨yardAp 0, 64, 2⟩ ∧ (s.ring r).fillers = [] ∧ (s.ring r).canFill = true ∧ ceTiles e = n ∧
      (let g := s.unitGather (tagCarousel 0) (s.die 0).carousel.part (s.die 0).carousel.level (ceBase e + p.tile * ceUnit e) (ceUnit e)
      g.bad = none ∧ g.need = [] ∧ g.poisoned = false))) := by decide +kernel
/-- A pass aside whose parked read has gone through, and a pass of an entry whose base no leaf maps. -/
theorem witness_CarouselPasses_aside :
    (let s := carouselState 1 none none [default]
    let d := s.die 0
    d.carousel.present = true ∧ d.carousel.frozen = false ∧ d.pass = none ∧ s.carderOut 0 = false ∧ d.aside = [default] ∧ (default : Pass).parked = false) ∧
    (let s : State := { carouselState 1 none (some default) with dies := (default : Tbl Die).put 0 { (default : Die) with
      pass := some default
      carousel := { programA 1 with bytes := leBytes 32 0 ++ leBytes 32 (2 ^ 207 + 2 ^ 128 + 2 ^ 64 + 0xF0000000000000) } } }
    ((s.readTile 0 default).bad.isSome = true ∧ (s.die 0).freeFq = some 0 ∧ s.recRoom 0 1 = true ∧ s.carderOut 0 = false)) := by decide +kernel
theorem witness_ConfigTakesEffect : ∀ k ∈ [true, false],
    (let p : PendConfig := { (default : PendConfig) with cmd := 3, carousel := k }
    let s := carState default fun d => { d with pend := [p] }
    (s.die 0).pass = none ∧ (s.die 0).aside = [] ∧ (s.die 0).pend = [p] ∧ (s.pendRegion 0 p).frozen = false ∧ (s.pendRegion 0 p).failed = false ∧ p.carousel = k ∧ ∀ op ∈ validOps p.region, ∀ j, j < 4 → grantOf (p.copies.get op) j = none) := by
  decide +kernel
/-- An empty table and a program of one entry pass their checks; a program with a byte beyond its header's first does not. -/
theorem witness_ConfigTakesEffect_checks :
    (let p : PendConfig := { (default : PendConfig) with cmd := 3 }
    let s := carState default fun d => { d with pend := [p] }
    (match (s.updDie 0 fun d => { d with pend := [] }).readCopies p.cmd p.region.bytes (List.range 64) with
      | .ok copies => !tableBad 0 p.region.bytes copies (s.die 0).programNext | _ => false) = true ∧
    programBad 0 (leBytes 32 0 ++ leBytes 32 (2 ^ 207 + 2 ^ 128 + 2 ^ 64 + 0x10000)) [] (s.die 0).copies = false ∧
    programBad 0 [0, 1] (s.die 0).opTable.bytes (s.die 0).copies = true) := by decide +kernel

/-! Placement: partition 0 holds cluster 0. -/

def launchRec (kib : Nat) : BitVec 4096 := BitVec.ofNat 4096 (kib * 2 ^ 27)
def placing (kib : Nat) (q : List PlaceReq) : State :=
  { State.reset with
    parts := State.reset.parts.put 0 { State.reset.part 0 with clusters := 1 }
    launches := (default : Tbl Launch).put 0 { (default : Launch) with live := true, lrec := launchRec kib }
    dies := (default : Tbl Die).put 0 { (default : Die) with placeq := q } }
def jobA : BattJob := { (default : BattJob) with rows := [⟨0x01000000, 7, false, 0, 0, 0⟩] }
/-- The placer takes the request, with one crew. -/
def taken (s : State) (r : PlaceReq) : Bool :=
  match s.nextPlace 0 with
  | some (q, f) => q == r && s.crews.keys.length + f.crews.length ≤ 16384 && f.crews.length == 1 && !(s.pool.get (tokKey 0x01000000)).poison.contains 4
  | none => false
theorem witness_Placement : ∀ r ∈ [PlaceReq.launchGang 0 5, .batt jobA], taken (placing 16 [r]) r = true := by decide +kernel
/-- Each core of the cluster holds a crew whose gang has 200 KiB of local memory. -/
def crowded : State :=
  { placing 200 [.launchGang 0 0] with
    crews := ⟨(List.range 8).map fun i => (i, { crewA with core := i, gang := i })⟩
    gangs := ⟨(List.range 8).map fun i => (i, { (default : Gang) with live := true, core := i, lrec := launchRec 200, crews := (default : Tbl Nat).put 0 i })⟩ }
theorem witness_Pressure : crowded.placeOrder 0 = .launchGang 0 0 :: [] ∧ crowded.nextPlace 0 = none ∧
    crowded.pressFor (crowded.wantOf 0 (.launchGang 0 0)) = some (0, 1) ∧ crowded.bestFit (crowded.wantOf 0 (.launchGang 0 0)) = none := by decide +kernel
def reserved : State :=
  { placing 0 [] with
    crews := (default : Tbl Crew).put 0 crewA
    gangs := (default : Tbl Gang).put 0 { (default : Gang) with live := true, reserve := [1], crews := (default : Tbl Nat).put 0 0 } }
theorem witness_Reserve : (reserved.core 0).pressed = none ∧ reserved.nextPlace (dieOf 0) = none ∧ reserved.crews.keys.length < 16384 ∧
    (((reserved.gangs.cells.filter fun e => e.2.core == 0).findSome? fun e => (reserved.reserveOf e.1).map fun x => (e.1, x)).isSome = true) ∧
    ((placing 16 [.launchGang 0 0]).nextPlace (dieOf 0)).isSome = true := by decide +kernel

/-! Lending: a pinned operator's batt on die 1, an idle core 0 of die 0. -/

def lendState (l : Tbl Lend) : State :=
  { tokState id with
    crews := default
    parts := State.reset.parts.put 0 { State.reset.part 0 with clusters := 1 }
    lends := l
    dies := (default : Tbl Die).put 1 { (default : Die) with
      opTable := tableA (2 ^ 63 + 2 ^ 62), placeq := [.batt { jobA with die := 1 }] } }
theorem witness_Lending :
    (let s := lendState default
    jobA.rows = [⟨0x01000000, 7, false, 0, 0, 0⟩] ∧ dieOf 0 ≠ 1 ∧ 0 < Config.cores ∧ s.onCore 0 = [] ∧ s.oldestSteal 1 0 = some { jobA with die := 1 } ∧
    s.lends.cells = []) ∧
    (let s := lendState ((default : Tbl Lend).put 0 ⟨true, jobA, 0, 0, [5], []⟩)
    s.lends.get 0 = ⟨true, jobA, 0, 0, [5], []⟩ ∧ s.freeSlot (dieOf 0) = some 2 ∧ s.dev < 16 ∧ (s.pool.get (dieOf 0 * 32768 + 2)).genNow < 16) ∧
    (let s := lendState ((default : Tbl Lend).put 0 ⟨true, jobA, 0, 1, [5], [⟨0x01000001, 7, false, 0, 0, 0⟩]⟩)
    s.lends.get 0 = ⟨true, jobA, 0, 1, [5], [⟨0x01000001, 7, false, 0, 0, 0⟩]⟩ ∧ tokKey 0x01000001 ≠ tokKey 0x01000000) := by decide +kernel
/-- The victim's record is still marked LENT, at the epoch the lend began with. -/
theorem witness_Lending_marked :
    (let s : State := { lendState default with pool := (default : Tbl TokSlot).put 0 ⟨true, 1, 0, 2 ^ 15 + 5 * 2 ^ 192, []⟩ }
    s.tokLive 0x01000000 = true ∧ (s.tok 0x01000000).getLsbD 15 = true ∧ rcEpoch (s.tok 0x01000000) = 5) := by decide +kernel
theorem witness_DiesAndPower : (∀ e ∈ (on id).lends.cells, dieOf e.2.thiefCore ≠ 0 ∧ e.2.job.die ≠ 0) ∧ 0 < 4 ∧
    (∀ i, i < 8 → (on id).onCore (1 * 48 + 2 * 8 + i) = []) ∧ (on id).lendsAt 1 = false ∧ (on id).boot.powered = true := by decide +kernel

/-! Benches: bench 0 of crew 0, a group of one crew on a grid of 4 columns; its elements' records. -/

/-- An element's record: its word, and what follows from bit 64 on. -/
def recE (kind flags rest : Nat) : List Byte := leBytes 160 (kind * 2 ^ 60 + flags + rest)
def imgE (form : Nat) (es : List (List Byte)) : List Byte := leBytes 64 (form * 2 ^ 108) ++ es.flatten
def benchA (es : List (List Byte)) (elems : Tbl Elem) : Bench :=
  { (default : Bench) with live := true, st := .running, entries := [⟨0, [0, 5, 0, 0x80, 0], false⟩], img := imgE 0 es, elems := elems }
def benchState (x : Bench) : State := { on id with benches := (default : Tbl Bench).put 0 x, nextBench := 1 }
/-- Element 0 with heads on the given channels. -/
def heads (f : Elem → Elem) (hs : List (Nat × List Ent)) : Tbl Elem := (default : Tbl Elem).put 0 (f { (default : Elem) with ch := ⟨hs⟩ })
def entA (v : Word) : Ent := ⟨v, 0, 0, 0⟩

theorem witness_BenchInstructions :
    (engState id).me.sett.phase = .exec ∧ (engState id).on gd ≠ [] ∧ targetBad ((engState id).me.sreg (7 + 3)) 16 false = some (cProtection, 0) ∧
    targetBad ((engState id).me.sreg (9 + 3)) 16 false = none ∧ (engState id).me.popTrap = false ∧ (effects [capA]).me.sett.phase = .effects ∧
    (effects [capA]).me.caps = [capA] ∧ (effects [capA]).benchAt 0 (bitsOf (capA.args.getD 0 0) 0 5) = none ∧
    (∀ st ∈ [BenchSt.running, .draining],
      (let s := benchState { benchA [] default with st := st }
      s.benchAt 0 0 = some 0 ∧ (s.bench 0).st = st)) := by decide +kernel
theorem witness_BenchInstructions_clear : (effects [capA]).coreClear := ⟨by decide, by decide⟩

/-! An image of 8 elements: element 0 is source and sink, the seven others are unused; its header holds a digest. What the loader checks does not
depend on the digest. -/

def bodyB : List Byte := recE 0 (2 ^ 59 + 2 ^ 56) 0 ++ (List.replicate 7 (recE 15 0 0)).flatten
def hdrB : BitVec 256 := 0x500000000000000000000000000BE070000000000000000000000000000
def imgB (digest : BitVec 256) : List Byte := leBytes 64 (digest ++ hdrB).toNat ++ bodyB

/-- Two images agree but for the digests in their headers. -/
structure SameButDigest (x y : List Byte) : Prop where
  hdr : ∀ lo len, lo + len ≤ 256 → imgHdr x lo len = imgHdr y lo len
  val : ∀ a n, 64 ≤ a → imgVal x a n = imgVal y a n
  len : x.length = y.length

/-- Then the loader's checks agree on them. -/
theorem SameButDigest.imageOk {x y : List Byte} (h : SameButDigest x y) (f : Nat → Nat) : imageOk x f = imageOk y f := by
  have hw : imgWidth x = imgWidth y := by unfold imgWidth; rw [h.hdr _ _ (by decide)]
  have hc : imgCrews x = imgCrews y := by unfold imgCrews; rw [h.hdr _ _ (by decide)]
  have hf : imgForm x = imgForm y := by unfold imgForm; rw [h.hdr _ _ (by decide)]
  have hn : imgCount x = imgCount y := by unfold imgCount; rw [h.len]
  have he : elemWord x = elemWord y := by funext e; unfold elemWord; rw [h.val _ _ (by omega)]
  have ha : imgArc x = imgArc y := by funext e o; unfold imgArc; rw [h.val _ _ (by omega)]
  have hr : imgRule x = imgRule y := by
    funext e i; unfold imgRule; rw [h.val _ _ (by omega), h.val (64 + 160 * e + 40 + 16 * i) _ (by omega)]
  have hm : memBlock x = memBlock y := by funext e; unfold memBlock; rw [h.val _ _ (by omega)]
  have hE : imgElems x = imgElems y := by unfold imgElems; rw [hn, he]
  have hA : imgArcs x = imgArcs y := by unfold imgArcs; rw [hn, he, ha]
  have aE : arcElem x = arcElem y := by funext a; unfold arcElem; rw [hf, hw]
  have aI : arcInside x = arcInside y := by funext a; unfold arcInside; rw [aE, hn, hf, hw, he]
  have iO : isOrdered x = isOrdered y := by funext e; unfold isOrdered; rw [he, hm]
  have pO : portOk x = portOk y := by funext as e p o; unfold portOk; rw [he, iO, aE]
  have hO : headerOk x = headerOk y := by
    unfold headerOk
    rw [hw, hc, hf, h.len, h.hdr _ _ (by decide), h.hdr 128 _ (by decide), h.hdr 0 _ (by decide), h.hdr 224 _ (by decide)]
  have eO : elemOk x = elemOk y := by
    funext e b; unfold elemOk; rw [hw, hf, he, ha, hr, hm, h.val _ _ (by omega)]
  unfold Sys2Proof.Machine.imageOk
  rw [hE, hA, hO, hn, eO, hw, he, hf]
  have oS : ordSources x = ordSources y := by funext as e; unfold ordSources; rw [aE]
  have cO : chainOf x = chainOf y := by funext as ns; unfold chainOf; rw [oS, hE, he]
  unfold arcsOk classesOk streamsOk
  rw [hE, pO, aE, aI, iO, hm, he, cO]

theorem imgVal_tail (x y : List Byte) (r : List Byte) (a n : Nat) (hx : x.length = 64) (hy : y.length = 64) (h : 64 ≤ a) :
    imgVal (x ++ r) a n = imgVal (y ++ r) a n := by
  unfold imgVal
  rw [List.drop_append, List.drop_append, List.drop_eq_nil_of_le (as := x) (by omega), List.drop_eq_nil_of_le (as := y) (by omega), hx, hy]
theorem imgHdr_of (x : BitVec 512) (r : List Byte) (lo len : Nat) : imgHdr (leBytes 64 x.toNat ++ r) lo len = bitsOf x lo len := by
  unfold imgHdr imgVal
  rw [List.drop_zero, List.take_append_of_le_length (by simp), List.take_of_length_le (by simp), leNat_width 64 x, BitVec.ofNat_toNat,
    BitVec.setWidth_eq]
theorem drop_head (x r : List Byte) (h : x.length = 64) : (x ++ r).drop 64 = r := by
  rw [← h, List.drop_left]
theorem imgB_body (d : BitVec 256) : imgBody (imgB d) = bodyB := by
  unfold imgBody imgB
  exact drop_head _ _ (leBytes_length _ _)
theorem bitsOf_low (d h : BitVec 256) (lo len : Nat) (hl : lo + len ≤ 256) : bitsOf (d ++ h) lo len = bitsOf h lo len := by
  have e : (d ++ h).extractLsb' lo len = h.extractLsb' lo len := by
    apply BitVec.eq_of_getLsbD_eq
    intro i hi
    rw [BitVec.getLsbD_extractLsb', BitVec.getLsbD_extractLsb', BitVec.getLsbD_append]
    simp [show lo + i < 256 by omega]
  unfold bitsOf
  rw [e]
theorem imgB_digest (d : BitVec 256) : imgDigest (imgB d) = d := by
  unfold imgDigest imgB
  rw [imgHdr_of]
  unfold bitsOf
  rw [BitVec.ofNat_toNat, BitVec.setWidth_eq]
  apply BitVec.eq_of_getLsbD_eq
  intro i hi
  rw [BitVec.getLsbD_extractLsb', BitVec.getLsbD_append]
  simp [hi]
theorem imgB_same (d e : BitVec 256) : SameButDigest (imgB d) (imgB e) where
  hdr lo len h := by
    unfold imgB
    rw [imgHdr_of, imgHdr_of, bitsOf_low _ _ _ _ h, bitsOf_low _ _ _ _ h]
  val a n h := imgVal_tail _ _ _ _ _ (by simp) (by simp) h
  len := by simp [imgB]

def waitingB (digest : BitVec 256) (ops : List (List DWord)) : State :=
  { (inSett fun t => { t with phase := .idle }) with
    benches := (default : Tbl Bench).put 0 { (default : Bench) with live := true, entries := ops.map fun o => ⟨0, o, false⟩, img := imgB digest } }
theorem waitingB_group (d : BitVec 256) (ops : List (List DWord)) (h : ops ≠ []) : (waitingB d ops).groupOf 0 = some [0] := by
  have hc : imgCrews (imgB d) = 1 := by
    unfold imgCrews
    rw [(imgB_same d 0).hdr _ _ (by decide)]
    decide +kernel
  change (List.range (imgCrews (imgB d))).mapM (fun i => (waitingB d ops).waitingBench 0 (0 + i)) = some [0]
  rw [hc]
  cases ops with
  | nil => exact absurd rfl h
  | cons o r => rfl
/-- The group of one crew waits; its image passes whatever digest it names. -/
theorem witness_BenchesStart (d : BitVec 256) :
    (let s := waitingB d [[0, 5, 0, 0x80, 0]]
    let x := s.bench 0
    x.live = true ∧ x.st = .none ∧ x.fin = none ∧ x.region.present = false ∧ s.groupOf 0 = some [0] ∧
    s.quartersRest ([0].flatMap fun i => (s.bench i).entries.map (·.crew)) = true ∧
    (let entries := [0].flatMap fun i => (s.bench i).entries
    let core := (s.crew (entries.headD default).crew).core
    entries ≠ [] ∧ (∀ e ∈ entries, e.ops = x.ops) ∧ (∀ e ∈ entries, (s.crew e.crew).core = core) ∧
    (entries.map fun e => (s.crew e.crew).quarter).Nodup ∧ imageOk x.img (fun i => (s.crew (entries.getD i default).crew).budget) = true ∧
    imgForm x.img = 0 ∧ ∀ e ∈ s.benches.cells, e.2.placed = true → e.2.core ≠ core)) := by
  have hf : imgForm (imgB d) = 0 := by
    unfold imgForm
    rw [(imgB_same d 0).hdr _ _ (by decide)]
    decide +kernel
  have ho : imageOk (imgB d) (fun _ => 64) = true := by
    rw [(imgB_same d 0).imageOk]
    decide +kernel
  refine ⟨rfl, rfl, rfl, rfl, waitingB_group d _ (by simp), rfl, List.cons_ne_nil _ _, ?_, ?_, List.nodup_cons.2 ⟨List.not_mem_nil, List.nodup_nil⟩,
    ?_, hf, ?_⟩
  · intro e he
    rw [List.mem_singleton.1 he]
    rfl
  · intro e he
    rw [List.mem_singleton.1 he]
    rfl
  · refine (congrArg (imageOk (imgB d)) (funext fun i => ?_)).trans ho
    cases i <;> rfl
  · intro e he
    rw [List.mem_singleton.1 he]
    exact nofun
theorem witness_BenchesStart_disagree :
    (let s := waitingB 0 [[0, 5, 0, 0x80, 0], [0, 6, 0, 0x80, 0]]
    s.groupOf 0 = some [0] ∧ ∃ e ∈ (s.bench 0).entries, e.ops ≠ (s.bench 0).ops) :=
  ⟨waitingB_group 0 _ (by simp), by decide⟩
/-- The image whose header holds its records' digest, and one whose header holds another. -/
theorem witness_BenchesStart_digest :
    (let d := sha3 bodyB
    sha3 (imgBody (imgB d)) = imgDigest (imgB d) ∧ sha3 (imgBody (imgB (~~~d))) ≠ imgDigest (imgB (~~~d))) := by
  dsimp only
  rw [imgB_body, imgB_digest, imgB_body, imgB_digest]
  refine ⟨rfl, fun h => ?_⟩
  have := congrArg (fun x : BitVec 256 => x.getLsbD 0) h
  simp at this
theorem witness_BenchesStart_map :
    (let waiting := { benchA [] default with st := .none, img := imgE 1 [], region := { (default : Region) with present := true } }
    let s : State := { waitingB 0 [] with benches := (default : Tbl Bench).put 0 waiting }
    let x := s.bench 0
    x.live = true ∧ x.st = .none ∧ x.fin = none ∧ x.region.present = true ∧ imgForm x.img = 1 ∧ s.quartersRest (x.entries.map (·.crew)) = true ∧
    s.together (x.entries.map (·.crew)) = true ∧ imageOk (imgB 0) (fun _ => 256) = true ∧ imgForm (imgB 0) ≠ 1 ∧ imgCrews (imgB 0) = imgCrews x.img ∧
    imageOk (imgB 0) (s.budgetOf x) = true ∧
    ∀ e ∈ s.benches.cells, e.2.placed = true → e.2.core ≠ (s.crew (x.entries.headD default).crew).core) := by decide +kernel
theorem witness_BenchesStart_inject :
    (let x := benchA [recE 0 (2 ^ 59) 0] default
    x.live = true ∧ x.st = .running ∧ 0 ∈ x.sources ∧ (x.elem 0).took = x.injected ∧ x.injected < x.count ∧
    (x.chan 0 (ewSch (x.word 0))).length < 32 ∧ x.g5 = false) := by decide +kernel

/-- A PLAIN element whose rule 0 pops I0 to I2 and pushes to O0, with an action. -/
def ruleE (i : Instr) : List Byte :=
  recE 0 0 ((2 ^ 63 + 7 * 2 ^ 40 + 2 ^ 27 + 7 * 2 ^ 23) * 2 ^ 256 + (encode i).toNat * 2 ^ 320)
def ruleState (i : Instr) (hs : List (Nat × List Ent)) : State := benchState (benchA [ruleE i] (heads id hs))
theorem witness_ElementRules :
    (let s := ruleState (.iadd ⟨.trans, .pop 0, .pop 1, gd⟩ .n32 false) [(0, [entA 3]), (1, [entA 4]), (2, [entA 5])]
    let x := s.bench 0
    let t := x.elem 0
    let r := imgRule x.img 0 0
    x.serves = true ∧ 0 < imgCount x.img ∧ ewKind (x.word 0) = 0 ∧ t.held = false ∧ s.fire = none ∧ ewQinv (x.word 0) = false ∧ t.firing = none ∧
    s.bestRule 0 0 = some 0 ∧ (∀ o, o < 4 → r.out o = true → s.space 0 0 o ≠ 0) ∧ (s.crew (x.crewOf 0)).poisonS = [] ∧
    (s.crew (x.crewOf 0)).poisonV = [] ∧ x.lane 0 < 32 ∧ r.action = some (.iadd ⟨.trans, .pop 0, .pop 1, gd⟩ .n32 false) ∧
    (s.crew (x.crewOf 0)).place = .resident) ∧
    (let s := ruleState (.iadd ⟨.trans, .pop 0, .pop 1, gd⟩ .n32 false) []
    s.bestRule 0 0 = none ∧ ((s.bench 0).elem 0).held = false) := by decide +kernel
theorem witness_ElementRules_actions : ∀ j ∈ [Instr.fwd ⟨.v 3, .pop 0, gd⟩, .gate ⟨.v 3, .pop 0, .pop 1, gd⟩, .steer ⟨.v 3, .pop 0, .pop 1, gd⟩,
      .merge ⟨.v 3, .pop 0, .pop 1, .pop 2, gd⟩],
    (let s : State := { ruleState j [] with fire := some ⟨0, 0, 0, 0⟩ }
    s.fire = some ⟨0, 0, 0, 0⟩ ∧ (s.bench 0).lane 0 < 32 ∧ (imgRule (s.bench 0).img 0 0).action = some j) ∧ (on id).fire = none := by decide +kernel
theorem witness_ElementRules_destination (n : BitVec 3) : (Dst.v 3) ≠ .p n := nofun

def steps (x : Bench) (e kind : Nat) : Bool := x.mayStep e kind && !ewQinv (x.word e)
theorem steps_of {x : Bench} {e kind : Nat} (h : steps x e kind = true) : x.Steps e kind := by
  simp only [steps, Bool.and_eq_true, Bool.not_eq_true'] at h
  exact ⟨h.1, h.2⟩
/-- An ISECT element with coordinates a on I0 and c on I1. -/
def isectE (a c : Nat) : State := benchState (benchA [recE 1 0 0] (heads (fun t => { t with lastA := some 2 })
  [(0, [entA (BitVec.ofNat 32 a)]), (1, [entA (BitVec.ofNat 32 c)]), (2, [entA 8]), (3, [entA 9])]))
theorem witness_ElementKinds_isect : ∀ p ∈ [((5 : Nat), (5 : Nat)), (4, 5), (5, 4)],
    (let s := isectE p.1 p.2
    let x := s.bench 0
    steps x 0 1 = true ∧ x.chan 0 0 = entA (BitVec.ofNat 32 p.1) :: [] ∧ x.chan 0 1 = entA (BitVec.ofNat 32 p.2) :: [] ∧ x.chan 0 2 = entA 8 :: [] ∧ x.chan 0 3 = entA 9 :: [] ∧
    (x.elem 0).lastA = some 2 ∧ (2 : Word).toNat < (BitVec.ofNat 32 p.1).toNat ∧ (x.elem 0).lastB = none ∧ ∀ o, o < 3 → s.space 0 0 o > 0) := by decide +kernel
/-- A REORD element whose blocks are of 4 entries. -/
def reordE (f : Elem → Elem) (hs : List (Nat × List Ent)) : State := benchState (benchA [recE 2 (2 ^ 24 + 2 ^ 16) 0] (heads f hs))
theorem witness_ElementKinds_reord :
    (let s := reordE id [(0, [entA 7])]
    let x := s.bench 0
    let t := x.elem 0
    steps x 0 2 = true ∧ t.emit = [] ∧ t.fill.length + 1 < reordB (x.word 0) ∧ x.chan 0 0 = entA 7 :: [] ∧ (entA 7).tag = 0) ∧
    (let s := reordE (fun t => { t with emit := [entA 1, entA 2, entA 3, entA 4] }) []
    let x := s.bench 0
    let t := x.elem 0
    steps x 0 2 = true ∧ x.chan 0 0 = [] ∧ t.emit ≠ [] ∧ t.fill = [] ∧ s.space 0 0 0 > 0 ∧ t.emitPos + 1 < reordB (x.word 0) ∧
    x.sent2 0 0 0 [(0, default)] = []) := by decide +kernel
theorem witness_ElementKinds_buf :
    (let x := (benchState (benchA [recE 3 0 0] (heads id [(0, [entA 7])]))).bench 0
    steps x 0 3 = true ∧ (x.elem 0).buf = [] ∧ x.chan 0 0 = entA 7 :: []) ∧
    (let s := benchState (benchA [recE 3 0 0] (heads (fun t => { t with buf := [entA 7] }) []))
    let x := s.bench 0
    steps x 0 3 = true ∧ (x.elem 0).buf = entA 7 :: [] ∧ x.chan 0 0 = [] ∧ s.space 0 0 0 > 0 ∧ x.sent2 0 0 0 [(0, entA 7)] = []) := by decide +kernel
def rtreeE (op : Nat) (c : Ent) : State := benchState (benchA [recE 5 op 0] (heads id [(0, [entA 7]), (1, [c])]))
theorem witness_ElementKinds_rtree :
    (∀ op ∈ [1, 4, 5],
      (let s := rtreeE op (entA 9)
      let x := s.bench 0
      steps x 0 5 = true ∧ x.chan 0 0 = entA 7 :: [] ∧ x.chan 0 1 = entA 9 :: [] ∧ (entA 7).tag = (entA 9).tag ∧ s.space 0 0 0 > 0 ∧
      ewParam (x.word 0) 0 4 = op)) ∧
    (let x := (rtreeE 1 ⟨0, 3, 0, 0⟩).bench 0
    x.chan 0 1 = ⟨0, 3, 0, 0⟩ :: [] ∧ (entA 7).tag ≠ (3 : BitVec 2) ∧ x.g5 = false) := by decide +kernel

/-- A memory node's parameters: 64 bytes of global memory at 0x10000, 32-bit values; a pattern of 2 by 1 entries 4 bytes apart. -/
def memP (cls dir : Nat) : Nat :=
  0x10000 * 2 ^ 200 + 64 * 2 ^ 168 + 2 * 2 ^ 120 + 2 ^ 104 + 4 * 2 ^ 72 + cls * 2 ^ 62 + dir * 2 ^ 60 + 2 * 2 ^ 58 + (ElemTy.code .n32).toNat * 2 ^ 43
def memE (form cls dir : Nat) (f : Elem → Elem) (hs : List (Nat × List Ent)) (g : Bench → Bench) : State :=
  benchState (g { benchA [] (heads f hs) with img := imgE form [recE 4 (2 ^ 59) (memP cls dir * 2 ^ 1024)] })
/-- Does the access at address a come to a place of this device, with no poisoned word? -/
def comes (s : State) (a : Nat) : Bool :=
  match s.memLoc 0 0 a with
  | .ok l => l.dev == s.dev && (s.poisonedIn l.pa (memBytes ((s.bench 0).mem 0))).isNone
  | _ => false
theorem witness_MemoryNodes_stream :
    (let s := memE 0 0 0 id [(0, [entA 1])] id
    let x := s.bench 0
    steps x 0 4 = true ∧ mbClass (x.mem 0) = 0 ∧ x.g5 = false ∧ (s.core x.core).cb = [] ∧ s.coreBusy x.core = false ∧ (x.elem 0).strTok = none ∧ x.chan 0 (ewSch (x.word 0)) = entA 1 :: []) ∧
    (∀ n ∈ [0, 1, 2],
      (let s := memE 0 0 0 (fun t => { t with strTok := some 0, strPos := n, took := 1 }) [] id
      let x := s.bench 0
      let t := x.elem 0
      let m := x.mem 0
      steps x 0 4 = true ∧ t.strTok = some 0 ∧ t.inv < x.injected ∧ s.space 0 0 0 > 0 ∧ t.markDue = false ∧ mbCount0 m * mbCount1 m = 2 ∧ t.answer = none ∧
      (n = 2 ∨ comes s (streamAddr m 0 n) = true) ∧ mbDir m = 0 ∧ mbTagw m = false)) ∧
    (let x := (memE 0 0 0 id [] id).bench 0
    let m := x.mem 0
    mbInvStep m = 0 ∧ memBytes m = 4) := by decide +kernel
/-- A stream whose invocation step takes the second invocation outside the region. -/
theorem witness_MemoryNodes_region :
    (let x := benchA [recE 4 0 ((memP 0 0 + 64 * 2 ^ 136) * 2 ^ 1024)] (heads (fun t => { t with strTok := some 1 }) [])
    let m := x.mem 0
    steps x 0 4 = true ∧ (x.elem 0).strPos < mbCount0 m * mbCount1 m ∧ mbBase m + mbSize m < streamAddr m 1 0 + memBytes m) := by decide +kernel
theorem witness_MemoryNodes_access : ∀ p ∈ [(1, 0), (1, 1), (1, 2), (2, 2)],
    (let s := memE 0 p.1 p.2 id [(0, [entA 60]), (1, [entA 9]), (2, [entA 9])] id
    let x := s.bench 0
    let m := x.mem 0
    steps x 0 4 = true ∧ mbClass m = p.1 ∧ mbDir m = p.2 ∧ x.g5 = false ∧
    (∀ c ∈ operandChs m, x.chan 0 c ≠ [] ∧ ((x.chan 0 c).headD default).tag = 0) ∧ (x.chained 0 = true → x.chan 0 3 ≠ []) ∧ s.space 0 0 0 > 0 ∧
    s.space 0 0 3 > 0 ∧ comes s (mbBase m + ((x.chan 0 0).headD default).val.toNat) = true ∧ (x.elem 0).answer = none) ∧
    (let x := (memE 0 1 0 id [(0, [entA 61])] id).bench 0
    mbBase (x.mem 0) + mbSize (x.mem 0) < mbBase (x.mem 0) + ((x.chan 0 0).headD default).val.toNat + memBytes (x.mem 0)) := by decide +kernel
theorem witness_MemoryNodes_retire :
    (let s := memE 2 1 1 (fun t => { t with sends := 1 }) [] id
    let x := s.bench 0
    x.serves = true ∧ x.g5 = true ∧ x.g5Fault = none ∧ x.exits ≠ [] ∧ (∀ k ∈ x.exits, x.retired < (x.elem k).sends) ∧
    ∀ q ∈ x.retireQ, q.iter ≠ x.retired) ∧
    (let q : RetReq := ⟨0, 0, 0x10004, 77, 0, 0⟩
    let s := memE 2 1 1 (fun t => { t with sends := 1 }) [] fun x => { x with retireQ := [q] }
    let x := s.bench 0
    x.serves = true ∧ x.g5 = true ∧ x.g5Fault = none ∧ x.retireQ.find? x.mayRetire = some q ∧ q.elem = 0 ∧ comes s q.addr = true ∧
    (x.elem 0).answer = none ∧ mbDir (x.mem 0) = 1 ∧ s.space 0 0 3 > 0) := by decide +kernel

def tokA (pops : Option (List Nat)) : SpallTok := ⟨spallBits 5 0 4 0 0 0 0, 0, pops⟩
/-- Element 0 of a kind, element 1 the handler when `hnd` says so. -/
def spallState (kind : Nat) (hnd : Bool) (f : Elem → Elem) (g : Bench → Bench) : State :=
  benchState (g (benchA [recE kind 0 (memP 1 0 * 2 ^ 1024), recE 0 (if hnd then 2 ^ 55 else 0) 0] (heads f [(0, [entA 4])])))
theorem witness_SpallNet_send :
    (∀ hnd ∈ [false, true],
      (let x := (spallState 1 hnd (fun t => { t with sendTok := some (tokA none) }) id).bench 0
      x.serves = true ∧ (x.elem 0).sendTok = some (tokA none) ∧ x.handler = (if hnd then some 1 else none) ∧ x.spall.length < 16)) := by decide +kernel
theorem witness_SpallNet_full :
    16 ≤ ((spallState 1 true id fun x => { x with spall := List.replicate 16 default }).bench 0).spall.length := by decide +kernel
theorem witness_SpallNet_deliver :
    (∀ n ∈ [0, 3],
      (let x := (spallState 1 true id fun x => { x with spall := [tokA none], given := n }).bench 0
      x.serves = true ∧ x.spall = tokA none :: [] ∧ x.handler = some 1 ∧ (x.chan 1 0).length < 32 ∧ x.given = n)) := by decide +kernel
theorem witness_SpallNet_reply :
    (∀ n ∈ [0x80000000, 0x40000000, 0],
      (let s := spallState 1 true id fun x => { x with awaiting := [tokA (some [0])], replies := [BitVec.ofNat 32 n] }
      let x := s.bench 0
      x.awaiting = tokA (some [0]) :: [] ∧ x.replies = BitVec.ofNat 32 n :: [] ∧ (∀ o ∈ x.answerOuts (tokA (some [0])), s.space 0 0 o ≠ 0) ∧
      (tokA (some [0])).pops = some [0])) ∧ 2 ≤ bitsOf (0x80000000 : Word) 30 2 ∧ bitsOf (0x40000000 : Word) 30 2 = 1 ∧ bitsOf (0 : Word) 30 2 = 0 := by
  decide +kernel
theorem witness_SpallNet_repair :
    (let s := spallState 4 true id fun x => { x with awaiting := [tokA none], replies := [0, 9] }
    let x := s.bench 0
    x.awaiting = tokA none :: [] ∧ x.replies = 0 :: 9 :: [] ∧ (∀ o ∈ x.answerOuts (tokA none), s.space 0 0 o ≠ 0) ∧ ewKind (x.word 0) = 4 ∧
    mbClass (x.mem 0) = 1 ∧ mbDir (x.mem 0) = 0 ∧
    ∀ o, o < 4 → arcV (imgArc x.img 0 o) = true → arcKind (imgArc x.img 0 o) ≠ 2) := by decide +kernel

theorem witness_BenchesEnd :
    (let s := benchState { benchA [recE 0 (2 ^ 59 + 2 ^ 56) 0] ((default : Tbl Elem).put 0 { (default : Elem) with dones := 5, took := 5 }) with core := 0 }
    let x := s.bench 0
    x.live = true ∧ x.fin = none ∧ x.parked = false ∧ x.sent = false ∧ x.st = .running ∧ x.count ≤ x.completed ∧ x.settled = true ∧
    isLoc (s.targetLoc x.part 0 x.gang x.core x.level x.target) = true ∧ x.notrap = false ∧ x.partly = false ∧ x.injected ≤ x.completed ∧
    x.still = true ∧ ∀ t ∈ x.elems.vals, t.asked = false) ∧
    (let x := { benchA [] default with st := .aborting, abortTok := some (tokA none) }
    x.live = true ∧ x.st = .aborting ∧ x.fin = none ∧ x.still = true ∧ x.settled = true ∧ x.abortTok = some (tokA none)) ∧
    bitsOf (benchRecord 2 0 0) 56 8 = 2 ∧ bitsOf (benchRecord 3 0 0) 56 8 ≠ 2 := by decide +kernel
theorem witness_BenchesEnd_refused :
    (let s : State := { inSett fun t => { t with phase := .idle } with
      benches := (default : Tbl Bench).put 0 { benchA [recE 0 0 0] default with st := .none, fin := some (benchRecord 3 0 0) } }
    let x := s.bench 0
    x.live = true ∧ x.fin = some (benchRecord 3 0 0) ∧ x.parked = false ∧ x.sent = false ∧ (∀ e ∈ x.entries, (s.crew e.crew).place = .resident) ∧
    (s.core 0).cb = [] ∧ s.coreBusy 0 = false) := by decide +kernel
/-- A saved bench whose image is no longer under its handle: it is restored from the one it loaded, an empty one here. -/
def savedB (digest : BitVec 256) (failed : Bool) : State :=
  { inSett fun t => { t with phase := .idle } with
    benches := (default : Tbl Bench).put 0 { benchA [recE 0 0 0] default with
      st := .saved, preempted := true, region := { (default : Region) with digest := digest, failed := failed } } }
theorem witness_BenchesEnd_resume : ∀ f ∈ [true, false],
    (let s := savedB 0 f
    let x := s.bench 0
    x.st = .saved ∧ (s.imageOf x).patched = none ∧ s.quartersRest (x.entries.map (·.crew)) = true ∧ x.region.failed = f ∧
    (x.entries.map fun e => (s.crew e.crew).quarter).Nodup ∧ x.entries ≠ [] ∧
    (∀ e ∈ x.entries, (s.crew e.crew).core = (s.crew 0).core ∧ (s.crew e.crew).preempt = false) ∧ s.freeOffset 0 = some 0 ∧
    s.recRoom (dieOf (s.crew 0).core) 1 = true) := by decide +kernel
theorem savedB_restored (d : BitVec 256) : imgBody ((savedB d false).restoredImage ((savedB d false).bench 0)) = [] := rfl
theorem witness_BenchesEnd_digest :
    sha3 (imgBody ((savedB (sha3 []) false).restoredImage ((savedB (sha3 []) false).bench 0))) = ((savedB (sha3 []) false).bench 0).region.digest ∧
    sha3 (imgBody ((savedB (~~~sha3 []) false).restoredImage ((savedB (~~~sha3 []) false).bench 0))) ≠
      ((savedB (~~~sha3 []) false).bench 0).region.digest := by
  rw [savedB_restored, savedB_restored]
  refine ⟨rfl, fun h => ?_⟩
  have := congrArg (fun x : BitVec 256 => x.getLsbD 0) (h.trans (rfl : _ = ~~~sha3 []))
  simp at this

/-! The front end: producer 3 of partition 0 and command 5. -/

/-- The bytes a unit's read gives. -/
def gotten (s : State) (tag part : Nat) (level : Bool) (va n : Nat) : List Byte :=
  match s.readFor tag part level va n with
  | .ok bs => bs
  | _ => []
theorem comes_of {s : State} {tag part va n : Nat} {level : Bool} (h : (gotten s tag part level va n).length = n) (h0 : n ≠ 0) :
    s.comes tag part level va (gotten s tag part level va n) := by
  unfold State.comes
  rw [h]
  unfold gotten at *
  split at h
  · assumption
  · exact absurd h.symm h0
/-- Translation as after reset; no word is poisoned and no line waits. -/
structure Plain (s : State) : Prop where
  parts : s.parts = State.reset.parts
  domain : s.domain = [0]
  poison : s.poison = []
  lines : s.unitLines = []
  dev : s.dev = 0
theorem comes_plain {s : State} (h : Plain s) (tag va n : Nat) (level : Bool) (hv : va + n ≤ 2 ^ 30) :
    s.comes tag 0 level va (s.mem.readList va n) := by
  have hr : ((s.part 0).ptRoot).getLsbD 0 = false := by
    unfold State.part
    rw [h.parts]
    decide
  have hh : s.holds 0 0 0 = true := by
    unfold State.holds
    rw [h.parts, if_pos rfl]
    decide
  unfold State.comes
  rw [readList_length]
  refine readFor_here s tag 0 va n va (fun _ => 0) level (fun i hi => ?_) h.poison h.lines
  rw [h.dev]
  exact unitXlat_linear s 0 (va + i) level .load (by omega) hr (by rw [h.domain]; rfl) hh
def cellsOf (a : Nat) (bs : List Byte) : List Host.Cell := (((List.range bs.length).map (a + ·)).zip bs).filter fun c => c.2 != 0
def frontState (p : Producer) (c : Cmd) (mem : List Host.Cell) : State :=
  { State.reset with producers := (default : Tbl Producer).put 3 p, cmds := (default : Tbl Cmd).put 5 c, nextCmd := 6, mem := ⟨mem, []⟩ }
def prodA (seq : Word) : Producer := { (default : Producer) with v := true, rlog2 := 4, rbase := 0x2000, intake := [seq] }
theorem witness_MergeOrder : (frontState (prodA 7) default []).nextProducer = some (0, 3, { (default : Merge) with nextNorm := 4 }) ∧
    (frontState { prodA 7 with pri := true } default []).nextProducer = some (0, 3, { (default : Merge) with nextHigh := 4 }) := by decide +kernel
/-- The slot at 0x21C0, of SEQ 7, holds a NOP, or one of SEQ 0 nothing. -/
def slotA : List Host.Cell := cells64 0x21C0 (8 * 2 ^ 56 + 7) ++ cells64 0x21D8 (3 * 2 ^ 56)
theorem witness_CommandsTaken : ∀ mem ∈ [[], slotA],
    (let s := frontState (prodA 7) default mem
    let p := s.producers.get 3
    let bs := gotten s (tagProd 3) p.part p.sup (p.rbase + 64 * ((p.intake.headD 0).toNat % 2 ^ p.rlog2)) 64
    (s.nextProducer.map fun x => (x.1, x.2.1)) = some (0, 3) ∧ s.recRoom 0 1 = true ∧ bs.length = 64 ∧ p.staddr = 0 ∧
    (leNat bs % 2 ^ 32 = (p.intake.headD 0).toNat ↔ mem ≠ []) ∧
    (mem ≠ [] → kindInstr 6 (cmdOf 3 p (leNat bs)) = some (.commandNop 6) ∧ slotBad (leNat bs) = false)) := by decide +kernel
theorem witness_CommandsTaken_status : ∀ host ∈ [false, true],
    (let s := frontState { prodA 7 with staddr := 0x3000, hostst := host } default []
    let s := s.updPart 0 fun p => { p with qp := { p.qp with set := true } }
    (s.nextProducer.map fun x => (x.1, x.2.1)) = some (0, 3) ∧ (s.producers.get 3).staddr ≠ 0 ∧ (s.producers.get 3).hostst = host ∧
    s.unitXlat 0 false .store 0x3000 = .ok s.dev 0x3000 0 ∧ (s.part 0).qp.set = true) := by decide +kernel
theorem witness_CommandsTaken_spill :
    (let s := frontState { prodA 7 with splog2 := 4, spbase := 0x4000, spillHead := 2, spillTail := 3 } default []
    let p := s.producers.get 3
    p.v = true ∧ p.blocked = false ∧ p.spillHead < p.spillTail ∧ p.intake.length < 16 ∧ s.recRoom 0 1 = true ∧
    (gotten s (tagProd 3) p.part p.sup (p.spbase + 8 * (p.spillHead % 2 ^ p.splog2)) 8).length = 8) ∧
    { State.reset with restarting := true }.restarting = true := by decide +kernel

def cmdA (st : CmdSt) (kind : Nat) (arg0 arg1 : DWord) : Cmd :=
  { (default : Cmd) with st := st, prod := 3, level := true, kind := kind, arg0 := arg0, arg1 := arg1, ctarget := tgNone }
/-- At 0x1000 the image of producer 3 of partition 0: V, RLOG2 4. -/
def prodImage : List Host.Cell := cells64 0x1000 (2 ^ 63) ++ cells64 0x1008 (4 * 2 ^ 56 + 0x2000)
theorem witness_FrontCommands_producer : ∀ p ∈ [default, prodA 7],
    (let s := frontState p (cmdA .taken 7 0x1000 3) prodImage
    let c := s.cmds.get 5
    let bs := gotten s (tagCmd 5) c.part c.level c.arg0.toNat 32
    c.st = .taken ∧ c.level = true ∧ bitsOf c.arg1 12 52 = 0 ∧ bs.length = 32 ∧ producerBad (leNat bs) = false ∧
    (producerOf (leNat bs)).part = c.part ∧ ((s.producers.get 3).v = true → (s.producers.get 3).part = c.part) ∧
    ((s.producers.get 3).intake = [] ∧ (s.producers.get 3).spillTail ≤ (s.producers.get 3).spillHead ∨ (s.producers.get 3).intake ≠ [])) := by
  decide +kernel
theorem witness_FrontCommands :
    { cmdA .taken 7 0x1000 3 with level := false }.level = false ∧
    (let s := frontState default { cmdA .taken 7 0x1000 3 with part := 1 } prodImage
    (gotten s (tagCmd 5) 0 true 0x1000 32).length = 32 ∧ (producerOf (leNat (gotten s (tagCmd 5) 0 true 0x1000 32))).part ≠ (s.cmds.get 5).part) ∧
    (∀ st ∈ [CmdSt.taken, .running],
      (let s := frontState { prodA 7 with waiting := some 5 } (cmdA st 3 0x80 0) []
      let c := s.cmds.get 5
      c.st = st ∧ waitBad c = false ∧ c.kind = 3 ∧ (s.producers.get c.prod).waiting = some 5 ∧
      (gotten s (tagCmd 5) c.part c.level (tgAddr c.arg0) 8).length = 8)) ∧
    stampDone .eq 0 0 = true ∧ stampDone .eq 0 (2 ^ 56) = true ∧ bitsOf (2 ^ 56 : DWord) 56 8 ≠ 0 ∧ stampDone .eq 1 0 = false := by decide +kernel

def finishedA (t : DWord) : State := frontState default { cmdA .finished 8 0 0 with ctarget := t } []
theorem witness_CommandsComplete :
    (∀ n ∈ [3 * 2 ^ 56, 0x3000, 0xF0000000003000],
      (let s := finishedA (BitVec.ofNat 64 n)
      let c := s.cmds.get 5
      c.st = .finished ∧ s.recRoom 0 1 = true ∧ c.detail < 256 ∧ c.kind < 256 ∧ c.prod < 4096 ∧ c.status < 256 ∧ (s.part c.part).qp.set = false)) ∧
    tgSpc ((finishedA (3 * 2 ^ 56)).cmds.get 5).ctarget = 3 ∧ tgSpc ((finishedA 0x3000).cmds.get 5).ctarget ≠ 3 ∧
    (finishedA 0x3000).unitXlat 0 true .store 0x3000 = .ok State.reset.dev 0x3000 0 ∧ tgSpc ((finishedA 0xF0000000003000).cmds.get 5).ctarget ≠ 3 ∧
    (finishedA 0xF0000000003000).unitXlat 0 true .store 0xF0000000003000 = .bad cProtection := by decide +kernel

/-- A launch record at 0x1000 that grants yard 0 of die 0 when `grant` says so. -/
def launchState (kind : Nat) (grant taken : Bool) : State :=
  { frontState default (cmdA .taken 1 0x1000 0) (cells64 0x1000 (kind * 2 ^ 56 + 8 * 2 ^ 27) ++ if grant then cells64 0x1100 (2 ^ 63) else []) with
    yards := if taken then (default : Tbl Yard).put 0 { (default : Yard) with grants := [(false, 4)], configured := true, modes := [5] } else default }
theorem witness_Launches :
    (∀ p ∈ [(0, false, false), (1, false, false), (1, true, false), (1, true, true)],
      (let s := launchState p.1 p.2.1 p.2.2
      let c := s.cmds.get 5
      let bs := s.mem.readList c.arg0.toNat 512
      let r : BitVec 4096 := BitVec.ofNat 4096 (leNat bs)
      bs.length = 512 ∧ c.st = .taken ∧ c.part = 0 ∧ c.arg1 = 0 ∧ c.arg0.toNat % 256 = 0 ∧
      lrError r (s.launchDie c.part r) = (if p.1 = 0 then some 1 else none) ∧ (s.grantAll (false, s.nextLaunch) r).isSome = !p.2.2)) := by decide +kernel
theorem witness_Launches_read (kind : Nat) (grant taken : Bool) :
    (launchState kind grant taken).comes (tagCmd 5) 0 true 0x1000 ((launchState kind grant taken).mem.readList 0x1000 512) :=
  comes_plain (s := launchState kind grant taken) ⟨rfl, rfl, rfl, rfl, rfl⟩ (tagCmd 5) 0x1000 512 true (by decide)
theorem witness_Launches_complete :
    (let s : State := { State.reset with launches := (default : Tbl Launch).put 2 { (default : Launch) with live := true } }
    (s.launches.get 2).live = true ∧ (s.launches.get 2).gangsLeft = 0 ∧ ∀ e ∈ s.ops.cells, e.2.live = true → e.2.launch ≠ some 2) := by decide +kernel

/-- CONFIG 5 of region kind k, with its image at 0x1000. -/
def configState (k : Nat) (mem : List Host.Cell) : State := frontState default (cmdA .taken 4 0x1000 (BitVec.ofNat 64 (k * 2 ^ 60))) mem
theorem entryAt_zeros (n op : Nat) : entryAt (List.replicate n 0) op = 0 := by
  unfold entryAt
  rw [List.drop_replicate, List.take_replicate, leNat_replicate]
  rfl
theorem readCopies_skip (s : State) (k : Nat) (bs : List Byte) (op : Nat) (r : List Nat) (h : oeV (entryAt bs op) = false) :
    s.readCopies k bs (op :: r) = s.readCopies k bs r := by
  have e : (!oeV (entryAt bs op)) = true := by rw [h]; rfl
  exact if_pos e
theorem readCopies_none (s : State) (k : Nat) (bs : List Byte) (ops : List Nat) (h : ∀ op ∈ ops, oeV (entryAt bs op) = false) :
    s.readCopies k bs ops = .ok Tbl.empty := by
  induction ops with
  | nil => rfl
  | cons op r ih =>
    rw [readCopies_skip s k bs op r (h op List.mem_cons_self)]
    exact ih fun o ho => h o (List.mem_cons_of_mem _ ho)
theorem configState_zeros (k tag va n : Nat) (h : va + n ≤ 2 ^ 30) : (configState k []).comes tag 0 true va (List.replicate n 0) := by
  have r := comes_plain (s := configState k []) ⟨rfl, rfl, rfl, rfl, rfl⟩ tag va n true h
  rwa [show (configState k []).mem = Memory.empty from rfl, readList_empty] at r
theorem tableBad_zeros (die n : Nat) (copies : Tbl (BitVec 4096)) (prog : List Byte) : tableBad die (List.replicate n 0) copies prog = false := by
  unfold tableBad
  rw [List.any_eq_false]
  intro op _
  rw [entryAt_zeros, show oeV 0 = false by decide, Bool.false_and]
  exact Bool.false_ne_true
theorem entryBad_zeros (n op : Nat) : entryBad (entryAt (List.replicate n 0) op) = false := by
  rw [entryAt_zeros]
  decide
/-- A table without a valid entry, at 0x1000. -/
theorem witness_ConfigAndDelta_table :
    (let s := configState 0 []
    let c := s.cmds.get 5
    c.st = .taken ∧ selBad c = false ∧ s.regionBusy 5 = false ∧ selKind c = 0 ∧ c.kind = 4 ∧ c.arg0.toNat = 0x1000 ∧ c.part = 0 ∧ c.level = true ∧
    selDie c = 0) := by decide
theorem witness_ConfigAndDelta_table_read (k tag : Nat) : (List.replicate 2048 (0 : Byte)).length = 2048 ∧
    (configState 0 []).comes tag 0 true 0x1000 (List.replicate 2048 0) ∧ (∀ op, op < 64 → entryBad (entryAt (List.replicate 2048 0) op) = false) ∧
    (configState 0 []).readCopies k (List.replicate 2048 0) (List.range 64) = .ok Tbl.empty ∧
    tableBad 0 (List.replicate 2048 0) Tbl.empty ((configState 0 []).die 0).programNext = false :=
  ⟨List.length_replicate, configState_zeros 0 tag 0x1000 2048 (by decide), fun op _ => entryBad_zeros 2048 op,
    readCopies_none _ k _ _ fun op _ => by rw [entryAt_zeros]; decide, tableBad_zeros 0 2048 _ _⟩
/-- A program of one entry of one tile without destinations; one of no tile fails. -/
theorem witness_ConfigAndDelta_program : ∀ n ∈ [0, 1],
    (let s := configState 1 (cells64 0x1028 1 ++ cells64 0x1030 n)
    let c := s.cmds.get 5
    let h := gotten s (tagCmd 5) c.part c.level c.arg0.toNat 32
    let bs := gotten s (tagCmd 5) c.part c.level c.arg0.toNat 64
    c.st = .taken ∧ selBad c = false ∧ s.regionBusy 5 = false ∧ selKind c = 1 ∧ c.kind = 4 ∧ h.length = 32 ∧ bs.length = 32 + 32 * programLen h ∧
    programBad (selDie c) bs (s.die (selDie c)).tableNext.1 (s.die (selDie c)).tableNext.2 = (n == 0)) := by decide +kernel
theorem imgB_head (d : BitVec 256) : (imgB d).take 64 = leBytes 64 (d ++ hdrB).toNat ++ [] := by
  unfold imgB
  rw [List.take_append_of_le_length (by simp), List.take_of_length_le (by simp), List.append_nil]
theorem imgB_headOk (d : BitVec 256) : imgHeadOk ((imgB d).take 64) = true := by
  have h : ∀ lo len, lo + len ≤ 256 → imgHdr ((imgB d).take 64) lo len = bitsOf hdrB lo len := by
    intro lo len hl
    rw [imgB_head, imgHdr_of, bitsOf_low _ _ _ _ hl]
  unfold imgHeadOk imgForm imgCrews imgWidth
  rw [h 112 16 (by decide), h 108 4 (by decide), h 128 96 (by decide), h 0 101 (by decide), h 224 32 (by decide), h 106 2 (by decide), h 104 2 (by decide)]
  decide
def loadState (bs : List Byte) : State := { configState 2 [] with mem := Memory.empty.writeList 0x1000 bs }
theorem loadState_mem (bs : List Byte) : (loadState bs).mem.readList 0x1000 bs.length = bs := readList_writeList bs Memory.empty 0x1000
theorem regionBusy_mem (s : State) (m : Memory) : ({ s with mem := m } : State).regionBusy 5 = s.regionBusy 5 := by
  cases s
  rfl
def imageState (d : BitVec 256) : State := loadState (imgB d)
theorem bodyB_length : bodyB.length = 1280 := by decide +kernel
theorem imgB_length (d : BitVec 256) : (imgB d).length = 1344 := by
  unfold imgB
  rw [List.length_append, leBytes_length, bodyB_length]
theorem imgB_split (d : BitVec 256) : (imgB d).take 64 ++ bodyB = imgB d := by
  rw [← imgB_body d]
  exact List.take_append_drop 64 _
theorem imageState_mem (d : BitVec 256) : (imageState d).mem.readList 0x1000 (imgB d).length = imgB d :=
  loadState_mem (imgB d)
theorem imageState_read (d : BitVec 256) :
    (imageState d).comes (tagCmd 5) 0 true 0x1000 ((imgB d).take 64) ∧ (imageState d).comes (tagCmd 5) 0 true (0x1000 + 64) bodyB := by
  have hn := imgB_length d
  have h1 := comes_plain (s := imageState d) ⟨rfl, rfl, rfl, rfl, rfl⟩ (tagCmd 5) 0x1000 64 true (by decide)
  have h2 := comes_plain (s := imageState d) ⟨rfl, rfl, rfl, rfl, rfl⟩ (tagCmd 5) (0x1000 + 64) ((imgB d).length - 64) true (by omega)
  rw [← readList_take _ _ (imgB d).length 64 (by omega), imageState_mem] at h1
  rw [← readList_drop, imageState_mem] at h2
  exact ⟨h1, imgB_body d ▸ h2⟩
/-- An image at 0x1000, read as its header and its records; `witness_BenchesStart_digest` says of which digest it passes. -/
theorem witness_ConfigAndDelta_image (d : BitVec 256) :
    (let s := imageState d
    let c := s.cmds.get 5
    let h := (imgB d).take 64
    c.st = .taken ∧ selBad c = false ∧ s.regionBusy 5 = false ∧ selKind c = 2 ∧ c.kind = 4 ∧ h.length = 64 ∧ imgHeadOk h = true ∧
    bodyB.length = imgHdr h 224 32 ∧ s.comes (tagCmd 5) c.part c.level c.arg0.toNat h ∧
    s.comes (tagCmd 5) c.part c.level (c.arg0.toNat + 64) bodyB ∧ h ++ bodyB = imgB d ∧ imageOk (h ++ bodyB) (fun _ => 256) = true) := by
  have ho : imageOk ((imgB d).take 64 ++ bodyB) (fun _ => 256) = true := by
    rw [imgB_split d, (imgB_same d 0).imageOk]
    decide +kernel
  have hn : bodyB.length = imgHdr ((imgB d).take 64) 224 32 := by
    rw [bodyB_length, imgB_head, imgHdr_of, bitsOf_low _ _ _ _ (by decide)]
    decide
  have hc : selBad ((configState 2 []).cmds.get 5) = false ∧ selKind ((configState 2 []).cmds.get 5) = 2 ∧ (configState 2 []).regionBusy 5 = false := by
    decide
  exact ⟨rfl, hc.1, (regionBusy_mem _ _).trans hc.2.2, hc.2.1, rfl, by rw [List.length_take, imgB_length]; rfl, imgB_headOk d, hn, (imageState_read d).1, (imageState_read d).2,
    imgB_split d, ho⟩
def spillTable (n : Nat) : State := { configState 3 [] with carders := (default : Tbl Carder).put 0 { (default : Carder) with spillTail := n } }
theorem witness_ConfigAndDelta_spills : ∀ n ∈ [0, 1],
    (let s := spillTable n
    let c := s.cmds.get 5
    c.st = .taken ∧ selBad c = false ∧ s.regionBusy 5 = false ∧ selKind c = 3 ∧ c.kind = 4 ∧ s.ringsHold (selDie c) = (n == 1)) := by decide
theorem witness_ConfigAndDelta_spills_read : ∀ n ∈ [0, 1],
    (spillTable n).comes (tagCmd 5) 0 true 0x1000 (List.replicate 1024 0) ∧ (List.replicate 1024 (0 : Byte)).length = 1024 := by
  intro n _
  rw [← readList_empty 0x1000 1024]
  exact ⟨comes_plain (s := spillTable n) ⟨rfl, rfl, rfl, rfl, rfl⟩ (tagCmd 5) 0x1000 1024 true (by decide), readList_length _ _ _⟩
theorem witness_ConfigAndDelta_spill_zero : spillBad (leNat (List.replicate 16 0)) = false := by decide
theorem witness_ConfigAndDelta_spill_entries (op : Nat) (h : op < 64) : ((List.replicate 1024 (0 : Byte)).drop (16 * op)).take 16 = List.replicate 16 0 := by
  rw [List.drop_replicate, List.take_replicate]
  congr 1
  omega
/-- A program, and a delta that writes its first 8 bytes anew with what they hold; its header holds the digest it starts from and the new one. -/
def programB : List Byte := leBytes 64 (2 ^ 384 + 2 ^ 320)
def digestP : Nat := 0x3392f4b6897a736f9b167c822fe54bfdcef4a10753b21b81f635a27be852250a
def deltaState (base new : Nat) : State :=
  { frontState default (cmdA .taken 2 0x1000 (2 ^ 60 + 2 ^ 48)) (cellsOf 0x1000 (leBytes 32 base ++ leBytes 32 new ++ leBytes 16 (0x3000 * 2 ^ 64 + 8 * 2 ^ 32))) with
    dies := (default : Tbl Die).put 0 { (default : Die) with carousel := { (default : Region) with present := true, bytes := programB } } }
theorem witness_ConfigAndDelta_delta : ∀ p ∈ [(0, 0), (digestP, 0), (digestP, digestP)],
    (let s := deltaState p.1 p.2
    let c := s.cmds.get 5
    let body := gotten s (tagCmd 5) c.part c.level c.arg0.toNat (64 + 16 * selPatches c)
    c.st = .taken ∧ selBad c = false ∧ s.regionBusy 5 = false ∧ selKind c = 1 ∧ c.kind = 2 ∧ s.deltaBase c = some programB ∧
    (∀ r ∈ s.targetsOf c, (s.region r).failed = false) ∧ body.length = 64 + 16 * selPatches c ∧ leNat (body.take 32) = p.1 ∧
    leNat ((body.drop 32).take 32) = p.2 ∧ ((List.range (selPatches c)).mapM fun i => patchAt body i programB.length) = some [⟨0, 8, 0x3000⟩] ∧
    (match s.applyPatches 5 [⟨0, 8, 0x3000⟩] programB with
      | .ok bs => bs == programB
      | _ => false) = true ∧ programB.length = 32 + 32 * programLen programB ∧
    programBad (selDie c) programB (s.die (selDie c)).tableNext.1 (s.die (selDie c)).tableNext.2 = false) := by decide +kernel
theorem witness_ConfigAndDelta_digestP : (sha3 programB).toNat = digestP := by decide +kernel
theorem witness_ConfigAndDelta_benches : ∀ p ∈ [none, some []],
    (let s := frontState default (cmdA .running 2 0x1000 (2 ^ 61)) []
    let s := s.updPart 0 fun x => { x with images := x.images.put 0 { (default : Image) with patched := p } }
    let c := s.cmds.get 5
    c.kind = 2 ∧ c.st = .running ∧ selKind c = 2 ∧ ((s.part c.part).images.get (selHandle c)).patched = p ∧
    (∀ b ∈ s.benchesOf c.part (selHandle c), (s.bench b).placed = false ∧ (s.bench b).region.failed = false) ∧
    ∀ b ∈ s.benchesOf c.part (selHandle c), s.benchReturns b = false) ∧
    (let s := frontState default (cmdA .running 2 0x1000 (2 ^ 61)) []
    let x := { benchA [] default with region := { (default : Region) with present := true, failed := true } }
    let s : State := { s with benches := (default : Tbl Bench).put 0 x }
    ∃ b ∈ s.benchesOf 0 0, (s.bench b).region.failed = true) := by
  decide +kernel

/-! Pre-emption and partitions. -/

def preempting (bench : Bool) : State :=
  shadowed 1 { (on fun c => { c with preempt := true }) with
    benches := if bench then (default : Tbl Bench).put 0 (benchA [] default) else default }
theorem witness_CrewsSaved :
    (∀ b ∈ [true, false],
      (let s := preempting b
      let u := s.discard 0
      (s.crew 0).place = .resident ∧ (s.crew 0).preempt = true ∧ (s.crew 0).sett.phase ≠ .effects ∧ (s.crew 0).sett.phase ≠ .control ∧
      s.benchOfCrew 0 = (if b then some 0 else none) ∧ u.shadowFits 0 = true ∧ u.recRoom (dieOf (u.crew 0).core) 1 = true)) := by decide +kernel
/-- Command 5 with its operands; crew 0 of partition 0 in a place, with n shadow units. -/
def partCmd (st : CmdSt) (arg0 arg1 : DWord) (n : Nat) (f : Crew → Crew) : State :=
  shadowed n { on f with cmds := (default : Tbl Cmd).put 5 (cmdA st 5 arg0 arg1), nextCmd := 6 }
theorem witness_CrewsResumed :
    (let s := partCmd .running 0 0 1 fun c => { c with place := .saved }
    (s.cmds.get 5).kind = 5 ∧ (s.cmds.get 5).st = .running ∧ (s.crew (bitsOf (s.cmds.get 5).arg1 0 14)).place = .saved) ∧
    (∀ n ∈ [0, 1],
      (let s := partCmd .taken 0 0 n id
      let m := s.cmds.get 5
      m.st = .taken ∧ bitsOf m.arg0 12 52 = 0 ∧ m.level = true ∧ m.part = 0 ∧ bitsOf m.arg1 14 50 = 0 ∧ (s.crew (bitsOf m.arg1 0 14)).part = cmdPart m ∧
      (s.crew (bitsOf m.arg1 0 14)).place = .resident ∧ s.shadowFits (bitsOf m.arg1 0 14) = (n == 1))) ∧
    (∀ p ∈ [CrewPlace.saved, .halted],
      (let s := partCmd .taken 0 0 1 fun c => { c with place := p }
      let m := s.cmds.get 5
      m.st = .taken ∧ bitsOf m.arg0 14 50 = 0 ∧ m.arg1 = 0 ∧ m.part = 0 ∧ s.resuming 0 = false ∧ s.contextBad 0 = false ∧
      (s.crew (bitsOf m.arg0 0 14)).place = p)) := by decide +kernel
/-- Partition 1, keyed; CREATE with a descriptor of cluster 0, one shadow unit and producer 3; partition 2 may hold the cluster. -/
def createState (x : Partition) (held : Bool) : State :=
  { frontState default (cmdA .taken 5 0x101 0x1000) (cells64 0x1000 1 ++ cells64 0x1008 (3 * 2 ^ 32 + 2 ^ 24) ++
      cells64 0x1020 (2 ^ 63 + 2 ^ 53 + 2 ^ 52) ++ cells64 0x1028 (4 * 2 ^ 56)) with
    parts := (State.reset.parts.put 1 x).put 2 { (default : Partition) with present := held, clusters := 1 } }
theorem witness_PartitionsMade : ∀ p ∈ [(false, false), (true, false), (false, true)],
    (let s := createState { (default : Partition) with keyed := true, present := p.1 } p.2
    let m := s.cmds.get 5
    let bs := gotten s (tagCmd 5) m.part m.level m.arg1.toNat 64
    let b : BitVec 512 := BitVec.ofNat 512 (leNat bs)
    m.st = .taken ∧ bitsOf m.arg0 12 52 = 0 ∧ m.level = true ∧ cmdPart m = 1 ∧ bs.length = 64 ∧ m.part = 0 ∧ m.arg1.toNat % 64 = 0 ∧
    (s.part 1).keyed = true ∧ descriptorBad (leNat bs) 1 = false ∧ (s.part 1).present = p.1 ∧ s.assigned 1 (b.extractLsb' 0 24) = p.2 ∧
    bitsOf b 88 8 ≤ s.freeUnits.length) := by decide +kernel
theorem witness_PartitionsMade_full :
    (let s := createState { (default : Partition) with keyed := true } false
    let s : State := { s with parts := s.parts.put 0 { s.part 0 with units := List.range 48 } }
    s.freeUnits.length < 1) := by decide +kernel
theorem witness_PartitionsEnded :
    (let s := { createState { (default : Partition) with present := true } false with cmds := (default : Tbl Cmd).put 5 (cmdA .taken 5 0x100 0) }
    let m := s.cmds.get 5
    m.st = .taken ∧ bitsOf m.arg0 12 52 = 0 ∧ m.level = true ∧ m.part = 0 ∧ m.arg1 = 0 ∧ (s.part (cmdPart m)).present = true) := by decide +kernel
/-- Partition 1, present, swapped out or not, which held cluster 0; crew 0 is its saved crew. -/
def swapState (x : Partition → Partition) (held bad : Bool) : State :=
  { createState (x { (default : Partition) with present := true, held := 1, outCrews := [0] }) held with
    cmds := (default : Tbl Cmd).put 5 (cmdA .taken 5 0x100 0)
    crews := (default : Tbl Crew).put 0 { crewA with part := 1, place := .saved, sett := default }
    dies := (default : Tbl Die).put 0 { (default : Die) with shadowBad := if bad then [0] else [] } }
theorem witness_PartitionsSwapped :
    (∀ p ∈ [(true, false), (false, true), (false, false)],
      (let s := swapState (fun x => { x with swapped := true }) p.1 p.2
      let m := s.cmds.get 5
      let x := s.part 1
      m.st = .taken ∧ bitsOf m.arg0 12 52 = 0 ∧ m.level = true ∧ m.part = 0 ∧ cmdPart m = 1 ∧ m.arg1 = 0 ∧ x.present = true ∧ x.swapping = none ∧
      x.swapped = true ∧ s.assigned 1 x.held = p.1 ∧ (x.outCrews.any fun j => s.contextBad j) = p.2)) ∧
    (let s := swapState (fun x => { x with swapping := some 5 }) false false
    (s.part 1).swapping = some 5 ∧ s.partStill 1 = true) ∧
    (let x := (swapState id false false).part 1
    x.swapped = false ∧ x.swapping = none) := by decide +kernel
/-- A partition without clusters fits one shadow unit; one of no shadow unit with a resident crew does not. -/
def fitState : State := { State.reset with parts := State.reset.parts.put 1 { (default : Partition) with present := true, units := [0] } }
theorem witness_PartitionsSwapped_fits : fitState.contextsFit 1 = true := by
  have h : ∀ d, fitState.shadowUsed 1 d = 0 ∧ fitState.unsaved 1 d = 0 := fun _ => ⟨rfl, rfl⟩
  have hs : (fitState.part 1).units.length = 1 := rfl
  have hb : ∀ d, fitState.swapBytes 1 d ≤ 2 ^ 20 := by
    intro d
    have hc : coresOf (fitState.part 1).clusters = [] := by decide +kernel
    unfold State.swapBytes
    rw [hc]
    exact Nat.le_trans (Nat.min_le_right _ _) (by simp)
  simp only [State.contextsFit, List.all_eq_true, List.mem_range, decide_eq_true_eq]
  intro d _
  rw [(h d).1, (h d).2, hs]
  have := hb d
  omega
theorem witness_PartitionsSwapped_full : (on id).contextsFit 0 = false := by
  have h : 0 < (on id).unsaved 0 0 ∧ ((on id).part 0).units = [] := ⟨by decide +kernel, rfl⟩
  simp only [State.contextsFit, List.all_eq_false, List.mem_range]
  refine ⟨0, by decide, ?_⟩
  rw [h.2, decide_eq_true_eq]
  simp only [List.length_nil]
  omega

/-! The host port. Partition 1 is keyed; its last CTR is 4. -/

def authA (p : Nat) (ctr : DWord) (ok : Bool) : Auth := ⟨p, ctr, ok⟩
def hostState (f : State → State) : State :=
  f { State.reset with
    boot := { State.reset.boot with powered := true, minimal := false, stage := 4 }
    parts := (State.reset.parts.put 0 { State.reset.part 0 with keyed := true, ctrIn := 4 }).put 1 { (default : Partition) with keyed := true, ctrIn := 4 } }
theorem accepts_host (p : Nat) (h : p = 0 ∨ p = 1) : (hostState id).accepts (authA p 5 true) := by
  rcases h with rfl | rfl <;> exact ⟨rfl, by decide, rfl, rfl, by decide⟩
theorem witness_RequestsAuthenticated : (hostState id).accepts (authA 1 5 true) ∧ (authA 1 5 true).part ≠ 0 ∧ (hostState id).serving = true ∧
    ¬ (hostState id).accepts (authA 1 4 true) ∧ ¬ (hostState id).accepts (authA 1 5 false) ∧ ¬ (hostState id).accepts (authA 2 5 true) ∧
    (hostState id).boot.powered = true :=
  ⟨accepts_host 1 (.inr rfl), by decide, rfl, fun h => absurd h.2.2.2.2 (by decide), fun h => absurd h.2.2.2.1 (by decide),
    fun h => absurd h.2.2.1 (by decide), rfl⟩
theorem witness_HostFrames : (hostState id).serving = true ∧ [(0 : DWord)] ≠ [] ∧ [(0 : DWord)].length ≤ 32 ∧ (hostState id).recRoom 0 (2 * 1) = true ∧
    [(0x9800000000000000 : DWord)].length ≤ 64 ∧ (List.replicate 1088 (0 : Byte)).length = 1088 ∧ ((hostState id).part 2).keyed = false ∧
    ((hostState id).part 1).keyed = true ∧ (hostState id).accepts (authA 0 5 true) ∧ (authA 0 5 true).part = 0 ∧ (hostState id).tenants = false ∧
    (hostState fun s => { s with parts := s.parts.put 1 { s.part 1 with present := true } }).tenants = true :=
  ⟨rfl, by decide, by decide, rfl, by decide, List.length_replicate, rfl, rfl, accepts_host 0 (.inl rfl), rfl, rfl, rfl⟩
/-- An accepted collective of group 7 of partition 1 that is not complete. -/
def colling : State := hostState fun s => { s with ops := (default : Tbl EngineOp).put 9 { opA .coll .accepted with part := 1, tile := 7, accepted := true } }
theorem witness_AuthorityTables : (hostState id).accepts (authA 1 5 true) ∧ (hostState id).rdmaOpen 1 = [] ∧ bitsOf (0 : BitVec 128) 4 4 = 0 ∧
    (0 : BitVec 128).getLsbD 0 = false ∧ bitsOf (BitVec.ofNat 128 (2 ^ 40 + 1)) 40 32 ≠ 0 ∧ (BitVec.ofNat 128 (2 ^ 40 + 1)).getLsbD 0 = true ∧
    colling.groupBusy 1 7 = true ∧ (hostState id).groupBusy 1 7 = false ∧ (hostState id).accepts (authA 0 5 true) ∧
    (∀ i, i < 2 → (hostState id).holder 0 (3 + i) = none) ∧
    (hostState fun s => { s with parts := s.parts.put 1 { s.part 1 with grants := [(0, 4)] } }).holder 0 4 = some 1 ∧
    (List.replicate 16 (none : Option (BitVec 4 × BitVec 256))).length = 16 ∧ (hostState id).tenants = false :=
  ⟨accepts_host 1 (.inr rfl), rfl, by decide, by decide, by decide, by decide, rfl, rfl, accepts_host 0 (.inl rfl), by decide +kernel, rfl, rfl, rfl⟩
theorem witness_AuthorityTables_busy : colling.accepts (authA 1 5 true) := ⟨rfl, by decide, rfl, rfl, by decide⟩
/-- A window of partition 0 at 0x1000 of 4,096 bytes with key 5 that admits reads and writes. -/
def windowed : State := hostState fun s => { s with parts := s.parts.put 0 { s.part 0 with
  windows := (default : Tbl (BitVec 128)).put 0 (BitVec.ofNat 128 (0x1000 * 2 ^ 72 + 2 ^ 40 + 5 * 2 ^ 8 + 7)), qp := { (s.part 0).qp with set := true } } }
theorem witness_RemoteMemory : windowed.serving = true ∧ windowed.rdmaAdmits 0 5 0x1000 2 true false = true ∧
    windowed.rdmaAdmits 0 6 0x1000 2 true false = false ∧ windowed.rdmaMapped 0 true 0x1000 2 = true ∧
    (∀ x ∈ windowed.rdmaPlaces 0 0x1000 [1, 2], x.1 = windowed.dev) ∧ (∀ o ∈ windowed.outstanding, o.who ≠ .rdma windowed.nextRdma) ∧
    (∀ w ∈ windowed.windowAcks, windowed.nextRdma ∉ w.2.2 ∧ w.2.2 ≠ []) ∧ windowed.rdmaAdmits 0 5 0x1000 2 false false = true ∧
    windowed.rdmaAdmits 0 6 0x1000 2 false false = false ∧ windowed.rdmaMapped 0 false 0x1000 2 = true ∧ (windowed.part 0).qp.set = true ∧
    (let g := windowed.unitGather (tagRdma windowed.nextRdma) 0 false 0x1000 2
    g.bad = none ∧ g.need = [] ∧ g.poisoned = false) := by decide +kernel
/-- A window at the top of the address space, where nothing is mapped. -/
theorem witness_RemoteMemory_unmapped : windowed.rdmaMapped 0 true 0xF0000000003000 1 = false ∧ windowed.rdmaMapped 0 false 0xF0000000003000 1 = false := by
  decide +kernel

/-! The link: port 2 leads to device 3. -/

def peerA : BitVec 4 × BitVec 256 := (3, 77)
def linkState (o : Bool) (f : State → State) : State :=
  hostState fun s => f { s with ports := (default : Tbl Port).put 2 ⟨o, some peerA, 0⟩ }
def outA (who : RemoteWho) : Outstanding := ⟨6, 3, who, .read 0 6 0x80 128 false 0⟩
theorem witness_LinkRequests :
    (let s := linkState true id
    s.serving = true ∧ s.linked 3 = true ∧ s.seenOf 3 8 = none ∧ s.holdsRequest 3 8 = false ∧ (s.die (dieOfAddr (2 ^ 55) % 4)).freeFq = some 0 ∧ s.recRoom (dieOfAddr (2 ^ 55) % 4) 1 = true ∧ s.serves 0 0x80 4 = true ∧ s.serves 0 (2 ^ 55) 4 = false ∧ s.badWords 0x80 4 = [] ∧
    elemBits .n32 / 8 = 4) ∧
    (linkState true fun s => { s with seen := [(3, 8, .response 8 [] [])] }).seenOf 3 8 = some (.response 8 [] []) ∧
    (∀ who ∈ [RemoteWho.unit 5, .token 7 1],
      (let s := linkState true fun s => { s with outstanding := [outA who] }
      s.serving = true ∧ s.linked (outA who).dev = true ∧ (s.outstanding.find? fun o => o.seq == 6) = some (outA who))) := by decide +kernel
theorem witness_PortsAndOutages : (3 : BitVec 4).toNat ≠ (hostState id).dev ∧
    (∀ who ∈ [RemoteWho.unit 5, .load 0 2 1 0 0x80 true, .token 7 1],
      (let s : State := { on id with outstanding := [outA who] }
      s.failRoom (s.toDev 3) = true ∧ s.toDev 3 = [outA who] ∧ s.reservations = [] ∧ s.ops.cells = [] ∧ (s.crew 0).epoch = 0 ∧ (s.crew 0).place ≠ .free)) ∧
    (∀ o ∈ [false, true],
      (let s := linkState o id
      s.serving = true ∧ (s.ports.get 2).peer = some peerA ∧ (s.ports.get 2).isOpen = o)) ∧ (76 : BitVec 256) ≠ 77 := by decide +kernel
theorem witness_PortsAndOutages_tokens : ∀ o ∈ ({ on id with outstanding := [outA (.token 7 1)] } : State).toDev 3, ∃ slot op, o.who = .token slot op := by
  intro o ho
  have : o = outA (.token 7 1) := by simpa [State.toDev, outA] using ho
  exact ⟨7, 1, by rw [this]; rfl⟩

/-! Start-up. -/

def bootState (stage : Nat) (f : Boot → Boot) : State :=
  { State.reset with boot := f { State.reset.boot with powered := true, minimal := false, stage := stage, fetching := none, fetched := [] } }
theorem witness_StartUp :
    (bootState 0 fun b => { b with powered := false }).boot.powered = false ∧
    (∀ n ∈ [0, 2, 3],
      (let b := (bootState n id).boot
      b.powered = true ∧ b.minimal = false ∧ b.stage < 4 ∧ b.fetching = none ∧ b.fetched = [] ∧ (b.stage = 3 ∨ b.stage < 3))) ∧
    (bootState 0 fun b => { b with log := [] }).boot.log.length < 64 ∧
    BootReason.hbm ≠ .signature ∧ BootReason.hbm ≠ .flash ∧ BootReason.hbm ≠ .rollback ∧
    (let b := (bootState 0 fun b => { b with fetching := some .flash }).boot
    b.powered = true ∧ b.minimal = false ∧ b.stage < 4 ∧ b.fetching = some .flash) ∧ [(1 : Byte)] ≠ [] ∧ [(1 : Byte)].length ≤ 8192 := by decide +kernel
/-- What the ROM says of an image is the device's own; each answer of the statement is one it may give. -/
theorem witness_StartUp_image (bytes : List Byte) : Config.imageCheck bytes = none ∨ Config.imageCheck bytes = some none ∨
    ∃ v, Config.imageCheck bytes = some (some v) ∧ ∃ svn, svn ≤ v := by
  rcases Config.imageCheck bytes with _ | _ | v
  · exact .inl rfl
  · exact .inr (.inl rfl)
  · exact .inr (.inr ⟨v, rfl, 0, Nat.zero_le v⟩)

/-! Single steps. V2 and V3 of lane 0 hold the operands; the expected values are worked out by hand from the rules named. -/

def withV (a b : Word) : State := on fun c => { c with v := (c.v.put (2 * 32) a).put (3 * 32) b }
def ran (i : Instr) (s : State) : Crew :=
  match exec i s with
  | .next t => t.landed
  | _ => default
/-- Lane 0 of V1 after an instruction on V2 and V3. -/
def lane0 (i : Instr) (a b : Word) : Word := (ran i (withV a b)).vreg 1 0
abbrev o2 : Ops2 := ⟨.v 1, .v 2, .v 3, gd⟩

-- R305, R306
theorem test_iadd_wraps : lane0 (.iadd o2 .n32 false) 0xFFFFFFFF 2 = 1 := by decide +kernel
theorem test_iadd_saturates : lane0 (.iadd o2 .i32 true) 0x7FFFFFFF 1 = 0x7FFFFFFF := by decide +kernel
theorem test_iadd_packed : lane0 (.iadd o2 .n16x2 false) 0x0001FFFF 0x00010001 = 0x00020000 := by decide +kernel
theorem test_isub_order : lane0 (.isub o2 .n32 false) 1 3 = 0xFFFFFFFE := by decide +kernel
theorem test_imulh_unsigned : lane0 (.imulh o2 .n32) 0xFFFFFFFF 0xFFFFFFFF = 0xFFFFFFFE := by decide +kernel
theorem test_imulh_signed : lane0 (.imulh o2 .i32) 0xFFFFFFFF 1 = 0xFFFFFFFF := by decide +kernel
theorem test_imin_signed : lane0 (.imin o2 .i32) 0xFFFFFFFF 1 = 0xFFFFFFFF := by decide +kernel
theorem test_imin_unsigned : lane0 (.imin o2 .n32) 0xFFFFFFFF 1 = 1 := by decide +kernel
theorem test_iabs_least : lane0 (.iabs ⟨.v 1, .v 2, gd⟩ .i32 false) 0x80000000 0 = 0x80000000 := by decide +kernel
-- R309, R310
theorem test_shl_past_width : lane0 (.shl o2 .n32) 1 33 = 0 := by decide +kernel
theorem test_sar_past_width : lane0 (.sar o2 .n32) 0x80000000 40 = 0xFFFFFFFF := by decide +kernel
theorem test_popc : lane0 (.popc ⟨.v 1, .v 2, gd⟩ .n32) 0xF0F00001 0 = 9 := by decide +kernel
theorem test_brev : lane0 (.brev ⟨.v 1, .v 2, gd⟩ .n32) 1 0 = 0x80000000 := by decide +kernel
-- R324: its worked example, FMUL that rounds to even and FFMA that keeps the exact product; then 1.0 + 2.0, and an overflow
theorem test_fmul_ties_even : lane0 (.fmul o2 .rne false false) 0x3F800800 0x3F800800 = 0x3F801000 := by decide +kernel
theorem test_ffma_exact : (ran (.ffma ⟨.v 1, .v 2, .v 2, .v 3, gd⟩ .rne false false false) (withV 0x3F800800 0xBF801000)).vreg 1 0 = 0x33800000 := by
  decide +kernel
theorem test_fadd : lane0 (.fadd o2 .rne false false false) 0x3F800000 0x40000000 = 0x40400000 := by decide +kernel
theorem test_fadd_overflows : lane0 (.fadd o2 .rne false false false) 0x7F7FFFFF 0x7F7FFFFF = 0x7F800000 := by decide +kernel
-- R331: −1.5 toward zero
theorem test_cvt_toward_zero : lane0 (.cvt ⟨.v 1, .v 2, gd⟩ .i32 .f32 .rz false) 0xBFC00000 0 = 0xFFFFFFFF := by decide +kernel
-- R272: lanes outside the guard keep their values
theorem test_guard_keeps : (ran (.iadd ⟨.v 1, .v 1, .const 5, g1⟩ .n32 false) onP1).vreg 1 3 = 0 ∧
    (ran (.iadd ⟨.v 1, .v 1, .const 5, g1⟩ .n32 false) onP1).vreg 1 2 ≠ 0 := by decide +kernel
-- R269, R271: an S destination of a signed type is extended
theorem test_uniform_sign : (ran (.isub ⟨.s 5, .v 2, .v 3, gd⟩ .i32 false) (withV 1 3)).sreg 5 = 0xFFFFFFFFFFFFFFFE := by decide +kernel
-- R293: a branch to a word that is no header
theorem test_branch_no_header :
    (match exec (.br gd 16) (on id) with
      | .next t => t.me.sett.exc.map (·.cause)
      | _ => none) = some cBadTarget := by decide +kernel
-- The digest of no bytes (log 12): FIPS 202's published value, first byte least significant
theorem test_sha3_empty : sha3 [] = 0x4a43f8804b0ad882fa493be44dff80f562d661a05647c15166d71ebff8c6ffa7 := by decide +kernel
-- The first step after reset, with MOVI.N32 V1, 7 placed (log 8)
theorem test_first_step :
    (match step (State.reset.withFetchWord 64 (encode (.movi (.v 1) gd .n32 7)).toNat) with
      | .next t => (t.landed).vreg 1 5
      | _ => 0) = 7 := by decide +kernel

-- R63: a newly allocated local range, one byte of it written, then all of it zeroed
theorem test_local_written : ((Memory.empty.freshen 0x100 4 7).write 0x101 5).fresh = [(0x100, 0x101, 7), (0x102, 0x104, 7)] ∧
    ((Memory.empty.freshen 0x100 4 7).write 0x101 5).read 0x101 = 5 ∧ ((Memory.empty.freshen 0x100 4 7).write 0x101 5).wf = true := by decide
theorem test_local_zeroed : ((Memory.empty.freshen 0x100 4 7).zero 0x100 4).read 0x102 = 0 := by decide

end Sys2Proof.Tests
end

section
namespace Sys2Proof.Machine

/-! ## The tables of the state after start-up (R11, R18, R449, R476) -/

theorem State.reset_part (n : Nat) : State.reset.part n = if n = 0 then State.resetPart0 else default :=
  Tbl.get_put _ _ _ _

theorem State.reset_part_zero : State.reset.part 0 = State.resetPart0 := Tbl.get_put_same _ _ _

theorem State.reset_part_other {n : Nat} (h : n ≠ 0) : State.reset.part n = default := by
  rw [State.reset_part, if_neg h]

theorem State.reset_producer (n : Nat) :
    State.reset.producers.get n = if n = 0 then State.resetProducer0 else default :=
  Tbl.get_put _ _ _ _

theorem State.reset_producer_zero : State.reset.producers.get 0 = State.resetProducer0 := Tbl.get_put_same _ _ _

theorem State.reset_producer_other {n : Nat} (h : n ≠ 0) : State.reset.producers.get n = default := by
  rw [State.reset_producer, if_neg h]

@[simp] theorem State.reset_crew (k : Nat) : State.reset.crew k = default := Tbl.get_empty k

@[simp] theorem State.reset_gang (g : Nat) : State.reset.gang g = default := Tbl.get_empty g

@[simp] theorem State.reset_die (d : Nat) : State.reset.die d = default := Tbl.get_empty d

@[simp] theorem State.reset_mem : State.reset.mem = Memory.empty := rfl

@[simp] theorem Memory.read_empty (a : Nat) : Memory.empty.read a = 0 := rfl

/-! ## What start-up leaves, unit by unit -/

/-- R449: partition 0, without a cluster, is the only one. -/
theorem State.reset_partitions :
    (State.reset.part 0).present = true ∧ (State.reset.part 0).clusters = 0 ∧
    ∀ n, n ≠ 0 → (State.reset.part n).present = false := by
  refine ⟨?_, ?_, fun n hn => ?_⟩
  · rw [State.reset_part_zero]; rfl
  · rw [State.reset_part_zero]; rfl
  · rw [State.reset_part_other hn]; rfl

/-- R449: producer 0, a host producer of partition 0 with SUP = 1, is the only one. -/
theorem State.reset_producers :
    ((State.reset.producers.get 0).v = true ∧ (State.reset.producers.get 0).sup = true ∧
      (State.reset.producers.get 0).devp = false ∧ (State.reset.producers.get 0).part = 0) ∧
    ∀ n, n ≠ 0 → (State.reset.producers.get n).v = false := by
  refine ⟨?_, fun n hn => ?_⟩
  · rw [State.reset_producer_zero]; exact ⟨rfl, rfl, rfl, rfl⟩
  · rw [State.reset_producer_other hn]; rfl

/-- R11: no crew is placed and no gang is live. -/
theorem State.reset_crews_gangs :
    (∀ k, (State.reset.crew k).place = .free) ∧ ∀ g, (State.reset.gang g).live = false := by
  refine ⟨fun k => ?_, fun g => ?_⟩
  · rw [State.reset_crew]; rfl
  · rw [State.reset_gang]; rfl

/-- No die holds an operator table or has counted an error. -/
theorem State.reset_dies (d : Nat) : (State.reset.die d).opTable.present = false ∧
    (State.reset.die d).uncorr = 0 ∧ (State.reset.die d).corrected = 0 := by
  rw [State.reset_die]; exact ⟨rfl, rfl, rfl⟩

/-- Settles O35, from what each table holds after start-up. -/
theorem resetState : Obligations.ResetState := by
  obtain ⟨hpresent, hclusters, hnoPart⟩ := State.reset_partitions
  obtain ⟨⟨hv, hsup, hdevp, hpart⟩, hnoProducer⟩ := State.reset_producers
  obtain ⟨hcrews, hgangs⟩ := State.reset_crews_gangs
  obtain ⟨hdev, hdomain⟩ : State.reset.dev = 0 ∧ State.reset.domain = [0] := ⟨rfl, rfl⟩
  obtain ⟨hstage, hpowered⟩ : State.reset.boot.stage = 4 ∧ State.reset.boot.powered = true := ⟨rfl, rfl⟩
  obtain ⟨hlaunches, hcmds, hops, hbenches⟩ : State.reset.launches.cells = [] ∧ State.reset.cmds.cells = [] ∧
      State.reset.ops.cells = [] ∧ State.reset.benches.cells = [] := ⟨rfl, rfl, rfl, rfl⟩
  have hzero (a : Nat) : State.reset.mem.read a = 0 := by rw [State.reset_mem, Memory.read_empty]
  exact ⟨hpresent, hclusters, hnoPart, hv, hsup, hdevp, hpart, hnoProducer, hdev, hdomain, hstage,
    hpowered, hcrews, hgangs, hlaunches, hcmds, hops, hbenches, State.reset_dies, hzero, reset_memOk⟩

end Sys2Proof.Machine
end

section
namespace Sys2Proof.Machine

/-!
# The memory stays in its canonical form (O39)

One lemma for each function of the model that yields a state. `f_mem`: `f` leaves the memory as it is. `f_memOk`: `f` may write the
memory, or runs steps it is given, and keeps the canonical form. The memory changes through `Memory.write`, `Memory.freshen` and
`Memory.zero`, whose rules are those of `Laws/Memory`, or begins anew as `Memory.empty`; so each proof follows the branches of its
function and cites the lemmas of the functions called there. `exec_memOk` collects the instructions and events, `step_memOk` adds the
choice of what runs.
-/

/-! ### What the lemmas share -/

@[simp] theorem State.mem_ite (c : Prop) [Decidable c] (s t : State) :
    (if c then s else t).mem = if c then s.mem else t.mem := apply_ite _ _ _ _

@[simp] theorem Memory.wf_ite (c : Prop) [Decidable c] (m k : Memory) :
    (if c then m else k).wf = if c then m.wf else k.wf := apply_ite _ _ _ _

theorem wf_of_mem_eq {s t : State} (h : t.mem = s.mem) (hm : s.mem.wf = true) : t.mem.wf = true := by
  rw [h, hm]

/-- An outcome that is a next state has the memory in its canonical form. -/
def OutMemOk : Out → Prop
  | .next t => t.mem.wf = true
  | _ => True

@[simp] theorem outMemOk_next (t : State) : OutMemOk (.next t) ↔ t.mem.wf = true := Iff.rfl

@[simp] theorem outMemOk_ite (c : Prop) [Decidable c] (o p : Out) :
    OutMemOk (if c then o else p) ↔ if c then OutMemOk o else OutMemOk p := by
  split <;> rfl

theorem outMemOk_of_mem_eq {s t : State} (hm : s.mem.wf = true) (h : t.mem = s.mem) : OutMemOk (.next t) :=
  wf_of_mem_eq h hm

theorem getD_memOk {s : State} {o : Option State} (hs : s.mem.wf = true) (ho : ∀ t, o = some t → t.mem.wf = true) :
    (o.getD s).mem.wf = true := by
  cases o with
  | none => exact hs
  | some t => exact ho t rfl

/-- Steps that may fail, one after another: the state they end in holds the memory they began with. -/
theorem foldl_bind_mem {α : Type} (g : State → α → Option State) (hg : ∀ s a t, g s a = some t → t.mem = s.mem)
    (l : List α) (s t : State) (ht : l.foldl (fun acc a => acc.bind fun s => g s a) (some s) = some t) : t.mem = s.mem := by
  refine List.foldlRecOn (motive := fun acc : Option State => ∀ t, acc = some t → t.mem = s.mem) l _ (by rintro _ ⟨⟩; rfl)
    (fun acc hacc a _ u hu => ?_) t ht
  obtain ⟨w, hw, hu⟩ := Option.bind_eq_some_iff.1 hu
  rw [hg w a u hu, hacc w hw]

/-! ### Operands and lane slots (`Machine/Operands.lean`) -/

@[simp] theorem State.updMe_mem (s : State) (f : Crew → Crew) : (s.updMe f).mem = s.mem := rfl

@[simp] theorem laneSlot_mem (s : State) (g : Guard) (d : Dst) (wide sx : Bool)
    (f : Crew → Nat → Word → LaneOut) :
    (laneSlot s g d wide sx f).mem = s.mem := by
  simp [laneSlot]

@[simp] theorem valueSlot_mem (s : State) (g : Guard) (d : Dst) (wide sx : Bool) (f : Crew → Nat → DWord) :
    (valueSlot s g d wide sx f).mem = s.mem := by
  simp [valueSlot]

@[simp] theorem crossSlot_mem (s : State) (g : Guard) (d : Dst) (wide sx : Bool)
    (f : Crew → List Nat → List (Nat × DWord) × Flags5) :
    (crossSlot s g d wide sx f).mem = s.mem := by
  simp [crossSlot]

/-! ### Integer slots (`Machine/Integer.lean`) -/

@[simp] theorem intSlot2_mem (o : Ops2) (t : IntTy) (f : DWord → DWord → DWord) (s : State) :
    (intSlot2 o t f s).mem = s.mem := by
  simp [intSlot2]

@[simp] theorem intSlot3_mem (o : Ops3) (t : IntTy) (f : DWord → DWord → DWord → DWord) (s : State) :
    (intSlot3 o t f s).mem = s.mem := by
  simp [intSlot3]

@[simp] theorem intSlot1_mem (o : Ops1) (t : IntTy) (f : DWord → DWord) (s : State) :
    (intSlot1 o t f s).mem = s.mem := by
  simp [intSlot1]

@[simp] theorem intSlotK_mem (o : Ops2) (t : IntTy) (f : DWord → DWord → DWord) (s : State) :
    (intSlotK o t f s).mem = s.mem := by
  simp [intSlotK]

@[simp] theorem countSlot_mem (o : Ops1) (t : IntTy) (f : DWord → DWord) (s : State) :
    (countSlot o t f s).mem = s.mem := by
  simp [countSlot]

@[simp] theorem specialMove_mem (g : Guard) (a : Src) (start : Crew → DWord) (w : DWord → Wr) (s : State) :
    (specialMove g a start w s).mem = s.mem := by
  simp [specialMove]

/-! ### Float slots (`Machine/FloatOps.lean`) -/

@[simp] theorem floatSlot1_mem (o : Ops1) (f : Word → Word → LaneOut) (s : State) :
    (floatSlot1 o f s).mem = s.mem := by
  simp [floatSlot1]

@[simp] theorem floatSlot2_mem (o : Ops2) (f : Word → Word → Word → LaneOut) (s : State) :
    (floatSlot2 o f s).mem = s.mem := by
  simp [floatSlot2]

@[simp] theorem floatSlot3_mem (o : Ops3) (f : Word → Word → Word → Word → LaneOut) (s : State) :
    (floatSlot3 o f s).mem = s.mem := by
  simp [floatSlot3]

@[simp] theorem packedSlot2_mem (o : Ops2) (t : PackTy) (f : Word → Word → Word → LaneOut) (s : State) :
    (packedSlot2 o t f s).mem = s.mem := by
  simp [packedSlot2]

theorem execMxpack_memOk (o : Ops1) (f : MxFmt) (ly : MxLayout) (strict : Bool) (rm : Rnd) (s : State)
    (hm : s.mem.wf = true) :
    OutMemOk (execMxpack o f ly strict rm s) := by
  simp [execMxpack, hm]

/-! ### Requests and the combining buffers (`Machine/Mem.lean`) -/

@[simp] theorem State.completeOn_mem (s : State) (crew : Nat) (p : Path6) (k : Nat) :
    (s.completeOn crew p k).mem = s.mem := by
  simp [State.completeOn]

@[simp] theorem State.wakeCore_mem (s : State) (core : Nat) (why : BitVec 4) :
    (s.wakeCore core why).mem = s.mem := rfl

@[simp] theorem State.performVal_memOk (s : State) (a n v : Nat) (hm : s.mem.wf = true) :
    (s.performVal a n v).mem.wf = true := by
  simp [State.performVal, hm, perform_memOk]

@[simp] theorem State.touchDc_mem (s : State) (line mtype : Nat) (write : Bool) :
    (s.touchDc line mtype write).mem = s.mem := by
  simp [State.touchDc]

@[simp] theorem State.touchWrite_mem (s : State) (bs : List (Nat × Byte)) (types : List (Nat × Nat)) :
    (s.touchWrite bs types).mem = s.mem := by
  unfold State.touchWrite
  exact foldl_mem _ (fun _ _ => by simp) _ _

@[simp] theorem State.rmwAt_memOk (s : State) (op : AtomOp) (t : ElemTy) (pa x y : Nat) (hm : s.mem.wf = true) :
    (s.rmwAt op t pa x y).mem.wf = true := by
  simp only [State.rmwAt]
  split <;> simp [hm]

@[simp] theorem State.performRmw_memOk (s : State) (w : Rmw) (hm : s.mem.wf = true) :
    (s.performRmw w).mem.wf = true := by
  simp [State.performRmw, hm]

@[simp] theorem State.settleTags_mem (s : State) (ts : List (Nat × Nat)) : (s.settleTags ts).mem = s.mem := by
  induction ts generalizing s with
  | nil => rfl
  | cons t ts ih => simp [State.settleTags, ih]

@[simp] theorem State.sendTo_mem (s : State) (dev : Nat) (who : RemoteWho) (mk : Nat → TolsalMsg) :
    (s.sendTo dev who mk).mem = s.mem := rfl

@[simp] theorem State.tell_mem (s : State) (dev : Nat) (m : TolsalMsg) : (s.tell dev m).mem = s.mem := rfl

@[simp] theorem State.answerTo_mem (s : State) (src seq : Nat) (bs : List Byte) (bad : List Nat) :
    (s.answerTo src seq bs bad).mem = s.mem := rfl

@[simp] theorem State.performReq_memOk (s : State) (r : HomeReq) (hm : s.mem.wf = true) :
    (s.performReq r).mem.wf = true := by
  unfold State.performReq
  split
  · split
    · simp [hm]
    · simp [hm, perform_memOk]
  · split
    · simp [hm]
    · rwa [foldl_mem _ fun _ _ => State.sendTo_mem ..]

@[simp] theorem drainReqs_memOk (core : Nat) (rs : List HomeReq) (s : State) (hm : s.mem.wf = true) :
    (drainReqs core rs s).mem.wf = true := by
  induction rs generalizing s with
  | nil => exact hm
  | cons r rs ih =>
    unfold drainReqs
    split
    · exact ih _ (State.performReq_memOk _ _ hm)
    · split
      · exact hm
      · exact ih _ hm

@[simp] theorem State.drain_memOk (s : State) (core : Nat) (hm : s.mem.wf = true) :
    (s.drain core).mem.wf = true := by
  simp [State.drain, hm]

@[simp] theorem State.flushCb_mem (s : State) (core : Nat) : (s.flushCb core).mem = s.mem := by
  simp only [State.flushCb]
  split <;> simp

@[simp] theorem State.enterCb_mem (s : State) (core line mtype : Nat) (bs : List (Nat × Byte))
    (tag : Nat × Nat) :
    (s.enterCb core line mtype bs tag).mem = s.mem := by
  simp [State.enterCb]

@[simp] theorem State.fillL1_mem (s : State) (core dev a : Nat) : (s.fillL1 core dev a).mem = s.mem := by
  simp [State.fillL1]

@[simp] theorem State.unkeep_mem (s : State) (core : Nat) (hit : Nat → Nat → Bool) :
    (s.unkeep core hit).mem = s.mem := rfl

@[simp] theorem State.dropLine_mem (s : State) (core dev line : Nat) :
    (s.dropLine core dev line).mem = s.mem := by
  simp [State.dropLine]

@[simp] theorem State.dropBytes_mem (s : State) (core dev : Nat) (bs : List (Nat × Byte)) :
    (s.dropBytes core dev bs).mem = s.mem := by
  unfold State.dropBytes
  exact foldl_mem _ (fun _ _ => by simp) _ _

@[simp] theorem State.releaseCore_memOk (s : State) (core : Nat) (hm : s.mem.wf = true) :
    (s.releaseCore core).mem.wf = true := by
  simp [State.releaseCore, hm]

@[simp] theorem State.settleLines_memOk (s : State) (core dev a n : Nat) (hm : s.mem.wf = true) :
    (s.settleLines core dev a n).mem.wf = true := by
  simp [State.settleLines, hm]

/-! ### Translation (`Machine/Xlate.lean`) -/

@[simp] theorem State.tlbFill_mem (s : State) (p ctx va : Nat) : (s.tlbFill p ctx va).mem = s.mem := by
  unfold State.tlbFill
  split <;> simp

@[simp] theorem State.kvFill_mem (s : State) (p die : Nat) (handle : Word) (off : Nat) :
    (s.kvFill p die handle off).mem = s.mem := by
  unfold State.kvFill
  split <;> simp

@[simp] theorem State.fillTlbs_mem (s : State) (p ctx : Nat) (ls : List (Nat × Loc)) :
    (s.fillTlbs p ctx ls).mem = s.mem := by
  unfold State.fillTlbs
  exact foldl_mem _ (fun _ _ => by split <;> simp) _ _

/-! ### Operations and their completion (`Machine/Ops.lean`) -/

@[simp] theorem State.emit_mem (s : State) (die part : Nat) (r : BitVec 256) :
    (s.emit die part r).mem = s.mem := by
  simp [State.emit]

@[simp] theorem State.keepCode_mem (s : State) (k : Nat) (level : Bool) (va : Nat) :
    (s.keepCode k level va).mem = s.mem := by
  unfold State.keepCode
  dsimp only
  (repeat' split) <;> simp

@[simp] theorem State.prefetch_mem (s : State) (k : Nat) (level : Bool) (fall : Nat) (branch : Option Nat) :
    (s.prefetch k level fall branch).mem = s.mem := rfl

@[simp] theorem State.askCode_mem (s : State) (k dev line : Nat) : (s.askCode k dev line).mem = s.mem := by
  simp [State.askCode]

@[simp] theorem State.discard_mem (s : State) (k : Nat) : (s.discard k).mem = s.mem := by
  simp [State.discard]

@[simp] theorem State.countHeld_mem (s : State) (g k ph : Nat) : (s.countHeld g k ph).mem = s.mem := by
  unfold State.countHeld
  exact foldl_mem _ (fun _ _ => by simp) _ _

@[simp] theorem State.checkBar_mem (s : State) (g k n : Nat) : (s.checkBar g k n).mem = s.mem := by
  induction n generalizing s with
  | zero => rfl
  | succ n ih => simp [State.checkBar, ih]

@[simp] theorem State.arrive_mem (s : State) (k b : Nat) : (s.arrive k b).mem = s.mem := by
  simp [State.arrive]

@[simp] theorem State.leaveBar_mem (s : State) (k b : Nat) : (s.leaveBar k b).mem = s.mem := by
  simp [State.leaveBar]

@[simp] theorem State.leaveAll_mem (s : State) (k : Nat) :
    (s.leaveAll k).mem = s.mem := foldl_mem (fun s b => s.leaveBar k b) (fun _ _ => State.leaveBar_mem ..) _ _

@[simp] theorem State.joinBar_mem (s : State) (k b : Nat) : (s.joinBar k b).mem = s.mem := rfl

@[simp] theorem State.joinAll_mem (s : State) (k : Nat) :
    (s.joinAll k).mem = s.mem := foldl_mem (fun s b => s.joinBar k b) (fun _ _ => State.joinBar_mem ..) _ _

@[simp] theorem State.freeToken_mem (s : State) (key : Nat) : (s.freeToken key).mem = s.mem := rfl

@[simp] theorem State.releaseYards_mem (s : State) (g : Bool × Nat) : (s.releaseYards g).mem = s.mem := rfl

@[simp] theorem State.freeRows_mem (s : State) (g k : Nat) : (s.freeRows g k).mem = s.mem := by
  unfold State.freeRows
  exact foldl_mem _ (fun _ _ => by simp) _ _

@[simp] theorem State.releaseTable_mem (s : State) (die gen : Nat) :
    (s.releaseTable die gen).mem = s.mem := by
  simp [State.releaseTable]

@[simp] theorem State.launchGangEnds_mem (s : State) (l : Nat) : (s.launchGangEnds l).mem = s.mem := by
  simp [State.launchGangEnds]

@[simp] theorem State.dropGang_mem (s : State) (g : Nat) : (s.dropGang g).mem = s.mem := by
  simp [State.dropGang]

@[simp] theorem State.endGang_mem (s : State) (g k : Nat) : (s.endGang g k).mem = s.mem := by
  simp only [State.endGang]
  split <;> simp

@[simp] theorem State.dropCrew_mem (s : State) (k : Nat) : (s.dropCrew k).mem = s.mem := rfl

@[simp] theorem State.endCrew_mem (s : State) (k : Nat) (back : Bool) : (s.endCrew k back).mem = s.mem := by
  simp [State.endCrew]

@[simp] theorem State.dropCode_mem (s : State) (cores keys : List Nat) :
    (s.dropCode cores keys).mem = s.mem := by
  unfold State.dropCode
  exact foldl_mem _ (fun _ _ => by simp) _ _

@[simp] theorem State.endHold_mem (s : State) (x : Hold) : (s.endHold x).mem = s.mem := by
  unfold State.endHold
  split <;> simp

@[simp] theorem State.doubleTrap_mem (s : State) (k : Nat) (cause : BitVec 8) (addr : DWord) :
    (s.doubleTrap k cause addr).mem = s.mem := by
  simp [State.doubleTrap]

@[simp] theorem State.takeTrap_mem (s : State) (k : Nat) (cause : BitVec 8) (addr : DWord) (slot lane : Nat)
    (flags : BitVec 5) (pc : Nat) :
    (s.takeTrap k cause addr slot lane flags pc).mem = s.mem := by
  unfold State.takeTrap
  dsimp only
  (repeat' split) <;> simp

@[simp] theorem State.saveGang_mem (s : State) (g : Nat) : (s.saveGang g).mem = s.mem := rfl

@[simp] theorem State.saveCrew_mem (s : State) (k : Nat) : (s.saveCrew k).mem = s.mem := by
  simp [State.saveCrew]

@[simp] theorem State.trySave_mem (s : State) (k : Nat) : (s.trySave k).mem = s.mem := by
  simp [State.trySave]

/-! ### Setts (`Machine/Sett.lean`) -/

@[simp] theorem State.tick_mem (s : State) (core : Nat) : (s.tick core).mem = s.mem := rfl

@[simp] theorem State.keepSett_mem (s : State) (k : Nat) (level : Bool) (pc n : Nat) :
    (s.keepSett k level pc n).mem = s.mem := by
  unfold State.keepSett
  exact foldl_mem _ (fun _ _ => by simp) _ _

@[simp] theorem State.beginSett_mem (s : State) (k pc : Nat) (h : Header) (words : List DWord) :
    (s.beginSett k pc h words).mem = s.mem := by
  unfold State.beginSett
  dsimp only
  (repeat' split) <;> simp

@[simp] theorem State.fetchSett_mem (s : State) (k : Nat) : (s.fetchSett k).mem = s.mem := by
  unfold State.fetchSett
  dsimp only
  (repeat' split) <;> simp

@[simp] theorem State.startSett_mem (s : State) (k : Nat) : (s.startSett k).mem = s.mem := by
  have hold (s : State) (hs : List Hold) : (hs.foldl (fun s h => s.endHold h) s).mem = s.mem :=
    foldl_mem _ (fun _ _ => State.endHold_mem ..) _ _
  unfold State.startSett
  dsimp only
  (repeat' split) <;> simp [hold]

@[simp] theorem State.settStart_mem (s : State) (k : Nat) : (s.settStart k).mem = s.mem := by
  simp [State.settStart]

@[simp] theorem State.stampFar_mem (s : State) (k slot : Nat) (cmp : StampCmp) (v : Nat) (loc : Loc) :
    (s.stampFar k slot cmp v loc).1.mem = s.mem := by
  unfold State.stampFar
  dsimp only
  (repeat' split) <;> simp

@[simp] theorem State.stampRead_memOk (s : State) (k slot : Nat) (cmp : StampCmp) (v : Nat) (loc : Loc)
    (hm : s.mem.wf = true) :
    (s.stampRead k slot cmp v loc).1.mem.wf = true := by
  unfold State.stampRead
  dsimp only
  (repeat' split) <;> simp [hm]

@[simp] theorem State.tryEngine_mem (s : State) (k : Nat) (u : EngUnit) :
    (s.tryEngine k u).1.mem = s.mem := by
  unfold State.tryEngine
  dsimp only
  (repeat' split) <;> simp

@[simp] theorem State.tryWait_memOk (s : State) (k : Nat) (w : WaitRec) (hm : s.mem.wf = true) :
    (s.tryWait k w).1.mem.wf = true := by
  unfold State.tryWait
  split <;> simp [hm]

theorem State.tryWaits_memOk (s : State) (k : Nat) (ws : List WaitRec) (hm : s.mem.wf = true) :
    (s.tryWaits k ws).1.mem.wf = true := by
  induction ws generalizing s with
  | nil => exact hm
  | cons w ws ih =>
    have hw := State.tryWait_memOk s k w hm
    unfold State.tryWaits
    split
    next t ht => rw [ht] at hw; exact ih t hw
    · exact hw

@[simp] theorem State.sendReq_mem (s : State) (r : HomeReq) : (s.sendReq r).mem = s.mem := by
  simp [State.sendReq]

@[simp] theorem State.issueTo_mem (s : State) (k seq dev : Nat) (rs : List StoreRec) :
    (s.issueTo k seq dev rs).mem = s.mem := by
  unfold State.issueTo
  dsimp only
  split <;> split <;> simp [foldl_mem _ fun (s : State) (line : Nat) => State.enterCb_mem s ..]

@[simp] theorem State.issueSlot_mem (s : State) (k : Nat) (rs : List StoreRec) :
    (s.issueSlot k rs).mem = s.mem := by
  unfold State.issueSlot
  exact foldl_mem _ (fun _ _ => by simp) _ _

@[simp] theorem State.issueStores_mem (s : State) (k : Nat) (rs : List StoreRec) :
    (s.issueStores k rs).mem = s.mem := by
  unfold State.issueStores
  exact foldl_mem _ (fun _ _ => by simp) _ _

@[simp] theorem State.issuePref_mem (s : State) (k : Nat) (p : Cap) : (s.issuePref k p).mem = s.mem := rfl

@[simp] theorem State.finishWrites_mem (s : State) (k : Nat) : (s.finishWrites k).mem = s.mem := rfl

@[simp] theorem State.raiseAt_mem (s : State) (k : Nat) (e : Exc) : (s.raiseAt k e).mem = s.mem := rfl

theorem State.checkedGo_memOk (s : State) (k : Nat) (call : DWord → Bool) (addrs : List DWord)
    (go : State → State) (hgo : ∀ s, s.mem.wf = true → (go s).mem.wf = true) (hm : s.mem.wf = true) :
    (s.checkedGo k call addrs go).mem.wf = true := by
  simp only [State.checkedGo]
  split <;> simp [hm, hgo]

theorem State.enterCommit_memOk (s : State) (k : Nat) (go : State → State)
    (hgo : ∀ s, s.mem.wf = true → (go s).mem.wf = true) (hm : s.mem.wf = true) :
    (s.enterCommit k go).mem.wf = true := by
  unfold State.enterCommit
  split <;> simp [hm, hgo]

@[simp] theorem State.beginCommit_memOk (s : State) (k : Nat) (hm : s.mem.wf = true) :
    (s.beginCommit k).mem.wf = true := by
  have hw := State.tryWaits_memOk s k (s.crew k).sett.waits hm
  unfold State.beginCommit
  split <;> rename_i ht <;> rw [ht] at hw
  · dsimp only
    split <;> simp [hw]
  · simpa [foldl_mem _ fun (s : State) p => State.issuePref_mem s k p] using hw

@[simp] theorem State.endCommit_mem (s : State) (k : Nat) : (s.endCommit k).mem = s.mem := by
  simp only [State.endCommit]
  split <;> simp

@[simp] theorem State.settCommit_memOk (s : State) (k : Nat) (hm : s.mem.wf = true) :
    (s.settCommit k).mem.wf = true := by
  have henter (s : State) (h : s.mem.wf = true) : (s.enterCommit k fun s => s.beginCommit k).mem.wf = true :=
    State.enterCommit_memOk s k _ (fun s h => State.beginCommit_memOk s k h) h
  unfold State.settCommit
  dsimp only
  split
  · exact hm
  · split
    · split
      · exact hm
      · split
        · exact hm
        · split
          · exact henter s hm
          · exact State.checkedGo_memOk _ _ _ _ _ henter hm
    · split <;> simp [hm]
    · exact hm

@[simp] theorem State.askVec_mem (s : State) (k : Nat) : (s.askVec k).mem = s.mem := by
  simp only [State.askVec]
  split <;> simp

theorem execTrapEntry_memOk (s : State) (hm : s.mem.wf = true) : OutMemOk (execTrapEntry s) := by
  simp only [execTrapEntry]
  split <;> simp [hm]

@[simp] theorem State.issueFrom_mem (s : State) (k : Nat) : (s.issueFrom k).mem = s.mem := rfl

@[simp] theorem State.countStreak_mem (s : State) (k : Nat) (before : DWord) :
    (s.countStreak k before).mem = s.mem := by
  simp [State.countStreak]

theorem execQuarterIssueSwitch_memOk (crew : Nat) (s : State) (hm : s.mem.wf = true) :
    OutMemOk (execQuarterIssueSwitch crew s) := by
  simp [execQuarterIssueSwitch, hm]

theorem execLocalWatchdog_memOk (crew : Nat) (s : State) (hm : s.mem.wf = true) :
    OutMemOk (execLocalWatchdog crew s) := by
  simp [execLocalWatchdog, hm]

/-! ### Loads and stores (`Machine/LoadStore.lean`) -/

@[simp] theorem State.keep_mem (s : State) (caps : List Cap) (waits : List WaitRec) :
    (s.keep caps waits).mem = s.mem := rfl

@[simp] theorem State.land_mem (s : State) (wr : List Wr) : (s.land wr).mem = s.mem := rfl

@[simp] theorem State.stallMe_mem (s : State) (why : BitVec 4) : (s.stallMe why).mem = s.mem := rfl

theorem effSlot_memOk (check act : State → State) (s : State)
    (hcheck : ∀ s, s.mem.wf = true → (check s).mem.wf = true)
    (hact : ∀ s, s.mem.wf = true → (act s).mem.wf = true) (hm : s.mem.wf = true) :
    (effSlot check act s).mem.wf = true := by
  unfold effSlot
  split <;> simp [hm, hcheck, hact]

@[simp] theorem State.acquire_mem (s : State) (core : Nat) (sc : Scope) :
    (s.acquire core sc).mem = s.mem := by
  simp [State.acquire, dropL1_mem]

@[simp] theorem State.releaseAt_memOk (s : State) (core : Nat) (sc : Scope) (hm : s.mem.wf = true) :
    (s.releaseAt core sc).mem.wf = true := by
  simp [State.releaseAt, hm]

@[simp] theorem State.touchL1_mem (s : State) (core dev pa n : Nat) :
    (s.touchL1 core dev pa n).mem = s.mem := rfl

@[simp] theorem State.askLoad_memOk (s : State) (k slot lane : Nat) (x : Loc) (n : Nat) (keep : Bool)
    (hm : s.mem.wf = true) :
    (s.askLoad k slot lane x n keep).mem.wf = true := by
  simp [State.askLoad, hm]

@[simp] theorem State.allocate_mem (s : State) (c : Crew) (ls : List (Nat × Loc)) :
    (s.allocate c ls).mem = s.mem := by
  refine foldl_mem _ (fun s p => ?_) ls s
  split <;> simp

@[simp] theorem State.park_mem (s : State) (die i : Nat) (e : FqEntry) : (s.park die i e).mem = s.mem := by
  simp [State.park]

@[simp] theorem State.parkKv_mem (s : State) (k lane : Nat) (handle : Word) (off : DWord) :
    (s.parkKv k lane handle off).mem = s.mem := by
  unfold State.parkKv
  dsimp only
  split <;> simp

@[simp] theorem plainLoad_memOk (sp : Space) (m : MemA) (s : State) (hm : s.mem.wf = true) :
    (plainLoad sp m s).mem.wf = true := by
  unfold plainLoad
  dsimp only
  (repeat' split) <;> simp only [State.setMe_mem, State.parkKv_mem, hm, State.stallMe_mem]
  · exact foldl_memOk _ (fun s p h => State.askLoad_memOk (hm := h) ..) _ _ hm
  · exact foldl_memOk _ (fun s p h => State.askLoad_memOk (hm := h) ..) _ _ hm
  · simp [foldl_mem _ fun (s : State) (l : Nat) => State.kvFill_mem s .., hm]
  · simp [hm]

@[simp] theorem State.captureLanes_memOk (s : State) (reads : Option Nat) (rs : List (Nat × Res))
    (args : Nat → List DWord) (waits : List WaitKind) (hm : s.mem.wf = true) :
    (s.captureLanes reads rs args waits).mem.wf = true := by
  unfold State.captureLanes
  dsimp only
  (repeat' split) <;> simp only [State.setMe_mem, State.keep_mem, State.fillTlbs_mem, hm, State.stallMe_mem]
  all_goals exact foldl_memOk _ (fun s p h => State.askLoad_memOk (hm := h) ..) _ _ hm

@[simp] theorem State.askCommit_mem (s : State) (k : Nat) (p : Cap) (acc : Bool) (mk : Nat → TolsalMsg) :
    (s.askCommit k p acc mk).mem = s.mem := by
  simp [State.askCommit]

@[simp] theorem State.settleCaps_memOk (s : State) (core n : Nat) (caps : List Cap) (hm : s.mem.wf = true) :
    (s.settleCaps core n caps).mem.wf = true := by
  unfold State.settleCaps
  exact foldl_memOk _ (fun _ _ h => by simp [h]) _ _ hm

@[simp] theorem acquireLoad_memOk (m : MemA) (s : State) (hm : s.mem.wf = true) :
    (acquireLoad m s).mem.wf = true := by
  have hc := State.settleCaps_memOk s s.me.core (memN m.w) s.me.caps hm
  unfold acquireLoad
  dsimp only
  generalize s.settleCaps s.me.core (memN m.w) s.me.caps = t at hc ⊢
  split
  · simp [hc]
  · split
    · rw [State.stallMe_mem]
      refine foldl_memOk _ (fun _ _ h => ?_) _ _ hc
      split <;> simp [h]
    · rw [State.land_mem]
      split
      · rwa [foldl_mem _ fun t p => by simp]
      · rwa [State.acquire_mem, foldl_mem _ fun t p => by simp]

@[simp] theorem loadInstr_memOk (sp : Space) (m : MemA) (s : State) (hm : s.mem.wf = true) :
    (loadInstr sp m s).mem.wf = true := by
  unfold loadInstr
  split
  · exact effSlot_memOk _ _ s (fun s h => by simp [h]) (fun s h => acquireLoad_memOk m s h) hm
  · exact plainLoad_memOk sp m s hm

@[simp] theorem plainStore_mem (sp : Space) (m : MemA) (s : State) : (plainStore sp m s).mem = s.mem := by
  unfold plainStore
  dsimp only
  (repeat' split) <;> simp

@[simp] theorem releaseStore_memOk (m : MemA) (s : State) (hm : s.mem.wf = true) :
    (releaseStore m s).mem.wf = true := by
  simp [releaseStore, hm]

@[simp] theorem storeInstr_memOk (sp : Space) (m : MemA) (s : State) (hm : s.mem.wf = true) :
    (storeInstr sp m s).mem.wf = true := by
  unfold storeInstr
  split
  · exact effSlot_memOk _ _ s (fun s h => by simp [h]) (fun s h => releaseStore_memOk m s h) hm
  · simp [hm]

/-! ### Atomics (`Machine/Atomics.lean`) -/

@[simp] theorem State.putAnswer_mem (s : State) (k slot lane : Nat) (bs : List Byte) :
    (s.putAnswer k slot lane bs).mem = s.mem := rfl

theorem atomLanes_memOk (k : Nat) (a : AtomA) (ps : List Cap) (s : State) (hm : s.mem.wf = true) :
    (atomLanes k a ps s).1.mem.wf = true := by
  induction ps generalizing s with
  | nil => exact hm
  | cons p ps ih =>
    unfold atomLanes
    dsimp only
    split
    · exact ih _ hm
    · split
      · exact ih _ (by simp [hm])
      · simp [hm]

@[simp] theorem State.dropCaps_mem (s : State) (core : Nat) (caps : List Cap) :
    (s.dropCaps core caps).mem = s.mem := by
  unfold State.dropCaps
  exact foldl_mem _ (fun _ _ => by simp) _ _

@[simp] theorem atomReturn_memOk (a : AtomA) (s : State) (hm : s.mem.wf = true) :
    (atomReturn a s).mem.wf = true := by
  unfold atomReturn
  dsimp only
  split
  · simp [hm]
  · have hl := atomLanes_memOk s.cur a s.me.caps ((s.releaseCore s.me.core).dropCaps s.me.core s.me.caps)
      (by simp [hm])
    split
    · simp [hm]
    · split <;> rename_i hs <;> rw [hs] at hl
      · exact hl
      · rw [State.land_mem]
        split
        · rwa [State.acquire_mem]
        · exact hl

@[simp] theorem atomSend_memOk (a : AtomA) (s : State) (hm : s.mem.wf = true) :
    (atomSend a s).mem.wf = true := by
  simp [atomSend, hm]

@[simp] theorem atomInstr_memOk (sp : Space) (ret : Bool) (a : AtomA) (s : State) (hm : s.mem.wf = true) :
    (atomInstr sp ret a s).mem.wf = true := by
  refine effSlot_memOk _ _ s (fun s h => State.captureLanes_memOk s _ _ _ _ h) (fun s h => ?_) hm
  split
  · exact atomReturn_memOk a s h
  · exact atomSend_memOk a s h

/-! ### Fences and ranges (`Machine/Fences.lean`) -/

theorem onceSlot_memOk (g : Guard) (waits : List WaitKind) (act : State → State) (s : State)
    (hact : ∀ s, s.mem.wf = true → (act s).mem.wf = true) (hm : s.mem.wf = true) :
    (onceSlot g waits act s).mem.wf = true := by
  refine effSlot_memOk _ _ s (fun s h => by simp [h]) (fun s h => ?_) hm
  split
  · simp [h]
  · exact hact s h

@[simp] theorem fenceAct_memOk (eng : Bool) (sc : Scope) (s : State) (hm : s.mem.wf = true) :
    (fenceAct eng sc s).mem.wf = true := by
  simp [fenceAct, hm]

theorem execFence_memOk (g : Guard) (scope : Scope) (s : State) (hm : s.mem.wf = true) :
    OutMemOk (execFence g scope s) :=
  onceSlot_memOk _ _ _ s (fun s h => fenceAct_memOk _ _ s h) hm

theorem execFenceEng_memOk (g : Guard) (scope : Scope) (s : State) (hm : s.mem.wf = true) :
    OutMemOk (execFenceEng g scope s) :=
  onceSlot_memOk _ _ _ s (fun s h => fenceAct_memOk _ _ s h) hm

@[simp] theorem prefSlot_mem (dc : Bool) (base index : Src) (off : BitVec 14) (g : Guard) (scale : BitVec 2)
    (s : State) :
    (prefSlot dc base index off g scale s).mem = s.mem := by
  simp [prefSlot]

theorem rangeSlot_memOk (a : RangeA) (waits : List WaitKind) (act : List Nat → State → State) (s : State)
    (hact : ∀ ks s, s.mem.wf = true → (act ks s).mem.wf = true) (hm : s.mem.wf = true) :
    (rangeSlot a waits act s).mem.wf = true := by
  refine effSlot_memOk _ _ s (fun s h => ?_) (fun s h => ?_) hm
  · dsimp only
    (repeat' split) <;> simp [h]
  · split
    · exact hact _ s h
    · simp [h]

@[simp] theorem cwbAct_mem (keys : List Nat) (s : State) : (cwbAct keys s).mem = s.mem := by
  simp [cwbAct]

theorem execCwb_memOk (a : RangeA) (s : State) (hm : s.mem.wf = true) : OutMemOk (execCwb a s) := by
  simp [execCwb, hm, rangeSlot_memOk]

@[simp] theorem cinvAct_mem (keys : List Nat) (s : State) : (cinvAct keys s).mem = s.mem := by
  simp [cinvAct]

theorem execCinv_memOk (a : RangeA) (s : State) (hm : s.mem.wf = true) : OutMemOk (execCinv a s) := by
  simp [execCinv, hm, rangeSlot_memOk]

@[simp] theorem iinvAct_memOk (sc : Scope) (keys : List Nat) (s : State) (hm : s.mem.wf = true) :
    (iinvAct sc keys s).mem.wf = true := by
  simp [iinvAct, hm]

theorem execIinv_memOk (a : RangeA) (scope : Scope) (s : State) (hm : s.mem.wf = true) :
    OutMemOk (execIinv a scope s) :=
  rangeSlot_memOk _ _ _ s (fun ks s h => iinvAct_memOk _ ks s h) hm

theorem execFetchb_memOk (g : Guard) (s : State) (hm : s.mem.wf = true) : OutMemOk (execFetchb g s) :=
  onceSlot_memOk _ _ _ s (fun s h => by simp [h]) hm

/-! ### Barriers, queues and monitors (`Machine/Sync.lean`) -/

theorem barSlot_memOk (g : Guard) (waits : List WaitKind) (act : State → State) (s : State)
    (hact : ∀ s, s.mem.wf = true → (act s).mem.wf = true) (hm : s.mem.wf = true) :
    (barSlot g waits act s).mem.wf = true := by
  unfold barSlot
  dsimp only
  split
  · exact hm
  · exact onceSlot_memOk g waits act s hact hm

theorem execBarArrive_memOk (g : Guard) (k : BitVec 4) (s : State) (hm : s.mem.wf = true) :
    OutMemOk (execBarArrive g k s) := by
  simp [execBarArrive, hm, barSlot_memOk]

theorem execBarWait_memOk (g : Guard) (k : BitVec 4) (s : State) (hm : s.mem.wf = true) :
    OutMemOk (execBarWait g k s) :=
  barSlot_memOk _ _ _ s (fun s h => by simp [h]) hm

theorem execBarSync_memOk (g : Guard) (k : BitVec 4) (s : State) (hm : s.mem.wf = true) :
    OutMemOk (execBarSync g k s) := by
  simp [execBarSync, hm, barSlot_memOk]

theorem execCrewJoin_memOk (g : Guard) (s : State) (hm : s.mem.wf = true) : OutMemOk (execCrewJoin g s) := by
  simp [execCrewJoin, hm, onceSlot_memOk]

@[simp] theorem leaveAct_mem (d : Dst) (g : Guard) (s : State) : (leaveAct d g s).mem = s.mem := by
  simp [leaveAct]

theorem execCrewLeave_memOk (d : Dst) (g : Guard) (s : State) (hm : s.mem.wf = true) :
    OutMemOk (execCrewLeave d g s) := by
  simp [execCrewLeave, hm, onceSlot_memOk]

theorem valueOnce_memOk (g : Guard) (waits : DWord → List WaitKind) (v : Crew → DWord)
    (act : DWord → State → State) (s : State) (hact : ∀ w s, s.mem.wf = true → (act w s).mem.wf = true)
    (hm : s.mem.wf = true) :
    (valueOnce g waits v act s).mem.wf = true := by
  refine effSlot_memOk _ _ s (fun s h => ?_) (fun s h => ?_) hm
  · dsimp only
    (repeat' split) <;> simp [h]
  · split
    · exact hact _ s h
    · simp [h]

theorem execQpush_memOk (g : Guard) (a : Src) (n : BitVec 4) (s : State) (hm : s.mem.wf = true) :
    OutMemOk (execQpush g a n s) :=
  valueOnce_memOk _ _ _ _ s (fun _ s h => by simp [h]) hm

theorem execQpop_memOk (d : Dst) (g : Guard) (n : BitVec 4) (s : State) (hm : s.mem.wf = true) :
    OutMemOk (execQpop d g n s) :=
  effSlot_memOk _ _ s (fun s h => by simp [h]) (fun s h => by simp [h]) hm

theorem execWaitc_memOk (g : Guard) (a : Src) (p : Path6) (s : State) (hm : s.mem.wf = true) :
    OutMemOk (execWaitc g a p s) :=
  valueOnce_memOk _ _ _ _ s (fun _ s h => by simp [h]) hm

@[simp] theorem armAct_mem (sp : Space3) (sc : Scope) (k : Nat) (a : DWord) (s : State) :
    (armAct sp sc k a s).mem = s.mem := rfl

theorem execMonArm_memOk (g : Guard) (a : Src) (sp : Space3) (scope : Scope) (k : BitVec 2) (s : State)
    (hm : s.mem.wf = true) :
    OutMemOk (execMonArm g a sp scope k s) := by
  have arm := valueOnce_memOk g (fun _ => []) (fun c => uni64 s c 0 a g) (armAct sp scope k.toNat) s
    (fun v s h => by simp [h]) hm
  unfold execMonArm
  dsimp only
  split
  · split
    · simp [hm]
    · exact arm
  · exact arm

@[simp] theorem stampAct_mem (d : Dst) (g : Guard) (s : State) : (stampAct d g s).mem = s.mem := by
  simp only [stampAct]
  split <;> simp [dropL1_mem]

theorem execWaitStamp_memOk (d : Dst) (g : Guard) (v : Src) (cmp : StampCmp) (k : BitVec 2) (s : State)
    (hm : s.mem.wf = true) :
    OutMemOk (execWaitStamp d g v cmp k s) := by
  refine effSlot_memOk _ _ s (fun s h => ?_) (fun s h => by simp [h]) hm
  dsimp only
  (repeat' split) <;> simp [h]

theorem execStampMonitorWake_memOk (crew : Nat) (s : State) (hm : s.mem.wf = true) :
    OutMemOk (execStampMonitorWake crew s) := by
  simp [execStampMonitorWake, hm]

theorem execStampPollTimer_memOk (crew : Nat) (s : State) (hm : s.mem.wf = true) :
    OutMemOk (execStampPollTimer crew s) := by
  simp [execStampPollTimer, hm]

/-! ### Shapes (`Machine/Shape.lean`) -/

@[simp] theorem State.askTable_memOk (s : State) (r : Rec256) (hm : s.mem.wf = true) :
    (s.askTable r).mem.wf = true := by
  refine foldl_memOk _ (fun s i h => ?_) _ s hm
  split
  · dsimp only
    split <;> simp [h]
  · exact h

theorem execShapeMake_memOk (g : Guard) (da : BitVec 4) (sn : BitVec 6) (e : Dst) (strict : Bool) (s : State)
    (hm : s.mem.wf = true) :
    OutMemOk (execShapeMake g da sn e strict s) := by
  unfold execShapeMake
  dsimp only
  (repeat' split) <;> simp [hm]

/-! ### Submission (`Machine/Submit.lean`) -/

@[simp] theorem State.writeOut_memOk (s : State) (p : Nat) (level : Bool) (dev pa : Nat) (bs : List Byte)
    (hm : s.mem.wf = true) :
    (s.writeOut p level dev pa bs).mem.wf = true := by
  simp [State.writeOut, hm, perform_memOk]

theorem State.unitWrite_memOk (s : State) (p : Nat) (level : Bool) (va : Nat) (bs : List Byte)
    (hm : s.mem.wf = true) :
    ∀ t, s.unitWrite p level va bs = .ok t → t.mem.wf = true := by
  unfold State.unitWrite
  split <;> simp [hm]

@[simp] theorem State.frontRecord_mem (s : State) (p : Nat) (cause : BitVec 8) (write : Bool) (va : Nat) :
    (s.frontRecord p cause write va).mem = s.mem := by
  simp [State.frontRecord]

@[simp] theorem State.report_memOk (s : State) (n code seq : Nat) (hm : s.mem.wf = true) :
    (s.report n code seq).mem.wf = true := by
  unfold State.report
  dsimp only
  split
  · exact hm
  · split
    · split <;> exact hm
    · split
      next t ht => exact State.unitWrite_memOk s _ _ _ _ hm t ht
      · simp [hm]

theorem State.spill_memOk (s : State) (n : Nat) (w : DWord) (hm : s.mem.wf = true) :
    ∀ t, s.spill n w = .ok t → t.mem.wf = true := by
  intro t ht
  unfold State.spill at ht
  dsimp only at ht
  split at ht
  next u hu => cases ht; exact State.unitWrite_memOk s _ _ _ _ hm u hu
  · cases ht

@[simp] theorem State.submit_memOk (s : State) (w : DWord) (part : Nat) (crew : Bool) (hm : s.mem.wf = true) :
    (s.submit w part crew).1.mem.wf = true := by
  unfold State.submit
  dsimp only
  split
  · exact hm
  · split
    · simp [hm]
    · split
      · simp [hm]
      · split
        · simp [hm]
        · split
          · split
            next t ht => exact State.report_memOk _ _ _ _ (State.spill_memOk s _ w hm t ht)
            · simp [hm]
          · simp [hm]

/-! ### Engine operations (`Machine/Engine.lean`) -/

@[simp] theorem State.homeWrite_memOk (s : State) (who : RemoteWho) (part : Nat) (level : Bool)
    (bs : List (Nat × Nat × Byte)) (hm : s.mem.wf = true) :
    (s.homeWrite who part level bs).mem.wf = true := by
  unfold State.homeWrite
  dsimp only
  rw [foldl_mem _ fun _ _ => foldl_mem _ (fun _ _ => State.sendTo_mem ..) _ _]
  split
  · exact hm
  · simp [hm, perform_memOk]

@[simp] theorem State.engWrite_memOk (s : State) (who : RemoteWho) (core part : Nat) (level : Bool)
    (bs : List (Nat × Nat × Byte)) (hm : s.mem.wf = true) :
    (s.engWrite who core part level bs).mem.wf = true := by
  unfold State.engWrite
  dsimp only
  rw [foldl_mem _ (fun _ _ => by simp)]
  simp [hm]

@[simp] theorem State.engSeen_mem (s : State) (o : EngineOp) (x : Shape) (write : Bool) (as : List Nat) :
    (s.engSeen o x write as).mem = s.mem := by
  refine foldl_mem _ (fun s n => ?_) _ s
  dsimp only
  split
  · split <;> simp
  · rfl

@[simp] theorem State.askFor_mem (s : State) (id : Nat) (who : RemoteWho) (need : List (Nat × Nat)) :
    (s.askFor id who need).mem = s.mem := by
  unfold State.askFor
  exact foldl_mem _ (fun _ _ => by simp) _ _

@[simp] theorem State.askLines_mem (s : State) (id : Nat) (need : List (Nat × Nat)) :
    (s.askLines id need).mem = s.mem := by
  simp [State.askLines]

@[simp] theorem State.enqueueOp_mem (s : State) (o : EngineOp) : (s.enqueueOp o).mem = s.mem := rfl

@[simp] theorem State.issueOp_mem (s : State) (k : Nat) (o : EngineOp) : (s.issueOp k o).mem = s.mem := by
  unfold State.issueOp
  split <;> rfl

theorem issueWith_memOk (g : Guard) (p : Option Path6) (check : State → State)
    (op : State → List DWord → State × EngineOp) (s : State)
    (hcheck : ∀ s, s.mem.wf = true → (check s).mem.wf = true) (hop : ∀ s as, (op s as).1.mem = s.mem)
    (hm : s.mem.wf = true) :
    (issueWith g p check op s).mem.wf = true := by
  have hr := State.releaseCore_memOk s s.me.core hm
  refine effSlot_memOk _ _ s (fun s h => ?_) (fun s h => ?_) hm
  · dsimp only
    split
    · simp [h]
    · split <;> simp [h, hcheck]
  · dsimp only
    split
    · simp [h]
    · split
      · simp [h]
      · simp [hop, h]

@[simp] theorem State.keepIssue_mem (s : State) (u : EngUnit) (p : Option Path6) (args : List DWord) :
    (s.keepIssue u p args).mem = s.mem := rfl

@[simp] theorem issueSlot_memOk (g : Guard) (u : EngUnit) (p : Option Path6)
    (check : State → Option (BitVec 8 × DWord)) (args : State → List DWord)
    (op : State → List DWord → EngineOp) (s : State) (hm : s.mem.wf = true) :
    (issueSlot g u p check args op s).mem.wf = true := by
  refine issueWith_memOk _ _ _ _ s (fun s h => ?_) (fun _ _ => rfl) hm
  split <;> exact h

@[simp] theorem State.collTell_mem (s : State) (o : EngineOp) (words : List DWord) :
    (s.collTell o words).mem = s.mem := by
  unfold State.collTell
  exact foldl_mem _ (fun _ _ => by simp) _ _

@[simp] theorem State.finishOp_mem (s : State) (id : Nat) : (s.finishOp id).mem = s.mem := by
  simp only [State.finishOp]
  split <;> simp

@[simp] theorem State.parkReq_mem (s : State) (die part unit core ctx : Nat) (who : FqWho) (cause : BitVec 8)
    (addr : DWord) (aux : Nat) (write atomic : Bool) :
    (s.parkReq die part unit core ctx who cause addr aux write atomic).1.mem = s.mem := by
  unfold State.parkReq
  split
  · split <;> simp
  · rfl

@[simp] theorem State.parkOp_mem (s : State) (id : Nat) (cause : BitVec 8) (addr : DWord) (kvh : Nat)
    (write : Bool) :
    (s.parkOp id cause addr kvh write).mem = s.mem := by
  simp [State.parkOp]

@[simp] theorem State.stampOp_memOk (s : State) (id : Nat) (hm : s.mem.wf = true) :
    (s.stampOp id).mem.wf = true := by
  unfold State.stampOp
  dsimp only
  (repeat' split) <;> simp [hm, perform_memOk]

@[simp] theorem State.endPayload_mem (s : State) (id status : Nat) :
    (s.endPayload id status).mem = s.mem := rfl

/-! ### Lane permutes (`Machine/Lanes.lean`) -/

theorem execPmovSet_memOk (a m : Src) (g : Guard) (s : State) (hm : s.mem.wf = true) :
    OutMemOk (execPmovSet a m g s) := by
  simp [execPmovSet, hm]

@[simp] theorem voteSlot_mem (o : Ops1) (f : List Word → Nat) (h : List (Nat × Word) → Nat) (s : State) :
    (voteSlot o f h s).mem = s.mem := by
  simp [voteSlot]

@[simp] theorem bcastSlot_mem (o : Ops1) (t : IntTy) (lane : Crew → Nat → Nat) (s : State) :
    (bcastSlot o t lane s).mem = s.mem := by
  simp [bcastSlot]

/-! ### The SFUs (`Machine/Sfu.lean`) -/

@[simp] theorem State.sfuEnter_mem (s : State) (k : Nat) (op : SfuOp) : (s.sfuEnter k op).mem = s.mem := by
  simp [State.sfuEnter]

@[simp] theorem sfuSlot_mem (fn : SfuFn) (o : Ops1) (s : State) : (sfuSlot fn o s).mem = s.mem := by
  simp [sfuSlot]

@[simp] theorem sfuDeliver_mem (s : State) (op : SfuOp) : (sfuDeliver s op).mem = s.mem := by
  unfold sfuDeliver
  dsimp only
  (repeat' split) <;> simp

@[simp] theorem State.sfuAdmit_mem (s : State) (core quarter : Nat) :
    (s.sfuAdmit core quarter).mem = s.mem := by
  unfold State.sfuAdmit
  (repeat' split) <;> simp

theorem execSfuResultReturn_memOk (core quarter : Nat) (s : State) (hm : s.mem.wf = true) :
    OutMemOk (execSfuResultReturn core quarter s) := by
  simp only [execSfuResultReturn]
  split <;> simp [hm]

/-! ### Benches (`Machine/Bench.lean`) -/

@[simp] theorem State.feed_mem (s : State) (b e : Nat) : (s.feed b e).mem = s.mem := by
  simp [State.feed]

@[simp] theorem State.pushArc_mem (s : State) (b e o : Nat) (v : Ent) : (s.pushArc b e o v).mem = s.mem := by
  unfold State.pushArc
  dsimp only
  (repeat' split) <;> simp

@[simp] theorem State.pushOuts_mem (s : State) (b e : Nat) (outs : Nat → Bool) (v : Ent) :
    (s.pushOuts b e outs v).mem = s.mem := by
  unfold State.pushOuts
  exact foldl_mem _ (fun _ _ => by simp) _ _

@[simp] theorem State.popChans_mem (s : State) (b e : Nat) (cs : List Nat) :
    (s.popChans b e cs).mem = s.mem := rfl

@[simp] theorem State.setLaneV_mem (s : State) (b e r : Nat) (v : Word) :
    (s.setLaneV b e r v).mem = s.mem := rfl

@[simp] theorem State.spallRaise_mem (s : State) (b e cause : Nat) (addr : Nat) (rule beat : Nat)
    (pops : Option (List Nat)) (it inv : Nat) :
    (s.spallRaise b e cause addr rule beat pops it inv).mem = s.mem := by
  simp [State.spallRaise]

@[simp] theorem State.endBeat_mem (s : State) (b e i beat : Nat) (outs : Nat → Bool) (result : Option Word) :
    (s.endBeat b e i beat outs result).mem = s.mem := by
  unfold State.endBeat
  split <;> simp

@[simp] theorem State.asCrew_mem (s : State) (b e : Nat) (w : DWord) (i : Instr) :
    (s.asCrew b e w i).mem = s.mem := rfl

@[simp] theorem State.actionWrites_mem (s : State) (b e : Nat) (t : Sett) (p : Byte) (result : Word) :
    (s.actionWrites b e t p result).mem = s.mem := rfl

@[simp] theorem State.beat_mem (s : State) (b e i beat : Nat) : (s.beat b e i beat).mem = s.mem := by
  simp only [State.beat]
  split <;> simp

theorem execElementRuleFire_memOk (b elem : Nat) (s : State) (hm : s.mem.wf = true) :
    OutMemOk (execElementRuleFire b elem s) := by
  unfold execElementRuleFire
  dsimp only
  (repeat' split) <;> simp [hm]

@[simp] theorem State.ruleDst_mem (s : State) (b e i : Nat) (v : Word) : (s.ruleDst b e i v).mem = s.mem := by
  unfold State.ruleDst
  (repeat' split) <;> simp

@[simp] theorem elementAction_mem (srcs : List Src) (f : List Word → Rule → (Nat → Bool) × Word) (i : Instr)
    (s : State) :
    (elementAction srcs f i s).mem = s.mem := by
  unfold elementAction
  split <;> simp

@[simp] theorem State.kindFault_mem (s : State) (b e cause addr : Nat) (pops : List Nat) :
    (s.kindFault b e cause addr pops).mem = s.mem := by
  simp [State.kindFault]

@[simp] theorem State.isect_mem (s : State) (b e : Nat) (a c u v : Ent) :
    (s.isect b e a c u v).mem = s.mem := by
  simp [State.isect]

theorem execIsectStep_memOk (b elem : Nat) (s : State) (hm : s.mem.wf = true) :
    OutMemOk (execIsectStep b elem s) := by
  unfold execIsectStep
  dsimp only
  (repeat' split) <;> simp [hm]

@[simp] theorem State.reordEmit_mem (s : State) (b e : Nat) : (s.reordEmit b e).mem = s.mem := by
  simp [State.reordEmit]

@[simp] theorem State.reordTake_mem (s : State) (b e : Nat) : (s.reordTake b e).mem = s.mem := by
  simp only [State.reordTake]
  split <;> simp

theorem execReordStep_memOk (b elem : Nat) (s : State) (hm : s.mem.wf = true) :
    OutMemOk (execReordStep b elem s) := by
  simp [execReordStep, hm]

theorem execBufStep_memOk (b elem : Nat) (s : State) (hm : s.mem.wf = true) :
    OutMemOk (execBufStep b elem s) := by
  unfold execBufStep
  dsimp only
  (repeat' split) <;> simp [hm]

theorem execRtreeStep_memOk (b elem : Nat) (s : State) (hm : s.mem.wf = true) :
    OutMemOk (execRtreeStep b elem s) := by
  unfold execRtreeStep
  dsimp only
  (repeat' split) <;> simp [hm]

/-! ### Bench memory (`Machine/BenchMem.lean`) -/

@[simp] theorem State.memPerform_memOk (s : State) (m : Rec256) (pa : Nat) (x y : Word) (hm : s.mem.wf = true) :
    (s.memPerform m pa x y).1.mem.wf = true := by
  unfold State.memPerform
  split <;> simp [hm]

@[simp] theorem State.memAsk_mem (s : State) (b e : Nat) (l : Loc) (x y : Word) :
    (s.memAsk b e l x y).mem = s.mem := rfl

@[simp] theorem State.memReady_memOk (s : State) (core : Nat) (m : Rec256) (l : Loc) (hm : s.mem.wf = true) :
    (s.memReady core m l).1.mem.wf = true := by
  unfold State.memReady
  split <;> simp [hm]

@[simp] theorem State.memSeen_mem (s : State) (core : Nat) (m : Rec256) (l : Loc) :
    (s.memSeen core m l).mem = s.mem := by
  simp [State.memSeen, dropL1_mem]

@[simp] theorem State.memAccess_memOk (s : State) (b e a : Nat) (x y : Word) (hm : s.mem.wf = true) :
    (s.memAccess b e a x y).1.mem.wf = true := by
  unfold State.memAccess
  dsimp only
  (repeat' split) <;> simp [hm]

@[simp] theorem State.streamStep_mem (s : State) (b e : Nat) : (s.streamStep b e).mem = s.mem := rfl

@[simp] theorem State.streamPush_mem (s : State) (b e : Nat) (v : Word) :
    (s.streamPush b e v).mem = s.mem := by
  simp [State.streamPush]

@[simp] theorem State.stream_memOk (s : State) (b e k : Nat) (hm : s.mem.wf = true) :
    (s.stream b e k).mem.wf = true := by
  have ha := State.memAccess_memOk s b e (streamAddr ((s.bench b).mem e) k ((s.bench b).elem e).strPos) 0 0 hm
  unfold State.stream
  dsimp only
  split
  · exact hm
  · split
    · simp [hm]
    · split
      · simp [hm]
      · split <;> rename_i hs <;> rw [hs] at ha
        · rwa [State.streamPush_mem]
        · exact ha
        · rwa [State.spallRaise_mem]

theorem execMemStreamRead_memOk (b elem : Nat) (s : State) (hm : s.mem.wf = true) :
    OutMemOk (execMemStreamRead b elem s) := by
  unfold execMemStreamRead
  dsimp only
  (repeat' split) <;> simp [hm]

@[simp] theorem State.memMark_mem (s : State) (b e : Nat) (v : Ent) : (s.memMark b e v).mem = s.mem := by
  simp [State.memMark]

@[simp] theorem State.memFinish_mem (s : State) (b e : Nat) (value : Option Word) :
    (s.memFinish b e value).mem = s.mem := by
  unfold State.memFinish
  split <;> simp

@[simp] theorem State.memDemand_memOk (s : State) (b e : Nat) (v : Ent) (hm : s.mem.wf = true) :
    (s.memDemand b e v).mem.wf = true := by
  unfold State.memDemand
  dsimp only
  split
  · exact hm
  · split
    · simp [hm]
    · split
      · exact hm
      · have ha := State.memAccess_memOk s b e ((s.bench b).memArgs e).1 ((s.bench b).memArgs e).2.1
          ((s.bench b).memArgs e).2.2 hm
        split <;> rename_i hs <;> rw [hs] at ha
        · rwa [State.memFinish_mem]
        · exact ha
        · rwa [State.spallRaise_mem]

@[simp] theorem State.memSend_mem (s : State) (b e : Nat) (v : Ent) : (s.memSend b e v).mem = s.mem := by
  unfold State.memSend
  dsimp only
  (repeat' split) <;> simp

@[simp] theorem State.memStep_memOk (s : State) (b e : Nat) (hm : s.mem.wf = true) :
    (s.memStep b e).mem.wf = true := by
  simp only [State.memStep]
  split <;> simp [hm]

theorem execMemRandomAccess_memOk (b elem : Nat) (s : State) (hm : s.mem.wf = true) :
    OutMemOk (execMemRandomAccess b elem s) := by
  simp [execMemRandomAccess, hm]

theorem execMemOrderedUpdate_memOk (b elem : Nat) (s : State) (hm : s.mem.wf = true) :
    OutMemOk (execMemOrderedUpdate b elem s) := by
  simp [execMemOrderedUpdate, hm]

@[simp] theorem State.beginAbort_mem (s : State) (b : Nat) (t : SpallTok) :
    (s.beginAbort b t).mem = s.mem := rfl

@[simp] theorem State.retireReq_memOk (s : State) (b : Nat) (q : RetReq) (hm : s.mem.wf = true) :
    (s.retireReq b q).mem.wf = true := by
  have ha := State.memAccess_memOk s b q.elem q.addr q.x q.y hm
  unfold State.retireReq
  dsimp only
  split
  · exact hm
  · split <;> rename_i hs <;> rw [hs] at ha
    · simpa using ha
    · exact ha
    · rwa [State.spallRaise_mem]

@[simp] theorem State.retireNext_memOk (s : State) (b : Nat) (hm : s.mem.wf = true) :
    (s.retireNext b).mem.wf = true := by
  simp only [State.retireNext]
  split <;> simp [hm]

theorem execOrderedRetire_memOk (b : Nat) (s : State) (hm : s.mem.wf = true) :
    OutMemOk (execOrderedRetire b s) := by
  unfold execOrderedRetire
  dsimp only
  (repeat' split) <;> simp [hm]

/-! ### The life of a bench (`Machine/BenchRun.lean`) -/

@[simp] theorem State.endBench_mem (s : State) (b : Nat) : (s.endBench b).mem = s.mem := by
  unfold State.endBench
  dsimp only
  split
  · rw [foldl_mem _ fun _ _ => State.updCrew_mem .., dropL1_mem]
  · rw [dropL1_mem]

@[simp] theorem State.writeRecord_memOk (s : State) (b : Nat) (fin : BitVec 128) (hm : s.mem.wf = true) :
    (s.writeRecord b fin).mem.wf = true := by
  unfold State.writeRecord
  dsimp only
  (repeat' split) <;> simp [hm, perform_memOk]

@[simp] theorem State.refuseBench_mem (s : State) (b status : Nat) :
    (s.refuseBench b status).mem = s.mem := rfl

@[simp] theorem State.enterBench_mem (s : State) (ops : List DWord) : (s.enterBench ops).mem = s.mem := rfl

theorem execBenchEnter_memOk (g : Guard) (sn : BitVec 6) (s : State) (hm : s.mem.wf = true) :
    OutMemOk (execBenchEnter g sn s) := by
  refine effSlot_memOk _ _ s (fun s h => ?_) (fun s h => ?_) hm
  · dsimp only
    (repeat' split) <;> simp [h]
  · dsimp only
    (repeat' split) <;> simp [h]

@[simp] theorem State.exitBench_mem (s : State) (gang c : Nat) : (s.exitBench gang c).1.mem = s.mem := by
  unfold State.exitBench
  dsimp only
  (repeat' split) <;> simp

theorem execBenchExit_memOk (o : Ops1) (s : State) (hm : s.mem.wf = true) : OutMemOk (execBenchExit o s) := by
  refine effSlot_memOk _ _ s (fun s h => by simp [h]) (fun s h => ?_) hm
  split
  · simp [h]
  · simp [h]

@[simp] theorem State.placeBench_mem (s : State) (b : Nat) : (s.placeBench b).mem = s.mem := by
  unfold State.placeBench
  split <;> rfl

@[simp] theorem State.placeRouted_mem (s : State) (b : Nat) (img : List Byte) :
    (s.placeRouted b img).mem = s.mem := by
  simp [State.placeRouted]

@[simp] theorem State.loadBench_mem (s : State) (b : Nat) : (s.loadBench b).mem = s.mem := by
  unfold State.loadBench
  dsimp only
  (repeat' split) <;> simp

@[simp] theorem State.startBench_mem (s : State) (b : Nat) (group : List Nat) :
    (s.startBench b group).mem = s.mem := by
  unfold State.startBench
  dsimp only
  split
  · exact foldl_mem _ (fun _ _ => by simp) _ _
  · simp only [State.loadBench_mem, State.updBench_mem]
    exact foldl_mem _ (fun _ _ => State.updCrew_mem ..) _ _

theorem execBenchStart_memOk (b : Nat) (s : State) (hm : s.mem.wf = true) :
    OutMemOk (execBenchStart b s) := by
  unfold execBenchStart
  split <;> simp [hm]

theorem execBenchMap_memOk (b : Nat) (s : State) (hm : s.mem.wf = true) : OutMemOk (execBenchMap b s) := by
  unfold execBenchMap
  dsimp only
  (repeat' split) <;> simp [hm]

theorem execStartTokenTake_memOk (b elem : Nat) (s : State) (hm : s.mem.wf = true) :
    OutMemOk (execStartTokenTake b elem s) := by
  simp [execStartTokenTake, hm]

theorem execSpallFaultSend_memOk (b elem : Nat) (s : State) (hm : s.mem.wf = true) :
    OutMemOk (execSpallFaultSend b elem s) := by
  simp only [execSpallFaultSend]
  split <;> simp [hm]

theorem execSpallDeliver_memOk (b : Nat) (s : State) (hm : s.mem.wf = true) :
    OutMemOk (execSpallDeliver b s) := by
  simp only [execSpallDeliver]
  split <;> simp [hm]

@[simp] theorem State.answerFault_mem (s : State) (b : Nat) (t : SpallTok) (rep : Option Word) :
    (s.answerFault b t rep).mem = s.mem := by
  unfold State.answerFault
  dsimp only
  (repeat' split) <;> simp

theorem execSpallReply_memOk (b : Nat) (s : State) (hm : s.mem.wf = true) :
    OutMemOk (execSpallReply b s) := by
  unfold execSpallReply
  dsimp only
  (repeat' split) <;> simp [hm]

theorem execBenchRetire_memOk (b : Nat) (s : State) (hm : s.mem.wf = true) :
    OutMemOk (execBenchRetire b s) := by
  unfold execBenchRetire
  dsimp only
  (repeat' split) <;> simp [hm]

theorem execBenchAbort_memOk (b : Nat) (s : State) (hm : s.mem.wf = true) :
    OutMemOk (execBenchAbort b s) := by
  simp [execBenchAbort, hm]

@[simp] theorem State.drainBench_mem (s : State) (b : Nat) : (s.drainBench b).mem = s.mem := by
  simp [State.drainBench]

theorem execBenchDrainComplete_memOk (b : Nat) (s : State) (hm : s.mem.wf = true) :
    OutMemOk (execBenchDrainComplete b s) := by
  simp [execBenchDrainComplete, hm]

theorem execBenchDrainTimeout_memOk (b : Nat) (s : State) (hm : s.mem.wf = true) :
    OutMemOk (execBenchDrainTimeout b s) := by
  simp [execBenchDrainTimeout, hm]

theorem execBenchStoppingComplete_memOk (b : Nat) (s : State) (hm : s.mem.wf = true) :
    OutMemOk (execBenchStoppingComplete b s) := by
  simp [execBenchStoppingComplete, hm]

@[simp] theorem State.restoreBench_mem (s : State) (b core off : Nat) :
    (s.restoreBench b core off).mem = s.mem := by
  simp [State.restoreBench]

theorem execBenchResume_memOk (b : Nat) (s : State) (hm : s.mem.wf = true) :
    OutMemOk (execBenchResume b s) := by
  unfold execBenchResume
  split <;> simp [hm]

/-! ### Rings (`Machine/Rings.lean`) -/

@[simp] theorem State.updRing_mem (s : State) (r : RingSel) (f : Ring → Ring) :
    (s.updRing r f).mem = s.mem := by
  unfold State.updRing
  split <;> rfl

@[simp] theorem State.arriveFill_mem (s : State) (r : RingSel) (k : Nat) :
    (s.arriveFill r k).mem = s.mem := by
  simp [State.arriveFill]

@[simp] theorem State.arriveRead_mem (s : State) (r : RingSel) (k : Nat) :
    (s.arriveRead r k).mem = s.mem := by
  simp [State.arriveRead]

@[simp] theorem State.endFill_mem (s : State) (r : RingSel) (k span owner : Nat) :
    (s.endFill r k span owner).mem = s.mem := by
  unfold State.endFill
  split <;> simp

@[simp] theorem State.endRead_mem (s : State) (r : RingSel) (k : Nat) (keep : Bool) :
    (s.endRead r k keep).mem = s.mem := by
  unfold State.endRead
  split <;> simp

@[simp] theorem State.fillLine_memOk (s : State) (r : RingSel) (hm : s.mem.wf = true) :
    (s.fillLine r).mem.wf = true := by
  unfold State.fillLine
  split
  · dsimp only
    split
    · exact Memory.wf_freshen _ _ _ _ hm
    · exact hm
  · exact hm

@[simp] theorem State.freeLine_mem (s : State) (r : RingSel) : (s.freeLine r).mem = s.mem := by
  simp [State.freeLine]

/-! ### Copies (`Machine/Copy.lean`) -/

@[simp] theorem State.acceptBoxes_mem (s : State) (id : Nat) (check : Shape → Shape → Nat) :
    (s.acceptBoxes id check).mem = s.mem := by
  simp only [State.acceptBoxes]
  split <;> simp

@[simp] theorem State.acceptCopy_mem (s : State) (id : Nat) : (s.acceptCopy id).mem = s.mem := by
  simp [State.acceptCopy]

theorem State.writeBox_memOk (s : State) (id : Nat) (y : Shape) (origin : DWord) (vals : List (Option Nat))
    (done : State → State) (hdone : ∀ s, s.mem.wf = true → (done s).mem.wf = true) (hm : s.mem.wf = true) :
    (s.writeBox id y origin vals done).mem.wf = true := by
  simp only [State.writeBox]
  split <;> simp [hm, hdone]

theorem State.parkPage_mem (s : State) (id : Nat) (x : Shape) (cause : BitVec 8) (addr : DWord) (write : Bool) :
    ∀ t, s.parkPage id x cause addr write = some t → t.mem = s.mem := by
  simp [State.parkPage]

theorem State.askOnce_mem (s : State) (id : Nat) (need : List (Nat × Nat)) :
    ∀ t, s.askOnce id need = some t → t.mem = s.mem := by
  unfold State.askOnce
  split <;> simp

theorem State.copyElem_memOk (s : State) (id q : Nat) (hm : s.mem.wf = true) :
    ∀ t, s.copyElem id q = some t → t.mem.wf = true := by
  intro t ht
  unfold State.copyElem at ht
  extract_lets o x y at ht
  split at ht
  · exact wf_of_mem_eq (State.parkPage_mem _ _ _ _ _ _ t ht) hm
  · exact wf_of_mem_eq (State.askOnce_mem _ _ _ t ht) hm
  · cases ht; exact hm
  · dsimp only at ht
    split at ht
    · exact wf_of_mem_eq (State.parkPage_mem _ _ _ _ _ _ t ht) hm
    · split at ht
      · exact wf_of_mem_eq (State.askOnce_mem _ _ _ t ht) hm
      · cases ht
        exact State.engWrite_memOk _ _ _ _ _ _
          (wf_of_mem_eq ((State.engSeen_mem ..).trans (State.engSeen_mem ..)) hm)

theorem State.copyStep_memOk (s : State) (id : Nat) (hm : s.mem.wf = true) :
    ∀ t, s.copyStep id = some t → t.mem.wf = true := by
  intro t ht
  obtain ⟨q, -, hq⟩ := List.exists_of_findSome?_eq_some ht
  split at hq
  · cases hq
  · exact State.copyElem_memOk s id q hm t hq

@[simp] theorem State.copyPayload_memOk (s : State) (id : Nat) (hm : s.mem.wf = true) :
    (s.copyPayload id).mem.wf = true := by
  unfold State.copyPayload
  dsimp only
  split
  · simp [hm]
  · exact getD_memOk hm (State.copyStep_memOk s id hm)

@[simp] theorem State.rerunPage_memOk (s : State) (id key : Nat) (hm : s.mem.wf = true) :
    (s.rerunPage id key).mem.wf = true := by
  unfold State.rerunPage
  dsimp only
  split
  · exact hm
  · split
    · exact getD_memOk hm (State.copyElem_memOk _ id _ hm)
    · exact hm

@[simp] theorem State.grantNext_mem (s : State) (pa : Nat) : (s.grantNext pa).mem = s.mem := by
  unfold State.grantNext
  split <;> simp

@[simp] theorem State.reserve_mem (s : State) (pa dev n : Nat) : (s.reserve pa dev n).mem = s.mem := by
  simp [State.reserve]

@[simp] theorem State.unreserveAt_mem (s : State) (pa dev n : Nat) :
    (s.unreserveAt pa dev n).mem = s.mem := by
  simp [State.unreserveAt]

@[simp] theorem State.condReserve_mem (s : State) (id : Nat) : (s.condReserve id).mem = s.mem := by
  unfold State.condReserve
  dsimp only
  (repeat' split) <;> simp

@[simp] theorem State.unreserve_mem (s : State) (id : Nat) : (s.unreserve id).mem = s.mem := by
  simp [State.unreserve]

@[simp] theorem State.condCompare_mem (s : State) (id : Nat) : (s.condCompare id).mem = s.mem := by
  simp only [State.condCompare]
  split <;> simp

@[simp] theorem State.condFinish_memOk (s : State) (id : Nat) (hm : s.mem.wf = true) :
    (s.condFinish id).mem.wf = true := by
  unfold State.condFinish
  dsimp only
  split
  · exact getD_memOk hm (State.copyStep_memOk s id hm)
  · (repeat' split) <;> simp [hm]

@[simp] theorem State.condStep_memOk (s : State) (id : Nat) (hm : s.mem.wf = true) :
    (s.condStep id).mem.wf = true := by
  simp only [State.condStep]
  split <;> simp [hm]

theorem execCondCopyReserve_memOk (op : Nat) (s : State) (hm : s.mem.wf = true) :
    OutMemOk (execCondCopyReserve op s) := by
  simp [execCondCopyReserve, hm]

@[simp] theorem State.arm_mem (s : State) (core slot : Nat) (t : Template) :
    (s.arm core slot t).mem = s.mem := rfl

@[simp] theorem armAt_mem (g : Guard) (ds dd : BitVec 4) (n : Nat) (e : Dst) (slot : Nat) (s : State) :
    (armAt g ds dd n e slot s).mem = s.mem := by
  simp [armAt]

theorem execCopyArm_memOk (g : Guard) (ds dd : BitVec 4) (sn : BitVec 6) (e : Dst) (slot : BitVec 4)
    (s : State) (hm : s.mem.wf = true) :
    OutMemOk (execCopyArm g ds dd sn e slot s) := by
  refine effSlot_memOk _ _ s (fun s h => ?_) (fun s h => by simp [h]) hm
  dsimp only
  (repeat' split) <;> simp [h]

theorem execCopyDisarm_memOk (g : Guard) (e : Dst) (slot : BitVec 4) (s : State) (hm : s.mem.wf = true) :
    OutMemOk (execCopyDisarm g e slot s) := by
  simp [execCopyDisarm, hm, onceSlot_memOk]

theorem execTemplateFire_memOk (core slot : Nat) (s : State) (hm : s.mem.wf = true) :
    OutMemOk (execTemplateFire core slot s) := by
  simp only [execTemplateFire]
  split <;> simp [hm]

@[simp] theorem State.leaveRings_mem (s : State) (id : Nat) : (s.leaveRings id).mem = s.mem := by
  simp [State.leaveRings]

@[simp] theorem State.stopBranches_mem (s : State) (id status : Nat) (who : Nat → Bool) :
    (s.stopBranches id status who).mem = s.mem := by
  simp [State.stopBranches]

@[simp] theorem State.failAll_mem (s : State) (id status : Nat) : (s.failAll id status).mem = s.mem := by
  simp [State.failAll]

@[simp] theorem State.readBranch_mem (s : State) (id i : Nat) : (s.readBranch id i).mem = s.mem := by
  unfold State.readBranch
  dsimp only
  (repeat' split) <;> simp

@[simp] theorem State.mcBranches_mem (s : State) (id : Nat) : (s.mcBranches id).mem = s.mem := by
  have hr : ((List.range (s.eop id).branches.length).foldl (fun s i => s.readBranch id i) s).mem = s.mem :=
    foldl_mem _ (fun _ _ => State.readBranch_mem ..) _ _
  unfold State.mcBranches
  dsimp only
  split <;> simp [hr]

@[simp] theorem State.readDesc_mem (s : State) (id : Nat) : (s.readDesc id).mem = s.mem := by
  simp only [State.readDesc]
  split <;> simp

@[simp] theorem State.readSource_mem (s : State) (id : Nat) : (s.readSource id).mem = s.mem := by
  simp only [State.readSource]
  split <;> simp

@[simp] theorem State.acceptMc_mem (s : State) (id : Nat) : (s.acceptMc id).mem = s.mem := by
  simp [State.acceptMc]

theorem execMulticastTileRead_memOk (op : Nat) (s : State) (hm : s.mem.wf = true) :
    OutMemOk (execMulticastTileRead op s) := by
  unfold execMulticastTileRead
  dsimp only
  (repeat' split) <;> simp [hm]

@[simp] theorem State.updBranch_mem (s : State) (id b : Nat) (f : Branch → Branch) :
    (s.updBranch id b f).mem = s.mem := rfl

@[simp] theorem State.parkBranch_mem (s : State) (id b : Nat) (who : FqWho) (cause : BitVec 8) (addr : DWord)
    (kvh : Nat) :
    (s.parkBranch id b who cause addr kvh).mem = s.mem := by
  simp [State.parkBranch]

theorem execMulticastTileDeliver_memOk (op branch : Nat) (s : State) (hm : s.mem.wf = true) :
    OutMemOk (execMulticastTileDeliver op branch s) := by
  unfold execMulticastTileDeliver
  dsimp only
  (repeat' split) <;> simp [hm, perform_memOk]

@[simp] theorem State.mcStamp_memOk (s : State) (id : Nat) (hm : s.mem.wf = true) :
    (s.mcStamp id).mem.wf = true := by
  unfold State.mcStamp
  dsimp only
  (repeat' split) <;> simp [hm]

/-! ### Matrix operations (`Machine/Matrix.lean`) -/

@[simp] theorem State.nameTile_mem (s : State) (g n : Nat) : (s.nameTile g n).1.mem = s.mem := by
  unfold State.nameTile
  split <;> rfl

@[simp] theorem State.newTile_mem (s : State) (g n : Nat) : (s.newTile g n).1.mem = s.mem := by
  unfold State.newTile
  split <;> simp

theorem State.takeTile_mem (s : State) (id : Nat) : ∀ t, s.takeTile id = some t → t.mem = s.mem := by
  unfold State.takeTile
  dsimp only
  (repeat' split) <;> simp

theorem execAccTileDrainFree_memOk (core tile : Nat) (s : State) (hm : s.mem.wf = true) :
    OutMemOk (execAccTileDrainFree core tile s) := by
  simp [execAccTileDrainFree, hm]

theorem execAccNew_memOk (g : Guard) (acc : BitVec 3) (s : State) (hm : s.mem.wf = true) :
    OutMemOk (execAccNew g acc s) :=
  issueWith_memOk _ _ _ _ s (fun s h => by simp [h]) (fun _ _ => State.newTile_mem ..) hm

theorem execAccZero_memOk (g : Guard) (acc : BitVec 3) (s : State) (hm : s.mem.wf = true) :
    OutMemOk (execAccZero g acc s) :=
  issueWith_memOk _ _ _ _ s (fun s h => by simp [h]) (fun _ _ => State.nameTile_mem ..) hm

theorem recordIssue_memOk (g : Guard) (da : BitVec 4) (a : Src) (more : State → Shape → Bool)
    (op : State → EngineOp → State × EngineOp) (s : State) (hop : ∀ s o, (op s o).1.mem = s.mem)
    (hm : s.mem.wf = true) :
    (recordIssue g da a more op s).mem.wf = true := by
  refine issueWith_memOk _ _ _ _ s (fun s h => ?_) (fun _ _ => hop _ _) hm
  dsimp only
  split
  · exact h
  · simp [h]
  · (repeat' split) <;> simp [h]

theorem execTld_memOk (g : Guard) (ob : BitVec 4) (da : BitVec 4) (a : Src) (s : State) (hm : s.mem.wf = true) :
    OutMemOk (execTld g ob da a s) :=
  recordIssue_memOk _ _ _ _ _ s (fun _ _ => rfl) hm

theorem execAccLd_memOk (g : Guard) (acc : BitVec 3) (da : BitVec 4) (a : Src) (s : State)
    (hm : s.mem.wf = true) :
    OutMemOk (execAccLd g acc da a s) :=
  recordIssue_memOk _ _ _ _ _ s (fun _ _ => State.nameTile_mem ..) hm

theorem execAccSt_memOk (g : Guard) (acc : BitVec 3) (da : BitVec 4) (a : Src) (rm : Rnd) (sat : Bool)
    (s : State) (hm : s.mem.wf = true) :
    OutMemOk (execAccSt g acc da a rm sat s) :=
  recordIssue_memOk _ _ _ _ _ s (fun _ _ => State.nameTile_mem ..) hm

theorem execMma_memOk (g : Guard) (ta tb : ElemTy) (ka kb : Bool) (acc : BitVec 3) (oba obb : BitVec 4)
    (c : Src) (s : State) (hm : s.mem.wf = true) :
    OutMemOk (execMma g ta tb ka kb acc oba obb c s) := by
  simp [execMma, hm, issueWith_memOk]

@[simp] theorem State.updTile_mem (s : State) (core t : Nat) (f : Tile → Tile) :
    (s.updTile core t f).mem = s.mem := rfl

@[simp] theorem State.endMatrix_memOk (s : State) (id : Nat) (hm : s.mem.wf = true) :
    (s.endMatrix id).mem.wf = true := by
  simp [State.endMatrix, hm]

@[simp] theorem State.runMma_memOk (s : State) (id : Nat) (hm : s.mem.wf = true) :
    (s.runMma id).mem.wf = true := by
  unfold State.runMma
  dsimp only
  (repeat' split) <;> simp [hm]

@[simp] theorem State.poisonAt_mem (s : State) (pas : List Nat) : (s.poisonAt pas).mem = s.mem := rfl

@[simp] theorem State.runTld_memOk (s : State) (id : Nat) (hm : s.mem.wf = true) :
    (s.runTld id).mem.wf = true := by
  unfold State.runTld
  dsimp only
  (repeat' split) <;> simp [hm, perform_memOk]

@[simp] theorem State.runAccLd_memOk (s : State) (id : Nat) (hm : s.mem.wf = true) :
    (s.runAccLd id).mem.wf = true := by
  simp only [State.runAccLd]
  split <;> simp [hm]

@[simp] theorem State.runAccSt_memOk (s : State) (id : Nat) (hm : s.mem.wf = true) :
    (s.runAccSt id).mem.wf = true := by
  unfold State.runAccSt
  extract_lets o x tile vals bad pas
  exact State.writeBox_memOk s id x _ vals _ (fun s h => by simp [h]) hm

theorem execAccRd_memOk (g : Guard) (acc : BitVec 3) (p : Src) (d : Dst) (s : State) (hm : s.mem.wf = true) :
    OutMemOk (execAccRd g acc p d s) := by
  unfold execAccRd
  dsimp only
  (repeat' split) <;> simp [hm]

@[simp] theorem State.runMatrix_memOk (s : State) (id : Nat) (hm : s.mem.wf = true) :
    (s.runMatrix id).mem.wf = true := by
  unfold State.runMatrix
  dsimp only
  split
  · exact hm
  · split
    · simp [hm]
    · split
      · exact hm
      · split
        · simp [hm]
        · split
          · exact hm
          next t ht =>
            have htm : t.mem.wf = true := by rwa [State.takeTile_mem s id t ht]
            split <;> simp [htm]

theorem execMatrixOperationExecute_memOk (core op : Nat) (s : State) (hm : s.mem.wf = true) :
    OutMemOk (execMatrixOperationExecute core op s) := by
  simp [execMatrixOperationExecute, hm]

/-! ### Collectives (`Machine/Coll.lean`) -/

@[simp] theorem State.acceptColl_mem (s : State) (id : Nat) : (s.acceptColl id).mem = s.mem := by
  simp [State.acceptColl]

@[simp] theorem State.collSend_mem (s : State) (id : Nat) : (s.collSend id).mem = s.mem := by
  simp only [State.collSend]
  split <;> simp

@[simp] theorem State.dropContribs_mem (s : State) (o : EngineOp) : (s.dropContribs o).mem = s.mem := rfl

theorem execCollectiveInstanceComplete_memOk (op : Nat) (lost : List Nat) (s : State) (hm : s.mem.wf = true) :
    OutMemOk (execCollectiveInstanceComplete op lost s) := by
  unfold execCollectiveInstanceComplete
  dsimp only
  split
  · exact hm
  · split
    · simp [hm]
    · split
      · simp [hm]
      · exact State.writeBox_memOk _ _ _ _ _ _ (fun s h => by simp [h]) hm

@[simp] theorem State.collUnreachable_mem (s : State) (dev : Nat) : (s.collUnreachable dev).mem = s.mem := by
  unfold State.collUnreachable
  exact foldl_mem _ (fun _ _ => by simp) _ _

/-! ### Tokens (`Machine/Token.lean`) -/

@[simp] theorem State.takeSlot_mem (s : State) (die slot part : Nat) (bits : BitVec 1024) (poison : List Nat) :
    (s.takeSlot die slot part bits poison).1.mem = s.mem := rfl

@[simp] theorem State.settleTok_mem (s : State) (id : Nat) : (s.settleTok id).mem = s.mem := by
  simp [State.settleTok]

@[simp] theorem State.settlePacket_mem (s : State) (p : Packet) : (s.settlePacket p).mem = s.mem := by
  unfold State.settlePacket
  split <;> simp

@[simp] theorem State.sendPlace_mem (s : State) (srcDie : Nat) (c : Word) :
    (s.sendPlace srcDie c).1.mem = s.mem := by
  unfold State.sendPlace
  split <;> rfl

@[simp] theorem State.sendPacket_mem (s : State) (k id key : Nat) (sum : DWord) (c : Word) (spill : Bool) :
    (s.sendPacket k id key sum c spill).mem = s.mem := by
  unfold State.sendPacket
  extract_lets w t tok p die op
  split
  · exact State.sendTo_mem ..
  · split <;> rfl

@[simp] theorem State.releaseRow_mem (s : State) (g : Nat) (h : Word) : (s.releaseRow g h).mem = s.mem := rfl

@[simp] theorem State.sendLane_mem (s : State) (k id : Nat) (h : Word) (sum : DWord) (c : Word) :
    (s.sendLane k id h sum c).1.mem = s.mem := by
  unfold State.sendLane
  dsimp only
  split
  · rfl
  · have hp := State.sendPlace_mem s (tokKey h / poolSlots) c
    split <;> rename_i hs <;> rw [hs] at hp
    · exact hp
    · simpa using hp

@[simp] theorem tokLanes_mem (f : State → Cap → State × DWord) (ps : List Cap) (s : State)
    (hf : ∀ s p, (f s p).1.mem = s.mem) :
    (tokLanes f ps s).1.mem = s.mem := by
  induction ps generalizing s with
  | nil => rfl
  | cons p ps ih => exact (ih _).trans (hf s p)

theorem sendAct_memOk (d : Dst) (wide : Bool) (f : Nat → State → Cap → State × DWord) (s : State)
    (hf : ∀ id s p, (f id s p).1.mem = s.mem) (hm : s.mem.wf = true) :
    (sendAct d wide f s).mem.wf = true := by
  unfold sendAct
  dsimp only
  split
  · simp [hm]
  · split <;> simp [hm, tokLanes_mem, hf]

theorem execTokLoad_memOk (d : Dst) (g : Guard) (f : TokField) (h sel : Src) (s : State)
    (hm : s.mem.wf = true) :
    OutMemOk (execTokLoad d g f h sel s) := by
  unfold execTokLoad
  dsimp only
  (repeat' split) <;> simp [hm]

theorem execTokSend_memOk (o : Ops3) (s : State) (hm : s.mem.wf = true) : OutMemOk (execTokSend o s) :=
  effSlot_memOk _ _ s (fun s h => by simp [h])
    (fun s h => sendAct_memOk _ _ _ s (fun _ _ _ => State.sendLane_mem ..) h) hm

theorem execTokRetire_memOk (o : Ops1) (s : State) (hm : s.mem.wf = true) : OutMemOk (execTokRetire o s) := by
  refine effSlot_memOk _ _ s (fun s h => by simp [h]) (fun s h => ?_) hm
  dsimp only
  rw [State.land_mem, tokLanes_mem]
  · exact h
  · intro s p
    split <;> simp

@[simp] theorem State.spawnLane_mem (s : State) (k id : Nat) (p : Cap) :
    (s.spawnLane k id p).1.mem = s.mem := by
  unfold State.spawnLane
  dsimp only
  split
  · rfl
  next i _ =>
    have hp := State.sendPlace_mem
      (s.takeSlot (dieOf (s.crew k).core) i (s.crew k).part (recPut (recClean (spawnImage p)) 576 64 (p.args.getD 0 0).toNat) []).1
      (dieOf (s.crew k).core) (capWord p 1)
    split <;> rename_i hs <;> rw [hs] at hp
    · simpa using hp
    · simpa using hp

@[simp] theorem spawnCheck_memOk (o : Ops3) (s : State) (hm : s.mem.wf = true) :
    (spawnCheck o s).mem.wf = true := by
  unfold spawnCheck
  dsimp only
  (repeat' split) <;> simp only
    [State.setMe_mem, State.keep_mem, State.allocate_mem, State.fillTlbs_mem, hm, State.stallMe_mem]
  exact foldl_memOk _ (fun s p h => State.askLoad_memOk (hm := h) ..) _ _ hm

theorem execTokSpawn_memOk (o : Ops3) (s : State) (hm : s.mem.wf = true) : OutMemOk (execTokSpawn o s) :=
  effSlot_memOk _ _ s (fun s h => spawnCheck_memOk o s h)
    (fun s h => sendAct_memOk _ _ _ s (fun _ _ _ => State.spawnLane_mem ..) h) hm

/-! ### Carders and passes (`Machine/Carder.lean`) -/

@[simp] theorem State.askUnit_mem (s : State) (tag p : Nat) (level : Bool) (need : List (Nat × Nat)) :
    (s.askUnit tag p level need).mem = s.mem := by
  unfold State.askUnit
  exact foldl_mem _ (fun _ _ => by simp) _ _

@[simp] theorem State.dropLines_mem (s : State) (tag : Nat) : (s.dropLines tag).mem = s.mem := rfl

@[simp] theorem State.finishCmd_mem (s : State) (k status detail : Nat) :
    (s.finishCmd k status detail).mem = s.mem := rfl

theorem State.landPacket_mem (s : State) (die op : Nat) (p : Packet) :
    ∀ t, s.landPacket die op p = some t → t.1.mem = s.mem := by
  unfold State.landPacket
  dsimp only
  (repeat' split) <;> simp

@[simp] theorem State.returnAcceptance_mem (s : State) (die : Nat) (h : Word) :
    (s.returnAcceptance die h).mem = s.mem := by
  refine foldl_mem _ (fun s f => ?_) _ s
  split
  · split <;> rfl
  · rfl

@[simp] theorem State.acceptToken_mem (s : State) (die op : Nat) (h : Word) (sum : DWord) :
    (s.acceptToken die op h sum).mem = s.mem := by
  simp [State.acceptToken]

@[simp] theorem State.spillPacket_memOk (s : State) (die op : Nat) (p : Packet) (hm : s.mem.wf = true) :
    (s.spillPacket die op p).mem.wf = true := by
  unfold State.spillPacket
  dsimp only
  split
  · exact hm
  next t q ht =>
    have htm : t.mem = s.mem := State.landPacket_mem s die op p _ ht
    split
    next u hu => simp [State.unitWrite_memOk t _ _ _ _ (by rw [htm, hm]) u hu]
    · split <;> simp [hm]

theorem execTokenAccept_memOk (die op : Nat) (s : State) (hm : s.mem.wf = true) :
    OutMemOk (execTokenAccept die op s) := by
  unfold execTokenAccept
  dsimp only
  split
  · exact hm
  · split
    · exact hm
    · split
      · simp [hm]
      · split
        · exact hm
        · split
          · exact hm
          next t q ht =>
            have htm : t.mem = s.mem := State.landPacket_mem s die op _ _ ht
            simp [htm, hm]

theorem execTokenAcceptReturn_memOk (slot : Nat) (s : State) (hm : s.mem.wf = true) :
    OutMemOk (execTokenAcceptReturn slot s) := by
  simp [execTokenAcceptReturn, hm]

@[simp] theorem State.dropSpill_mem (s : State) (die op : Nat) : (s.dropSpill die op).mem = s.mem := by
  simp [State.dropSpill]

theorem execCarderSpillAccept_memOk (die op : Nat) (s : State) (hm : s.mem.wf = true) :
    OutMemOk (execCarderSpillAccept die op s) := by
  unfold execCarderSpillAccept
  dsimp only
  (repeat' split) <;> simp [hm]

@[simp] theorem State.formBatt_mem (s : State) (die op : Nat) : (s.formBatt die op).mem = s.mem := rfl

@[simp] theorem State.dispatch_mem (s : State) (die op : Nat) (b : Batt) :
    (s.dispatch die op b).mem = s.mem := rfl

theorem execBattDispatch_memOk (die op : Nat) (s : State) (hm : s.mem.wf = true) :
    OutMemOk (execBattDispatch die op s) := by
  simp only [execBattDispatch]
  split <;> simp [hm]

@[simp] theorem State.moveTo_mem (s : State) (die next n : Nat) : (s.moveTo die next n).mem = s.mem := by
  simp [State.moveTo]

theorem execCarouselPassBegin_memOk (die : Nat) (s : State) (hm : s.mem.wf = true) :
    OutMemOk (execCarouselPassBegin die s) := by
  unfold execCarouselPassBegin
  dsimp only
  (repeat' split) <;> simp [hm]

@[simp] theorem State.board_mem (s : State) (die j : Nat) : (s.board die j).mem = s.mem :=
  foldl_mem
    (fun (s : State) op => if s.waitsToBoard die op j then s.updCarder die op fun c => { c with boarding := true } else s)
    (fun _ _ => by split <;> rfl) _ _

@[simp] theorem State.fillDest_memOk (s : State) (die k : Nat) (r : RingSel) (bs : List Byte) (bad : List Nat)
    (hm : s.mem.wf = true) :
    (s.fillDest die k r bs bad).1.mem.wf = true := by
  unfold State.fillDest
  dsimp only
  (repeat' split) <;> simp [hm, perform_memOk]

@[simp] theorem State.giveTile_memOk (s : State) (die : Nat) (p : Pass) (hm : s.mem.wf = true) :
    (s.giveTile die p).mem.wf = true := by
  unfold State.giveTile
  extract_lets e ds
  split
  next t given ht =>
    have htm : (t, given).1.mem.wf = true := by
      rw [← ht]
      refine List.foldlRecOn (motive := fun x : State × List Nat => x.1.mem.wf = true) ds _ hm fun x hx q _ =>
        ?_
      have hq := State.fillDest_memOk x.1 die q.1 q.2 p.bytes p.bad hx
      dsimp only
      split
      · exact hx
      · split
        · exact hq
        · exact hx
    dsimp only at htm ⊢
    (repeat' split) <;> simp [htm]

@[simp] theorem State.loadTile_mem (s : State) (die : Nat) (p : Pass) (g : Gather) :
    (s.loadTile die p g).1.mem = s.mem := rfl

@[simp] theorem State.parkTile_mem (s : State) (die : Nat) (p : Pass) (cause : BitVec 8) (a : DWord) :
    (s.parkTile die p cause a).1.mem = s.mem := by
  simp [State.parkTile]

@[simp] theorem State.tileFill_memOk (s : State) (die : Nat) (hm : s.mem.wf = true) :
    (s.tileFill die).mem.wf = true := by
  unfold State.tileFill
  dsimp only
  (repeat' split) <;> simp [hm]

@[simp] theorem State.rereadTile_mem (s : State) (die entry : Nat) (lost : Option Nat) :
    (s.rereadTile die entry lost).mem = s.mem := by
  unfold State.rereadTile
  dsimp only
  (repeat' split) <;> simp

theorem State.grantYard_mem (s : State) (who : Bool × Nat) (y : Nat) (ms : List DWord) :
    ∀ t, s.grantYard who y ms = some t → t.mem = s.mem := by
  simp only [State.grantYard]
  split <;> simp

theorem State.grantAll_mem (s : State) (who : Bool × Nat) (lrec : BitVec 4096) :
    ∀ t, s.grantAll who lrec = some t → t.mem = s.mem := by
  refine List.foldlRecOn (motive := fun acc : Option State => ∀ t, acc = some t → t.mem = s.mem) _ _
    (by rintro _ ⟨⟩; rfl) fun acc h j _ => ?_
  split
  next u d y _ =>
    intro t ht
    rw [State.grantYard_mem _ _ _ _ t ht, h u rfl]
  · exact h
  · nofun

@[simp] theorem State.saveCarders_mem (s : State) (p : Nat) : (s.saveCarders p).mem = s.mem := rfl

@[simp] theorem State.restoreCarders_mem (s : State) (p die : Nat) :
    (s.restoreCarders p die).mem = s.mem := by
  unfold State.restoreCarders
  exact foldl_mem _ (fun _ _ => by simp) _ _

@[simp] theorem State.markHeld_mem (s : State) (die : Nat) : (s.markHeld die).mem = s.mem := by
  unfold State.markHeld
  exact foldl_mem _ (fun _ _ => foldl_mem _ (fun _ _ => State.updTok_mem ..) _ _) _ _

/-! ### Acceptance and completion (`Machine/EngineRun.lean`) -/

@[simp] theorem State.accept_mem (s : State) (id : Nat) : (s.accept id).mem = s.mem := by
  simp only [State.accept]
  split <;> simp

theorem execEngineAccept_memOk (op : Nat) (s : State) (hm : s.mem.wf = true) :
    OutMemOk (execEngineAccept op s) := by
  simp [execEngineAccept, hm]

theorem after_memOk {f : State → Out} {s : State} (hm : s.mem.wf = true) (hf : OutMemOk (f s)) :
    (after f s).mem.wf = true := by
  unfold after
  split
  next t ht => rw [ht] at hf; exact hf
  · exact hm

@[simp] theorem State.payload_memOk (s : State) (id : Nat) (hm : s.mem.wf = true) :
    (s.payload id).mem.wf = true := by
  have hc := after_memOk hm (execCollectiveInstanceComplete_memOk id [] s hm)
  unfold State.payload
  dsimp only
  (repeat' split) <;> simp [hm, hc]

@[simp] theorem State.advanceOp_memOk (s : State) (id : Nat) (hm : s.mem.wf = true) :
    (s.advanceOp id).mem.wf = true := by
  simp [State.advanceOp, hm]

theorem execHomeAccessPerform_memOk (sel : HomeSel) (s : State) (hm : s.mem.wf = true) :
    OutMemOk (execHomeAccessPerform sel s) := by
  cases sel with
  | engine op => exact State.payload_memOk s op hm
  | inflight k =>
    unfold execHomeAccessPerform
    dsimp only
    split
    · exact hm
    · split
      · exact hm
      · split
        · trivial
        · exact State.performReq_memOk _ _ hm

theorem execCombiningBufferTimeout_memOk (core line : Nat) (s : State) (hm : s.mem.wf = true) :
    OutMemOk (execCombiningBufferTimeout core line s) := by
  simp [execCombiningBufferTimeout, hm]

@[simp] theorem State.runWaiter_memOk (s : State) (k : Nat) (hm : s.mem.wf = true) :
    (s.runWaiter k).mem.wf = true := by
  have hd := execMulticastTileDeliver_memOk (k / 16) (k % 16 - 1) s hm
  unfold State.runWaiter
  split
  · simp [hm]
  · split
    · simp [hm]
    · split
      next t ht => rw [ht] at hd; exact hd
      · exact hm

theorem execYardRegionFill_memOk (r : RingSel) (s : State) (hm : s.mem.wf = true) :
    OutMemOk (execYardRegionFill r s) := by
  simp only [execYardRegionFill]
  split <;> simp [hm]

theorem execYardRegionConsume_memOk (r : RingSel) (s : State) (hm : s.mem.wf = true) :
    OutMemOk (execYardRegionConsume r s) := by
  simp only [execYardRegionConsume]
  split <;> simp [hm]

/-! ### The fault queue (`Machine/FaultQ.lean`) -/

@[simp] theorem State.prefetchLine_mem (s : State) (w : Walk) (va : Nat) :
    (s.prefetchLine w va).mem = s.mem := by
  unfold State.prefetchLine
  (repeat' split) <;> simp

@[simp] theorem State.endPref_mem (s : State) (k core op : Nat) : (s.endPref k core op).mem = s.mem := by
  simp [State.endPref]

theorem execWalkComplete_memOk (k : Nat) (s : State) (hm : s.mem.wf = true) :
    OutMemOk (execWalkComplete k s) := by
  unfold execWalkComplete
  split
  · exact hm
  · simpa [foldl_mem _ fun (s : State) va => State.prefetchLine_mem s ..] using hm

@[simp] theorem State.recFails_mem (s : State) (die : Nat) (r : PendRec) :
    (s.recFails die r).mem = s.mem := rfl

theorem State.writeRec_memOk (s : State) (r : PendRec) (hm : s.mem.wf = true) :
    ∀ t, s.writeRec r = .ok t → t.mem.wf = true := by
  intro t
  unfold State.writeRec
  dsimp only
  split
  · nofun
  next u hu =>
    have hum := State.unitWrite_memOk s _ _ _ _ hm u hu
    split
    · rintro ⟨⟩; exact hum
    · exact State.unitWrite_memOk u _ _ _ _ hum t

theorem execFaultRecordDeliver_memOk (die : Nat) (s : State) (hm : s.mem.wf = true) :
    OutMemOk (execFaultRecordDeliver die s) := by
  unfold execFaultRecordDeliver
  split
  · exact hm
  next r _ =>
    split
    · simp [hm]
    next t ht => simpa using State.writeRec_memOk s r hm t ht

@[simp] theorem State.performRemote_memOk (s : State) (x : TolsalMsg) (hm : s.mem.wf = true) :
    (s.performRemote x).mem.wf = true := by
  unfold State.performRemote
  split <;> simp [hm, perform_memOk]

@[simp] theorem State.parkRemote_mem (s : State) (src seq : Nat) (m : TolsalMsg) :
    (s.parkRemote src seq m).mem = s.mem := by
  unfold State.parkRemote
  dsimp only
  split
  · split <;> simp
  · rfl

@[simp] theorem State.serveRemote_memOk (s : State) (m : TolsalMsg) (hm : s.mem.wf = true) :
    (s.serveRemote m).mem.wf = true := by
  simp only [State.serveRemote]
  split <;> simp [hm]

@[simp] theorem State.failTo_mem (s : State) (src seq : Nat) (cause : BitVec 8) :
    (s.failTo src seq cause).mem = s.mem := rfl

@[simp] theorem State.freeFqEntry_mem (s : State) (die entry : Nat) :
    (s.freeFqEntry die entry).mem = s.mem := rfl

@[simp] theorem State.rerunOp_memOk (s : State) (id : Nat) (hm : s.mem.wf = true) :
    (s.rerunOp id).mem.wf = true := by
  simp [State.rerunOp, hm]

@[simp] theorem State.rerunElem_memOk (s : State) (b e : Nat) (hm : s.mem.wf = true) :
    (s.rerunElem b e).mem.wf = true := by
  unfold State.rerunElem
  dsimp only
  (repeat' split) <;> simp [hm]

@[simp] theorem State.rerunLoad_mem (s : State) (k epoch die : Nat) (e : FqEntry) :
    (s.rerunLoad k epoch die e).mem = s.mem := by
  unfold State.rerunLoad
  split <;> simp

@[simp] theorem State.replay_memOk (s : State) (die : Nat) (e : FqEntry) (hm : s.mem.wf = true) :
    (s.replay die e).mem.wf = true := by
  have deliver (id b : Nat) (t : State) (h : t.mem.wf = true) :
    (after (execMulticastTileDeliver id b) t).mem.wf = true :=
    after_memOk h (execMulticastTileDeliver_memOk id b t h)
  have spill (die op : Nat) (t : State) (h : t.mem.wf = true) :
    (after (execCarderSpillAccept die op) t).mem.wf = true :=
    after_memOk h (execCarderSpillAccept_memOk die op t h)
  unfold State.replay
  dsimp only
  (repeat' split) <;> simp [hm, deliver, spill]

theorem execFqResumeReplay_memOk (die entry : Nat) (s : State) (hm : s.mem.wf = true) :
    OutMemOk (execFqResumeReplay die entry s) := by
  simp [execFqResumeReplay, hm]

@[simp] theorem State.cancelMc_memOk (s : State) (id : Nat) (hm : s.mem.wf = true) :
    (s.cancelMc id).mem.wf = true := by
  simp [State.cancelMc, hm]

@[simp] theorem State.cancelBranch_memOk (s : State) (id b : Nat) (hm : s.mem.wf = true) :
    (s.cancelBranch id b).mem.wf = true := by
  simp [State.cancelBranch, hm]

@[simp] theorem State.cancelOp_memOk (s : State) (id : Nat) (addr : DWord) (hm : s.mem.wf = true) :
    (s.cancelOp id addr).mem.wf = true := by
  unfold State.cancelOp
  dsimp only
  (repeat' split) <;> simp [hm]

@[simp] theorem State.loseSpilled_mem (s : State) (die op : Nat) : (s.loseSpilled die op).mem = s.mem := by
  unfold State.loseSpilled
  split
  · rfl
  · split
    · rfl
    next t q ht => simpa using State.landPacket_mem s die op _ _ ht

@[simp] theorem State.cancel_memOk (s : State) (e : FqEntry) (hm : s.mem.wf = true) :
    (s.cancel e).mem.wf = true := by
  unfold State.cancel
  split <;> simp [hm]

theorem execFqResumeCancel_memOk (die entry : Nat) (s : State) (hm : s.mem.wf = true) :
    OutMemOk (execFqResumeCancel die entry s) := by
  simp [execFqResumeCancel, hm]

/-! ### Memory errors and regions (`Machine/MemSys.lean`) -/

@[simp] theorem State.countUncorr_mem (s : State) (die : Nat) : (s.countUncorr die).mem = s.mem := rfl

@[simp] theorem State.countHub_mem (s : State) : s.countHub.mem = s.mem := rfl

theorem execPatrolScrub_memOk (die : Nat) (s : State) (hm : s.mem.wf = true) :
    OutMemOk (execPatrolScrub die s) := by
  simp [execPatrolScrub, hm]

@[simp] theorem State.updRegion_mem (s : State) (r : RegionSel) (f : Region → Region) :
    (s.updRegion r f).mem = s.mem := by
  unfold State.updRegion
  split <;> rfl

@[simp] theorem State.poisonWord_mem (s : State) (w : Nat) : (s.poisonWord w).mem = s.mem := rfl

theorem State.strike_mem (s : State) (x : ErrSite) : ∀ t, s.strike x = some t → t.2.mem = s.mem := by
  intro t ht
  cases x <;> dsimp only [State.strike] at ht
  all_goals
    split at ht
    · cases ht
      simp
    · cases ht

theorem execUncorrectableError_memOk (site : ErrSite) (s : State) (hm : s.mem.wf = true) :
    OutMemOk (execUncorrectableError site s) := by
  unfold execUncorrectableError
  split
  next d t ht =>
    have htm : t.mem = s.mem := State.strike_mem s site _ ht
    simp [htm, hm]
  · exact hm

@[simp] theorem State.restartReload_mem (s : State) (r : RegionSel) : (s.restartReload r).mem = s.mem := rfl

theorem execConfigFreeze_memOk (r : RegionSel) (s : State) (hm : s.mem.wf = true) :
    OutMemOk (execConfigFreeze r s) := by
  unfold execConfigFreeze
  (repeat' split) <;> simp [hm]

@[simp] theorem State.unfreeze_mem (s : State) (r : RegionSel) : (s.unfreeze r).mem = s.mem := by
  unfold State.unfreeze
  split <;> simp

@[simp] theorem State.eccRecord_mem (s : State) (r : RegionSel) (flags : Nat) :
    (s.eccRecord r flags).mem = s.mem := by
  simp [State.eccRecord]

@[simp] theorem State.reloadFails_mem (s : State) (r : RegionSel) : (s.reloadFails r).mem = s.mem :=
  (State.eccRecord_mem ..).trans (State.updRegion_mem ..)

theorem execConfigReloadDone_memOk (r : RegionSel) (s : State) (hm : s.mem.wf = true) :
    OutMemOk (execConfigReloadDone r s) := by
  simp [execConfigReloadDone, hm]

/-! ### Placement, stealing and resets (`Machine/Place.lean`) -/

@[simp] theorem State.wakeCluster_mem (s : State) (core : Nat) : (s.wakeCluster core).mem = s.mem := rfl

@[simp] theorem State.seatCrew_mem (s : State) (k core q row : Nat) :
    (s.seatCrew k core q row).mem = s.mem := by
  simp [State.seatCrew, dropL1_mem]

@[simp] theorem State.place_memOk (s : State) (die : Nat) (r : PlaceReq) (f : Fit) (hm : s.mem.wf = true) :
    (s.place die r f).mem.wf = true := by
  cases r with
  | launchGang l idx =>
    unfold State.place
    dsimp only
    split <;> exact newGang_memOk _ _ _ hm
  | batt job => exact newGang_memOk _ _ _ hm
  | resumeCrew k cmd =>
    unfold State.place
    dsimp only
    generalize hs : s.updDie die (fun d => { d with placeq := d.placeq.erase (.resumeCrew k cmd) }) = t
    have ht : t.mem.wf = true := by rw [← hs]; exact hm
    (repeat' split) <;> simp [ht, restoreGang_memOk]

@[simp] theorem State.markPress_mem (s : State) (die : Nat) : (s.markPress die).mem = s.mem := by
  unfold State.markPress
  dsimp only
  (repeat' split) <;> simp

theorem execGangPlace_memOk (die : Nat) (s : State) (hm : s.mem.wf = true) :
    OutMemOk (execGangPlace die s) := by
  unfold execGangPlace
  split <;> simp [hm]

theorem execReserveCrewAttach_memOk (core : Nat) (s : State) (hm : s.mem.wf = true) :
    OutMemOk (execReserveCrewAttach core s) := by
  unfold execReserveCrewAttach
  (repeat' split) <;> simp [hm, startCrew_mem]

@[simp] theorem State.setLent_mem (s : State) (h : Word) (lent : Bool) (epoch : Word) :
    (s.setLent h lent epoch).mem = s.mem := rfl

theorem execBattStealGrant_memOk (victim op thiefCore : Nat) (s : State) (hm : s.mem.wf = true) :
    OutMemOk (execBattStealGrant victim op thiefCore s) := by
  unfold execBattStealGrant
  dsimp only
  split
  · exact hm
  · split
    · exact hm
    · split
      · exact hm
      · simpa [foldl_mem _ fun (s : State) (p : Row × Word) => State.setLent_mem s ..] using hm

theorem State.takeLent_mem (s : State) (die part : Nat) (rs : List (Row × Word)) :
    ∀ t, s.takeLent die part rs = some t → t.1.mem = s.mem := by
  induction rs generalizing s with
  | nil => rintro _ ⟨⟩; rfl
  | cons r rs ih =>
    intro t ht
    unfold State.takeLent at ht
    split at ht
    · cases ht
    · obtain ⟨x, hx, rfl⟩ := Option.map_eq_some_iff.1 ht
      simpa using ih _ _ hx

@[simp] theorem State.receiveLend_mem (s : State) (k : Nat) : (s.receiveLend k).mem = s.mem := by
  unfold State.receiveLend
  dsimp only
  split
  · rfl
  · split
    · rfl
    next t rows ht => exact State.takeLent_mem s _ _ _ _ ht

@[simp] theorem State.placeLent_mem (s : State) (k : Nat) : (s.placeLent k).mem = s.mem := rfl

theorem execStealAckDelivered_memOk (lend : Nat) (s : State) (hm : s.mem.wf = true) :
    OutMemOk (execStealAckDelivered lend s) := by
  unfold execStealAckDelivered
  dsimp only
  split
  · exact hm
  · rw [outMemOk_next, State.placeLent_mem, foldl_mem _ fun _ _ => by split <;> simp]
    exact hm

@[simp] theorem State.undoLend_mem (s : State) (k : Nat) : (s.undoLend k).mem = s.mem := by
  unfold State.undoLend
  exact (foldl_mem _ (fun _ _ => State.setLent_mem ..) _ _).trans
    (foldl_mem _ (fun _ _ => State.freeToken_mem ..) _ _)

@[simp] theorem State.victimLost_mem (s : State) (k : Nat) : (s.victimLost k).mem = s.mem := by
  unfold State.victimLost
  dsimp only
  split
  · simp
  · rw [State.placeLent_mem, foldl_mem _ fun _ _ => by split <;> simp, State.receiveLend_mem]

theorem execLendDisturbance_memOk (lend : Nat) (victimReset : Bool) (s : State) (hm : s.mem.wf = true) :
    OutMemOk (execLendDisturbance lend victimReset s) := by
  simp [execLendDisturbance, hm]

@[simp] theorem State.resendMoves_mem (s : State) (die : Nat) : (s.resendMoves die).mem = s.mem := by
  unfold State.resendMoves
  exact foldl_mem _ (fun _ _ => by simp) _ _

@[simp] theorem State.clearDie_mem (s : State) (die : Nat) : (s.clearDie die).mem = s.mem := by
  unfold State.clearDie
  exact foldl_mem _ (fun _ _ => by simp) _ _

theorem execDieReset_memOk (die : Nat) (s : State) (hm : s.mem.wf = true) :
    OutMemOk (execDieReset die s) := by
  unfold execDieReset
  dsimp only
  split
  · exact hm
  · rw
      [outMemOk_next, State.resendMoves_mem, State.clearDie_mem, foldl_mem _ fun _ _ => by (repeat' split) <;> simp]
    exact hm

/-! ### The front end (`Machine/Front.lean`) -/

theorem readFor_wait (s : State) (tag part : Nat) (level : Bool) (va n : Nat) (t : State) :
    s.readFor tag part level va n = .wait t → t.mem = s.mem := by
  unfold State.readFor
  dsimp only
  split
  · nofun
  · split
    · rintro ⟨⟩
      simp
    · split <;> nofun

theorem readCmd_wait (s : State) (k va n : Nat) (t : State) (h : s.readCmd k va n = .wait t) :
    t.mem = s.mem := readFor_wait _ _ _ _ _ _ _ h

@[simp] theorem State.faultCmd_mem (s : State) (k : Nat) (cause : BitVec 8) :
    (s.faultCmd k cause).mem = s.mem := rfl

@[simp] theorem State.dropFrame_mem (s : State) : s.dropFrame.mem = s.mem := by
  simp [State.dropFrame]

theorem execDoorbell_memOk (part : Nat) (words : List DWord) (s : State) (hm : s.mem.wf = true) :
    OutMemOk (execDoorbell part words s) := by
  unfold execDoorbell
  split
  · simp [hm]
  · split
    · exact hm
    · exact foldl_memOk _ (fun s w h => State.submit_memOk s w part false h) words s hm

@[simp] theorem State.unspill_mem (s : State) (n : Nat) (seq : Word) : (s.unspill n seq).mem = s.mem := rfl

theorem execIntakeSpillMove_memOk (prod : Nat) (s : State) (hm : s.mem.wf = true) :
    OutMemOk (execIntakeSpillMove prod s) := by
  unfold execIntakeSpillMove
  dsimp only
  split
  · exact hm
  · split
    next t ht => simp [readFor_wait _ _ _ _ _ _ _ ht, hm]
    · simp [hm]
    · split <;> simp [hm]

@[simp] theorem State.popIntake_mem (s : State) (n : Nat) : (s.popIntake n).mem = s.mem := rfl

@[simp] theorem State.takeSlotOf_memOk (s : State) (n v : Nat) (hm : s.mem.wf = true) :
    (s.takeSlotOf n v).mem.wf = true := by
  unfold State.takeSlotOf
  dsimp only
  (repeat' split) <;> simp [hm]

theorem execCommandTake_memOk (s : State) (hm : s.mem.wf = true) : OutMemOk (execCommandTake s) := by
  unfold execCommandTake
  split
  · exact hm
  · dsimp only
    split
    · exact hm
    · split
      next t ht => simp [readFor_wait _ _ _ _ _ _ _ ht, hm]
      · simp [hm]
      · simp [hm]

@[simp] theorem State.ringCopy_mem (s : State) (p : Nat) (bs : List Byte) :
    (s.ringCopy p bs).mem = s.mem := by
  simp [State.ringCopy]

theorem execCommandComplete_memOk (cmd : Nat) (s : State) (hm : s.mem.wf = true) :
    OutMemOk (execCommandComplete cmd s) := by
  unfold execCommandComplete
  dsimp only
  split
  · exact hm
  · simp only [outMemOk_next, State.mem_ite, State.ringCopy_mem, State.dropLines_mem, ite_self]
    split
    · exact hm
    · split
      next t ht => exact State.unitWrite_memOk s _ _ _ _ hm t ht
      · simp [hm]

theorem execCommandNop_memOk (cmd : Nat) (s : State) (hm : s.mem.wf = true) :
    OutMemOk (execCommandNop cmd s) := by
  simp [execCommandNop, hm]

theorem execProducer_memOk (cmd : Nat) (s : State) (hm : s.mem.wf = true) :
    OutMemOk (execProducer cmd s) := by
  unfold execProducer
  dsimp only
  split
  · exact hm
  · split
    · simp [hm]
    · split
      next t ht => exact wf_of_mem_eq (readCmd_wait _ _ _ _ _ ht) hm
      · simp [hm]
      · (repeat' split) <;> simp [hm]

@[simp] theorem State.endWait_mem (s : State) (cmd status detail : Nat) :
    (s.endWait cmd status detail).mem = s.mem := rfl

@[simp] theorem State.readWait_mem (s : State) (cmd : Nat) : (s.readWait cmd).mem = s.mem := by
  unfold State.readWait
  dsimp only
  split
  next t ht => exact readCmd_wait _ _ _ _ _ ht
  · simp
  · split <;> simp

theorem execStampwait_memOk (cmd : Nat) (s : State) (hm : s.mem.wf = true) :
    OutMemOk (execStampwait cmd s) := by
  simp [execStampwait, hm]

theorem execStampwaitEnd_memOk (cmd : Nat) (s : State) (hm : s.mem.wf = true) :
    OutMemOk (execStampwaitEnd cmd s) := by
  simp [execStampwaitEnd, hm]

@[simp] theorem State.enterLaunch_mem (s : State) (cmd die : Nat) (r : BitVec 4096) :
    (s.enterLaunch cmd die r).mem = s.mem := rfl

theorem execLaunch_memOk (cmd : Nat) (s : State) (hm : s.mem.wf = true) : OutMemOk (execLaunch cmd s) := by
  unfold execLaunch
  dsimp only
  split
  · exact hm
  · split
    · simp [hm]
    · split
      next t ht => exact wf_of_mem_eq (readCmd_wait _ _ _ _ _ ht) hm
      · simp [hm]
      · split
        · simp [hm]
        · split
          · simp [hm]
          next t ht => simp [State.grantAll_mem _ _ _ t ht, hm]

theorem execLaunchComplete_memOk (launch : Nat) (s : State) (hm : s.mem.wf = true) :
    OutMemOk (execLaunchComplete launch s) := by
  simp [execLaunchComplete, hm]

/-! ### Survey (`Machine/Survey.lean`) -/

theorem State.surveyVal_mem (s : State) (r : SurveyR) : (s.surveyVal r).1.mem = s.mem := by
  cases r <;> rfl

/-! ### System registers (`Machine/SysRegs.lean`) -/

@[simp] theorem State.ack_mem (s : State) (p : Nat) (reqCtr : DWord) (status : Nat) :
    (s.ack p reqCtr status).mem = s.mem := rfl

@[simp] theorem State.startInval_mem (s : State) (i : Inval) : (s.startInval i).mem = s.mem := rfl

@[simp] theorem State.retranslate_mem (s : State) (k : Nat) : (s.retranslate k).mem = s.mem := by
  unfold State.retranslate
  dsimp only
  (repeat' split) <;> simp

@[simp] theorem State.rekey_memOk (s : State) (gs : List Nat) (hm : s.mem.wf = true) :
    (s.rekey gs).mem.wf = true :=
  foldl_memOk _ (fun _ _ h => Memory.wf_freshen _ _ _ _ h) gs s hm

@[simp] theorem State.completeInval_memOk (s : State) (hm : s.mem.wf = true) :
    s.completeInval.mem.wf = true := by
  have release (s : State) (ks : List Nat) (h : s.mem.wf = true) :
    (ks.foldl (fun s k => s.releaseCore k) s).mem.wf = true :=
    foldl_memOk _ (fun _ _ h => State.releaseCore_memOk _ _ h) ks s h
  have again (s : State) (ks : List Nat) : (ks.foldl (fun s k => s.retranslate k) s).mem = s.mem :=
    foldl_mem _ (fun _ _ => State.retranslate_mem ..) ks s
  unfold State.completeInval
  dsimp only
  (repeat' split) <;> simp [hm, release, again]

@[simp] theorem State.writePtRoot_mem (s : State) (part : Nat) (v : DWord) :
    (s.writePtRoot part v).mem = s.mem := by
  simp [State.writePtRoot]

@[simp] theorem State.writeHwm_mem (s : State) (k : Nat) (v : DWord) : (s.writeHwm k v).mem = s.mem := rfl

@[simp] theorem State.clearMemerr_mem (s : State) (k : Nat) : (s.clearMemerr k).mem = s.mem := rfl

@[simp] theorem State.resumeFq_mem (s : State) (k : Nat) (v : DWord) : (s.resumeFq k v).mem = s.mem := rfl

@[simp] theorem State.writeFrRing_mem (s : State) (part : Nat) (v : DWord) :
    (s.writeFrRing part v).mem = s.mem := rfl

@[simp] theorem State.writeFrStamp_mem (s : State) (part : Nat) (v : DWord) :
    (s.writeFrStamp part v).mem = s.mem := rfl

@[simp] theorem State.writeFrRead_mem (s : State) (part : Nat) (v : DWord) :
    (s.writeFrRead part v).mem = s.mem := rfl

@[simp] theorem State.writeSubmit_memOk (s : State) (k : Nat) (v : DWord) (hm : s.mem.wf = true) :
    (s.writeSubmit k v).mem.wf = true := by
  simp [State.writeSubmit, hm]

@[simp] theorem State.sysWrite_memOk (s : State) (k : Nat) (r : SysReg) (v : DWord) (hm : s.mem.wf = true) :
    (s.sysWrite k r v).mem.wf = true := by
  unfold State.sysWrite
  split <;> simp [hm]

@[simp] theorem State.writeStep_memOk (s : State) (k : Nat) (r : SysReg) (v : DWord) (hm : s.mem.wf = true) :
    (s.writeStep k r v).mem.wf = true := by
  simp [State.writeStep, hm]

/-! ### The host port (`Machine/Frames.lean`) -/

@[simp] theorem State.accepted_mem (s : State) (a : Auth) : (s.accepted a).mem = s.mem := rfl

theorem State.request_memOk (s : State) (a : Auth) (f : State → State)
    (hf : ∀ s, s.mem.wf = true → (f s).mem.wf = true) (hm : s.mem.wf = true) :
    (s.request a f).mem.wf = true := by
  simp [State.request, hm, hf]

theorem State.ownerRequest_memOk (s : State) (a : Auth) (f : State → State)
    (hf : ∀ s, s.mem.wf = true → (f s).mem.wf = true) (hm : s.mem.wf = true) :
    (s.ownerRequest a f).mem.wf = true := by
  refine State.request_memOk s a _ (fun s h => ?_) hm
  split
  · exact hf s h
  · exact h

@[simp] theorem State.surveyOne_mem (s : State) (p : Nat) (x : DWord) : (s.surveyOne p x).1.mem = s.mem := by
  unfold State.surveyOne
  split
  · rfl
  · rfl
  · rfl
  · exact State.surveyVal_mem ..

@[simp] theorem State.surveyMany_mem (s : State) (p : Nat) (xs : List DWord) :
    (s.surveyMany p xs).1.mem = s.mem := by
  induction xs generalizing s with
  | nil => rfl
  | cons x xs ih => exact (ih _).trans (State.surveyOne_mem s p x)

@[simp] theorem State.surveyReply_mem (s : State) (p : Nat) (xs : List DWord) :
    (s.surveyReply p xs).mem = s.mem := by
  simp [State.surveyReply]

theorem execSurveyreq_memOk (a : Auth) (addrs : List DWord) (s : State) (hm : s.mem.wf = true) :
    OutMemOk (execSurveyreq a addrs s) := by
  simp [execSurveyreq, hm]

theorem execAttestreq_memOk (nonce : BitVec 256) (s : State) (hm : s.mem.wf = true) :
    OutMemOk (execAttestreq nonce s) := by
  simp [execAttestreq, hm]

theorem execIdreq_memOk (s : State) (hm : s.mem.wf = true) : OutMemOk (execIdreq s) := by
  simp [execIdreq, hm]

theorem execKey_memOk (part : Nat) (ciphertext : List Byte) (s : State) (hm : s.mem.wf = true) :
    OutMemOk (execKey part ciphertext s) := by
  simp [execKey, hm]

theorem execWindow_memOk (a : Auth) (n : Nat) (entry : BitVec 128) (s : State) (hm : s.mem.wf = true) :
    OutMemOk (execWindow a n entry s) := by
  simp [execWindow, hm, State.request_memOk]

theorem execQpset_memOk (a : Auth) (localQp remoteQp : BitVec 24) (mac : BitVec 48) (ip : BitVec 128)
    (ring : Option (BitVec 64 × BitVec 32 × Nat)) (s : State) (hm : s.mem.wf = true) :
    OutMemOk (execQpset a localQp remoteQp mac ip ring s) := by
  refine State.request_memOk s a _ (fun s h => ?_) hm
  (repeat' split) <;> simp [h]

theorem execGroup_memOk (a : Auth) (h : Nat) (devs : List Nat) (s : State) (hm : s.mem.wf = true) :
    OutMemOk (execGroup a h devs s) := by
  simp [execGroup, hm, State.request_memOk]

@[simp] theorem State.giveGranules_memOk (s : State) (p dev first count : Nat) (hm : s.mem.wf = true) :
    (s.giveGranules p dev first count).mem.wf = true := by
  simp only [State.giveGranules]
  split <;> simp [hm, zeroRange_memOk]

@[simp] theorem State.takeGranules_memOk (s : State) (ctr : DWord) (dev first count : Nat)
    (hm : s.mem.wf = true) :
    (s.takeGranules ctr dev first count).mem.wf = true := by
  simp only [State.takeGranules]
  split <;> simp [hm]

theorem execGrant_memOk (a : Auth) (dev first count : Nat) (dest : Option Nat) (s : State)
    (hm : s.mem.wf = true) :
    OutMemOk (execGrant a dev first count dest s) := by
  refine State.ownerRequest_memOk s a _ (fun s h => ?_) hm
  (repeat' split) <;> simp [h]

@[simp] theorem State.joinDomain_mem (s : State) (dev : Nat) (peers : List (Option (BitVec 4 × BitVec 256))) :
    (s.joinDomain dev peers).mem = s.mem := rfl

theorem execDomain_memOk (a : Auth) (dev : BitVec 4) (peers : List (Option (BitVec 4 × BitVec 256)))
    (s : State) (hm : s.mem.wf = true) :
    OutMemOk (execDomain a dev peers s) := by
  simp [execDomain, hm, State.ownerRequest_memOk]

@[simp] theorem State.endRdma_mem (s : State) (r : Rdma) (answer : Sent) :
    (s.endRdma r answer).mem = s.mem := by
  unfold State.endRdma
  exact foldl_mem _ (fun _ _ => by simp) _ _

@[simp] theorem State.runRead_mem (s : State) (r : Rdma) : (s.runRead r).mem = s.mem := by
  unfold State.runRead
  dsimp only
  split
  · simp
  · split
    · exact foldl_mem _ (fun _ _ => State.sendTo_mem ..) _ _
    · simp

@[simp] theorem State.openRdma_mem (s : State) (p : Nat) (write : Bool) (va n : Nat) :
    (s.openRdma p write va n).1.mem = s.mem := rfl

theorem execRdmaWrite_memOk (part : Nat) (key : BitVec 32) (va : BitVec 64) (bytes : List Byte)
    (macsec : Bool) (s : State) (hm : s.mem.wf = true) :
    OutMemOk (execRdmaWrite part key va bytes macsec s) := by
  simp [execRdmaWrite, hm]

theorem execRdmaRead_memOk (part : Nat) (key : BitVec 32) (va : BitVec 64) (n : Nat) (macsec : Bool)
    (s : State) (hm : s.mem.wf = true) :
    OutMemOk (execRdmaRead part key va n macsec s) := by
  simp [execRdmaRead, hm]

theorem execRoceInvalidRequest_memOk (part : Nat) (s : State) (hm : s.mem.wf = true) :
    OutMemOk (execRoceInvalidRequest part s) := by
  simp [execRoceInvalidRequest, hm]

theorem execCnpReceive_memOk (part : Nat) (s : State) (hm : s.mem.wf = true) :
    OutMemOk (execCnpReceive part s) := by
  simp [execCnpReceive, hm]

/-! ### The link (`Machine/Tolsal.lean`) -/

@[simp] theorem State.once_memOk (s : State) (src seq : Nat) (m : TolsalMsg) (hm : s.mem.wf = true) :
    (s.once src seq m).mem.wf = true := by
  unfold State.once
  split <;> simp [hm]

@[simp] theorem State.landToken_mem (s : State) (src seq h ep dieOp : Nat) (pri : Bool) (sum : DWord)
    (image : BitVec 1024) (bad : List Nat) (level : Bool) (part : Nat) :
    (s.landToken src seq h ep dieOp pri sum image bad level part).mem = s.mem := by
  unfold State.landToken
  dsimp only
  (repeat' split) <;> simp

@[simp] theorem State.wake_mem (s : State) (k : Nat) : (s.wake k).mem = s.mem := rfl

@[simp] theorem State.loadAnswer_mem (s : State) (k slot lane epoch : Nat) (bs : List Byte) (bad : List Nat) :
    (s.loadAnswer k slot lane epoch bs bad).mem = s.mem := by
  simp [State.loadAnswer]

@[simp] theorem State.oweTrap_mem (s : State) (k : Nat) (cause : BitVec 8) (addr : Nat) :
    (s.oweTrap k cause addr).mem = s.mem := rfl

@[simp] theorem State.commitAnswer_mem (s : State) (k slot lane : Nat) (bs : List Byte) (cause : BitVec 8) :
    (s.commitAnswer k slot lane bs cause).mem = s.mem := by
  simp [State.commitAnswer]

@[simp] theorem State.keepAnswer_mem (s : State) (core : Nat) (l : Line) (keep : Bool) :
    (s.keepAnswer core l keep).mem = s.mem := by
  simp [State.keepAnswer]

@[simp] theorem State.codeAnswer_mem (s : State) (k : Nat) (l : Line) : (s.codeAnswer k l).mem = s.mem := rfl

@[simp] theorem State.opAnswer_mem (s : State) (id : Nat) (l : Option Line) :
    (s.opAnswer id l).mem = s.mem := by
  unfold State.opAnswer
  split <;> simp

@[simp] theorem State.elemAnswer_mem (s : State) (b e : Nat) (bs : List Byte) :
    (s.elemAnswer b e bs).mem = s.mem := by
  simp [State.elemAnswer]

@[simp] theorem State.rdmaAnswer_mem (s : State) (id : Nat) (l : Option Line) :
    (s.rdmaAnswer id l).mem = s.mem := by
  unfold State.rdmaAnswer
  dsimp only
  cases l <;> dsimp only <;> (repeat' split) <;> simp

@[simp] theorem State.loadArrives_mem (s : State) (k slot lane epoch : Nat) (keep : Bool) (o : Outstanding)
    (bs : List Byte) (bad : List Nat) :
    (s.loadArrives k slot lane epoch keep o bs bad).mem = s.mem := by
  unfold State.loadArrives
  split <;> simp

@[simp] theorem State.storeAnswer_mem (s : State) (tags : List (Nat × Nat)) (pa : Nat) (bad : List Nat) :
    (s.storeAnswer tags pa bad).mem = s.mem := by
  unfold State.storeAnswer
  split <;> simp

@[simp] theorem State.settleAnswer_mem (s : State) (o : Outstanding) (bs : List Byte) (bad : List Nat) :
    (s.settleAnswer o bs bad).mem = s.mem := by
  unfold State.settleAnswer
  (repeat' split) <;> simp

@[simp] theorem State.dropRequest_mem (s : State) (seq : Nat) : (s.dropRequest seq).mem = s.mem := rfl

@[simp] theorem State.storeLost_mem (s : State) (tags : List (Nat × Nat)) (part core ctx pa : Nat)
    (link : Bool) :
    (s.storeLost tags part core ctx pa link).mem = s.mem := by
  simp [State.storeLost]

@[simp] theorem State.opLost_mem (s : State) (id status : Nat) (o : Outstanding) :
    (s.opLost id status o).mem = s.mem := by
  unfold State.opLost
  dsimp only
  (repeat' split) <;> simp

@[simp] theorem State.elemLost_mem (s : State) (b e : Nat) : (s.elemLost b e).mem = s.mem := by
  simp [State.elemLost]

@[simp] theorem State.loadLost_mem (s : State) (k slot lane epoch addr : Nat) (cause : BitVec 8) :
    (s.loadLost k slot lane epoch addr cause).mem = s.mem := by
  simp [State.loadLost]

@[simp] theorem State.branchLost_mem (s : State) (id b status : Nat) :
    (s.branchLost id b status).mem = s.mem := by
  simp [State.branchLost]

@[simp] theorem State.failRequest_mem (s : State) (cause : BitVec 8) (status : Nat) (o : Outstanding) :
    (s.failRequest cause status o).mem = s.mem := by
  unfold State.failRequest
  (repeat' split) <;> simp

@[simp] theorem State.response_mem (s : State) (seq : Nat) (bs : List Byte) (bad : List Nat) :
    (s.response seq bs bad).mem = s.mem := by
  unfold State.response
  split <;> simp

@[simp] theorem State.refused_mem (s : State) (seq : Nat) (cause : BitVec 8) :
    (s.refused seq cause).mem = s.mem := by
  unfold State.refused
  split <;> simp

@[simp] theorem State.acceptedFar_mem (s : State) (seq : Nat) : (s.acceptedFar seq).mem = s.mem := by
  unfold State.acceptedFar
  (repeat' split) <;> simp

@[simp] theorem State.landShare_mem (s : State) (c : Contrib) : (s.landShare c).mem = s.mem := by
  simp [State.landShare]

@[simp] theorem State.receive_memOk (s : State) (m : TolsalMsg) (hm : s.mem.wf = true) :
    (s.receive m).mem.wf = true := by
  unfold State.receive
  split <;> simp [hm]

theorem execTolsalFrameReceive_memOk (m : TolsalMsg) (s : State) (hm : s.mem.wf = true) :
    OutMemOk (execTolsalFrameReceive m s) := by
  unfold execTolsalFrameReceive
  split <;> simp [hm]

theorem execTolsalResend_memOk (seq : Nat) (s : State) (hm : s.mem.wf = true) :
    OutMemOk (execTolsalResend seq s) := by
  unfold execTolsalResend
  split <;> simp [hm]

@[simp] theorem State.dropFar_mem (s : State) (dev : Nat) : (s.dropFar dev).mem = s.mem := by
  unfold State.dropFar
  exact foldl_mem _ (fun _ _ => by simp) _ _

theorem execDestinationUnreachable_memOk (dev : BitVec 4) (s : State) (hm : s.mem.wf = true) :
    OutMemOk (execDestinationUnreachable dev s) := by
  unfold execDestinationUnreachable
  dsimp only
  split
  · exact hm
  · simpa [foldl_mem _ fun (s : State) o => State.failRequest_mem s _ _ o] using hm

theorem execPortOpen_memOk (port : Nat) (digest : BitVec 256) (s : State) (hm : s.mem.wf = true) :
    OutMemOk (execPortOpen port digest s) := by
  unfold execPortOpen
  split
  · dsimp only
    split
    · simpa [foldl_mem _ fun (s : State) (o : Outstanding) => State.tell_mem s ..] using hm
    · exact hm
  · exact hm

/-! ### Start-up (`Machine/Boot.lean`) -/

@[simp] theorem State.bare_mem (s : State) (b : Boot) : (s.bare b).mem = Memory.empty := rfl

@[simp] theorem State.start_memOk (s : State) : s.start.mem.wf = true :=
  Memory.wf_freshen _ _ _ _ Memory.wf_empty

@[simp] theorem State.failStart_memOk (s : State) (r : BootReason) :
    (s.failStart r).mem.wf = true := State.start_memOk _

@[simp] theorem State.succeed_mem (s : State) : s.succeed.mem = s.mem := rfl

theorem execPowerOnStart_memOk (s : State) (hm : s.mem.wf = true) : OutMemOk (execPowerOnStart s) := by
  simp [execPowerOnStart, hm]

@[simp] theorem State.fetchImage_mem (s : State) (why : BootReason) : (s.fetchImage why).mem = s.mem := rfl

theorem execBootStageComplete_memOk (ok : Option BootReason) (s : State) (hm : s.mem.wf = true) :
    OutMemOk (execBootStageComplete ok s) := by
  unfold execBootStageComplete
  (repeat' split) <;> simp [hm]

theorem execBootStageWatchdog_memOk (s : State) (hm : s.mem.wf = true) :
    OutMemOk (execBootStageWatchdog s) := by
  simp [execBootStageWatchdog, hm]

theorem execImageFetchTimeout_memOk (s : State) (hm : s.mem.wf = true) :
    OutMemOk (execImageFetchTimeout s) := by
  unfold execImageFetchTimeout
  split <;> simp [hm]

@[simp] theorem State.addImage_mem (s : State) (bs : List Byte) : (s.addImage bs).mem = s.mem := rfl

@[simp] theorem State.askImage_mem (s : State) : s.askImage.mem = s.mem := rfl

@[simp] theorem State.startImage_memOk (s : State) (version : Option Nat) (hm : s.mem.wf = true) :
    (s.startImage version).mem.wf = true := by
  unfold State.startImage
  split <;> simp [hm]

@[simp] theorem State.flashImage_memOk (s : State) (version : Option Nat) (hm : s.mem.wf = true) :
    (s.flashImage version).mem.wf = true := by
  unfold State.flashImage
  split <;> simp [hm]

theorem execImage_memOk (off : Nat) (bytes : List Byte) (s : State) (hm : s.mem.wf = true) :
    OutMemOk (execImage off bytes s) := by
  unfold execImage
  dsimp only
  (repeat' split) <;> simp [hm]

theorem execRestart_memOk (a : Auth) (s : State) (hm : s.mem.wf = true) : OutMemOk (execRestart a s) := by
  simp [execRestart, hm]

theorem execThermalThrottle_memOk (die : Nat) (temp : BitVec 16) (level : BitVec 8) (s : State)
    (hm : s.mem.wf = true) :
    OutMemOk (execThermalThrottle die temp level s) := by
  simp [execThermalThrottle, hm]

theorem execThermalCritical_memOk (s : State) (hm : s.mem.wf = true) : OutMemOk (execThermalCritical s) := by
  unfold execThermalCritical
  split
  · exact hm
  · rfl

theorem execClusterPowerGate_memOk (die cluster : Nat) (gate : Bool) (s : State) (hm : s.mem.wf = true) :
    OutMemOk (execClusterPowerGate die cluster gate s) := by
  simp [execClusterPowerGate, hm]

theorem execPowerLoss_memOk (s : State) : OutMemOk (execPowerLoss s) := Memory.wf_empty

/-! ### Control flow (`Machine/Control.lean`) -/

@[simp] theorem keepCtl_mem (k : Nat) (x : CtlCap) (s : State) : (keepCtl k x s).mem = s.mem := rfl

@[simp] theorem laneDecide_memOk (g : Guard) (target : Crew → Nat → DWord) (s : State) (hm : s.mem.wf = true) :
    (laneDecide g target s).mem.wf = true := by
  unfold laneDecide
  dsimp only
  split
  · exact hm
  · exact State.checkedGo_memOk _ _ _ _ _ (fun _ h => h) hm

@[simp] theorem pathDecide_memOk (dest : Crew → DWord) (aux : Crew → DWord) (take : Crew → Word) (s : State)
    (hm : s.mem.wf = true) :
    (pathDecide dest aux take s).mem.wf = true :=
  State.checkedGo_memOk _ _ _ _ _ (fun _ h => h) hm

@[simp] theorem laneCommit_mem (s : State) : (laneCommit s).mem = s.mem := rfl

@[simp] theorem pathCommit_mem (s : State) : (pathCommit s).mem = s.mem := rfl

theorem execBr_memOk (g : Guard) (target : BitVec 38) (s : State) (hm : s.mem.wf = true) :
    OutMemOk (execBr g target s) := by
  unfold execBr
  split <;> simp [hm]

theorem execBrx_memOk (g : Guard) (a : Src) (s : State) (hm : s.mem.wf = true) :
    OutMemOk (execBrx g a s) := by
  unfold execBrx
  split <;> simp [hm]

theorem execBrcAny_memOk (g : Guard) (target : BitVec 38) (s : State) (hm : s.mem.wf = true) :
    OutMemOk (execBrcAny g target s) := by
  unfold execBrcAny
  split <;> simp [hm]

theorem execBrcAll_memOk (g : Guard) (target : BitVec 38) (s : State) (hm : s.mem.wf = true) :
    OutMemOk (execBrcAll g target s) := by
  unfold execBrcAll
  split <;> simp [hm]

@[simp] theorem callDecide_memOk (g : Guard) (target : Crew → Nat → DWord) (s : State) (hm : s.mem.wf = true) :
    (callDecide g target s).mem.wf = true := by
  unfold callDecide
  dsimp only
  split
  · exact hm
  · split
    · exact hm
    · exact State.checkedGo_memOk _ _ _ _ _ (fun _ h => h) hm

theorem execCall_memOk (g : Guard) (target : BitVec 38) (s : State) (hm : s.mem.wf = true) :
    OutMemOk (execCall g target s) := by
  unfold execCall
  split <;> simp [hm]

theorem execCallx_memOk (g : Guard) (a : Src) (s : State) (hm : s.mem.wf = true) :
    OutMemOk (execCallx g a s) := by
  unfold execCallx
  split <;> simp [hm]

theorem execRet_memOk (g : Guard) (s : State) (hm : s.mem.wf = true) : OutMemOk (execRet g s) := by
  unfold execRet
  dsimp only
  split
  · simp [hm]
  · split
    · simp [hm]
    · exact State.checkedGo_memOk _ _ _ _ _ (fun s h => by simp [h]) hm

theorem execLoop_memOk (g : Guard) (k : BitVec 6) (target : BitVec 38) (s : State) (hm : s.mem.wf = true) :
    OutMemOk (execLoop g k target s) := by
  unfold execLoop
  split <;> simp [hm]

theorem execJoin_memOk (g : Guard) (k : BitVec 6) (target : BitVec 38) (s : State) (hm : s.mem.wf = true) :
    OutMemOk (execJoin g k target s) := by
  unfold execJoin
  split <;> simp [hm]

@[simp] theorem State.handOver_mem (s : State) (k : Nat) : (s.handOver k).mem = s.mem := by
  simp only [State.handOver]
  split <;> simp

theorem execYield_memOk (g : Guard) (s : State) (hm : s.mem.wf = true) : OutMemOk (execYield g s) := by
  unfold execYield
  split <;> simp [hm]

@[simp] theorem State.exitCommit_mem (s : State) (k : Nat) : (s.exitCommit k).mem = s.mem := by
  simp [State.exitCommit]

theorem execExit_memOk (g : Guard) (s : State) (hm : s.mem.wf = true) : OutMemOk (execExit g s) := by
  unfold execExit
  dsimp only
  split
  · simp [hm]
  · exact State.checkedGo_memOk _ _ _ _ _ (fun s h => by simp [h]) hm

/-! ### Configuration (`Machine/Load.lean`) -/

theorem readCopies_wait (s : State) (k : Nat) (bs : List Byte) (ops : List Nat) (t : State)
    (ht : s.readCopies k bs ops = .wait t) :
    t.mem = s.mem := by
  induction ops with
  | nil => cases ht
  | cons op ops ih =>
    by_cases e : (!oeV (entryAt bs op)) = true
    · have hc : s.readCopies k bs (op :: ops) = s.readCopies k bs ops := if_pos e
      exact ih (hc ▸ ht)
    · have hc : s.readCopies k bs (op :: ops) = _ := if_neg e
      rw [hc] at ht
      split at ht
      next hu => cases ht; exact readCmd_wait _ _ _ _ _ hu
      · cases ht
      · split at ht
        · cases ht
        · exact ih ht

@[simp] theorem State.stagePend_mem (s : State) (k die : Nat) (car : Bool) (r : Region)
    (copies : Tbl (BitVec 4096)) :
    (s.stagePend k die car r copies).mem = s.mem := rfl

@[simp] theorem State.loadTable_mem (s : State) (k : Nat) (bs : List Byte) (backing : DWord) :
    (s.loadTable k bs backing).mem = s.mem := by
  unfold State.loadTable
  dsimp only
  split
  · simp
  · split
    next t ht => exact readCopies_wait _ _ _ _ _ ht
    · simp
    · split <;> simp

@[simp] theorem State.loadProgram_mem (s : State) (k : Nat) (bs : List Byte) (backing : DWord) :
    (s.loadProgram k bs backing).mem = s.mem := by
  simp [State.loadProgram]

theorem State.installTable_mem (s : State) (die : Nat) (p : PendConfig) (prog : List Byte) :
    ∀ t, s.installTable die p prog = some t → t.mem = s.mem := by
  intro t ht
  unfold State.installTable at ht
  dsimp only at ht
  split at ht
  · cases ht
  · cases ht; simp
  · split at ht
    · cases ht; simp
    · split at ht
      · cases ht; simp
      next u hu =>
        have hum : u.mem = s.mem := foldl_bind_mem _ (fun s _ t => State.grantAll_mem s _ _ t) _ _ u hu
        obtain rfl := Option.some.inj ht
        simp only [State.finishCmd_mem, State.releaseTable_mem, State.markHeld_mem]
        split <;> simp [hum]

@[simp] theorem State.installProgram_mem (s : State) (die : Nat) (p : PendConfig) :
    (s.installProgram die p).mem = s.mem := by
  simp [State.installProgram]

@[simp] theorem State.askCopies_mem (s : State) (p : PendConfig) : (s.askCopies p).mem = s.mem := by
  unfold State.askCopies
  split
  next t ht => exact readCopies_wait _ _ _ _ _ ht
  · rfl

theorem State.installOne_mem (s : State) (die : Nat) (prog : List Byte) (p : PendConfig) :
    ∀ t, s.installOne die prog p = some t → t.mem = s.mem := by
  intro t ht
  unfold State.installOne at ht
  split at ht
  · cases ht; simp
  · split at ht
    · cases ht; simp
    · exact State.installTable_mem s die p prog t ht

theorem execConfigTakeEffect_memOk (die : Nat) (s : State) (hm : s.mem.wf = true) :
    OutMemOk (execConfigTakeEffect die s) := by
  unfold execConfigTakeEffect
  dsimp only
  split
  · exact hm
  · split
    next t ht =>
      have htm := (foldl_bind_mem _ (fun s p t => State.installOne_mem s _ _ p t) _ _ t ht).trans
        (State.updDie_mem ..)
      exact wf_of_mem_eq htm hm
    · rw [outMemOk_next, foldl_mem _ fun _ _ => State.askCopies_mem ..]
      exact hm

@[simp] theorem State.loadSpills_mem (s : State) (k : Nat) (bs : List Byte) :
    (s.loadSpills k bs).mem = s.mem := by
  simp [State.loadSpills]

@[simp] theorem State.reimage_mem (s : State) (c : Cmd) (b : Nat) (img : List Byte) (backing : DWord) :
    (s.reimage c b img backing).mem = s.mem := by
  unfold State.reimage
  split <;> rfl

@[simp] theorem State.installImage_mem (s : State) (k : Nat) (img : List Byte) (backing : DWord) :
    (s.installImage k img backing).mem = s.mem := by
  unfold State.installImage
  exact foldl_mem _ (fun _ _ => by simp) _ _

@[simp] theorem State.loadImage_mem (s : State) (k : Nat) : (s.loadImage k).mem = s.mem := by
  unfold State.loadImage
  dsimp only
  split
  next t ht => exact readCmd_wait _ _ _ _ _ ht
  · simp
  · split
    · simp
    · split
      next t ht => exact readCmd_wait _ _ _ _ _ ht
      · simp
      · (repeat' split) <;> simp

theorem State.readRegion_memOk (s : State) (k n : Nat) (load : State → List Byte → State)
    (hload : ∀ s bs, s.mem.wf = true → (load s bs).mem.wf = true) (hm : s.mem.wf = true) :
    (s.readRegion k n load).mem.wf = true := by
  unfold State.readRegion
  split
  next t ht => rwa [readCmd_wait _ _ _ _ _ ht]
  · simp [hm]
  · exact hload s _ hm

theorem execConfig_memOk (cmd : Nat) (s : State) (hm : s.mem.wf = true) : OutMemOk (execConfig cmd s) := by
  have read (n : Nat) (load : State → List Byte → State) (s : State) (hl : ∀ s bs, (load s bs).mem = s.mem)
    (h : s.mem.wf = true) :
      (s.readRegion cmd n load).mem.wf = true := State.readRegion_memOk s cmd n load
        (fun s bs h => by rwa [hl]) h
  unfold execConfig
  dsimp only
  split
  · exact hm
  · split
    · simp [hm]
    · split
      · exact hm
      · split
        · exact read _ _ s (fun _ _ => State.loadTable_mem ..) hm
        · exact State.readRegion_memOk _ _ _ _
            (fun s _ h => read _ _ s (fun _ _ => State.loadProgram_mem ..) h) hm
        · simp [hm]
        · exact read _ _ s (fun _ _ => State.loadSpills_mem ..) hm

theorem applyPatches_wait (s : State) (k : Nat) (ps : List Patch) (bs : List Byte) (t : State) :
    s.applyPatches k ps bs = .wait t → t.mem = s.mem := by
  induction ps generalizing bs with
  | nil => nofun
  | cons p ps ih =>
    unfold State.applyPatches
    split
    next hu => rintro ⟨⟩; exact readCmd_wait _ _ _ _ _ hu
    · nofun
    · exact ih _

@[simp] theorem State.takePatched_mem (s : State) (k : Nat) (bs : List Byte) :
    (s.takePatched k bs).mem = s.mem := by
  simp only [State.takePatched]
  split <;> simp

@[simp] theorem State.readDelta_mem (s : State) (k : Nat) : (s.readDelta k).mem = s.mem := by
  unfold State.readDelta
  dsimp only
  split
  next hu => exact readCmd_wait _ _ _ _ _ hu
  · simp
  · split
    · simp
    · split
      · simp
      · split
        · simp
        · split
          next hu => exact applyPatches_wait _ _ _ _ _ hu
          · simp
          · split <;> simp

@[simp] theorem State.deltaBenches_mem (s : State) (k : Nat) : (s.deltaBenches k).mem = s.mem := by
  unfold State.deltaBenches
  dsimp only
  split
  · split
    · simp
    · split
      · exact foldl_mem _ (fun _ _ => State.drainBench_mem ..) _ _
      · exact foldl_mem _ (fun _ _ => State.reimage_mem ..) _ _
  · split <;> simp

theorem execDelta_memOk (cmd : Nat) (s : State) (hm : s.mem.wf = true) : OutMemOk (execDelta cmd s) := by
  simp [execDelta, hm]

/-! ### Partitions (`Machine/Parts.lean`) -/

@[simp] theorem State.saveStopped_mem (s : State) (k : Nat) : (s.saveStopped k).mem = s.mem := by
  unfold State.saveStopped
  dsimp only
  split
  · split <;> simp
  · split
    · rfl
    · exact foldl_mem _ (fun _ _ => State.finishCmd_mem ..) _ _

theorem execCrewPreemptSave_memOk (crew : Nat) (s : State) (hm : s.mem.wf = true) :
    OutMemOk (execCrewPreemptSave crew s) := by
  unfold execCrewPreemptSave
  split <;> simp [hm]

theorem execResume_memOk (cmd : Nat) (s : State) (hm : s.mem.wf = true) : OutMemOk (execResume cmd s) := by
  simp [execResume, hm]

@[simp] theorem State.bareClusters_mem (s : State) (m : BitVec 24) : (s.bareClusters m).mem = s.mem := rfl

theorem execPartitionCreate_memOk (cmd : Nat) (s : State) (hm : s.mem.wf = true) :
    OutMemOk (execPartitionCreate cmd s) := by
  unfold execPartitionCreate
  dsimp only
  split
  · exact hm
  · split
    · simp [hm]
    · split
      next t ht => exact wf_of_mem_eq (readCmd_wait _ _ _ _ _ ht) hm
      · simp [hm]
      · (repeat' split) <;> simp [hm, zeroClusters_memOk]

theorem execPartitionPreempt_memOk (cmd : Nat) (s : State) (hm : s.mem.wf = true) :
    OutMemOk (execPartitionPreempt cmd s) := by
  simp [execPartitionPreempt, hm]

theorem execPartitionSwapout_memOk (cmd : Nat) (s : State) (hm : s.mem.wf = true) :
    OutMemOk (execPartitionSwapout cmd s) := by
  have hout (s : State) (ks : List Nat) :
    (ks.foldl (fun s k => s.updCrew k fun c => { c with preempt := true }) s).mem = s.mem :=
    foldl_mem _ (fun _ _ => State.updCrew_mem ..) ks s
  unfold execPartitionSwapout
  dsimp only
  (repeat' split) <;> simp [hm, hout]

theorem execSwapoutSaveComplete_memOk (part : Nat) (s : State) (hm : s.mem.wf = true) :
    OutMemOk (execSwapoutSaveComplete part s) := by
  simp only [execSwapoutSaveComplete]
  split <;> simp [hm]

@[simp] theorem State.restorePart_memOk (s : State) (p : Nat) (hm : s.mem.wf = true) :
    (s.restorePart p).mem.wf = true := by
  unfold State.restorePart
  refine foldl_memOk _ (fun s k h => ?_) _ _ ?_
  · dsimp only
    split <;> simp [h, restoreGang_memOk]
  · rw [foldl_mem _ fun s d => by split <;> simp]
    refine foldl_memOk _ (fun s e h => restoreYard_memOk _ _ _ h) _ _
      (foldl_memOk _ (fun _ _ h => by exact h) _ _ ?_)
    exact zeroClusters_memOk _ _ hm

theorem execPartitionSwapin_memOk (cmd : Nat) (s : State) (hm : s.mem.wf = true) :
    OutMemOk (execPartitionSwapin cmd s) := by
  simp [execPartitionSwapin, hm]

theorem execPartitionScrub_memOk (cmd : Nat) (s : State) (hm : s.mem.wf = true) :
    OutMemOk (execPartitionScrub cmd s) := by
  simp [execPartitionScrub, hm, scrub_memOk]

@[simp] theorem State.cancelAll_memOk (s : State) (p : Nat) (hm : s.mem.wf = true) :
    (s.cancelAll p).mem.wf = true := by
  unfold State.cancelAll
  refine foldl_memOk _ (fun s e h => ?_) _ _
    (foldl_memOk _ (fun _ _ h => foldl_memOk _ (fun _ _ h => ?_) _ _ h) _ _ hm)
  · split <;> simp [h]
  · simp [h]

@[simp] theorem State.cancelSlot_mem (s : State) (n : Nat) (seq : Word) :
    (s.cancelSlot n seq).mem = s.mem := by
  simp only [State.cancelSlot]
  split <;> simp

@[simp] theorem State.cancelCmds_mem (s : State) (p but : Nat) : (s.cancelCmds p but).mem = s.mem := by
  unfold State.cancelCmds
  exact (foldl_mem _ (fun _ _ => foldl_mem _ (fun _ _ => State.cancelSlot_mem ..) _ _) _ _).trans
    (foldl_mem _ (fun _ _ => State.finishCmd_mem ..) _ _)

@[simp] theorem State.dropPart_mem (s : State) (p : Nat) : (s.dropPart p).mem = s.mem := by
  unfold State.dropPart
  dsimp only
  rw [foldl_mem _ fun _ _ => State.dropCrew_mem .., foldl_mem _ fun s e => ?_,
    foldl_mem _ fun _ _ => State.releaseYards_mem ..]
  split
  · exact foldl_mem _ (fun _ _ => State.releaseYards_mem ..) _ _
  · rfl

theorem execPartitionDestroy_memOk (cmd : Nat) (s : State) (hm : s.mem.wf = true) :
    OutMemOk (execPartitionDestroy cmd s) := by
  have release (s : State) (ks : List Nat) (h : s.mem.wf = true) :
    (ks.foldl (fun s k => s.releaseCore k) s).mem.wf = true :=
    foldl_memOk _ (fun s k h => State.releaseCore_memOk s k h) ks s h
  unfold execPartitionDestroy
  dsimp only
  (repeat' split) <;> simp [hm, release]

/-! ### Traps and system instructions (`Machine/System.lean`) -/

@[simp] theorem trapDecide_memOk (g : Guard) (s : State) (hm : s.mem.wf = true) :
    (trapDecide g s).mem.wf = true := by
  unfold trapDecide
  dsimp only
  split
  · exact pathDecide_memOk _ _ _ s hm
  · exact State.checkedGo_memOk _ _ _ _ _ (fun _ h => h) hm

@[simp] theorem State.trapCommit_mem (s : State) (k : Nat) (cause : BitVec 8) (code : BitVec 16) :
    (s.trapCommit k cause code).mem = s.mem := by
  simp [State.trapCommit]

theorem execTrap_memOk (g : Guard) (code : BitVec 16) (s : State) (hm : s.mem.wf = true) :
    OutMemOk (execTrap g code s) := by
  unfold execTrap
  split <;> simp [hm]

theorem execSvc_memOk (g : Guard) (code : BitVec 16) (s : State) (hm : s.mem.wf = true) :
    OutMemOk (execSvc g code s) := by
  unfold execSvc
  split <;> simp [hm]

theorem execTret_memOk (g : Guard) (s : State) (hm : s.mem.wf = true) : OutMemOk (execTret g s) := by
  simp only [execTret]
  split <;> simp [hm]

theorem execHalt_memOk (g : Guard) (s : State) (hm : s.mem.wf = true) : OutMemOk (execHalt g s) := by
  unfold execHalt
  split <;> simp [hm]

@[simp] theorem syswAct_memOk (r : SysReg) (v : DWord) (s : State) (hm : s.mem.wf = true) :
    (syswAct r v s).mem.wf = true := by
  simp [syswAct, hm]

theorem execSysw_memOk (g : Guard) (r : SysReg) (a : Src) (s : State) (hm : s.mem.wf = true) :
    OutMemOk (execSysw g r a s) :=
  valueOnce_memOk _ _ _ _ s (fun v s h => syswAct_memOk r v s h) hm

theorem execSurvey_memOk (o : Ops1) (s : State) (hm : s.mem.wf = true) : OutMemOk (execSurvey o s) := by
  unfold execSurvey
  extract_lets c a go
  have hgo : go.mem.wf = true := by
    refine valueOnce_memOk _ _ _ _ s (fun v s h => ?_) hm
    rw [State.land_mem, State.surveyVal_mem]
    exact h
  split
  · exact hgo
  · split
    · simp [hm]
    · simp [hm]
    · simp [hm]
    · exact hgo

/-! ### The scheduler (`Machine/Sched.lean`) -/

@[simp] theorem State.slotNext_mem (s : State) : s.slotNext.2.mem = s.mem := by
  unfold State.slotNext
  dsimp only
  (repeat' split) <;> simp

@[simp] theorem State.crewNext_mem (s : State) : s.crewNext.2.mem = s.mem := by
  unfold State.crewNext
  dsimp only
  (repeat' split) <;> simp

theorem State.crewTurn_mem (s : State) (k : Nat) : ∀ t, s.crewTurn k = some t → t.2.mem = s.mem := by
  intro t ht
  have hissue : (if s.cur = k then s else s.issueFrom k).mem = s.mem := by split <;> simp
  unfold State.crewTurn at ht
  generalize (if s.cur = k then s else s.issueFrom k) = u at hissue ht
  have hnext := (State.crewNext_mem (u.updCrew k fun c => { c with stall := stNone })).trans hissue
  split at ht
  · cases ht
  · dsimp only at ht
    split at ht <;> rename_i hu <;> rw [hu] at hnext
    · split at ht
      · split at ht <;> cases ht
        exact hnext
      · cases ht
        exact hnext
    · split at ht <;> cases ht
      exact hnext

theorem State.crewsNext_mem (s : State) : ∀ t, s.crewsNext = some t → t.2.mem = s.mem := by
  intro t ht
  obtain ⟨k, -, hk⟩ := List.exists_of_findSome?_eq_some ht
  exact State.crewTurn_mem s k t hk

@[simp] theorem State.upNext_mem (s : State) : s.upNext.2.mem = s.mem := by
  unfold State.upNext
  dsimp only
  split
  · simp
  · split
    · rfl
    · split
      next x hx => exact State.crewsNext_mem s x hx
      · rfl

/-! ### Instructions and events -/

theorem exec_memOk (i : Instr) (s : State) (hm : s.mem.wf = true) : OutMemOk (exec i s) := by
  cases i
  case nop | iadd | iadd3 | isub | imul | imulh | imad | imadWide | imin | imax | iabs | lea | shl | shr
      | sar | rol | ror | mov | movN64 | movSpecial | movDWord | movi | sel | icmp | bfx | bfi | popc | clz
      | ctz | brev | lop | iaddImm | imulImm | lopImm | shiftImm | icmpImm | iminmaxImm | plop | pmovPack
      | voteAll | voteAny | voteEq | voteBallot | voteCount | perm | shfl | bcastIdx | bcastFirst | cmpct
      | fadd | fmul | ffma | fmin | fmax | fcmp | fclass | fclassTest | frnd | faddPacked | fmulPacked
      | ffmaPacked | fminPacked | fmaxPacked | fcmpPacked | cvt | cvtPacked | mxunpack | dot4 | rcp | rsq
      | sqrt | exp2 | log2 | sin | cos | tanh | sigm | red | scan | prefL1 | prefDc | crewQuery
      | crewQueryGang | tokHdr | benchState | steer | merge | gate | fwd | sysr | featTest | featCtx
      | settStart | dieLinkResend | battForm | carderTimeout | stealReceive | firmwareRestart
      | firmwareRestartEnd | portClose | sakRekey | throttleEpisodeEnd => exact outMemOk_of_mem_eq hm (by simp)
  case ldl | ldg | ldy | ldkv | ldt | stl | stg | sty | atomGlobal | atomLocal | atomYard | atomGlobalNoret
      | atomLocalNoret | atomYardNoret | copy | copyCond | copyMc | coll | settCommit | xlatInvComplete
      | engineOperationComplete | carouselTileFill | xlatInvPartition | xlatInvPage | xlatInvKv
      | xlatInvPrivate | ptRootWrite | privHwmWrite | memerrWrite | frReadWrite | frRingWrite | frStampWrite
      | submitWrite | systemRegisterWrite => exact (outMemOk_next _).2 (by simp [hm])
  case br g target => exact execBr_memOk g target s hm
  case brcAny g target => exact execBrcAny_memOk g target s hm
  case brcAll g target => exact execBrcAll_memOk g target s hm
  case brx g a => exact execBrx_memOk g a s hm
  case call g target => exact execCall_memOk g target s hm
  case callx g a => exact execCallx_memOk g a s hm
  case ret g => exact execRet_memOk g s hm
  case loop g k target => exact execLoop_memOk g k target s hm
  case join g k target => exact execJoin_memOk g k target s hm
  case yield g => exact execYield_memOk g s hm
  case exit g => exact execExit_memOk g s hm
  case pmovSet a m g => exact execPmovSet_memOk a m g s hm
  case mxpack o f l strict rm => exact execMxpack_memOk o f l strict rm s hm
  case sfuResultReturn core quarter => exact execSfuResultReturn_memOk core quarter s hm
  case fence g scope => exact execFence_memOk g scope s hm
  case fenceEng g scope => exact execFenceEng_memOk g scope s hm
  case cwb a => exact execCwb_memOk a s hm
  case cinv a => exact execCinv_memOk a s hm
  case iinv a scope => exact execIinv_memOk a scope s hm
  case fetchb g => exact execFetchb_memOk g s hm
  case barArrive g k => exact execBarArrive_memOk g k s hm
  case barWait g k => exact execBarWait_memOk g k s hm
  case barSync g k => exact execBarSync_memOk g k s hm
  case crewJoin g => exact execCrewJoin_memOk g s hm
  case crewLeave d g => exact execCrewLeave_memOk d g s hm
  case qpush g a n => exact execQpush_memOk g a n s hm
  case qpop d g n => exact execQpop_memOk d g n s hm
  case waitc g a p => exact execWaitc_memOk g a p s hm
  case monArm g a sp scope k => exact execMonArm_memOk g a sp scope k s hm
  case waitStamp d g v cmp k => exact execWaitStamp_memOk d g v cmp k s hm
  case stampMonitorWake crew => exact execStampMonitorWake_memOk crew s hm
  case stampPollTimer crew => exact execStampPollTimer_memOk crew s hm
  case mma g ta tb ka kb acc oba obb c => exact execMma_memOk g ta tb ka kb acc oba obb c s hm
  case accNew g acc => exact execAccNew_memOk g acc s hm
  case accZero g acc => exact execAccZero_memOk g acc s hm
  case accLd g acc da a => exact execAccLd_memOk g acc da a s hm
  case accSt g acc da a rm sat => exact execAccSt_memOk g acc da a rm sat s hm
  case accRd g acc p d => exact execAccRd_memOk g acc p d s hm
  case tld g ob da a => exact execTld_memOk g ob da a s hm
  case matrixOperationExecute core op => exact execMatrixOperationExecute_memOk core op s hm
  case accTileDrainFree core tile => exact execAccTileDrainFree_memOk core tile s hm
  case shapeMake g da sn e strict => exact execShapeMake_memOk g da sn e strict s hm
  case copyArm g ds dd sn e slot => exact execCopyArm_memOk g ds dd sn e slot s hm
  case copyDisarm g e slot => exact execCopyDisarm_memOk g e slot s hm
  case tokLoad d g f h sel => exact execTokLoad_memOk d g f h sel s hm
  case tokSend o => exact execTokSend_memOk o s hm
  case tokRetire o => exact execTokRetire_memOk o s hm
  case tokSpawn o => exact execTokSpawn_memOk o s hm
  case benchEnter g sn => exact execBenchEnter_memOk g sn s hm
  case benchExit o => exact execBenchExit_memOk o s hm
  case trap g code => exact execTrap_memOk g code s hm
  case tret g => exact execTret_memOk g s hm
  case svc g code => exact execSvc_memOk g code s hm
  case sysw g r a => exact execSysw_memOk g r a s hm
  case survey o => exact execSurvey_memOk o s hm
  case halt g => exact execHalt_memOk g s hm
  case quarterIssueSwitch crew => exact execQuarterIssueSwitch_memOk crew s hm
  case trapEntry => exact execTrapEntry_memOk s hm
  case walkComplete k => exact execWalkComplete_memOk k s hm
  case faultRecordDeliver die => exact execFaultRecordDeliver_memOk die s hm
  case fqResumeReplay die entry => exact execFqResumeReplay_memOk die entry s hm
  case fqResumeCancel die entry => exact execFqResumeCancel_memOk die entry s hm
  case homeAccessPerform sel => exact execHomeAccessPerform_memOk sel s hm
  case combiningBufferTimeout core line => exact execCombiningBufferTimeout_memOk core line s hm
  case configReloadDone r => exact execConfigReloadDone_memOk r s hm
  case yardRegionFill r => exact execYardRegionFill_memOk r s hm
  case yardRegionConsume r => exact execYardRegionConsume_memOk r s hm
  case engineAccept op => exact execEngineAccept_memOk op s hm
  case condCopyReserve op => exact execCondCopyReserve_memOk op s hm
  case templateFire core slot => exact execTemplateFire_memOk core slot s hm
  case multicastTileRead op => exact execMulticastTileRead_memOk op s hm
  case multicastTileDeliver op branch => exact execMulticastTileDeliver_memOk op branch s hm
  case collectiveInstanceComplete op others => exact execCollectiveInstanceComplete_memOk op others s hm
  case tokenAccept die op => exact execTokenAccept_memOk die op s hm
  case tokenAcceptReturn slot => exact execTokenAcceptReturn_memOk slot s hm
  case carderSpillAccept die op => exact execCarderSpillAccept_memOk die op s hm
  case battDispatch die op => exact execBattDispatch_memOk die op s hm
  case carouselPassBegin die => exact execCarouselPassBegin_memOk die s hm
  case configTakeEffect die => exact execConfigTakeEffect_memOk die s hm
  case gangPlace die => exact execGangPlace_memOk die s hm
  case reserveCrewAttach core => exact execReserveCrewAttach_memOk core s hm
  case stealAckDelivered lend => exact execStealAckDelivered_memOk lend s hm
  case benchStart b => exact execBenchStart_memOk b s hm
  case benchMap b => exact execBenchMap_memOk b s hm
  case startTokenTake b elem => exact execStartTokenTake_memOk b elem s hm
  case elementRuleFire b elem => exact execElementRuleFire_memOk b elem s hm
  case isectStep b elem => exact execIsectStep_memOk b elem s hm
  case reordStep b elem => exact execReordStep_memOk b elem s hm
  case bufStep b elem => exact execBufStep_memOk b elem s hm
  case rtreeStep b elem => exact execRtreeStep_memOk b elem s hm
  case memStreamRead b elem => exact execMemStreamRead_memOk b elem s hm
  case memRandomAccess b elem => exact execMemRandomAccess_memOk b elem s hm
  case memOrderedUpdate b elem => exact execMemOrderedUpdate_memOk b elem s hm
  case orderedRetire b => exact execOrderedRetire_memOk b s hm
  case spallFaultSend b elem => exact execSpallFaultSend_memOk b elem s hm
  case spallDeliver b => exact execSpallDeliver_memOk b s hm
  case spallReply b => exact execSpallReply_memOk b s hm
  case benchRetire b => exact execBenchRetire_memOk b s hm
  case benchAbort b => exact execBenchAbort_memOk b s hm
  case benchDrainComplete b => exact execBenchDrainComplete_memOk b s hm
  case benchStoppingComplete b => exact execBenchStoppingComplete_memOk b s hm
  case benchResume b => exact execBenchResume_memOk b s hm
  case intakeSpillMove prod => exact execIntakeSpillMove_memOk prod s hm
  case commandTake => exact execCommandTake_memOk s hm
  case launch cmd => exact execLaunch_memOk cmd s hm
  case delta cmd => exact execDelta_memOk cmd s hm
  case stampwait cmd => exact execStampwait_memOk cmd s hm
  case stampwaitEnd cmd => exact execStampwaitEnd_memOk cmd s hm
  case config cmd => exact execConfig_memOk cmd s hm
  case partitionCreate cmd => exact execPartitionCreate_memOk cmd s hm
  case partitionSwapout cmd => exact execPartitionSwapout_memOk cmd s hm
  case swapoutSaveComplete part => exact execSwapoutSaveComplete_memOk part s hm
  case partitionSwapin cmd => exact execPartitionSwapin_memOk cmd s hm
  case partitionPreempt cmd => exact execPartitionPreempt_memOk cmd s hm
  case crewPreemptSave crew => exact execCrewPreemptSave_memOk crew s hm
  case partitionDestroy cmd => exact execPartitionDestroy_memOk cmd s hm
  case partitionScrub cmd => exact execPartitionScrub_memOk cmd s hm
  case resume cmd => exact execResume_memOk cmd s hm
  case producer cmd => exact execProducer_memOk cmd s hm
  case commandNop cmd => exact execCommandNop_memOk cmd s hm
  case commandComplete cmd => exact execCommandComplete_memOk cmd s hm
  case launchComplete launch => exact execLaunchComplete_memOk launch s hm
  case doorbell part words => exact execDoorbell_memOk part words s hm
  case surveyreq a addrs => exact execSurveyreq_memOk a addrs s hm
  case attestreq nonce => exact execAttestreq_memOk nonce s hm
  case idreq => exact execIdreq_memOk s hm
  case key part ciphertext => exact execKey_memOk part ciphertext s hm
  case window a n entry => exact execWindow_memOk a n entry s hm
  case qpset a localQp remoteQp mac ip ring => exact execQpset_memOk a localQp remoteQp mac ip ring s hm
  case group a h devs => exact execGroup_memOk a h devs s hm
  case grant a dev first count dest => exact execGrant_memOk a dev first count dest s hm
  case domain a dev peers => exact execDomain_memOk a dev peers s hm
  case image off bytes => exact execImage_memOk off bytes s hm
  case restart a => exact execRestart_memOk a s hm
  case rdmaWrite part key va bytes macsec => exact execRdmaWrite_memOk part key va bytes macsec s hm
  case rdmaRead part key va n macsec => exact execRdmaRead_memOk part key va n macsec s hm
  case roceInvalidRequest part => exact execRoceInvalidRequest_memOk part s hm
  case cnpReceive part => exact execCnpReceive_memOk part s hm
  case tolsalFrameReceive m => exact execTolsalFrameReceive_memOk m s hm
  case tolsalResend seq => exact execTolsalResend_memOk seq s hm
  case destinationUnreachable dev => exact execDestinationUnreachable_memOk dev s hm
  case portOpen port digest => exact execPortOpen_memOk port digest s hm
  case powerOnStart => exact execPowerOnStart_memOk s hm
  case bootStageComplete ok => exact execBootStageComplete_memOk ok s hm
  case bootStageWatchdog => exact execBootStageWatchdog_memOk s hm
  case imageFetchTimeout => exact execImageFetchTimeout_memOk s hm
  case thermalThrottle die temp level => exact execThermalThrottle_memOk die temp level s hm
  case thermalCritical => exact execThermalCritical_memOk s hm
  case clusterPowerGate die cluster gate => exact execClusterPowerGate_memOk die cluster gate s hm
  case powerLoss => exact execPowerLoss_memOk s
  case dieReset die => exact execDieReset_memOk die s hm
  case patrolScrub die => exact execPatrolScrub_memOk die s hm
  case uncorrectableError site => exact execUncorrectableError_memOk site s hm
  case configFreeze r => exact execConfigFreeze_memOk r s hm
  case battStealGrant victim op thiefCore => exact execBattStealGrant_memOk victim op thiefCore s hm
  case lendDisturbance lend victimReset => exact execLendDisturbance_memOk lend victimReset s hm
  case localWatchdog crew => exact execLocalWatchdog_memOk crew s hm
  case benchDrainTimeout b => exact execBenchDrainTimeout_memOk b s hm

theorem step_memOk (s : State) (hm : s.mem.wf = true) : OutMemOk (step s) := by
  unfold step
  split
  · exact exec_memOk _ _ hm
  · have hup : s.upNext.2.mem.wf = true := wf_of_mem_eq s.upNext_mem hm
    split <;> rename_i heq <;> rw [heq] at hup
    · exact exec_memOk _ _ hup
    · exact hup

/-- Settles O39: no instruction, event or choice of the scheduler leaves the canonical form. -/
theorem memoryCanonical : Obligations.MemoryCanonical := by
  intro s t hs ht
  have hstep := step_memOk s hs
  rwa [ht] at hstep

end Sys2Proof.Machine
end

section
namespace Sys2Proof.Machine

/-!
# A prefetch whose line is another device's (O31)

R355: a prefetch's LD operation completes when every line it names has been allocated or dropped. A line of another device is allocated
when that device's answer comes, so the walk that asks for it leaves the operation open (`State.prefetchLine`, `State.endPref`).
-/

/-- Two devices in the domain. Crew 0 of partition 0, in linear mode (R39), has issued one LD operation: a prefetch into the L1 of the first
line of device 1. -/
def remotePrefetch : State :=
  { State.reset with
    domain := [0, 1]
    crews := Tbl.empty.put 0 { (default : Crew) with
      place := .resident, ctr := Tbl.empty.put (pathNo .ld) { (default : PathCtr) with issued := 1 } }
    walks := [⟨0, 0, 1, false, [2 ^ 48], false⟩] }

/-- The walk ends with the line asked for and the operation still open. -/
theorem remotePrefetch_walkComplete : ∃ t, exec (.walkComplete 0) remotePrefetch = .next t ∧
    t.outstanding.map (·.who) = [.pref 0 0 1 true] ∧ (t.crew 0).counter .ld = 1 :=
  ⟨_, rfl, by decide +kernel, by decide +kernel⟩

theorem remotePrefetch_completeOn : ((remotePrefetch.completeOn 0 .ld 1).crew 0).counter .ld = 0 := by
  decide +kernel

/-- Refutes O31: it has every walk complete the LD operation, but the operation of `remotePrefetch` waits for device 1's answer (R355). -/
theorem not_errorsAndInvalidations : ¬ Obligations.ErrorsAndInvalidations := by
  intro ⟨hclaims, _⟩
  obtain ⟨-, -, hwalks, -⟩ := hclaims remotePrefetch
  obtain ⟨t, ht, -, -, hcrews⟩ := hwalks 0 _ rfl
  obtain ⟨u, hu, -, hopen⟩ := remotePrefetch_walkComplete
  obtain rfl : t = u := Host.Outcome.next.inj (ht.symm.trans hu)
  have hdone : t.crew 0 = (remotePrefetch.completeOn 0 .ld 1).crew 0 := congrArg (fun crews => crews.get 0) hcrews
  rw [hdone, remotePrefetch_completeOn] at hopen
  exact absurd hopen (by decide)

end Sys2Proof.Machine
end

section
namespace Sys2Proof.Machine

/-!
# Requests at their homes (O30)

What a request that performs touches: memory, poison and registrations by `State.perform`, the slices by `State.touchDc`, the ST counters by
`State.settleTags`.
-/

/-! ## Updates of one table -/

theorem State.completeOn_crews (s : State) (k : Nat) (p : Path6) (n : Nat) : ∃ c, s.completeOn k p n = { s with crews := c } := by
  unfold State.completeOn
  split
  · exact ⟨s.crews, rfl⟩
  · exact ⟨_, rfl⟩

theorem State.settleTags_crews (s : State) (ts : List (Nat × Nat)) : ∃ c, s.settleTags ts = { s with crews := c } := by
  induction ts generalizing s with
  | nil => exact ⟨s.crews, rfl⟩
  | cons t r ih =>
    simp only [State.settleTags]
    split
    · exact ih s
    · obtain ⟨c, hc⟩ := s.completeOn_crews t.1 .st t.2
      rw [hc]
      exact ih { s with crews := c }

theorem State.touchDc_dies (s : State) (line mtype : Nat) (write : Bool) : ∃ d, s.touchDc line mtype write = { s with dies := d } := by
  simp only [State.touchDc]
  split
  · exact ⟨s.dies, rfl⟩
  · exact ⟨_, rfl⟩

theorem State.touchWrite_dies (s : State) (bs : List (Nat × Byte)) (types : List (Nat × Nat)) :
    ∃ d, s.touchWrite bs types = { s with dies := d } := by
  unfold State.touchWrite
  generalize bs.foldl (fun l b => if l.contains (b.1 / 128) then l else l ++ [b.1 / 128]) [] = ls
  induction ls generalizing s with
  | nil => exact ⟨s.dies, rfl⟩
  | cons l r ih =>
    obtain ⟨d, hd⟩ := s.touchDc_dies l (((types.find? fun t => t.1 == l).map (·.2)).getD 0) true
    rw [List.foldl_cons, hd]
    exact ih { s with dies := d }

/-! ## Writes -/

theorem lastWrite_cons (b : Nat × Byte) (bs : List (Nat × Byte)) (a : Nat) :
    lastWrite (b :: bs) a = (lastWrite bs a).or (if b.1 = a then some b.2 else none) := by
  by_cases h : b.1 = a <;> cases hf : bs.reverse.find? (fun b => b.1 == a) <;> simp [lastWrite, List.find?_append, h, hf]

/-- Each address holds the last byte written to it. -/
theorem Memory.read_foldl (bs : List (Nat × Byte)) (m : Memory) (a : Nat) :
    (bs.foldl (fun m b => m.write b.1 b.2) m).read a = (lastWrite bs a).getD (m.read a) := by
  induction bs generalizing m with
  | nil => rfl
  | cons b r ih =>
    rw [List.foldl_cons, ih, lastWrite_cons, Memory.read_write]
    by_cases h : a = b.1
    · cases lastWrite r a <;> simp [h]
    · cases lastWrite r a <;> simp [h, Ne.symm h]

theorem wholeWord_iff (bs : List (Nat × Byte)) (w : Nat) : wholeWord bs w = true ↔ ∀ i, i < 4 → ∃ b ∈ bs, b.1 = 4 * w + i := by
  simp [wholeWord]

theorem State.mem_perform_poison (s : State) (bs : List (Nat × Byte)) (w : Nat) :
    w ∈ (s.perform bs).poison ↔ w ∈ s.poison ∧ ¬ ∀ i, i < 4 → ∃ b ∈ bs, b.1 = 4 * w + i := by
  rw [← wholeWord_iff]
  simp [State.perform]

/-- A registration is marked when a byte of its stamp word is written (R172), and otherwise stands. -/
theorem State.mem_perform_regs (s : State) (bs : List (Nat × Byte)) {q : Registration} (hq : q ∈ (s.perform bs).regs) :
    ∃ p ∈ s.regs, q = { p with written := q.written } ∧
      (q.written = true ↔ p.written = true ∨ (p.dev = s.dev ∧ ∃ b ∈ bs, p.pa ≤ b.1 ∧ b.1 < p.pa + 8)) := by
  obtain ⟨p, hp, rfl⟩ := List.mem_map.1 hq
  refine ⟨p, hp, ?_⟩
  by_cases h : p.dev = s.dev ∧ ∃ b ∈ bs, p.pa ≤ b.1 ∧ b.1 < p.pa + 8
  · rw [if_pos (by simpa using h)]
    exact ⟨rfl, ⟨fun _ => .inr h, fun _ => rfl⟩⟩
  · rw [if_neg (by simpa using h)]
    exact ⟨rfl, ⟨.inl, fun hw => hw.resolve_right h⟩⟩

/-- What a read-modify-write makes of memory rests on memory alone. -/
theorem State.rmwAt_mem_congr {s t : State} (h : t.mem = s.mem) (op : AtomOp) (ty : ElemTy) (pa x y : Nat) :
    (t.rmwAt op ty pa x y).mem = (s.rmwAt op ty pa x y).mem := by
  have hold : t.readVal pa (elemBits ty / 8) = s.readVal pa (elemBits ty / 8) := by rw [State.readVal, h, State.readVal]
  simp only [State.rmwAt, hold]
  split
  · simp only [State.performVal, State.perform, h]
  · exact h

theorem State.rmwAt_inflight (s : State) (op : AtomOp) (t : ElemTy) (pa x y : Nat) : (s.rmwAt op t pa x y).inflight = s.inflight := by
  simp only [State.rmwAt]
  split <;> rfl

/-! ## A value written at its home -/

theorem State.performVal_mem (s : State) (a n v : Nat) : (s.performVal a n v).mem = s.mem.writeList a (leBytes n v) := foldl_bytesAt ..

theorem State.readVal_of_performVal {s t : State} {a n v : Nat} (h : t.mem = (s.performVal a n v).mem) : t.readVal a n = v % 256 ^ n := by
  have hbytes := readList_writeList (leBytes n v) s.mem a
  rw [leBytes_length] at hbytes
  rw [State.readVal, h, State.performVal_mem, hbytes, leNat_leBytes]

theorem State.read_performVal_other (s : State) {a n v y : Nat} (h : ¬ inRange a n y) : (s.performVal a n v).mem.read y = s.mem.read y := by
  rw [State.performVal_mem, Memory.read_writeList_other _ _ _ _ (by rw [leBytes_length]; unfold inRange at h; omega)]

/-! ## A request performs -/

/-- A request of this device that is next of its core performs, when R19's map has its bytes. -/
theorem exec_homeAccessPerform {s : State} {k : Nat} {r : HomeReq} (hk : s.inflight[k]? = some r) (hmay : s.mayPerform r = true)
    (hfirst : ∀ q ∈ s.inflight.take k, q.core ≠ r.core) (hdev : r.dev = s.dev) :
    exec (.homeAccessPerform (.inflight k)) s = if ∃ b ∈ r.bytes, isBacked b.1 = false then .fault .unbacked
      else .next ({ s with inflight := s.inflight.eraseIdx k }.performReq r) := by
  have hnone : (s.inflight.take k).any (fun q => q.core == r.core) = false := by simpa using hfirst
  have hback : (decide (r.dev = s.dev) && r.bytes.any fun b => !isBacked b.1) = true ↔ ∃ b ∈ r.bytes, isBacked b.1 = false := by
    simp [hdev]
  change execHomeAccessPerform (.inflight k) s = _
  simp only [execHomeAccessPerform, hk, hmay, hnone, hback, Bool.not_true, Bool.or_self, Bool.false_eq_true, if_false]

theorem performReq_rmw (s : State) {r : HomeReq} {w : Rmw} (hdev : r.dev = s.dev) (hr : r.rmw = some w) :
    (s.performReq r).inflight = s.inflight ∧ (s.performReq r).mem = (s.rmwAt w.op w.ty w.pa w.x w.y).mem := by
  obtain ⟨d, hd⟩ := s.touchDc_dies (w.pa / 128) ((r.types.headD (0, 0)).2) true
  simp only [State.performReq, hdev, hr, hd, if_true]
  obtain ⟨c, hc⟩ := (State.performRmw { s with dies := d } w).settleTags_crews r.tags
  rw [hc]
  exact ⟨State.rmwAt_inflight .., State.rmwAt_mem_congr (by rfl) ..⟩

/-- A write leaves everything but the slices' lines and the ST counters as `State.perform` does. -/
theorem performReq_write (s : State) {r : HomeReq} (hdev : r.dev = s.dev) (hr : r.rmw = none) :
    ∃ d c, s.performReq r = { s.perform r.bytes with dies := d, crews := c } := by
  obtain ⟨d, hd⟩ := s.touchWrite_dies r.bytes r.types
  simp only [State.performReq, hdev, hr, hd, if_true]
  obtain ⟨c, hc⟩ := (State.perform { s with dies := d } r.bytes).settleTags_crews r.tags
  exact ⟨d, c, hc⟩

/-! ## The combining buffer -/

theorem State.flushCb_of_line {s : State} {core : Nat} {e : CbLine} (he : e ∈ (s.core core).cb) :
    ∃ r, s.flushCb core = { s with cores := s.cores.put core { s.core core with cb := [] }, inflight := s.inflight ++ [r] } ∧
      r.core = core ∧ r.dev = s.dev ∧ r.bytes = (s.core core).cb.flatMap (·.bytes) := by
  cases hcb : (s.core core).cb with
  | nil => rw [hcb] at he; cases he
  | cons f fs =>
    simp only [State.flushCb, hcb]
    exact ⟨_, rfl, rfl, rfl, rfl⟩

theorem exec_combiningBufferTimeout {s : State} {core line : Nat} (h : ∃ e ∈ (s.core core).cb, e.line = line) :
    exec (.combiningBufferTimeout core line) s = .next (s.flushCb core) := by
  have hany : ((s.core core).cb.any fun e => e.line == line) = true := by simpa using h
  change execCombiningBufferTimeout core line s = _
  rw [execCombiningBufferTimeout, if_pos hany]

/-- Settles O30: a write is `performReq_write`, an atomic `performReq_rmw`, a buffered line `State.flushCb_of_line`. -/
theorem homesAndBuffers : Obligations.HomesAndBuffers := by
  intro s
  refine ⟨fun k r hk hmay hfirst hdev => ?_, fun core line hline => ?_⟩
  · rw [exec_homeAccessPerform hk hmay hfirst hdev]
    refine ⟨fun h => if_pos h, fun w hw hb => ?_, fun hw hb => ?_⟩
    · rw [if_neg (by simp [hb])]
      obtain ⟨hin, hmem⟩ := performReq_rmw { s with inflight := s.inflight.eraseIdx k } hdev hw
      exact ⟨_, rfl, hin, hmem.trans (State.rmwAt_mem_congr (by rfl) ..)⟩
    · rw [if_neg (by simpa using hb)]
      obtain ⟨d, c, ht⟩ := performReq_write { s with inflight := s.inflight.eraseIdx k } hdev hw
      refine ⟨_, rfl, ?_⟩
      rw [ht]
      exact ⟨rfl, fun a => Memory.read_foldl .., fun w => s.mem_perform_poison r.bytes w, rfl, rfl, fun q hq => s.mem_perform_regs r.bytes hq⟩
  · obtain ⟨e, he, -⟩ := id hline
    obtain ⟨r, hr, hcore, hdev, hbytes⟩ := State.flushCb_of_line he
    refine ⟨_, r, exec_combiningBufferTimeout hline, ?_⟩
    rw [hr]
    refine ⟨rfl, hcore, hdev, hbytes, rfl, rfl, Tbl.get_put_same .., fun k hk => ?_⟩
    exact (Tbl.get_put ..).trans (if_neg hk)

end Sys2Proof.Machine
end

section
namespace Sys2Proof.Machine

/-!
# Rings, fault records, parked requests, the watchdog (O32)
-/

/-! ## Rings: what a change of one leaves (R67, R72) -/

@[simp] theorem State.ring_updRing (s : State) (r : RingSel) (f : Ring → Ring) : (s.updRing r f).ring r = f (s.ring r) := by
  cases r with
  | yard y ag => simp [State.ring, State.updRing]
  | localOb g ob => simp [State.ring, State.updRing, State.get_gang]

/-- A ring's change leaves every gang all but its operand buffers. -/
theorem State.gang_updRing (s : State) (r : RingSel) (f : Ring → Ring) (g : Nat) :
    ∃ obs, (s.updRing r f).gang g = { s.gang g with obs := obs } := by
  cases r with
  | yard y ag => exact ⟨_, rfl⟩
  | localOb h ob =>
    simp only [State.updRing, State.get_gang]
    split
    · next hg => exact ⟨_, by rw [hg]⟩
    · exact ⟨_, rfl⟩

theorem State.modes_updRing (s : State) (r : RingSel) (f : Ring → Ring) (y : Nat) :
    ((s.updRing r f).yards.get y).modes = (s.yards.get y).modes := by
  cases r with
  | yard z ag =>
    simp only [State.updRing, Tbl.get_upd]
    split
    · next hy => rw [hy]
    · rfl
  | localOb g ob => rfl

@[simp] theorem State.ringGeo_updRing (s : State) (r q : RingSel) (f : Ring → Ring) : (s.updRing r f).ringGeo q = s.ringGeo q := by
  cases q with
  | yard y ag => simp only [State.ringGeo, State.yardGeo, State.modes_updRing]
  | localOb g ob =>
    obtain ⟨obs, hg⟩ := s.gang_updRing r f g
    simp only [State.ringGeo, hg]

@[simp] theorem State.eop_updRing (s : State) (r : RingSel) (f : Ring → Ring) (id : Nat) : (s.updRing r f).eop id = s.eop id := by cases r <;> rfl
@[simp] theorem State.mem_updRing (s : State) (r : RingSel) (f : Ring → Ring) : (s.updRing r f).mem = s.mem := by cases r <;> rfl

@[simp] theorem State.gang_live_updRing (s : State) (r : RingSel) (f : Ring → Ring) (g : Nat) : ((s.updRing r f).gang g).live = (s.gang g).live := by
  obtain ⟨obs, hg⟩ := s.gang_updRing r f g
  rw [hg]

/-- Where an operation's bytes lie does not rest on any ring. -/
@[simp] theorem State.engLoc_updRing (s : State) (r : RingSel) (f : Ring → Ring) (o : EngineOp) (x : Shape) (acc : Acc) (a : Nat) :
    (s.updRing r f).engLoc o x acc a = s.engLoc o x acc a := by
  cases r with
  | yard y ag => rfl
  | localOb h ob =>
    obtain ⟨obs, hg⟩ := s.gang_updRing (.localOb h ob) f o.gang
    simp only [State.engLoc, State.spaceLoc, hg]
    rfl

@[simp] theorem State.gatherBox_updRing (s : State) (r : RingSel) (f : Ring → Ring) (got : List Line) (x : Shape) (loc : Nat → Res) (org : DWord) :
    (s.updRing r f).gatherBox got x loc org = s.gatherBox got x loc org := by cases r <;> rfl

theorem joinWait_of_head {l : List Nat} {k : Nat} (h : l.head? = some k) : joinWait l k = l := by
  cases l with
  | nil => cases h
  | cons j r =>
    obtain rfl : j = k := Option.some.inj h
    simp [joinWait]

/-! ## An operation is over -/

/-- The end of an operation of a live gang touches no gang, no yard and no memory; nor does the wait for its last request. -/
theorem State.finishOp_frame (s : State) (id : Nat) (hlive : (s.gang (s.eop id).gang).live = true) (hkind : (s.eop id).kind ≠ .coll) :
    (s.finishOp id).gangs = s.gangs ∧ (s.finishOp id).yards = s.yards ∧ (s.finishOp id).mem = s.mem := by
  have hcoll : ((s.eop id).kind == .coll && (s.eop id).pos != 0 && !(s.eop id).reserved) = false := by simp [hkind]
  have hdrop : ∀ t : State, t.gangs = s.gangs → t.dropGang (s.eop id).gang = t := by
    intro t ht
    have hgang : (t.gang (s.eop id).gang).live = true := by rw [State.gang, ht]; exact hlive
    simp only [State.dropGang, hgang, Bool.true_or, if_true]
  simp only [State.finishOp, hcoll, Bool.false_eq_true, if_false]
  rw [hdrop]
  · split
    · next p _ =>
      obtain ⟨c, hc⟩ := State.completeOn_crews (State.wakeCore { s with
        ops := s.ops.drop id, queues := s.queues.upd (s.eop id).key fun q => q.filter (· != id) } (s.eop id).core stMatrix)
        (s.eop id).crew p (s.eop id).seq
      rw [hc]
      exact ⟨rfl, rfl, rfl⟩
    · exact ⟨rfl, rfl, rfl⟩
  · rfl

theorem State.endMatrix_frame (s : State) (id : Nat) (hspc : tgSpc (s.eop id).stamp = 3) (hlive : (s.gang (s.eop id).gang).live = true)
    (hkind : (s.eop id).kind ≠ .coll) :
    (s.endMatrix id).gangs = s.gangs ∧ (s.endMatrix id).yards = s.yards ∧ (s.endMatrix id).mem = s.mem := by
  have hop : (s.endPayload id 0).eop id = { s.eop id with stage := .performed, status := 0 } := by
    rw [State.endPayload, State.get_eop, if_pos rfl]
  unfold State.endMatrix State.stampOp
  split
  · exact ⟨rfl, rfl, rfl⟩
  · rw [if_pos (by simp [hop, hspc])]
    exact State.finishOp_frame (s.endPayload id 0) id (by rw [hop]; exact hlive) (by rw [hop]; exact hkind)

theorem State.ring_congr {s t : State} (hg : t.gangs = s.gangs) (hy : t.yards = s.yards) (r : RingSel) : t.ring r = s.ring r := by
  cases r with
  | yard y ag => simp only [State.ring, hy]
  | localOb g ob => simp only [State.ring, State.gang, hg]

/-! ## TLD and MMA at their ring (R379, R381) -/

theorem State.tlb_of_ite (c : Prop) [Decidable c] (s : State) (u : List TlbEntry) :
    ∃ t, (if c then s else { s with tlb := u }) = { s with tlb := t } := by
  split
  · exact ⟨s.tlb, rfl⟩
  · exact ⟨u, rfl⟩

theorem State.tlbFill_frame (s : State) (p ctx va : Nat) : ∃ t, s.tlbFill p ctx va = { s with tlb := t } := by
  unfold State.tlbFill
  split
  · exact ⟨s.tlb, rfl⟩
  · exact tlb_of_ite ..

theorem State.kvFill_frame (s : State) (p die : Nat) (h : Word) (off : Nat) : ∃ t, s.kvFill p die h off = { s with tlb := t } := by
  unfold State.kvFill
  split
  · exact tlb_of_ite ..
  · exact ⟨s.tlb, rfl⟩

/-- One address of `State.engSeen`. -/
def State.seenOne (s : State) (o : EngineOp) (x : Shape) (write : Bool) (a : Nat) : State :=
  match s.engLoc o x (if write then .store else .load) a with
  | .ok l =>
    let s := match x.space with
      | 0 => s.tlbFill o.part o.crew a
      | 1 => s.kvFill o.part (dieOf o.core) (BitVec.ofNat 32 x.kvh) a
      | _ => s
    if l.dev = s.dev then s.touchDc (l.pa / 128) l.mtype write else s
  | .bad _ _ => s

theorem State.seenOne_frame (s : State) (o : EngineOp) (x : Shape) (write : Bool) (a : Nat) :
    ∃ t d, s.seenOne o x write a = { s with tlb := t, dies := d } := by
  have hfill : ∃ t, (match x.space with
      | 0 => s.tlbFill o.part o.crew a
      | 1 => s.kvFill o.part (dieOf o.core) (BitVec.ofNat 32 x.kvh) a
      | _ => s) = { s with tlb := t } := by
    split
    · exact s.tlbFill_frame ..
    · exact s.kvFill_frame ..
    · exact ⟨s.tlb, rfl⟩
  obtain ⟨t, ht⟩ := hfill
  unfold State.seenOne
  split
  · next l _ =>
    dsimp only
    rw [ht]
    split
    · obtain ⟨d, hd⟩ := State.touchDc_dies { s with tlb := t } (l.pa / 128) l.mtype write
      exact ⟨t, d, hd⟩
    · exact ⟨t, s.dies, rfl⟩
  · exact ⟨s.tlb, s.dies, rfl⟩

/-- What an operation has seen fills caches: no ring, no gang and no operation changes. -/
theorem State.engSeen_frame (s : State) (o : EngineOp) (x : Shape) (write : Bool) (as : List Nat) :
    ∃ t d, s.engSeen o x write as = { s with tlb := t, dies := d } := by
  have hfold : ∀ (ls : List Nat) (s : State), ∃ t d,
      ls.foldl (fun s n => s.seenOne o x write ((as.find? fun a => a / 128 == n).getD 0)) s = { s with tlb := t, dies := d } := by
    intro ls
    induction ls with
    | nil => exact fun s => ⟨s.tlb, s.dies, rfl⟩
    | cons n r ih =>
      intro s
      obtain ⟨t, d, hone⟩ := s.seenOne_frame o x write ((as.find? fun a => a / 128 == n).getD 0)
      rw [List.foldl_cons, hone]
      exact ih { s with tlb := t, dies := d }
  exact hfold _ s

/-- The box that a TLD reads. -/
def State.tldBox (s t : State) (id : Nat) : Gather :=
  t.gatherBox (s.eop id).got (shapeOf (s.eop id).recS (s.eop id).tabS).flat
    (t.engLoc (s.eop id) (shapeOf (s.eop id).recS (s.eop id).tabS) .load) (s.eop id).orgS

theorem State.tldBox_updRing (s : State) (r : RingSel) (f : Ring → Ring) (id : Nat) : s.tldBox (s.updRing r f) id = s.tldBox s id := by
  have hloc : (s.updRing r f).engLoc (s.eop id) (shapeOf (s.eop id).recS (s.eop id).tabS) .load =
    s.engLoc (s.eop id) (shapeOf (s.eop id).recS (s.eop id).tabS) .load := funext fun a => s.engLoc_updRing ..
  rw [State.tldBox, hloc, State.gatherBox_updRing, State.tldBox]

theorem State.runTld_of_first {s : State} {id : Nat} {r : RingSel} {geo : RingGeo}
    (hring : s.obRing (s.eop id).gang (s.eop id).oba = some r) (hgeo : s.ringGeo r = some geo)
    (hhead : (s.ring r).fillers.head? = some (opWaiter id)) (hroom : (s.ring r).canFill = true)
    (hbad : (s.tldBox s id).bad = none) (hneed : (s.tldBox s id).need = []) :
    ∃ (u : State) (span : Nat), s.runTld id = (u.endFill r (opWaiter id) span (opWaiter id)).endMatrix id ∧
      u.gangs = (s.arriveFill r (opWaiter id)).gangs ∧ u.yards = (s.arriveFill r (opWaiter id)).yards ∧ u.ops = (s.arriveFill r (opWaiter id)).ops := by
  have hbox : s.tldBox (s.arriveFill r (opWaiter id)) id = s.tldBox s id := s.tldBox_updRing ..
  have hmay : (s.arriveFill r (opWaiter id)).mayFill r (opWaiter id) = true := by
    simp [State.mayFill, State.arriveFill, joinWait_of_head hhead, hhead, hroom]
  have hgeo' : (s.arriveFill r (opWaiter id)).ringGeo r = some geo := (s.ringGeo_updRing ..).trans hgeo
  have hstep : ∃ bs pas, s.runTld id =
      (((((s.arriveFill r (opWaiter id)).engSeen (s.eop id) (shapeOf (s.eop id).recS (s.eop id).tabS) false
          ((shapeOf (s.eop id).recS (s.eop id).tabS).flat.touched (s.eop id).orgS)).perform bs).poisonAt pas).endFill r (opWaiter id)
          (spanCode (shapeOf (s.eop id).recS (s.eop id).tabS)) (opWaiter id)).endMatrix id := by
    rw [← hbox] at hbad hneed
    unfold State.tldBox at hbad hneed
    apply Exists.intro
    apply Exists.intro
    simp only [State.runTld, hring, hgeo', hmay, Bool.not_true, Bool.false_eq_true, if_false, hbad, hneed, List.isEmpty_nil]
    rfl
  obtain ⟨bs, pas, hstep⟩ := hstep
  obtain ⟨t, d, hseen⟩ := (s.arriveFill r (opWaiter id)).engSeen_frame (s.eop id) (shapeOf (s.eop id).recS (s.eop id).tabS) false
    ((shapeOf (s.eop id).recS (s.eop id).tabS).flat.touched (s.eop id).orgS)
  rw [hseen] at hstep
  exact ⟨_, _, hstep, rfl, rfl, rfl⟩

/-- A matrix operation of a live gang whose turn has come performs on its tile. -/
theorem State.runMatrix_of_turn {s : State} {id : Nat} (hlive : (s.eop id).live = true) (hstage : (s.eop id).stage = .accepted)
    (hgang : (s.gang (s.eop id).gang).live = true) (hsaved : (s.gang (s.eop id).gang).saved = false) (hheld : s.matrixHeld id = false) :
    ((s.eop id).kind = .tld → s.runMatrix id = s.runTld id) ∧
    ((s.eop id).kind = .mma → (s.eop id).tile < tilesPerCore → s.runMatrix id = s.runMma id) := by
  refine ⟨fun hk => ?_, fun hk htile => ?_⟩
  · have huse : usesTile .tld = false := rfl
    have heng : opEngine .tld = .matrix := rfl
    simp [State.runMatrix, hlive, hstage, hgang, hsaved, hheld, hk, huse, heng]
  · have huse : usesTile .mma = true := rfl
    have heng : opEngine .mma = .matrix := rfl
    have htake : s.takeTile id = some s := by
      rw [State.takeTile, if_pos (show (s.eop id).tile ≠ tilesPerCore + id by omega)]
    simp [State.runMatrix, hlive, hstage, hgang, hsaved, hheld, hk, huse, heng, htake]

theorem State.runWaiter_op (s : State) {id : Nat} (hid : id < 2 ^ 56) : s.runWaiter (opWaiter id) = s.runMatrix id := by
  have hsmall : ¬ opWaiter id ≥ 2 ^ 60 := by unfold opWaiter; omega
  have hmod : opWaiter id % 16 = 0 := by unfold opWaiter; omega
  have hdiv : opWaiter id / 16 = id := by unfold opWaiter; omega
  rw [State.runWaiter, if_neg hsmall, if_pos hmod, hdiv]

theorem exec_yardRegionFill {s : State} {r : RingSel} {k : Nat} (hhead : (s.ring r).fillers.head? = some k) (hroom : (s.ring r).canFill = true) :
    exec (.yardRegionFill r) s = .next (s.runWaiter k) := by
  obtain ⟨rest, hfill⟩ := List.head?_eq_some_iff.1 hhead
  change execYardRegionFill r s = _
  simp only [execYardRegionFill, hfill, hroom, if_true]

theorem exec_yardRegionConsume {s : State} {r : RingSel} {k : Nat} (hhead : (s.ring r).consumers.head? = some k)
    (hfull : (s.ring r).canRead = true) : exec (.yardRegionConsume r) s = .next (s.runWaiter k) := by
  obtain ⟨rest, hread⟩ := List.head?_eq_some_iff.1 hhead
  change execYardRegionConsume r s = _
  simp only [execYardRegionConsume, hread, hfull, if_true]

theorem State.ring_endFill {s : State} {r : RingSel} {geo : RingGeo} (hgeo : s.ringGeo r = some geo) (k span owner : Nat) :
    (s.endFill r k span owner).ring r = { (s.ring r).setFull geo.n span owner with fillers := (s.ring r).fillers.filter (· != k) } := by
  simp only [State.endFill, hgeo, State.ring_updRing]

theorem State.ring_endRead {s : State} {r : RingSel} {geo : RingGeo} (hgeo : s.ringGeo r = some geo) (k : Nat) (keep : Bool) :
    (s.endRead r k keep).ring r = { (if keep then s.ring r else (s.ring r).setEmpty geo.n) with
      consumers := (s.ring r).consumers.filter (· != k) } := by
  simp only [State.endRead, hgeo, State.ring_updRing]


/-- What the end of a fill or a read leaves to the operation that follows. -/
theorem State.endFill_frame (s : State) (r : RingSel) (k span owner : Nat) :
    (∀ g, ((s.endFill r k span owner).gang g).live = (s.gang g).live) ∧ (∀ id, (s.endFill r k span owner).eop id = s.eop id) := by
  unfold State.endFill
  split
  · exact ⟨fun g => s.gang_live_updRing .., fun id => s.eop_updRing ..⟩
  · exact ⟨fun _ => rfl, fun _ => rfl⟩

theorem State.endRead_frame (s : State) (r : RingSel) (k : Nat) (keep : Bool) :
    (∀ g, ((s.endRead r k keep).gang g).live = (s.gang g).live) ∧ (∀ id, (s.endRead r k keep).eop id = s.eop id) ∧
    (s.endRead r k keep).mem = s.mem := by
  unfold State.endRead
  split
  · exact ⟨fun g => s.gang_live_updRing .., fun id => s.eop_updRing .., s.mem_updRing ..⟩
  · exact ⟨fun _ => rfl, fun _ => rfl, rfl⟩

theorem State.runMma_of_first {s : State} {id : Nat} {r : RingSel} {geo : RingGeo}
    (ha : s.obRing (s.eop id).gang (s.eop id).oba = some r) (hb : s.obRing (s.eop id).gang (s.eop id).obb = some r) (hgeo : s.ringGeo r = some geo)
    (hhead : (s.ring r).consumers.head? = some (opWaiter id)) (hfull : (s.ring r).canRead = true) :
    ∃ f, s.runMma id = (((((s.arriveRead r (opWaiter id)).arriveRead r (opWaiter id)).updTile (s.eop id).core (s.eop id).tile f).endRead r (opWaiter id)
      ((s.eop id).ka && (s.eop id).kb)).endMatrix id) := by
  have hmay : ((s.arriveRead r (opWaiter id)).arriveRead r (opWaiter id)).mayRead r (opWaiter id) = true := by
    simp [State.mayRead, State.arriveRead, joinWait_of_head hhead, hhead, hfull]
  have hgeo' : ((s.arriveRead r (opWaiter id)).arriveRead r (opWaiter id)).ringGeo r = some geo := by
    rw [State.arriveRead, State.ringGeo_updRing, State.arriveRead, State.ringGeo_updRing, hgeo]
  apply Exists.intro
  simp only [State.runMma, ha, hb, hmay, hgeo', Bool.and_self, if_true]
  rfl

/-! ## A ring's turn ends -/

/-- The ring that an operation leaves when it ends right after its fill. -/
theorem State.ring_endFill_endMatrix {u v : State} {id : Nat} {r : RingSel} {geo : RingGeo} {k span owner : Nat}
    (hgangs : u.gangs = v.gangs) (hyards : u.yards = v.yards) (hops : u.ops = v.ops) (hgeo : v.ringGeo r = some geo)
    (hspc : tgSpc (v.eop id).stamp = 3) (hlive : (v.gang (v.eop id).gang).live = true) (hkind : (v.eop id).kind ≠ .coll) :
    ((u.endFill r k span owner).endMatrix id).ring r =
      { (v.ring r).setFull geo.n span owner with fillers := (v.ring r).fillers.filter (· != k) } := by
  obtain ⟨hend, heop⟩ := u.endFill_frame r k span owner
  have hop : u.eop id = v.eop id := by rw [State.eop, hops]; rfl
  have hgeo' : u.ringGeo r = some geo := by
    rw [← hgeo]
    cases r with
    | yard y ag => simp only [State.ringGeo, State.yardGeo, hyards]
    | localOb g ob => rw [State.ringGeo, State.ringGeo, State.gang, State.gang, hgangs]
  have hgang : (u.gang (v.eop id).gang).live = true := by rw [State.gang, hgangs]; exact hlive
  obtain ⟨hg, hy, -⟩ := State.endMatrix_frame (u.endFill r k span owner) id (by rw [heop, hop]; exact hspc)
    (by rw [heop, hop, hend]; exact hgang) (by rw [heop, hop]; exact hkind)
  rw [State.ring_congr hg hy, State.ring_endFill hgeo', State.ring_congr hgangs hyards]

theorem State.ring_arriveFill_of_head {s : State} {r : RingSel} {k : Nat} (h : (s.ring r).fillers.head? = some k) :
    (s.arriveFill r k).ring r = s.ring r := by
  rw [State.arriveFill, State.ring_updRing, joinWait_of_head h]

theorem State.ring_arriveRead_of_head {s : State} {r : RingSel} {k : Nat} (h : (s.ring r).consumers.head? = some k) :
    (s.arriveRead r k).ring r = s.ring r := by
  rw [State.arriveRead, State.ring_updRing, joinWait_of_head h]

theorem State.arriveRead_frame (s : State) (r : RingSel) (k id : Nat) :
    (s.arriveRead r k).eop id = s.eop id ∧ (s.arriveRead r k).mem = s.mem ∧ (s.arriveRead r k).ringGeo r = s.ringGeo r ∧
    ∀ g, ((s.arriveRead r k).gang g).live = (s.gang g).live :=
  ⟨s.eop_updRing .., s.mem_updRing .., s.ringGeo_updRing .., fun _ => s.gang_live_updRing ..⟩

/-- The ring and the memory that an operation leaves when it ends right after its read. -/
theorem State.endRead_endMatrix {u : State} {id : Nat} {r : RingSel} {geo : RingGeo} {k : Nat} {keep : Bool} (hgeo : u.ringGeo r = some geo)
    (hspc : tgSpc (u.eop id).stamp = 3) (hlive : (u.gang (u.eop id).gang).live = true) (hkind : (u.eop id).kind ≠ .coll) :
    ((u.endRead r k keep).endMatrix id).ring r = { (if keep then u.ring r else (u.ring r).setEmpty geo.n) with
      consumers := (u.ring r).consumers.filter (· != k) } ∧ ((u.endRead r k keep).endMatrix id).mem = u.mem := by
  obtain ⟨hend, heop, hmem⟩ := u.endRead_frame r k keep
  obtain ⟨hg, hy, hm⟩ := State.endMatrix_frame (u.endRead r k keep) id (by rw [heop]; exact hspc) (by rw [heop, hend]; exact hlive)
    (by rw [heop]; exact hkind)
  exact ⟨by rw [State.ring_congr hg hy, State.ring_endRead hgeo], hm.trans hmem⟩

theorem yardRegionFill_tld {s : State} {id : Nat} {r : RingSel} {geo : RingGeo} (hid : id < 2 ^ 56) (hspc : tgSpc (s.eop id).stamp = 3)
    (hgang : (s.gang (s.eop id).gang).live = true) (hgeo : s.ringGeo r = some geo) (hkind : (s.eop id).kind = .tld)
    (hturn : s.runMatrix id = s.runTld id) (hring : s.obRing (s.eop id).gang (s.eop id).oba = some r)
    (hhead : (s.ring r).fillers.head? = some (opWaiter id)) (hroom : (s.ring r).canFill = true)
    (hbad : (s.tldBox s id).bad = none) (hneed : (s.tldBox s id).need = []) :
    ∃ t, exec (.yardRegionFill r) s = .next t ∧ (t.ring r).full = (s.ring r).full ++ [(s.ring r).fill] ∧
      (t.ring r).fill = ((s.ring r).fill + 1) % geo.n ∧ (t.ring r).read = (s.ring r).read ∧ (t.ring r).consumers = (s.ring r).consumers := by
  obtain ⟨u, span, hrun, hg, hy, ho⟩ := State.runTld_of_first hring hgeo hhead hroom hbad hneed
  have hop : (s.arriveFill r (opWaiter id)).eop id = s.eop id := s.eop_updRing ..
  have hend := State.ring_endFill_endMatrix (id := id) (k := opWaiter id) (span := span) (owner := opWaiter id) hg hy ho
    ((s.ringGeo_updRing ..).trans hgeo) (by rw [hop]; exact hspc)
    (by rw [hop]; exact (s.gang_live_updRing ..).trans hgang) (by rw [hop, hkind]; nofun)
  rw [State.ring_arriveFill_of_head hhead] at hend
  refine ⟨_, exec_yardRegionFill hhead hroom, ?_⟩
  rw [State.runWaiter_op s hid, hturn, hrun, hend]
  exact ⟨rfl, rfl, rfl, rfl⟩

theorem yardRegionConsume_mma {s : State} {id : Nat} {r : RingSel} {geo : RingGeo} (hid : id < 2 ^ 56) (hspc : tgSpc (s.eop id).stamp = 3)
    (hgang : (s.gang (s.eop id).gang).live = true) (hgeo : s.ringGeo r = some geo) (hkind : (s.eop id).kind = .mma)
    (hturn : s.runMatrix id = s.runMma id) (ha : s.obRing (s.eop id).gang (s.eop id).oba = some r)
    (hb : s.obRing (s.eop id).gang (s.eop id).obb = some r) (hhead : (s.ring r).consumers.head? = some (opWaiter id))
    (hfull : (s.ring r).canRead = true) :
    ∃ t, exec (.yardRegionConsume r) s = .next t ∧
      (t.ring r).full = (if (s.eop id).ka = true ∧ (s.eop id).kb = true then (s.ring r).full else (s.ring r).full.filter fun i => i != (s.ring r).read) ∧
      (t.ring r).read = (if (s.eop id).ka = true ∧ (s.eop id).kb = true then (s.ring r).read else ((s.ring r).read + 1) % geo.n) ∧
      (t.ring r).fill = (s.ring r).fill ∧ t.mem = s.mem := by
  obtain ⟨f, hrun⟩ := State.runMma_of_first ha hb hgeo hhead hfull
  let v := (s.arriveRead r (opWaiter id)).arriveRead r (opWaiter id)
  obtain ⟨hop, hmem, hgeo', hlive⟩ : v.eop id = s.eop id ∧ v.mem = s.mem ∧ v.ringGeo r = some geo ∧ ∀ g, (v.gang g).live = (s.gang g).live := by
    obtain ⟨ho, hm, hg, hl⟩ := s.arriveRead_frame r (opWaiter id) id
    obtain ⟨ho', hm', hg', hl'⟩ := (s.arriveRead r (opWaiter id)).arriveRead_frame r (opWaiter id) id
    exact ⟨ho'.trans ho, hm'.trans hm, (hg'.trans hg).trans hgeo, fun g => (hl' g).trans (hl g)⟩
  have hring : v.ring r = s.ring r := by
    have hone := State.ring_arriveRead_of_head hhead
    rw [State.ring_arriveRead_of_head (by rw [hone]; exact hhead), hone]
  obtain ⟨hend, hm⟩ := State.endRead_endMatrix (u := v.updTile (s.eop id).core (s.eop id).tile f) (id := id) (k := opWaiter id)
    (keep := (s.eop id).ka && (s.eop id).kb) (geo := geo) (r := r) hgeo' (by rw [← hop] at hspc; exact hspc)
    (by rw [← hop, ← hlive] at hgang; exact hgang) (by rw [← hop] at hkind; exact fun h => by cases hkind.symm.trans h)
  have hring' : (v.updTile (s.eop id).core (s.eop id).tile f).ring r = s.ring r := hring
  rw [hring'] at hend
  refine ⟨_, exec_yardRegionConsume hhead hfull, ?_⟩
  rw [State.runWaiter_op s hid, hturn, hrun, hend, hm]
  cases (s.eop id).ka <;> cases (s.eop id).kb <;> exact ⟨rfl, rfl, rfl, hmem⟩

theorem rings : Claims.Rings := by
  intro s id r geo _ _ hid hspc hlive hstage hgang hsaved hheld hgeo
  obtain ⟨htld, hmma⟩ := State.runMatrix_of_turn hlive hstage hgang hsaved hheld
  exact ⟨fun hkind hring hhead hroom hbad hneed =>
      yardRegionFill_tld hid hspc hgang hgeo hkind (htld hkind) hring hhead hroom hbad hneed,
    fun hkind ha hb htile hhead hfull => yardRegionConsume_mma hid hspc hgang hgeo hkind (hmma hkind htile) ha hb hhead hfull⟩

/-! ## Fault records (R443) -/

theorem State.emit_dies (s : State) (die part : Nat) (r : BitVec 256) : ∃ d, s.emit die part r = { s with dies := d } := by
  unfold State.emit
  split
  · exact ⟨s.dies, rfl⟩
  · exact ⟨_, rfl⟩

theorem exec_faultRecordDeliver_ok {s u : State} {die : Nat} {r : PendRec} (hr : s.nextRec die = some r) (hu : s.writeRec r = .ok u) :
    exec (.faultRecordDeliver die) s =
      .next ((u.updPart r.part fun p => { p with frSeq := p.frSeq + 1 }).updDie die fun d => { d with recs := d.recs.erase r }) := by
  change execFaultRecordDeliver die s = _
  simp only [execFaultRecordDeliver, hr, hu]

theorem exec_faultRecordDeliver_error {s : State} {die : Nat} {r : PendRec} {c : BitVec 8} (hr : s.nextRec die = some r)
    (hc : s.writeRec r = .error c) : exec (.faultRecordDeliver die) s = .next (s.recFails die r) := by
  change execFaultRecordDeliver die s = _
  simp only [execFaultRecordDeliver, hr, hc]

/-- Without a stamp a record is its one write, at its ring place. -/
theorem State.writeRec_unstamped {s : State} {r : PendRec} {pa mt : Nat} (hstamp : (s.part r.part).frStamp = 0)
    (hx : s.unitXlat r.part true .store (bitsOf (s.part r.part).frRing 12 44 * 4096 +
      32 * ((s.part r.part).frSeq % 2 ^ bitsOf (s.part r.part).frRing 59 5)) = .ok s.dev pa mt) :
    s.writeRec r = .ok (s.performVal pa 32 (r.bits.toNat / 2 ^ 64 * 2 ^ 64 + (s.part r.part).frSeq)) := by
  simp only [State.writeRec, State.unitWrite, Partition.frLog, hx, State.writeOut, if_true, hstamp, beq_self_eq_true]
  rfl

theorem faultRecordDeliver_ok {s u : State} {die : Nat} {r : PendRec} (hr : s.nextRec die = some r) (hu : s.writeRec r = .ok u) :
    ∃ t, exec (.faultRecordDeliver die) s = .next t ∧ t.mem = u.mem ∧ (t.part r.part).frSeq = (u.part r.part).frSeq + 1 ∧
      (t.die die).recs = (u.die die).recs.erase r := by
  refine ⟨_, exec_faultRecordDeliver_ok hr hu, rfl, ?_, ?_⟩
  · change ((u.updPart r.part _).part r.part).frSeq = _
    rw [State.get_part, if_pos rfl]
  · rw [State.get_die, if_pos rfl]
    rfl

theorem faultRecordDeliver_written {s : State} {die : Nat} {r : PendRec} {pa mt : Nat} (hr : s.nextRec die = some r)
    (hstamp : (s.part r.part).frStamp = 0) (hseq : (s.part r.part).frSeq < 2 ^ 64)
    (hx : s.unitXlat r.part true .store (bitsOf (s.part r.part).frRing 12 44 * 4096 +
      32 * ((s.part r.part).frSeq % 2 ^ bitsOf (s.part r.part).frRing 59 5)) = .ok s.dev pa mt) :
    ∃ t, exec (.faultRecordDeliver die) s = .next t ∧ t.readVal pa 32 = r.bits.toNat / 2 ^ 64 * 2 ^ 64 + (s.part r.part).frSeq ∧
      ∀ a, ¬ inRange pa 32 a → t.mem.read a = s.mem.read a := by
  obtain ⟨t, ht, hmem, -⟩ := faultRecordDeliver_ok hr (State.writeRec_unstamped hstamp hx)
  have hlt : r.bits.toNat / 2 ^ 64 * 2 ^ 64 + (s.part r.part).frSeq < 256 ^ 32 := by
    have := r.bits.isLt
    omega
  refine ⟨t, ht, ?_, fun a ha => ?_⟩
  · rw [State.readVal_of_performVal hmem, Nat.mod_eq_of_lt hlt]
  · rw [hmem, State.read_performVal_other _ ha]

theorem faultRecordDeliver_error {s : State} {die : Nat} {r : PendRec} {c : BitVec 8} (hr : s.nextRec die = some r)
    (hc : s.writeRec r = .error c) :
    ∃ t, exec (.faultRecordDeliver die) s = .next t ∧ t.mem = s.mem ∧ (t.part r.part).frBlocked = true ∧
      (t.part r.part).frSeq = (s.part r.part).frSeq ∧ (t.die die).recs.length = (s.die die).recs.length := by
  have hpart : (s.recFails die r).part r.part = { s.part r.part with frBlocked := true } := by
    change (s.updPart r.part _).part r.part = _
    rw [State.get_part, if_pos rfl]
  refine ⟨_, exec_faultRecordDeliver_error hr hc, rfl, by rw [hpart], by rw [hpart], ?_⟩
  rw [State.recFails, State.get_die, if_pos rfl]
  exact List.length_map ..

/-! ## Parked requests (R34, R35) -/

theorem State.crew_updCrew_of_crews {s t : State} {k : Nat} {f : Crew → Crew} (h : t.crews = s.crews) : (t.updCrew k f).crew k = f (s.crew k) := by
  rw [State.get_crew, if_pos rfl, State.crew, h]; rfl

theorem State.raiseAt_crew {s : State} {k : Nat} {c : Crew} {e : Exc} (h : s.crew k = c) :
    (s.raiseAt k e).crew k = { c with stall := stNone, sett := { c.sett with exc := some e } } :=
  h ▸ State.crew_updCrew_of_crews rfl

theorem exec_fqResumeReplay {s : State} {die entry : Nat} (hv : ((s.die die).fq.get entry).valid = true)
    (hturn : (s.die die).fqTurn ((s.die die).fq.get entry) = true) (hact : ((s.die die).fq.get entry).act = 1) (hroom : s.recRoom die 1 = true) :
    exec (.fqResumeReplay die entry) s = .next ((s.freeFqEntry die entry).replay die ((s.die die).fq.get entry)) := by
  change execFqResumeReplay die entry s = _
  simp [execFqResumeReplay, hv, hturn, hact, hroom]

theorem State.fq_freeFqEntry (s : State) (die entry : Nat) :
    (s.freeFqEntry die entry).die die = { s.die die with fq := (s.die die).fq.put entry default } := by
  rw [State.freeFqEntry, State.get_die, if_pos rfl]

theorem State.freeFqEntry_valid (s : State) (die entry : Nat) : (((s.freeFqEntry die entry).die die).fq.get entry).valid = false := by
  rw [State.fq_freeFqEntry, Tbl.get_put_same]
  rfl

/-- A freed entry can be taken again. -/
theorem State.freeFq_freeFqEntry (s : State) {die entry : Nat} (h : entry < 1024) : ∃ i, ((s.freeFqEntry die entry).die die).freeFq = some i := by
  refine Option.isSome_iff_exists.1 (List.find?_isSome.2 ⟨entry, List.mem_range.2 h, ?_⟩)
  rw [State.freeFqEntry_valid]
  rfl

/-- A load whose page is there now goes on. -/
theorem State.rerunLoad_ok {s : State} {k epoch die d pa mt : Nat} {e : FqEntry} (hw : s.waitsOn k epoch = true)
    (hx : s.kvXlat e.part die e.aux e.addr.toNat false = .ok d pa mt) :
    s.rerunLoad k epoch die e = (s.kvFill e.part die e.aux e.addr.toNat).updCrew k fun c =>
      { c with stall := stNone, sett := { c.sett with kvParked := none } } := by
  simp only [State.rerunLoad, hx, hw, if_true]

/-- A load whose page is absent still parks again. -/
theorem State.rerunLoad_miss {s : State} {k epoch die i : Nat} {e : FqEntry} (hw : s.waitsOn k epoch = true)
    (hx : s.kvXlat e.part die e.aux e.addr.toNat false = .bad cKvMiss) (hi : (s.die die).freeFq = some i) :
    s.rerunLoad k epoch die e = (s.park die i { e with act := 0 }).updCrew k fun c =>
      { c with sett := { c.sett with kvParked := c.sett.kvParked.map fun p => (p.1, i) } } := by
  simp only [State.rerunLoad, hx, hi, hw, if_true, beq_self_eq_true]

/-- What parking leaves: the entry, and one more record of a partition that exists. -/
theorem State.die_park (s : State) (die i : Nat) (e : FqEntry) (hp : (s.part e.part).present = true) :
    ∃ r n, (s.park die i e).die die = { s.die die with
      fq := (s.die die).fq.put i { e with valid := true, order := (s.die die).fqOrder }, fqOrder := n, recs := (s.die die).recs ++ [r] } := by
  have hp' : ∀ f, ((s.updDie die f).part e.part).present = true := fun _ => hp
  apply Exists.intro
  apply Exists.intro
  simp only [State.park, State.emit, hp', Bool.not_true, Bool.false_eq_true, if_false, State.get_die, if_true]
  rfl

theorem State.emit_crews (s : State) (die part : Nat) (r : BitVec 256) : (s.emit die part r).crews = s.crews := by
  obtain ⟨d, hd⟩ := s.emit_dies die part r
  rw [hd]

theorem State.park_crews (s : State) (die i : Nat) (e : FqEntry) : (s.park die i e).crews = s.crews := State.emit_crews ..

theorem State.waitsOn_freeFqEntry {s : State} {k epoch : Nat} (hplace : (s.crew k).place ≠ .free) (hepoch : (s.crew k).epoch = epoch) (die entry : Nat) :
    (s.freeFqEntry die entry).waitsOn k epoch = true := by
  change ((s.crew k).place != .free && (s.crew k).epoch == epoch) = true
  simp [hplace, hepoch]

theorem fqResumeReplay_ok {s : State} {die entry k slot lane epoch d pa mt : Nat} (hv : ((s.die die).fq.get entry).valid = true)
    (hturn : (s.die die).fqTurn ((s.die die).fq.get entry) = true) (hwho : ((s.die die).fq.get entry).who = .ldkv k slot lane epoch)
    (hplace : (s.crew k).place ≠ .free) (hepoch : (s.crew k).epoch = epoch) (hact : ((s.die die).fq.get entry).act = 1)
    (hroom : s.recRoom die 1 = true) (hx : s.kvXlat ((s.die die).fq.get entry).part die ((s.die die).fq.get entry).aux
      ((s.die die).fq.get entry).addr.toNat false = .ok d pa mt) :
    ∃ t, exec (.fqResumeReplay die entry) s = .next t ∧ ((t.die die).fq.get entry).valid = false ∧ t.mem = s.mem ∧
      t.crew k = { s.crew k with stall := 0, sett := { (s.crew k).sett with kvParked := none } } := by
  refine ⟨_, exec_fqResumeReplay hv hturn hact hroom, ?_⟩
  simp only [State.replay, hwho]
  rw [State.rerunLoad_ok (State.waitsOn_freeFqEntry hplace hepoch die entry) (d := d) (pa := pa) (mt := mt) hx]
  obtain ⟨l, hl⟩ := (s.freeFqEntry die entry).kvFill_frame ((s.die die).fq.get entry).part die ((s.die die).fq.get entry).aux
    ((s.die die).fq.get entry).addr.toNat
  rw [hl]
  exact ⟨s.freeFqEntry_valid die entry, rfl, State.crew_updCrew_of_crews rfl⟩

theorem fqResumeReplay_miss {s : State} {die entry k slot lane epoch : Nat} (hv : ((s.die die).fq.get entry).valid = true)
    (hturn : (s.die die).fqTurn ((s.die die).fq.get entry) = true) (hwho : ((s.die die).fq.get entry).who = .ldkv k slot lane epoch)
    (hplace : (s.crew k).place ≠ .free) (hepoch : (s.crew k).epoch = epoch) (hact : ((s.die die).fq.get entry).act = 1)
    (hroom : s.recRoom die 1 = true) (hx : s.kvXlat ((s.die die).fq.get entry).part die ((s.die die).fq.get entry).aux
      ((s.die die).fq.get entry).addr.toNat false = .bad cKvMiss) (hentry : entry < 1024)
    (hpart : (s.part ((s.die die).fq.get entry).part).present = true) :
    ∃ t i, exec (.fqResumeReplay die entry) s = .next t ∧ t.mem = s.mem ∧ (t.die die).recs.length = (s.die die).recs.length + 1 ∧
      ((t.die die).fq.get i).valid = true ∧ ((t.die die).fq.get i).who = ((s.die die).fq.get entry).who ∧ ((t.die die).fq.get i).act = 0 ∧
      (t.crew k).sett.kvParked = (s.crew k).sett.kvParked.map fun p => (p.1, i) := by
  obtain ⟨i, hi⟩ := s.freeFq_freeFqEntry (die := die) hentry
  refine ⟨_, i, exec_fqResumeReplay hv hturn hact hroom, ?_⟩
  simp only [State.replay, hwho]
  rw [State.rerunLoad_miss (State.waitsOn_freeFqEntry hplace hepoch die entry) hx hi]
  generalize ((s.die die).fq.get entry) = e at *
  obtain ⟨r, n, hdie⟩ := (s.freeFqEntry die entry).die_park die i { e with act := 0 } hpart
  have hdie' : ∀ f, (((s.freeFqEntry die entry).park die i { e with act := 0 }).updCrew k f).die die = _ := fun _ => hdie
  rw [hdie', State.fq_freeFqEntry, Tbl.get_put_same]
  exact ⟨State.park_mem .., List.length_append, rfl, hwho, rfl, congrArg (·.sett.kvParked) (State.crew_updCrew_of_crews (State.park_crews ..))⟩

theorem fqResumeCancel_load {s : State} {die entry k slot lane epoch : Nat} (hv : ((s.die die).fq.get entry).valid = true)
    (hturn : (s.die die).fqTurn ((s.die die).fq.get entry) = true) (hwho : ((s.die die).fq.get entry).who = .ldkv k slot lane epoch)
    (hplace : (s.crew k).place ≠ .free) (hepoch : (s.crew k).epoch = epoch) (hact : ((s.die die).fq.get entry).act = 2) :
    ∃ t, exec (.fqResumeCancel die entry) s = .next t ∧ ((t.die die).fq.get entry).valid = false ∧ t.mem = s.mem ∧
      t.crew k = { s.crew k with
        stall := 0, sett := { (s.crew k).sett with kvParked := none, exc := some ⟨cKvMiss, ((s.die die).fq.get entry).addr, slot, lane, 0⟩ } } := by
  have hexec : exec (.fqResumeCancel die entry) s = .next ((s.freeFqEntry die entry).cancel ((s.die die).fq.get entry)) := by
    change execFqResumeCancel die entry s = _
    simp [execFqResumeCancel, hv, hturn, hact, hwho, State.mayCancel]
  refine ⟨_, hexec, ?_⟩
  simp only [State.cancel, hwho, State.waitsOn_freeFqEntry hplace hepoch die entry, if_true]
  refine ⟨s.freeFqEntry_valid die entry, rfl, ?_⟩
  exact State.raiseAt_crew (State.crew_updCrew_of_crews (s := s) rfl)

/-! ## The watchdog (R441) -/

theorem State.discard_crew (s : State) (k : Nat) :
    ∃ t n, (s.discard k).crew k = { s.crew k with sett := t, epoch := n } ∧ (s.discard k).parts = s.parts := by
  simp only [State.discard]
  split
  · exact ⟨_, _, rfl, rfl⟩
  · exact ⟨default, (s.crew k).epoch + 1, State.crew_updCrew_of_crews (by rfl), rfl⟩

theorem bitsOf_trCauseWord (mask : Word) (lane slot : Nat) (flags : BitVec 5) (hold level : Bool) (cause : BitVec 8) :
    bitsOf (trCauseWord mask lane slot flags hold level cause) 0 8 = cause.toNat := by
  have := cause.isLt
  unfold bitsOf trCauseWord
  rw [BitVec.extractLsb'_toNat, BitVec.toNat_ofNat, Nat.shiftRight_zero, Nat.mod_mod_of_dvd _ (by decide : 2 ^ 8 ∣ 2 ^ 64)]
  cases hold <;> cases level <;> simp only [Bool.false_eq_true, if_true, if_false] <;> omega

theorem State.doubleTrap_crew (s : State) (k : Nat) (cause : BitVec 8) (addr : DWord) :
    (s.doubleTrap k cause addr).crew k = { s.crew k with place := .halted } :=
  (congrArg (fun t => Tbl.get t k) (State.emit_crews ..)).trans ((State.get_crew ..).trans (if_pos rfl))

/-- A taken trap saves its PC and its cause and raises the level; a crew that goes on is at VEC. -/
theorem State.takeTrap_crew {s : State} {k : Nat} (cause : BitVec 8) (addr : DWord) (slot lane : Nat) (flags : BitVec 5) (pc : Nat)
    (hnest : nestBit (s.crew k).trCause = false) (hvec : bitsOf (s.part (s.crew k).part).trVec 0 56 ≠ 0) (hpaths : (s.crew k).paths ≠ []) :
    bitsOf ((s.takeTrap k cause addr slot lane flags pc).crew k).trCause 0 8 = cause.toNat ∧
    ((s.takeTrap k cause addr slot lane flags pc).crew k).trPc = BitVec.ofNat 64 (pc % 2 ^ 56) ∧
    ((s.takeTrap k cause addr slot lane flags pc).crew k).level = true ∧
    (((s.takeTrap k cause addr slot lane flags pc).crew k).place = .resident →
      ((s.takeTrap k cause addr slot lane flags pc).crew k).run.pc = bitsOf (s.part (s.crew k).part).trVec 0 56) := by
  obtain ⟨p, r, hpr⟩ := List.exists_cons_of_ne_nil hpaths
  have hlt : bitsOf (s.part (s.crew k).part).trVec 0 56 < 2 ^ 56 := BitVec.isLt _
  have hv : (BitVec.ofNat 64 (bitsOf (s.part (s.crew k).part).trVec 0 56)).toNat = bitsOf (s.part (s.crew k).part).trVec 0 56 := by
    rw [BitVec.toNat_ofNat, Nat.mod_eq_of_lt (by omega)]
  have hv0 : (BitVec.ofNat 64 (bitsOf (s.part (s.crew k).part).trVec 0 56) == 0) = false := by
    rw [beq_eq_false_iff_ne]
    intro h
    rw [h] at hv
    exact hvec hv.symm
  simp only [State.takeTrap, hnest, hv0, Bool.or_self, Bool.false_eq_true, if_false]
  split
  · rw [State.doubleTrap_crew, State.get_crew, if_pos rfl]
    exact ⟨bitsOf_trCauseWord .., rfl, rfl, nofun⟩
  · rw [State.get_crew, if_pos rfl, State.get_crew, if_pos rfl]
    exact ⟨bitsOf_trCauseWord .., rfl, rfl, fun _ => by simp only [hpr]; exact hv⟩

theorem localWatchdog_off {s : State} {k : Nat} (h : bitsOf (s.part (s.crew k).part).wdog 0 32 = 0) : exec (.localWatchdog k) s = .next s := by
  change execLocalWatchdog k s = _
  simp [execLocalWatchdog, h]

theorem exec_localWatchdog {s : State} {k : Nat} (hlimit : bitsOf (s.part (s.crew k).part).wdog 0 32 ≠ 0) (hplace : (s.crew k).place = .resident)
    (hbench : (s.crew k).inBench = false) (hphase : (s.crew k).sett.phase = .idle ∨ (s.crew k).sett.phase = .exec) (hpaths : (s.crew k).paths ≠ [])
    (hready : s.trapReady k = true) :
    exec (.localWatchdog k) s = .next ((s.discard k).takeTrap k cWatchdog 0 0 0 0 (s.crew k).run.pc) := by
  have hbusy : ((s.crew k).sett.phase == .effects || (s.crew k).sett.phase == .control) = false := by
    rcases hphase with h | h <;> rw [h] <;> rfl
  change execLocalWatchdog k s = _
  simp [execLocalWatchdog, hlimit, hplace, hbench, hbusy, hpaths, hready]

theorem localWatchdog_traps {s : State} {k : Nat} (hlimit : bitsOf (s.part (s.crew k).part).wdog 0 32 ≠ 0) (hplace : (s.crew k).place = .resident)
    (hbench : (s.crew k).inBench = false) (hphase : (s.crew k).sett.phase = .idle ∨ (s.crew k).sett.phase = .exec) (hpaths : (s.crew k).paths ≠ [])
    (hready : s.trapReady k = true) (hnest : nestBit (s.crew k).trCause = false) (hvec : bitsOf (s.part (s.crew k).part).trVec 0 56 ≠ 0) :
    ∃ t, exec (.localWatchdog k) s = .next t ∧ t.mem = s.mem ∧ bitsOf (t.crew k).trCause 0 8 = cWatchdog.toNat ∧
      (t.crew k).trPc = BitVec.ofNat 64 ((s.crew k).run.pc % 2 ^ 56) ∧ (t.crew k).level = true ∧
      ((t.crew k).place = .resident → (t.crew k).run.pc = bitsOf (s.part (s.crew k).part).trVec 0 56) := by
  obtain ⟨d, n, hcrew, hparts⟩ := s.discard_crew k
  have hpart : (s.discard k).part ((s.discard k).crew k).part = s.part (s.crew k).part := by rw [hcrew, State.part, hparts]; rfl
  rw [← hpart] at hvec ⊢
  exact ⟨_, exec_localWatchdog hlimit hplace hbench hphase hpaths hready, by simp,
    State.takeTrap_crew _ _ _ _ _ _ (by rw [hcrew]; exact hnest) hvec (by rw [hcrew]; exact hpaths)⟩

theorem recordsAndParkedRequests : Claims.RecordsAndParkedRequests := by
  intro s die
  refine ⟨fun r u hr hu => faultRecordDeliver_ok hr hu, fun r pa mt hr hstamp hseq hx => faultRecordDeliver_written hr hstamp hseq hx,
    fun r c hr hc => faultRecordDeliver_error hr hc, fun entry k slot lane epoch hv hturn hwho hplace hepoch => ⟨fun hact hroom => ⟨?_, ?_⟩, ?_⟩,
    fun k => ⟨localWatchdog_off, localWatchdog_traps⟩⟩
  · exact fun d pa mt hx => fqResumeReplay_ok hv hturn hwho hplace hepoch hact hroom hx
  · exact fqResumeReplay_miss hv hturn hwho hplace hepoch hact hroom
  · exact fqResumeCancel_load hv hturn hwho hplace hepoch

/-- Settles O32: a ring's first waiter has its turn; a record, a parked load and the watchdog each by their one event. -/
theorem faultRecords : Obligations.FaultRecords := ⟨rings, recordsAndParkedRequests⟩

end Sys2Proof.Machine
end

section
namespace Sys2Proof.Machine

/-!
# A REPAIR over an arc of the reserved DKIND (O51)

R244 leaves DKIND 0b11 reserved: the loader refuses it (`elemOk`), but O51 speaks of any image and excludes DKIND 0b10 alone.
`State.pushArc` sends what is pushed over any arc beyond 0b01 to the spall net, so the REPAIR's value becomes a reply there.
-/

/-- The image of one element: a random node (KIND MEM, ACLASS 1) that loads, output 0 with an arc of DKIND 0b11. -/
def reservedArcImage : List Byte :=
  List.replicate 71 0 ++ [0x40, 0, 0, 0, 0xB0] ++ List.replicate 123 0 ++ [0x40] ++ List.replicate 24 0

/-- Its bench runs; a fault of element 0 waits for its answer, and the handler has sent REPAIR with the value 9. -/
def reservedArcBench : Bench :=
  { (default : Bench) with live := true, st := .running, img := reservedArcImage, awaiting := [default], replies := [0, 9] }

def reservedArcState : State := { State.reset with benches := Tbl.empty.put 0 reservedArcBench }

theorem reservedArc_answerable :
    reservedArcBench.serves = true ∧ (∀ o ∈ reservedArcBench.answerOuts default, reservedArcState.space 0 0 o ≠ 0) ∧
    bitsOf (0 : Word) 30 2 = 0 ∧ ewKind (reservedArcBench.word 0) = 4 ∧ mbClass (reservedArcBench.mem 0) = 1 ∧
    mbDir (reservedArcBench.mem 0) = 0 ∧
    ∀ o, o < 4 → arcV (imgArc reservedArcBench.img 0 o) = true → arcKind (imgArc reservedArcBench.img 0 o) ≠ 2 := by
  decide +kernel

/-- The replies of bench 0 after an outcome. -/
def repliesAfter : Out → List Word
  | .next t => (t.bench 0).replies
  | _ => []

/-- The reply and its value are gone, and the value that the node was repaired with has come back as a reply. -/
theorem reservedArc_repliesAfter : repliesAfter (exec (.spallReply 0) reservedArcState) = [9] := by decide +kernel

/-- Refutes O51: in `reservedArcState` the REPAIR does not leave the replies that came after it, here none. -/
theorem not_benchMemory : ¬ Obligations.BenchMemory := by
  intro ⟨_, hspall⟩
  obtain ⟨hserves, hroom, hrepair, hkind, hclass, hdir, harcs⟩ := reservedArc_answerable
  obtain ⟨-, -, hreply⟩ := hspall reservedArcState 0 0 hserves
  obtain ⟨-, -, -, hrep⟩ := hreply default [] 0 [9] rfl rfl hroom
  obtain ⟨t, ht, -, -, hreplies, -⟩ := hrep 9 [] hrepair rfl rfl hkind hclass hdir harcs
  have hback : (t.bench 0).replies = [9] := by
    have := reservedArc_repliesAfter
    rwa [ht] at this
  exact absurd (hback.symm.trans hreplies) (by decide)

end Sys2Proof.Machine
end

section
namespace Sys2Proof.Machine

/-!
# The ends of a bench and its return (O52)

Every end writes a completion record through `State.writeRecord`; what that does is said once, in `RecordWritten`.
-/

/-! ## A release by a core that has sent everything -/

theorem drainReqs_of_none {core : Nat} {rs : List HomeReq} (h : ∀ r ∈ rs, r.core ≠ core) (s : State) : drainReqs core rs s = s := by
  induction rs with
  | nil => rfl
  | cons r rs ih =>
    have hr : r.core ≠ core := h r List.mem_cons_self
    simp only [drainReqs, hr, decide_false, Bool.false_and, Bool.false_eq_true, if_false]
    exact ih fun q hq => h q (List.mem_cons_of_mem _ hq)

theorem State.releaseCore_of_coreSent {s : State} {core : Nat} (h : s.coreSent core) : s.releaseCore core = s := by
  obtain ⟨hcb, hbusy⟩ := h
  have hflush : s.flushCb core = s := by simp only [State.flushCb, hcb]
  have hnone : ∀ r ∈ s.inflight, r.core ≠ core := by
    simp only [State.coreBusy, Bool.or_eq_false_iff, List.any_eq_false, beq_iff_eq] at hbusy
    exact hbusy.2
  rw [State.releaseCore, hflush, State.drain, drainReqs_of_none hnone]

/-! ## The bench goes -/

theorem State.dropL1_frame (s : State) (core : Nat) : ∃ c o, s.dropL1 core = { s with cores := c, outstanding := o } := by
  unfold State.dropL1 State.unkeep
  split
  · exact ⟨s.cores, _, rfl⟩
  · exact ⟨_, _, rfl⟩

/-- The crews of a list of entries owe one trap. -/
def State.owe (s : State) (es : List Entry) (trap : BitVec 8 × DWord) : State :=
  es.foldl (fun s e => s.updCrew e.crew fun c => { c with pendTrap := some trap }) s

theorem State.owe_crews (s : State) (es : List Entry) (trap : BitVec 8 × DWord) : ∃ c, s.owe es trap = { s with crews := c } := by
  induction es generalizing s with
  | nil => exact ⟨s.crews, rfl⟩
  | cons e r ih => exact ih (s.updCrew e.crew fun c => { c with pendTrap := some trap })

theorem State.owe_pendTrap (s : State) (es : List Entry) (trap : BitVec 8 × DWord) {k : Nat}
    (h : (∃ e ∈ es, e.crew = k) ∨ (s.crew k).pendTrap = some trap) : ((s.owe es trap).crew k).pendTrap = some trap := by
  induction es generalizing s with
  | nil => exact h.resolve_left fun ⟨_, he, _⟩ => nomatch he
  | cons e r ih =>
    refine ih _ ?_
    rw [State.get_crew]
    by_cases hk : k = e.crew
    · exact .inr (by rw [if_pos hk])
    · rw [if_neg hk]
      refine h.imp (fun ⟨f, hf, hfk⟩ => ⟨f, ?_, hfk⟩) id
      exact (List.mem_cons.1 hf).resolve_left fun he => hk (by rw [← hfk, he])

/-- What the end of a bench leaves: its record is done, so it is gone, and its crews owe BENCH_FAULT after a FAULT without NOTRAP (R251). -/
theorem State.endBench_frame (s : State) (b : Nat) {fin : BitVec 128} (hfin : (s.bench b).fin = some fin) :
    ((s.endBench b).bench b).live = false ∧ (s.endBench b).mem = s.mem ∧
    (bitsOf fin 56 8 = 2 → (s.bench b).notrap = false → ∀ e ∈ (s.bench b).entries,
      ((s.endBench b).crew e.crew).pendTrap = some (cBenchFault, BitVec.ofNat 64 (bitsOf fin 64 64))) ∧
    (bitsOf fin 56 8 ≠ 2 → (s.endBench b).crews = s.crews) := by
  obtain ⟨c, o, hdrop⟩ := State.dropL1_frame { s with benches := s.benches.drop b } (s.bench b).core
  have hgone : ((s.benches.drop b).get b).live = false := by rw [Tbl.get_drop, if_pos rfl]; rfl
  have hend : s.endBench b = if bitsOf fin 56 8 = 2 && !(s.bench b).notrap then
      State.owe { s with benches := s.benches.drop b, cores := c, outstanding := o } (s.bench b).entries
        (cBenchFault, BitVec.ofNat 64 (bitsOf fin 64 64))
      else { s with benches := s.benches.drop b, cores := c, outstanding := o } := by
    simp only [State.endBench, hdrop, hfin]
    rfl
  rw [hend]
  split
  · next hfault =>
    simp only [Bool.and_eq_true, decide_eq_true_eq] at hfault
    have hpend := fun k => State.owe_pendTrap { s with benches := s.benches.drop b, cores := c, outstanding := o } (s.bench b).entries
      (cBenchFault, BitVec.ofNat 64 (bitsOf fin 64 64)) (k := k)
    obtain ⟨cr, howe⟩ := State.owe_crews { s with benches := s.benches.drop b, cores := c, outstanding := o } (s.bench b).entries
      (cBenchFault, BitVec.ofNat 64 (bitsOf fin 64 64))
    refine ⟨by rw [howe]; exact hgone, by rw [howe], fun _ _ e he => hpend _ (.inl ⟨e, he, rfl⟩), fun h => absurd hfault.1 h⟩
  · next hok => exact ⟨hgone, rfl, fun h2 hn => absurd (by simp [h2, hn]) hok, fun _ => rfl⟩

/-! ## Completion records (R248) -/

/-- The core that a bench's record is written from: before its start, that of the first crew that entered. -/
def State.recordCore (s : State) (x : Bench) : Nat := if x.st = .none then (s.crew (x.entries.headD default).crew).core else x.core

/-- Bench b of s has ended with record r at place l of this device. -/
structure RecordWritten (s z : State) (b : Nat) (r : BitVec 128) (l : Loc) : Prop where
  gone : (z.bench b).live = false
  value : z.readVal l.pa 16 = r.toNat
  frame : ∀ a, ¬ inRange l.pa 16 a → z.mem.read a = s.mem.read a
  owed : bitsOf r 56 8 = 2 → (s.bench b).notrap = false → ∀ e ∈ (s.bench b).entries,
    (z.crew e.crew).pendTrap = some (cBenchFault, BitVec.ofNat 64 (bitsOf r 64 64))
  others : bitsOf r 56 8 ≠ 2 → z.crews = s.crews

/-- The bench with the record that is being written. -/
def State.withFin (s : State) (b : Nat) (r : BitVec 128) : State :=
  s.updBench b fun x => { x with
    fin := some r
    core := if x.st == .none then (s.crew (x.entries.headD default).crew).core else x.core }

theorem State.withFin_bench (s : State) (b : Nat) (r : BitVec 128) :
    (s.withFin b r).bench b = { s.bench b with fin := some r, core := s.recordCore (s.bench b) } := by
  rw [State.withFin, State.get_bench, if_pos rfl]
  simp only [State.recordCore, beq_iff_eq]

/-- A record whose target lies here is written once the core has sent what it stored, if RSCOPE asks for that, and the bench ends. -/
theorem State.writeRecord_eq (s : State) (b : Nat) (r : BitVec 128) {l : Loc}
    (hloc : s.targetLoc (s.bench b).part ((s.bench b).entries.headD default).crew (s.bench b).gang (s.recordCore (s.bench b)) (s.bench b).level
      (s.bench b).target = .ok l)
    (hdev : l.dev = s.dev) (hsent : imgWide (s.bench b).img = true → s.coreSent (s.recordCore (s.bench b))) :
    s.writeRecord b r = ((s.withFin b r).performVal l.pa 16 r.toNat).endBench b := by
  have hx := s.withFin_bench b r
  have hsent' : imgWide ((s.withFin b r).bench b).img = true → (s.withFin b r).coreSent ((s.withFin b r).bench b).core := by rw [hx]; exact hsent
  have hloc' : (s.withFin b r).targetLoc ((s.withFin b r).bench b).part (((s.withFin b r).bench b).entries.headD default).crew
      ((s.withFin b r).bench b).gang ((s.withFin b r).bench b).core ((s.withFin b r).bench b).level ((s.withFin b r).bench b).target = .ok l := by
    rw [hx]; exact hloc
  have hdev' : l.dev = (s.withFin b r).dev := hdev
  unfold State.writeRecord
  rw [← State.withFin.eq_1]
  by_cases hwide : imgWide ((s.withFin b r).bench b).img = true
  · simp only [hwide, if_true, State.releaseCore_of_coreSent (hsent' hwide), (hsent' hwide).2, Bool.and_false, Bool.false_eq_true, if_false,
      hloc', hdev']
    rfl
  · simp only [hwide, Bool.false_and, Bool.false_eq_true, if_false, hloc', hdev', if_true]
    rfl

theorem State.writeRecord_written (s : State) (b : Nat) (r : BitVec 128) {l : Loc}
    (hloc : s.targetLoc (s.bench b).part ((s.bench b).entries.headD default).crew (s.bench b).gang (s.recordCore (s.bench b)) (s.bench b).level
      (s.bench b).target = .ok l)
    (hdev : l.dev = s.dev) (hsent : imgWide (s.bench b).img = true → s.coreSent (s.recordCore (s.bench b))) :
    RecordWritten s (s.writeRecord b r) b r l := by
  have hx : ((s.withFin b r).performVal l.pa 16 r.toNat).bench b = { s.bench b with fin := some r, core := s.recordCore (s.bench b) } :=
    s.withFin_bench b r
  obtain ⟨hgone, hmem, howed, hothers⟩ := State.endBench_frame ((s.withFin b r).performVal l.pa 16 r.toNat) b (fin := r) (by rw [hx])
  rw [hx] at howed
  rw [s.writeRecord_eq b r hloc hdev hsent]
  refine ⟨hgone, ?_, fun a ha => ?_, howed, hothers⟩
  · rw [State.readVal_of_performVal hmem]
    exact Nat.mod_eq_of_lt r.isLt
  · rw [hmem]
    exact (s.withFin b r).read_performVal_other ha

/-! ## The steps that write a record -/

theorem benchRecord_plain (status done : Nat) : benchRecord status 0 done = BitVec.ofNat 128 (status * 2 ^ 56 + done % 2 ^ 32) := by
  have hzero : ∀ lo len, bitsOf (0 : BitVec 128) lo len = 0 := fun lo len => by simp [bitsOf]
  simp only [benchRecord, hzero, Nat.zero_mul, Nat.zero_add, Nat.add_zero]

section Ends
variable {s : State} {b : Nat}

theorem exec_benchRetire_done (hlive : (s.bench b).live = true) (hfin : (s.bench b).fin = none) (hparked : (s.bench b).parked = false)
    (hsent : (s.bench b).sent = false) (hst : (s.bench b).st = .running) (hcount : (s.bench b).count ≤ (s.bench b).completed)
    (hsettled : (s.bench b).settled = true) :
    exec (.benchRetire b) s = .next (s.writeRecord b (benchRecord bsOk 0 (s.bench b).completed)) := by
  change execBenchRetire b s = _
  simp [execBenchRetire, hlive, hfin, hparked, hsent, hst, hcount, hsettled]

theorem exec_benchRetire_fin {r : BitVec 128} (hlive : (s.bench b).live = true) (hfin : (s.bench b).fin = some r)
    (hparked : (s.bench b).parked = false) (hsent : (s.bench b).sent = false)
    (hcrews : ∀ e ∈ (s.bench b).entries, (s.crew e.crew).place = .resident) :
    exec (.benchRetire b) s = .next (s.writeRecord b r) := by
  have hall : ((s.bench b).entries.all fun e => (s.crew e.crew).place == .resident) = true := by simpa using hcrews
  change execBenchRetire b s = _
  simp [execBenchRetire, hlive, hfin, hparked, hsent, hall]

theorem exec_benchAbort {u : SpallTok} (hlive : (s.bench b).live = true) (hst : (s.bench b).st = .aborting) (hfin : (s.bench b).fin = none)
    (hstill : (s.bench b).still = true) (hsettled : (s.bench b).settled = true) (htok : (s.bench b).abortTok = some u) :
    exec (.benchAbort b) s = .next (s.writeRecord b (benchRecord bsFault u.bits (s.bench b).completed)) := by
  change execBenchAbort b s = _
  simp [execBenchAbort, hlive, hst, hfin, hstill, hsettled, htok]

theorem exec_benchDrainComplete (hlive : (s.bench b).live = true) (hst : (s.bench b).st = .draining) (hfin : (s.bench b).fin = none)
    (hpartly : (s.bench b).partly = false) (hdone : (s.bench b).injected ≤ (s.bench b).completed) (hsettled : (s.bench b).settled = true) :
    exec (.benchDrainComplete b) s = if (s.bench b).preempted = true
      then .next { s with benches := s.benches.put b { s.bench b with st := .saved, elems := (s.bench b).cleared } }
      else .next (s.writeRecord b (benchRecord bsStopped 0 (s.bench b).completed)) := by
  have hgo : ((s.bench b).live && (s.bench b).st == .draining && (s.bench b).fin.isNone && !(s.bench b).partly &&
      decide ((s.bench b).completed ≥ (s.bench b).injected) && (s.bench b).settled) = true := by
    simp [hlive, hst, hfin, hpartly, hdone, hsettled]
  change execBenchDrainComplete b s = _
  simp only [execBenchDrainComplete, hgo, if_true]
  rfl

theorem exec_benchDrainTimeout (hlive : (s.bench b).live = true) (hst : (s.bench b).st = .draining) (hfin : (s.bench b).fin = none)
    (hpre : (s.bench b).preempted = true) :
    exec (.benchDrainTimeout b) s = .next { s with benches := s.benches.put b { s.bench b with st := .stopping } } := by
  have hgo : ((s.bench b).live && (s.bench b).st == .draining && (s.bench b).preempted && (s.bench b).fin.isNone) = true := by
    simp [hlive, hst, hfin, hpre]
  change execBenchDrainTimeout b s = _
  simp only [execBenchDrainTimeout, hgo, if_true]
  rfl

theorem exec_benchStoppingComplete (hlive : (s.bench b).live = true) (hst : (s.bench b).st = .stopping) (hstill : (s.bench b).still = true)
    (hasked : ∀ t ∈ (s.bench b).elems.vals, t.asked = false) :
    exec (.benchStoppingComplete b) s = .next { s with benches := s.benches.put b { s.bench b with st := .saved } } := by
  have hgo : ((s.bench b).live && (s.bench b).st == .stopping && (s.bench b).still && (s.bench b).elems.vals.all fun t => !t.asked) = true := by
    simpa [hlive, hst, hstill] using hasked
  change execBenchStoppingComplete b s = _
  simp only [execBenchStoppingComplete, hgo, if_true]
  rfl

end Ends

/-! ## Return (R255) -/

theorem eraseDups_of_nodup {α : Type} [DecidableEq α] {l : List α} (h : l.Nodup) : l.eraseDups = l := by
  induction l with
  | nil => rfl
  | cons a r ih =>
    obtain ⟨ha, hr⟩ := List.nodup_cons.1 h
    have hkeep : (r.filter fun b => !b == a) = r := List.filter_eq_self.2 fun b hb => by simpa using fun e : b = a => ha (e ▸ hb)
    rw [List.eraseDups_cons, hkeep, ih hr]

theorem State.together_of_nodup {s : State} {es : List Entry} {core : Nat} (hne : es ≠ []) (hq : (es.map fun e => (s.crew e.crew).quarter).Nodup)
    (hcore : ∀ e ∈ es, (s.crew e.crew).core = core) : s.together (es.map (·.crew)) = true := by
  have hdistinct : ((es.map (·.crew)).map fun k => (s.crew k).quarter).eraseDups = (es.map (·.crew)).map fun k => (s.crew k).quarter := by
    rw [List.map_map]
    exact eraseDups_of_nodup hq
  have hhead : (s.crew ((es.map (·.crew)).headD 0)).core = core := by
    obtain ⟨e, r, rfl⟩ := List.exists_cons_of_ne_nil hne
    exact hcore e List.mem_cons_self
  simp only [State.together, hdistinct, hhead, beq_self_eq_true, Bool.true_and]
  simpa using hcore

theorem headD_crew {es : List Entry} (hne : es ≠ []) : (es.map (·.crew)).headD 0 = (es.headD default).crew := by
  obtain ⟨e, r, rfl⟩ := List.exists_cons_of_ne_nil hne
  rfl

/-- Bench b is placed again at an offset of a core, in state st, with its elements as they were. -/
structure Back (s z : State) (b core off : Nat) (st : BenchSt) : Prop where
  mem : z.mem = s.mem
  st : (z.bench b).st = st
  off : (z.bench b).off = off
  base : (z.bench b).base = (s.bench b).base
  core : (z.bench b).core = core
  elems : (z.bench b).elems = (s.bench b).elems

@[simp] theorem State.emit_bench (s : State) (die part : Nat) (r : BitVec 256) (b : Nat) : (s.emit die part r).bench b = s.bench b := by
  unfold State.emit
  split <;> rfl

theorem State.restoreBench_failed (s : State) (b core off : Nat) (h : (s.bench b).region.failed = true) :
    Back s (s.restoreBench b core off) b core off .frozen := by
  simp only [State.restoreBench, h, if_true]
  constructor <;> simp [State.get_bench]

theorem State.restoreBench_matches (s : State) (b core off : Nat) (h : (s.bench b).region.failed = false)
    (hd : sha3 (imgBody (s.restoredImage (s.bench b))) = (s.bench b).region.digest) :
    Back s (s.restoreBench b core off) b core off (s.bench b).goesOn := by
  simp only [State.restoreBench, h, hd, beq_self_eq_true, Bool.false_eq_true, if_false, if_true]
  constructor <;> simp [State.get_bench]

theorem State.restoreBench_differs (s : State) (b core off : Nat) (h : (s.bench b).region.failed = false)
    (hd : sha3 (imgBody (s.restoredImage (s.bench b))) ≠ (s.bench b).region.digest) (hroom : s.recRoom (dieOf core) 1 = true) :
    Back s (s.restoreBench b core off) b core off .frozen := by
  have hno : (sha3 (imgBody (s.restoredImage (s.bench b))) == (s.bench b).region.digest) = false := by simpa using hd
  simp only [State.restoreBench, h, hno, hroom, Bool.not_true, Bool.false_eq_true, if_false]
  constructor <;> simp [State.get_bench]

theorem exec_benchResume {s : State} {b off : Nat} (hlive : (s.bench b).live = true) (hst : (s.bench b).st = .saved)
    (hpatch : (s.imageOf (s.bench b)).patched = none) (hrest : s.quartersRest ((s.bench b).entries.map (·.crew)) = true)
    (hq : ((s.bench b).entries.map fun e => (s.crew e.crew).quarter).Nodup) (hne : (s.bench b).entries ≠ [])
    (hcrews : ∀ e ∈ (s.bench b).entries, (s.crew e.crew).core = (s.crew ((s.bench b).entries.headD default).crew).core ∧
      (s.crew e.crew).preempt = false) (hoff : s.freeOffset b = some off) :
    exec (.benchResume b) s = .next (s.restoreBench b (s.crew ((s.bench b).entries.headD default).crew).core off) := by
  have htogether := State.together_of_nodup hne hq fun e he => (hcrews e he).1
  have hwanted : ((s.bench b).entries.map (·.crew)).any (fun k => (s.crew k).preempt) = false := by
    simpa using fun e he => (hcrews e he).2
  change execBenchResume b s = _
  simp only [execBenchResume, hlive, hst, hpatch, hrest, htogether, hwanted, hoff, headD_crew hne]
  rfl

/-- Settles O52: every end is `State.writeRecord_written` of the step's record. -/
theorem benchesEnd : Obligations.BenchesEnd := by
  intro s b x k core writes hlive
  have hwrites : ∀ i r r', exec i s = .next (s.writeRecord b r) → r = r' → writes i r' := by
    rintro i r _ hi rfl l hloc hdev hsent
    obtain ⟨hgone, hvalue, hframe, howed, hothers⟩ := s.writeRecord_written b r hloc hdev hsent
    exact ⟨_, hi, hgone, hvalue, hframe, howed, hothers⟩
  refine ⟨fun hfin hparked hsent hst hcount hsettled => ?_, fun r hfin hparked hsent hcrews => ?_,
    fun u hst hfin hstill hsettled htok => ?_, fun hst hfin hpartly hdone hsettled => ⟨fun hpre => ?_, fun hpre => ?_⟩,
    fun hst hfin hpre => exec_benchDrainTimeout hlive hst hfin hpre,
    fun hst hstill hasked => exec_benchStoppingComplete hlive hst hstill hasked,
    fun off hst hpatch hrest hq hne hcrews hoff => ?_⟩
  · refine hwrites _ _ _ (exec_benchRetire_done hlive hfin hparked hsent hst hcount hsettled) ?_
    rw [benchRecord_plain, bsOk, Nat.zero_mul, Nat.zero_add]
  · exact hwrites _ _ _ (exec_benchRetire_fin hlive hfin hparked hsent hcrews) rfl
  · exact hwrites _ _ _ (exec_benchAbort hlive hst hfin hstill hsettled htok) rfl
  · exact (exec_benchDrainComplete hlive hst hfin hpartly hdone hsettled).trans (if_pos hpre)
  · refine hwrites _ _ _ ((exec_benchDrainComplete hlive hst hfin hpartly hdone hsettled).trans (if_neg (Bool.eq_false_iff.1 hpre))) ?_
    rw [benchRecord_plain, bsStopped]
  · have hresume := exec_benchResume hlive hst hpatch hrest hq hne hcrews hoff
    refine ⟨fun hfail => ?_, fun hok hdiff hroom => ?_, fun hok hsame => ?_⟩
    · obtain ⟨hmem, hst', hoff', hbase, hcore, helems⟩ := s.restoreBench_failed b (s.crew k).core off hfail
      exact ⟨_, hresume, hmem, hst', hoff', hbase, hcore, helems⟩
    · obtain ⟨hmem, hst', hoff', hbase, hcore, helems⟩ := s.restoreBench_differs b (s.crew k).core off hok hdiff hroom
      exact ⟨_, hresume, hmem, hst', hoff', hbase, hcore, helems⟩
    · obtain ⟨hmem, hst', hoff', hbase, hcore, helems⟩ := s.restoreBench_matches b (s.crew k).core off hok hsame
      refine ⟨_, hresume, hmem, hst'.trans ?_, hoff', hbase, hcore, helems⟩
      simp [Bench.goesOn, x]

end Sys2Proof.Machine
end

section
namespace Sys2Proof

/-!
# Decoding gives back what was encoded (O36, O38)

From the bits up: a format's word gives back its fields (R262–R266), a code its meaning, an operand field its operand (R268, R271), and the
readers and sub-decoders of a format what the encoder put into it. `decFields_encode` then goes through the instructions by OP group (R279).
-/

/-! ## The fields of a word (R262–R266) -/

/-- The n bits at bit k of a word given by its number. -/
theorem extractLsb'_ofNat {v k n : Nat} {x : BitVec n} (hk : k + n ≤ 64) (h : v / 2 ^ k % 2 ^ n = x.toNat) :
    (BitVec.ofNat 64 v).extractLsb' k n = x := by
  apply BitVec.eq_of_toNat_eq
  obtain ⟨d, hd⟩ := Nat.exists_eq_add_of_le hk
  rw [BitVec.extractLsb'_toNat, BitVec.toNat_ofNat, Nat.shiftRight_eq_div_pow, ← h, hd, Nat.add_assoc, Nat.pow_add,
    Nat.mod_mul_right_div_self, Nat.pow_add, Nat.mod_mul_right_mod]

@[simp] theorem FmtA.ofWord_toWord (f : FmtA) : FmtA.ofWord f.toWord = f := by
  obtain ⟨op, fn, dk, dst, s1, s2, s3, pg, pn, m⟩ := f
  simp only [FmtA.ofWord, FmtA.toWord, putAt, FmtA.mk.injEq]
  refine ⟨?_, ?_, ?_, ?_, ?_, ?_, ?_, ?_, ?_, ?_⟩ <;> exact extractLsb'_ofNat (by decide) (by omega)

@[simp] theorem FmtM.ofWord_toWord (f : FmtM) : FmtM.ofWord f.toWord = f := by
  obtain ⟨op, fn, dst, base, index, off, pg, pn, scope, ord, scale⟩ := f
  simp only [FmtM.ofWord, FmtM.toWord, putAt, FmtM.mk.injEq]
  refine ⟨?_, ?_, ?_, ?_, ?_, ?_, ?_, ?_, ?_, ?_, ?_⟩ <;> exact extractLsb'_ofNat (by decide) (by omega)

@[simp] theorem FmtX.ofWord_toWord (f : FmtX) : FmtX.ofWord f.toWord = f := by
  obtain ⟨op, fn, da, db, acc, oba, obb, sa, sb, z, pg, pn, m⟩ := f
  simp only [FmtX.ofWord, FmtX.toWord, putAt, FmtX.mk.injEq]
  refine ⟨?_, ?_, ?_, ?_, ?_, ?_, ?_, ?_, ?_, ?_, ?_, ?_, ?_⟩ <;> exact extractLsb'_ofNat (by decide) (by omega)

@[simp] theorem FmtJ.ofWord_toWord (f : FmtJ) : FmtJ.ofWord f.toWord = f := by
  obtain ⟨op, fn, target, z, pg, pn, m⟩ := f
  simp only [FmtJ.ofWord, FmtJ.toWord, putAt, FmtJ.mk.injEq]
  refine ⟨?_, ?_, ?_, ?_, ?_, ?_, ?_⟩ <;> exact extractLsb'_ofNat (by decide) (by omega)

@[simp] theorem FmtY.ofWord_toWord (f : FmtY) : FmtY.ofWord f.toWord = f := by
  obtain ⟨op, fn, dk, dst, s1, reg, z, pg, pn, m⟩ := f
  simp only [FmtY.ofWord, FmtY.toWord, putAt, FmtY.mk.injEq]
  refine ⟨?_, ?_, ?_, ?_, ?_, ?_, ?_, ?_, ?_, ?_⟩ <;> exact extractLsb'_ofNat (by decide) (by omega)

/-- The two digits of OP, which choose the decoder (R279). -/
theorem extractLsb'_digits_of_op {w : DWord} {op : BitVec 8} (h : w.extractLsb' 56 8 = op) :
    w.extractLsb' 60 4 = op.extractLsb' 4 4 ∧ w.extractLsb' 56 4 = op.extractLsb' 0 4 := by
  subst h
  constructor <;> apply BitVec.eq_of_toNat_eq <;>
    simp only [BitVec.extractLsb'_toNat, Nat.shiftRight_eq_div_pow] <;> omega

theorem FmtA.toWord_op (f : FmtA) : f.toWord.extractLsb' 56 8 = f.op := congrArg FmtA.op f.ofWord_toWord
@[simp] theorem FmtA.toWord_opHi (f : FmtA) : f.toWord.extractLsb' 60 4 = f.op.extractLsb' 4 4 :=
  (extractLsb'_digits_of_op f.toWord_op).1
@[simp] theorem FmtA.toWord_opLo (f : FmtA) : f.toWord.extractLsb' 56 4 = f.op.extractLsb' 0 4 :=
  (extractLsb'_digits_of_op f.toWord_op).2

theorem FmtM.toWord_op (f : FmtM) : f.toWord.extractLsb' 56 8 = f.op := congrArg FmtM.op f.ofWord_toWord
@[simp] theorem FmtM.toWord_opHi (f : FmtM) : f.toWord.extractLsb' 60 4 = f.op.extractLsb' 4 4 :=
  (extractLsb'_digits_of_op f.toWord_op).1
@[simp] theorem FmtM.toWord_opLo (f : FmtM) : f.toWord.extractLsb' 56 4 = f.op.extractLsb' 0 4 :=
  (extractLsb'_digits_of_op f.toWord_op).2

theorem FmtX.toWord_op (f : FmtX) : f.toWord.extractLsb' 56 8 = f.op := congrArg FmtX.op f.ofWord_toWord
@[simp] theorem FmtX.toWord_opHi (f : FmtX) : f.toWord.extractLsb' 60 4 = f.op.extractLsb' 4 4 :=
  (extractLsb'_digits_of_op f.toWord_op).1
@[simp] theorem FmtX.toWord_opLo (f : FmtX) : f.toWord.extractLsb' 56 4 = f.op.extractLsb' 0 4 :=
  (extractLsb'_digits_of_op f.toWord_op).2

theorem FmtJ.toWord_op (f : FmtJ) : f.toWord.extractLsb' 56 8 = f.op := congrArg FmtJ.op f.ofWord_toWord
@[simp] theorem FmtJ.toWord_opHi (f : FmtJ) : f.toWord.extractLsb' 60 4 = f.op.extractLsb' 4 4 :=
  (extractLsb'_digits_of_op f.toWord_op).1
@[simp] theorem FmtJ.toWord_opLo (f : FmtJ) : f.toWord.extractLsb' 56 4 = f.op.extractLsb' 0 4 :=
  (extractLsb'_digits_of_op f.toWord_op).2

theorem FmtY.toWord_op (f : FmtY) : f.toWord.extractLsb' 56 8 = f.op := congrArg FmtY.op f.ofWord_toWord
@[simp] theorem FmtY.toWord_opHi (f : FmtY) : f.toWord.extractLsb' 60 4 = f.op.extractLsb' 4 4 :=
  (extractLsb'_digits_of_op f.toWord_op).1
@[simp] theorem FmtY.toWord_opLo (f : FmtY) : f.toWord.extractLsb' 56 4 = f.op.extractLsb' 0 4 :=
  (extractLsb'_digits_of_op f.toWord_op).2

/-! ## Codes of fields -/

@[simp] theorem IntTy.ofCode_code (x : IntTy) : IntTy.ofCode x.code = some x := by cases x <;> rfl
@[simp] theorem Rnd.ofCode_code (x : Rnd) : Rnd.ofCode x.code = some x := by cases x <;> rfl
@[simp] theorem Cond.ofCode_code (x : Cond) : Cond.ofCode x.code = some x := by cases x <;> rfl
@[simp] theorem FCond.ofCode_code (x : FCond) : FCond.ofCode x.code = some x := by cases x <;> rfl
@[simp] theorem Comb.ofCode_code (x : Comb) : Comb.ofCode x.code = some x := by cases x <;> rfl
@[simp] theorem LopOp.ofCode_code (x : LopOp) : LopOp.ofCode x.code = some x := by cases x <;> rfl
@[simp] theorem ShiftOp.ofCode_code (x : ShiftOp) : ShiftOp.ofCode x.code = some x := by cases x <;> rfl
@[simp] theorem LeaMode.ofCode_code (x : LeaMode) : LeaMode.ofCode x.code = some x := by cases x <;> rfl
@[simp] theorem ShflMode.ofCode_code (x : ShflMode) : ShflMode.ofCode x.code = some x := by cases x <;> rfl
@[simp] theorem PackTy.ofCode_code (x : PackTy) : PackTy.ofCode x.code = some x := by cases x <;> rfl
@[simp] theorem CvtP.ofCode_code (x : CvtP) : CvtP.ofCode x.code = some x := by cases x <;> rfl
@[simp] theorem MxFmt.ofCode_code (x : MxFmt) : MxFmt.ofCode x.code = some x := by cases x <;> rfl
@[simp] theorem MxLayout.ofCode_code (x : MxLayout) : MxLayout.ofCode x.code = some x := by cases x <;> rfl
@[simp] theorem DotTy.ofCode_code (x : DotTy) : DotTy.ofCode x.code = some x := by cases x <;> rfl
@[simp] theorem RedOp.ofCode_code (x : RedOp) : RedOp.ofCode x.code = some x := by cases x <;> rfl
@[simp] theorem RedTy.ofCode_code (x : RedTy) : RedTy.ofCode x.code = some x := by cases x <;> rfl
@[simp] theorem Scope.ofCode_code (x : Scope) : Scope.ofCode x.code = some x := by cases x <;> rfl
@[simp] theorem MemW.ofCode_code (x : MemW) : MemW.ofCode x.code = some x := by cases x <;> rfl
@[simp] theorem AtomOp.ofCode_code (x : AtomOp) : AtomOp.ofCode x.code = some x := by cases x <;> rfl
@[simp] theorem AtomTy.ofCode_code (x : AtomTy) : AtomTy.ofCode x.code = some x := by cases x <;> rfl
@[simp] theorem Path6.ofCode_code (x : Path6) : Path6.ofCode x.code = some x := by cases x <;> rfl
@[simp] theorem Space3.ofCode_code (x : Space3) : Space3.ofCode x.code = some x := by cases x <;> rfl
@[simp] theorem StampCmp.ofCode_code (x : StampCmp) : StampCmp.ofCode x.code = some x := by cases x <;> rfl
@[simp] theorem CollKind.ofCode_code (x : CollKind) : CollKind.ofCode x.code = some x := by cases x <;> rfl
@[simp] theorem CollOp.ofCode_code (x : CollOp) : CollOp.ofCode x.code = some x := by cases x <;> rfl
@[simp] theorem ElemTy.ofCode_code (x : ElemTy) : ElemTy.ofCode x.code = some x := by cases x <;> rfl
@[simp] theorem TokField.ofCode_code (x : TokField) : TokField.ofCode x.code = some x := by cases x <;> rfl
@[simp] theorem SysReg.ofCode_code (x : SysReg) : SysReg.ofCode x.code = some x := by cases x <;> rfl

@[simp] theorem Special.ofCode_code (r : Special) : Special.ofCode r.code = some r := by
  cases r with
  | lev n => revert n; decide
  | _ => rfl

@[simp] theorem bit_false : bit false = 0#1 := rfl
@[simp] theorem bit_true : bit true = 1#1 := rfl
@[simp] theorem bit_beq_one (b : Bool) : (bit b == 1#1) = b := by cases b <;> rfl

/-! ## The steps of a decoder -/

@[simp] theorem need_true (e : DecodeError) : need true e = .ok () := rfl
@[simp] theorem orElse_some {α : Type} (a : α) (e : DecodeError) : orElse (some a) e = .ok a := rfl
@[simp] theorem Dec.ok_bind {α β : Type} (a : α) (f : α → Dec β) : (Except.ok a >>= f) = f a := rfl
@[simp] theorem Dec.pure_eq_ok {α : Type} (a : α) : (pure a : Dec α) = .ok a := rfl

/-! ## Operand fields

The library's lemmas about the parts of `a ++ b` are given the parts' widths, without which `simp` does not find them in a field of literal
width. -/

open BitVec (extractLsb'_append_eq_of_le extractLsb'_append_eq_left extractLsb'_append_eq_right extractLsb'_extractLsb'_of_le)

@[simp] theorem decSrc_encSrc (a : Src) : decSrc (encSrc a) = .ok a := by
  cases a with
  | v n =>
    simp [decSrc, encSrc, extractLsb'_append_eq_of_le (v := 2) (w := 8), extractLsb'_append_eq_right (w := 2) (w' := 8)]
  | s n | const n | spec r =>
    simp [decSrc, encSrc, extractLsb'_append_eq_of_le (v := 4) (w := 6), extractLsb'_append_eq_right (w := 4) (w' := 6)]
  | trans n =>
    simp [decSrc, encSrc, extractLsb'_append_eq_of_le (v := 5) (w := 5), extractLsb'_append_eq_right (w := 5) (w' := 5)]
  | pop n =>
    simp [decSrc, encSrc, extractLsb'_append_eq_of_le (v := 6) (w := 4), extractLsb'_append_eq_right (w := 6) (w' := 4)]
  | tok n | pred n =>
    simp [decSrc, encSrc, extractLsb'_append_eq_of_le (v := 7) (w := 3), extractLsb'_append_eq_right (w := 7) (w' := 3)]
  | dword d w =>
    simp [decSrc, encSrc, extractLsb'_append_eq_of_le (v := 8) (w := 2), extractLsb'_append_eq_right (w := 8) (w' := 2),
      extractLsb'_append_eq_of_le (v := 4) (w := 4), extractLsb'_append_eq_right (w := 4) (w' := 4)]

@[simp] theorem decDst_encDst (d : Dst) : decDst (encDk d) (encDst d) = .ok d := by
  cases d with
  | v n | trans => rfl
  | s n =>
    simp [decDst, encDk, encDst, extractLsb'_append_eq_left (w := 2) (w' := 6), extractLsb'_append_eq_right (w := 2) (w' := 6)]
  | p n =>
    simp [decDst, encDk, encDst, extractLsb'_append_eq_left (w := 5) (w' := 3), extractLsb'_append_eq_right (w := 5) (w' := 3)]

/-- A source field names no transient and no predicate as a destination (R264). -/
theorem decVS_encVS {d : Dst} (h : d.isVS = true) : decVS (encVS d) = .ok d := by
  cases d with
  | v n =>
    simp [decVS, encVS, extractLsb'_append_eq_of_le (v := 2) (w := 8), extractLsb'_append_eq_right (w := 2) (w' := 8)]
  | s n =>
    simp [decVS, encVS, extractLsb'_append_eq_of_le (v := 4) (w := 6), extractLsb'_append_eq_right (w := 4) (w' := 6)]
  | trans | p n => exact absurd h Bool.false_ne_true

@[simp] theorem decBlock_encBlock (n : BitVec 6) : decBlock (encBlock n) = .ok n := by
  simp [decBlock, encBlock, extractLsb'_append_eq_left (w := 4) (w' := 6), extractLsb'_append_eq_right (w := 4) (w' := 6)]

/-! ## The parts of FN and MOD (R273) -/

section
variable {k len : Nat}

@[simp] theorem extractLsb'_append_1_5_hi (a : BitVec 1) (b : BitVec 5) (h : 5 ≤ k) :
    (a ++ b : BitVec 6).extractLsb' k len = a.extractLsb' (k - 5) len := extractLsb'_append_eq_of_le h
@[simp] theorem extractLsb'_append_1_5_lo (a : BitVec 1) (b : BitVec 5) (h : k + len ≤ 5) :
    (a ++ b : BitVec 6).extractLsb' k len = b.extractLsb' k len := BitVec.extractLsb'_append_eq_of_add_le h
@[simp] theorem extractLsb'_append_2_4_hi (a : BitVec 2) (b : BitVec 4) (h : 4 ≤ k) :
    (a ++ b : BitVec 6).extractLsb' k len = a.extractLsb' (k - 4) len := extractLsb'_append_eq_of_le h
@[simp] theorem extractLsb'_append_2_4_lo (a : BitVec 2) (b : BitVec 4) (h : k + len ≤ 4) :
    (a ++ b : BitVec 6).extractLsb' k len = b.extractLsb' k len := BitVec.extractLsb'_append_eq_of_add_le h
@[simp] theorem extractLsb'_append_3_3_hi (a b : BitVec 3) (h : 3 ≤ k) :
    (a ++ b : BitVec 6).extractLsb' k len = a.extractLsb' (k - 3) len := extractLsb'_append_eq_of_le h
@[simp] theorem extractLsb'_append_3_3_lo (a b : BitVec 3) (h : k + len ≤ 3) :
    (a ++ b : BitVec 6).extractLsb' k len = b.extractLsb' k len := BitVec.extractLsb'_append_eq_of_add_le h
@[simp] theorem extractLsb'_append_4_2_hi (a : BitVec 4) (b : BitVec 2) (h : 2 ≤ k) :
    (a ++ b : BitVec 6).extractLsb' k len = a.extractLsb' (k - 2) len := extractLsb'_append_eq_of_le h
@[simp] theorem extractLsb'_append_4_2_lo (a : BitVec 4) (b : BitVec 2) (h : k + len ≤ 2) :
    (a ++ b : BitVec 6).extractLsb' k len = b.extractLsb' k len := BitVec.extractLsb'_append_eq_of_add_le h
@[simp] theorem extractLsb'_append_5_1_hi (a : BitVec 5) (b : BitVec 1) (h : 1 ≤ k) :
    (a ++ b : BitVec 6).extractLsb' k len = a.extractLsb' (k - 1) len := extractLsb'_append_eq_of_le h
@[simp] theorem extractLsb'_append_5_1_lo (a : BitVec 5) (b : BitVec 1) (h : k + len ≤ 1) :
    (a ++ b : BitVec 6).extractLsb' k len = b.extractLsb' k len := BitVec.extractLsb'_append_eq_of_add_le h

end

section
variable (rm : Rnd) (sat b1 b0 : Bool)

@[simp] theorem extractLsb'_rmMod_rm : (rmMod rm sat b1 b0).extractLsb' 3 3 = rm.code := by
  simp [rmMod, extractLsb'_append_eq_of_le (v := 4) (w := 1), extractLsb'_append_eq_of_le (v := 3) (w := 1)]
@[simp] theorem extractLsb'_rmMod_sat : (rmMod rm sat b1 b0).extractLsb' 2 1 = bit sat := by
  simp [rmMod, extractLsb'_append_eq_of_le (v := 4) (w := 1), extractLsb'_append_eq_right (w := 3) (w' := 1)]
@[simp] theorem extractLsb'_rmMod_b1 : (rmMod rm sat b1 b0).extractLsb' 1 1 = bit b1 := by
  simp [rmMod, extractLsb'_append_eq_right (w := 4) (w' := 1)]
@[simp] theorem extractLsb'_rmMod_b0 : (rmMod rm sat b1 b0).extractLsb' 0 1 = bit b0 := by simp [rmMod]
@[simp] theorem extractLsb'_rmMod_lo : (rmMod rm sat false false).extractLsb' 0 2 = 0#2 := by cases rm <;> cases sat <;> rfl

@[simp] theorem extractLsb'_satMod_hi : (satMod sat).extractLsb' 3 3 = 0#3 := by cases sat <;> rfl
@[simp] theorem extractLsb'_satMod_sat : (satMod sat).extractLsb' 2 1 = bit sat := by cases sat <;> rfl
@[simp] theorem extractLsb'_satMod_lo : (satMod sat).extractLsb' 0 2 = 0#2 := by cases sat <;> rfl

end

/-! ## The readers of a format

Each reads the format's fields as the encoder writes them. -/

section
variable (op : BitVec 8) (fn m : BitVec 6) (dk : BitVec 2) (dst : BitVec 8) (s1 s2 s3 : BitVec 10) (pg : BitVec 3) (pn : BitVec 1)
variable (d : Dst) (a b c : Src) (g : Guard)

@[simp] theorem FmtA.noDst_mk : FmtA.noDst ⟨op, fn, dk, dst, s1, s2, s3, pg, pn, m⟩ = (dk == 0 && dst == 0) := rfl
@[simp] theorem FmtA.noS1_mk : FmtA.noS1 ⟨op, fn, dk, dst, s1, s2, s3, pg, pn, m⟩ = (s1 == 0) := rfl
@[simp] theorem FmtA.noS23_mk : FmtA.noS23 ⟨op, fn, dk, dst, s1, s2, s3, pg, pn, m⟩ = (s2 == 0 && s3 == 0) := rfl
@[simp] theorem FmtA.fnHi_mk : FmtA.fnHi ⟨op, fn, dk, dst, s1, s2, s3, pg, pn, m⟩ = fn.extractLsb' 3 3 := rfl
@[simp] theorem FmtA.fnLo_mk : FmtA.fnLo ⟨op, fn, dk, dst, s1, s2, s3, pg, pn, m⟩ = fn.extractLsb' 0 3 := rfl
@[simp] theorem FmtA.mHi_mk : FmtA.mHi ⟨op, fn, dk, dst, s1, s2, s3, pg, pn, m⟩ = m.extractLsb' 3 3 := rfl
@[simp] theorem FmtA.mSat_mk : FmtA.mSat ⟨op, fn, dk, dst, s1, s2, s3, pg, pn, m⟩ = m.extractLsb' 2 1 := rfl
@[simp] theorem FmtA.mLo_mk : FmtA.mLo ⟨op, fn, dk, dst, s1, s2, s3, pg, pn, m⟩ = m.extractLsb' 0 2 := rfl
@[simp] theorem FmtA.mB0_mk : FmtA.mB0 ⟨op, fn, dk, dst, s1, s2, s3, pg, pn, m⟩ = m.extractLsb' 0 1 := rfl
@[simp] theorem FmtA.mB1_mk : FmtA.mB1 ⟨op, fn, dk, dst, s1, s2, s3, pg, pn, m⟩ = m.extractLsb' 1 1 := rfl
@[simp] theorem FmtA.mZero_mk : FmtA.mZero ⟨op, fn, dk, dst, s1, s2, s3, pg, pn, 0#6⟩ = .ok () := rfl
@[simp] theorem FmtA.rm_mk : FmtA.rm ⟨op, fn, dk, dst, s1, s2, s3, pg, pn, m⟩ =
    orElse (Rnd.ofCode (m.extractLsb' 3 3)) .reservedField := rfl

@[simp] theorem FmtA.satOnly_mk (sat : Bool) :
    FmtA.satOnly ⟨op, fn, dk, dst, s1, s2, s3, pg, pn, satMod sat⟩ = .ok sat := by simp [FmtA.satOnly]
@[simp] theorem FmtA.intTy_mk (hi : BitVec 3) (t : IntTy) :
    FmtA.intTy ⟨op, hi ++ t.code, dk, dst, s1, s2, s3, pg, pn, m⟩ hi = .ok t := by simp [FmtA.intTy]
@[simp] theorem FmtA.packTy_mk (t : PackTy) :
    FmtA.packTy ⟨op, 0#3 ++ t.code, dk, dst, s1, s2, s3, pg, pn, m⟩ = .ok t := by simp [FmtA.packTy]
@[simp] theorem FmtA.imm_mk (imm : BitVec 20) :
    FmtA.imm ⟨op, fn, dk, dst, s1, imm.extractLsb' 10 10, imm.extractLsb' 0 10, pg, pn, m⟩ = imm :=
  BitVec.extractLsb'_append_extractLsb'

@[simp] theorem FmtA.guard_mk : FmtA.guard ⟨op, fn, dk, dst, s1, s2, s3, g.pg, bit g.pn, m⟩ = g := by simp [FmtA.guard]
@[simp] theorem FmtA.ops1_mk :
    FmtA.ops1 ⟨op, fn, encDk d, encDst d, encSrc a, 0#10, 0#10, g.pg, bit g.pn, m⟩ = .ok ⟨d, a, g⟩ := by simp [FmtA.ops1]
@[simp] theorem FmtA.opsB_mk :
    FmtA.opsB ⟨op, fn, encDk d, encDst d, encSrc a, s2, s3, g.pg, bit g.pn, m⟩ = .ok ⟨d, a, g⟩ := by simp [FmtA.opsB]
@[simp] theorem FmtA.ops2_mk :
    FmtA.ops2 ⟨op, fn, encDk d, encDst d, encSrc a, encSrc b, 0#10, g.pg, bit g.pn, m⟩ = .ok ⟨d, a, b, g⟩ := by
  simp [FmtA.ops2]
@[simp] theorem FmtA.ops13_mk :
    FmtA.ops13 ⟨op, fn, encDk d, encDst d, encSrc a, 0#10, encSrc b, g.pg, bit g.pn, m⟩ = .ok ⟨d, a, b, g⟩ := by
  simp [FmtA.ops13]
@[simp] theorem FmtA.ops3_mk :
    FmtA.ops3 ⟨op, fn, encDk d, encDst d, encSrc a, encSrc b, encSrc c, g.pg, bit g.pn, m⟩ = .ok ⟨d, a, b, c, g⟩ := by
  simp [FmtA.ops3]

end

section
variable (op dst : BitVec 8) (fn : BitVec 4) (base index : BitVec 10) (off : BitVec 14) (scope : BitVec 3) (ord : BitVec 1)
  (scale : BitVec 2) (g : Guard)

@[simp] theorem FmtM.guard_mk : FmtM.guard ⟨op, fn, dst, base, index, off, g.pg, bit g.pn, scope, ord, scale⟩ = g := by
  simp [FmtM.guard]
@[simp] theorem FmtM.memA_mk (x : MemA) :
    FmtM.memA ⟨op, x.w.code, x.r, encSrc x.base, encSrc x.index, x.off, x.g.pg, bit x.g.pn, x.scope.code, bit x.ord, x.scale⟩ =
      .ok x := by simp [FmtM.memA]
@[simp] theorem FmtM.atomA_mk (x : AtomA) :
    FmtM.atomA ⟨op, x.op.code, x.r, encSrc x.base, encSrc x.x, x.off, x.g.pg, bit x.g.pn, x.scope.code, bit x.ord, x.ty.code⟩ =
      .ok x := by simp [FmtM.atomA]
@[simp] theorem FmtM.fenceScope_mk (pg : BitVec 3) (pn : BitVec 1) (sc : Scope) :
    FmtM.fenceScope ⟨op, fn, 0#8, 0#10, 0#10, 0#14, pg, pn, sc.code, 1#1, 0#2⟩ = .ok sc := by simp [FmtM.fenceScope]
@[simp] theorem FmtM.rangeA_mk (x : RangeA) :
    FmtM.rangeA ⟨op, 0#4, 0#8, encSrc x.base, encSrc x.n, x.off, x.g.pg, bit x.g.pn, scope, ord, 0#2⟩ = .ok x := by
  simp [FmtM.rangeA]

end

section
variable (op : BitVec 8) (fn m : BitVec 6) (da db oba obb : BitVec 4) (acc pg : BitVec 3) (sa sb : BitVec 10) (z pn : BitVec 1)

@[simp] theorem FmtX.noDa_mk : FmtX.noDa ⟨op, fn, da, db, acc, oba, obb, sa, sb, z, pg, pn, m⟩ = (da == 0) := rfl
@[simp] theorem FmtX.noDb_mk : FmtX.noDb ⟨op, fn, da, db, acc, oba, obb, sa, sb, z, pg, pn, m⟩ = (db == 0) := rfl
@[simp] theorem FmtX.noAcc_mk : FmtX.noAcc ⟨op, fn, da, db, acc, oba, obb, sa, sb, z, pg, pn, m⟩ = (acc == 0) := rfl
@[simp] theorem FmtX.noOb_mk : FmtX.noOb ⟨op, fn, da, db, acc, oba, obb, sa, sb, z, pg, pn, m⟩ = (oba == 0 && obb == 0) := rfl
@[simp] theorem FmtX.noSb_mk : FmtX.noSb ⟨op, fn, da, db, acc, oba, obb, sa, sb, z, pg, pn, m⟩ = (sb == 0) := rfl
@[simp] theorem FmtX.guard_mk (g : Guard) :
    FmtX.guard ⟨op, fn, da, db, acc, oba, obb, sa, sb, z, g.pg, bit g.pn, m⟩ = g := by simp [FmtX.guard]

end

@[simp] theorem FmtJ.guard_mk (op : BitVec 8) (fn m : BitVec 6) (t : BitVec 38) (z : BitVec 2) (g : Guard) :
    FmtJ.guard ⟨op, fn, t, z, g.pg, bit g.pn, m⟩ = g := by simp [FmtJ.guard]
@[simp] theorem FmtY.guard_mk (op dst : BitVec 8) (fn m : BitVec 6) (dk : BitVec 2) (s1 : BitVec 10) (r : BitVec 16) (z : BitVec 4)
    (g : Guard) : FmtY.guard ⟨op, fn, dk, dst, s1, r, z, g.pg, bit g.pn, m⟩ = g := by simp [FmtY.guard]

/-! ## The sub-decoders that several instructions share -/

section
variable (op : BitVec 8) (d : Dst) (a b c : Src) (g : Guard) (t : IntTy) (sat : Bool)

@[simp] theorem decBare_toWord (mk : Guard → Instr) :
    decBare (FmtA.toWord ⟨op, 0#6, 0#2, 0#8, 0#10, 0#10, 0#10, g.pg, bit g.pn, 0#6⟩) mk = .ok (mk g) := by
  simp [decBare, FmtA.bare]
@[simp] theorem decIndirect_toWord (mk : Guard → Src → Instr) :
    decIndirect (FmtA.toWord ⟨op, 0#6, 0#2, 0#8, encSrc a, 0#10, 0#10, g.pg, bit g.pn, 0#6⟩) mk = .ok (mk g a) := by
  simp [decIndirect]
@[simp] theorem decInt2S_mk (mk : Ops2 → IntTy → Bool → Instr) :
    decInt2S ⟨op, 0#3 ++ t.code, encDk d, encDst d, encSrc a, encSrc b, 0#10, g.pg, bit g.pn, satMod sat⟩ mk =
      .ok (mk ⟨d, a, b, g⟩ t sat) := by simp [decInt2S]
@[simp] theorem decInt2_mk (hi : BitVec 3) (mk : Ops2 → IntTy → Instr) :
    decInt2 ⟨op, hi ++ t.code, encDk d, encDst d, encSrc a, encSrc b, 0#10, g.pg, bit g.pn, 0#6⟩ hi mk =
      .ok (mk ⟨d, a, b, g⟩ t) := by simp [decInt2]
@[simp] theorem decInt1_mk (hi : BitVec 3) (mk : Ops1 → IntTy → Instr) :
    decInt1 ⟨op, hi ++ t.code, encDk d, encDst d, encSrc a, 0#10, 0#10, g.pg, bit g.pn, 0#6⟩ hi mk =
      .ok (mk ⟨d, a, g⟩ t) := by simp [decInt1]
@[simp] theorem decInt3_mk (mk : Ops3 → IntTy → Instr) :
    decInt3 ⟨op, 0#3 ++ t.code, encDk d, encDst d, encSrc a, encSrc b, encSrc c, g.pg, bit g.pn, 0#6⟩ mk =
      .ok (mk ⟨d, a, b, c, g⟩ t) := by simp [decInt3]
@[simp] theorem decImmS_mk (imm : BitVec 20) (mk : Ops1 → IntTy → Bool → BitVec 20 → Instr) :
    decImmS ⟨op, 0#3 ++ t.code, encDk d, encDst d, encSrc a, imm.extractLsb' 10 10, imm.extractLsb' 0 10, g.pg, bit g.pn,
      satMod sat⟩ mk = .ok (mk ⟨d, a, g⟩ t sat imm) := by simp [decImmS]
@[simp] theorem dec1_mk (fn : BitVec 6) (mk : Ops1 → Instr) :
    dec1 ⟨op, fn, encDk d, encDst d, encSrc a, 0#10, 0#10, g.pg, bit g.pn, 0#6⟩ mk = .ok (mk ⟨d, a, g⟩) := by simp [dec1]
@[simp] theorem decSfu_mk (mk : Ops1 → Instr) :
    decSfu ⟨op, 0#6, encDk d, encDst d, encSrc a, 0#10, 0#10, g.pg, bit g.pn, 0#6⟩ mk = .ok (mk ⟨d, a, g⟩) := by simp [decSfu]
@[simp] theorem decTok3_mk (mk : Ops3 → Instr) :
    decTok3 ⟨op, 0#6, encDk d, encDst d, encSrc a, encSrc b, encSrc c, g.pg, bit g.pn, 0#6⟩ mk = .ok (mk ⟨d, a, b, c, g⟩) := by
  simp [decTok3]
@[simp] theorem decBar_mk (k : BitVec 4) (mk : Guard → BitVec 4 → Instr) :
    decBar ⟨op, 0#6, 0#2, 0#8, 0#10, 0#10, 0#10, g.pg, bit g.pn, 0#2 ++ k⟩ mk = .ok (mk g k) := by simp [decBar]
@[simp] theorem decAcc_mk (acc : BitVec 3) (mk : Guard → BitVec 3 → Instr) :
    decAcc ⟨op, 0#6, 0#4, 0#4, acc, 0#4, 0#4, 0#10, 0#10, 0#1, g.pg, bit g.pn, 0#6⟩ mk = .ok (mk g acc) := by simp [decAcc]
@[simp] theorem decCopy_mk (da db : BitVec 4) (n : BitVec 6) (mk : Guard → BitVec 4 → BitVec 4 → BitVec 6 → Instr) :
    decCopy ⟨op, 0#6, da, db, 0#3, 0#4, 0#4, encBlock n, 0#10, 0#1, g.pg, bit g.pn, 0#6⟩ mk = .ok (mk g da db n) := by
  simp [decCopy]

end

/-! ## Every instruction word -/

/-- By OP group, the group's decoder reads back what the encoder wrote. Only a destination in a source field needs `wf`: it is V or S. -/
theorem decFields_encode {i : Instr} (hword : i.isWord = true) (hwf : i.wf = true) : decFields (encode i) = .ok i := by
  cases i with
  | br _ _ | brcAny _ _ | brcAll _ _ | call _ _ | loop _ _ _ | join _ _ _ => simp [encode, encJ, decFields, decControl, decJ]
  | brx _ _ | callx _ _ => simp [encode, mkA, decFields, decControl]
  | ret _ | yield _ | exit _ | nop _ => simp [encode, encBare, mkA, decFields, decControl]
  | iadd _ _ _ | iadd3 _ _ _ | isub _ _ _ | imul _ _ _ | imulh _ _ | imad _ _ _ | imadWide _ _ _ | imin _ _ | imax _ _ | iabs _ _ _
  | lea _ _ _ _ | shl _ _ | shr _ _ | sar _ _ | rol _ _ | ror _ _ | sel _ _ | icmp _ _ _ _ | movi _ _ _ _ =>
    simp [encode, enc1, enc2, enc3, mkA, decFields, decInt]
  | mov _ | movN64 _ => simp [encode, enc1, mkA, decFields, decInt, decMov]
  | movSpecial _ _ fpsr => cases fpsr <;> simp [encode, mkA, decFields, decInt, decMov]
  | movDWord _ _ _ =>
    simp [encode, mkA, decFields, decInt, decMov, extractLsb'_append_eq_left (w := 2) (w' := 6),
      extractLsb'_append_eq_right (w := 2) (w' := 6)]
  | bfx _ _ | bfi _ _ | popc _ _ | clz _ _ | ctz _ _ | brev _ _ | lop _ _ _ | iaddImm _ _ _ _ | imulImm _ _ _ _ | lopImm _ _ _ _
  | shiftImm _ _ _ _ | icmpImm _ _ _ _ => simp [encode, enc1, enc2, enc3, encB, mkA, decFields, decBits]
  | iminmaxImm _ _ isMax _ => cases isMax <;> simp [encode, encB, mkA, decFields, decBits]
  | plop _ _ =>
    simp [encode, enc3, mkA, decFields, decLanes, BitVec.extractLsb'_append_extractLsb' (w := 6) (len := 2)]
  | pmovPack _ _ | pmovSet _ _ _ | voteAll _ | voteAny _ | voteEq _ | voteBallot _ | voteCount _ | perm _ | shfl _ _ _ _ | bcastIdx _ _
  | bcastFirst _ _ | cmpct _ _ => simp [encode, enc1, enc2, enc3, mkA, decFields, decLanes]
  | fadd _ _ _ _ _ | fmul _ _ _ _ | ffma _ _ _ _ _ | fmin _ _ | fmax _ _ | fcmp _ _ _ | fclass _ | fclassTest _ | frnd _ _ =>
    simp [encode, enc1, enc2, enc3, mkA, decFields, decFp]
  | faddPacked _ _ _ _ _ _ | fmulPacked _ _ _ _ _ | ffmaPacked _ _ _ _ _ _ | fminPacked _ _ _ | fmaxPacked _ _ _ | fcmpPacked _ _ _ =>
    simp [encode, enc2, enc3, mkA, decFields, decPacked]
  | cvt _ _ _ _ _ =>
    simp [encode, mkA, decFields, decConv, extractLsb'_append_eq_left (w := 5) (w' := 5),
      extractLsb'_append_eq_right (w := 5) (w' := 5)]
  | cvtPacked _ _ _ _ | mxpack _ _ _ _ _ | mxunpack _ _ _ | dot4 _ _ _ _ => simp [encode, enc1, enc3, mkA, decFields, decConv]
  | rcp _ | rsq _ | sqrt _ | exp2 _ | log2 _ | sin _ | cos _ | tanh _ | sigm _ | red _ _ _ _ =>
    simp [encode, enc1, mkA, decFields, decSfuRed]
  | scan _ _ _ _ excl cin => cases excl <;> cases cin <;> simp [encode, enc2, mkA, decFields, decSfuRed]
  | ldl _ | ldg _ | ldy _ | ldkv _ | ldt _ => simp [encode, encMem, decFields, decLoad]
  | stl _ | stg _ | sty _ => simp [encode, encMem, decFields, decStore]
  | atomGlobal _ | atomLocal _ | atomYard _ | atomGlobalNoret _ | atomLocalNoret _ | atomYardNoret _ | fence _ _ | fenceEng _ _
  | prefL1 _ _ _ _ _ | prefDc _ _ _ _ _ | cwb _ | cinv _ | iinv _ _ | fetchb _ =>
    simp [encode, encAtom, encFence, encPref, encRange, decFields, decAtomFence]
  | crewJoin _ => simp [encode, encBare, mkA, decFields, decSync]
  | monArm _ _ _ _ _ =>
    simp [encode, mkA, decFields, decSync, extractLsb'_append_eq_left (w := 3) (w' := 1),
      extractLsb'_append_eq_right (w := 3) (w' := 1)]
  | barArrive _ _ | barWait _ _ | barSync _ _ | crewLeave _ _ | crewQuery _ _ | crewQueryGang _ _ | qpush _ _ _ | qpop _ _ _
  | waitc _ _ _ | waitStamp _ _ _ _ _ => simp [encode, mkA, decFields, decSync]
  | mma _ _ _ _ _ _ _ _ _ | accNew _ _ | accZero _ _ | accLd _ _ _ _ | accSt _ _ _ _ _ _ | tld _ _ _ _ =>
    simp [encode, encX, decFields, decMatrix]
  | accRd _ _ _ d =>
    have hd : d.isVS = true := hwf
    simp [encode, encX, decFields, decMatrix, decVS_encVS hd]
  | shapeMake _ _ _ e _ | copyArm _ _ _ _ e _ =>
    have he : e.isVS = true := (Bool.and_eq_true_iff.mp hwf).2
    simp [encode, encX, decFields, decEngine, decVS_encVS he]
  | copyDisarm _ e _ =>
    have he : e.isVS = true := hwf
    simp [encode, encX, decFields, decEngine, decVS_encVS he]
  | coll _ _ _ _ _ _ _ =>
    simp [encode, encX, decFields, decEngine, extractLsb'_append_eq_left (w := 2) (w' := 2),
      extractLsb'_append_eq_right (w := 2) (w' := 2)]
  | copy _ _ _ _ | copyCond _ _ _ _ | copyMc _ _ _ | tokLoad _ _ _ _ _ | tokHdr _ | tokRetire _ | tokSend _ | tokSpawn _ =>
    simp [encode, encX, enc1, enc3, mkA, decFields, decEngine]
  | benchEnter _ _ | benchExit _ | benchState _ | fwd _ | steer _ | gate _ | merge _ =>
    simp [encode, encX, enc1, enc3, enc13, mkA, decFields, decSystem]
  | trap _ _ | tret _ | svc _ _ | sysr _ _ _ | sysw _ _ _ | survey _ | featTest _ | featCtx _ _ | halt _ =>
    simp [encode, encY, decFields, decSystem, FmtY.only]
  | _ => exact absurd hword Bool.false_ne_true

theorem decode_encode {i : Instr} (hword : i.isWord = true) (hwf : i.wf = true) : decode (encode i) = .instr i := by
  simp only [decode, decFields_encode hword hwf, hwf, if_true]

/-- Settles O38: `decode_encode`, the fields of each format and then the operands they hold. -/
theorem encodeDecode : Obligations.EncodeDecode := fun _ => decode_encode

/-- Settles O36: each word's fields are literals, and decoding computes. -/
theorem decodeWords : Obligations.DecodeWords := ⟨rfl, rfl, rfl, rfl, rfl, rfl, rfl, rfl, rfl, rfl, rfl, rfl⟩

end Sys2Proof
end
